-- ==== Sys2Proof/Word.lean ====
section
/-! DEFINITION. The word types of the Breram and their plainest arithmetic (spec/00_scope.md R12, R14). -/

namespace Sys2Proof

/-- A thread register, 64 bits (R19). -/
abbrev Word := BitVec 64

/-- A byte of memory. -/
abbrev Byte := BitVec 8

/-- An instruction word (R16). -/
abbrev IWord := BitVec 32

/-- x[h:l] read as an unsigned integer (R14), on a natural number. -/
def bitsOf (x h l : Nat) : Nat := (x / 2 ^ l) % 2 ^ (h + 1 - l)

end Sys2Proof
end

