-- ==== Sys2Proof/Syntax.lean ====
section
/-! DEFINITION. The instructions and events of the Breram: one constructor for each row of the opcode table
(spec/01_words.md R17 to R43; the events are the steps of spec/95_what_each_step_holds.md). -/

namespace Sys2Proof

/-- A source operand code (R19): result queue by age, named register, warp-uniform register. -/
inductive Src where
  | q (i : Fin 16)
  | n (i : Fin 32)
  | w (i : Fin 16)
  deriving DecidableEq, Repr

/-- A destination of a W = 0 word (R21): push only, or push and write a named register. -/
inductive PDst where
  | push
  | named (i : Fin 32)
  deriving DecidableEq, Repr

/-- A destination of a word that allows W (R21, R24): W = 0 with a thread destination, or W = 1 with a w register. -/
inductive Dst where
  | thread (p : PDst)
  | uni (i : Fin 16)
  deriving DecidableEq, Repr

/-- The stall count st (R25). -/
abbrev Stall := Fin 8

/-- The operation width (R113). -/
inductive Width where
  | w32
  | w64
  deriving DecidableEq, Repr

/-- The forms of IADD and ISUB (R118). -/
inductive SatMode where
  | wrap
  | ss
  | us
  deriving DecidableEq, Repr

/-- The relations of ICMP (R124). -/
inductive ICmpRel where
  | eq
  | ne
  | lt
  | le
  | ltu
  | leu
  deriving DecidableEq, Repr

/-- The relations of FCMP (R135). -/
inductive FCmpRel where
  | eq
  | ne
  | lt
  | le
  | gt
  | ge
  | un
  deriving DecidableEq, Repr

/-- The floating-point formats (R50), codes 0 to 4 of R42. -/
inductive FFmt where
  | fp32
  | bf16
  | fp16
  | e4m3
  | e5m2
  deriving DecidableEq, Repr

/-- The source formats of FCVT (R42). -/
inductive CvtSrc where
  | float (f : FFmt)
  | s8
  | s16
  | s32
  | s64
  | z8
  | z16
  | z32
  | z64
  deriving DecidableEq, Repr

/-- The destination formats of FCVT (R42). -/
inductive CvtDst where
  | float (f : FFmt)
  | s32
  | z32
  | s64
  deriving DecidableEq, Repr

/-- The rounding codes b[2:0] of R42; the last three toggle the saturation default. -/
inductive RndCode where
  | rne
  | rz
  | rd
  | ru
  | sr
  | rneT
  | rzT
  | srT
  deriving DecidableEq, Repr

/-- The width codes of format M (R23). -/
inductive MemW where
  | z8
  | z16
  | z32
  | x64
  | s8
  | s16
  | s32
  | x128
  deriving DecidableEq, Repr

/-- The operations of CVEC (R157). -/
inductive CvecOp where
  | add
  | mul
  | fma
  | max
  | min
  deriving DecidableEq, Repr

/-- The reductions of CRED (R158). -/
inductive CredOp where
  | sum
  | max
  | min
  deriving DecidableEq, Repr

/-- The operations of CATOM and ATOM (R164, R212). -/
inductive AtomOp where
  | add
  | fadd
  | min
  | max
  | and
  | or
  | xor
  | exch
  deriving DecidableEq, Repr

/-- Scopes (R36, R209), narrow to wide. -/
inductive Scope where
  | core
  | die
  | pkg
  | sys
  deriving DecidableEq, Repr

/-- The kinds of FENCE (R209). -/
inductive FenceKind where
  | acq
  | rel
  | ar
  deriving DecidableEq, Repr

/-- The special registers of SRD (R43). -/
inductive Special where
  | tid
  | lane
  | hwarp
  | group
  | gang
  | launch
  | core
  | die
  | slot
  | place
  | ctx
  | tenant
  | pkg
  | clock
  | wake
  | misscnt
  deriving DecidableEq, Repr

/-- A core of the package. -/
structure CoreId where
  die : Fin 8
  core : Fin 128
  deriving DecidableEq, Repr

/-- A thread: of a group (by the model's group number, its home warp and its home lane), or of the trap handler of a
core. -/
inductive ThreadKey where
  | home (gid : Nat) (hwarp : Fin 16) (lane : Fin 32)
  | handler (core : CoreId) (lane : Fin 32)
  deriving DecidableEq, Repr

/-- A queue of a tenant (R331). -/
structure QueueId where
  tenant : Fin 64
  q : Fin 16
  deriving DecidableEq, Repr

/-- What start-up meets outside the device's logic (R405): a stack that fails training, no tundish, dies that do not
start, off-package ports that fail. -/
structure StartOutcome where
  stackFail : Option (Fin 16)
  noTundish : Bool
  dieFail : BitVec 8
  portFail : BitVec 32
  deriving DecidableEq, Repr

/-- The AtomicOps of a host (R378, R385). -/
inductive HostAtomicOp where
  | fetchAdd32
  | fetchAdd64
  | swap32
  | swap64
  | cas64
  deriving DecidableEq, Repr

/-- What another package asks of a byte range of this one (R396). -/
inductive RemoteOp where
  | read
  | write (data : List Byte)
  | atomic (op : HostAtomicOp) (x y : BitVec 64)
  /-- A `STKRED` packet (R245, R372): its type as in R244, and its operand. -/
  | landing (red : Fin 4) (p : BitVec 32)
  /-- A return-free atomic (R213, R372), of 8 bytes where `wide`. -/
  | free (op : AtomOp) (wide : Bool) (p : BitVec 64)
  deriving DecidableEq, Repr

/-- The rows of spec/opcode_table.json. The words come first, in the table's order, then the events. -/
inductive Instr where
  -- hints and LIT (R29 to R39)
  | hintNop (kind : BitVec 4) (payload : BitVec 19) (st : Stall)
  | hintYield (payload : BitVec 19) (st : Stall)
  | hintDead (payload : BitVec 19) (st : Stall)
  | hintPref (payload : BitVec 19) (st : Stall)
  | hintMod (payload : BitVec 19) (st : Stall)
  | hintDln (payload : BitVec 19) (st : Stall)
  | hintPhase (payload : BitVec 19) (st : Stall)
  | lit (value : BitVec 22) (st : Stall)
  | illegalWord (word : IWord)
  -- integer words of format A (R117)
  | iadd (n : Width) (m : SatMode) (a b : Src) (d : Dst) (st : Stall)
  | isub (n : Width) (m : SatMode) (a b : Src) (d : Dst) (st : Stall)
  | imul (n : Width) (a b : Src) (d : Dst) (st : Stall)
  | imulhS (n : Width) (a b : Src) (d : Dst) (st : Stall)
  | imulhU (n : Width) (a b : Src) (d : Dst) (st : Stall)
  | imin (n : Width) (uns : Bool) (a b : Src) (d : Dst) (st : Stall)
  | imax (n : Width) (uns : Bool) (a b : Src) (d : Dst) (st : Stall)
  | iabs (n : Width) (a : Src) (d : Dst) (st : Stall)
  | andW (a b : Src) (d : Dst) (st : Stall)
  | orW (a b : Src) (d : Dst) (st : Stall)
  | xorW (a b : Src) (d : Dst) (st : Stall)
  | andn (a b : Src) (d : Dst) (st : Stall)
  | shl (n : Width) (a b : Src) (d : Dst) (st : Stall)
  | shr (n : Width) (a b : Src) (d : Dst) (st : Stall)
  | sar (n : Width) (a b : Src) (d : Dst) (st : Stall)
  | rot (n : Width) (a b : Src) (d : Dst) (st : Stall)
  | popc (n : Width) (a : Src) (d : Dst) (st : Stall)
  | clz (n : Width) (a : Src) (d : Dst) (st : Stall)
  | brev (n : Width) (a : Src) (d : Dst) (st : Stall)
  | bfe (n : Width) (a b : Src) (d : Dst) (st : Stall)
  | icmp (n : Width) (rel : ICmpRel) (a b : Src) (d : Dst) (st : Stall)
  | lea (sh : Fin 16) (a b : Src) (d : Dst) (st : Stall)
  -- moves and REGS (R108, R114)
  | mov (a : Src) (d : Dst) (st : Stall)
  | smov (a : Src) (d : Fin 16) (st : Stall)
  | shfl (a : Fin 32) (b : Src) (d : PDst) (st : Stall)
  | grow (t : Fin 4) (st : Stall)
  | growTry (t : Fin 4) (d : PDst) (st : Stall)
  | shrink (t : Fin 4) (st : Stall)
  -- integer words of format F (R125)
  | imad (n : Width) (a b c : Src) (uni : Bool) (st : Stall)
  | bfi (n : Width) (a b c : Src) (uni : Bool) (st : Stall)
  | sel (a b c : Src) (uni : Bool) (st : Stall)
  -- integer words of format I (R127)
  | iaddi (a : Src) (d : Dst) (imm : BitVec 10) (st : Stall)
  | andi (a : Src) (d : Dst) (imm : BitVec 10) (st : Stall)
  | ori (a : Src) (d : Dst) (imm : BitVec 10) (st : Stall)
  | xori (a : Src) (d : Dst) (imm : BitVec 10) (st : Stall)
  | shli (a : Src) (d : Dst) (imm : BitVec 10) (st : Stall)
  | shri (a : Src) (d : Dst) (imm : BitVec 10) (st : Stall)
  | sari (a : Src) (d : Dst) (imm : BitVec 10) (st : Stall)
  | movi (d : Dst) (imm : BitVec 10) (st : Stall)
  -- floating-point words (R130)
  | fadd (na aa ab : Bool) (a b : Src) (d : Dst) (st : Stall)
  | fsub (na aa ab : Bool) (a b : Src) (d : Dst) (st : Stall)
  | fmul (neg aa ab : Bool) (a b : Src) (d : Dst) (st : Stall)
  | fmin (a b : Src) (d : Dst) (st : Stall)
  | fmax (a b : Src) (d : Dst) (st : Stall)
  | fcmp (rel : FCmpRel) (a b : Src) (d : Dst) (st : Stall)
  | frcp (a : Src) (d : PDst) (st : Stall)
  | frsq (a : Src) (d : PDst) (st : Stall)
  | fexp2 (a : Src) (d : PDst) (st : Stall)
  | flog2 (a : Src) (d : PDst) (st : Stall)
  | fsin (a : Src) (d : PDst) (st : Stall)
  | fcos (a : Src) (d : PDst) (st : Stall)
  | ftanh (a : Src) (d : PDst) (st : Stall)
  | fcvt (src : CvtSrc) (dst : CvtDst) (rnd : RndCode) (a : Src) (d : Dst) (st : Stall)
  | hadd2 (h : Bool) (a b : Src) (d : PDst) (st : Stall)
  | hmul2 (h : Bool) (a b : Src) (d : PDst) (st : Stall)
  | hmax2 (h : Bool) (a b : Src) (d : PDst) (st : Stall)
  | ffma (neg nc : Bool) (a b c : Src) (uni : Bool) (st : Stall)
  | hfma2 (h neg nc : Bool) (a b c : Src) (st : Stall)
  -- control (R91, R87, R93, R95, R96)
  | bra (disp : BitVec 17) (st : Stall)
  | bnz (a : Src) (disp : BitVec 17) (st : Stall)
  | bz (a : Src) (disp : BitVec 17) (st : Stall)
  | call (disp : BitVec 17) (st : Stall)
  | jmpr (a : Src) (st : Stall)
  | ret (a : Src) (st : Stall)
  | join (k : Fin 12) (st : Stall)
  | leave (k : Fin 12) (st : Stall)
  | waitk (k : Fin 12) (st : Stall)
  | voteAll (a : Src) (k : Fin 12) (d : PDst) (st : Stall)
  | voteAny (a : Src) (k : Fin 12) (d : PDst) (st : Stall)
  | voteBal (a : Src) (k : Fin 12) (d : PDst) (st : Stall)
  | voteCnt (a : Src) (k : Fin 12) (d : PDst) (st : Stall)
  | exit (st : Stall)
  | tail (st : Stall)
  | trap (num : BitVec 6) (st : Stall)
  | brk (st : Stall)
  | srd (sp : Special) (d : PDst) (st : Stall)
  -- scratchpad and crucible (R154, R156)
  | lds (a : Src) (d : PDst) (w : MemW) (off : BitVec 8) (st : Stall)
  | sts (a : Src) (d : Src) (w : MemW) (off : BitVec 8) (st : Stall)
  | ld (a : Src) (d : PDst) (w : MemW) (off : BitVec 8) (st : Stall)
  | store (a : Src) (d : Src) (w : MemW) (off : BitVec 8) (st : Stall)
  | cvec (op : CvecOp) (long : Bool) (a b : Src) (st : Stall)
  | cred (op : CredOp) (a : Src) (d : PDst) (st : Stall)
  | credStat (d : PDst) (st : Stall)
  | csmx (a b : Src) (d : PDst) (st : Stall)
  | ccvt (a b : Src) (st : Stall)
  | cqnt (a b : Src) (st : Stall)
  | catom (op : AtomOp) (a b : Src) (d : PDst) (st : Stall)
  | ccas (a b c : Src) (st : Stall)
  | cwait (st : Stall)
  | cfence (st : Stall)
  -- device memory (R211, R216, R209, R217)
  | atom (n : Width) (op : AtomOp) (a b : Src) (d : PDst) (st : Stall)
  | acas (n : Width) (a b c : Src) (st : Stall)
  | fence (scope : Scope) (kind : FenceKind) (st : Stall)
  | waita (a b c : Src) (st : Stall)
  -- transfers (R245, R249)
  | copy (a b : Src) (d : PDst) (st : Stall)
  | gath (a b : Src) (d : PDst) (st : Stall)
  | scat (a b : Src) (d : PDst) (st : Stall)
  | stkred (a b : Src) (d : PDst) (st : Stall)
  | stkcvt (a b : Src) (d : PDst) (st : Stall)
  | cpwait (a : Src) (d : PDst) (st : Stall)
  -- records and tile words (R256)
  | seal (a b : Src) (d : PDst) (st : Stall)
  | shape (a b : Src) (d : PDst) (st : Stall)
  | mxld (a b : Src) (d : PDst) (st : Stall)
  | mxmm (a b : Src) (d : PDst) (st : Stall)
  | mxsp (a b : Src) (sel : Fin 8) (st : Stall)
  | oprdy (st : Stall)
  | mxwait (a : Src) (d : PDst) (st : Stall)
  | acz (a b : Src) (d : PDst) (st : Stall)
  | acld (a b : Src) (d : PDst) (st : Stall)
  | acst (a b : Src) (d : PDst) (st : Stall)
  -- barrier words (R280)
  | binit (a b : Src) (st : Stall)
  | barr (a : Src) (d : PDst) (st : Stall)
  | barrx (a b : Src) (d : PDst) (st : Stall)
  | bwait (a b : Src) (d : PDst) (st : Stall)
  | bxin (a b : Src) (st : Stall)
  | bxout (a b : Src) (st : Stall)
  -- ladle, work and memory words (R306, R343, R187)
  | go (a : Src) (d : PDst) (st : Stall)
  | homeW (st : Stall)
  | whereW (a : Src) (d : PDst) (st : Stall)
  | qpost (a b : Src) (d : PDst) (st : Stall)
  | evsig (a b : Src) (st : Stall)
  | sig (a : Src) (st : Stall)
  | crit (a : Src) (d : PDst) (st : Stall)
  | mhint (a b : Src) (d : PDst) (st : Stall)
  -- privileged words (R355)
  | tret (st : Stall)
  | trd (a : Src) (d : PDst) (st : Stall)
  | twr (a b : Src) (st : Stall)
  | tres (a : Src) (d : PDst) (st : Stall)
  | tstop (a : Src) (d : PDst) (st : Stall)
  | tkill (a : Src) (d : PDst) (st : Stall)
  | pinv (a b : Src) (st : Stall)
  -- events of threads and issue
  | stallExpire (t : ThreadKey)
  | resultReturn (op : Nat)
  | fairnessTimer (c : CoreId) (slot : Fin 64)
  | maskRelease (gid : Nat) (hwarp : Fin 16) (k : Fin 12)
  | growGrant (gid : Nat) (hwarp : Fin 16)
  -- events of scratchpad and memory
  | bankServe (c : CoreId) (bank : Fin 32)
  | linePresent (op : Nat) (line : Nat)
  | storeDrain (c : CoreId) (slot : Fin 64)
  | l2Eviction (d : Fin 8) (line : Nat)
  | watchDeadline (watch : Nat)
  | watchWake (d : Fin 8) (slice : Fin 64)
  -- events of transfers, tiles and stacks
  | transferFlight (op : Nat)
  | transferDone (op : Nat)
  | transferFault (op : Nat)
  | engineDecrement (op : Nat) (inB outB : Nat)
  | tileFlight (op : Nat)
  | tileDone (op : Nat)
  | tileFault (op : Nat)
  | stackLanding (packet : Nat)
  | runnerMerge (p1 p2 : Nat)
  -- events of ladles
  | ladleDeparture (t : ThreadKey)
  | ladleLanding (t : ThreadKey)
  | ladleRefusal (t : ThreadKey)
  | ladleReturn (t : ThreadKey)
  | recall (t : ThreadKey)
  | endNotice (t : ThreadKey)
  | guestReport (d : Fin 8)
  -- events of groups, gangs and cores
  | parkSave (gid : Nat)
  | compactionSave (gid : Nat)
  | relaunch (gid : Nat)
  | doze (c : CoreId)
  | coreWake (c : CoreId)
  | critBudgetExpire (gid : Nat)
  | preemptRecognise (gid : Nat)
  | preemptSave (gang : Nat)
  | bind (gid : Nat)
  | contextLoad (c : CoreId) (ctx : Fin 2048)
  | groupRetire (gid : Nat)
  -- events of the tundish and its queues
  | gangHandout
  | latencyBoundExpire (q : QueueId)
  | launchComplete (q : QueueId) (launch : BitVec 32)
  | eventPoll
  | launchSubmit (port : Fin 2) (q : QueueId) (off : BitVec 12) (data : List Byte)
  | eventWindowWrite (port : Fin 2) (tenant : Fin 64) (off : BitVec 12) (data : List Byte)
  | queueDrain (q : QueueId)
  | queueSuspend (q : QueueId)
  | queueResume (q : QueueId)
  | queueClear (q : QueueId)
  | queueCreate (q : QueueId) (ctx : Fin 2048)
  | queueRebind (q : QueueId) (ctx : Fin 2048)
  | queueRemove (q : QueueId)
  | vlogAck (tenant : Fin 64) (value : BitVec 64)
  -- events of contexts and dies
  | cxCreate (ctx : Fin 2048)
  | cxDestroy (ctx : Fin 2048)
  | cxSetDieMask (ctx : Fin 2048) (mask : BitVec 8)
  | cxHandlerRestart (ctx : Fin 2048)
  | cxCommandDone (ctx : Fin 2048)
  | handlerLimit (c : CoreId)
  | dieLoss (d : Fin 8)
  | carveAssign (d : Fin 8) (u : Fin 8) (ctx : Fin 2048)
  | carveRelease (d : Fin 8) (u : Fin 8)
  | dieReqOn (d : Fin 8) (req : BitVec 6)
  | dieReqNt (d : Fin 8) (req : BitVec 6)
  | dieReqGated (d : Fin 8)
  | diePowerDone (d : Fin 8)
  -- events of the memory controllers
  | dramGrant (stack : Fin 16) (pch : Fin 64)
  | refreshDue (stack : Fin 16) (pch : Fin 64) (bank : Nat)
  | earlyRefresh (stack : Fin 16) (pch : Fin 64) (bank : Nat)
  | phaseExpire (stack : Fin 16) (c : CoreId)
  | missNotice (n : Nat)
  -- events of hosts and links
  | hostRead (port : Fin 2) (tenant : Fin 64) (off : BitVec 64) (len : Nat)
  | hostWrite (port : Fin 2) (tenant : Fin 64) (off : BitVec 64) (data : List Byte)
  | hostAtomic (port : Fin 2) (tenant : Fin 64) (off : BitVec 64) (op : HostAtomicOp) (x y : BitVec 64)
  | functionLevelReset (port : Fin 2) (vf : Fin 64)
  | linkReplay (link : Nat)
  | linkFail (stack : Fin 16) (k : Fin 2)
  | linkRetrain (stack : Fin 16) (k : Fin 2)
  -- events of power and boot
  | powerOn
  | bootClaim (port : Fin 2)
  | bootCheck (port : Fin 2)
  | bootRestart (port : Fin 2)
  | pkgnumWrite (port : Fin 2) (num : BitVec 12)
  | startup (o : StartOutcome)
  | attestRequest (port : Fin 2)
  | attestReport
  | registerWrite (port : Fin 2) (off : BitVec 24) (value : BitVec 64)
  | instructionFetchReturn (t : ThreadKey)
  | carveUnitDone (d : Fin 8) (u : Fin 8)
  | offPackageRequest (stack : Fin 16) (k : Fin 2) (pa : BitVec 56) (len : Nat) (op : RemoteOp)
  | tokenBucketRefill (port : Fin 2) (fn : Fin 65) (out : Bool)
  | powerOff
  | msixVectorUnmask (port : Fin 2) (vf : Fin 64) (vec : Fin 64)
  deriving DecidableEq, Repr

end Sys2Proof
end

