-- ==== Sys2Proof/WellFormed.lean ====
section
/-! DEFINITION. Which terms of Instr are instructions the manual gives an encoding to, or events it describes
(spec/01_words.md R18 to R24, R41, R42; sizes of host accesses from spec/19_link.md R378, R381). -/

namespace Sys2Proof

/-- The operand names a warp-uniform register. -/
def Src.isW : Src → Bool
  | .w _ => true
  | _ => false

/-- The destination makes the word a W = 1 word (R24). -/
def Dst.isUni : Dst → Bool
  | .uni _ => true
  | .thread _ => false

/-- R24: a W = 1 word has only w codes in its source fields. -/
def uniOk (uni : Bool) (srcs : List Src) : Bool := !uni || srcs.all Src.isW

/-- R23: the width codes legal on `LD` (and on `LDS` beside the 128-bit one). -/
def MemW.isLoad : MemW → Bool
  | .x128 => false
  | _ => true

/-- R23: the width codes legal on `STS` and `ST`. -/
def MemW.isStore : MemW → Bool
  | .z8 | .z16 | .z32 | .x64 => true
  | _ => false

/-- The rounding code toggles the saturation default (R42). -/
def RndCode.isToggle : RndCode → Bool
  | .rneT | .rzT | .srT => true
  | _ => false

/-- The format has a saturation default that can be toggled (R42). -/
def FFmt.hasSat : FFmt → Bool
  | .e4m3 | .e5m2 => true
  | _ => false

/-- R42: a toggle needs an E4M3 or E5M2 destination, and an integer source needs a float destination. -/
def cvtOk (src : CvtSrc) (dst : CvtDst) (r : RndCode) : Bool :=
  (match src, dst with
    | .float _, _ => true
    | _, .float _ => true
    | _, _ => false) &&
  (match dst with
    | .float f => !r.isToggle || f.hasSat
    | _ => !r.isToggle)

/-- R23: a 128-bit `LDS` may not name n31. -/
def ldsOk (w : MemW) (d : PDst) : Bool :=
  match w, d with
  | .x128, .named i => i.val != 31
  | _, _ => true

/-- R31: the kinds that execute as NOP by their number. -/
def nopKind (k : BitVec 4) : Bool := k.toNat == 0 || 7 ≤ k.toNat

/-- Well-formed instructions and events. -/
def Instr.wf : Instr → Bool
  | .hintNop k _ _ => nopKind k
  | .iadd _ _ a b d _ | .isub _ _ a b d _ => uniOk d.isUni [a, b]
  | .imul _ a b d _ | .imulhS _ a b d _ | .imulhU _ a b d _ => uniOk d.isUni [a, b]
  | .imin _ _ a b d _ | .imax _ _ a b d _ => uniOk d.isUni [a, b]
  | .iabs _ a d _ | .popc _ a d _ | .clz _ a d _ | .brev _ a d _ => uniOk d.isUni [a]
  | .andW a b d _ | .orW a b d _ | .xorW a b d _ | .andn a b d _ => uniOk d.isUni [a, b]
  | .shl _ a b d _ | .shr _ a b d _ | .sar _ a b d _ | .rot _ a b d _ | .bfe _ a b d _ => uniOk d.isUni [a, b]
  | .icmp _ _ a b d _ | .lea _ a b d _ => uniOk d.isUni [a, b]
  | .mov a d _ => uniOk d.isUni [a]
  | .imad _ a b c u _ | .bfi _ a b c u _ | .sel a b c u _ | .ffma _ _ a b c u _ => uniOk u [a, b, c]
  | .iaddi a d _ _ | .andi a d _ _ | .ori a d _ _ | .xori a d _ _ => uniOk d.isUni [a]
  | .shli a d _ _ | .shri a d _ _ | .sari a d _ _ => uniOk d.isUni [a]
  | .fadd _ _ _ a b d _ | .fsub _ _ _ a b d _ | .fmul _ _ _ a b d _ => uniOk d.isUni [a, b]
  | .fmin a b d _ | .fmax a b d _ | .fcmp _ a b d _ => uniOk d.isUni [a, b]
  | .fcvt s t r a d _ => cvtOk s t r && uniOk d.isUni [a]
  | .lds _ d w _ _ => ldsOk w d
  | .ld _ _ w _ _ => w.isLoad
  | .sts _ _ w _ _ | .store _ _ w _ _ => w.isStore
  | .launchSubmit _ _ off data | .eventWindowWrite _ _ off data =>
      0 < data.length && off.toNat + data.length ≤ 4096
  | .hostRead _ _ _ len => 0 < len && len ≤ 4096
  | .hostWrite _ _ _ data => 0 < data.length && data.length ≤ 512
  | _ => true

end Sys2Proof
end

