-- ==== Sys2Proof/Decode.lean ====
section
/-! DEFINITION. Decoding and encoding of instruction words (spec/01_words.md R16 to R24, R29 to R44). Decoding is total:
every 32-bit word gives its instruction or the name of what makes it ILLEGAL (R44). -/

namespace Sys2Proof

/-- What makes a word no instruction (R18, R21 to R24, R29, R40 to R44). -/
inductive DecodeError where
  | reservedMajor
  | unassignedFn
  | unusedField
  | badDestination
  | badW
  | badUniformSource
  | badWidth
  | badControl
  | badMaskIndex
  | badCount
  | badSpecial
  | badLit
  deriving DecidableEq, Repr

/-- The fields of a word (R17), as numbers. -/
def fOp (x : Nat) : Nat := x / 67108864 % 64
def fA (x : Nat) : Nat := x / 1048576 % 64
def fB (x : Nat) : Nat := x / 16384 % 64
def fD (x : Nat) : Nat := x / 256 % 64
def fFn (x : Nat) : Nat := x / 16 % 16
def fW (x : Nat) : Nat := x / 8 % 2
def fSt (x : Nat) : Stall := Fin.ofNat 8 x

/-- Format I, M, B, L and H fields (R17). -/
def fImm10 (x : Nat) : BitVec 10 := BitVec.ofNat 10 (x / 16)
def fMw (x : Nat) : Nat := x / 2048 % 8
def fImm8 (x : Nat) : BitVec 8 := BitVec.ofNat 8 (x / 8)
def fDisp (x : Nat) : BitVec 17 := BitVec.ofNat 17 (x / 8)
def fLit (x : Nat) : BitVec 22 := BitVec.ofNat 22 (x / 16)
def fKind (x : Nat) : Nat := x / 4194304 % 16
def fPay (x : Nat) : BitVec 19 := BitVec.ofNat 19 (x / 8)

/-- A source operand from its 6-bit code (R19). -/
def srcOf (c : Nat) : Src :=
  if c < 16 then .q (Fin.ofNat 16 c) else if c < 48 then .n (Fin.ofNat 32 (c - 16)) else .w (Fin.ofNat 16 (c - 48))

/-- Fails with the given name unless the condition holds. -/
def need (c : Bool) (e : DecodeError) : Except DecodeError Unit := if c then .ok () else .error e

/-- A destination code of a word without W (R21). -/
def pdstOf (c : Nat) : Except DecodeError PDst :=
  if c = 0 then .ok .push
  else if 16 ≤ c ∧ c < 48 then .ok (.named (Fin.ofNat 32 (c - 16)))
  else .error .badDestination

/-- A destination code of a word that allows W (R21). -/
def dstOf (c w : Nat) : Except DecodeError Dst :=
  if w = 0 then (pdstOf c).map .thread
  else if 48 ≤ c then .ok (.uni (Fin.ofNat 16 (c - 48)))
  else .error .badDestination

/-- Width from one bit: 1 selects `.64` (R40). -/
def widthOf (b : Nat) : Width := if b = 0 then .w32 else .w64

/-- A bit as a flag. -/
def flag (b : Nat) : Bool := b % 2 == 1

def satOf : Nat → Except DecodeError SatMode
  | 0 => .ok .wrap
  | 1 => .ok .ss
  | 2 => .ok .us
  | _ => .error .unassignedFn

def relOf : Nat → Except DecodeError ICmpRel
  | 0 => .ok .eq
  | 1 => .ok .ne
  | 2 => .ok .lt
  | 3 => .ok .le
  | 4 => .ok .ltu
  | 5 => .ok .leu
  | _ => .error .unassignedFn

def frelOf : Nat → Except DecodeError FCmpRel
  | 0 => .ok .eq
  | 1 => .ok .ne
  | 2 => .ok .lt
  | 3 => .ok .le
  | 4 => .ok .gt
  | 5 => .ok .ge
  | 6 => .ok .un
  | _ => .error .unassignedFn

def ffmtOf : Nat → Option FFmt
  | 0 => some .fp32
  | 1 => some .bf16
  | 2 => some .fp16
  | 3 => some .e4m3
  | 4 => some .e5m2
  | _ => none

/-- The source format of FCVT (R42). -/
def cvtSrcOf : Nat → Except DecodeError CvtSrc
  | 0 => .ok (.float .fp32)
  | 1 => .ok (.float .bf16)
  | 2 => .ok (.float .fp16)
  | 3 => .ok (.float .e4m3)
  | 4 => .ok (.float .e5m2)
  | 8 => .ok .s8
  | 9 => .ok .s16
  | 10 => .ok .s32
  | 11 => .ok .s64
  | 12 => .ok .z8
  | 13 => .ok .z16
  | 14 => .ok .z32
  | 15 => .ok .z64
  | _ => .error .unassignedFn

/-- The destination format of FCVT (R42). -/
def cvtDstOf : Nat → CvtDst
  | 0 => .float .fp32
  | 1 => .float .bf16
  | 2 => .float .fp16
  | 3 => .float .e4m3
  | 4 => .float .e5m2
  | 5 => .s32
  | 6 => .z32
  | _ => .s64

def rndOf : Nat → RndCode
  | 0 => .rne
  | 1 => .rz
  | 2 => .rd
  | 3 => .ru
  | 4 => .sr
  | 5 => .rneT
  | 6 => .rzT
  | _ => .srT

/-- The width code of format M (R23). -/
def memWOf : Nat → MemW
  | 0 => .z8
  | 1 => .z16
  | 2 => .z32
  | 3 => .x64
  | 4 => .s8
  | 5 => .s16
  | 6 => .s32
  | _ => .x128

def atomOpOf : Nat → AtomOp
  | 0 => .add
  | 1 => .fadd
  | 2 => .min
  | 3 => .max
  | 4 => .and
  | 5 => .or
  | 6 => .xor
  | _ => .exch

def cvecOpOf : Nat → CvecOp
  | 0 => .add
  | 1 => .mul
  | 2 => .fma
  | 3 => .max
  | _ => .min

def credOpOf : Nat → CredOp
  | 0 => .sum
  | 1 => .max
  | _ => .min

def scopeOf : Nat → Scope
  | 0 => .core
  | 1 => .die
  | 2 => .pkg
  | _ => .sys

def fenceKindOf : Nat → Except DecodeError FenceKind
  | 0 => .ok .acq
  | 1 => .ok .rel
  | 2 => .ok .ar
  | _ => .error .unassignedFn

/-- The special number of SRD (R43). -/
def specialOf : Nat → Except DecodeError Special
  | 0 => .ok .tid
  | 1 => .ok .lane
  | 2 => .ok .hwarp
  | 3 => .ok .group
  | 4 => .ok .gang
  | 5 => .ok .launch
  | 6 => .ok .core
  | 7 => .ok .die
  | 8 => .ok .slot
  | 9 => .ok .place
  | 10 => .ok .ctx
  | 11 => .ok .tenant
  | 12 => .ok .pkg
  | 13 => .ok .clock
  | 14 => .ok .wake
  | 15 => .ok .misscnt
  | _ => .error .badSpecial

/-- The mask index of a MASK word (R41, R87). -/
def maskOf (c : Nat) : Except DecodeError (Fin 12) :=
  if h : c < 12 then .ok ⟨c, h⟩ else .error .badMaskIndex

/-- The target count of a REGS word (R108): 8, 16, 24 or 32. -/
def countOf : Nat → Except DecodeError (Fin 4)
  | 8 => .ok 0
  | 16 => .ok 1
  | 24 => .ok 2
  | 32 => .ok 3
  | _ => .error .badCount

/-- W must be 0 (R24). -/
def noW (x : Nat) : Except DecodeError Unit := need (fW x == 0) .badW

/-- R24: the sources of a W = 1 word are w codes. -/
def uniSrc (w : Nat) (l : List Src) : Except DecodeError Unit := need (uniOk (w == 1) l) .badUniformSource

/-- An unused field must be zero (R18). -/
def unused (f : Nat) : Except DecodeError Unit := need (f == 0) .unusedField

/-- Two-source words of format A that allow W. -/
def decA2 (x : Nat) (mk : Src → Src → Dst → Stall → Instr) : Except DecodeError Instr := do
  let d ← dstOf (fD x) (fW x)
  uniSrc (fW x) [srcOf (fA x), srcOf (fB x)]
  .ok (mk (srcOf (fA x)) (srcOf (fB x)) d (fSt x))

/-- One-source words of format A that allow W: b is unused. -/
def decA1 (x : Nat) (mk : Src → Dst → Stall → Instr) : Except DecodeError Instr := do
  unused (fB x)
  let d ← dstOf (fD x) (fW x)
  uniSrc (fW x) [srcOf (fA x)]
  .ok (mk (srcOf (fA x)) d (fSt x))

/-- Two sources and a destination, W = 0. -/
def decP2 (x : Nat) (mk : Src → Src → PDst → Stall → Instr) : Except DecodeError Instr := do
  noW x
  let d ← pdstOf (fD x)
  .ok (mk (srcOf (fA x)) (srcOf (fB x)) d (fSt x))

/-- One source and a destination, W = 0, b unused. -/
def decP1 (x : Nat) (mk : Src → PDst → Stall → Instr) : Except DecodeError Instr := do
  noW x
  unused (fB x)
  let d ← pdstOf (fD x)
  .ok (mk (srcOf (fA x)) d (fSt x))

/-- Two sources, nothing pushed, W = 0. -/
def decS2 (x : Nat) (mk : Src → Src → Stall → Instr) : Except DecodeError Instr := do
  noW x
  unused (fD x)
  .ok (mk (srcOf (fA x)) (srcOf (fB x)) (fSt x))

/-- One source, nothing pushed, W = 0. -/
def decS1 (x : Nat) (mk : Src → Stall → Instr) : Except DecodeError Instr := do
  noW x
  unused (fB x)
  unused (fD x)
  .ok (mk (srcOf (fA x)) (fSt x))

/-- No operand, W = 0. -/
def decS0 (x : Nat) (i : Instr) : Except DecodeError Instr := do
  noW x
  unused (fA x)
  unused (fB x)
  unused (fD x)
  .ok i

/-- Words of format F that allow W (R22). -/
def decF (x : Nat) (mk : Src → Src → Src → Bool → Stall → Instr) : Except DecodeError Instr := do
  need (fW x == 0 || 48 ≤ fD x) .badDestination
  uniSrc (fW x) [srcOf (fA x), srcOf (fB x), srcOf (fD x)]
  .ok (mk (srcOf (fA x)) (srcOf (fB x)) (srcOf (fD x)) (fW x == 1) (fSt x))

/-- Words of format F without W. -/
def decF0 (x : Nat) (mk : Src → Src → Src → Stall → Instr) : Except DecodeError Instr := do
  noW x
  .ok (mk (srcOf (fA x)) (srcOf (fB x)) (srcOf (fD x)) (fSt x))

/-- Words of format I with a source (R127). -/
def decI (x : Nat) (mk : Src → Dst → BitVec 10 → Stall → Instr) : Except DecodeError Instr := do
  let d ← dstOf (fB x) (fW x)
  uniSrc (fW x) [srcOf (fA x)]
  .ok (mk (srcOf (fA x)) d (fImm10 x) (fSt x))

/-- HINT (R31): kinds 7 to 15 execute as NOP. -/
def decHint (x : Nat) : Instr :=
  match fKind x with
  | 1 => .hintYield (fPay x) (fSt x)
  | 2 => .hintDead (fPay x) (fSt x)
  | 3 => .hintPref (fPay x) (fSt x)
  | 4 => .hintMod (fPay x) (fSt x)
  | 5 => .hintDln (fPay x) (fSt x)
  | 6 => .hintPhase (fPay x) (fSt x)
  | k => .hintNop (BitVec.ofNat 4 k) (fPay x) (fSt x)

/-- IMINMAX (R117, R120). -/
def decMinMax (x : Nat) : Except DecodeError Instr :=
  match fFn x % 4 with
  | 0 => decA2 x (.imin (widthOf (fFn x / 8)) (flag (fFn x / 4)))
  | 1 => decA2 x (.imax (widthOf (fFn x / 8)) (flag (fFn x / 4)))
  | 2 => if flag (fFn x / 4) then .error .unassignedFn else decA1 x (.iabs (widthOf (fFn x / 8)))
  | _ => .error .unassignedFn

def decShift (x : Nat) : Except DecodeError Instr :=
  if 8 ≤ fFn x then .error .unassignedFn
  else match fFn x % 4 with
  | 0 => decA2 x (.shl (widthOf (fFn x / 4)))
  | 1 => decA2 x (.shr (widthOf (fFn x / 4)))
  | 2 => decA2 x (.sar (widthOf (fFn x / 4)))
  | _ => decA2 x (.rot (widthOf (fFn x / 4)))

def decBits (x : Nat) : Except DecodeError Instr :=
  if 8 ≤ fFn x then .error .unassignedFn
  else match fFn x % 4 with
  | 0 => decA1 x (.popc (widthOf (fFn x / 4)))
  | 1 => decA1 x (.clz (widthOf (fFn x / 4)))
  | 2 => decA1 x (.brev (widthOf (fFn x / 4)))
  | _ => decA2 x (.bfe (widthOf (fFn x / 4)))

def decMul (x : Nat) : Except DecodeError Instr :=
  if 8 ≤ fFn x then .error .unassignedFn
  else match fFn x % 4 with
  | 0 => decA2 x (.imul (widthOf (fFn x / 4)))
  | 1 => decA2 x (.imulhS (widthOf (fFn x / 4)))
  | 2 => decA2 x (.imulhU (widthOf (fFn x / 4)))
  | _ => .error .unassignedFn

def decLogic (x : Nat) : Except DecodeError Instr :=
  match fFn x with
  | 0 => decA2 x .andW
  | 1 => decA2 x .orW
  | 2 => decA2 x .xorW
  | 3 => decA2 x .andn
  | _ => .error .unassignedFn

/-- MOV, SMOV, SHFL (R114). -/
def decMov (x : Nat) : Except DecodeError Instr :=
  match fFn x with
  | 0 => decA1 x .mov
  | 1 => do
    noW x
    unused (fB x)
    need (48 ≤ fD x) .badDestination
    .ok (.smov (srcOf (fA x)) (Fin.ofNat 16 (fD x - 48)) (fSt x))
  | 2 => do
    noW x
    need (16 ≤ fA x && fA x < 48) .badUniformSource
    let d ← pdstOf (fD x)
    .ok (.shfl (Fin.ofNat 32 (fA x - 16)) (srcOf (fB x)) d (fSt x))
  | _ => .error .unassignedFn

/-- REGS (R108). -/
def decRegs (x : Nat) : Except DecodeError Instr := do
  noW x
  unused (fB x)
  let t ← countOf (fA x)
  match fFn x with
  | 0 => do
    unused (fD x)
    .ok (.grow t (fSt x))
  | 1 => do
    let d ← pdstOf (fD x)
    .ok (.growTry t d (fSt x))
  | 2 => do
    unused (fD x)
    .ok (.shrink t (fSt x))
  | _ => .error .unassignedFn

/-- FTRN (R136). -/
def decFtrn (x : Nat) : Except DecodeError Instr :=
  match fFn x with
  | 0 => decP1 x .frcp
  | 1 => decP1 x .frsq
  | 2 => decP1 x .fexp2
  | 3 => decP1 x .flog2
  | 4 => decP1 x .fsin
  | 5 => decP1 x .fcos
  | 6 => decP1 x .ftanh
  | _ => .error .unassignedFn

/-- FCVT (R42, R139). -/
def decFcvt (x : Nat) : Except DecodeError Instr := do
  let s ← cvtSrcOf (fFn x)
  let t := cvtDstOf (fB x / 8)
  let r := rndOf (fB x % 8)
  need (cvtOk s t r) .badControl
  let d ← dstOf (fD x) (fW x)
  uniSrc (fW x) [srcOf (fA x)]
  .ok (.fcvt s t r (srcOf (fA x)) d (fSt x))

/-- HPK (R130, R141). -/
def decHpk (x : Nat) : Except DecodeError Instr :=
  if 8 ≤ fFn x then .error .unassignedFn
  else match fFn x % 4 with
  | 0 => decP2 x (.hadd2 (flag (fFn x / 4)))
  | 1 => decP2 x (.hmul2 (flag (fFn x / 4)))
  | 2 => decP2 x (.hmax2 (flag (fFn x / 4)))
  | _ => .error .unassignedFn

/-- MASK (R87). -/
def decMask (x : Nat) : Except DecodeError Instr := do
  noW x
  let k ← maskOf (fB x)
  match fFn x with
  | 0 => do
    unused (fA x)
    unused (fD x)
    .ok (.join k (fSt x))
  | 1 => do
    unused (fA x)
    unused (fD x)
    .ok (.leave k (fSt x))
  | 2 => do
    unused (fA x)
    unused (fD x)
    .ok (.waitk k (fSt x))
  | 3 => do
    let d ← pdstOf (fD x)
    .ok (.voteAll (srcOf (fA x)) k d (fSt x))
  | 4 => do
    let d ← pdstOf (fD x)
    .ok (.voteAny (srcOf (fA x)) k d (fSt x))
  | 5 => do
    let d ← pdstOf (fD x)
    .ok (.voteBal (srcOf (fA x)) k d (fSt x))
  | 6 => do
    let d ← pdstOf (fD x)
    .ok (.voteCnt (srcOf (fA x)) k d (fSt x))
  | _ => .error .unassignedFn

/-- SYS (R41, R95, R96). -/
def decSys (x : Nat) : Except DecodeError Instr := do
  noW x
  unused (fA x)
  match fFn x with
  | 0 => do
    unused (fD x)
    .ok (.trap (BitVec.ofNat 6 (fB x)) (fSt x))
  | 1 => do
    unused (fB x)
    unused (fD x)
    .ok (.brk (fSt x))
  | 2 => do
    let sp ← specialOf (fB x)
    let d ← pdstOf (fD x)
    .ok (.srd sp d (fSt x))
  | _ => .error .unassignedFn

/-- The loads of format M (R23). -/
def decLoad (x : Nat) (ok : MemW → PDst → Bool) (mk : Src → PDst → MemW → BitVec 8 → Stall → Instr) :
    Except DecodeError Instr := do
  let d ← pdstOf (fB x)
  need (ok (memWOf (fMw x)) d) .badWidth
  .ok (mk (srcOf (fA x)) d (memWOf (fMw x)) (fImm8 x) (fSt x))

/-- The stores of format M (R23). -/
def decStore (x : Nat) (mk : Src → Src → MemW → BitVec 8 → Stall → Instr) : Except DecodeError Instr := do
  need (memWOf (fMw x)).isStore .badWidth
  .ok (mk (srcOf (fA x)) (srcOf (fB x)) (memWOf (fMw x)) (fImm8 x) (fSt x))

/-- CRED (R156). -/
def decCred (x : Nat) : Except DecodeError Instr :=
  match fFn x with
  | 3 => do
    noW x
    unused (fA x)
    unused (fB x)
    let d ← pdstOf (fD x)
    .ok (.credStat d (fSt x))
  | f => if 3 < f then .error .unassignedFn else decP1 x (.cred (credOpOf f))

/-- FENCE (R209). -/
def decFence (x : Nat) : Except DecodeError Instr := do
  let k ← fenceKindOf (fFn x % 4)
  decS0 x (.fence (scopeOf (fFn x / 4)) k (fSt x))

/-- XFER (R245, R249). -/
def decXfer (x : Nat) : Except DecodeError Instr :=
  match fFn x with
  | 0 => decP2 x .copy
  | 1 => decP2 x .gath
  | 2 => decP2 x .scat
  | 3 => decP2 x .stkred
  | 4 => decP2 x .stkcvt
  | 5 => decP1 x .cpwait
  | _ => .error .unassignedFn

/-- TILE (R256). -/
def decTile (x : Nat) : Except DecodeError Instr :=
  match fFn x with
  | 0 => decP2 x .seal
  | 1 => decP2 x .shape
  | 2 => decP2 x .mxld
  | 3 => decP2 x .mxmm
  | 4 => do
    noW x
    need (fD x < 8) .unusedField
    .ok (.mxsp (srcOf (fA x)) (srcOf (fB x)) (Fin.ofNat 8 (fD x)) (fSt x))
  | 5 => decS0 x (.oprdy (fSt x))
  | 6 => decP1 x .mxwait
  | 7 => decP2 x .acz
  | 8 => decP2 x .acld
  | 9 => decP2 x .acst
  | _ => .error .unassignedFn

/-- BAR (R280). -/
def decBar (x : Nat) : Except DecodeError Instr :=
  match fFn x with
  | 0 => decS2 x .binit
  | 1 => decP1 x .barr
  | 2 => decP2 x .barrx
  | 3 => decP2 x .bwait
  | 4 => decS2 x .bxin
  | 5 => decS2 x .bxout
  | _ => .error .unassignedFn

/-- PRIV (R355). -/
def decPriv (x : Nat) : Except DecodeError Instr :=
  match fFn x with
  | 0 => decS0 x (.tret (fSt x))
  | 1 => decP1 x .trd
  | 2 => decS2 x .twr
  | 3 => decP1 x .tres
  | 4 => decP1 x .tstop
  | 5 => decP1 x .tkill
  | 6 => decS2 x .pinv
  | _ => .error .unassignedFn

/-- The instruction of a word, read as a number (R40). -/
def decodeNat (x : Nat) : Except DecodeError Instr :=
  match fOp x with
  | 0x00 => .ok (decHint x)
  | 0x01 => if fW x = 0 then .ok (.lit (fLit x) (fSt x)) else .error .badLit
  | 0x02 => do
    need (fFn x < 8) .unassignedFn
    let m ← satOf (fFn x % 4)
    decA2 x (.iadd (widthOf (fFn x / 4)) m)
  | 0x03 => do
    need (fFn x < 8) .unassignedFn
    let m ← satOf (fFn x % 4)
    decA2 x (.isub (widthOf (fFn x / 4)) m)
  | 0x04 => decMul x
  | 0x05 => decMinMax x
  | 0x06 => decLogic x
  | 0x07 => decShift x
  | 0x08 => decBits x
  | 0x09 => do
    let r ← relOf (fFn x % 8)
    decA2 x (.icmp (widthOf (fFn x / 8)) r)
  | 0x0A => decA2 x (.lea (Fin.ofNat 16 (fFn x)))
  | 0x0B => decMov x
  | 0x0C => decRegs x
  | 0x0D => do
    need (fFn x % 4 == 0 && fFn x < 8) .unassignedFn
    decF x (.imad (widthOf (fFn x / 4)))
  | 0x0E => do
    need (fFn x % 4 == 0 && fFn x < 8) .unassignedFn
    decF x (.bfi (widthOf (fFn x / 4)))
  | 0x0F => do
    need (fFn x == 0) .unassignedFn
    decF x .sel
  | 0x10 => decI x .iaddi
  | 0x11 => decI x .andi
  | 0x12 => decI x .ori
  | 0x13 => decI x .xori
  | 0x14 => decI x .shli
  | 0x15 => decI x .shri
  | 0x16 => decI x .sari
  | 0x17 => do
    unused (fA x)
    let d ← dstOf (fB x) (fW x)
    .ok (.movi d (fImm10 x) (fSt x))
  | 0x18 =>
    if flag (fFn x) then decA2 x (.fsub (flag (fFn x / 2)) (flag (fFn x / 4)) (flag (fFn x / 8)))
    else decA2 x (.fadd (flag (fFn x / 2)) (flag (fFn x / 4)) (flag (fFn x / 8)))
  | 0x19 => do
    need (fFn x < 8) .unassignedFn
    decA2 x (.fmul (flag (fFn x)) (flag (fFn x / 2)) (flag (fFn x / 4)))
  | 0x1A =>
    match fFn x with
    | 0 => decA2 x .fmin
    | 1 => decA2 x .fmax
    | _ => .error .unassignedFn
  | 0x1B => do
    let r ← frelOf (fFn x)
    decA2 x (.fcmp r)
  | 0x1C => decFtrn x
  | 0x1D => decFcvt x
  | 0x1E => decHpk x
  | 0x1F => do
    need (fFn x < 4) .unassignedFn
    decF x (.ffma (flag (fFn x)) (flag (fFn x / 2)))
  | 0x20 => do
    need (fFn x < 8) .unassignedFn
    decF0 x (.hfma2 (flag (fFn x / 4)) (flag (fFn x)) (flag (fFn x / 2)))
  | 0x21 => do
    unused (fA x)
    .ok (.bra (fDisp x) (fSt x))
  | 0x22 => .ok (.bnz (srcOf (fA x)) (fDisp x) (fSt x))
  | 0x23 => .ok (.bz (srcOf (fA x)) (fDisp x) (fSt x))
  | 0x24 => do
    unused (fA x)
    .ok (.call (fDisp x) (fSt x))
  | 0x25 =>
    match fFn x with
    | 0 => decS1 x .jmpr
    | 1 => decS1 x .ret
    | _ => .error .unassignedFn
  | 0x26 => decMask x
  | 0x27 =>
    match fFn x with
    | 0 => decS0 x (.exit (fSt x))
    | 1 => decS0 x (.tail (fSt x))
    | _ => .error .unassignedFn
  | 0x28 => decSys x
  | 0x29 => decLoad x (fun w d => ldsOk w d) .lds
  | 0x2A => decStore x .sts
  | 0x2B => decLoad x (fun w _ => w.isLoad) .ld
  | 0x2C => decStore x .store
  | 0x2D =>
    if 10 ≤ fFn x then .error .unassignedFn
    else decS2 x (.cvec (cvecOpOf (fFn x % 5)) (5 ≤ fFn x))
  | 0x2E => decCred x
  | 0x2F => do
    need (fFn x == 0) .unassignedFn
    decP2 x .csmx
  | 0x30 =>
    match fFn x with
    | 0 => decS2 x .ccvt
    | 1 => decS2 x .cqnt
    | _ => .error .unassignedFn
  | 0x31 => do
    need (fFn x < 8) .unassignedFn
    decP2 x (.catom (atomOpOf (fFn x)))
  | 0x32 => do
    need (fFn x == 0) .unassignedFn
    decF0 x .ccas
  | 0x33 =>
    match fFn x with
    | 0 => decS0 x (.cwait (fSt x))
    | 1 => decS0 x (.cfence (fSt x))
    | _ => .error .unassignedFn
  | 0x34 => do
    need (fFn x != 9) .unassignedFn
    decP2 x (.atom (widthOf (fFn x / 8)) (atomOpOf (fFn x % 8)))
  | 0x35 => do
    need (fFn x < 2) .unassignedFn
    decF0 x (.acas (widthOf (fFn x)))
  | 0x36 => decFence x
  | 0x37 => do
    need (fFn x == 0) .unassignedFn
    decF0 x .waita
  | 0x38 => decXfer x
  | 0x39 => decTile x
  | 0x3A => decBar x
  | 0x3B =>
    match fFn x with
    | 0 => decP1 x .go
    | 1 => decS0 x (.homeW (fSt x))
    | 2 => decP1 x .whereW
    | _ => .error .unassignedFn
  | 0x3C =>
    match fFn x with
    | 0 => decP2 x .qpost
    | 1 => decS2 x .evsig
    | 2 => decS1 x .sig
    | 3 => decP1 x .crit
    | _ => .error .unassignedFn
  | 0x3D => do
    need (fFn x == 0) .unassignedFn
    decP2 x .mhint
  | 0x3E => decPriv x
  | _ => .error .reservedMajor

/-- The instruction of a 32-bit word. Assembly text is no part of the machine (DESIGN CHOICE, safe: notes/assumptions/83.md). -/
def decode (w : IWord) : Except DecodeError Instr := decodeNat w.toNat

/-- The instruction of four bytes at an address, little-endian (R16). -/
def decodeBytes (b0 b1 b2 b3 : Byte) : Except DecodeError Instr :=
  decodeNat (b0.toNat + 256 * b1.toNat + 65536 * b2.toNat + 16777216 * b3.toNat)

/-- The decoder on an opcode-table word: `nbits` bits, all words of the table are of 32 bits. -/
def decodeTableWord (nbits w : Nat) : Option Instr :=
  if nbits ≤ 32 then
    match decodeBytes (BitVec.ofNat 8 w) (BitVec.ofNat 8 (w / 256)) (BitVec.ofNat 8 (w / 65536))
        (BitVec.ofNat 8 (w / 16777216)) with
    | .ok i => some i
    | .error _ => none
  else none

/-! ### The encoder, from the same tables -/

def srcCode : Src → Nat
  | .q i => i.val
  | .n i => 16 + i.val
  | .w i => 48 + i.val

def pdstCode : PDst → Nat
  | .push => 0
  | .named i => 16 + i.val

def dstCode : Dst → Nat
  | .thread p => pdstCode p
  | .uni i => 48 + i.val

def bit (b : Bool) : Nat := if b then 1 else 0

def dstW (d : Dst) : Nat := bit d.isUni

def widthBit : Width → Nat
  | .w32 => 0
  | .w64 => 1

def satCode : SatMode → Nat
  | .wrap => 0
  | .ss => 1
  | .us => 2

def relCode : ICmpRel → Nat
  | .eq => 0
  | .ne => 1
  | .lt => 2
  | .le => 3
  | .ltu => 4
  | .leu => 5

def frelCode : FCmpRel → Nat
  | .eq => 0
  | .ne => 1
  | .lt => 2
  | .le => 3
  | .gt => 4
  | .ge => 5
  | .un => 6

def ffmtCode : FFmt → Nat
  | .fp32 => 0
  | .bf16 => 1
  | .fp16 => 2
  | .e4m3 => 3
  | .e5m2 => 4

def cvtSrcCode : CvtSrc → Nat
  | .float f => ffmtCode f
  | .s8 => 8
  | .s16 => 9
  | .s32 => 10
  | .s64 => 11
  | .z8 => 12
  | .z16 => 13
  | .z32 => 14
  | .z64 => 15

def cvtDstCode : CvtDst → Nat
  | .float f => ffmtCode f
  | .s32 => 5
  | .z32 => 6
  | .s64 => 7

def rndCode : RndCode → Nat
  | .rne => 0
  | .rz => 1
  | .rd => 2
  | .ru => 3
  | .sr => 4
  | .rneT => 5
  | .rzT => 6
  | .srT => 7

def memWCode : MemW → Nat
  | .z8 => 0
  | .z16 => 1
  | .z32 => 2
  | .x64 => 3
  | .s8 => 4
  | .s16 => 5
  | .s32 => 6
  | .x128 => 7

def atomOpCode : AtomOp → Nat
  | .add => 0
  | .fadd => 1
  | .min => 2
  | .max => 3
  | .and => 4
  | .or => 5
  | .xor => 6
  | .exch => 7

def cvecOpCode : CvecOp → Nat
  | .add => 0
  | .mul => 1
  | .fma => 2
  | .max => 3
  | .min => 4

def credOpCode : CredOp → Nat
  | .sum => 0
  | .max => 1
  | .min => 2

def scopeCode : Scope → Nat
  | .core => 0
  | .die => 1
  | .pkg => 2
  | .sys => 3

def fenceKindCode : FenceKind → Nat
  | .acq => 0
  | .rel => 1
  | .ar => 2

def specialCode : Special → Nat
  | .tid => 0
  | .lane => 1
  | .hwarp => 2
  | .group => 3
  | .gang => 4
  | .launch => 5
  | .core => 6
  | .die => 7
  | .slot => 8
  | .place => 9
  | .ctx => 10
  | .tenant => 11
  | .pkg => 12
  | .clock => 13
  | .wake => 14
  | .misscnt => 15

/-- Format A, and F with d in the place of c (R17). -/
def encA (op a b d fn w : Nat) (st : Stall) : Nat :=
  op * 67108864 + a * 1048576 + b * 16384 + d * 256 + fn * 16 + w * 8 + st.val

/-- Format I (R17). -/
def encI (op a d : Nat) (imm : BitVec 10) (w : Nat) (st : Stall) : Nat :=
  op * 67108864 + a * 1048576 + d * 16384 + imm.toNat * 16 + w * 8 + st.val

/-- Format M (R17). -/
def encM (op a d w : Nat) (imm : BitVec 8) (st : Stall) : Nat :=
  op * 67108864 + a * 1048576 + d * 16384 + w * 2048 + imm.toNat * 8 + st.val

/-- Format B (R17). -/
def encB (op a : Nat) (disp : BitVec 17) (st : Stall) : Nat :=
  op * 67108864 + a * 1048576 + disp.toNat * 8 + st.val

/-- Format H (R17). -/
def encH (kind : Nat) (p : BitVec 19) (st : Stall) : Nat := kind * 4194304 + p.toNat * 8 + st.val

def encA2 (op fn : Nat) (a b : Src) (d : Dst) (st : Stall) : Nat :=
  encA op (srcCode a) (srcCode b) (dstCode d) fn (dstW d) st

def encA1 (op fn : Nat) (a : Src) (d : Dst) (st : Stall) : Nat :=
  encA op (srcCode a) 0 (dstCode d) fn (dstW d) st

def encP2 (op fn : Nat) (a b : Src) (d : PDst) (st : Stall) : Nat :=
  encA op (srcCode a) (srcCode b) (pdstCode d) fn 0 st

def encP1 (op fn : Nat) (a : Src) (d : PDst) (st : Stall) : Nat := encA op (srcCode a) 0 (pdstCode d) fn 0 st

def encS2 (op fn : Nat) (a b : Src) (st : Stall) : Nat := encA op (srcCode a) (srcCode b) 0 fn 0 st

def encS1 (op fn : Nat) (a : Src) (st : Stall) : Nat := encA op (srcCode a) 0 0 fn 0 st

def encS0 (op fn : Nat) (st : Stall) : Nat := encA op 0 0 0 fn 0 st

def encF (op fn : Nat) (a b c : Src) (u : Bool) (st : Stall) : Nat :=
  encA op (srcCode a) (srcCode b) (srcCode c) fn (bit u) st

def encIs (op : Nat) (a : Src) (d : Dst) (imm : BitVec 10) (st : Stall) : Nat :=
  encI op (srcCode a) (dstCode d) imm (dstW d) st

/-- The word of an instruction as a number; an event has none, and an ILLEGAL word is itself. -/
def encodeNat : Instr → Option Nat
  | .hintNop k p st => some (encH k.toNat p st)
  | .hintYield p st => some (encH 1 p st)
  | .hintDead p st => some (encH 2 p st)
  | .hintPref p st => some (encH 3 p st)
  | .hintMod p st => some (encH 4 p st)
  | .hintDln p st => some (encH 5 p st)
  | .hintPhase p st => some (encH 6 p st)
  | .lit v st => some (67108864 + v.toNat * 16 + st.val)
  | .illegalWord w => some w.toNat
  | .iadd n m a b d st => some (encA2 0x02 (widthBit n * 4 + satCode m) a b d st)
  | .isub n m a b d st => some (encA2 0x03 (widthBit n * 4 + satCode m) a b d st)
  | .imul n a b d st => some (encA2 0x04 (widthBit n * 4) a b d st)
  | .imulhS n a b d st => some (encA2 0x04 (widthBit n * 4 + 1) a b d st)
  | .imulhU n a b d st => some (encA2 0x04 (widthBit n * 4 + 2) a b d st)
  | .imin n u a b d st => some (encA2 0x05 (widthBit n * 8 + bit u * 4) a b d st)
  | .imax n u a b d st => some (encA2 0x05 (widthBit n * 8 + bit u * 4 + 1) a b d st)
  | .iabs n a d st => some (encA1 0x05 (widthBit n * 8 + 2) a d st)
  | .andW a b d st => some (encA2 0x06 0 a b d st)
  | .orW a b d st => some (encA2 0x06 1 a b d st)
  | .xorW a b d st => some (encA2 0x06 2 a b d st)
  | .andn a b d st => some (encA2 0x06 3 a b d st)
  | .shl n a b d st => some (encA2 0x07 (widthBit n * 4) a b d st)
  | .shr n a b d st => some (encA2 0x07 (widthBit n * 4 + 1) a b d st)
  | .sar n a b d st => some (encA2 0x07 (widthBit n * 4 + 2) a b d st)
  | .rot n a b d st => some (encA2 0x07 (widthBit n * 4 + 3) a b d st)
  | .popc n a d st => some (encA1 0x08 (widthBit n * 4) a d st)
  | .clz n a d st => some (encA1 0x08 (widthBit n * 4 + 1) a d st)
  | .brev n a d st => some (encA1 0x08 (widthBit n * 4 + 2) a d st)
  | .bfe n a b d st => some (encA2 0x08 (widthBit n * 4 + 3) a b d st)
  | .icmp n r a b d st => some (encA2 0x09 (widthBit n * 8 + relCode r) a b d st)
  | .lea sh a b d st => some (encA2 0x0A sh.val a b d st)
  | .mov a d st => some (encA1 0x0B 0 a d st)
  | .smov a d st => some (encA 0x0B (srcCode a) 0 (48 + d.val) 1 0 st)
  | .shfl a b d st => some (encA 0x0B (16 + a.val) (srcCode b) (pdstCode d) 2 0 st)
  | .grow t st => some (encA 0x0C (8 * t.val + 8) 0 0 0 0 st)
  | .growTry t d st => some (encA 0x0C (8 * t.val + 8) 0 (pdstCode d) 1 0 st)
  | .shrink t st => some (encA 0x0C (8 * t.val + 8) 0 0 2 0 st)
  | .imad n a b c u st => some (encF 0x0D (widthBit n * 4) a b c u st)
  | .bfi n a b c u st => some (encF 0x0E (widthBit n * 4) a b c u st)
  | .sel a b c u st => some (encF 0x0F 0 a b c u st)
  | .iaddi a d i st => some (encIs 0x10 a d i st)
  | .andi a d i st => some (encIs 0x11 a d i st)
  | .ori a d i st => some (encIs 0x12 a d i st)
  | .xori a d i st => some (encIs 0x13 a d i st)
  | .shli a d i st => some (encIs 0x14 a d i st)
  | .shri a d i st => some (encIs 0x15 a d i st)
  | .sari a d i st => some (encIs 0x16 a d i st)
  | .movi d i st => some (encI 0x17 0 (dstCode d) i (dstW d) st)
  | .fadd na aa ab a b d st => some (encA2 0x18 (bit ab * 8 + bit aa * 4 + bit na * 2) a b d st)
  | .fsub na aa ab a b d st => some (encA2 0x18 (bit ab * 8 + bit aa * 4 + bit na * 2 + 1) a b d st)
  | .fmul n aa ab a b d st => some (encA2 0x19 (bit ab * 4 + bit aa * 2 + bit n) a b d st)
  | .fmin a b d st => some (encA2 0x1A 0 a b d st)
  | .fmax a b d st => some (encA2 0x1A 1 a b d st)
  | .fcmp r a b d st => some (encA2 0x1B (frelCode r) a b d st)
  | .frcp a d st => some (encP1 0x1C 0 a d st)
  | .frsq a d st => some (encP1 0x1C 1 a d st)
  | .fexp2 a d st => some (encP1 0x1C 2 a d st)
  | .flog2 a d st => some (encP1 0x1C 3 a d st)
  | .fsin a d st => some (encP1 0x1C 4 a d st)
  | .fcos a d st => some (encP1 0x1C 5 a d st)
  | .ftanh a d st => some (encP1 0x1C 6 a d st)
  | .fcvt s t r a d st =>
      some (encA 0x1D (srcCode a) (cvtDstCode t * 8 + rndCode r) (dstCode d) (cvtSrcCode s) (dstW d) st)
  | .hadd2 h a b d st => some (encP2 0x1E (bit h * 4) a b d st)
  | .hmul2 h a b d st => some (encP2 0x1E (bit h * 4 + 1) a b d st)
  | .hmax2 h a b d st => some (encP2 0x1E (bit h * 4 + 2) a b d st)
  | .ffma n nc a b c u st => some (encF 0x1F (bit nc * 2 + bit n) a b c u st)
  | .hfma2 h n nc a b c st => some (encF 0x20 (bit h * 4 + bit nc * 2 + bit n) a b c false st)
  | .bra p st => some (encB 0x21 0 p st)
  | .bnz a p st => some (encB 0x22 (srcCode a) p st)
  | .bz a p st => some (encB 0x23 (srcCode a) p st)
  | .call p st => some (encB 0x24 0 p st)
  | .jmpr a st => some (encS1 0x25 0 a st)
  | .ret a st => some (encS1 0x25 1 a st)
  | .join k st => some (encA 0x26 0 k.val 0 0 0 st)
  | .leave k st => some (encA 0x26 0 k.val 0 1 0 st)
  | .waitk k st => some (encA 0x26 0 k.val 0 2 0 st)
  | .voteAll a k d st => some (encA 0x26 (srcCode a) k.val (pdstCode d) 3 0 st)
  | .voteAny a k d st => some (encA 0x26 (srcCode a) k.val (pdstCode d) 4 0 st)
  | .voteBal a k d st => some (encA 0x26 (srcCode a) k.val (pdstCode d) 5 0 st)
  | .voteCnt a k d st => some (encA 0x26 (srcCode a) k.val (pdstCode d) 6 0 st)
  | .exit st => some (encS0 0x27 0 st)
  | .tail st => some (encS0 0x27 1 st)
  | .trap n st => some (encA 0x28 0 n.toNat 0 0 0 st)
  | .brk st => some (encS0 0x28 1 st)
  | .srd sp d st => some (encA 0x28 0 (specialCode sp) (pdstCode d) 2 0 st)
  | .lds a d w o st => some (encM 0x29 (srcCode a) (pdstCode d) (memWCode w) o st)
  | .sts a d w o st => some (encM 0x2A (srcCode a) (srcCode d) (memWCode w) o st)
  | .ld a d w o st => some (encM 0x2B (srcCode a) (pdstCode d) (memWCode w) o st)
  | .store a d w o st => some (encM 0x2C (srcCode a) (srcCode d) (memWCode w) o st)
  | .cvec op l a b st => some (encS2 0x2D (bit l * 5 + cvecOpCode op) a b st)
  | .cred op a d st => some (encP1 0x2E (credOpCode op) a d st)
  | .credStat d st => some (encA 0x2E 0 0 (pdstCode d) 3 0 st)
  | .csmx a b d st => some (encP2 0x2F 0 a b d st)
  | .ccvt a b st => some (encS2 0x30 0 a b st)
  | .cqnt a b st => some (encS2 0x30 1 a b st)
  | .catom op a b d st => some (encP2 0x31 (atomOpCode op) a b d st)
  | .ccas a b c st => some (encF 0x32 0 a b c false st)
  | .cwait st => some (encS0 0x33 0 st)
  | .cfence st => some (encS0 0x33 1 st)
  | .atom n op a b d st => some (encP2 0x34 (widthBit n * 8 + atomOpCode op) a b d st)
  | .acas n a b c st => some (encF 0x35 (widthBit n) a b c false st)
  | .fence sc k st => some (encS0 0x36 (scopeCode sc * 4 + fenceKindCode k) st)
  | .waita a b c st => some (encF 0x37 0 a b c false st)
  | .copy a b d st => some (encP2 0x38 0 a b d st)
  | .gath a b d st => some (encP2 0x38 1 a b d st)
  | .scat a b d st => some (encP2 0x38 2 a b d st)
  | .stkred a b d st => some (encP2 0x38 3 a b d st)
  | .stkcvt a b d st => some (encP2 0x38 4 a b d st)
  | .cpwait a d st => some (encP1 0x38 5 a d st)
  | .seal a b d st => some (encP2 0x39 0 a b d st)
  | .shape a b d st => some (encP2 0x39 1 a b d st)
  | .mxld a b d st => some (encP2 0x39 2 a b d st)
  | .mxmm a b d st => some (encP2 0x39 3 a b d st)
  | .mxsp a b sel st => some (encA 0x39 (srcCode a) (srcCode b) sel.val 4 0 st)
  | .oprdy st => some (encS0 0x39 5 st)
  | .mxwait a d st => some (encP1 0x39 6 a d st)
  | .acz a b d st => some (encP2 0x39 7 a b d st)
  | .acld a b d st => some (encP2 0x39 8 a b d st)
  | .acst a b d st => some (encP2 0x39 9 a b d st)
  | .binit a b st => some (encS2 0x3A 0 a b st)
  | .barr a d st => some (encP1 0x3A 1 a d st)
  | .barrx a b d st => some (encP2 0x3A 2 a b d st)
  | .bwait a b d st => some (encP2 0x3A 3 a b d st)
  | .bxin a b st => some (encS2 0x3A 4 a b st)
  | .bxout a b st => some (encS2 0x3A 5 a b st)
  | .go a d st => some (encP1 0x3B 0 a d st)
  | .homeW st => some (encS0 0x3B 1 st)
  | .whereW a d st => some (encP1 0x3B 2 a d st)
  | .qpost a b d st => some (encP2 0x3C 0 a b d st)
  | .evsig a b st => some (encS2 0x3C 1 a b st)
  | .sig a st => some (encS1 0x3C 2 a st)
  | .crit a d st => some (encP1 0x3C 3 a d st)
  | .mhint a b d st => some (encP2 0x3D 0 a b d st)
  | .tret st => some (encS0 0x3E 0 st)
  | .trd a d st => some (encP1 0x3E 1 a d st)
  | .twr a b st => some (encS2 0x3E 2 a b st)
  | .tres a d st => some (encP1 0x3E 3 a d st)
  | .tstop a d st => some (encP1 0x3E 4 a d st)
  | .tkill a d st => some (encP1 0x3E 5 a d st)
  | .pinv a b st => some (encS2 0x3E 6 a b st)
  | _ => none

/-- The word of an instruction. -/
def encode (i : Instr) : Option IWord := (encodeNat i).map (BitVec.ofNat 32)

end Sys2Proof
end

