-- ==== Sys2Proof/Machine/Alu.lean ====
section
/-! DEFINITION. What the integer and move words compute (spec/04_register.md R112 to R127), on register values. -/

namespace Sys2Proof.Machine

/-- The number of bits of an operation width (R113). -/
def widthBits : Width → Nat
  | .w32 => 32
  | .w64 => 64

/-- x[n-1:0] as an unsigned integer. -/
def zval (n : Nat) (x : Word) : Nat := x.toNat % 2 ^ n

/-- sext(x, n) as an integer (R14). -/
def sval (n : Nat) (x : Word) : Int := if x.toNat % 2 ^ n < 2 ^ (n - 1) then (x.toNat % 2 ^ n : Nat) else (x.toNat % 2 ^ n : Nat) - (2 ^ n : Nat)

/-- zext(v, n) of an exact integer: the Z high half of R113. -/
def zext (n : Nat) (v : Int) : Word := BitVec.ofNat 64 (v % (2 ^ n : Nat)).toNat

/-- sext(v, n) of an exact integer: the S high half of R113. -/
def sext (n : Nat) (v : Int) : Word := BitVec.ofInt 64 (sval n (zext n v))

/-- The saturation of a signed n-bit result (R118). -/
def clampS (n : Nat) (v : Int) : Int :=
  if v > (2 ^ (n - 1) : Nat) - 1 then (2 ^ (n - 1) : Nat) - 1
  else if v < -((2 ^ (n - 1) : Nat) : Int) then -((2 ^ (n - 1) : Nat) : Int)
  else v

/-- The saturation of an unsigned n-bit result (R118). -/
def clampU (n : Nat) (v : Int) : Int := if v > (2 ^ n : Nat) - 1 then (2 ^ n : Nat) - 1 else if v < 0 then 0 else v

/-- `IADD` and `ISUB` (R118): `sub` selects the difference. -/
def aluAddSub (sub : Bool) (w : Width) (m : SatMode) (a b : Word) : Word :=
  let n := widthBits w
  match m with
  | .wrap => zext n (if sub then (zval n a : Int) - zval n b else (zval n a : Int) + zval n b)
  | .ss => sext n (clampS n (if sub then sval n a - sval n b else sval n a + sval n b))
  | .us => zext n (clampU n (if sub then (zval n a : Int) - zval n b else (zval n a : Int) + zval n b))

/-- `IMUL` (R119). -/
def aluMulLow (w : Width) (a b : Word) : Word :=
  zext (widthBits w) (zval (widthBits w) a * zval (widthBits w) b : Nat)

/-- `IMULH.s` (R119): the floor of the product over 2^n. -/
def aluMulHighS (w : Width) (a b : Word) : Word :=
  sext (widthBits w) ((sval (widthBits w) a * sval (widthBits w) b).fdiv (2 ^ widthBits w : Nat))

/-- `IMULH.u` (R119). -/
def aluMulHighU (w : Width) (a b : Word) : Word :=
  zext (widthBits w) (zval (widthBits w) a * zval (widthBits w) b / 2 ^ widthBits w : Nat)

/-- `IMIN` (R120). -/
def aluMin (w : Width) (uns : Bool) (a b : Word) : Word :=
  let n := widthBits w
  if uns then zext n (min (zval n a) (zval n b) : Nat)
  else if sval n a ≤ sval n b then sext n (sval n a) else sext n (sval n b)

/-- `IMAX` (R120). -/
def aluMax (w : Width) (uns : Bool) (a b : Word) : Word :=
  let n := widthBits w
  if uns then zext n (max (zval n a) (zval n b) : Nat)
  else if sval n a ≥ sval n b then sext n (sval n a) else sext n (sval n b)

/-- `IABS` (R120): the most negative input saturates. -/
def aluAbs (w : Width) (a : Word) : Word :=
  sext (widthBits w) (clampS (widthBits w) ((sval (widthBits w) a).natAbs : Nat))

/-- The count of a shift (R122): 5 or 6 bits of b. -/
def shiftCount (w : Width) (b : Word) : Nat := b.toNat % widthBits w

/-- `SHL` (R122). -/
def aluShl (w : Width) (a b : Word) : Word :=
  zext (widthBits w) (zval (widthBits w) a * 2 ^ shiftCount w b : Nat)

/-- `SHR` (R122). -/
def aluShr (w : Width) (a b : Word) : Word :=
  zext (widthBits w) (zval (widthBits w) a / 2 ^ shiftCount w b : Nat)

/-- `SAR` (R122). -/
def aluSar (w : Width) (a b : Word) : Word :=
  sext (widthBits w) ((sval (widthBits w) a).fdiv (2 ^ shiftCount w b : Nat))

/-- `ROT` (R122): rotate left. -/
def aluRot (w : Width) (a b : Word) : Word :=
  let n := widthBits w
  let k := shiftCount w b
  zext n (zval n a * 2 ^ k % 2 ^ n + zval n a / 2 ^ (n - k) : Nat)

/-- The number of 1 bits among the low n bits. -/
def popCount : Nat → Nat → Nat
  | 0, _ => 0
  | n + 1, x => x % 2 + popCount n (x / 2)

/-- The low n bits in reverse order. -/
def bitReverse : Nat → Nat → Nat
  | 0, _ => 0
  | n + 1, x => x % 2 * 2 ^ n + bitReverse n (x / 2)

/-- `POPC` (R123). -/
def aluPopc (w : Width) (a : Word) : Word := zext (widthBits w) (popCount (widthBits w) (zval (widthBits w) a) : Nat)

/-- `CLZ` (R123): n when the operand is 0. -/
def aluClz (w : Width) (a : Word) : Word :=
  let n := widthBits w
  if zval n a = 0 then zext n (n : Nat) else zext n (n - 1 - Nat.log2 (zval n a) : Nat)

/-- `BREV` (R123). -/
def aluBrev (w : Width) (a : Word) : Word := zext (widthBits w) (bitReverse (widthBits w) (zval (widthBits w) a) : Nat)

/-- `BFE` (R123): p = b[6:0], len = b[14:8]. -/
def aluBfe (w : Width) (a b : Word) : Word :=
  let n := widthBits w
  let p := b.toNat % 128
  let len := b.toNat / 256 % 128
  let f := zval n a / 2 ^ p
  if len < n then BitVec.ofNat 64 (f % 2 ^ len) else BitVec.ofNat 64 f

/-- The relation of `ICMP` (R124). -/
def icmpHolds (w : Width) (r : ICmpRel) (a b : Word) : Bool :=
  let n := widthBits w
  match r with
  | .eq => decide (zval n a = zval n b)
  | .ne => decide (zval n a ≠ zval n b)
  | .lt => decide (sval n a < sval n b)
  | .le => decide (sval n a ≤ sval n b)
  | .ltu => decide (zval n a < zval n b)
  | .leu => decide (zval n a ≤ zval n b)

/-- 1 or 0 as a register value. -/
def boolWord (b : Bool) : Word := if b then 1 else 0

/-- `ICMP` (R124). -/
def aluIcmp (w : Width) (r : ICmpRel) (a b : Word) : Word := boolWord (icmpHolds w r a b)

/-- `LEA` (R121). -/
def aluLea (sh : Fin 16) (a b : Word) : Word := BitVec.ofNat 64 (a.toNat + b.toNat * 2 ^ sh.val)

/-- `IMAD` (R125). -/
def aluMad (w : Width) (a b c : Word) : Word :=
  let n := widthBits w
  zext n (zval n a * zval n b + zval n c : Nat)

/-- `BFI` (R126): p = c[6:0], len = c[14:8]. -/
def aluBfi (w : Width) (a b c : Word) : Word :=
  let n := widthBits w
  let p := c.toNat % 128
  let len := c.toNat / 256 % 128
  let m := (2 ^ min len n - 1) * 2 ^ p % 2 ^ n
  zext n ((zval n b &&& (2 ^ n - 1 - m)) ||| (zval n a * 2 ^ p % 2 ^ n &&& m) : Nat)

/-- `SEL` (R125): c is tested over all 64 bits. -/
def aluSel (a b c : Word) : Word := if c ≠ 0 then a else b

/-- `SHLI`, `SHRI`, `SARI` (R127): k = imm[5:0]. -/
def aluShli (a imm : Word) : Word := aluShl .w64 a imm
def aluShri (a imm : Word) : Word := aluShr .w64 a imm
def aluSari (a imm : Word) : Word := aluSar .w64 a imm

end Sys2Proof.Machine
end

