-- ==== Sys2Proof/Machine/Float.lean ====
section
/-! DEFINITION. Floating-point values, exactly (spec/02_numbers.md R50 to R61): decoding, the one rounding, sums,
products, comparisons and the conversions. A finite value is a dyadic rational, so every sum and product is exact. -/

namespace Sys2Proof

/-- Exponent bits, fraction bits and bias of a format (R50). -/
def FFmt.ebits : FFmt → Nat
  | .fp32 | .bf16 => 8
  | .fp16 | .e5m2 => 5
  | .e4m3 => 4

def FFmt.fbits : FFmt → Nat
  | .fp32 => 23
  | .bf16 => 7
  | .fp16 => 10
  | .e4m3 => 3
  | .e5m2 => 2

def FFmt.bias : FFmt → Nat
  | .fp32 | .bf16 => 127
  | .fp16 | .e5m2 => 15
  | .e4m3 => 7

/-- Bits of a format. -/
def FFmt.width (f : FFmt) : Nat := f.ebits + f.fbits + 1

/-- The exponent of the smallest subnormal. -/
def FFmt.emin (f : FFmt) : Int := 1 - (f.bias : Int) - f.fbits

/-- The code of the largest finite value, without its sign (R50). -/
def FFmt.maxCode : FFmt → Nat
  | .fp32 => 0x7F7FFFFF
  | .bf16 => 0x7F7F
  | .fp16 => 0x7BFF
  | .e4m3 => 0x7E
  | .e5m2 => 0x7B

/-- The canonical NaN (R51). -/
def FFmt.nanCode : FFmt → Nat
  | .fp32 => 0x7FC00000
  | .bf16 => 0x7FC0
  | .fp16 => 0x7E00
  | .e4m3 => 0x7F
  | .e5m2 => 0x7E

/-- The code of +infinity; E4M3 has none (R51), and its conversions never ask for it but through R60. -/
def FFmt.infCode (f : FFmt) : Nat := (2 ^ f.ebits - 1) * 2 ^ f.fbits

/-- The rounding code is stochastic (R58). -/
def RndCode.isSr : RndCode → Bool
  | .sr | .srT => true
  | _ => false

end Sys2Proof

namespace Sys2Proof.Machine

/-- A floating-point value: `fin neg m e` is (-1)^neg * m * 2^e. -/
inductive FVal where
  | nan
  | inf (neg : Bool)
  | fin (neg : Bool) (m : Nat) (e : Int)
  deriving DecidableEq, Repr

/-- The rounding modes of R57; SR carries its random word (R58). -/
inductive Rnd where
  | rne
  | rz
  | rd
  | ru
  | sr (rnd : Nat)
  deriving DecidableEq, Repr

/-- The value of a code (R50, R51). -/
def fdecode (f : FFmt) (x : Nat) : FVal :=
  let c := x % 2 ^ f.width
  let neg := c / 2 ^ (f.width - 1) == 1
  let ex := c / 2 ^ f.fbits % 2 ^ f.ebits
  let fr := c % 2 ^ f.fbits
  if ex = 2 ^ f.ebits - 1 ∧ f ≠ .e4m3 then
    if fr = 0 then .inf neg else .nan
  else if f = .e4m3 ∧ c % 128 = 127 then .nan
  else if ex = 0 then .fin neg fr f.emin
  else .fin neg (2 ^ f.fbits + fr) (f.emin + ex - 1)

/-- The exact sign of a value. -/
def FVal.neg? : FVal → Bool
  | .nan => false
  | .inf s => s
  | .fin s _ _ => s

/-- Negation and absolute value act on the sign (R129). -/
def FVal.negate : FVal → FVal
  | .nan => .nan
  | .inf s => .inf !s
  | .fin s m e => .fin (!s) m e

def FVal.abs : FVal → FVal
  | .nan => .nan
  | .inf _ => .inf false
  | .fin _ m e => .fin false m e

def FVal.negIf (c : Bool) (v : FVal) : FVal := if c then v.negate else v
def FVal.absIf (c : Bool) (v : FVal) : FVal := if c then v.abs else v

/-- A finite value as a multiple of 2^q, for q at or below its exponent. -/
def dyInt (neg : Bool) (m : Nat) (e q : Int) : Int :=
  if neg then -((m * 2 ^ (e - q).toNat : Nat) : Int) else ((m * 2 ^ (e - q).toNat : Nat) : Int)

/-- The exact sum (R55 for the zeros, R129 for NaN and infinities). -/
def FVal.add : FVal → FVal → FVal
  | .nan, _ => .nan
  | _, .nan => .nan
  | .inf s, .inf t => if s = t then .inf s else .nan
  | .inf s, .fin _ _ _ => .inf s
  | .fin _ _ _, .inf t => .inf t
  | .fin s m e, .fin t n f =>
    let q := min e f
    let v := dyInt s m e q + dyInt t n f q
    if v = 0 then .fin (if m = 0 ∧ n = 0 then s && t else false) 0 q
    else .fin (decide (v < 0)) v.natAbs q

/-- The exact product (R55, R129). -/
def FVal.mul : FVal → FVal → FVal
  | .nan, _ => .nan
  | _, .nan => .nan
  | .inf s, .inf t => .inf (s != t)
  | .inf s, .fin t n _ => if n = 0 then .nan else .inf (s != t)
  | .fin s m _, .inf t => if m = 0 then .nan else .inf (s != t)
  | .fin s m e, .fin t n f => .fin (s != t) (m * n) (e + f)

/-- The two representable neighbours of m * 2^e in a format with unbounded exponent range: the code of the lower one
(without its sign), and the remainder over its divisor. -/
def fneighbour (f : FFmt) (m : Nat) (e : Int) : Nat × Nat × Nat :=
  let q := max ((Nat.log2 m : Int) + e - f.fbits) f.emin
  if q ≤ e then ((q - f.emin).toNat * 2 ^ f.fbits + m * 2 ^ (e - q).toNat, 0, 1)
  else
    let d := 2 ^ (q - e).toNat
    ((q - f.emin).toNat * 2 ^ f.fbits + m / d, m % d, d)

/-- The upper neighbour is taken (R57, R58). `lo` is even exactly when its code is even. -/
def fup (r : Rnd) (neg : Bool) (lo rem div : Nat) : Bool :=
  if rem = 0 then false
  else match r with
    | .rne => decide (2 * rem > div) || (decide (2 * rem = div) && lo % 2 == 1)
    | .rz => false
    | .rd => neg
    | .ru => !neg
    | .sr rnd => decide (rnd % 2 ^ 32 < rem * 2 ^ 32 / div)

/-- What an overflow and an infinity become in a destination (R59, R60): `toggle` is `.nosat` or `.sat`. -/
def fovfTarget (f : FFmt) (toggle : Bool) : Nat :=
  match f with
  | .e4m3 => if toggle then f.nanCode else f.maxCode
  | .e5m2 => if toggle then f.maxCode else f.infCode
  | _ => f.infCode

/-- R59: the code of an overflowing magnitude. -/
def fovfCode (f : FFmt) (r : Rnd) (toggle neg : Bool) : Nat :=
  match r with
  | .rne | .sr _ => fovfTarget f toggle
  | .rz => f.maxCode
  | .ru => if neg then f.maxCode else fovfTarget f toggle
  | .rd => if neg then fovfTarget f toggle else f.maxCode

/-- A sign on a code; the canonical NaN takes none (R51, R52). -/
def fsigned (f : FFmt) (neg : Bool) (c : Nat) : Nat :=
  if neg ∧ c ≠ f.nanCode then 2 ^ (f.width - 1) + c else c

/-- The conversion of an exact value to a format (R57 to R60). -/
def fround (f : FFmt) (r : Rnd) (toggle : Bool) : FVal → Nat
  | .nan => f.nanCode
  | .inf neg => fsigned f neg (fovfTarget f toggle)
  | .fin neg m e =>
    if m = 0 then fsigned f neg 0
    else
      let (lo, rem, div) := fneighbour f m e
      let c := if fup r neg lo rem div then lo + 1 else lo
      let ovf := match r with
        | .sr _ => decide (f.maxCode < lo) || (decide (lo = f.maxCode) && rem != 0)
        | _ => decide (f.maxCode < c)
      fsigned f neg (if ovf then fovfCode f r toggle neg else c)

/-- `round_rne(v, F)` (R14). -/
def roundRne (f : FFmt) (v : FVal) : Nat := fround f .rne false v

/-- FP32 source and result (R128). -/
def fp32 (x : Word) : FVal := fdecode .fp32 x.toNat

def ofFp32 (v : FVal) : Word := BitVec.ofNat 64 (roundRne .fp32 v)

/-- The order of two values that are not NaN, as a comparison of exact reals; zeros are equal. -/
def FVal.lt : FVal → FVal → Bool
  | .inf s, .inf t => s && !t
  | .inf s, .fin _ _ _ => s
  | .fin _ _ _, .inf t => !t
  | .fin s m e, .fin t n f => decide (dyInt s m e (min e f) < dyInt t n f (min e f))
  | _, _ => false

def FVal.isNan : FVal → Bool
  | .nan => true
  | _ => false

def FVal.isZero : FVal → Bool
  | .fin _ 0 _ => true
  | _ => false

/-- R55: the order in which -0 stands below +0. -/
def FVal.ltZ (a b : FVal) : Bool :=
  if a.isZero && b.isZero then a.neg? && !b.neg? else a.lt b

/-- `FMIN` and `FMAX` (R134): NaN gives NaN. -/
def FVal.min (a b : FVal) : FVal := if a.isNan || b.isNan then .nan else if b.ltZ a then b else a
def FVal.max (a b : FVal) : FVal := if a.isNan || b.isNan then .nan else if a.ltZ b then b else a

/-- `FCMP` (R135). -/
def fcmpHolds (r : FCmpRel) (a b : FVal) : Bool :=
  let un := a.isNan || b.isNan
  match r with
  | .eq => !un && !a.lt b && !b.lt a
  | .ne => un || a.lt b || b.lt a
  | .lt => !un && a.lt b
  | .le => !un && !b.lt a
  | .gt => !un && b.lt a
  | .ge => !un && !a.lt b
  | .un => un

/-- R61: rounding to an integer under a mode. -/
def fint (r : Rnd) (neg : Bool) (m : Nat) (e : Int) : Int :=
  let mag : Nat :=
    if 0 ≤ e then m * 2 ^ e.toNat
    else
      let d := 2 ^ (-e).toNat
      if fup r neg (m / d) (m % d) d then m / d + 1 else m / d
  if neg then -(mag : Int) else mag

/-- R61: the conversion to an integer range lo .. hi. -/
def fToInt (r : Rnd) (lo hi : Int) : FVal → Int
  | .nan => 0
  | .inf neg => if neg then lo else hi
  | .fin neg m e => max lo (min hi (fint r neg m e))

/-- The source of `FCVT` (R139). -/
def cvtDecode (src : CvtSrc) (x : Word) : FVal :=
  let ofInt (v : Int) : FVal := .fin (decide (v < 0)) v.natAbs 0
  match src with
  | .float f => fdecode f x.toNat
  | .s8 => ofInt (sval 8 x)
  | .s16 => ofInt (sval 16 x)
  | .s32 => ofInt (sval 32 x)
  | .s64 => ofInt (sval 64 x)
  | .z8 => ofInt (zval 8 x)
  | .z16 => ofInt (zval 16 x)
  | .z32 => ofInt (zval 32 x)
  | .z64 => ofInt (zval 64 x)

/-- The mode and the toggle of a rounding code (R42); rnd is the partner's low half (R58). -/
def rndMode (c : RndCode) (rnd : Nat) : Rnd × Bool :=
  match c with
  | .rne => (.rne, false)
  | .rz => (.rz, false)
  | .rd => (.rd, false)
  | .ru => (.ru, false)
  | .sr => (.sr rnd, false)
  | .rneT => (.rne, true)
  | .rzT => (.rz, true)
  | .srT => (.sr rnd, true)

/-- `FCVT` (R139, R60, R61). -/
def aluFcvt (src : CvtSrc) (dst : CvtDst) (c : RndCode) (x : Word) (rnd : Nat) : Word :=
  let v := cvtDecode src x
  let (r, toggle) := rndMode c rnd
  match dst with
  | .float f => BitVec.ofNat 64 (fround f r toggle v)
  | .s32 => sext 32 (fToInt r (-(2 ^ 31)) (2 ^ 31 - 1) v)
  | .z32 => zext 32 (fToInt r 0 (2 ^ 32 - 1) v)
  | .s64 => BitVec.ofInt 64 (fToInt r (-(2 ^ 63)) (2 ^ 63 - 1) v)

/-- `FADD` and `FSUB` with their modifiers (R131). -/
def aluFadd (sub na aa ab : Bool) (a b : Word) : Word :=
  let x := ((fp32 a).absIf aa).negIf na
  let y := (fp32 b).absIf ab
  ofFp32 (x.add (y.negIf sub))

/-- `FMUL` (R132). -/
def aluFmul (n aa ab : Bool) (a b : Word) : Word :=
  ofFp32 ((((fp32 a).absIf aa).mul ((fp32 b).absIf ab)).negIf n)

/-- `FFMA` (R133). -/
def aluFfma (n nc : Bool) (a b c : Word) : Word :=
  ofFp32 ((((fp32 a).mul (fp32 b)).negIf n).add ((fp32 c).negIf nc))

def aluFmin (a b : Word) : Word := ofFp32 ((fp32 a).min (fp32 b))
def aluFmax (a b : Word) : Word := ofFp32 ((fp32 a).max (fp32 b))

/-- `FCMP` (R135). -/
def aluFcmp (r : FCmpRel) (a b : Word) : Word := boolWord (fcmpHolds r (fp32 a) (fp32 b))

/-- The format of a packed word (R130). -/
def packFmt (h : Bool) : FFmt := if h then .fp16 else .bf16

/-- Element i of a packed source (R128). -/
def packElem (h : Bool) (i : Nat) (x : Word) : FVal := fdecode (packFmt h) (x.toNat / 65536 ^ i)

/-- Two results packed (R141). -/
def pack2 (v1 v0 : Nat) : Word := BitVec.ofNat 64 (v1 * 65536 + v0)

/-- `HADD2`, `HMUL2`, `HMAX2` (R141). -/
def aluHpk (op : FVal → FVal → FVal) (h : Bool) (a b : Word) : Word :=
  pack2 (roundRne (packFmt h) (op (packElem h 1 a) (packElem h 1 b)))
    (roundRne (packFmt h) (op (packElem h 0 a) (packElem h 0 b)))

/-- `HFMA2` (R142). -/
def aluHfma2 (h n nc : Bool) (a b c : Word) : Word :=
  let one (i : Nat) : Nat :=
    roundRne (packFmt h)
      ((((packElem h i a).mul (packElem h i b)).negIf n).add ((packElem h i c).negIf nc))
  pack2 (one 1) (one 0)

end Sys2Proof.Machine
end

