-- ==== Sys2Proof/Config.lean ====
section
/-! DEFINITION. What the manual leaves open and what an implementation fixes: the free values (opaque, without a body)
and the moves from which the scheduler chooses (notes/assumptions 1, 2, 16, 64, 65). -/

namespace Sys2Proof

/-- What happens next in the package. Most agents act through a row of the opcode table (`event`); a former issues the
next word (`issue`); one fabric cycle passes (`tick`); the rest are acts of agents that have no row
(DESIGN CHOICE, unsafe: notes/assumptions/1.md). -/
inductive Move where
  /-- The issue former of a quarter builds and issues its group (R81). -/
  | issue (c : CoreId) (quarter : Fin 4)
  /-- An event of the opcode table. -/
  | event (i : Instr)
  /-- One fabric cycle (R9). -/
  | tick
  /-- Replacement invalidates an L1 line (R190). -/
  | l1Drop (c : CoreId) (line : Nat)
  /-- Replacement drops an instruction-cache word (R426). -/
  | icacheDrop (c : CoreId) (pa : Nat)
  /-- A translation leaves a micro-TLB or a die TLB (R181). -/
  | tlbDrop (d : Fin 8) (core : Option (Fin 128)) (index : Nat)
  /-- A transfer reads and lands one element (R239). -/
  | element (op index : Nat)
  /-- Host software writes its own memory behind a port (R386). -/
  | outsideWrite (port : Fin 2) (bus : BitVec 64) (data : List (BitVec 8))
  /-- The cupola wants a core for another context; `now`: it asks the tundish to pre-empt the groups of the resident ladles (R303). -/
  | coreWant (c : CoreId) (now : Bool)
  /-- Host software masks a vector of a function (R345, R378). -/
  | vectorMask (port : Fin 2) (fn : Fin 64) (vec : Fin 64)
  /-- Another package sets a host number of its ports, with the tenants that have a function there and the AtomicOps that the host
  advertises; or takes it away (R386). -/
  | farPort (num : BitVec 12) (valid : Bool) (tenants : BitVec 64) (atomics : BitVec 5)
  /-- Another package writes a host window of such a port. -/
  | farWindow (num : BitVec 12) (index : Fin 16) (window : BitVec 256)
  /-- A host enumerates a port: the AtomicOps that it advertises, and whether it enables End-End TLP Prefixes (R386, R388). -/
  | hostCaps (port : Fin 2) (atomics : BitVec 5) (prefixes : Bool)
  /-- A host resizes BAR2 of a function: 2 to the power `log` bytes (R380). -/
  | barSize (port : Fin 2) (fn : Fin 64) (log : Nat)
  /-- A home accepts a piece of a posted write of a host (R385). -/
  | hostPiece (write index : Nat)
  /-- The boot ROM ends the check of the bundle (R403). -/
  | romCheck
  /-- The tundish moves queue records to or from the reserve of a stack (R173, R364). -/
  | queueOverflow (stack : Fin 16) (byte : Nat)
  deriving DecidableEq, Repr, Inhabited

/-- The next move when the agenda is empty: which agent acts next is left open by every delay of R28. -/
opaque Config.nextMove : Nat → Move

/-- R26: whether an element read early gives the new value; by the count of choices made, and by the place of the element
in the issue group. -/
opaque Config.early : Nat → Nat → Bool

/-- A value the manual leaves open, by the count of choices made, and by the place of the value among them
(DESIGN CHOICE, safe: notes/assumptions/2.md). -/
opaque Config.freeWord : Nat → Nat → BitVec 64

/-- R138, R159: the unpublished maps of the function unit and of `expo`, by function number. A result is taken from the
map only when it meets the bounds and special cases of R137 and R138 (DESIGN CHOICE, safe: notes/assumptions/16.md). -/
opaque Config.funcMap : Nat → BitVec 32 → BitVec 32

/-- R172, R364: the bank and the row of a byte of a stack, by stack and local address; the manual gives no map
(DESIGN CHOICE, unsafe: notes/assumptions/64.md). -/
opaque Config.dramPch : Nat → Nat → Fin 64
opaque Config.dramBank : Nat → Nat → Nat
opaque Config.dramRow : Nat → Nat → Nat

/-- R10: the power ceilings of a firmware bundle, given by its bytes, in milliwatts: by die, state (0 ON, 1 NT, 2 GATED) and
clock step; and those of stacks, runners and links together (DESIGN CHOICE, safe: notes/assumptions/65.md). -/
opaque Config.dieCeiling : List (Nat × BitVec 8) → Fin 8 → Fin 3 → Nat → Nat
opaque Config.fixedCeiling : List (Nat × BitVec 8) → Nat

/-- R398 to R407: the fused values and the cryptographic functions of boot. -/
opaque Config.fuseId : BitVec 64
opaque Config.fusedKeyHash : List (BitVec 8)
opaque Config.identityKey : List (BitVec 8)
opaque Config.sha3 : List (BitVec 8) → List (BitVec 8)

/-- ML-DSA-87: verification of a signature over a digest under a key, and the signature of the identity key. -/
opaque Config.verifies : (key sig digest : List (BitVec 8)) → Bool
opaque Config.identitySign : List (BitVec 8) → List (BitVec 8)

end Sys2Proof
end

