-- ==== Sys2Proof/Machine/Table.lean ====
section
/-! DEFINITION. Plain tables: lists of key and value pairs, with one lookup, one update and one removal; and sparse byte
memory, a list of cells in one canonical form (rising addresses, no zero byte). -/

namespace Sys2Proof.Machine

/-- A table by key. A key stands at most once. -/
abbrev Tab (K V : Type) := List (K × V)

/-- The value of a key. -/
def tget {K V : Type} [DecidableEq K] : Tab K V → K → Option V
  | [], _ => none
  | (k', v) :: t, k => if k' = k then some v else tget t k

/-- Sets the value of a key, in its place, or at the end for a new key. -/
def tset {K V : Type} [DecidableEq K] : Tab K V → K → V → Tab K V
  | [], k, v => [(k, v)]
  | (k', v') :: t, k, v => if k' = k then (k, v) :: t else (k', v') :: tset t k v

/-- Removes a key. -/
def tdel {K V : Type} [DecidableEq K] : Tab K V → K → Tab K V
  | [], _ => []
  | (k', v) :: t, k => if k' = k then tdel t k else (k', v) :: tdel t k

/-- Changes the value of a key that stands in the table. -/
def tmod {K V : Type} [DecidableEq K] (t : Tab K V) (k : K) (f : V → V) : Tab K V :=
  match tget t k with
  | some v => tset t k (f v)
  | none => t

/-- The keys of the entries whose key and value meet a test, in table order. -/
def tkeys {K V : Type} (t : Tab K V) (p : K → V → Bool) : List K := (t.filter fun e => p e.1 e.2).map (·.1)

/-- Insertion into a list sorted by a strict order. -/
def insertBy {α : Type} (lt : α → α → Bool) (x : α) : List α → List α
  | [] => [x]
  | y :: l => if lt y x then y :: insertBy lt x l else x :: y :: l

/-- Sorting by insertion; elements that do not precede each other keep their order. -/
def sortBy {α : Type} (lt : α → α → Bool) (l : List α) : List α := l.foldr (insertBy lt) []

/-- No element twice; the first occurrence stays. -/
def dedup {α : Type} [DecidableEq α] : List α → List α
  | [] => []
  | x :: l => x :: (dedup l).filter (fun y => !decide (y = x))

/-- The numbers from lo, n of them. -/
def rangeFrom (lo n : Nat) : List Nat := (List.range n).map (lo + ·)

/-! ### Byte memory -/

/-- Sparse byte memory: listed cells, every other address reads 0x00. -/
abbrev Memory := List Host.Cell

/-- One byte (DESIGN CHOICE, unsafe: notes/assumptions/3.md). -/
def memByte : Memory → Nat → Byte
  | [], _ => 0
  | (a', b) :: m, a => if a' = a then b else memByte m a

/-- One byte written, in the canonical form: a zero byte is unlisted. In a list that is not canonical every later cell of the
address goes too, so that a read after a write holds in every list. -/
def memSet : Memory → Nat → Byte → Memory
  | [], a, b => if b = 0 then [] else [(a, b)]
  | (a', b') :: m, a, b =>
    if a < a' then (if b = 0 then ((a', b') :: m).filter (fun c => decide (c.1 ≠ a)) else (a, b) :: (a', b') :: m)
    else if a' = a then (if b = 0 then m.filter (fun c => decide (c.1 ≠ a)) else (a, b) :: m)
    else (a', b') :: memSet m a b

/-- The addresses rise, and no entry is zero. -/
def Memory.wfFrom : Nat → Memory → Bool
  | _, [] => true
  | lo, (a, b) :: m => decide (lo ≤ a) && b != 0 && Memory.wfFrom (a + 1) m

/-- The canonical form. -/
def Memory.wf (m : Memory) : Bool := Memory.wfFrom 0 m

/-- n bytes at a as a little-endian number (R12). -/
def memNat (m : Memory) (a : Nat) : Nat → Nat
  | 0 => 0
  | n + 1 => (memByte m a).toNat + 256 * memNat m (a + 1) n

/-- n bytes of a little-endian number written at a (R12). -/
def memPut (m : Memory) (a : Nat) : Nat → Nat → Memory
  | 0, _ => m
  | n + 1, v => memPut (memSet m a (BitVec.ofNat 8 v)) (a + 1) n (v / 256)

/-- n bytes at a, as a list. -/
def memBytes (m : Memory) (a n : Nat) : List Byte := (rangeFrom a n).map (memByte m)

/-- A list of bytes written at a. -/
def memPutBytes (m : Memory) (a : Nat) : List Byte → Memory
  | [] => m
  | b :: l => memPutBytes (memSet m a b) (a + 1) l

/-- Bytes as a little-endian number. -/
def bytesNat : List Byte → Nat
  | [] => 0
  | b :: l => b.toNat + 256 * bytesNat l

/-- The low n bytes of a number. -/
def natBytes : Nat → Nat → List Byte
  | 0, _ => []
  | n + 1, v => BitVec.ofNat 8 v :: natBytes n (v / 256)

/-- Removes every cell of the range a .. a + n - 1. -/
def memClear (m : Memory) (a n : Nat) : Memory := m.filter fun c => decide (c.1 < a) || decide (a + n ≤ c.1)

/-- n bytes at a, given by their addresses. -/
def memFill (m : Memory) (a n : Nat) (f : Nat → Byte) : Memory :=
  m.filter (fun c => decide (c.1 < a)) ++
    ((rangeFrom a n).filterMap fun k => if f k = 0 then none else some (k, f k)) ++
    m.filter (fun c => decide (a + n ≤ c.1))

end Sys2Proof.Machine
end

