-- ==== Sys2Proof/Machine/State.lean ====
section
/-! DEFINITION. The state of a package, as plain data: INVENTORY.md lists every field with the rule that names it. The
tables are sparse: an unlisted core, slot or die part is in its reset state. -/

namespace Sys2Proof.Machine

/-! ### Registers and threads -/

/-- A register or a queue slot (R26, R102): its value; the value it held before its latest producer issued; the die cycle
from which the new value is certain; and the outstanding operation that owes it a value, if any
(DEDUCED, unsafe: notes/assumptions/9.md). -/
structure RCell where
  val : Word
  old : Word
  due : Nat
  pend : Option Nat
  deriving DecidableEq, Repr

def RCell.zero : RCell := ⟨0, 0, 0, none⟩

/-- The registers of a lane: the result-queue ring (R102; q_k is slot (head + k) mod 16) and n0 to n31 (R104). -/
structure Regs where
  slots : Vector RCell 16
  head : Fin 16
  named : Vector RCell 32
  deriving DecidableEq, Repr

def Regs.zero : Regs := ⟨Vector.replicate 16 RCell.zero, 0, Vector.replicate 32 RCell.zero⟩

/-- The prefix state of a thread (R29, R32, R33). `modBad` and `dlnBad` remember a must-be-0 bit that was set (R31). -/
structure Pfx where
  lit : Option (BitVec 22)
  mod : Option (BitVec 14)
  modBad : Bool
  dln : Option (BitVec 16)
  dlnBad : Bool
  deriving DecidableEq, Repr

def Pfx.empty : Pfx := ⟨none, none, false, none, false⟩

/-- The forms of VOTE (R90). -/
inductive VoteForm where
  | all
  | any
  | bal
  | cnt
  deriving DecidableEq, Repr

/-- The place of a barrier object: a scratchpad offset of the group, or a carve-out physical address (R280). -/
inductive BarObj where
  | scratch (off : Nat)
  | carve (pa : Nat)
  deriving DecidableEq, Repr

/-- What a Waiting thread waits for (R100); `tag` names the registers that its result is owed to. -/
inductive Wait where
  /-- WAITK (no vote) and VOTE. -/
  | mask (k : Fin 12) (vote : Option (VoteForm × Bool)) (tag : Nat)
  /-- WAITA: the watch (R219). -/
  | word (watch : Nat)
  /-- BWAIT: the object and the generation; `held` while recalled threads of the group are still away (R300). -/
  | barrier (obj : BarObj) (gen : Nat) (held : Bool) (tag : Nat)
  /-- CPWAIT: the operation; none for the implicit atomic token 0 (R213). -/
  | token (op : Option Nat) (tag : Nat)
  /-- MXWAIT: the tile operation. -/
  | tile (op : Nat) (tag : Nat)
  /-- CWAIT: the outstanding bank words of the home warp. -/
  | crucible (words : List Nat)
  /-- The absent lines of R145. -/
  | lines (l : List Nat)
  /-- GROW: the target count (R110). -/
  | grow (t : Nat)
  deriving DecidableEq, Repr

/-- The states of R75 in which a thread is resident and not stopped. -/
inductive Live where
  | ready
  | stalled
  | waiting (w : Wait)
  | exiting
  deriving DecidableEq, Repr

/-- The states of a thread (R75). -/
inductive Status where
  | live (l : Live)
  | travelling
  | saved (prior : Live)
  | stopped (prior : Live)
  | ended
  | lost
  deriving DecidableEq, Repr

/-- The causes of R351. -/
inductive Cause where
  | illegal
  | litSeq
  | priv
  | stallShort
  | regRange
  | align
  | viol
  | page
  | handle
  | migRef
  | bovr
  | dieLost
  | trap
  | brk
  deriving DecidableEq, Repr

/-- The snapshot entry of a faulting thread (R351, R352). -/
structure Entry where
  cause : Cause
  pc : Word
  detail : Nat
  addr : Word
  again : Bool
  seen : Bool
  deriving DecidableEq, Repr

/-- The pending resolution of a Stopped thread (R356). -/
inductive Res where
  | none
  | resume
  | step
  | kill
  deriving DecidableEq, Repr

/-- The progress of a step (R356): not stepping; counting from the next word; counted, stop when its wait ends. -/
inductive StepMark where
  | off
  | armed
  | counted
  deriving DecidableEq, Repr

/-- Where a thread is resident (R97). -/
structure Place where
  core : CoreId
  slot : Fin 64
  lane : Fin 32
  deriving DecidableEq, Repr

/-- WAKE (R98). -/
structure Wake where
  reason : Nat
  dozed : Bool
  saved : Bool
  deriving DecidableEq, Repr

/-- A ladle, or a ladle's thread in a guest place (R288 to R290): the copy at home, and what travels. -/
structure Away where
  /-- The registers of the home lane as they stood at departure (R288). -/
  home : Regs
  homePc : Word
  homePfx : Pfx
  homePlace : Place
  /-- The occasion (R286), the flight's target row for Kinds 00 and 01, and the accessed line's home stack. -/
  kind : Fin 4
  stack : Fin 16
  /-- The chosen die (R295), once the runner has chosen. -/
  target : Option (Fin 8)
  /-- The ladle as sent: the header flit (R290), and the flits of its register area (R289). -/
  header : BitVec 512
  body : List Byte
  /-- The named destination of a GO (R307). -/
  goDst : PDst
  /-- The address of the access or of the GO (R352). -/
  addr : Word
  /-- A refusal notice is on its way home (R298). -/
  refused : Bool
  deriving DecidableEq, Repr

/-- A departure that waits for its owed writes and its release (R287): the occasion, the home stack, GO's destination. -/
structure Leaving where
  kind : Fin 4
  stack : Fin 16
  goDst : PDst
  /-- The address of the access or of the GO; 0 for a return. -/
  addr : Word
  /-- The word that it left at: the threads of one `GO` depart in order (R307). -/
  word : Nat
  deriving DecidableEq, Repr

/-- A thread (R75, R76, R200, R292, R322, R355). -/
structure Thread where
  status : Status
  pc : Word
  pfx : Pfx
  regs : Regs
  /-- The first die cycle in which the thread may issue again (R25). -/
  readyAt : Nat
  place : Place
  away : Option Away
  wake : Wake
  entry : Option Entry
  res : Res
  step : StepMark
  /-- The thread waits for its barrier word to be served (R283): the entry and the registers before the word. -/
  inBar : Option (Nat × Regs)
  leaving : Option Leaving
  /-- A recall waits for the thread's next instruction boundary (R300). -/
  recalled : Bool
  /-- The group was saved, and the core dozed, during the wait in progress (R98). -/
  savedMark : Bool
  dozedMark : Bool
  streak : Nat
  streakRow : Fin 4
  filter : BitVec 256
  critOpen : Bool
  /-- The thread is held at an `OPRDY` that waits for what its group issued before this number (R274). -/
  oprdy : Option Nat
  deriving DecidableEq, Repr

/-- The register holder of a warp: a home warp of a group, or the handler of a core. -/
inductive WarpKey where
  | home (gid : Nat) (hwarp : Fin 16)
  | handler (core : CoreId)
  deriving DecidableEq, Repr

/-- A home warp (R104, R107, R86). -/
structure Warp where
  w : Vector RCell 16
  k : Vector (BitVec 32) 12
  count : Nat
  base : Nat
  slot : Fin 64
  /-- Bit k: the condition of mask k held at the end of the last die cycle, and its release is due (R89). -/
  freed : BitVec 12
  deriving DecidableEq, Repr

/-! ### Slots, stores and cores -/

/-- The identity of a path (R78). -/
structure PathKey where
  pc : Word
  pfx : Pfx
  deriving DecidableEq, Repr

/-- Where an access executes (R197). -/
inductive Point where
  | cache
  | home
  deriving DecidableEq, Repr

/-- What an access carries from its page and its MOD and DLN (R36, R38, R176). -/
structure Attr where
  shared : Bool
  redWin : Bool
  carve : Bool
  remote : Bool
  /-- Temp of the page, the cache operator and the service class (R178, R202, R364). -/
  temp : Fin 4
  cacheOp : Fin 8
  cls : Fin 4
  /-- The service class of the page itself (R176), which write-backs carry (R364). -/
  page : Fin 4
  /-- The deadline in fabric cycles (R38). -/
  deadline : Option Nat
  /-- The virtual address of a thread's access (R352). -/
  va : Nat
  deriving DecidableEq, Repr

/-- A store in a store queue (R204). -/
structure Store where
  id : Nat
  /-- The word that issued it: stores of one issue group to the same bytes keep the order of its threads (R204). -/
  word : Nat
  thread : ThreadKey
  pa : Nat
  data : List Byte
  point : Point
  attr : Attr
  /-- A release at package or system scope: also written home at once (R208). -/
  through : Bool
  /-- It has taken effect, and waits for the grants of its DRAM requests (R364, R366). -/
  applied : Bool
  deriving DecidableEq, Repr

/-- A slot of a core: the leader of its warp and the fairness counts (R80, R84), and the store queue (R204). -/
structure Slot where
  leader : Option PathKey
  /-- One more than the die cycle of the last issue; 0 before the first (R81). -/
  last : Nat
  counts : Tab PathKey Nat
  /-- The timer chose the leader, which has not issued since (R84). -/
  timed : Bool
  storeq : List Store
  deriving DecidableEq, Repr

def Slot.idle : Slot := ⟨none, 0, [], false, []⟩

/-- A cached translation (R181): the leaf entry at a level, for the page number at that level. -/
structure TlbEntry where
  ctx : Nat
  level : Fin 4
  vpn : Nat
  /-- The physical address of the leaf entry. -/
  ea : Nat
  leaf : BitVec 64
  deriving DecidableEq, Repr

/-- An L2 line (R191 to R195). -/
structure L2Line where
  data : List Byte
  dirty : BitVec 32
  shared : Bool
  epoch : Nat
  stale : Bool
  /-- The context that dirtied it (R193). -/
  ctx : Nat
  /-- The tile operations that pin it (R195). -/
  pins : List Nat
  /-- The threads for which the line is evicted when it is unpinned (R294). -/
  evictFor : List ThreadKey
  /-- Its rank for replacement (R191), and the service class of its page (R364). -/
  rank : Nat
  cls : Fin 4
  /-- CLOCK when it was fetched from home (R426). -/
  filled : Nat
  deriving DecidableEq, Repr

/-- A word in an instruction cache, and CLOCK when the line it comes from was fetched from home (R426). -/
structure CodeWord where
  word : IWord
  filled : Nat
  deriving DecidableEq, Repr

/-- A running handler invocation (R353): the cycles it has run. -/
structure Handler where
  cycles : Nat
  deriving DecidableEq, Repr

/-- A core. -/
structure Core where
  ctx : Option Nat
  stopped : Bool
  handler : Option Handler
  miss : Vector Nat 4
  l1 : Tab Nat (List Byte)
  /-- The ranks of L1 lines for replacement, where not the default (R178, R202). -/
  l1Rank : Tab Nat Nat
  icache : Tab Nat CodeWord
  tlb : List TlbEntry
  ptr : Vector (Fin 4) 32
  dozing : Bool
  /-- The cupola wants the core for another context, or its die to gate: its guest places are no longer offered (R303). -/
  wanted : Bool
  /-- One more than the die cycle in which each former last issued (R81). -/
  issued : Vector Nat 4
  deriving DecidableEq, Repr

def Core.idle : Core :=
  ⟨none, false, none, Vector.replicate 4 0, [], [], [], [], Vector.replicate 32 0, false, false, Vector.replicate 4 0⟩

/-! ### Groups -/

/-- The kernel header (R326). -/
structure Header where
  paramDir : Word
  subset : BitVec 32
  crit : Nat
  gangM1 : Fin 16
  warpsM1 : Fin 32
  accRows : Nat
  scrUnits : Nat
  paramLog : Fin 16
  qdepth : Fin 4
  migStrict : Bool
  migrate : Bool
  strict : Bool
  doze : Bool
  promise : Bool
  namedM1 : Fin 4
  deriving DecidableEq, Repr

def Header.zero : Header := ⟨0, 0, 0, 0, 0, 0, 0, 0, 0, false, false, false, false, true, 0⟩

/-- A weight slot (R265): its latched format, element bits and scale bytes; and the latest MXLD issued to it (R258). -/
structure WeightSlot where
  fmt : Option (Fin 16)
  /-- Element code of (n, k) at index n * 256 + k; the tile's N4 scale byte of block b of column n at n * 8 + b. -/
  elems : Tab Nat Nat
  scales : Tab Nat Nat
  history : Option (Nat × Fin 16)
  deriving DecidableEq, Repr

def WeightSlot.empty : WeightSlot := ⟨none, [], [], none⟩

/-- Where a group stands (R315 to R321). -/
inductive Phase where
  /-- Its bind record is written, and not yet Valid. -/
  | queued
  | resident
  /-- A park or compaction save is draining (R318). -/
  | parking
  | parkSaved
  | preemptSaved
  /-- Saved, with a place to return to: its bind record is written again. -/
  | returning
  /-- Its slots are free, and it holds a tracker entry (R321). -/
  | tracked
  /-- Its places are free. What its parts hold still stands, and an entry of a thread that ended may still await the handler (R321). -/
  | retired
  deriving DecidableEq, Repr

/-- What an engine still takes from the counts of a barrier object in scratchpad, whose line is Absent (R145, R247): the object's offset,
the bytes, the destination scope and whether Xf is set. -/
structure BarDue where
  off : Nat
  inB : Nat
  outB : Nat
  scope : Scope
  xf : Bool
  deriving DecidableEq, Repr

/-- The final status of a token (R238, R246, R275): its value, the destination scope, and whether it was a tile operation. -/
structure TokenEnd where
  status : Nat
  scope : Scope
  tile : Bool
  deriving DecidableEq, Repr

/-- A group: its identifiers, its bind record (R310), its kernel's bits (R328) and everything it owns on its core. -/
structure Group where
  ctx : Nat
  tenant : Nat
  launch : BitVec 32
  gang : BitVec 32
  group : Fin 16
  /-- The model's number of its gang. -/
  gangKey : Nat
  hdr : Header
  hdrVa : Word
  core : CoreId
  quarter : Fin 4
  slotMask : BitVec 16
  scrBase : Nat
  accBase : Nat
  wslots : BitVec 2
  image : Nat
  phase : Phase
  scratch : Memory
  /-- QSAT, QUND, QNAN (R162). -/
  cstat : BitVec 3
  acc : Tab Nat (BitVec 32)
  ws : Vector WeightSlot 2
  shape : Nat × Nat
  token : Nat
  statuses : Tab Nat TokenEnd
  dues : List BarDue
  bg : Nat
  parkCount : Nat
  /-- A pre-emption request has been recognised for the group (R324). -/
  recognised : Bool
  /-- An event of R319 has queued the park-saved group for relaunch; and the Gen, as last seen, of each carve-out object on which
  a saved thread of it waits. -/
  queued : Bool
  gens : Tab Nat Nat
  /-- CLOCK at its latest bind (R426). -/
  bindAt : Nat
  deriving DecidableEq, Repr

/-! ### Work in flight -/

/-- A single access of a pending atomic: thread, address, operand, new value of ACAS, owed registers. -/
structure AtomItem where
  thread : ThreadKey
  pa : Nat
  p : Word
  c : Word
  tag : Option Nat
  attr : Attr
  point : Point
  deriving DecidableEq, Repr

/-- What an outstanding operation does when it takes effect. -/
inductive OpBody where
  /-- A thread's LD (R204): address, size, sign extension, owed registers, point, attributes, acquire. -/
  | load (t : ThreadKey) (pa size : Nat) (sx : Bool) (tag : Nat) (point : Point) (attr : Attr) (acq : Option Scope)
      (mem : Bool)
  /-- The ATOM (no new value) or ACAS of an issue group (R212, R216). -/
  | atomic (cas : Bool) (size : Nat) (op : AtomOp) (items : List AtomItem) (acq : Option Scope)
  /-- The returns of a scratchpad word for one home warp (R150): values still to come, values collected. -/
  | returns (left : Nat) (got : List (ThreadKey × Nat × Word))
  /-- An access that has taken effect, and whose values return once its DRAM requests are granted (R366, R367). -/
  | back (got : List (ThreadKey × Nat × Word)) (acq : Option Scope)
  deriving DecidableEq, Repr

/-- An outstanding operation (R28). `crucible` marks the words CWAIT waits for (R167). -/
structure Op where
  core : CoreId
  warp : WarpKey
  threads : List ThreadKey
  crucible : Bool
  body : OpBody
  deriving DecidableEq, Repr

/-- The six barrier words (R280). -/
inductive BarOp where
  | binit
  | barr
  | barrx
  | bwait
  | bxin
  | bxout
  deriving DecidableEq, Repr

/-- One lane of a bank entry: thread, offset, operand values, owed registers. -/
structure Lane where
  thread : ThreadKey
  off : Nat
  x : Word
  y : Word
  tag : Nat
  deriving DecidableEq, Repr

/-- What a bank entry does (R154 to R166, R282). -/
inductive BankBody where
  | lds (size : Nat) (sx : Bool)
  | sts (size : Nat)
  | catom (op : AtomOp)
  | ccas
  | cvec (op : CvecOp) (long : Bool)
  | cred (op : CredOp)
  | csmx
  | ccvt
  | cqnt
  | bar (op : BarOp)
  deriving DecidableEq, Repr

/-- A bank entry (R147): the word's number (its age order), its place among equals, and its lanes. -/
structure BankEntry where
  word : Nat
  core : CoreId
  bank : Fin 32
  gid : Nat
  age : Nat
  quarter : Fin 4
  lines : List Nat
  lanes : List Lane
  body : BankBody
  deriving DecidableEq, Repr

/-- A watch of WAITA (R218, R219). -/
structure Watch where
  thread : ThreadKey
  die : Fin 8
  slice : Fin 64
  pa : Nat
  shared : Bool
  expected : Word
  deadline : Option Nat
  acq : Option Scope
  attr : Attr
  tag : Nat
  /-- Its line has been written, or its entry evicted: it ends when the slice wakes it (R220). -/
  hit : Bool
  /-- A pre-emption save has removed it: its word is read again at the relaunch (R221). -/
  saved : Bool
  deriving DecidableEq, Repr

/-- A home watch entry (R219): stack, bank, line and die. -/
structure HomeWatch where
  stack : Fin 16
  pch : Fin 64
  bank : Nat
  line : Nat
  die : Fin 8
  deriving DecidableEq, Repr

/-- The operations of the engines (R245, R256). -/
inductive EngKind where
  | copy
  | gath
  | scat
  | stkred
  | stkcvt
  | mxld
  | mxmm
  | mxsp
  | acz
  | acld
  | acst
  deriving DecidableEq, Repr

/-- The states of a transfer or tile operation (R238, R261). -/
inductive EngState where
  | pending
  | flight
  | done
  | faulted
  deriving DecidableEq, Repr

/-- A transfer or a tile operation: captured at issue (R255, R264, R268). -/
structure Eng where
  gid : Nat
  core : CoreId
  /-- The elected thread, and the address of the word after the issuing word (R242). -/
  thread : ThreadKey
  pcNext : Word
  token : Nat
  /-- Its token still names it: no later operation of the group was given the same value (R240). -/
  named : Bool
  kind : EngKind
  state : EngState
  /-- The order in which operations were dispatched (R269); 0 before. -/
  dispatched : Nat
  block : BitVec 512
  src : BitVec 512
  dst : BitVec 512
  /-- The input operations that were not complete at issue. -/
  in0 : Option Nat
  in1 : Option Nat
  /-- An input, or an earlier operation with a conflicting claim, completed Faulted (R238, R261). -/
  poison : Bool
  bar : Option BarObj
  /-- The scratchpad lines it cleared and has not completed (R144). -/
  cleared : List Nat
  /-- The index list, once read in Flight (R245). -/
  idx : Option (List Nat)
  /-- Its translations in Flight have been made (R181). -/
  asked : Bool
  /-- Source units read (R232), or for a tile operation operand words read (R234); units landed (R239); and bytes counted on the
  barrier object (R247). -/
  buf : Tab Nat Nat
  landed : List Nat
  inDone : Nat
  outDone : Nat
  shape : Nat × Nat
  rows : Nat × Nat
  slot : Fin 2
  /-- The value V of MXSP (R268). -/
  index : BitVec 256
  /-- Bytes written by programs since issue (R271): scratchpad offsets, and memory addresses. -/
  taintScr : List Nat
  taintPa : List Nat
  /-- The status bits it has met so far (R246, R275). -/
  status : Nat
  cls : Option (Fin 4)
  deadline : Option Nat
  /-- The destination scope (R232). -/
  scope : Scope
  deriving DecidableEq, Repr

/-- The stamp of a packet that a runner merged into another (R374): the core that sent it, and its miss if it is late (R367). -/
structure Stamp where
  core : CoreId
  ctx : Nat
  cls : Fin 4
  deadline : Nat
  deriving DecidableEq, Repr

/-- A packet to a home stack: STKRED contributions of one operation, or a return-free atomic (R213, R233, R372). -/
structure Packet where
  /-- The transfer, for STKRED; the issuing thread, for a `.nr` atomic. -/
  op : Option Nat
  threads : List ThreadKey
  stack : Fin 16
  pa : Nat
  /-- 0 FP32 add, 1 BF16 add, 2 S32 add, 3 FP32 max (R244); for atomics, the operation and the width in bytes. -/
  red : Option (Fin 4)
  atom : Option (AtomOp × Nat)
  /-- The operands, applied in order: those of one issue group to one word travel together (R215). -/
  values : List Word
  /-- Bytes this packet accounts for, by operation (R247). -/
  counts : List (Nat × Nat)
  redWin : Bool
  cls : Fin 4
  deadline : Option Nat
  /-- The core whose thread or engine sent it, and the context. -/
  core : CoreId
  ctx : Nat
  /-- The stamps of the packets merged into it. -/
  more : List Stamp
  /-- The dies that it has left, the steps of R201 done, each with the place of the packet in the order of sending (R394): one die, or
  those of the packets merged into it. -/
  sent : List (Fin 8 × Nat)
  /-- It has landed, and waits for the grant of its request (R372). -/
  applied : Bool
  deriving DecidableEq, Repr

/-! ### The tundish: queues, launches and gangs -/

/-- A launch that a queue holds (R331, R334, R339, R340): its record, what its acceptance found, and its hand-out. -/
structure Launch where
  num : BitVec 32
  ctx : Nat
  record : BitVec 512
  hdr : Header
  prio : Nat
  dirPa : Option Nat
  waitPa : Option Nat
  sigPa : Option Nat
  waitMet : Bool
  /-- The directory entry has been written (R329). -/
  dirDone : Bool
  handed : Nat
  /-- Gangs handed out that were handed back before they started, in order: they are handed out next (R311, R341). -/
  back : List Nat
  retired : Nat
  /-- It hands out no further gang (R337). -/
  closed : Bool
  /-- Its context has been destroyed: it never completes (R337). -/
  dead : Bool
  /-- CLOCK when it first could hand out its next gang (R342). -/
  since : Option Nat
  deriving DecidableEq, Repr

/-- The lasting marks of R335. -/
inductive QMark where
  | open
  | draining
  | suspended
  deriving DecidableEq, Repr

/-- A queue (R335 to R337). `gone` marks a removed queue whose launches have not all completed. -/
structure Queue where
  enable : Bool
  gone : Bool
  err : Fin 4
  ctx : Nat
  /-- The number that the next accepted record receives. -/
  nextNum : BitVec 32
  dropped : Nat
  fault : Nat
  mark : QMark
  records : List Launch
  deriving DecidableEq, Repr

/-- A gang handed out (R315, R324, R341). -/
structure Gang where
  queue : QueueId
  launch : BitVec 32
  gang : BitVec 32
  ctx : Nat
  prio : Nat
  die : Fin 8
  /-- The die that it left at its latest pre-emption save (R316). -/
  left : Fin 8
  groups : List Nat
  /-- CLOCK at its bind. -/
  boundAt : Nat
  /-- Its groups are bound and started. -/
  bound : Bool
  /-- It has been bound before: its threads have started (R315). -/
  started : Bool
  preempt : Bool
  /-- Saved by pre-emption and awaiting relaunch. -/
  saved : Bool
  retired : Bool
  deriving DecidableEq, Repr

/-- The rotation of a priority level (R341): the tenant whose turn it is, gangs left in the turn, next queue. -/
structure Rotation where
  tenant : Fin 64
  left : Nat
  queue : Fin 16
  deriving DecidableEq, Repr

/-! ### Contexts, tenants, dies -/

/-- A command of CXCMD in progress (R427); `create` holds the descriptor that its acceptance checked and copied (R347). -/
inductive CxCmd where
  | create (desc : BitVec 512)
  | destroy
  | dieMask (mask : BitVec 8)
  deriving DecidableEq, Repr

/-- An entry of a handle table (R253): generation and sealed record. -/
structure Handle where
  gen : Nat
  record : Option (BitVec 512)
  deriving DecidableEq, Repr

/-- A context (R347 to R349, R427). `live` is the copy of the descriptor taken at create. -/
structure Context where
  desc : BitVec 512
  live : BitVec 512
  exists? : Bool
  destroyed : Bool
  lost : BitVec 8
  touched : BitVec 8
  hfCause : Nat
  hfCore : Fin 128
  hfDie : Fin 8
  hf : Bool
  cmdErr : Fin 8
  cmd : Option CxCmd
  dieMask : BitVec 8
  handles : Tab Nat Handle
  /-- Image slots in use (R358). -/
  images : List Nat
  deriving DecidableEq, Repr

def Context.none : Context := ⟨0, 0, false, false, 0, 0, 0, 0, 0, false, 0, Option.none, 0, [], []⟩

/-- A tenant (R384, R185, R186): its entry and its violation log. -/
structure Tenant where
  entry : BitVec 1024
  vlog : Tab Nat (BitVec 128)
  head : Nat
  count : Nat
  dropped : Nat
  seq : Nat
  deriving DecidableEq, Repr

/-- The entry after reset: CtxVec 63, ViolVec 62, Weight 1 (R384). -/
def Tenant.reset : Tenant := ⟨BitVec.ofNat 1024 (63 * 2 ^ 996 + 62 * 2 ^ 990 + 2 ^ 982), [], 0, 0, 0, 0⟩

/-- A carve-out unit (R363). -/
structure CarveUnit where
  valid : Bool
  ctx : Nat
  err : Fin 4
  busy : Bool
  deriving DecidableEq, Repr

/-- The states of DIEPWR (R408); DOZE is derived. -/
inductive PowState where
  | on
  | nt
  | gated
  deriving DecidableEq, Repr

/-- A die. -/
structure Die where
  pow : PowState
  step : Nat
  err : Fin 4
  /-- The change in progress (R409): state and clock step. -/
  change : Option (PowState × Nat)
  startFail : Bool
  lost : Bool
  cyc : Nat
  /-- 25-MHz parts of a cycle carried (R8, R9). -/
  frac : Nat
  l2 : Tab Nat L2Line
  /-- Dirty lines in the order in which they became dirty (R193). -/
  dirtyList : List Nat
  epoch : Nat
  tlb : List TlbEntry
  carve : Vector CarveUnit 8
  /-- The latest report: of each core, its context and its free guest places; and CLOCK then (R295). -/
  reports : Tab (Fin 128) (Nat × Nat)
  reportAt : Nat
  /-- The instruction memory of its cupola, and whether the cupola runs (R402, R405). -/
  cupola : Memory
  cupolaRuns : Bool
  deriving DecidableEq, Repr

def Die.reset : Die :=
  ⟨.on, 24, 0, none, false, false, 0, 0, [], [], 0, [], Vector.replicate 8 ⟨false, 0, 0, false⟩, [], 0, [], false⟩

/-! ### Stacks, links, boot -/

/-- A request waiting at a controller (R364, R365). -/
structure Request where
  id : Nat
  /-- The operation, store, packet or transfer that waits for it, if any. -/
  op : Option Nat
  stack : Fin 16
  pch : Fin 64
  bank : Nat
  row : Nat
  pa : Nat
  len : Nat
  cls : Fin 4
  deadline : Nat
  stamped : Bool
  arrived : Nat
  /-- The controller's queue was full: it waits in the runner, and has not arrived (R365). -/
  held : Bool
  /-- The runner port at which it arrived (R365). -/
  port : Nat
  core : CoreId
  ctx : Nat
  more : List Stamp
  deriving DecidableEq, Repr

/-- A bank of a pseudo-channel (R369, R371). -/
structure Bank where
  credit : Nat
  /-- CLOCK at which the next refresh falls due. -/
  due : Nat
  /-- Refreshes that fell due with no credit left and are not issued. -/
  owed : Nat
  /-- One more than CLOCK at its last early refresh (R369). -/
  early : Nat
  lastRow : Option Nat
  rows : Tab Nat Nat
  deriving DecidableEq, Repr

/-- A compute-bound interval entry (R370). -/
structure PhaseEntry where
  stack : Fin 16
  core : CoreId
  until? : Option Nat
  deriving DecidableEq, Repr

/-- A deadline-miss notice (R367). -/
structure MissNotice where
  /-- The operation, store or transfer whose request missed. -/
  op : Option Nat
  core : CoreId
  ctx : Nat
  cls : Fin 4
  deriving DecidableEq, Repr

/-- A read or an AtomicOp of a host that has taken effect at home: its completion leaves with the last response (R364, R388). -/
structure HostRead where
  port : Fin 2
  tenant : Fin 64
  /-- The home address of the first byte. -/
  base : Nat
  data : List Byte
  /-- By completion of 512 bytes: the largest LOAD among its responses so far (R368, R378). -/
  loads : Tab Nat Nat
  deriving DecidableEq, Repr

/-- A posted write of a host whose pieces have not all been accepted (R385): the physical and the home address of the byte at `off`. -/
structure HostWrite where
  port : Fin 2
  tenant : Fin 64
  /-- The virtual function that sent it. -/
  fn : Nat
  off : Nat
  pa : Nat
  loc : Nat
  remote : Bool
  cls : Fin 4
  ctx : Nat
  /-- The pieces that are still to be accepted, in address order. -/
  pieces : List (Nat × List Byte)
  deriving DecidableEq, Repr

/-- A message that has left through an off-package port (R396, R397). -/
inductive OffNote where
  /-- A request travels on; `dateline` moves it to VC1. -/
  | forward (stack : Fin 16) (port : Fin 2) (pa : BitVec 56) (len : Nat) (op : RemoteOp) (dateline : Bool)
  /-- What a request returns. -/
  | response (stack : Fin 16) (port : Fin 2) (data : List Byte)
  /-- The error response. -/
  | error (stack : Fin 16) (port : Fin 2) (pa : BitVec 56)
  deriving DecidableEq, Repr

/-- A notice on class MGT or LDL to a home slot (R298, R302). -/
structure EndNote where
  thread : ThreadKey
  deriving DecidableEq, Repr

/-- The fill of a bucket pair, in bytes (R387). -/
structure Bucket where
  pair : BitVec 64
  inFill : Nat
  outFill : Nat
  deriving DecidableEq, Repr

/-- A host port of another package, as its host number reaches it (R386): its sixteen host windows, and bit t set where tenant t
has a virtual function on it. -/
structure FarPort where
  windows : Vector (BitVec 256) 16
  tenants : BitVec 64
  /-- The AtomicOps that its host advertises: bit 0 FetchAdd of 32 bits, 1 of 64, 2 Swap of 32 bits, 3 of 64, 4 CAS of 64. -/
  atomics : BitVec 5
  deriving DecidableEq, Repr

/-- A host port (R386 to R389, R399). -/
structure Port where
  cfg : BitVec 64
  loadFb : BitVec 64
  buckets : Tab (Fin 65) Bucket
  windows : Vector (BitVec 256) 16
  /-- The base-2 logarithm of the size of BAR2, by function; 40 where not listed (R380) (DESIGN CHOICE, unsafe: notes/assumptions/111.md). -/
  bar2 : Tab (Fin 64) Nat
  /-- The AtomicOps that the host advertises, as in FarPort; and whether it has enabled End-End TLP Prefixes (R386, R388). -/
  atomics : BitVec 5
  prefixes : Bool
  deriving DecidableEq, Repr

/-- Until the host says so, it takes no AtomicOp and no prefix, as PCI Express has it (PRESUMED, unsafe: notes/assumptions/112.md). -/
def Port.reset : Port := ⟨0, 0, [], Vector.replicate 16 0, [], 0, false⟩

/-- The phases of boot (R398). -/
inductive BootPhase where
  | training
  | openP
  | checking
  | starting
  | ready
  | failed
  | halted
  deriving DecidableEq, Repr

/-- The boot area (R398 to R407). -/
structure Boot where
  powered : Bool
  phase : BootPhase
  claimed : Bool
  owner : Fin 2
  errCode : Nat
  errUnit : Nat
  pkgSet : Bool
  pkgNum : BitVec 12
  latched : BitVec 12
  buffer : Memory
  /-- The copies of the bundle in the base dies of S0 and S15 (R403). -/
  copies : Vector Memory 2
  /-- The instruction memory of the tundish cores of S0 and S15, and whether they run (R402, R405). -/
  tundish : Vector Memory 2
  tundishRuns : Vector Bool 2
  /-- ATTNONCE as each port has written it, and the port that is served with the nonce of its request (R407). -/
  nonces : Vector (BitVec 512) 2
  attPort : Fin 2
  attNonce : BitVec 512
  attBusy : Bool
  attDone : Bool
  report : List Byte
  deriving DecidableEq, Repr

def Boot.reset : Boot :=
  ⟨true, .training, false, 0, 0, 0, false, 0, 0, [], Vector.replicate 2 [], Vector.replicate 2 [], Vector.replicate 2 false,
    Vector.replicate 2 0, 0, 0, false, false, []⟩

/-- The pools of a stack, in 64 MiB units (R173, R402). -/
structure Pools where
  inter : Nat
  row : Vector Nat 4
  pin : Vector Nat 16
  reserve : Vector Nat 16
  deriving DecidableEq, Repr

/-- The MSI-X state of a function (R345, R378): pending and masked vectors. -/
structure Msix where
  pending : BitVec 64
  masked : BitVec 64
  deriving DecidableEq, Repr

/-- After reset every vector is masked, as PCI Express has it (PRESUMED, unsafe: notes/assumptions/52.md). -/
def Msix.reset : Msix := ⟨0, BitVec.allOnes 64⟩

/-- What a host has received: an interrupt (port, virtual function, vector), or a completion of a request, with LOAD where it carries
the prefix (R388). -/
inductive HostNote where
  | irq (port : Fin 2) (vf : Nat) (vec : Fin 64)
  | completion (port : Fin 2) (data : List Byte) (load : Option Nat)
  /-- Completer Abort. -/
  | abort (port : Fin 2) (load : Option Nat)
  /-- Unsupported Request; of a posted write it is no completion, and carries no prefix. -/
  | unsupported (port : Fin 2) (load : Option Nat)
  | nonFatal (port : Fin 2)
  deriving DecidableEq, Repr

/-- The issue group for which a word acts (R81): its core, its quarter and its threads in the order of R297. -/
structure Focus where
  core : CoreId
  quarter : Fin 4
  threads : List ThreadKey
  deriving DecidableEq, Repr

/-- The package. -/
structure State where
  -- the model's own
  agenda : List Move
  moveCount : Nat
  freeCount : Nat
  focus : Focus
  seq : Nat
  -- package
  clock : Nat
  mem : Memory
  pools : Pools
  boot : Boot
  dies : Vector Die 8
  cores : Tab CoreId Core
  slots : Tab (CoreId × Fin 64) Slot
  groups : Tab Nat Group
  warps : Tab WarpKey Warp
  threads : Tab ThreadKey Thread
  -- in flight
  ops : Tab Nat Op
  banks : List BankEntry
  watches : Tab Nat Watch
  homeWatches : List HomeWatch
  engs : Tab Nat Eng
  packets : Tab Nat Packet
  endNotes : List EndNote
  -- contexts and tundish
  contexts : Tab Nat Context
  tenants : Tab (Fin 64) Tenant
  queues : Tab QueueId Queue
  gangs : Tab Nat Gang
  latbnd : Vector (BitVec 64) 12
  rotation : Vector Rotation 12
  nextPoll : Nat
  -- stacks and links
  requests : List Request
  /-- Requests that have arrived so far. -/
  arrivals : Nat
  lastC0 : Tab (Fin 16 × Fin 64) Nat
  dramBanks : Tab (Fin 16 × Fin 64 × Nat) Bank
  /-- The refresh credit of the banks of each stack that no access has reached (R369). -/
  idleCredit : Vector Nat 16
  phases : List PhaseEntry
  misses : List MissNotice
  hostReads : Tab Nat HostRead
  hostWrites : Tab Nat HostWrite
  ports : Vector Port 2
  farPorts : Tab Nat FarPort
  regions : Vector (BitVec 256) 64
  route : Tab Nat (BitVec 32)
  linkFail : BitVec 32
  linkDown : BitVec 32
  msix : Tab (Fin 2 × Nat) Msix
  notes : List HostNote
  /-- What has left the package through its off-package ports. -/
  sent : List OffNote
  deriving DecidableEq, Repr

/-- R337: the bounds after reset. -/
def resetLatbnd : Vector (BitVec 64) 12 :=
  let b (us : Nat) : BitVec 64 := BitVec.ofNat 64 (2 ^ 63 + us)
  #v[0, 0, 0, 0, 0, 0, b 500, b 500, b 500, b 50, b 50, b 50]

/-- The package when it leaves reset: powered, host ports in training (R398), nothing loaded
(DESIGN CHOICE, unsafe: notes/assumptions/4.md). -/
def State.reset : State :=
  { agenda := []
    moveCount := 0
    freeCount := 0
    focus := ⟨⟨0, 0⟩, 0, []⟩
    seq := 0
    clock := 0
    mem := []
    pools := ⟨0, Vector.replicate 4 0, Vector.replicate 16 0, Vector.replicate 16 0⟩
    boot := Boot.reset
    dies := Vector.replicate 8 Die.reset
    cores := []
    slots := []
    groups := []
    warps := []
    threads := []
    ops := []
    banks := []
    watches := []
    homeWatches := []
    engs := []
    packets := []
    endNotes := []
    contexts := []
    tenants := []
    queues := []
    gangs := []
    latbnd := resetLatbnd
    rotation := Vector.replicate 12 ⟨0, 0, 0⟩
    nextPoll := 0
    requests := []
    arrivals := 0
    lastC0 := []
    dramBanks := []
    idleCredit := Vector.replicate 16 0
    phases := []
    misses := []
    hostReads := []
    hostWrites := []
    ports := Vector.replicate 2 Port.reset
    farPorts := []
    regions := Vector.replicate 64 0
    route := []
    linkFail := 0
    linkDown := 0
    msix := []
    notes := []
    sent := [] }

/-- Why a step stops with a fault. -/
inductive Fault where
  /-- `exec` of a word when no issue group stands in `focus`: no thread issues the word. Raised by Ops.issue only; `step`
  never reaches it, because the former fills `focus` first. Safe. -/
  | noIssueGroup
  deriving DecidableEq, Repr

/-- Why a step is refused. -/
inductive Refusal where
  /-- A row of the opcode table without a meaning in this model. Safe. -/
  | notModelled (mnemonic : String)
  deriving DecidableEq, Repr

end Sys2Proof.Machine
end

