-- ==== Sys2Proof/Machine/Ops.lean ====
section
/-! DEFINITION. The named operations over the state: accessors, registers, interrupts and the violation log, waking a
thread, and taking an exception (spec/17_context.md R351 to R353). -/

namespace Sys2Proof

/-- A thread of slot 63 (R353). -/
def ThreadKey.isHandler : ThreadKey → Bool
  | .handler _ _ => true
  | .home _ _ _ => false

end Sys2Proof

namespace Sys2Proof.Machine

/-- x[hi:lo] of a packed register or record (R14). -/
def bvf {n : Nat} (x : BitVec n) (hi lo : Nat) : Nat := x.toNat / 2 ^ lo % 2 ^ (hi + 1 - lo)

/-- x with field hi:lo replaced. -/
def bvput {n : Nat} (x : BitVec n) (hi lo v : Nat) : BitVec n :=
  BitVec.ofNat n (x.toNat - bvf x hi lo * 2 ^ lo + v % 2 ^ (hi + 1 - lo) * 2 ^ lo)

/-! ### Accessors -/

def coreOf (s : State) (c : CoreId) : Core := (tget s.cores c).getD Core.idle
def setCore (s : State) (c : CoreId) (k : Core) : State := { s with cores := tset s.cores c k }
def modCore (s : State) (c : CoreId) (f : Core → Core) : State := setCore s c (f (coreOf s c))

def slotOf (s : State) (c : CoreId) (i : Fin 64) : Slot := (tget s.slots (c, i)).getD Slot.idle
def modSlot (s : State) (c : CoreId) (i : Fin 64) (f : Slot → Slot) : State :=
  { s with slots := tset s.slots (c, i) (f (slotOf s c i)) }

def dieOf (s : State) (d : Fin 8) : Die := s.dies[d]
def modDie (s : State) (d : Fin 8) (f : Die → Die) : State := { s with dies := s.dies.set d (f s.dies[d]) }

/-- The clock cycle of the die of a core (R9). -/
def cycOf (s : State) (c : CoreId) : Nat := (dieOf s c.die).cyc

def threadOf (s : State) (t : ThreadKey) : Option Thread := tget s.threads t
def modThread (s : State) (t : ThreadKey) (f : Thread → Thread) : State := { s with threads := tmod s.threads t f }

/-- One change for each thread of a list. -/
def modThreads (s : State) (ts : List ThreadKey) (f : ThreadKey → Thread → Thread) : State :=
  ts.foldl (fun a t => modThread a t (f t)) s

def groupOf (s : State) (g : Nat) : Option Group := tget s.groups g
def modGroup (s : State) (g : Nat) (f : Group → Group) : State := { s with groups := tmod s.groups g f }

def modWarp (s : State) (w : WarpKey) (f : Warp → Warp) : State := { s with warps := tmod s.warps w f }

def ctxOf (s : State) (c : Nat) : Context := (tget s.contexts c).getD Context.none
def modCtx (s : State) (c : Nat) (f : Context → Context) : State :=
  { s with contexts := tset s.contexts c (f (ctxOf s c)) }

/-- A context works on a die, or holds dirty words there (R359). -/
def touchDie (s : State) (ctx : Nat) (d : Fin 8) : State :=
  modCtx s ctx fun x => { x with touched := x.touched ||| (1#8 <<< d.val) }

def tenantOf (s : State) (t : Fin 64) : Tenant := (tget s.tenants t).getD Tenant.reset
def modTenant (s : State) (t : Fin 64) (f : Tenant → Tenant) : State :=
  { s with tenants := tset s.tenants t (f (tenantOf s t)) }

def portOf (s : State) (p : Fin 2) : Port := s.ports[p]
def modPort (s : State) (p : Fin 2) (f : Port → Port) : State := { s with ports := s.ports.set p (f s.ports[p]) }

/-! ### Threads, groups and contexts -/

def gidOf : ThreadKey → Option Nat
  | .home g _ _ => some g
  | .handler _ _ => none

def laneOf : ThreadKey → Fin 32
  | .home _ _ l => l
  | .handler _ l => l

def hwarpOf : ThreadKey → Fin 16
  | .home _ h _ => h
  | .handler _ _ => 0

def warpKeyOf : ThreadKey → WarpKey
  | .home g h _ => .home g h
  | .handler c _ => .handler c

def groupOfThread (s : State) (t : ThreadKey) : Option Group := (gidOf t).bind (groupOf s)

def warpOf (s : State) (t : ThreadKey) : Option Warp := tget s.warps (warpKeyOf t)

/-- The context for which a thread acts. -/
def ctxIdOf (s : State) (t : ThreadKey) : Nat :=
  match t with
  | .home g _ _ => ((groupOf s g).map (·.ctx)).getD 0
  | .handler c _ => (coreOf s c).ctx.getD 0

/-- The tenant of a context (R347). -/
def tenantOfCtx (s : State) (c : Nat) : Fin 64 := Fin.ofNat 64 (bvf (ctxOf s c).live 255 250)

/-- The threads of a warp. -/
def threadsOfWarp (s : State) (w : WarpKey) : List ThreadKey := tkeys s.threads fun t _ => warpKeyOf t = w

/-- The threads of a group. -/
def threadsOfGroup (s : State) (g : Nat) : List ThreadKey := tkeys s.threads fun t _ => gidOf t = some g

/-- The thread is resident in its slot, and neither ended, lost, saved nor travelling (R75). -/
def Thread.isResident (t : Thread) : Bool :=
  match t.status with
  | .live _ => true
  | .stopped _ => true
  | _ => false

/-- The threads resident in the slots of a core. -/
def threadsOfCore (s : State) (c : CoreId) : List ThreadKey :=
  tkeys s.threads fun _ th => th.isResident && decide (th.place.core = c)

def Thread.isEnded (t : Thread) : Bool :=
  match t.status with
  | .ended => true
  | .lost => true
  | _ => false

/-- The STRICT bit of a thread's group (R27). The handler has no group and no STRICT bit. -/
def strictOf (s : State) (t : ThreadKey) : Bool := ((groupOfThread s t).map (·.hdr.strict)).getD false

/-- The thread is a ladle in a guest place. -/
def isAway (s : State) (t : ThreadKey) : Bool := ((threadOf s t).map (·.away.isSome)).getD false

/-- The order of R297: slot, then lane; guest slots stand above every home slot. -/
def placeLt (s : State) (a b : ThreadKey) : Bool :=
  match threadOf s a, threadOf s b with
  | some x, some y => decide (x.place.slot.val * 32 + x.place.lane.val < y.place.slot.val * 32 + y.place.lane.val)
  | _, _ => false

def sortThreads (s : State) (l : List ThreadKey) : List ThreadKey := sortBy (placeLt s) l

/-! ### Registers -/

/-- R26: what a source reads in a die cycle; `base` names the element among the choices of the issue group. -/
def cellRead (n base cyc : Nat) (c : RCell) : Word :=
  if cyc < c.due then
    BitVec.ofNat 64
      ((if Config.early n (base + 1) then c.val.toNat / 2 ^ 32 else c.old.toNat / 2 ^ 32) * 2 ^ 32 +
        (if Config.early n base then c.val.toNat % 2 ^ 32 else c.old.toNat % 2 ^ 32))
  else c.val

/-- The slot of q_k (R102). -/
def Regs.qslot (r : Regs) (k : Fin 16) : Fin 16 := r.head + k

/-- R26: what a register or slot holds physically when its next producer issues: its value; while an outstanding operation
still owes that value, what it held before (DEDUCED, unsafe: notes/assumptions/9.md). -/
def RCell.held (c : RCell) : Word := if c.pend.isSome then c.old else c.val

/-- A producer issues: its value, the value held before, and when it is certain (R26). -/
def RCell.next (c : RCell) (v : Word) (due : Nat) (pend : Option Nat) : RCell := ⟨v, c.held, due, pend⟩

/-- R20: allocates the youngest slot, which held q15, for a value. -/
def Regs.push (r : Regs) (v : Word) (due : Nat) (pend : Option Nat) : Regs :=
  let h := r.head - 1
  { r with head := h, slots := r.slots.set h (r.slots[h].next v due pend) }

/-- Writes a named register. -/
def Regs.put (r : Regs) (i : Fin 32) (v : Word) (due : Nat) (pend : Option Nat) : Regs :=
  { r with named := r.named.set i (r.named[i].next v due pend) }

/-- R103: every fixed-latency write has landed before a save ends, so behind the relaunch each value is certain, whatever the
cycle of the die. -/
def RCell.relaunched (c : RCell) : RCell := { c with due := 0 }

def Regs.relaunched (r : Regs) : Regs :=
  { r with slots := r.slots.mapIdx fun _ c => c.relaunched, named := r.named.mapIdx fun _ c => c.relaunched }

/-- A result goes where its destination sends it (R21): pushed, and written to a named register. -/
def Regs.give (r : Regs) (d : PDst) (v : Word) (due : Nat) (pend : Option Nat) : Regs :=
  match d with
  | .push => r.push v due pend
  | .named i => (r.push v due pend).put i v due pend

/-- An owed value arrives. -/
def RCell.settle (c : RCell) (tag : Nat) (v : Word) : RCell :=
  if c.pend = some tag then { c with val := v, due := 0, pend := none } else c

def Regs.deliver (r : Regs) (tag : Nat) (v : Word) : Regs :=
  { r with slots := r.slots.mapIdx fun _ c => c.settle tag v, named := r.named.mapIdx fun _ c => c.settle tag v }

/-- No write is owed to the registers (R103). -/
def RCell.landed (cyc : Nat) (c : RCell) : Bool := c.pend.isNone && decide (c.due ≤ cyc)

def Regs.landed (cyc : Nat) (r : Regs) : Bool := r.slots.toList.all (·.landed cyc) && r.named.toList.all (·.landed cyc)

/-- The cell that a source operand names, for a thread (R19). -/
def srcCell (s : State) (t : ThreadKey) (a : Src) : RCell :=
  match a with
  | .q i => ((threadOf s t).map fun th => th.regs.slots[th.regs.qslot i]).getD RCell.zero
  | .n i => ((threadOf s t).map fun th => th.regs.named[i]).getD RCell.zero
  | .w i => ((warpOf s t).map fun w => w.w[i]).getD RCell.zero

/-- The place of an element among the choices of an issue group (R26): by issue lane (R297) for a thread's own registers; by slot for
the w registers of a home warp, which reads as one value in each of its threads (R107). -/
def laneChoice (s : State) (t : ThreadKey) (k : Nat) : Nat :=
  ((((threadOf s t).map (·.place.lane.val)).getD (laneOf t).val) * 8 + k) * 2

def warpChoice (s : State) (w : WarpKey) (k : Nat) : Nat :=
  512 + (((tget s.warps w).map (·.slot.val)).getD 0 * 8 + k) * 2

def srcChoice (s : State) (t : ThreadKey) (k : Nat) : Src → Nat
  | .w _ => warpChoice s (warpKeyOf t) k
  | .q _ | .n _ => laneChoice s t k

/-- The value of operand number k of a thread (R20, R26). -/
def readSrc (s : State) (t : ThreadKey) (k : Nat) (a : Src) : Word :=
  cellRead s.freeCount (srcChoice s t k a) (cycOf s s.focus.core) (srcCell s t a)

/-- The value of operand number k of a W = 1 word, for a home warp (R24). -/
def readUni (s : State) (w : WarpKey) (k : Nat) (a : Src) : Word :=
  match a with
  | .w i => cellRead s.freeCount (warpChoice s w k) (cycOf s s.focus.core)
      (((tget s.warps w).map fun x => x.w[i]).getD RCell.zero)
  | _ => 0

/-- Gives a thread a result (R20, R21). -/
def giveThread (s : State) (t : ThreadKey) (d : PDst) (v : Word) (due : Nat) (pend : Option Nat) : State :=
  modThread s t fun th => { th with regs := th.regs.give d v due pend }

/-- Writes a warp-uniform register (R107). -/
def putUni (s : State) (w : WarpKey) (i : Fin 16) (v : Word) (due : Nat) : State :=
  modWarp s w fun x => { x with w := x.w.set i (x.w[i].next v due none) }

/-- Delivers an owed value to a thread. -/
def deliverTo (s : State) (t : ThreadKey) (tag : Nat) (v : Word) : State :=
  modThread s t fun th => { th with regs := th.regs.deliver tag v
                                    inBar := th.inBar.map fun b => (b.1, b.2.deliver tag v) }

/-! ### Interrupts and the violation log -/

/-- Raises vector `vec` of function `f` of a port: held pending while masked (R345). -/
def raiseMsix (s : State) (p : Fin 2) (f : Nat) (vec : Fin 64) : State :=
  let m := (tget s.msix (p, f)).getD Msix.reset
  if m.masked.getLsb vec then { s with msix := tset s.msix (p, f) { m with pending := m.pending ||| (1 <<< vec.val) } }
  else { s with notes := s.notes ++ [.irq p f vec] }

/-- The virtual function of a tenant on a port (R384); 0 none. -/
def tenantVf (s : State) (t : Fin 64) (p : Fin 2) : Nat :=
  if p = 0 then bvf (tenantOf s t).entry 1007 1002 else bvf (tenantOf s t).entry 1013 1008

/-- Raises a vector of a tenant on each port that gives it a function (R345, R379) (DEDUCED, safe: notes/assumptions/14.md). -/
def raiseVector (s : State) (t : Fin 64) (vec : Fin 64) : State :=
  let s1 := if tenantVf s t 0 = 0 then s else raiseMsix s 0 (tenantVf s t 0) vec
  if tenantVf s t 1 = 0 then s1 else raiseMsix s1 1 (tenantVf s t 1) vec

/-- A violation-log entry (R185). -/
structure LogRec where
  src : Nat
  core : Nat
  die : Nat
  ctx : Nat
  kind : Nat
  space : Nat
  addr : Nat
  deriving DecidableEq, Repr

/-- R184, R186: logs an event of a tenant and raises its violation interrupt. Seq is the count before the event, and an event that
only Dropped counts raises the interrupt too (DESIGN CHOICE, unsafe: notes/assumptions/89.md). -/
def logViolation (s : State) (t : Fin 64) (r : LogRec) : State :=
  let n := tenantOf s t
  let e : BitVec 128 := BitVec.ofNat 128
    (n.seq % 65536 * 2 ^ 96 + r.src * 2 ^ 93 + r.core * 2 ^ 86 + r.die * 2 ^ 83 + r.ctx * 2 ^ 72 + r.kind * 2 ^ 68 +
      r.space * 2 ^ 64 + r.addr % 2 ^ 64)
  let n' : Tenant :=
    if n.count = 64 then { n with dropped := min (n.dropped + 1) 0xFFFF, seq := (n.seq + 1) % 65536 }
    else { n with vlog := tset n.vlog ((n.head + n.count) % 64) e, count := n.count + 1, seq := (n.seq + 1) % 65536 }
  raiseVector (modTenant s t fun _ => n') t (Fin.ofNat 64 (bvf n.entry 995 990))

/-! ### Ending and waking threads -/

/-- A thread's mask bits clear (R86). -/
def clearMaskBits (s : State) (t : ThreadKey) : State :=
  modWarp s (warpKeyOf t) fun w => { w with k := w.k.mapIdx fun _ m => m &&& ~~~(1#32 <<< (laneOf t).val) }

/-- A lane of a counted word leaves it without a value (R150): it ended, or its barrier entry faulted. -/
def dropReturn (s : State) (tag : Nat) : State :=
  { s with ops := tmod s.ops tag fun o => match o.body with
      | .returns left got => { o with body := .returns (left - 1) got }
      | _ => o }

/-- An ended thread no longer waits in BWAIT. -/
def dropWait (s : State) (th : Thread) : State :=
  match th.status with
  | .live (.waiting (.barrier _ _ _ tag)) | .stopped (.waiting (.barrier _ _ _ tag)) |
    .saved (.waiting (.barrier _ _ _ tag)) => dropReturn s tag
  | _ => s

/-- A thread enters Ended (R93): its queue and prefix state are discarded, its mask bits and open bit clear. An away
thread leaves its guest place, and its home slot learns of the end by a notice (R302). A result that an ended thread still waited for
stays owed to its named register (DESIGN CHOICE, unsafe: notes/assumptions/104.md). -/
def endThread (s0 : State) (t : ThreadKey) : State :=
  match threadOf s0 t with
  | none => s0
  | some th =>
    let s := dropWait s0 th
    let th' : Thread := { th with status := .ended, pfx := Pfx.empty, critOpen := false, step := .off, inBar := none,
                                  leaving := none, recalled := false }
    match th.away with
    | none => clearMaskBits (modThread s t fun _ => th') t
    | some a =>
      { modThread s t (fun _ => { th' with regs := a.home }) with endNotes := s.endNotes ++ [⟨t⟩] }

/-- A thread enters Lost (R76, R86, R304): its mask bits and open bit clear, and its home lane shows it, with the registers, the
PC and the prefix state that stand there. -/
def loseThread (s : State) (t : ThreadKey) : State :=
  clearMaskBits (modThread s t fun th =>
    { th with status := .lost, place := (th.away.map (·.homePlace)).getD th.place, regs := (th.away.map (·.home)).getD th.regs
              pc := (th.away.map (·.homePc)).getD th.pc, pfx := (th.away.map (·.homePfx)).getD th.pfx
              away := none, leaving := none, recalled := false, inBar := none, entry := none, res := .none, step := .off,
              critOpen := false }) t

/-- WAKE at the end of a wait (R98). -/
def wakeAs (th : Thread) (reason : Nat) : Wake := ⟨reason, th.dozedMark, th.savedMark⟩

/-! ### Taking an exception -/

/-- A fault that a word or an engine raises for a thread (R351, R352). `pc` is the recorded PC. -/
structure FaultRec where
  thread : ThreadKey
  cause : Cause
  pc : Word
  detail : Nat
  addr : Word
  log : Option LogRec
  deriving DecidableEq, Repr

/-- The entry of a thread that is not resolved (R351, R356): from the first mark an entry counts as resolved. -/
def Thread.openEntry (th : Thread) : Option Entry := if th.res = .none then th.entry else none

/-- The snapshot entry of a fault; a second one before resolution sets Again, and the first cause stands (R351). A fault of a thread
that is marked already adds a further entry, unresolved, and the mark is dropped (DESIGN CHOICE, unsafe: notes/assumptions/103.md).
After a `TRAP` the thread resumes behind it (R95). -/
def addEntry (s : State) (f : FaultRec) : State :=
  modThread s f.thread fun th =>
    match th.openEntry with
    | some e => { th with entry := some { e with again := true } }
    | none => { th with entry := some ⟨f.cause, f.pc, f.detail, f.addr, false, false⟩
                        res := .none
                        pc := if f.cause = .trap then f.pc else th.pc }

/-- The codes of R351. -/
def causeCode : Cause → Nat
  | .illegal => 1
  | .litSeq => 2
  | .priv => 3
  | .stallShort => 4
  | .regRange => 5
  | .align => 6
  | .viol => 7
  | .page => 8
  | .handle => 9
  | .migRef => 10
  | .bovr => 11
  | .dieLost => 12
  | .trap => 13
  | .brk => 14

/-- R351 item 1: every thread of slots 0 to 62 that is Ready, Stalled, Waiting or Exiting enters Stopped. -/
def stopThreads (s : State) (c : CoreId) : State :=
  { s with threads := s.threads.map fun e =>
      match e.2.status with
      | .live l => if e.2.place.core = c ∧ e.1.isHandler = false then (e.1, { e.2 with status := .stopped l }) else e
      | _ => e }

/-- The slots that hold a thread with an unresolved entry (R353). -/
def entrySlots (s : State) (c : CoreId) : Word :=
  s.threads.foldl (fun m e =>
    if e.1.isHandler = false ∧ e.2.place.core = c ∧ e.2.entry.isSome ∧ e.2.res = .none then m ||| (1 <<< e.2.place.slot.val) else m) 0

/-- HandlerPc of a context, sign-extended from bit 55 (R347). -/
def handlerPc (s : State) (c : Nat) : Word := sext 56 (bvf (ctxOf s c).live 332 277)

/-- A thread of slot 63 at the start of an invocation (R353). -/
def handlerThread (pc : Word) (c : CoreId) (lane : Fin 32) : Thread :=
  { status := .live .ready, pc := pc, pfx := Pfx.empty, regs := Regs.zero, readyAt := 0, place := ⟨c, 63, lane⟩,
    away := none, wake := ⟨0, false, false⟩, entry := none, res := .none, step := .off, inBar := none, leaving := none,
    recalled := false, savedMark := false, dozedMark := false, streak := 0, streakRow := 0, filter := 0,
    critOpen := false, oprdy := none }

/-- R353: the handler starts in slot 63 with 32 threads, and sees the entries that exist. -/
def invokeHandler (s : State) (c : CoreId) : State :=
  let ctx := (coreOf s c).ctx.getD 0
  let pc := handlerPc s ctx
  let bits := entrySlots s c
  let seen : State := { s with threads := s.threads.map fun e =>
    if e.2.place.core = c ∧ e.1.isHandler = false then
      (e.1, { e.2 with entry := e.2.entry.map fun x => { x with seen := true } }) else e }
  let ths := (List.finRange 32).foldl
    (fun t l => tset t (ThreadKey.handler c l) (handlerThread pc c l)) seen.threads
  let w : Warp := { w := (Vector.replicate 16 RCell.zero).set 0 ⟨bits, 0, 0, none⟩, k := Vector.replicate 12 0,
                    count := 8, base := 47, slot := 63, freed := 0 }
  let s1 := { seen with threads := ths, warps := tset seen.warps (.handler c) w }
  modSlot (modCore s1 c fun k => { k with handler := some ⟨0⟩, dozing := false }) c 63
    fun x => { x with leader := some ⟨pc, Pfx.empty⟩, counts := [], timed := false }

/-- The handler's threads end, and their watches with them (R353, R354). -/
def endHandler (s : State) (c : CoreId) : State :=
  let s1 : State := { s with
    threads := s.threads.map fun e =>
      if e.1.isHandler ∧ e.2.place.core = c then (e.1, { e.2 with status := .ended }) else e
    watches := s.watches.filter fun e => !(e.2.thread.isHandler && decide (warpKeyOf e.2.thread = .handler c)) }
  modSlot (modCore s1 c fun k => { k with handler := none }) c 63 fun x => { x with leader := none, counts := [] }

/-- A handler fault (R353): the invocation ends with no resolution, the first record stands while Hf is 1, and the
context interrupt is raised. Marks that the invocation has set stay (DESIGN CHOICE, unsafe: notes/assumptions/105.md). -/
def handlerFault (s : State) (c : CoreId) (code : Nat) : State :=
  let ctx := (coreOf s c).ctx.getD 0
  let s1 := endHandler s c
  let s2 := modCtx s1 ctx fun x =>
    if x.hf then x else { x with hf := true, hfCause := code, hfCore := c.core, hfDie := c.die }
  raiseVector s2 (tenantOfCtx s2 ctx)
    (Fin.ofNat 64 (bvf (tenantOf s2 (tenantOfCtx s2 ctx)).entry 1001 996))

/-- Logs what the faults of a list log. -/
def logFaults (s : State) (fs : List FaultRec) : State :=
  fs.foldl (fun a f =>
    match f.log with
    | some r => logViolation a (tenantOfCtx a (ctxIdOf a f.thread)) r
    | none => a) s

/-- TAKING AN EXCEPTION (R351 to R353): the faults of home threads and ladles stop the core; each faulting thread gets its
entry; violations are logged; the handler is invoked unless an invocation runs or a handler fault awaits the management
host. A fault of a slot 63 thread is a handler fault. -/
def takeFaults (s : State) (c : CoreId) (fs : List FaultRec) : State :=
  let s1 := logFaults s fs
  match fs.find? (·.thread.isHandler) with
  | some f => handlerFault s1 c (causeCode f.cause)
  | none =>
    let was := (coreOf s1 c).stopped
    let s2 := modCore (fs.foldl addEntry (stopThreads s1 c)) c fun k => { k with stopped := true }
    if was ∨ (coreOf s2 c).handler.isSome then s2 else invokeHandler s2 c

/-- A fault without an address, at a thread's PC. -/
def plainFault (s : State) (t : ThreadKey) (c : Cause) : FaultRec :=
  ⟨t, c, ((threadOf s t).map (·.pc)).getD 0, 0, 0, none⟩

/-- A fault with an address (R352). -/
def addrFault (s : State) (t : ThreadKey) (c : Cause) (a : Nat) : FaultRec :=
  ⟨t, c, ((threadOf s t).map (·.pc)).getD 0, 0, BitVec.ofNat 64 a, none⟩

/-- A violation of a thread: cause VIOL, and a log entry (R184, R185). -/
def violFault (s : State) (t : ThreadKey) (kind space a : Nat) : FaultRec :=
  let c := ((threadOf s t).map (·.place.core)).getD s.focus.core
  ⟨t, .viol, ((threadOf s t).map (·.pc)).getD 0, 0, BitVec.ofNat 64 a,
    some ⟨0, c.core.val, c.die.val, ctxIdOf s t, kind, space, a⟩⟩

/-- The park count returns to 0, and a park save that drains is abandoned (R317, R318). -/
def resetPark (s : State) (g : Nat) : State :=
  modGroup s g fun x => { x with parkCount := 0, phase := if x.phase = .parking then .resident else x.phase }

/-- A wait ends and the thread becomes Ready (R100), or has Ready recorded while it is Stopped (R351). -/
def wakeThread (s0 : State) (t : ThreadKey) (reason : Nat) : State :=
  let s := match gidOf t with
    | some g => resetPark s0 g
    | none => s0
  match threadOf s t with
  | none => s
  | some th =>
    let th1 := { th with wake := wakeAs th reason, savedMark := false, dozedMark := false }
    match th.status with
    | .live (.waiting _) =>
      if th.step = .counted then
        takeFaults (modThread s t fun _ => { th1 with status := .live .ready, step := .off }) th.place.core
          [⟨t, .brk, th.pc, 1, 0, none⟩]
      else modThread s t fun _ => { th1 with status := .live .ready }
    | .stopped (.waiting _) =>
      if th.step = .counted then
        takeFaults (modThread s t fun _ => { th1 with status := .stopped .ready, step := .off }) th.place.core
          [⟨t, .brk, th.pc, 1, 0, none⟩]
      else modThread s t fun _ => { th1 with status := .stopped .ready }
    | .saved (.waiting _) => modThread s t fun _ => { th1 with status := .saved .ready }
    | _ => s

/-- A thread enters a live state, or has it recorded as its prior state while it is Stopped or Saved (R351). -/
def Status.setLive (x : Status) (l : Live) : Status :=
  match x with
  | .stopped _ => .stopped l
  | .saved _ => .saved l
  | _ => .live l

/-- What a thread waits for, Stopped or not. -/
def Thread.wait? (th : Thread) : Option Wait :=
  match th.status with
  | .live (.waiting w) => some w
  | .stopped (.waiting w) => some w
  | .saved (.waiting w) => some w
  | _ => none

end Sys2Proof.Machine
end

