-- ==== Sys2Proof/Machine/Operands.lean ====
section
/-! DEFINITION. What a word reads and checks at issue (spec/01_words.md R19 to R45): the operand shape of every word, the
immediates of R29, the MOD and DLN tables of R36 to R38, and the check order of R45 up to STALLSHORT. -/

namespace Sys2Proof.Machine

/-- The rows of the MOD table (R37). -/
inductive ModRule where
  | none
  | ld
  | st
  | atom (named : Bool)
  | acas
  | waita
  | xfer
  deriving DecidableEq, Repr

/-- What the issue former knows of a word. -/
structure Shape where
  /-- Sources, in field order; the SR partner of FCVT among them (R58). -/
  srcs : List Src
  /-- Further fields that hold a named code (R106). -/
  named : List Nat
  /-- A W = 1 word (R24). -/
  uni : Bool
  st : Stall
  /-- Format I or M: it consumes a pending literal (R29). -/
  imm : Bool
  hint : Bool
  mod : ModRule
  dln : Bool
  priv : Bool
  /-- ILLEGAL in slot 63 (R425). -/
  noHandler : Bool
  /-- Carries an away thread home (R299). -/
  carry : Bool
  /-- REGRANGE when issued away (R111, R116). -/
  noAway : Bool
  deriving DecidableEq, Repr

/-- A word with the given sources and no special rule. -/
def Shape.of (srcs : List Src) (st : Stall) : Shape :=
  ⟨srcs, [], false, st, false, false, .none, false, false, false, false, false⟩

def dstNamed : Dst → List Nat
  | .thread (.named i) => [i.val]
  | _ => []

def pdstNamed : PDst → List Nat
  | .named i => [i.val]
  | .push => []

/-- Format A and I words with d under R21. -/
def Shape.dst (srcs : List Src) (d : Dst) (st : Stall) : Shape :=
  { Shape.of srcs st with named := dstNamed d, uni := d.isUni }

/-- Words that push, with a named destination or none. -/
def Shape.pdst (srcs : List Src) (d : PDst) (st : Stall) : Shape := { Shape.of srcs st with named := pdstNamed d }

/-- Scratchpad, mask and engine words: not in slot 63, and carried home (R425, R299). -/
def Shape.grp (sh : Shape) : Shape := { sh with noHandler := true, carry := true }

/-- The partner of a source (R58). -/
def srcPartner : Src → Src
  | .q i => .q (Fin.ofNat 16 (i.val ^^^ 1))
  | .n i => .n (Fin.ofNat 32 (i.val ^^^ 1))
  | .w i => .w (Fin.ofNat 16 (i.val ^^^ 1))

/-- The shape of each word; an event has none. -/
def instrShape : Instr → Shape
  | .hintNop _ _ st | .hintYield _ st | .hintDead _ st | .hintPref _ st | .hintMod _ st | .hintDln _ st
  | .hintPhase _ st => { Shape.of [] st with hint := true }
  | .lit _ st => { Shape.of [] st with hint := true }
  | .iadd _ _ a b d st | .isub _ _ a b d st => Shape.dst [a, b] d st
  | .imul _ a b d st | .imulhS _ a b d st | .imulhU _ a b d st => Shape.dst [a, b] d st
  | .imin _ _ a b d st | .imax _ _ a b d st => Shape.dst [a, b] d st
  | .iabs _ a d st | .popc _ a d st | .clz _ a d st | .brev _ a d st => Shape.dst [a] d st
  | .andW a b d st | .orW a b d st | .xorW a b d st | .andn a b d st => Shape.dst [a, b] d st
  | .shl _ a b d st | .shr _ a b d st | .sar _ a b d st | .rot _ a b d st | .bfe _ a b d st => Shape.dst [a, b] d st
  | .icmp _ _ a b d st | .lea _ a b d st => Shape.dst [a, b] d st
  | .mov a d st => Shape.dst [a] d st
  | .smov a _ st => { Shape.of [a] st with noAway := true }
  | .shfl a b d st => { Shape.pdst [b] d st with named := a.val :: pdstNamed d, noAway := true }
  | .grow _ st | .shrink _ st => { Shape.of [] st with noHandler := true, noAway := true }
  | .growTry _ d st => { Shape.pdst [] d st with noHandler := true, noAway := true }
  | .imad _ a b c u st | .bfi _ a b c u st | .sel a b c u st | .ffma _ _ a b c u st =>
      { Shape.of [a, b, c] st with uni := u }
  | .iaddi a d _ st | .andi a d _ st | .ori a d _ st | .xori a d _ st | .shli a d _ st | .shri a d _ st
  | .sari a d _ st => { Shape.dst [a] d st with imm := true }
  | .movi d _ st => { Shape.dst [] d st with imm := true }
  | .fadd _ _ _ a b d st | .fsub _ _ _ a b d st | .fmul _ _ _ a b d st => Shape.dst [a, b] d st
  | .fmin a b d st | .fmax a b d st | .fcmp _ a b d st => Shape.dst [a, b] d st
  | .frcp a d st | .frsq a d st | .fexp2 a d st | .flog2 a d st | .fsin a d st | .fcos a d st | .ftanh a d st =>
      Shape.pdst [a] d st
  | .fcvt _ _ r a d st => Shape.dst (if r.isSr then [a, srcPartner a] else [a]) d st
  | .hadd2 _ a b d st | .hmul2 _ a b d st | .hmax2 _ a b d st => Shape.pdst [a, b] d st
  | .hfma2 _ _ _ a b c st => Shape.of [a, b, c] st
  | .bra _ st | .call _ st => Shape.of [] st
  | .bnz a _ st | .bz a _ st | .jmpr a st | .ret a st => Shape.of [a] st
  | .join _ st | .leave _ st | .waitk _ st => (Shape.of [] st).grp
  | .voteAll a _ d st | .voteAny a _ d st | .voteBal a _ d st | .voteCnt a _ d st => (Shape.pdst [a] d st).grp
  | .exit st | .tail st | .trap _ st | .brk st => Shape.of [] st
  | .srd _ d st => Shape.pdst [] d st
  | .lds a d w _ st =>
      { (Shape.pdst [a] d st).grp with
        imm := true
        named := match w, d with
          | .x128, .named i => [i.val, i.val + 1]
          | _, _ => pdstNamed d }
  | .sts a d _ _ st => { (Shape.of [a, d] st).grp with imm := true }
  | .ld a d _ _ st => { Shape.pdst [a] d st with imm := true, mod := .ld, dln := true }
  | .store a d _ _ st => { Shape.of [a, d] st with imm := true, mod := .st, dln := true }
  | .cvec _ _ a b st | .ccvt a b st | .cqnt a b st => (Shape.of [a, b] st).grp
  | .cred _ a d st => (Shape.pdst [a] d st).grp
  | .credStat d st => (Shape.pdst [] d st).grp
  | .csmx a b d st | .catom _ a b d st => (Shape.pdst [a, b] d st).grp
  | .ccas a b c st => (Shape.of [a, b, c] st).grp
  | .cwait st | .cfence st => (Shape.of [] st).grp
  | .atom _ _ a b d st => { Shape.pdst [a, b] d st with mod := .atom (d != .push), dln := true }
  | .acas _ a b c st => { Shape.of [a, b, c] st with mod := .acas, dln := true }
  | .fence _ _ st => Shape.of [] st
  | .waita a b c st => { Shape.of [a, b, c] st with mod := .waita, carry := true }
  | .copy a b d st | .gath a b d st | .scat a b d st | .stkred a b d st | .stkcvt a b d st =>
      { (Shape.pdst [a, b] d st).grp with mod := .xfer, dln := true }
  | .cpwait a d st | .mxwait a d st => (Shape.pdst [a] d st).grp
  | .seal a b d st | .shape a b d st | .mxld a b d st | .mxmm a b d st | .acz a b d st | .acld a b d st
  | .acst a b d st => (Shape.pdst [a, b] d st).grp
  | .mxsp a b _ st => (Shape.of [a, b] st).grp
  | .oprdy st => (Shape.of [] st).grp
  | .binit a b st | .bxin a b st | .bxout a b st => (Shape.of [a, b] st).grp
  | .barr a d st => (Shape.pdst [a] d st).grp
  | .barrx a b d st | .bwait a b d st => (Shape.pdst [a, b] d st).grp
  | .go a d st | .whereW a d st => Shape.pdst [a] d st
  | .homeW st => Shape.of [] st
  | .qpost a b d st => (Shape.pdst [a, b] d st).grp
  | .evsig a b st => Shape.of [a, b] st
  | .sig a st => Shape.of [a] st
  | .crit a d st => (Shape.pdst [a] d st).grp
  | .mhint a b d st => Shape.pdst [a, b] d st
  | .tret st => { Shape.of [] st with priv := true }
  | .trd a d st | .tres a d st | .tstop a d st | .tkill a d st => { Shape.pdst [a] d st with priv := true }
  | .twr a b st | .pinv a b st => { Shape.of [a, b] st with priv := true }
  | _ => Shape.of [] 0

/-! ### Immediates (R29) -/

/-- imm of a format I word. -/
def immOf (p : Pfx) (imm : BitVec 10) : Word :=
  match p.lit with
  | some v => sext 32 (v.toNat * 1024 + imm.toNat : Nat)
  | none => sext 10 (imm.toNat : Nat)

/-- Bytes of a width code (R23). -/
def memSize : MemW → Nat
  | .z8 | .s8 => 1
  | .z16 | .s16 => 2
  | .z32 | .s32 => 4
  | .x64 => 8
  | .x128 => 16

def memSigned : MemW → Bool
  | .s8 | .s16 | .s32 => true
  | _ => false

/-- offset of a format M word, in bytes. -/
def offOf (p : Pfx) (imm : BitVec 8) (size : Nat) : Word :=
  let k : Word := match p.lit with
    | some v => sext 30 (v.toNat * 256 + imm.toNat : Nat)
    | none => sext 8 (imm.toNat : Nat)
  k * BitVec.ofNat 64 size

/-! ### MOD fields (R36) -/

def modScope (m : BitVec 14) : Nat := bvf m 13 11
def modOrder (m : BitVec 14) : Nat := bvf m 10 9
def modPlace (m : BitVec 14) : Nat := bvf m 8 7
def modNoRet (m : BitVec 14) : Bool := bvf m 6 6 == 1
def modClassSet (m : BitVec 14) : Bool := bvf m 5 5 == 1
def modClass (m : BitVec 14) : Fin 4 := Fin.ofNat 4 (bvf m 4 3)
def modCache (m : BitVec 14) : Nat := bvf m 2 0

/-- The scope of an order (R36, R208): die by default. -/
def scopeOfMod (m : BitVec 14) : Scope :=
  match modScope m with
  | 4 => .core
  | 6 => .pkg
  | 7 => .sys
  | _ => .die

/-- R36: no reserved value. -/
def modDefined (m : BitVec 14) : Bool :=
  (modScope m == 0 || 4 ≤ modScope m) && modPlace m != 3 && modCache m ≤ 4

/-- R37, and the d field of a `.nr` ATOM (R211). -/
def modOk (r : ModRule) (m : BitVec 14) : Bool :=
  modDefined m &&
  match r with
  | .none => false
  | .ld => (modOrder m == 0 || modOrder m == 1) && (modScope m == 0 || modOrder m == 1) && !modNoRet m
  | .st => (modOrder m == 0 || modOrder m == 2) && (modScope m == 0 || modOrder m == 2) && !modNoRet m
  | .atom named => modCache m == 0 && !(modNoRet m && named)
  | .acas => modCache m == 0 && !modNoRet m
  | .waita => (modOrder m == 0 || modOrder m == 1) && (modScope m == 0 || modOrder m == 1) && modPlace m == 0 &&
      !modNoRet m && modCache m == 0
  | .xfer => modScope m == 0 && modOrder m == 0 && modPlace m == 0 && !modNoRet m && modCache m == 0

/-- Item 4 of R45. -/
def prefixBad (sh : Shape) (p : Pfx) : Bool :=
  !sh.hint &&
  ((match p.mod with
      | some m => p.modBad || !modOk sh.mod m
      | none => false) ||
    (p.dln.isSome && (p.dlnBad || !sh.dln)))

/-! ### Reach of the registers (R106, R291) -/

/-- Every named code of the word. -/
def shapeNamed (sh : Shape) : List Nat :=
  sh.srcs.filterMap (fun a => match a with
    | .n i => some i.val
    | _ => none) ++ sh.named

/-- A w code stands in a field. -/
def shapeUsesW (sh : Shape) : Bool := sh.uni || sh.srcs.any Src.isW

/-- Item 5 of R45. -/
def rangeBad (s : State) (t : ThreadKey) (sh : Shape) : Bool :=
  if isAway s t then
    sh.noAway || shapeUsesW sh ||
      (shapeNamed sh).any fun i => !(((groupOfThread s t).map fun g => g.hdr.subset.getLsbD i).getD false)
  else (shapeNamed sh).any fun i => decide (((warpOf s t).map (·.count)).getD 0 ≤ i)

/-- The cells of a word's sources. -/
def srcCells (s : State) (t : ThreadKey) (sh : Shape) : List RCell := sh.srcs.map (srcCell s t)

/-- Item 6 of R45: the checking scoreboard of R27. -/
def stallShort (s : State) (t : ThreadKey) (sh : Shape) : Bool :=
  strictOf s t && (srcCells s t sh).any fun c => decide (cycOf s s.focus.core < c.due)

/-- The first fault of R45, items 1 (R425) to 6, of a thread of the issue group. -/
def issueCause (s : State) (t : ThreadKey) (sh : Shape) : Option Cause :=
  let p := ((threadOf s t).map (·.pfx)).getD Pfx.empty
  if t.isHandler && sh.noHandler then some .illegal
  else if sh.priv && !t.isHandler then some .priv
  else if p.lit.isSome && !sh.imm then some .litSeq
  else if prefixBad sh p then some .illegal
  else if rangeBad s t sh then some .regRange
  else if stallShort s t sh then some .stallShort
  else none

/-- Every scoreboarded source of a thread is available (R79) (DEDUCED, safe: notes/assumptions/79.md). -/
def srcsReady (s : State) (t : ThreadKey) (sh : Shape) : Bool := (srcCells s t sh).all (·.pend.isNone)

end Sys2Proof.Machine
end

