-- ==== Sys2Proof/Machine/Page.lean ====
section
/-! DEFINITION. Physical addresses, page tables, translation and its caches (spec/07_page.md R169 to R184). -/

namespace Sys2Proof.Machine

/-! ### Physical addresses (R171 to R174) -/

def paPkg (pa : Nat) : Nat := pa / 2 ^ 44 % 4096
def paMode (pa : Nat) : Nat := pa / 2 ^ 42 % 4

/-- The address lies in the accessing package. -/
def isOwn (s : State) (pa : Nat) : Bool := paPkg pa == s.boot.latched.toNat

/-- The port of this package behind which an address is host memory (R386). -/
def hostPort (s : State) (pa : Nat) : Option (Fin 2) :=
  [0, 1].find? fun p => bvf (portOf s p).cfg 63 63 == 1 && bvf (portOf s p).cfg 11 0 == paPkg pa

/-- The port of another package behind which an address is host memory (R386). -/
def farPort (s : State) (pa : Nat) : Option FarPort := tget s.farPorts (paPkg pa)

/-- Bit 2s + k of LINKFAIL. -/
def linkBit (stack : Fin 16) (k : Fin 2) : BitVec 32 := 1#32 <<< (2 * stack.val + k.val)

/-- The route of an address (R396, R397): the off-package port that carries it; none where it meets an error response. -/
def routeOf (s : State) (pa : Nat) : Option (Fin 16 × Fin 2) :=
  let e := (tget s.route (paPkg pa)).getD 0
  let stack := Fin.ofNat 16 (bvf e 4 0)
  let port := Fin.ofNat 2 (bvf e 5 5)
  if e.getLsbD 31 && decide (bvf e 4 0 < 16) && s.linkDown &&& linkBit stack port == 0 then some (stack, port) else none

/-- The XOR of the n lowest fields of w bits. -/
def xorFields (w : Nat) : Nat → Nat → Nat
  | 0, _ => 0
  | n + 1, x => (x % 2 ^ w) ^^^ xorFields w n (x / 2 ^ w)

/-- The home stack of a DRAM address (R172). -/
def stackOf (pa : Nat) : Fin 16 :=
  match paMode pa with
  | 0 => Fin.ofNat 16 (xorFields 4 9 (pa % 2 ^ 42 / 256))
  | 1 => Fin.ofNat 16 (4 * (pa / 2 ^ 40 % 4) + xorFields 2 19 (pa % 2 ^ 40 / 256))
  | _ => Fin.ofNat 16 (pa / 2 ^ 38)

/-- The byte of the mode's pool in that stack (R172). -/
def poolByte (pa : Nat) : Nat :=
  match paMode pa with
  | 0 => pa % 2 ^ 42 / 256 / 16 * 256 + pa % 256
  | 1 => pa % 2 ^ 40 / 256 / 4 * 256 + pa % 256
  | _ => pa % 2 ^ 38

/-- The DRAM byte of the stack (R173). -/
def dramByte (s : State) (pa : Nat) : Nat :=
  match paMode pa with
  | 0 => poolByte pa
  | 1 => s.pools.inter * 2 ^ 26 + poolByte pa
  | _ => (s.pools.inter + s.pools.row[Fin.ofNat 4 ((stackOf pa).val / 4)]) * 2 ^ 26 + poolByte pa

/-- The row of a stack and of a die. -/
def rowOfStack (k : Fin 16) : Fin 4 := Fin.ofNat 4 (k.val / 4)
def rowOfDie (d : Fin 8) : Fin 4 := Fin.ofNat 4 (d.val / 2)

/-- A carve-out address: mode 11, kind 00, bits 36:29 zero. -/
def isCarvePa (pa : Nat) : Bool := paMode pa == 3 && pa / 2 ^ 40 % 4 == 0 && pa / 2 ^ 29 % 256 == 0

def carveDie (pa : Nat) : Fin 8 := Fin.ofNat 8 (pa / 2 ^ 37)
def carveUnit (pa : Nat) : Fin 8 := Fin.ofNat 8 (pa / 2 ^ 26)

/-- The unit of a carve-out address. -/
def unitOf (s : State) (pa : Nat) : CarveUnit := (dieOf s (carveDie pa)).carve[carveUnit pa]

/-- The registers that an address of mode 11 names (R382): a tenant's window and the offset in it, or a management offset. -/
inductive WindowAddr where
  | tenant (t : Fin 64) (off : Nat)
  | management (off : Nat)
  deriving DecidableEq, Repr

def windowAddr (pa : Nat) : Option WindowAddr :=
  if paMode pa == 3 && pa / 2 ^ 40 % 4 == 1 && pa / 2 ^ 26 % 2 ^ 14 == 0 then
    some (.tenant (Fin.ofNat 64 (pa / 2 ^ 20)) (pa % 2 ^ 20))
  else if paMode pa == 3 && pa / 2 ^ 40 % 4 == 2 && pa / 2 ^ 24 % 2 ^ 16 == 0 then some (.management (pa % 2 ^ 24))
  else none

/-- R174, for an address of the own package. Reserved kinds, and the registers' kinds with a bit that is not 0, are unbacked (R382). -/
def unbacked (s : State) (pa : Nat) : Bool :=
  match paMode pa with
  | 0 => decide (16 * s.pools.inter * 2 ^ 26 ≤ pa % 2 ^ 42)
  | 1 => decide (4 * s.pools.row[Fin.ofNat 4 (pa / 2 ^ 40 % 4)] * 2 ^ 26 ≤ pa % 2 ^ 40)
  | 2 => decide (s.pools.pin[Fin.ofNat 16 (pa / 2 ^ 38)] * 2 ^ 26 ≤ pa % 2 ^ 38)
  | _ => !(isCarvePa pa && (unitOf s pa).valid) && (windowAddr pa).isNone

/-- Bits 63:56 equal bit 55 (R92, R169). -/
def canonical (a : Nat) : Bool :=
  let top := a / 2 ^ 56 % 256
  if a / 2 ^ 55 % 2 = 1 then top == 255 else top == 0

/-! ### Requests at the controllers (R364) -/

/-- Where a DRAM address stands: stack, pseudo-channel, bank and row. -/
def dramPlace (s : State) (pa : Nat) : Fin 16 × Fin 64 × Nat × Nat :=
  let k := stackOf pa
  let b := dramByte s pa
  (k, Config.dramPch k.val b, Config.dramBank k.val b, Config.dramRow k.val b)

/-- The column link at a stack of row h from the stack of row r of its column. -/
def columnPort (r h : Fin 4) : Nat := if r < h then 5 + r.val else 4 + r.val

/-- The port of the home runner at which a message of a die arrives (R2, R395): a client port in the die's row, else the column
link from its row. The manual does not number the ports (DESIGN CHOICE, unsafe: notes/assumptions/57.md). -/
def diePort (d : Fin 8) (k : Fin 16) : Nat :=
  if rowOfDie d = rowOfStack k then d.val % 2 else columnPort (rowOfDie d) (rowOfStack k)

/-- The port of stack k at which a message from the runner of stack a arrives (R395): the row link first, then the column link; port 8
from a port of the stack itself. -/
def runnerPort (a k : Fin 16) : Nat :=
  if a = k then 8
  else if rowOfStack a = rowOfStack k then 2 + (if a.val % 4 < k.val % 4 then a.val % 4 else a.val % 4 - 1)
  else columnPort (rowOfStack a) (rowOfStack k)

/-- The stack whose runner carries a host port, and whose base die the tundish of that port (R3, R4). -/
def hostStack (p : Fin 2) : Fin 16 := if p = 0 then 0 else 15

/-- The active tundish and the standby: the owner of the boot area decides (R4, R399). -/
def activeTundish (s : State) : Fin 16 := hostStack s.boot.owner
def standbyTundish (s : State) : Fin 16 := hostStack (1 - s.boot.owner)

/-- A bank that no access has reached since start-up: every refresh that a credit did not spare was issued as it fell due, and every
counter is 2 (R369, R371) (DESIGN CHOICE, safe: notes/assumptions/58.md). -/
def Bank.fresh (clock credit : Nat) : Bank :=
  { credit := credit, due := max 6240 ((clock + 6239) / 6240 * 6240), owed := 0, early := 0, lastRow := none, rows := [] }

def bankAt (s : State) (k : Fin 16) (p : Fin 64) (b : Nat) : Bank :=
  (tget s.dramBanks (k, p, b)).getD (Bank.fresh s.clock s.idleCredit[k])

def setBank (s : State) (k : Fin 16) (p : Fin 64) (b : Nat) (x : Bank) : State :=
  { s with dramBanks := tset s.dramBanks (k, p, b) x }

/-- Requests at one controller. -/
def Request.beside (a b : Request) : Bool := a.stack == b.stack && a.pch == b.pch

/-- What the controllers hold: each its first 64 requests; one that waited in the runner arrives now (R365). Without a stamp its
deadline is 0xFFFF * 64 cycles away (R364). -/
def takeHeld (s : State) : State :=
  { s with requests := s.requests.zipIdx.map fun x =>
      if x.1.held && decide (((s.requests.take x.2).filter (Request.beside x.1)).length < 64) then
        { x.1 with held := false, arrived := s.clock
                   deadline := if x.1.stamped then x.1.deadline else s.clock + 0xFFFF * 64 }
      else x.1 }

/-- A request of at most 64 bytes goes to the controller of its bytes (R364), which then knows its bank. -/
def postTo (s : State) (p : Fin 16 × Fin 64 × Nat × Nat) (port : Nat) (op : Option Nat) (c : CoreId) (ctx : Nat) (cls : Fin 4)
    (deadline : Option Nat) (more : List Stamp) (pa len : Nat) : State :=
  let r : Request :=
    { id := s.arrivals, op := op, stack := p.1, pch := p.2.1, bank := p.2.2.1, row := p.2.2.2, pa := pa, len := len, cls := cls
      deadline := deadline.getD (s.clock + 0xFFFF * 64), stamped := deadline.isSome, arrived := s.clock
      held := decide (64 ≤ (s.requests.filter fun x => x.stack = p.1 ∧ x.pch = p.2.1).length), port := port
      core := c, ctx := ctx, more := more }
  { setBank s p.1 p.2.1 p.2.2.1 (bankAt s p.1 p.2.1 p.2.2.1) with requests := s.requests ++ [r], arrivals := s.arrivals + 1 }

def postAt (s : State) (port : Nat) (op : Option Nat) (c : CoreId) (ctx : Nat) (cls : Fin 4) (deadline : Option Nat)
    (more : List Stamp) (pa len : Nat) : State :=
  postTo s (dramPlace s pa) port op c ctx cls deadline more pa len

/-- A request that an access of a core posts, with the class and the stamp of the access. -/
def postRequest (s : State) (op : Option Nat) (c : CoreId) (ctx : Nat) (a : Attr) (x : Nat × Nat) : State :=
  postAt s (diePort c.die (stackOf x.1)) op c ctx a.cls a.deadline [] x.1 x.2

def postRequests (s : State) (op : Option Nat) (c : CoreId) (ctx : Nat) (a : Attr) (l : List (Nat × Nat)) : State :=
  l.foldl (fun x r => postRequest x op c ctx a r) s

/-- Requests without a stamp for which nothing waits, from a die. -/
def postPlain (s : State) (d : Fin 8) (ctx : Nat) (cls : Fin 4) (l : List (Nat × Nat)) : State :=
  l.foldl (fun x r => postAt x (diePort d (stackOf r.1)) none ⟨d, 0⟩ ctx cls none [] r.1 r.2) s

/-- The same, from the runner of a stack: a host port or the tundish. -/
def postOutside (s : State) (a : Fin 16) (ctx : Nat) (cls : Fin 4) (l : List (Nat × Nat)) : State :=
  l.foldl (fun x r => postAt x (runnerPort a (stackOf r.1)) none ⟨0, 0⟩ ctx cls none [] r.1 r.2) s

/-- The 64-byte blocks of a byte range: a request each. -/
def blockAsks (loc n : Nat) : List (Nat × Nat) :=
  if n = 0 then [] else (rangeFrom (loc / 64) ((loc + n - 1) / 64 + 1 - loc / 64)).map fun k =>
    let lo := max loc (64 * k)
    (lo, min (loc + n) (64 * k + 64) - lo)

/-- Every request of an operation has been granted, and every miss of one is counted (R367). -/
def requestsDone (s : State) (op : Nat) : Bool :=
  s.requests.all (fun r => r.op != some op) && s.misses.all fun n => n.op != some op

/-! ### Page-table entries (R175 to R177) -/

def pteValid (e : BitVec 64) : Bool := e.getLsbD 0
def pteLeaf (e : BitVec 64) : Bool := e.getLsbD 1
def pteTable (e : BitVec 64) : Nat := bvf e 55 13 * 2 ^ 13

/-- The lowest address bit above the offset within a page of a level. -/
def pageBits (level : Nat) : Nat := 16 + 10 * level

def pteFrame (e : BitVec 64) : Nat := bvf e 55 16 * 2 ^ 16

/-- The frame or table lies in another package (R177, R386). -/
def elsewhere (s : State) (pa : Nat) : Bool := !isOwn s pa && (hostPort s pa).isNone && (farPort s pa).isNone

/-- R177, for a valid entry. -/
def malformed (s : State) (level : Nat) (e : BitVec 64) : Bool :=
  if pteLeaf e then
    bvf e 63 56 != 0 || bvf e 15 14 != 0 || level == 3 || bvf e 3 2 != level || pteFrame e % 2 ^ pageBits level != 0 ||
    (e.getLsbD 9 && (!(isOwn s (pteFrame e) && isCarvePa (pteFrame e)) || bvf e 3 2 == 2)) ||
    (!e.getLsbD 9 && isOwn s (pteFrame e) && paMode (pteFrame e) == 3) ||
    (e.getLsbD 8 && (!e.getLsbD 7 || e.getLsbD 9)) ||
    (e.getLsbD 6 && e.getLsbD 9) ||
    elsewhere s (pteFrame e)
  else
    bvf e 63 56 != 0 || bvf e 12 2 != 0 || level == 0 || elsewhere s (pteTable e) ||
    (isOwn s (pteTable e) && paMode (pteTable e) == 3)

/-- How the levels of a walk end (R180). -/
inductive Walk where
  | leaf (level : Fin 4) (ea : Nat) (e : BitVec 64)
  | notPresent
  | viol (kind : Nat)
  deriving DecidableEq, Repr

/-- The levels from n - 1 down to 0 of a walk at table t. -/
def walkFrom (s : State) (va : Nat) : Nat → Nat → Walk
  | 0, _ => .viol 4
  | n + 1, t =>
    let ea := t + 8 * (va / 2 ^ pageBits n % 1024)
    if !isOwn s ea || paMode ea == 3 || unbacked s ea then .viol 7
    else
      let e := BitVec.ofNat 64 (memNat s.mem ea 8)
      if !pteValid e then .notPresent
      else if malformed s n e then .viol 4
      else if pteLeaf e then .leaf (Fin.ofNat 4 n) ea e
      else walkFrom s va n (pteTable e)

/-- The root of a context (R347): physical address bits 55:13. -/
def rootOf (s : State) (c : Nat) : Nat := bvf (ctxOf s c).live 511 469 * 2 ^ 13

/-- A whole walk, without any translation cache. Walkers may also cache non-leaf entries (R181): these walks read every level from
memory (DESIGN CHOICE, unsafe: notes/assumptions/90.md). -/
def walk (s : State) (c va : Nat) : Walk := walkFrom s va 4 (rootOf s c)

/-- The entries that a walk reads, at each level (R180). -/
def walkReads (s : State) (va : Nat) : Nat → Nat → List Nat
  | 0, _ => []
  | n + 1, t =>
    let ea := t + 8 * (va / 2 ^ pageBits n % 1024)
    if !isOwn s ea || paMode ea == 3 || unbacked s ea then []
    else
      let e := BitVec.ofNat 64 (memNat s.mem ea 8)
      if !pteValid e || malformed s n e || pteLeaf e then [ea] else ea :: walkReads s va n (pteTable e)

/-- The requests of a walk: an 8-byte read of class C2 for each entry (R364). -/
def walkAsks (s : State) (c va : Nat) : List (Nat × Nat) := (walkReads s va 4 (rootOf s c)).map fun ea => (ea, 8)

/-! ### Windows (R183, R386) -/

/-- Window k of a tenant holds an address. -/
def inWindow (s : State) (t : Fin 64) (pa k : Nat) : Bool :=
  let w := bvf (tenantOf s t).entry (64 * k + 63) (64 * k)
  w / 2 ^ 63 == 1 && decide (w % 2 ^ 30 ≤ pa / 2 ^ 26) && decide (pa / 2 ^ 26 ≤ w / 2 ^ 32 % 2 ^ 30)

/-- The memory key of host memory: the bus address behind a port. -/
def hostKey (p : Fin 2) (bus : Nat) : Nat := (p.val + 1) * 2 ^ 64 + bus % 2 ^ 64

/-- The bus address that the window of a tenant gives an address, among the windows of a port page. -/
def windowBus (ws : Vector (BitVec 256) 16) (t : Fin 64) (pa : Nat) : Option Nat :=
  (ws.toList.find? fun w => bvf w 255 255 == 1 && bvf w 245 240 == t.val && decide (bvf w 43 0 ≤ pa % 2 ^ 44) &&
    decide (pa % 2 ^ 44 < bvf w 43 0 + bvf w 91 64 * 65536)).map
    fun w => bvf w 191 128 + (pa % 2 ^ 44 - bvf w 43 0)

/-- The host window of a tenant that holds an address, and the bus address it gives. -/
def hostAddr (s : State) (t : Fin 64) (p : Fin 2) (pa : Nat) : Option Nat :=
  if tenantVf s t p = 0 then none else (windowBus (portOf s p).windows t pa).map (hostKey p)

/-- The memory key of host memory behind a port of another package. -/
def farKey (num bus : Nat) : Nat := (num % 4096 + 3) * 2 ^ 64 + bus % 2 ^ 64

/-- R386, R396, R397: an access to host memory behind a port of another package: its windows decide, then the route. -/
def farAddr (s : State) (t : Fin 64) (f : FarPort) (pa : Nat) : Nat ⊕ Nat :=
  match if f.tenants.getLsbD t.val then windowBus f.windows t pa else none with
  | none => .inr 5
  | some b => if (routeOf s pa).isSome then .inl (farKey (paPkg pa) b) else .inr 7

/-! ### Translation (R179 to R182) -/

/-- The rights an access needs (R179). -/
structure Need where
  r : Bool
  w : Bool
  x : Bool
  deriving DecidableEq, Repr

/-- A translated access: the physical address, its key in memory (host memory stands under its bus address), and the
attributes of its page. -/
structure Xlat where
  pa : Nat
  loc : Nat
  attr : Attr
  deriving DecidableEq, Repr

/-- The result of a translation (R180). -/
inductive XRes where
  | ok (x : Xlat)
  | page
  | viol (kind : Nat)
  deriving DecidableEq, Repr

def leafAttr (e : BitVec 64) (remote : Bool) : Attr :=
  { shared := e.getLsbD 7, redWin := e.getLsbD 8, carve := e.getLsbD 9, remote := remote
    temp := Fin.ofNat 4 (bvf e 13 12), cacheOp := 0, cls := Fin.ofNat 4 (bvf e 11 10), page := Fin.ofNat 4 (bvf e 11 10), deadline := none, va := 0 }

/-- The checks of R180 after the walk, for an access from a die (a host has none). -/
def checkLeaf (s : State) (d : Option (Fin 8)) (c va : Nat) (need : Need) (level : Fin 4) (e : BitVec 64) : XRes :=
  let pa := pteFrame e + va % 2 ^ pageBits level.val
  if need.r && !e.getLsbD 4 then .viol 0
  else if need.w && !e.getLsbD 5 then .viol 1
  else if need.x && !e.getLsbD 6 then .viol 2
  else if e.getLsbD 9 then
    if some (carveDie pa) ≠ d || ((unitOf s pa).valid && (unitOf s pa).ctx != c) then .viol 6
    else if unbacked s pa then .viol 7
    else .ok ⟨pa, pa, leafAttr e false⟩
  else if isOwn s pa then
    if !(List.range 8).any (inWindow s (tenantOfCtx s c) pa) then .viol 5
    else if unbacked s pa then .viol 7
    else .ok ⟨pa, pa, leafAttr e false⟩
  else match hostPort s pa with
    | some p => (match hostAddr s (tenantOfCtx s c) p pa with
      | none => .viol 5
      | some k => .ok ⟨pa, k, leafAttr e true⟩)
    | none => match farPort s pa with
      | none => .viol 5
      | some f => (match farAddr s (tenantOfCtx s c) f pa with
        | .inl k => .ok ⟨pa, k, leafAttr e true⟩
        | .inr n => .viol n)

/-- A cached leaf that covers an address (R181). -/
def tlbFind (l : List TlbEntry) (c va : Nat) : Option TlbEntry :=
  l.find? fun e => e.ctx == c && e.vpn == va % 2 ^ 56 / 2 ^ pageBits e.level.val

/-- R181: the micro-TLB of a core holds 64 entries, the TLB of a die 16K. -/
def tlbFill (s : State) (d : Fin 8) (core : Option CoreId) (e : TlbEntry) : State :=
  let s1 := modDie s d fun x => if e ∈ x.tlb then x else { x with tlb := (e :: x.tlb).take 16384 }
  match core with
  | some k => modCore s1 k fun x => if e ∈ x.tlb then x else { x with tlb := (e :: x.tlb).take 64 }
  | none => s1

/-- A translation that succeeds fills the caches; one that ends in a fault inserts nothing (R181). -/
def fillOk (s : State) (d : Fin 8) (core : Option CoreId) (e : TlbEntry) (r : XRes) : XRes × State :=
  match r with
  | .ok x => (.ok x, tlbFill s d core e)
  | r => (r, s)

/-- Translation of an access from a core of a die, with the rights it needs: a cached leaf if there is one (R182), else a
walk. -/
def translate (s : State) (d : Fin 8) (core : Option CoreId) (c va : Nat) (need : Need) : XRes × State :=
  if !canonical va then (.viol 3, s)
  else
    let micro := match core with
      | some k => tlbFind (coreOf s k).tlb c va
      | none => none
    match micro with
    | some e => (checkLeaf s (some d) c va need e.level e.leaf, s)
    | none => match tlbFind (dieOf s d).tlb c va with
      | some e => fillOk s d core e (checkLeaf s (some d) c va need e.level e.leaf)
      | none =>
        let s1 := postPlain s d c 2 (walkAsks s c va)
        match walk s c va with
        | .viol k => (.viol k, s1)
        | .notPresent => (.page, s1)
        | .leaf level ea e =>
          fillOk s1 d core ⟨c, level, va % 2 ^ 56 / 2 ^ pageBits level.val, ea, e⟩ (checkLeaf s (some d) c va need level e)

/-- Translation of a host access through BAR2 (R184): a walk, for no die. -/
def translateHost (s : State) (c va : Nat) (need : Need) : XRes :=
  if !canonical va then .viol 3
  else match walk s c va with
    | .viol k => .viol k
    | .notPresent => .page
    | .leaf level _ e => checkLeaf s none c va need level e

/-- A thread's access where it is resident. -/
def translateFor (s : State) (t : ThreadKey) (va : Nat) (need : Need) : XRes × State :=
  let c := ((threadOf s t).map (·.place.core)).getD s.focus.core
  translate s c.die (some c) (ctxIdOf s t) va need

/-- The fault comes from a walk: no page, or a violation that follows the walk of an address (R180, R184). -/
def FaultRec.walked (f : FaultRec) : Bool :=
  f.cause == .page || (f.cause == .viol && canonical f.addr.toNat && (match f.log with
    | some r => r.space == 0
    | none => false))

/-- The entries that the walks of faulting accesses on a core have read are requests, too (R364). -/
def faultWalks (s : State) (c : CoreId) (fs : List FaultRec) : State :=
  fs.foldl (fun a f =>
    let x := ctxIdOf s f.thread
    let va := f.addr.toNat
    if f.walked && (tlbFind (coreOf s c).tlb x va).isNone && (tlbFind (dieOf s c.die).tlb x va).isNone then
      postPlain a c.die x 2 (walkAsks s x va)
    else a) s

/-- The fault of a translation for a thread (R184); none when it succeeds. -/
def xlatFault (s : State) (t : ThreadKey) (va : Nat) : XRes → Option FaultRec
  | .ok _ => none
  | .page => some (addrFault s t .page va)
  | .viol k => some (violFault s t k 0 va)

/-! ### Bandwidth buckets (R387) -/

/-- The port's own bucket stands at number 64. -/
def portFn : Fin 65 := 64

def fnOf (vf : Nat) : Fin 65 := Fin.ofNat 65 vf

def bucketOf (s : State) (p : Fin 2) (f : Fin 65) : Bucket := (tget (portOf s p).buckets f).getD ⟨0, 0, 0⟩

/-- Rate and depth of a direction: rate in 64 MB/s units, depth in bytes. -/
def Bucket.rate (b : Bucket) (out : Bool) : Nat := if out then bvf b.pair 47 32 else bvf b.pair 15 0
def Bucket.depth (b : Bucket) (out : Bool) : Nat := 4096 * (if out then bvf b.pair 63 48 else bvf b.pair 31 16)
def Bucket.fill (b : Bucket) (out : Bool) : Nat := if out then b.outFill else b.inFill

def Bucket.setFill (b : Bucket) (out : Bool) (n : Nat) : Bucket :=
  if out then { b with outFill := n } else { b with inFill := n }

def setBucket (s : State) (p : Fin 2) (f : Fin 65) (b : Bucket) : State :=
  modPort s p fun x => { x with buckets := tset x.buckets f b }

/-- A bucket lets bytes pass. -/
def Bucket.passes (b : Bucket) (out : Bool) (n : Nat) : Bool := b.rate out == 0 || decide (n ≤ b.fill out)

/-- A TLP of a function may pass in a direction (DESIGN CHOICE, safe: notes/assumptions/61.md). -/
def mayPass (s : State) (p : Fin 2) (f : Fin 65) (out : Bool) (n : Nat) : Bool :=
  (bucketOf s p f).passes out n && (bucketOf s p portFn).passes out n

def spendOne (s : State) (p : Fin 2) (f : Fin 65) (out : Bool) (n : Nat) : State :=
  let b := bucketOf s p f
  if b.rate out = 0 then s else setBucket s p f (b.setFill out (b.fill out - n))

/-- It takes its bytes from both buckets. -/
def spend (s : State) (p : Fin 2) (f : Fin 65) (out : Bool) (n : Nat) : State := spendOne (spendOne s p f out n) p portFn out n

/-- The port of this package behind which a memory key is host memory. -/
def keyPort (loc : Nat) : Option (Fin 2) := if loc / 2 ^ 64 = 1 then some 0 else if loc / 2 ^ 64 = 2 then some 1 else none

/-- The package number of a key of host memory behind a port of another package is a host number: its route still carries it (R397). -/
def linkUp (s : State) (loc : Nat) : Bool := decide (loc < 3 * 2 ^ 64) || (routeOf s ((loc / 2 ^ 64 - 3) * 2 ^ 44)).isSome

/-- The AtomicOps that the host of a key advertises (R386). -/
def hostAtomics (s : State) (loc : Nat) : BitVec 5 :=
  match keyPort loc with
  | some p => (portOf s p).atomics
  | none => ((tget s.farPorts (loc / 2 ^ 64 - 3)).map (·.atomics)).getD 0

/-- An access of the device to host memory passes the buckets of its tenant's function (R387); an access elsewhere asks nothing. -/
def devicePasses (s : State) (ctx loc : Nat) (out : Bool) (n : Nat) : Bool :=
  match keyPort loc with
  | some p => mayPass s p (fnOf (tenantVf s (tenantOfCtx s ctx) p)) out n
  | none => true

def deviceSpend (s : State) (ctx loc : Nat) (out : Bool) (n : Nat) : State :=
  match keyPort loc with
  | some p => spend s p (fnOf (tenantVf s (tenantOfCtx s ctx) p)) out n
  | none => s

/-! ### Dropping translations -/

/-- The micro-TLB of a core is cleared (R181). -/
def clearMicro (s : State) (c : CoreId) : State := modCore s c fun k => { k with tlb := [] }

/-- One cached translation leaves its cache. -/
def dropTlb (s : State) (d : Fin 8) (core : Option (Fin 128)) (i : Nat) : State :=
  match core with
  | some k => modCore s ⟨d, k⟩ fun x => { x with tlb := x.tlb.eraseIdx i }
  | none => modDie s d fun x => { x with tlb := x.tlb.eraseIdx i }

/-- Changes every cached translation of the package. -/
def mapTlbs (s : State) (f : TlbEntry → Option TlbEntry) : State :=
  { s with
    dies := s.dies.mapIdx fun _ d => { d with tlb := d.tlb.filterMap f }
    cores := s.cores.map fun e => (e.1, { e.2 with tlb := e.2.tlb.filterMap f }) }

end Sys2Proof.Machine
end

