-- ==== Sys2Proof/Machine/Issue.lean ====
section
/-! DEFINITION. What every word shares at issue (spec/01_words.md R20 to R33, R45; spec/03_thread.md R76 to R85): holding,
carrying home, the checks, the effect, and the advance of the program counter; and the paths and leaders of a slot. -/

namespace Sys2Proof.Machine

/-- What a word does for its issue group. -/
inductive Act where
  /-- It has its effect; each listed thread goes on at the given program counter. -/
  | done (s : State) (next : List (ThreadKey × Word))
  /-- The threads fault, and it takes effect for none (R92, R146, R203). -/
  | faults (fs : List FaultRec)
  /-- Its unit cannot take it, or what it waits for without parking is not there: the threads are Stalled (R75). -/
  | hold

/-- The threads enter Stalled and issue the word again later (DEDUCED, safe: notes/assumptions/11.md). -/
def stallThreads (s : State) (ts : List ThreadKey) : State :=
  modThreads s ts fun _ th =>
    match th.status with
    | .live .ready => { th with status := .live .stalled }
    | _ => th

/-- The advance of a thread that has issued a word (R25, R29, R32): its program counter, its prefix state, its stall. -/
def retireThread (sh : Shape) (cyc : Nat) (next : Word) (th : Thread) : Thread :=
  { th with
    pc := next
    pfx := if sh.hint then th.pfx else Pfx.empty
    readyAt := cyc + sh.st.val + 1
    oprdy := none
    status := match th.status with
      | .live .ready => if sh.st.val = 0 then .live .ready else .live .stalled
      | x => x }

def retireAll (s : State) (sh : Shape) (next : List (ThreadKey × Word)) : State :=
  next.foldl (fun a e => modThread a e.1 (retireThread sh (cycOf s s.focus.core) e.2)) s

/-- R356: the thread stops at the boundary after the word it has issued, also where the word itself has stopped the core. -/
def Thread.stepStops (th : Thread) : Bool :=
  th.step = .armed && th.inBar.isNone && th.leaving.isNone &&
  match th.status with
  | .live .ready | .live .stalled | .stopped .ready | .stopped .stalled => true
  | _ => false

/-- R356: the step stops of a group after its word, and the steps whose stop waits for the end of a wait
(DEDUCED, unsafe: notes/assumptions/13.md). -/
def stepStops (s : State) (ts : List ThreadKey) : State :=
  let stops := ts.filter fun t => ((threadOf s t).map (·.stepStops)).getD false
  let s1 := modThreads s ts fun _ th =>
    if th.step = .armed then { th with step := if th.stepStops ∨ th.isEnded then .off else .counted } else th
  if stops = [] then s1
  else takeFaults s1 s.focus.core
    (stops.map fun t => ⟨t, .brk, ((threadOf s1 t).map (·.pc)).getD 0, 1, 0, none⟩)

/-- R299: an away thread is carried home before the word takes effect; it issues the word again there
(DEDUCED, unsafe: notes/assumptions/7.md). -/
def startCarry (s : State) (ts : List ThreadKey) : State :=
  modThreads s ts fun _ th => { th with leaving := some ⟨2, 0, .push, 0, 0⟩ }

/-- The faults of R45 up to STALLSHORT, of every thread of the group. -/
def issueFaults (s : State) (sh : Shape) (ts : List ThreadKey) : List FaultRec :=
  ts.filterMap fun t => (issueCause s t sh).map (plainFault s t)

/-- One more use of the free values of an issue group. -/
def bumpFree (s : State) : State := { s with freeCount := s.freeCount + 1 }

/-- Every word: for the issue group in `focus`, away threads of carried words leave for home; a group that lacks a
scoreboarded source is Stalled; the first faults of R45 are taken; else the word acts (DEDUCED, safe: notes/assumptions/6.md). -/
def issue (i : Instr) (act : List ThreadKey → State → Act) (s : State) : Host.Outcome State Fault Refusal :=
  let sh := instrShape i
  match s.focus.threads with
  | [] => .fault .noIssueGroup
  | _ :: _ =>
    let away := if sh.carry then s.focus.threads.filter (isAway s) else []
    let ts := if sh.carry then s.focus.threads.filter (fun t => !isAway s t) else s.focus.threads
    let s0 := startCarry s away
    match ts with
    | [] => .next s0
    | _ :: _ =>
      if ts.any (fun t => !srcsReady s0 t sh) then .next (stallThreads s0 ts)
      else match issueFaults s0 sh ts with
        | f :: fs => .next (bumpFree (takeFaults s0 s.focus.core (f :: fs)))
        | [] =>
          match act ts s0 with
          | .hold => .next (stallThreads s0 ts)
          | .faults fs => .next (bumpFree (takeFaults (faultWalks s0 s.focus.core fs) s.focus.core fs))
          | .done s1 next => .next (bumpFree (stepStops (retireAll s1 sh next) (next.map (·.1))))

/-- The program counter of a thread. -/
def pcOf (s : State) (t : ThreadKey) : Word := ((threadOf s t).map (·.pc)).getD 0

def pfxOf (s : State) (t : ThreadKey) : Pfx := ((threadOf s t).map (·.pfx)).getD Pfx.empty

/-- Each thread goes on at the next word. -/
def advance (s : State) (ts : List ThreadKey) : List (ThreadKey × Word) := ts.map fun t => (t, pcOf s t + 4)

/-- The home warps of a group of threads, in its order. -/
def warpsOf (ts : List ThreadKey) : List WarpKey := dedup (ts.map warpKeyOf)

/-- The operands of a thread, from number k. -/
def readAll (s : State) (t : ThreadKey) (k : Nat) : List Src → List Word
  | [] => []
  | a :: l => readSrc s t k a :: readAll s t (k + 1) l

/-- The operands of a W = 1 word. -/
def readUnis (s : State) (w : WarpKey) (k : Nat) : List Src → List Word
  | [] => []
  | a :: l => readUni s w k a :: readUnis s w (k + 1) l

/-- Results of a register word: each thread's to its own registers (R21), or each home warp's to a w register (R24).
`f` gets the prefix state and the operand values, all read before any result is written (R20). -/
def giveResults (s : State) (ts : List ThreadKey) (lat : Nat) (d : Dst) (srcs : List Src)
    (f : Pfx → List Word → Word) : State :=
  let due := cycOf s s.focus.core + lat
  match d with
  | .thread p => ts.foldl (fun a t => giveThread a t p (f (pfxOf s t) (readAll s t 0 srcs)) due none) s
  | .uni k =>
    let p := ((ts.head?).map (pfxOf s)).getD Pfx.empty
    (warpsOf ts).foldl (fun a w => putUni a w k (f p (readUnis s w 0 srcs)) due) s

/-- A fixed-latency register word (R28, R112, R128) (DESIGN CHOICE, safe: notes/assumptions/10.md) (DEDUCED, unsafe: notes/assumptions/81.md). -/
def regWord (i : Instr) (lat : Nat) (d : Dst) (srcs : List Src) (f : Pfx → List Word → Word) (s : State) :
    Host.Outcome State Fault Refusal :=
  issue i (fun ts s => .done (giveResults s ts lat d srcs f) (advance s ts)) s

/-- The destination of a format F word (R22). -/
def cDst (c : Src) (uni : Bool) : Dst :=
  match c, uni with
  | .w k, true => .uni k
  | .n k, _ => .thread (.named k)
  | _, _ => .thread .push

/-- R28: L of the Short, Long and Function classes. -/
def latShort : Nat := 2
def latLong : Nat := 4
def latFunc : Nat := 12

/-- Operand values by place in a list. -/
def op1 (f : Word → Word) (l : List Word) : Word := f (l.getD 0 0)
def op2 (f : Word → Word → Word) (l : List Word) : Word := f (l.getD 0 0) (l.getD 1 0)
def op3 (f : Word → Word → Word → Word) (l : List Word) : Word := f (l.getD 0 0) (l.getD 1 0) (l.getD 2 0)

/-! ### Paths and leaders (R78 to R81) -/

/-- Item 0x004 of R355: the 55-bit value of a prefix state (DEDUCED, safe: notes/assumptions/12.md). -/
def pfxBits (p : Pfx) : Nat :=
  (match p.lit with
    | some v => v.toNat + 2 ^ 22
    | none => 0) +
  (match p.mod with
    | some m => m.toNat * 2 ^ 23 + 2 ^ 37
    | none => 0) +
  (match p.dln with
    | some d => d.toNat * 2 ^ 38 + 2 ^ 54
    | none => 0)

def pathKeyOf (th : Thread) : PathKey := ⟨th.pc, th.pfx⟩

/-- R78: the thread belongs to a path of its slot; a Stopped thread by its prior state (R351) (DEDUCED, unsafe: notes/assumptions/19.md). -/
def Thread.inPath (th : Thread) : Bool :=
  match th.status with
  | .live .ready | .live .stalled | .stopped .ready | .stopped .stalled => true
  | _ => false

/-- The threads of a slot that belong to its paths. -/
def slotThreads (s : State) (c : CoreId) (i : Fin 64) : List ThreadKey :=
  tkeys s.threads fun _ th => th.inPath && decide (th.place.core = c ∧ th.place.slot = i)

def slotPaths (s : State) (c : CoreId) (i : Fin 64) : List PathKey :=
  (slotThreads s c i).filterMap fun t => (threadOf s t).map pathKeyOf

/-- R80: more threads first, then the lower PC, then the lower prefix state. -/
def pathBetter (ks : List PathKey) (a b : PathKey) : Bool :=
  let na := ks.count a
  let nb := ks.count b
  decide (nb < na) ||
  (na == nb && (decide (a.pc.toNat < b.pc.toNat) ||
    (a.pc == b.pc && decide (pfxBits a.pfx < pfxBits b.pfx))))

/-- The path that R80 selects among the paths of a list of threads. -/
def bestPath (ks : List PathKey) : Option PathKey :=
  ks.foldl (fun m k => match m with
    | none => some k
    | some x => if pathBetter ks k x then some k else some x) none

/-- A leader is chosen or lost; a new leader has no count (R84). -/
def setLeader (s : State) (c : CoreId) (i : Fin 64) (k : Option PathKey) : State :=
  modSlot s c i fun x => { x with
    leader := k
    timed := if x.leader = k then x.timed else false
    counts := match k with
      | some y => tdel x.counts y
      | none => x.counts }

/-- R80 cases 2 and 3: a leader that has no thread left is replaced, and a slot with paths gets a leader. -/
def settleSlot (s : State) (c : CoreId) (i : Fin 64) : State :=
  let ks := slotPaths s c i
  match (slotOf s c i).leader with
  | some k => if k ∈ ks then s else setLeader s c i (bestPath ks)
  | none => if ks = [] then s else setLeader s c i (bestPath ks)

/-- R80 cases 1 and 2 after the leader `k` of a slot has issued with the given threads. -/
def settleIssued (s : State) (k : PathKey) (ts : List ThreadKey) (c : CoreId) (i : Fin 64) : State :=
  if (slotOf s c i).leader = some k then
    let mine := (ts.filterMap (threadOf s)).filter fun th =>
      th.inPath && decide (th.place.core = c ∧ th.place.slot = i)
    match dedup (mine.map pathKeyOf) with
    | [] => setLeader s c i (bestPath (slotPaths s c i))
    | [x] => setLeader s c i (some x)
    | _ => setLeader s c i (bestPath (slotPaths s c i))
  else settleSlot s c i

/-- The slots in which threads stand, or that have a leader. -/
def usedSlots (s : State) : List (CoreId × Fin 64) :=
  dedup ((s.threads.filter fun e => e.2.isResident).map (fun e => (e.2.place.core, e.2.place.slot)) ++
    (s.slots.filter fun e => e.2.leader.isSome).map (·.1))

/-! ### Ready and Stalled (R75, R76, R79) -/

/-- The instruction that a word is: every word that decodes to none is ILLEGAL_WORD (R44). -/
def instrOfWord (w : IWord) : Instr :=
  match decode w with
  | .ok i => i
  | .error _ => .illegalWord w

/-- R426: a fetch of a SHARED page for a ladle takes nothing that came from home before the latest bind of its group; at home the
bind has emptied the caches. The moment is that of the threads' groups, none for threads at home. -/
def boundSince (s : State) (ts : List ThreadKey) : Option Nat :=
  ts.foldl (fun m t => if isAway s t then
    some (max (m.getD 0) (((groupOfThread s t).map (·.bindAt)).getD 0)) else m) none

/-- What came from home at a moment may serve such a fetch. -/
def freshFor (since : Option Nat) (shared : Bool) (filled : Nat) : Bool := !shared || since.all fun b => decide (b < filled)

/-- The word at an address, when it has been fetched: the instruction cache holds words by physical address, and every fetch is
an access that translates (R179, R182). -/
def wordAt (s : State) (c : CoreId) (ctx va : Nat) (since : Option Nat) : Option IWord :=
  match (translate s c.die (some c) ctx va ⟨false, false, true⟩).1 with
  | .ok x => ((tget (coreOf s c).icache x.loc).filter fun w => freshFor since x.attr.shared w.filled).map (·.word)
  | _ => none

/-- The next word of a thread, when it has been fetched. -/
def nextWord (s : State) (t : ThreadKey) (th : Thread) : Option IWord :=
  wordAt s th.place.core (ctxIdOf s t) th.pc.toNat (boundSince s [t])

/-- The thread waits for no fetch, no scoreboarded source and no barrier entry (R75, R79, R283). -/
def nextReady (s : State) (t : ThreadKey) (th : Thread) : Bool :=
  th.inBar.isNone &&
  match nextWord s t th with
  | some w => srcsReady s t (instrShape (instrOfWord w))
  | none => false

/-- R75, R76: a Ready thread that cannot issue its next word is Stalled. A unit that is full stalls a thread when it refuses it
(DEDUCED, safe: notes/assumptions/11.md). -/
def stallUnready (s : State) : State :=
  { s with threads := s.threads.map fun e =>
      if e.2.status = .live .ready ∧ nextReady s e.1 e.2 = false then (e.1, { e.2 with status := .live .stalled }) else e }

/-- After a move: every slot has the leader that R80 gives it, and every thread is Ready or Stalled as R75 has it. -/
def settleAll (s : State) : State := stallUnready ((usedSlots s).foldl (fun a x => settleSlot a x.1 x.2) s)

end Sys2Proof.Machine
end

