-- ==== Sys2Proof/Machine/Cache.lean ====
section
/-! DEFINITION. Lines: the L1 and the L2, dirty words, epochs, accesses through the cache and at home, and the actions of
releases and acquires (spec/08_line.md R189 to R210; spec/18_stack.md R364 for the requests). A line is named by its
address divided by 128. -/

namespace Sys2Proof.Machine

def lineOf (loc : Nat) : Nat := loc / 128

/-- The lines of a byte range. -/
def linesOf (loc n : Nat) : List Nat := if n = 0 then [] else rangeFrom (loc / 128) ((loc + n - 1) / 128 + 1 - loc / 128)

/-- The slice of a line (R189). -/
def sliceOf (pa : Nat) : Fin 64 := Fin.ofNat 64 (xorFields 6 9 (pa / 128))

/-! ### The line tables of a die -/

def l2Of (s : State) (d : Fin 8) (ln : Nat) : Option L2Line := tget (dieOf s d).l2 ln

def l2Set (s : State) (d : Fin 8) (ln : Nat) (x : L2Line) : State :=
  modDie s d fun k => { k with l2 := tset k.l2 ln x }

/-- A line leaves the L2, or stays in place Stale while it is pinned (R195). -/
def l2Drop (s : State) (d : Fin 8) (ln : Nat) : State :=
  match l2Of s d ln with
  | none => s
  | some x =>
    if x.pins = [] then modDie s d fun k => { k with l2 := tdel k.l2 ln, dirtyList := k.dirtyList.erase ln }
    else l2Set s d ln { x with stale := true }

/-- The line can serve an access of a thread: present, not Stale, and not awaiting its eviction for that thread (R195,
R294). -/
def L2Line.usable (x : L2Line) (t : Option ThreadKey) : Bool :=
  !x.stale && match t with
    | some k => !x.evictFor.contains k
    | none => true

/-! ### Writes reach watches (R219) -/

/-- Every watch of a die on a line is marked written. -/
def hitWatches (s : State) (d : Fin 8) (ln : Nat) (sharedOnly : Bool) : State :=
  { s with watches := s.watches.map fun e =>
      if e.2.die = d ∧ lineOf e.2.pa = ln ∧ (sharedOnly = true → e.2.shared = true) then (e.1, { e.2 with hit := true })
      else e }

/-- Words of a line, by a mask: from `mine` where the bit is set, else from `home`. -/
def mergeWords (mask : BitVec 32) (mine home : List Byte) : List Byte :=
  (mine.zip home).zipIdx.map fun x => if mask.getLsbD (x.2 / 4) then x.1.1 else x.1.2

/-- A notified slice marks its copy of the line Absent (R219). Words it holds dirty stay with it
(DEDUCED, unsafe: notes/assumptions/20.md). -/
def markAbsent (s : State) (d : Fin 8) (ln : Nat) : State :=
  match l2Of s d ln with
  | none => s
  | some x =>
    if x.dirty = 0 then l2Drop s d ln
    else l2Set s d ln { x with data := mergeWords x.dirty x.data (memBytes s.mem (ln * 128) 128) }

/-- A write has reached home on a line: every die with an entry in the home watch table is notified (R219). -/
def homeTouched (s : State) (ln : Nat) : State :=
  let ds := dedup ((s.homeWatches.filter fun e => e.line = ln).map (·.die))
  let s1 := ds.foldl (fun a d => markAbsent (hitWatches a d ln true) d ln) s
  { s1 with homeWatches := s1.homeWatches.filter fun e => e.line ≠ ln }

/-- Bytes are written at home. -/
def homeWrite (s : State) (loc : Nat) (data : List Byte) : State :=
  (linesOf loc data.length).foldl homeTouched { s with mem := memPutBytes s.mem loc data }

/-! ### Packets (R72, R201, R213, R215, R233, R372, R394) -/

/-- The new value of an atomic (R212). -/
def atomNew (op : AtomOp) (n : Width) (old p : Word) : Word :=
  match op with
  | .add => zext (widthBits n) ((old + p).toNat : Nat)
  | .fadd => aluFadd false false false false old p
  | .min => if sval (widthBits n) p < sval (widthBits n) old then zext (widthBits n) (p.toNat : Nat) else old
  | .max => if sval (widthBits n) old < sval (widthBits n) p then zext (widthBits n) (p.toNat : Nat) else old
  | .and => zext (widthBits n) ((old &&& p).toNat : Nat)
  | .or => zext (widthBits n) ((old ||| p).toNat : Nat)
  | .xor => zext (widthBits n) ((old ^^^ p).toNat : Nat)
  | .exch => zext (widthBits n) (p.toNat : Nat)

/-- Bytes that programs write, for the tile operations in progress (R271): what was issued after the operation. -/
def taintMem (s : State) (id loc n : Nat) : State :=
  { s with engs := s.engs.map fun e =>
      if e.1 < id ∧ (e.2.state = .pending ∨ e.2.state = .flight) then
        (e.1, { e.2 with taintPa := e.2.taintPa ++ rangeFrom loc n }) else e }

/-- The landing operation of R72 on bits D and p. -/
def redLand (r : Fin 4) (dv p : Word) : Word :=
  match r with
  | 0 => aluFadd false false false false dv p
  | 1 => BitVec.ofNat 64 (roundRne .bf16 (fdecode .fp32 (roundRne .fp32 ((fdecode .bf16 dv.toNat).add (fdecode .bf16 p.toNat)))))
  | 2 => zext 32 ((dv + p).toNat : Nat)
  | 3 => aluFmax dv p

def redBytes (r : Fin 4) : Nat := if r = 1 then 2 else 4

/-- One operand applied to a value. -/
def packetOne (k : Packet) (dv p : Word) : Word :=
  match k.red, k.atom with
  | some r, _ => redLand r dv p
  | none, some (op, n) => atomNew op (if n = 8 then .w64 else .w32) dv p
  | none, none => dv

/-- What a packet makes of the value at its home: its operands in order (R215). -/
def packetValue (k : Packet) (dv : Word) : Word := k.values.foldl (packetOne k) dv

def packetBytes (k : Packet) : Nat :=
  match k.red, k.atom with
  | some r, _ => redBytes r
  | none, some (_, n) => n
  | none, none => 0

/-- A packet stands before another: of one thread to one line, issued earlier (R215); or of one die to one home, sent earlier (R233,
R394). -/
def packetBefore (i : Nat) (a : Packet) (j : Nat) (b : Packet) : Bool :=
  (decide (i < j) && lineOf a.pa == lineOf b.pa && a.threads.any b.threads.contains) ||
  (a.stack == b.stack && a.sent.any fun x => b.sent.any fun y => x.1 == y.1 && decide (x.2 < y.2))

/-- A packet that has not landed must land before; `skip` is left out. -/
def packetFirst (s : State) (id : Nat) (k : Packet) (skip : Nat) : Bool :=
  s.packets.any fun e => e.1 != id && e.1 != skip && !e.2.applied && packetBefore e.1 e.2 id k

/-- A packet lands whole at one instant (R372), and its request arrives (R364). -/
def landPacket (s : State) (id : Nat) (k : Packet) : State :=
  let n := packetBytes k
  let v := packetValue k (BitVec.ofNat 64 (memNat s.mem k.pa n))
  let s1 := homeWrite { s with packets := tset s.packets id { k with applied := true } } k.pa (natBytes n v.toNat)
  let s2 := if k.op.isNone then taintMem s1 id k.pa n else s1
  postAt s2 (diePort k.core.die k.stack) (some id) k.core k.ctx k.cls k.deadline k.more k.pa n

/-- A packet lands behind those that must land before it; at most n deep. -/
def landOrdered : Nat → State → Nat → State
  | 0, s, _ => s
  | n + 1, s, id =>
    match tget s.packets id with
    | none => s
    | some k =>
      let s1 := (tkeys s.packets fun j x => j != id && !x.applied && packetBefore j x id k).foldl (landOrdered n) s
      match tget s1.packets id with
      | some x => if x.applied then s1 else landPacket s1 id x
      | none => s1

/-- A read or a write-back of a die goes to a home: the packets that the die has sent there arrive before it (R394). -/
def behindPackets (s : State) (d : Fin 8) (k : Fin 16) : State :=
  (tkeys s.packets fun _ x => !x.applied && x.stack == k && x.sent.any fun y => y.1 == d).foldl
    (landOrdered s.packets.length) s

/-! ### Write-back, eviction, epochs (R191 to R194) -/

/-- The two requests of a line fill or a write-back (R364). -/
def fillAsks (loc : Nat) : List (Nat × Nat) := [(lineOf loc * 128, 64), (lineOf loc * 128 + 64, 64)]

/-- The dirty words of a line at home. -/
def putDirty (m : Memory) (ln : Nat) (x : L2Line) : Memory :=
  (List.range 32).foldl (fun a i =>
    if x.dirty.getLsbD i then memPutBytes a (ln * 128 + 4 * i) ((x.data.drop (4 * i)).take 4) else a) m

/-- The dirty words of a line are written back, and the line becomes Clean (R191, R193). -/
def writeBack (s0 : State) (d : Fin 8) (ln : Nat) : State :=
  match l2Of s0 d ln with
  | none => s0
  | some x =>
    if x.dirty = 0 then s0
    else
      let s := behindPackets s0 d (stackOf (ln * 128))
      let s1 := modDie { s with mem := putDirty s.mem ln x } d fun k =>
        { k with l2 := tset k.l2 ln { x with dirty := 0 }, dirtyList := k.dirtyList.erase ln }
      homeTouched (postPlain s1 d x.ctx x.cls (fillAsks (ln * 128))) ln

/-- Eviction (R191). -/
def evictLine (s : State) (d : Fin 8) (ln : Nat) : State := l2Drop (writeBack s d ln) d ln

/-- The lines of a die that meet a test. -/
def linesWhere (s : State) (d : Fin 8) (p : Nat → L2Line → Bool) : List Nat := tkeys (dieOf s d).l2 p

def writeBackAll (s : State) (d : Fin 8) (p : Nat → L2Line → Bool) : State :=
  (linesWhere s d fun k x => x.dirty != 0 && p k x).foldl (fun a ln => writeBack a d ln) s

/-- The die's epoch advances (R194): dirty words of SHARED lines go home, and every SHARED line becomes Stale
(DEDUCED, safe: notes/assumptions/15.md). -/
def epochAdvance (s : State) (d : Fin 8) : State :=
  let s1 := writeBackAll s d fun _ x => x.shared
  let s2 := (linesWhere s1 d fun _ x => x.shared).foldl (fun a ln => l2Drop a d ln) s1
  modDie s2 d fun k => { k with epoch := k.epoch + 1 }

/-- The PRIVATE lines of a die leave it, so that a relaunched thread reads its own earlier writes there (R235). -/
def dropPrivate (s : State) (d : Fin 8) : State := (linesWhere s d fun _ x => !x.shared).foldl (fun a ln => evictLine a d ln) s

/-- The L1 of a core is invalidated (R190). -/
def clearL1 (s : State) (c : CoreId) : State := modCore s c fun k => { k with l1 := [] }

/-! ### Releases and acquires (R206) -/

/-- The actions of an acquire by a thread of a core. -/
def acquireAct (s : State) (c : CoreId) (sc : Scope) : State :=
  match sc with
  | .core => s
  | .die => clearL1 s c
  | .pkg | .sys => epochAdvance (clearL1 s c) c.die

/-- The write-backs of a release on a die, for a context. -/
def releaseAct (s : State) (d : Fin 8) (ctx : Nat) (sc : Scope) : State :=
  match sc with
  | .core | .die => s
  | .pkg => writeBackAll s d fun _ x => x.shared
  | .sys => writeBackAll s d fun _ x => x.shared || x.ctx == ctx

/-! ### Reads -/

/-- The rank of a line for replacement, by the cache operator and else by the Temp of the page: 0 goes first, `.last` and, once used,
STREAM; 1 the lowest priority, `.stream` and COLD; 2 the default; 3 the highest, `.keep` and HOT (R178, R191, R202). That the operator
comes before Temp is the model's (DESIGN CHOICE, unsafe: notes/assumptions/21.md). -/
def rankOf (a : Attr) : Nat :=
  match a.cacheOp with
  | 1 => 1
  | 3 => 0
  | 4 => 3
  | _ => match a.temp with
    | 0 => 2
    | 1 => 3
    | 2 => 1
    | 3 => 0

/-- The lines that a slice holds. -/
def sliceLines (s : State) (d : Fin 8) (k : Fin 64) : List Nat := linesWhere s d fun ln _ => decide (sliceOf (ln * 128) = k)

/-- The lines that a slice of a die has room for: 12 MiB less the carve-out's share (R6, R189). -/
def sliceRoom (s : State) (d : Fin 8) : Nat :=
  98304 - 8192 * ((List.finRange 8).filter fun u => (dieOf s d).carve[u].valid).length

/-- The victims among some lines: of the lowest rank, not Pinned (R191). -/
def victimsOf (s : State) (d : Fin 8) (l : List Nat) : List Nat :=
  let free := l.filter fun ln => ((l2Of s d ln).map fun x => x.pins.isEmpty).getD false
  let rank (ln : Nat) : Nat := ((l2Of s d ln).map (·.rank)).getD 0
  free.filter fun ln => free.all fun k => decide (rank ln ≤ rank k)

/-- A slice with more than n lines evicts victims, while it has one; which of them is free. -/
def evictOver (d : Fin 8) (k : Fin 64) (n : Nat) : Nat → State → State
  | 0, s => s
  | m + 1, s =>
    if (sliceLines s d k).length ≤ n then s
    else
      let v := victimsOf s d (sliceLines s d k)
      match v[(Config.freeWord s.freeCount m).toNat % v.length]? with
      | none => s
      | some ln => evictOver d k n m (evictLine s d ln)

/-- Every slice of a die holds no more lines than it has room for (R189). -/
def trimSlices (s : State) (d : Fin 8) : State :=
  (List.finRange 64).foldl (fun a k => evictOver d k (sliceRoom a d) ((sliceLines a d k).length - sliceRoom a d) a) s

/-- The L2 takes a line from home: Clean, with the die's epoch (R191), where its slice has room or a victim. -/
def l2Fill (s : State) (d : Fin 8) (ln : Nat) (a : Attr) (ctx : Nat) : State :=
  let k := sliceOf (ln * 128)
  let n := sliceRoom s d - 1
  let s1 := behindPackets (evictOver d k n ((sliceLines s d k).length - n) s) d (stackOf (ln * 128))
  if (sliceLines s1 d k).length ≤ n then
    l2Set s1 d ln ⟨memBytes s1.mem (ln * 128) 128, 0, a.shared, (dieOf s1 d).epoch, false, ctx, [], [], rankOf a, a.page, s1.clock⟩
  else s1

/-- The L1 of a core takes a line: it has 1,024, and its victims have the lowest rank (R189, R202). -/
def l1Fill (s : State) (c : CoreId) (ln : Nat) (data : List Byte) (a : Attr) : State :=
  modCore s c fun k =>
    let l := tdel k.l1 ln
    let rank (e : Nat × List Byte) : Nat := (tget k.l1Rank e.1).getD 2
    let kept := if l.length < 1024 then l else
      match l.find? fun e => l.all fun x => decide (rank e ≤ rank x) with
      | some e => tdel l e.1
      | none => l
    { k with l1 := tset kept ln data, l1Rank := if rankOf a = 2 then tdel k.l1Rank ln else tset k.l1Rank ln (rankOf a) }

/-- An access that leaves the line the first candidate for eviction, in both levels (R178, R202). -/
def rankUse (s : State) (c : CoreId) (ln : Nat) (a : Attr) : State :=
  if rankOf a = 0 then
    modCore (modDie s c.die fun k => { k with l2 := tmod k.l2 ln fun x => { x with rank := 0 } }) c fun k =>
      { k with l1Rank := if (tget k.l1 ln).isSome then tset k.l1Rank ln 0 else k.l1Rank }
  else s

/-- A line as the L2 serves it to a thread, filled if Absent; none where the access goes home without allocating. -/
def l2Read (s : State) (d : Fin 8) (ln : Nat) (a : Attr) (ctx : Nat) (t : Option ThreadKey) : Option (List Byte) × State :=
  match l2Of s d ln with
  | some x => if x.usable t then (some x.data, s) else (none, s)
  | none =>
    let s1 := l2Fill s d ln a ctx
    ((l2Of s1 d ln).map (·.data), s1)

/-- R190, R202: the load fills the L1. -/
def fillsL1 (a : Attr) : Bool := a.temp != 2 && a.temp != 3 && a.cacheOp != 1 && a.cacheOp != 2

/-- Bytes of a line. -/
def lineSlice (data : List Byte) (loc n : Nat) : List Byte := (data.drop (loc % 128)).take n

/-- The steps of R201 for lines that the issuing die may hold (DEDUCED, safe: notes/assumptions/53.md). -/
def homePrepare (s : State) (c : CoreId) (lns : List Nat) : State :=
  lns.foldl (fun a ln =>
    modCore (evictLine a c.die ln) c fun k => { k with l1 := tdel k.l1 ln }) s

/-- A read at home (R197). -/
def homeRead (s : State) (c : CoreId) (loc n : Nat) (a : Attr) : List Byte × State :=
  let s1 := if a.remote then s else behindPackets (homePrepare s c (linesOf loc n)) c.die (stackOf loc)
  (memBytes s1.mem loc n, s1)

/-- R294: the line awaits its eviction for a thread, whose every access to it executes at home. -/
def goesHome (s : State) (d : Fin 8) (ln : Nat) (t : Option ThreadKey) : Bool :=
  match l2Of s d ln, t with
  | some x, some k => !x.stale && x.evictFor.contains k
  | _, _ => false

/-- A read through the cache (R197): `l1` says whether the L1 may serve it. -/
def cacheRead (s : State) (c : CoreId) (l1 : Bool) (loc n : Nat) (a : Attr) (ctx : Nat) (t : Option ThreadKey) :
    List Byte × State :=
  if a.carve || a.remote then (memBytes s.mem loc n, s)
  else
    let ln := lineOf loc
    if goesHome s c.die ln t then homeRead s c loc n a
    else match (if l1 then tget (coreOf s c).l1 ln else none) with
    | some data => (lineSlice data loc n, rankUse s c ln a)
    | none =>
      match l2Read s c.die ln a ctx t with
      | (none, s1) => (memBytes s1.mem loc n, s1)
      | (some data, s1) =>
        (lineSlice data loc n, rankUse (if l1 && fillsL1 a then l1Fill s1 c ln data a else s1) c ln a)

/-! ### Writes -/

/-- Bytes replaced in a line. -/
def linePatch (data : List Byte) (loc : Nat) (new : List Byte) : List Byte :=
  data.take (loc % 128) ++ new ++ data.drop (loc % 128 + new.length)

/-- The words that bytes loc .. loc + n - 1 of a line touch. -/
def wordMask (loc n : Nat) : BitVec 32 :=
  (rangeFrom (loc % 128 / 4) ((loc % 128 + n + 3) / 4 - loc % 128 / 4)).foldl (fun m i => m ||| (1#32 <<< i)) 0

/-- A write at home that every copy follows: the dirty words of the dies go home first, and no L1 keeps the line. -/
def writeEvery (s : State) (loc : Nat) (new : List Byte) : State :=
  let ln := lineOf loc
  let s1 := homeWrite ((List.finRange 8).foldl (fun a d => writeBack a d ln) s) loc new
  { s1 with
    dies := s1.dies.mapIdx fun _ d => { d with l2 := tmod d.l2 ln fun x => { x with data := linePatch x.data loc new } }
    cores := s1.cores.map fun e => (e.1, { e.2 with l1 := tdel e.2.l1 ln }) }

/-- The issuing core's Valid L1 copy follows a write (R190). -/
def l1Patch (s : State) (c : CoreId) (loc : Nat) (new : List Byte) : State :=
  modCore s c fun k => { k with l1 := tmod k.l1 (lineOf loc) fun data => linePatch data loc new }

/-- The die's list of dirty lines has reached 65,536 lines (R193). -/
def trimDirty (s : State) (d : Fin 8) : State :=
  match (dieOf s d).dirtyList with
  | [] => s
  | ln :: l => if 65536 ≤ l.length + 1 then writeBack s d ln else s

/-- A write to the L2 copy of a line that is present (R191, R192). -/
def l2Write (s : State) (d : Fin 8) (loc : Nat) (new : List Byte) (mark : Bool) (ctx : Nat) : State :=
  let ln := lineOf loc
  match l2Of s d ln with
  | none => s
  | some x =>
    let y := { x with data := linePatch x.data loc new
                      dirty := if mark then x.dirty ||| wordMask loc new.length else x.dirty
                      ctx := if mark then ctx else x.ctx }
    trimDirty (modDie (if mark then touchDie s ctx d else s) d fun k =>
      { k with l2 := tset k.l2 ln y
               dirtyList := if mark && !k.dirtyList.contains ln then k.dirtyList ++ [ln] else k.dirtyList }) d

/-- R193: a line that another context holds dirty is written back before a write to it (DEDUCED, unsafe: notes/assumptions/78.md). -/
def yieldDirty (s : State) (d : Fin 8) (ln ctx : Nat) : State :=
  match l2Of s d ln with
  | some x => if x.dirty != 0 && x.ctx != ctx then writeBack s d ln else s
  | none => s

/-- A write at home (R197). -/
def homeStore (s : State) (c : CoreId) (loc : Nat) (new : List Byte) (a : Attr) : State :=
  if a.remote then { s with mem := memPutBytes s.mem loc new }
  else homeWrite (homePrepare s c (linesOf loc new.length)) loc new

/-- A write applied through the cache or at the slice (R190 to R193, R197). A narrow store to a SHARED page, and a write
that is released at package or system scope, goes home at once (DESIGN CHOICE, unsafe: notes/assumptions/21.md). -/
def cacheWrite (s : State) (c : CoreId) (loc : Nat) (new : List Byte) (a : Attr) (ctx : Nat) (t : Option ThreadKey)
    (through : Bool) : State :=
  let ln := lineOf loc
  if a.carve || a.remote then hitWatches { s with mem := memPutBytes s.mem loc new } c.die ln false
  else
    let home := through || (a.shared && decide (new.length < 4))
    let s1 := yieldDirty (l1Patch s c loc new) c.die ln ctx
    if goesHome s1 c.die ln t then hitWatches (homeStore s1 c loc new a) c.die ln false
    else match l2Of s1 c.die ln with
    | some x =>
      if !x.usable t then hitWatches (homeWrite s1 loc new) c.die ln false
      else
        let s2 := hitWatches (rankUse (l2Write s1 c.die loc new (!home) ctx) c ln a) c.die ln false
        if home then homeWrite s2 loc new else s2
    | none =>
      if home then hitWatches (homeWrite s1 loc new) c.die ln false
      else
        let s2 := l2Fill s1 c.die ln a ctx
        if (l2Of s2 c.die ln).isSome then hitWatches (rankUse (l2Write s2 c.die loc new true ctx) c ln a) c.die ln false
        else hitWatches (homeWrite s2 loc new) c.die ln false

/-- A write at its point. -/
def writeAt (s : State) (p : Point) (c : CoreId) (loc : Nat) (new : List Byte) (a : Attr) (ctx : Nat)
    (t : Option ThreadKey) (through : Bool) : State :=
  match p with
  | .cache => cacheWrite s c loc new a ctx t through
  | .home => homeStore s c loc new a

/-! ### What an access asks of the controllers (R364) -/

/-- The DRAM requests that a read of a thread needs at this moment: none of a line that a cache serves to it; a fill of one that is not
there; else its own bytes at home (DESIGN CHOICE, safe: notes/assumptions/27.md). -/
def readAsks (s : State) (p : Point) (c : CoreId) (l1 : Bool) (loc n : Nat) (a : Attr) (t : Option ThreadKey) :
    List (Nat × Nat) :=
  if a.carve || a.remote then []
  else match p with
    | .home => [(loc, n)]
    | .cache =>
      if l1 && (tget (coreOf s c).l1 (lineOf loc)).isSome && !goesHome s c.die (lineOf loc) t then []
      else match l2Of s c.die (lineOf loc) with
        | some x => if x.usable t then [] else [(loc, n)]
        | none => fillAsks loc

/-- The DRAM requests that a write of a thread needs at this moment. -/
def writeAsks (s : State) (p : Point) (c : CoreId) (loc n : Nat) (a : Attr) (through : Bool) (t : Option ThreadKey) :
    List (Nat × Nat) :=
  if a.carve || a.remote then []
  else match p with
    | .home => [(loc, n)]
    | .cache =>
      let home := through || (a.shared && decide (n < 4))
      match l2Of s c.die (lineOf loc) with
      | some x => if home || !x.usable t then [(loc, n)] else []
      | none => if home then [(loc, n)] else fillAsks loc

/-! ### The write filter (R292) -/

/-- The index of a line. -/
def filterIdx (pa : Nat) : Nat :=
  let g := pa / 128 % 2 ^ 49
  xorFields 8 6 g ^^^ (g / 2 ^ 48)

/-- A thread's write names a line of its own package's DRAM. -/
def markFilter (s : State) (t : ThreadKey) (x : Xlat) : State :=
  if x.attr.remote || x.attr.carve then s
  else modThread s t fun th => { th with filter := th.filter ||| (1#256 <<< filterIdx x.pa) }

/-- R294: what a die and a core do with an arriving filter, for a thread. -/
def applyFilter (s : State) (c : CoreId) (f : BitVec 256) (t : ThreadKey) : State :=
  let hits := linesWhere s c.die fun ln _ => f.getLsbD (filterIdx (ln * 128))
  let s1 := hits.foldl (fun a ln =>
    match l2Of a c.die ln with
    | none => a
    | some x => if x.pins = [] then evictLine a c.die ln else l2Set a c.die ln { x with evictFor := t :: x.evictFor }) s
  modCore s1 c fun k => { k with l1 := k.l1.filter fun e => !f.getLsbD (filterIdx (e.1 * 128)) }

end Sys2Proof.Machine
end

