-- ==== Sys2Proof/Machine/Control.lean ====
section
/-! DEFINITION. Control transfer, masks, ending, traps and special registers (spec/03_thread.md R86 to R99), LIT and the
hints that touch no memory (spec/01_words.md R29 to R34). -/

namespace Sys2Proof.Machine

/-! ### LIT and HINT -/

/-- `LIT` sets the pending literal (R29). -/
def execLit (value : BitVec 22) (st : Stall) (s : State) :=
  issue (.lit value st) (fun ts s =>
    .done (modThreads s ts fun _ th => { th with pfx := { th.pfx with lit := some value } }) (advance s ts)) s

/-- A hint without effect (R31, R34). -/
def hintOnly (i : Instr) (s : State) : Host.Outcome State Fault Refusal :=
  issue i (fun ts s => .done s (advance s ts)) s

def execHintNop (kind : BitVec 4) (payload : BitVec 19) (st : Stall) (s : State) := hintOnly (.hintNop kind payload st) s

/-- `DEAD` changes energy only (R34). -/
def execHintDead (payload : BitVec 19) (st : Stall) (s : State) := hintOnly (.hintDead payload st) s

/-- `MOD` (R32, R36): payload bits 18:5; bits 4:0 must be 0. -/
def execHintMod (payload : BitVec 19) (st : Stall) (s : State) :=
  issue (.hintMod payload st) (fun ts s =>
    .done (modThreads s ts fun _ th =>
        { th with pfx := { th.pfx with mod := some (BitVec.ofNat 14 (payload.toNat / 32))
                                       modBad := payload.toNat % 32 != 0 } })
      (advance s ts)) s

/-- `DLN` (R32, R38): payload bits 15:0; bits 18:16 must be 0. -/
def execHintDln (payload : BitVec 19) (st : Stall) (s : State) :=
  issue (.hintDln payload st) (fun ts s =>
    .done (modThreads s ts fun _ th =>
        { th with pfx := { th.pfx with dln := some (BitVec.ofNat 16 payload.toNat)
                                       dlnBad := payload.toNat / 65536 != 0 } })
      (advance s ts)) s

/-- R85: for each slot of the issue group, the yielding path gives leadership to the best other path; its count starts
at 0. -/
def yieldSlot (s : State) (old new : PathKey) (c : CoreId) (i : Fin 64) : State :=
  let others := (slotPaths s c i).filter (· ≠ old)
  match bestPath others with
  | none => s
  | some k =>
    modSlot (setLeader s c i (some k)) c i fun x => { x with counts := tset x.counts new 0 }

def execHintYield (payload : BitVec 19) (st : Stall) (s : State) :=
  issue (.hintYield payload st) (fun ts s =>
    let s1 := ts.foldl (fun a t =>
      match threadOf s t with
      | none => a
      | some th =>
        if (slotOf a th.place.core th.place.slot).leader = some (pathKeyOf th) then
          yieldSlot a (pathKeyOf th) ⟨th.pc + 4, th.pfx⟩ th.place.core th.place.slot
        else a) s
    .done s1 (advance s ts)) s

/-- `PHASE` (R39, R370): one notice to each of the sixteen stacks; with bit 16 or 17 set it is a NOP. -/
def sendPhase (s : State) (c : CoreId) (begin_ : Bool) (len : Nat) : State :=
  let others := s.phases.filter fun e => e.core ≠ c
  if begin_ then
    { s with phases := others ++ (List.finRange 16).map fun k =>
        ⟨k, c, if len = 0 then none else some (s.clock + 1024 * len)⟩ }
  else { s with phases := others }

def execHintPhase (payload : BitVec 19) (st : Stall) (s : State) :=
  issue (.hintPhase payload st) (fun ts s =>
    .done (if bvf payload 17 16 = 0 then sendPhase s s.focus.core (bvf payload 18 18 == 1) (bvf payload 15 0) else s)
      (advance s ts)) s

/-- A word that is no instruction (R44): ILLEGAL for every thread of the issue group, item 1 of R45. -/
def execIllegalWord (_word : IWord) (s : State) : Host.Outcome State Fault Refusal :=
  match s.focus.threads with
  | [] => .fault .noIssueGroup
  | t :: ts => .next (bumpFree (takeFaults s s.focus.core ((t :: ts).map fun x => plainFault s x .illegal)))

/-! ### Control transfer (R91, R92) -/

/-- The target of a format B word (R17). -/
def branchTarget (pc : Word) (disp : BitVec 17) : Word := pc + 4 + 4 * sext 17 (disp.toNat : Nat)

def execBra (disp : BitVec 17) (st : Stall) (s : State) :=
  issue (.bra disp st) (fun ts s => .done s (ts.map fun t => (t, branchTarget (pcOf s t) disp))) s

def execBnz (a : Src) (disp : BitVec 17) (st : Stall) (s : State) :=
  issue (.bnz a disp st) (fun ts s =>
    .done s (ts.map fun t =>
      (t, if readSrc s t 0 a ≠ 0 then branchTarget (pcOf s t) disp else pcOf s t + 4))) s

def execBz (a : Src) (disp : BitVec 17) (st : Stall) (s : State) :=
  issue (.bz a disp st) (fun ts s =>
    .done s (ts.map fun t =>
      (t, if readSrc s t 0 a = 0 then branchTarget (pcOf s t) disp else pcOf s t + 4))) s

/-- `CALL` pushes the return address, Short (R91, R28). -/
def execCall (disp : BitVec 17) (st : Stall) (s : State) :=
  issue (.call disp st) (fun ts s =>
    .done (ts.foldl (fun x t => giveThread x t .push (pcOf s t + 4) (cycOf s s.focus.core + latShort) none) s)
      (ts.map fun t => (t, branchTarget (pcOf s t) disp))) s

/-- The faults of `JMPR` and `RET` (R92): ALIGN, then VIOL (DEDUCED, unsafe: notes/assumptions/8.md). -/
def jumpFaults (s : State) (ts : List ThreadKey) (a : Src) : List FaultRec :=
  ts.filterMap fun t =>
    let v := (readSrc s t 0 a).toNat
    if v % 4 ≠ 0 then some (addrFault s t .align v)
    else if !canonical v then some (violFault s t 3 0 v)
    else none

def jumpWord (i : Instr) (a : Src) (s : State) : Host.Outcome State Fault Refusal :=
  issue i (fun ts s =>
    match jumpFaults s ts a with
    | [] => .done s (ts.map fun t => (t, readSrc s t 0 a))
    | f :: fs => .faults (f :: fs)) s

def execJmpr (a : Src) (st : Stall) (s : State) := jumpWord (.jmpr a st) a s
def execRet (a : Src) (st : Stall) (s : State) := jumpWord (.ret a st) a s

/-! ### Masks (R86 to R90) -/

/-- A thread's bit of a mask, set or cleared (R88). -/
def setMaskBit (s : State) (t : ThreadKey) (k : Fin 12) (v : Bool) : State :=
  modWarp s (warpKeyOf t) fun w =>
    { w with k := w.k.set k (if v then w.k[k] ||| (1#32 <<< (laneOf t).val) else w.k[k] &&& ~~~(1#32 <<< (laneOf t).val)) }

def execJoin (k : Fin 12) (st : Stall) (s : State) :=
  issue (.join k st) (fun ts s => .done (ts.foldl (fun a t => setMaskBit a t k true) s) (advance s ts)) s

def execLeave (k : Fin 12) (st : Stall) (s : State) :=
  issue (.leave k st) (fun ts s => .done (ts.foldl (fun a t => setMaskBit a t k false) s) (advance s ts)) s

def maskOfWarp (s : State) (w : WarpKey) (k : Fin 12) : BitVec 32 := ((tget s.warps w).map fun x => x.k[k]).getD 0

/-- R89, R300: members of k that are away are recalled. -/
def recallMembers (s : State) (w : WarpKey) (k : Fin 12) : State :=
  { s with threads := s.threads.map fun e =>
      if warpKeyOf e.1 = w ∧ e.2.away.isSome ∧ e.2.isEnded = false ∧ (maskOfWarp s w k).getLsb (laneOf e.1) then
        (e.1, { e.2 with recalled := true }) else e }

/-- A thread enters Waiting. -/
def waitThread (s : State) (t : ThreadKey) (w : Wait) : State :=
  modThread s t fun th => { th with status := .live (.waiting w) }

/-- Arrival at a mask (R89): a VOTE allocates its slot and captures its predicate. -/
def arriveMask (s : State) (ts : List ThreadKey) (k : Fin 12) (vote : Option (VoteForm × Src × PDst)) : State :=
  let tag := s.seq
  let s1 := ts.foldl (fun a t =>
    match vote with
    | none => waitThread a t (.mask k none tag)
    | some (f, src, d) =>
      waitThread (giveThread a t d 0 0 (some tag)) t (.mask k (some (f, readSrc s t 0 src != 0)) tag)) s
  { (warpsOf ts).foldl (fun a w => recallMembers a w k) s1 with seq := s.seq + 1 }

def execWaitk (k : Fin 12) (st : Stall) (s : State) :=
  issue (.waitk k st) (fun ts s => .done (arriveMask s ts k none) (advance s ts)) s

def voteWord (i : Instr) (f : VoteForm) (a : Src) (k : Fin 12) (d : PDst) (s : State) :=
  issue i (fun ts s => .done (arriveMask s ts k (some (f, a, d))) (advance s ts)) s

def execVoteAll (a : Src) (k : Fin 12) (d : PDst) (st : Stall) (s : State) := voteWord (.voteAll a k d st) .all a k d s
def execVoteAny (a : Src) (k : Fin 12) (d : PDst) (st : Stall) (s : State) := voteWord (.voteAny a k d st) .any a k d s
def execVoteBal (a : Src) (k : Fin 12) (d : PDst) (st : Stall) (s : State) := voteWord (.voteBal a k d st) .bal a k d s
def execVoteCnt (a : Src) (k : Fin 12) (d : PDst) (st : Stall) (s : State) := voteWord (.voteCnt a k d st) .cnt a k d s

/-- A thread waits at mask k, and its vote. -/
def maskWait (th : Thread) (k : Fin 12) : Option (Option (VoteForm × Bool) × Nat) :=
  match th.wait? with
  | some (.mask j v tag) => if j = k then some (v, tag) else none
  | _ => none

/-- R90: the ballot of the members of a mask. -/
def ballot (s : State) (w : WarpKey) (m : BitVec 32) (k : Fin 12) : BitVec 32 :=
  s.threads.foldl (fun b e =>
    if warpKeyOf e.1 = w ∧ m.getLsb (laneOf e.1) then
      match maskWait e.2 k with
      | some (some (_, true), _) => b ||| (1#32 <<< (laneOf e.1).val)
      | _ => b
    else b) 0

/-- R90: the value of a VOTE form. -/
def voteValue (f : VoteForm) (m b : BitVec 32) : Word :=
  match f with
  | .all => boolWord (b == m)
  | .any => boolWord (b != 0)
  | .bal => BitVec.ofNat 64 b.toNat
  | .cnt => BitVec.ofNat 64 (popCount 32 b.toNat)

/-- R89: every member of k waits on k, and some thread waits on k. -/
def maskReady (s : State) (w : WarpKey) (k : Fin 12) : Bool :=
  let m := maskOfWarp s w k
  (s.threads.any fun e => decide (warpKeyOf e.1 = w) && (maskWait e.2 k).isSome) &&
  (List.finRange 32).all fun l =>
    !m.getLsb l ||
      s.threads.any fun e => decide (warpKeyOf e.1 = w ∧ laneOf e.1 = l) && (maskWait e.2 k).isSome && e.2.away.isNone

/-- The release of mask k of a home warp is due: its condition held in the cycle before (R89). -/
def maskDue (s : State) (w : WarpKey) (k : Fin 12) : Bool := ((tget s.warps w).map fun x => x.freed.getLsbD k.val).getD false

/-- At the end of a die cycle, the masks of a home warp whose condition holds (R89). -/
def noteMasks (s : State) (w : WarpKey) : State :=
  modWarp s w fun x => { x with freed := (List.finRange 12).foldl (fun b k =>
    if maskReady s w k then b ||| (1#12 <<< k.val) else b) x.freed }

/-- A released thread: WAKE 1; it may issue from the cycle after the release (R89). -/
def releaseOne (s : State) (t : ThreadKey) : State :=
  wakeThread (modThread s t fun th => { th with readyAt := max th.readyAt (cycOf s th.place.core + 1) }) t 1

/-- MASK_RELEASE (R89, R90), in the cycle after the condition held: every thread of the home warp Waiting on k is released with
the value of its form. -/
def execMaskRelease (gid : Nat) (hwarp : Fin 16) (k : Fin 12) (s : State) : Host.Outcome State Fault Refusal :=
  let w := WarpKey.home gid hwarp
  if maskDue s w k then
    let m := maskOfWarp s w k
    let b := ballot s w m k
    .next ((threadsOfWarp s w).foldl (fun a t =>
      match (threadOf s t).bind (maskWait · k) with
      | none => a
      | some (v, tag) =>
        let a1 := match v with
          | some (f, _) => deliverTo a t tag (voteValue f m b)
          | none => a
        releaseOne a1 t) (modWarp s w fun x => { x with freed := x.freed &&& ~~~(1#12 <<< k.val) }))
  else .next s

/-! ### Ending (R93) and traps (R95) -/

/-- `EXIT` waits for these of the thread's accesses: queued stores, unserved STS entries, return-free atomics. -/
def storesOutstanding (s : State) (t : ThreadKey) : Bool :=
  (s.slots.any fun e => e.2.storeq.any fun x => x.thread = t) ||
  (s.banks.any fun e => match e.body with
    | .sts _ => e.lanes.any fun l => l.thread = t
    | _ => false) ||
  (s.packets.any fun e => e.2.atom.isSome && e.2.threads.contains t) ||
  (s.ops.any fun e => match e.2.body with
    | .atomic _ _ _ items _ => items.any fun x => x.thread = t && x.tag.isNone
    | _ => false)

/-- An Exiting thread whose accesses have all been accepted ends (R76). -/
def finishExits (s : State) : State :=
  s.threads.foldl (fun a e =>
    if e.2.status = .live .exiting ∧ storesOutstanding s e.1 = false then endThread a e.1 else a) s

def execExit (st : Stall) (s : State) :=
  issue (.exit st) (fun ts s =>
    .done (ts.foldl (fun a t =>
        if storesOutstanding s t then modThread a t fun th => { th with status := .live .exiting }
        else endThread a t) s)
      (advance s ts)) s

def execTail (st : Stall) (s : State) :=
  issue (.tail st) (fun ts s => .done (ts.foldl endThread s) (advance s ts)) s

/-- `TRAP n` (R95): the recorded PC is that of the next word, the detail is n. -/
def execTrap (num : BitVec 6) (st : Stall) (s : State) :=
  issue (.trap num st) (fun ts s =>
    .faults (ts.map fun t => ⟨t, .trap, pcOf s t + 4, num.toNat, 0, none⟩)) s

def execBrk (st : Stall) (s : State) :=
  issue (.brk st) (fun ts s => .faults (ts.map fun t => plainFault s t .brk)) s

/-! ### Special registers (R96 to R99) -/

/-- PLACE (R97). -/
def placeBits (th : Thread) : Nat :=
  (if th.away.isSome then 2 ^ 31 else 0) + th.place.slot.val * 2 ^ 18 + th.place.core.core.val * 2 ^ 11 +
    th.place.core.die.val * 2 ^ 8 + th.place.lane.val

/-- WAKE (R98). -/
def wakeBits (w : Wake) : Nat := (if w.saved then 512 else 0) + (if w.dozed then 256 else 0) + w.reason

/-- MISSCNT (R99). -/
def missBits (c : Core) : Nat :=
  c.miss[0] + c.miss[1] * 2 ^ 16 + c.miss[2] * 2 ^ 32 + c.miss[3] * 2 ^ 48

/-- The value of a special register for a thread (R96). -/
def specialValue (s : State) (t : ThreadKey) (th : Thread) (sp : Special) : Nat :=
  let g := groupOfThread s t
  match sp with
  | .tid => 32 * (hwarpOf t).val + (laneOf t).val
  | .lane => (laneOf t).val
  | .hwarp => (hwarpOf t).val
  | .group => (g.map (·.group.val)).getD 0
  | .gang => (g.map (·.gang.toNat)).getD 0
  | .launch => (g.map (·.launch.toNat)).getD 0
  | .core => th.place.core.core.val
  | .die => th.place.core.die.val
  | .slot => th.place.slot.val
  | .place => placeBits th
  | .ctx => ctxIdOf s t
  | .tenant => (tenantOfCtx s (ctxIdOf s t)).val
  | .pkg => s.boot.latched.toNat
  | .clock => s.clock
  | .wake => if t.isHandler then 0 else wakeBits th.wake
  | .misscnt => missBits (coreOf s th.place.core)

def execSrd (sp : Special) (d : PDst) (st : Stall) (s : State) :=
  issue (.srd sp d st) (fun ts s =>
    .done (ts.foldl (fun x t =>
        match threadOf s t with
        | none => x
        | some th => giveThread x t d (BitVec.ofNat 64 (specialValue s t th sp)) (cycOf s s.focus.core + latShort) none) s)
      (advance s ts)) s

end Sys2Proof.Machine
end

