-- ==== Sys2Proof/Machine/Memory.lean ====
section
/-! DEFINITION. The device-memory words LD, ST, ATOM, ACAS, FENCE, WAITA, HINT PREF and MHINT, and the events that let
their accesses take effect (spec/08_line.md R197 to R221; spec/09_order.md R228, R229; spec/07_page.md R188). -/

namespace Sys2Proof.Machine

/-! ### Where an access executes (R198, R199) -/

/-- The clock of a die, in MHz (R8, R408). -/
def dieMhz (d : Die) : Nat := 200 + 25 * d.step

/-- Where Place 00 and 10 send an access: `atomic` for ATOM and ACAS (DEDUCED, unsafe: notes/assumptions/23.md). -/
def placePoint (place : Nat) (atomic : Bool) (wide : Bool) (a : Attr) : Point :=
  if a.remote then .home
  else if a.carve then .cache
  else if place = 2 then .home
  else if atomic && (a.redWin || (wide && a.shared)) then .home
  else .cache

/-- What the locality monitor decides (R199): a point or a migration, and the streak counter and row. -/
structure Locality where
  point : Option Point
  streak : Nat
  row : Fin 4
  deriving DecidableEq, Repr

/-- R200. -/
def streakUp (th : Thread) (row : Fin 4) : Nat × Fin 4 :=
  if row = th.streakRow ∧ 1 ≤ th.streak then (min (th.streak + 1) 3, th.streakRow) else (1, row)

/-- The kernel of a thread has a travelling subset (R286). -/
def migratable (s : State) (t : ThreadKey) : Bool := ((groupOfThread s t).map (·.hdr.migrate)).getD false

/-- The locality monitor of R199. -/
def locality (s : State) (t : ThreadKey) (th : Thread) (x : Xlat) (atomic wide : Bool) : Locality :=
  let keep (p : Point) : Locality := ⟨some p, th.streak, th.streakRow⟩
  if x.attr.carve || x.attr.remote then keep (placePoint 0 atomic wide x.attr)
  else if atomic then keep (if x.attr.shared then .home else .cache)
  else if !x.attr.shared && ((l2Of s th.place.core.die (lineOf x.loc)).map fun l => !l.stale).getD false then keep .cache
  else if rowOfStack (stackOf x.pa) = rowOfDie th.place.core.die then ⟨some .cache, 0, th.streakRow⟩
  else
    let u := streakUp th (rowOfStack (stackOf x.pa))
    if u.1 = 3 ∧ migratable s t ∧ th.away.isNone then ⟨none, u.1, u.2⟩ else ⟨some .cache, u.1, u.2⟩

/-- The attributes of an access: its page's, and the fields of its MOD and DLN (R36, R38). -/
def attrFor (s : State) (x : Xlat) (p : Pfx) : Attr :=
  let m := p.mod.getD 0
  { x.attr with cls := if modClassSet m then modClass m else x.attr.cls
                cacheOp := Fin.ofNat 8 (modCache m)
                deadline := p.dln.map fun d => s.clock + 64 * d.toNat }

/-- The scope that acts: wider scopes act on carve-out lines as die scope (R196) (DEDUCED, unsafe: notes/assumptions/30.md). -/
def effScope (a : Attr) (sc : Scope) : Scope :=
  if a.carve then (match sc with
    | .core => .core
    | _ => .die) else sc

def isWide : Scope → Bool
  | .pkg => true
  | .sys => true
  | _ => false

def orderAcq (m : BitVec 14) : Bool := modOrder m == 1 || modOrder m == 3
def orderRel (m : BitVec 14) : Bool := modOrder m == 2 || modOrder m == 3

/-- A checked access of one thread (R203). -/
structure Plan where
  thread : ThreadKey
  va : Nat
  x : Xlat
  attr : Attr
  loc : Locality
  deriving DecidableEq, Repr

/-- The checks of R203 for one thread: alignment, translation; then the point. -/
def planOne (s : State) (t : ThreadKey) (va size : Nat) (need : Need) (atomic : Bool) :
    (FaultRec ⊕ Plan) × State :=
  let p := pfxOf s t
  let m := p.mod.getD 0
  if va % size ≠ 0 then (.inl (addrFault s t .align va), s)
  else
    let r := translateFor s t va need
    match r.1 with
    | .page => (.inl (addrFault s t .page va), r.2)
    | .viol k => (.inl (violFault s t k 0 va), r.2)
    | .ok x =>
      match threadOf s t with
      | none => (.inl (plainFault s t .page), r.2)
      | some th =>
        let wide := isWide (scopeOfMod m)
        let l : Locality := if modPlace m = 1 then locality r.2 t th x atomic wide
          else ⟨some (placePoint (modPlace m) atomic wide x.attr), th.streak, th.streakRow⟩
        (.inr ⟨t, va, x, { attrFor s x p with va := va }, l⟩, r.2)

/-- The checks of a whole issue group, in order. -/
def planAll (s : State) (size : Nat) (need : Need) (atomic : Bool) (va : ThreadKey → Nat) :
    List ThreadKey → List FaultRec × List Plan × State
  | [] => ([], [], s)
  | t :: ts =>
    let r := planOne s t (va t) size need atomic
    let q := planAll r.2 size need atomic va ts
    match r.1 with
    | .inl f => (f :: q.1, q.2)
    | .inr p => (q.1, p :: q.2.1, q.2.2)

/-- The streak of a thread after its marked access. -/
def setStreak (s : State) (p : Plan) : State :=
  modThread s p.thread fun th => { th with streak := p.loc.streak, streakRow := p.loc.row }

/-- The threads whose access migrates begin their departure (R287); the word has no effect for them yet. -/
def startMigrations (s : State) (ps : List Plan) : State :=
  ps.foldl (fun a p =>
    if p.loc.point.isNone then
      modThread a p.thread fun th => { th with leaving := some ⟨0, stackOf p.x.pa, .push, BitVec.ofNat 64 p.va, 0⟩ }
    else a) (ps.foldl setStreak s)

/-! ### What a thread still has outstanding -/

/-- The thread has a part in the operation. -/
def Op.has (o : Op) (t : ThreadKey) : Bool := o.threads.contains t

def Op.isMem (o : Op) : Bool :=
  match o.body with
  | .returns _ _ => false
  | _ => true

/-- The thread has a part in the packet, a return-free atomic. -/
def Packet.has (k : Packet) (t : ThreadKey) : Bool := k.atom.isSome && k.threads.contains t

/-- The acquire of an operation. -/
def Op.acq? (o : Op) : Option Scope :=
  match o.body with
  | .load _ _ _ _ _ _ _ acq _ => acq
  | .atomic _ _ _ _ acq => acq
  | .returns _ _ => none
  | .back _ acq => acq

/-- A load, atomic or acquire of the thread has not returned (R207). -/
def memPending (s : State) (t : ThreadKey) : Bool := s.ops.any fun e => e.2.isMem && e.2.has t

/-- An acquire of the thread has not returned; no later access of the thread issues (R206, R207). -/
def acqPending (s : State) (t : ThreadKey) : Bool := s.ops.any fun e => e.2.acq?.isSome && e.2.has t

/-- A store of the thread has not been accepted. -/
def storePending (s : State) (t : ThreadKey) : Bool := s.slots.any fun e => e.2.storeq.any fun x => x.thread = t

def packetPending (s : State) (t : ThreadKey) : Bool := s.packets.any fun e => e.2.has t

/-- Scratchpad accesses of the thread that have not taken effect (R168, R230). -/
def bankPending (s : State) (t : ThreadKey) : Bool := s.banks.any fun e => e.lanes.any fun l => l.thread = t

/-- The accesses that a release of a scope by the thread waits for are accepted and returned (R206, R207)
(DEDUCED, safe: notes/assumptions/22.md). -/
def releaseReady (s : State) (sc : Scope) (t : ThreadKey) : Bool :=
  !memPending s t && (sc == .core || (!storePending s t && !packetPending s t))

/-- The accesses that an acquire of a scope by the thread waits for (R207, R229). -/
def acquireReady (s : State) (sc : Scope) (t : ThreadKey) : Bool :=
  !memPending s t && (!isWide sc || (!storePending s t && !packetPending s t))

/-- The core where a thread is resident. -/
def coreOfThread (s : State) (t : ThreadKey) : CoreId := ((threadOf s t).map (·.place.core)).getD s.focus.core

/-- The release of each thread of a list, each at its scope (R206). -/
def releaseAll (s : State) (l : List (ThreadKey × Scope)) : State :=
  l.foldl (fun a e => releaseAct a (coreOfThread a e.1).die (ctxIdOf a e.1) e.2) s

/-- The acquire of each core's threads; one action per core and scope (R206). -/
def acquireAll (s : State) (l : List (ThreadKey × Scope)) : State :=
  (dedup (l.map fun e => (coreOfThread s e.1, e.2))).foldl (fun a e => acquireAct a e.1 e.2) s

/-! ### LD and ST at issue (R202 to R204) -/

/-- The address of a format M word for a thread. -/
def memAddr (s : State) (t : ThreadKey) (a : Src) (off : BitVec 8) (w : MemW) : Nat :=
  (readSrc s t 0 a + offOf (pfxOf s t) off (memSize w)).toNat

def loadOp (s : State) (p : Plan) (w : MemW) (tag : Nat) : Op :=
  let m := (pfxOf s p.thread).mod.getD 0
  let acq := if orderAcq m then some (effScope p.attr (scopeOfMod m)) else none
  let pt := match acq with
    | some .pkg => Point.home
    | some .sys => Point.home
    | _ => p.loc.point.getD .cache
  { core := coreOfThread s p.thread, warp := warpKeyOf p.thread, threads := [p.thread], crucible := false
    body := .load p.thread p.x.loc (memSize w) (memSigned w) tag pt p.attr acq (modPlace m == 2) }

/-- One thread's load is outstanding; its destination waits for it (R28). -/
def postLoad (s : State) (p : Plan) (d : PDst) (w : MemW) : State :=
  let tag := s.seq
  giveThread { s with ops := tset s.ops tag (loadOp s p w tag), seq := s.seq + 1 } p.thread d 0 0 (some tag)

/-- The plans that take effect where the threads are. -/
def staying (ps : List Plan) : List Plan := ps.filter fun p => p.loc.point.isSome

def execLd (a : Src) (d : PDst) (w : MemW) (off : BitVec 8) (st : Stall) (s : State) :=
  issue (.ld a d w off st) (fun ts s =>
    if ts.any (acqPending s) then .hold
    else match planAll s (memSize w) ⟨true, false, false⟩ false (fun t => memAddr s t a off w) ts with
      | (f :: fs, _) => .faults (f :: fs)
      | ([], ps, s1) =>
        .done ((staying ps).foldl (fun x p => postLoad x p d w) (startMigrations s1 ps))
          (advance s ((staying ps).map (·.thread)))) s

/-- One thread's store enters the store queue of its warp (R204); `word` numbers the word of its issue group. -/
def postStore (s : State) (word : Nat) (p : Plan) (data : Word) (size : Nat) (through : Bool) : State :=
  match threadOf s p.thread with
  | none => s
  | some th =>
    markFilter (modSlot { s with seq := s.seq + 1 } th.place.core th.place.slot fun q =>
      { q with storeq := q.storeq ++ [{ id := s.seq, word := word, thread := p.thread, pa := p.x.loc, data := natBytes size data.toNat,
                                        point := p.loc.point.getD .cache, attr := p.attr, through := through,
                                        applied := false }] }) p.thread p.x

/-- The release that an access performs (R208). -/
def relOf (s : State) (p : Plan) : Option (ThreadKey × Scope) :=
  let m := (pfxOf s p.thread).mod.getD 0
  if orderRel m then some (p.thread, effScope p.attr (scopeOfMod m)) else none

def execStore (a : Src) (d : Src) (w : MemW) (off : BitVec 8) (st : Stall) (s : State) :=
  issue (.store a d w off st) (fun ts s =>
    if ts.any (acqPending s) then .hold
    else match planAll s (memSize w) ⟨false, true, false⟩ false (fun t => memAddr s t a off w) ts with
      | (f :: fs, _) => .faults (f :: fs)
      | ([], ps, s1) =>
        let rels := (staying ps).filterMap (relOf s)
        if rels.any fun e => !releaseReady s e.2 e.1 then .hold
        else
          .done ((staying ps).foldl (fun x p =>
              postStore x s.seq p (readSrc s p.thread 1 d) (memSize w) (((relOf s p).map fun e => isWide e.2).getD false))
              (releaseAll (startMigrations s1 ps) rels))
            (advance s ((staying ps).map (·.thread)))) s

/-! ### ATOM and ACAS at issue (R211 to R216) -/

def widthBytes (n : Width) : Nat := widthBits n / 8

/-- R386: the atomics that host memory takes, of those that the host advertises; every other is a violation of Kind 7
(DEDUCED, unsafe: notes/assumptions/26.md). -/
def hostAtomOk (s : State) (loc : Nat) (cas : Bool) (n : Width) (op : AtomOp) : Bool :=
  let has (i : Nat) : Bool := (hostAtomics s loc).getLsbD i
  if cas then n == .w64 && has 4
  else match op with
    | .add => has (if n = .w64 then 1 else 0)
    | .exch => has (if n = .w64 then 3 else 2)
    | _ => false

def hostAtomFaults (s : State) (ps : List Plan) (cas : Bool) (n : Width) (op : AtomOp) (va : ThreadKey → Nat) :
    List FaultRec :=
  ps.filterMap fun p => if p.x.attr.remote && !hostAtomOk s p.x.loc cas n op then some (violFault s p.thread 7 0 (va p.thread)) else none

/-- The pending atomic of an issue group, with its owed registers. -/
def postAtomic (s : State) (core : CoreId) (ps : List Plan) (cas : Bool) (n : Width) (op : AtomOp) (x y : ThreadKey → Word)
    (d : Option PDst) (acq : Option Scope) : State :=
  match ps with
  | [] => s
  | p0 :: _ =>
    let tag := s.seq
    let items := ps.map fun p : Plan =>
      { thread := p.thread, pa := p.x.loc, p := x p.thread, c := y p.thread, tag := d.map fun _ => tag, attr := p.attr,
        point := p.loc.point.getD .cache : AtomItem }
    let o : Op := { core := core, warp := warpKeyOf p0.thread, threads := ps.map (·.thread), crucible := false
                    body := .atomic cas (widthBytes n) op items acq }
    let s1 := ps.foldl (fun a p => markFilter a p.thread p.x) { s with ops := tset s.ops tag o, seq := s.seq + 1 }
    match d with
    | none => s1
    | some k => ps.foldl (fun a p => giveThread a p.thread k 0 0 (some tag)) s1

/-- The return-free atomics of an issue group to one word, on their way to its home stack (R213, R215, R372). -/
def wordPacket (s : State) (p : Plan) (same : List Plan) (n : Width) (op : AtomOp) (x : ThreadKey → Word) : Packet :=
  { op := none, threads := same.map (·.thread), stack := stackOf p.x.pa, pa := p.x.loc, red := none
    atom := some (op, widthBytes n), values := same.map fun q => x q.thread, counts := [], redWin := p.attr.redWin
    cls := p.attr.cls, deadline := p.attr.deadline, core := coreOfThread s p.thread, ctx := ctxIdOf s p.thread, more := []
    sent := [], applied := false }

/-- One packet for each word that the atomics name. -/
def postPackets (s : State) (ps : List Plan) (n : Width) (op : AtomOp) (x : ThreadKey → Word) : State :=
  let words := dedup (ps.map fun p => p.x.loc)
  let s1 := words.foldl (fun a w =>
    let same := ps.filter fun p => p.x.loc = w
    match same with
    | [] => a
    | p :: _ => { a with packets := tset a.packets a.seq (wordPacket s p same n op x), seq := a.seq + 1 }) s
  ps.foldl (fun a p => markFilter a p.thread p.x) s1

/-- ATOM and ACAS: the checks, the release, and the pending accesses. -/
def atomWord (i : Instr) (cas : Bool) (n : Width) (op : AtomOp) (a : Src) (x y : State → ThreadKey → Word) (d : PDst)
    (s : State) : Host.Outcome State Fault Refusal :=
  issue i (fun ts s =>
    let va (t : ThreadKey) : Nat := (readSrc s t 0 a).toNat
    if ts.any (acqPending s) then .hold
    else match planAll s (widthBytes n) ⟨true, true, false⟩ true va ts with
      | (f :: fs, _) => .faults (f :: fs)
      | ([], ps, s1) =>
        match hostAtomFaults s ps cas n op va with
        | f :: fs => .faults (f :: fs)
        | [] =>
          let rels := ps.filterMap (relOf s)
          if rels.any fun e => !releaseReady s e.2 e.1 then .hold
          else
            let m := ((ts.head?).map fun t => (pfxOf s t).mod.getD 0).getD 0
            let acq := if orderAcq m then some (scopeOfMod m) else none
            let s2 := releaseAll (startMigrations s1 ps) rels
            let red (p : Plan) : Bool := modNoRet m && acq.isNone && p.loc.point == some .home && !p.attr.remote
            let s3 := postPackets s2 (ps.filter red) n op (x s)
            .done (postAtomic s3 s.focus.core (ps.filter fun p => !red p) cas n op (x s) (y s)
                (if modNoRet m then none else some d) acq)
              (advance s ts)) s

def execAtom (n : Width) (op : AtomOp) (a b : Src) (d : PDst) (st : Stall) (s : State) :=
  atomWord (.atom n op a b d st) false n op a (fun s t => readSrc s t 1 b) (fun _ _ => 0) d s

/-- The destination of an F word without W (R22). -/
def cPDst (c : Src) : PDst :=
  match c with
  | .n k => .named k
  | _ => .push

def execAcas (n : Width) (a b c : Src) (st : Stall) (s : State) :=
  atomWord (.acas n a b c st) true n .exch a (fun s t => readSrc s t 1 b) (fun s t => readSrc s t 2 c) (cPDst c) s

/-! ### FENCE (R209, R210, R230) -/

/-- A FENCE may act for a thread. -/
def fenceReady (s : State) (sc : Scope) (k : FenceKind) (t : ThreadKey) : Bool :=
  !bankPending s t &&
  match k with
  | .acq => acquireReady s sc t
  | .rel => releaseReady s sc t
  | .ar => releaseReady s sc t && acquireReady s sc t &&
      !(sc == .core && (((threadOf s t).map fun th =>
        !(slotOf s th.place.core th.place.slot).storeq.isEmpty).getD false))

def execFence (scope : Scope) (kind : FenceKind) (st : Stall) (s : State) :=
  issue (.fence scope kind st) (fun ts s =>
    if ts.all (fenceReady s scope kind) then
      let l := ts.map fun t => (t, scope)
      let s1 := if kind = .acq then s else releaseAll s l
      .done (if kind = .rel then s1 else acquireAll s1 l) (advance s ts)
    else .hold) s

/-! ### Loads and atomics take effect: RESULT_RETURN -/

/-- A range overlaps another. -/
def overlaps (a n b m : Nat) : Bool := decide (a < b + m) && decide (b < a + n)

/-- The lines and the ordered mark of the accesses of an operation by a thread (R228: through the cache or at the slice). -/
def Op.touch (o : Op) (t : ThreadKey) : List (Nat × Bool) :=
  match o.body with
  | .load k pa _ _ _ pt _ _ _ => if k = t then [(lineOf pa, pt == .cache)] else []
  | .atomic _ _ _ items _ => (items.filter fun x => x.thread = t).map fun x => (lineOf x.pa, x.point == .cache)
  | .returns _ _ => []
  | .back _ _ => []

/-- An older load or atomic of the thread that has not taken effect holds back an access of line `ln` (R224, R228). -/
def opHolds (s : State) (id : Nat) (t : ThreadKey) (ln : Nat) (ordered : Bool) : Bool :=
  s.ops.any fun e => decide (e.1 < id) && (e.2.touch t).any fun x => x.1 == ln || (x.2 && ordered)

/-- An older operation of the thread holds back an access of line `ln`: a load or an atomic, or a return-free atomic to the line
(R215, R224, R228). -/
def olderHolds (s : State) (id : Nat) (t : ThreadKey) (ln : Nat) (ordered : Bool) : Bool :=
  opHolds s id t ln ordered ||
    s.packets.any fun e => decide (e.1 < id) && e.2.has t && !e.2.applied && lineOf e.2.pa == ln

/-- Older stores of the thread that stand in a store queue and have not taken effect. -/
def queuedOlder (s : State) (id : Nat) (t : ThreadKey) : List Store :=
  s.slots.flatMap fun e => e.2.storeq.filter fun x => decide (x.thread = t) && decide (x.id < id) && !x.applied

/-- What an acquire of a scope waits for (R207, R229): every older load and atomic of the thread has returned; at package and system
scope, its stores and return-free atomics too. -/
def acquireClear (s : State) (id : Nat) (t : ThreadKey) (acq : Option Scope) : Bool :=
  match acq with
  | none => true
  | some sc => !(s.ops.any fun e => decide (e.1 < id) && e.2.isMem && e.2.has t) &&
      (!isWide sc || (!storePending s t && !packetPending s t))

/-- Queued data laid over what a load has read (R204). -/
def forwardStores (loc : Nat) (q : List Store) (bytes : List Byte) : List Byte :=
  bytes.zipIdx.map fun b =>
    q.foldl (fun v x => if x.pa ≤ loc + b.2 ∧ loc + b.2 < x.pa + x.data.length then
      x.data.getD (loc + b.2 - x.pa) v else v) b.1

/-- The load may take effect: older accesses first where R224, R228 and R229 say so; stores to its line first where it
reads at home (R201) (DESIGN CHOICE, unsafe: notes/assumptions/18.md) (DEDUCED, unsafe: notes/assumptions/24.md). -/
def loadReady (s : State) (id : Nat) (t : ThreadKey) (pa : Nat) (pt : Point) (acq : Option Scope) : Bool :=
  !olderHolds s id t (lineOf pa) (pt == .cache) &&
  (pt == .cache || (queuedOlder s id t).all fun x => lineOf x.pa != lineOf pa) && acquireClear s id t acq

/-- R23: the value that a load pushes. -/
def loadValue (size : Nat) (sx : Bool) (bytes : List Byte) : Word :=
  if sx then sext (8 * size) (bytesNat bytes : Nat) else BitVec.ofNat 64 (bytesNat bytes)

/-- A load reads at its point, with the actions of its order (R204, R208). -/
def loadRead (s : State) (id : Nat) (c : CoreId) (t : ThreadKey) (pa size : Nat) (pt : Point) (a : Attr)
    (acq : Option Scope) (mem : Bool) : List Byte × State :=
  let ctx := ctxIdOf s t
  let l1 := match acq with
    | some .core => true
    | none => true
    | _ => false
  let r := match pt with
    | .cache => cacheRead s c l1 pa size a ctx (some t)
    | .home => homeRead s c pa size a
  let bytes := forwardStores pa (queuedOlder s id t) r.1
  match acq with
  | none => (bytes, r.2)
  | some sc =>
    let s1 := acquireAct r.2 c sc
    (bytes,
      if isWide sc && !mem && !a.remote && !a.carve && (l2Of s1 c.die (lineOf pa)).isNone then
        l2Fill s1 c.die (lineOf pa) a ctx
      else s1)

/-- Posts the DRAM requests of an operation (R364). -/
def askOp (s : State) (id : Nat) (o : Op) (asks : List ((Nat × Nat) × Attr)) (ctx : Nat) : State :=
  asks.foldl (fun x q => postRequest x (some id) o.core ctx q.2 q.1) s

/-- A core's L1 copy of a line goes: the thread has read the word beyond the L1, and does not read an older one later (R190, R224). -/
def dropL1 (s : State) (c : CoreId) (ln : Nat) : State := modCore s c fun k => { k with l1 := tdel k.l1 ln }

/-- One access of an atomic at its point (R212, R216): the old value, and the state after. -/
def atomApply (s : State) (id : Nat) (c : CoreId) (cas : Bool) (size : Nat) (op : AtomOp) (x : AtomItem) : Word × State :=
  let ctx := ctxIdOf s x.thread
  let n : Width := if size = 8 then .w64 else .w32
  let r := match x.point with
    | .cache => cacheRead s c false x.pa size x.attr ctx (some x.thread)
    | .home => homeRead s c x.pa size x.attr
  let old := BitVec.ofNat 64 (bytesNat r.1)
  if cas then
    if old.toNat = zval (8 * size) x.p then
      (old, taintMem (writeAt r.2 x.point c x.pa (natBytes size x.c.toNat) x.attr ctx (some x.thread) false) id x.pa size)
    else (old, dropL1 r.2 c (lineOf x.pa))
  else
    (old, taintMem (writeAt r.2 x.point c x.pa (natBytes size (atomNew op n old x.p).toNat) x.attr ctx (some x.thread) false)
      id x.pa size)

/-- The accesses of an issue group's atomic, one after another (R215): the values that return, and the state after. -/
def atomRun (s : State) (id : Nat) (c : CoreId) (cas : Bool) (size : Nat) (op : AtomOp) (items : List AtomItem) :
    List (ThreadKey × Nat × Word) × State :=
  items.foldl (fun a x =>
    let r := atomApply a.2 id c cas size op x
    (match x.tag with
      | some tag => a.1 ++ [(x.thread, tag, r.1)]
      | none => a.1, r.2)) ([], s)

/-- The atomic of an issue group may take effect. -/
def atomReady (s : State) (id : Nat) (items : List AtomItem) (acq : Option Scope) : Bool :=
  items.all fun x =>
    !olderHolds s id x.thread (lineOf x.pa) (x.point == .cache) &&
    (queuedOlder s id x.thread).all (fun q => x.point == .home && lineOf q.pa != lineOf x.pa) &&
    acquireClear s id x.thread acq

/-- R196, for the acquire of an atomic: the scope for the threads of its items. -/
def atomAcquire (s : State) (items : List AtomItem) (acq : Option Scope) : State :=
  match acq with
  | none => s
  | some sc => acquireAll s (items.map fun x => (x.thread, effScope x.attr sc))

/-- The crucible commands of a home warp that have not taken effect or not delivered their results (R167): entries in the banks,
results not delivered together (R150), and threads parked in BWAIT. -/
def crucibleOut (s : State) (w : WarpKey) : List Nat :=
  (s.banks.filterMap fun e => match e.body with
    | .lds _ _ => none
    | .sts _ => none
    | _ => if e.lanes.any fun l => decide (warpKeyOf l.thread = w) then some e.word else none) ++
  tkeys s.ops (fun _ o => o.crucible && decide (o.warp = w)) ++
  s.threads.filterMap fun e => match e.2.wait? with
    | some (.barrier _ _ _ tag) => if warpKeyOf e.1 = w then some tag else none
    | _ => none

/-- R167: CWAIT ends when none of the commands it waits for is left. -/
def settleCrucible (s : State) : State :=
  (tkeys s.threads fun t th => match th.wait? with
    | some (.crucible l) => l.all fun id => !(crucibleOut s (warpKeyOf t)).contains id
    | _ => false).foldl (fun a t => wakeThread a t 8) s

/-- The thread has a return-free atomic that is not accepted (R213). -/
def nrPending (s : State) (t : ThreadKey) : Bool :=
  packetPending s t || s.ops.any fun e => match e.2.body with
    | .atomic _ _ _ items _ => items.any fun x => decide (x.thread = t) && x.tag.isNone
    | _ => false

/-- CPWAIT on token 0 ends when every earlier return-free atomic of the thread is accepted (R249). -/
def settleToken0 (s : State) : State :=
  (tkeys s.threads fun t th => match th.wait? with
    | some (.token none _) => !nrPending s t
    | _ => false).foldl (fun a t =>
      match (threadOf a t).bind Thread.wait? with
      | some (.token none tag) => wakeThread (deliverTo a t tag 0) t 6
      | _ => a) s

/-- The waits that accepted and returned accesses end: Exiting threads, CWAIT, CPWAIT on token 0. -/
def settleAccess (s : State) : State := settleToken0 (settleCrucible (finishExits s))

/-- The values of an operation return to the registers that wait for them. -/
def deliverAll (s : State) (id : Nat) (got : List (ThreadKey × Nat × Word)) : State :=
  settleAccess (got.foldl (fun a g => deliverTo a g.1 g.2.1 g.2.2) { s with ops := tdel s.ops id })

/-- An operation has taken effect. Its values return at once, or once the DRAM requests that it has posted are granted; so
requests to the same bytes take effect in the order in which they arrive (R366). -/
def tookEffect (s : State) (id : Nat) (o : Op) (got : List (ThreadKey × Nat × Word)) (acq : Option Scope)
    (asks : List ((Nat × Nat) × Attr)) : State :=
  if asks = [] then deliverAll s id got
  else askOp { s with ops := tset s.ops id { o with body := .back got acq } } id o asks
    ((o.threads.head?.map (ctxIdOf s)).getD 0)

/-- The link to a host of another package has failed since an access was issued: an error response, for its thread VIOL, Kind 7 (R397).
The entry stands at the thread's present PC, and a value that it was owed is free (DESIGN CHOICE, unsafe: notes/assumptions/119.md). -/
def lateFault (c : CoreId) (s : State) (x : ThreadKey × Attr) : State :=
  takeFaults s c [⟨x.1, .viol, pcOf s x.1, 0, BitVec.ofNat 64 x.2.va,
    some ⟨0, c.core.val, c.die.val, ctxIdOf s x.1, 7, 0, x.2.va⟩⟩]

/-- An operation takes effect and its results return (R28, R150, R204, R212): nothing happens before it may. -/
def returnOp (s : State) (id : Nat) (o : Op) : State :=
  match o.body with
  | .returns left got => if left ≠ 0 then s else deliverAll s id got
  | .back got _ => if requestsDone s id then deliverAll s id got else s
  | .load t pa size sx tag pt a acq mem =>
    if !loadReady s id t pa pt acq then s
    else if !linkUp s pa then
      lateFault o.core (deliverAll (bumpFree s) id [(t, tag, Config.freeWord s.freeCount 0)]) (t, a)
    else if !devicePasses s (ctxIdOf s t) pa false size then s
    else
      let r := loadRead (deviceSpend s (ctxIdOf s t) pa false size) id o.core t pa size pt a acq mem
      tookEffect r.2 id o [(t, tag, loadValue size sx r.1)] acq
        ((readAsks s pt o.core (acq.isNone || acq == some .core) pa size a (some t)).map fun q => (q, a))
  | .atomic cas size op items acq =>
    if !atomReady s id items acq || !(items.all fun x => devicePasses s (ctxIdOf s x.thread) x.pa true size) then s
    else
      let bad := items.filter fun x => !linkUp s x.pa
      let good := items.filter fun x => linkUp s x.pa
      let s0 := good.foldl (fun a x => deviceSpend a (ctxIdOf s x.thread) x.pa true size) s
      let r := atomRun (if bad = [] then s0 else bumpFree s0) id o.core cas size op good
      let lost := bad.filterMap fun x => x.tag.map fun tag => (x.thread, tag, Config.freeWord s.freeCount (laneOf x.thread).val)
      (bad.map fun x => (x.thread, x.attr)).foldl (lateFault o.core) (tookEffect (atomAcquire r.2 items acq) id o (r.1 ++ lost) acq
        (dedup (good.flatMap fun x =>
          (readAsks s x.point o.core false x.pa size x.attr (some x.thread)).map fun q => (q, { x.attr with va := 0 }))))

/-- RESULT_RETURN: the pending results of an operation return to the registers that wait for them. -/
def execResultReturn (op : Nat) (s : State) : Host.Outcome State Fault Refusal :=
  match tget s.ops op with
  | none => .next s
  | some o => .next (returnOp s op o)

/-! ### STORE_DRAIN (R204, R205) -/

/-- The oldest store may leave its queue: older loads and atomics of its thread have taken effect (R224, R228), and so have the stores
to the same bytes of the threads before it in its issue group, which may stand in other queues (R204). -/
def drainReady (s : State) (x : Store) : Bool :=
  !olderHolds s x.id x.thread (lineOf x.pa) (x.point == .cache) &&
  s.slots.all fun e => e.2.storeq.all fun y =>
    !(y.word == x.word && decide (y.id < x.id) && !y.applied && overlaps y.pa y.data.length x.pa x.data.length)

/-- The oldest store of a queue is applied at its point. -/
def applyStore (s : State) (c : CoreId) (x : Store) : State :=
  taintMem (writeAt (deviceSpend s (ctxIdOf s x.thread) x.pa true x.data.length) x.point c x.pa x.data x.attr (ctxIdOf s x.thread) (some x.thread) x.through) x.id x.pa x.data.length

/-- STORE_DRAIN: the oldest store takes effect, and is accepted at once or when its DRAM requests are granted (R205, R366). -/
def execStoreDrain (c : CoreId) (slot : Fin 64) (s : State) : Host.Outcome State Fault Refusal :=
  match (slotOf s c slot).storeq with
  | [] => .next s
  | x :: rest =>
    let left (y : State) : State := settleAccess (modSlot y c slot fun q => { q with storeq := rest })
    if x.applied then (if requestsDone s x.id then .next (left s) else .next s)
    else if !drainReady s x then .next s
    else if !linkUp s x.pa then .next (lateFault c (left s) (x.thread, x.attr))
    else if !devicePasses s (ctxIdOf s x.thread) x.pa true x.data.length then .next s
    else match writeAsks s x.point c x.pa x.data.length x.attr x.through (some x.thread) with
      | [] => .next (left (applyStore s c x))
      | asks => .next (postRequests (modSlot (applyStore s c x) c slot fun q =>
          { q with storeq := { x with applied := true } :: rest }) (some x.id) c (ctxIdOf s x.thread) x.attr asks)

/-- L2_EVICTION (R191): replacement evicts a victim of its slice, a line of the lowest rank that is not Pinned. -/
def execL2Eviction (d : Fin 8) (line : Nat) (s : State) : Host.Outcome State Fault Refusal :=
  if line ∈ victimsOf s d (sliceLines s d (sliceOf (line * 128))) then .next (evictLine s d line) else .next s

/-! ### WAITA (R217 to R221) -/

/-- R218: the read of a WAITA word, for a thread on a core (DEDUCED, unsafe: notes/assumptions/25.md). -/
def waitRead (s : State) (t : ThreadKey) (c : CoreId) (loc : Nat) (a : Attr) (acq : Option Scope) : Word × State :=
  let wide := match acq with
    | some sc => isWide sc
    | none => false
  let pt : Point := if a.remote || (wide && a.shared && !a.carve) then .home else .cache
  let s0 := postRequests (deviceSpend s (ctxIdOf s t) loc false 8) none c (ctxIdOf s t) a (readAsks s pt c false loc 8 a (some t))
  let r := match pt with
    | .home => homeRead s0 c loc 8 a
    | .cache => cacheRead (dropL1 s0 c (lineOf loc)) c false loc 8 a (ctxIdOf s t) (some t)
  (BitVec.ofNat 64 (bytesNat (forwardStores loc (queuedOlder s s.seq t) r.1)), r.2)

/-- The end of a watch: the word is read again and decides the code (R220). The home watch table's entry for the line and die stays until
a write at home or an eviction takes it (DESIGN CHOICE, unsafe: notes/assumptions/94.md). -/
def endWatch (s : State) (id : Nat) : State :=
  match tget s.watches id with
  | none => s
  | some x =>
    let c := coreOfThread s x.thread
    let r := waitRead s x.thread c x.pa x.attr x.acq
    let code : Nat := if r.1 ≠ x.expected then 0
      else if (match x.deadline with
        | some d => decide (d ≤ s.clock)
        | none => false) then 1 else 2
    let s1 := { r.2 with watches := tdel r.2.watches id }
    let s2 := match x.acq with
      | some sc => acquireAct s1 c sc
      | none => s1
    wakeThread (deliverTo s2 x.thread x.tag (BitVec.ofNat 64 code)) x.thread (code + 2)

/-- R219, R220: room in the tables; the oldest entries leave. -/
def evictWatches (s : State) (d : Fin 8) (sl : Fin 64) : State :=
  match tkeys s.watches fun _ w => decide (w.die = d ∧ w.slice = sl) && !w.hit && !w.saved with
  | id :: rest => if 256 ≤ rest.length + 1 then { s with watches := tmod s.watches id fun w => { w with hit := true } } else s
  | [] => s

def addHomeWatch (s : State) (d : Fin 8) (pa : Nat) : State :=
  let p := dramPlace s pa
  let e : HomeWatch := ⟨p.1, p.2.1, p.2.2.1, lineOf pa, d⟩
  if e ∈ s.homeWatches then s
  else
    let same := s.homeWatches.filter fun x => x.stack = p.1 ∧ x.pch = p.2.1 ∧ x.bank = p.2.2.1
    let s1 := match same with
      | o :: _ => if 16 ≤ same.length then
          { hitWatches s o.die o.line true with homeWatches := s.homeWatches.erase o } else s
      | [] => s
    { s1 with homeWatches := s1.homeWatches ++ [e] }

/-- A watch is registered (R219) and its thread enters Waiting. -/
def addWatch (s : State) (t : ThreadKey) (x : Xlat) (a : Attr) (expected : Word) (timeout : Nat) (acq : Option Scope)
    (tag : Nat) : State :=
  let c := coreOfThread s t
  let s1 := evictWatches s c.die (sliceOf x.pa)
  let f := dieMhz (dieOf s c.die)
  let w : Watch :=
    { thread := t, die := c.die, slice := sliceOf x.pa, pa := x.loc, shared := a.shared, expected := expected
      deadline := if timeout = 0 then none else some (s.clock + (timeout * 1600 + f - 1) / f)
      acq := acq, attr := a, tag := tag, hit := false, saved := false }
  let s2 := { s1 with watches := tset s1.watches tag w }
  waitThread (if a.shared && !a.carve then addHomeWatch s2 c.die x.loc else s2) t (.word tag)

/-- One thread's WAITA: it reads, and goes on or waits; in remote memory it never waits
(DEDUCED, unsafe: notes/assumptions/124.md). -/
def waitaOne (s : State) (p : Plan) (expected : Word) (timeout : Nat) (d : PDst) : State :=
  let t := p.thread
  let m := (pfxOf s t).mod.getD 0
  let acq := if orderAcq m then some (effScope p.attr (scopeOfMod m)) else none
  let tag := s.seq
  let r := waitRead { s with seq := s.seq + 1 } t (coreOfThread s t) p.x.loc p.attr acq
  if r.1 ≠ expected ∨ p.attr.remote = true then
    let s1 := match acq with
      | some sc => acquireAct r.2 (coreOfThread s t) sc
      | none => r.2
    giveThread s1 t d (if r.1 ≠ expected then 0 else 2) 0 none
  else addWatch (giveThread r.2 t d 0 0 (some tag)) t p.x p.attr expected timeout acq tag

def execWaita (a b c : Src) (st : Stall) (s : State) :=
  issue (.waita a b c st) (fun ts s =>
    if ts.any fun t => !acquireReady s (scopeOfMod ((pfxOf s t).mod.getD 0)) t then .hold
    else match planAll s 8 ⟨true, false, false⟩ false (fun t => (readSrc s t 0 a).toNat) ts with
      | (f :: fs, _) => .faults (f :: fs)
      | ([], ps, s1) =>
        if ps.any fun p => olderHolds s s.seq p.thread (lineOf p.x.loc) false ||
            !devicePasses s (ctxIdOf s p.thread) p.x.loc false 8 then .hold
        else
          .done (ps.foldl (fun x p =>
            waitaOne x p (readSrc s p.thread 1 b) ((readSrc s p.thread 2 c).toNat % 2 ^ 32) (cPDst c)) s1)
          (advance s ts)) s

/-- WATCH_DEADLINE (R220). -/
def execWatchDeadline (watch : Nat) (s : State) : Host.Outcome State Fault Refusal :=
  match tget s.watches watch with
  | some x => match x.deadline with
    | some d => if d ≤ s.clock ∧ x.saved = false then .next (endWatch s watch) else .next s
    | none => .next s
  | none => .next s

/-- WATCH_WAKE (R220): the watchers of a slice that a write or an eviction has reached, in registration order, at most 8. -/
def execWatchWake (d : Fin 8) (slice : Fin 64) (s : State) : Host.Outcome State Fault Refusal :=
  .next (((tkeys s.watches fun _ w => w.hit && !w.saved && decide (w.die = d ∧ w.slice = slice)).take 8).foldl endWatch s)

/-! ### HINT PREF (R35) -/

/-- An operand code (R19). -/
def codeSrc (c : Nat) : Src :=
  if c < 16 then .q (Fin.ofNat 16 c) else if c < 48 then .n (Fin.ofNat 32 (c - 16)) else .w (Fin.ofNat 16 (c - 48))

/-- A register that a prefetch may name: dropped otherwise (R291). -/
def prefReach (s : State) (t : ThreadKey) (a : Src) : Bool :=
  match a with
  | .q _ => true
  | .w _ => !isAway s t
  | .n i => if isAway s t then ((groupOfThread s t).map fun g => g.hdr.subset.getLsbD i).getD false
      else decide (i.val < ((warpOf s t).map (·.count)).getD 0)

/-- One thread's prefetch: a line comes into the L2, and the L1; no visible state changes
(DESIGN CHOICE, safe: notes/assumptions/28.md). -/
def prefetchOne (s : State) (t : ThreadKey) (a : Src) (off : Nat) (l2only : Bool) : State :=
  if !prefReach s t a then s
  else
    let va := (readSrc s t 0 a + 128 * sext 12 (off : Nat)).toNat / 128 * 128
    match translateFor s t va ⟨true, false, false⟩ with
    | (.ok x, s1) =>
      if x.attr.remote || x.attr.carve || goesHome s1 (coreOfThread s t).die (lineOf x.loc) (some t) then s1
      else
        let c := coreOfThread s t
        let ask := if (l2Of s1 c.die (lineOf x.loc)).isNone then
            postRequests s1 none c (ctxIdOf s t) { x.attr with cls := 0 } (fillAsks x.loc)
          else s1
        (cacheRead ask c (!l2only) x.loc 1 x.attr (ctxIdOf s t) (some t)).2
    | _ => s

def execHintPref (payload : BitVec 19) (st : Stall) (s : State) :=
  issue (.hintPref payload st) (fun ts s =>
    let a := codeSrc (bvf payload 18 13)
    if ts.any fun t => (srcCell s t a).pend.isSome then .hold
    else .done (ts.foldl (fun x t => prefetchOne x t a (bvf payload 11 0) (bvf payload 12 12 == 1)) s) (advance s ts)) s

/-! ### MHINT (R187, R188) -/

/-- Rewrites Temp of a leaf at its home, and in every cached copy of the leaf. -/
def setTemp (s : State) (ea : Nat) (temp : Nat) : State :=
  let f (e : BitVec 64) : BitVec 64 := bvput e 13 12 temp
  let s1 := homeWrite s ea (natBytes 8 (f (BitVec.ofNat 64 (memNat s.mem ea 8))).toNat)
  mapTlbs s1 fun e => some (if e.ea = ea then { e with leaf := f e.leaf } else e)

/-- The units of a range, ascending: the count of skipped units, and the state after. -/
def mhintUnits (d : Fin 8) (c va temp : Nat) : Nat → Nat → State → Nat × State
  | 0, skipped, s => (skipped, s)
  | n + 1, skipped, s0 =>
    let s := postPlain s0 d c 2 (walkAsks s0 c va)
    match walk s0 c va with
    | .leaf level ea e =>
      match checkLeaf s (some d) c va ⟨false, true, false⟩ level e with
      | .ok _ => mhintUnits d c (va + 65536) temp n skipped (setTemp s ea temp)
      | _ => mhintUnits d c (va + 65536) temp n (skipped + 1) s
    | _ => mhintUnits d c (va + 65536) temp n (skipped + 1) s

/-- The faults of MHINT (R188): ALIGN, then a violation of Kind 3 (DEDUCED, unsafe: notes/assumptions/29.md). -/
def mhintFault (s : State) (t : ThreadKey) (start len : Nat) : Option FaultRec :=
  if start % 65536 ≠ 0 ∨ len % 65536 ≠ 0 then some (addrFault s t .align start)
  else if len > 0 ∧ (!canonical start ∨ !canonical (start + len - 1) ∨ 2 ^ 64 ≤ start + len - 1 ∨
      start / 2 ^ 55 ≠ (start + len - 1) / 2 ^ 55) then some (violFault s t 3 0 start)
  else none

def execMhint (a b : Src) (d : PDst) (st : Stall) (s : State) :=
  issue (.mhint a b d st) (fun ts s =>
    let start (t : ThreadKey) : Nat := (readSrc s t 0 a).toNat
    let arg (t : ThreadKey) : Nat := (readSrc s t 1 b).toNat
    match ts.filterMap fun t => mhintFault s t (start t) (arg t % 2 ^ 48) with
    | f :: fs => .faults (f :: fs)
    | [] =>
      .done (ts.foldl (fun x t =>
          let r := mhintUnits (coreOfThread s t).die (ctxIdOf s t) (start t) (arg t / 2 ^ 62) (arg t % 2 ^ 48 / 65536) 0 x
          giveThread r.2 t d (BitVec.ofNat 64 r.1) 0 none) s)
        (advance s ts)) s

end Sys2Proof.Machine
end

