-- ==== Sys2Proof/Machine/BarObj.lean ====
section
/-! DEFINITION. Barrier objects: their fields, phases, commands and waiters (spec/12_barrier.md R276 to R285). -/

namespace Sys2Proof.Machine

/-! ### Fields (R276) -/

def barGen (o : BitVec 256) : Nat := bvf o 163 160
def barPending (o : BitVec 256) : Nat := bvf o 143 128
def barExpected (o : BitVec 256) : Nat := bvf o 159 144
def barIn (o : BitVec 256) : Nat := bvf o 119 64
def barOut (o : BitVec 256) : Nat := bvf o 55 0
def barOvrCount (o : BitVec 256) : Nat := bvf o 175 168

/-- The owner tag of an issuer: CTX, Kind, GROUP, GANG, LAUNCH in bits 255:192 (R276). -/
def barTag (g : Group) (kind : Nat) : Nat :=
  g.ctx % 2048 * 2 ^ 53 + kind * 2 ^ 52 + (if kind = 0 then g.group.val else 0) * 2 ^ 48 + g.gang.toNat % 65536 * 2 ^ 32 +
    g.launch.toNat

/-- Two tags match (R276): Group counts only when Kind is 0. -/
def tagMatch (a b : Nat) : Bool :=
  a / 2 ^ 52 == b / 2 ^ 52 && a % 2 ^ 48 == b % 2 ^ 48 && (a / 2 ^ 52 % 2 == 1 || a / 2 ^ 48 % 16 == b / 2 ^ 48 % 16)

/-- complete() (R278). -/
def barComplete (o : BitVec 256) : BitVec 256 :=
  bvput (bvput (bvput o 163 160 (barGen o + 1)) 143 128 ((barExpected o + 65536 - barOvrCount o) % 65536)) 175 168 0

/-- test() (R278), and whether a phase completed. -/
def barTest (o : BitVec 256) : BitVec 256 × Bool :=
  if barPending o = 0 ∧ barIn o = 0 ∧ barOut o = 0 then
    let o1 := barComplete o
    (if barPending o1 = 0 ∧ 0 < barExpected o1 then barComplete o1 else o1, true)
  else (o, false)

/-- What a command does for one thread (R282). -/
inductive BarRes where
  /-- The object, and the value it pushes, if any. -/
  | done (o : BitVec 256) (v : Option Nat)
  /-- BWAIT with Gen equal to its operand. -/
  | park
  /-- BOVR, with its detail. -/
  | bovr (detail : Nat)
  deriving DecidableEq, Repr

/-- The result of BWAIT (R282). -/
def barResult (o : BitVec 256) : Nat := barGen o + bvf o 164 164 * 256 + bvf o 165 165 * 512

/-- An arrival (R282). -/
def barArrive (o : BitVec 256) (x : Bool) (b : Nat) : BarRes :=
  if x ∧ barGen o ≠ b % 16 then .bovr 0
  else if 0 < barPending o then
    let r := barTest (bvput o 143 128 (barPending o - 1))
    .done r.1 (some ((if r.2 then 512 else 0) + barGen o))
  else if x then .bovr 1
  else if min (barExpected o) 255 ≤ barOvrCount o then .bovr 3
  else .done (bvput (bvput o 175 168 (barOvrCount o + 1)) 164 164 1) (some (256 + (barGen o + 1) % 16))

/-- One thread's command on an object, with the issuer's tag (R282). -/
def barCommand (op : BarOp) (tag b : Nat) (o : BitVec 256) : BarRes :=
  match op with
  | .binit => .done (BitVec.ofNat 256 (tag * 2 ^ 192 + b % 65536 * 2 ^ 144 + b % 65536 * 2 ^ 128)) none
  | _ =>
    if !tagMatch (o.toNat / 2 ^ 192) tag then .bovr 2
    else match op with
      | .binit => .park
      | .barr => barArrive o false b
      | .barrx => barArrive o true b
      | .bxin => .done (if b % 2 ^ 56 = 0 then o else (barTest (bvput o 119 64 ((barIn o + b) % 2 ^ 56))).1) none
      | .bxout => .done (if b % 2 ^ 56 = 0 then o else (barTest (bvput o 55 0 ((barOut o + b) % 2 ^ 56))).1) none
      | .bwait => if barGen o ≠ b % 16 then .done o (some (barResult o)) else .park

/-- XScope codes (R276). -/
def scopeNum : Scope → Nat
  | .core => 0
  | .die => 1
  | .pkg => 2
  | .sys => 3

def numScope : Nat → Scope
  | 0 => .core
  | 1 => .die
  | 2 => .pkg
  | _ => .sys

/-- An engine decrement (R247, R284): XScope widens, the counts fall, Xf may be set; then the test. -/
def barDecrement (o : BitVec 256) (inB outB : Nat) (sc : Scope) (xf : Bool) : BitVec 256 :=
  let o1 := bvput o 167 166 (max (bvf o 167 166) (scopeNum sc))
  let o2 := if xf then bvput o1 165 165 1 else o1
  let o3 := bvput (bvput o2 119 64 ((barIn o2 + 2 ^ 56 - inB % 2 ^ 56) % 2 ^ 56)) 55 0
    ((barOut o2 + 2 ^ 56 - outB % 2 ^ 56) % 2 ^ 56)
  if inB = 0 ∧ outB = 0 then o3 else (barTest o3).1

/-! ### The object in memory -/

/-- Reads an object: of a group's scratchpad, or of the carve-out. -/
def barRead (s : State) (gid : Nat) (b : BarObj) : BitVec 256 :=
  match b with
  | .scratch off => BitVec.ofNat 256 (((groupOf s gid).map fun g => memNat g.scratch off 32).getD 0)
  | .carve pa => BitVec.ofNat 256 (memNat s.mem pa 32)

def barWrite (s : State) (gid : Nat) (b : BarObj) (o : BitVec 256) : State :=
  match b with
  | .scratch off => modGroup s gid fun g => { g with scratch := memPut g.scratch off 32 o.toNat }
  | .carve pa => hitWatches { s with mem := memPut s.mem pa 32 o.toNat } (carveDie pa) (lineOf pa) false

/-- The scope of an object (R276). -/
def barScope : BarObj → Scope
  | .scratch _ => .core
  | .carve _ => .die

def wider (a b : Scope) : Scope := if scopeNum a < scopeNum b then b else a

/-! ### Waiters (R279, R300) -/

/-- A thread of the group is still being recalled. -/
def recallsOut (s : State) (gid : Nat) : Bool := s.threads.any fun e => gidOf e.1 = some gid && e.2.recalled

/-- The value of a barrier word: of an object in scratchpad, it joins the values of the word's home warp (R150); of a carve-out
object, it is delivered (DEDUCED, safe: notes/assumptions/92.md). -/
def barDeliver (s : State) (t : ThreadKey) (tag : Nat) (v : Word) : State :=
  match tget s.ops tag with
  | some o =>
    { s with ops := tset s.ops tag (match o.body with
        | .returns left got => { o with body := .returns (left - 1) (got ++ [(t, tag, v)]) }
        | _ => o) }
  | none => deliverTo s t tag v

/-- A BWAIT returns: its result, the acquire of R231, WAKE Reason 5. -/
def barReturn (s : State) (t : ThreadKey) (b : BarObj) (o : BitVec 256) (tag : Nat) : State :=
  let s1 := barDeliver s t tag (BitVec.ofNat 64 (barResult o))
  wakeThread (acquireAct s1 (coreOfThread s1 t) (wider (barScope b) (numScope (bvf o 167 166)))) t 5

/-- One waiter is tested. -/
def testWaiter (s : State) (t : ThreadKey) : State :=
  match (threadOf s t).bind Thread.wait? with
  | some (.barrier b gen held tag) =>
    let gid := (gidOf t).getD 0
    let o := barRead s gid b
    if barGen o = gen then
      if held ∧ !recallsOut s gid then
        modThread s t fun th => { th with status := th.status.setLive (.waiting (.barrier b gen false tag)) }
      else s
    else if recallsOut s gid then
      modThread s t fun th => { th with status := th.status.setLive (.waiting (.barrier b gen true tag)) }
    else barReturn s t b o tag
  | _ => s

/-- The waiters of an object; a Saved one is tested at its relaunch (R279, R319). -/
def waitersOf (s : State) (gid : Nat) (b : BarObj) : List ThreadKey :=
  tkeys s.threads fun t th => th.isResident && (match th.wait? with
    | some (.barrier x _ _ _) => x == b && (match b with
      | .scratch _ => gidOf t == some gid
      | .carve _ => true)
    | _ => false)

/-- R319: the slice's watches for Saved waiters: the groups that a change of the Gen of a carve-out object queues. -/
def queueSaved (s : State) (b : BarObj) : State :=
  match b with
  | .scratch _ => s
  | .carve pa => { s with groups := s.groups.map fun e =>
      if e.2.phase = .parkSaved ∧ ((tget e.2.gens pa).map fun g => g != barGen (barRead s e.1 b)) = some true then
        (e.1, { e.2 with queued := true }) else e }

/-- After a command or a decrement on an object, every waiter on it is tested (R279). -/
def testWaiters (s : State) (gid : Nat) (b : BarObj) : State := queueSaved ((waitersOf s gid b).foldl testWaiter s) b

/-- The BWAITs of a group that waited for recalled threads are tested again (R300). -/
def testHeld (s : State) (gid : Nat) : State :=
  (tkeys s.threads fun t th => gidOf t == some gid && (match th.wait? with
    | some (.barrier _ _ true _) => true
    | _ => false)).foldl testWaiter s

/-! ### An entry (R282) -/

/-- A lane of a barrier entry: thread, operand, owed registers. -/
structure BarLane where
  thread : ThreadKey
  b : Nat
  tag : Nat
  deriving DecidableEq, Repr

/-- The lanes in order: the object after the last, and what each lane gets. A lane that faults changes nothing. -/
def barRun (op : BarOp) (tag : ThreadKey → Nat) : List BarLane → BitVec 256 → BitVec 256 × List (BarLane × BarRes)
  | [], o => (o, [])
  | l :: ls, o =>
    let r := barCommand op (tag l.thread) l.b o
    let o1 := match r with
      | .done x _ => x
      | _ => o
    let q := barRun op tag ls o1
    (q.1, (l, r) :: q.2)

def barFaults (s : State) (rs : List (BarLane × BarRes)) (pc : ThreadKey → Word) : List FaultRec :=
  rs.filterMap fun r => match r.2 with
    | .bovr d => some { plainFault s r.1.thread .bovr with detail := d, pc := pc r.1.thread }
    | _ => none

/-- The issuer's tag for an object. -/
def tagOf (s : State) (b : BarObj) (t : ThreadKey) : Nat :=
  ((groupOfThread s t).map fun g => barTag g (match b with
    | .scratch _ => 0
    | .carve _ => 1)).getD 0

/-- A lane parks in BWAIT; one that has ended meanwhile does not. -/
def barPark (s : State) (b : BarObj) (l : BarLane) (held : Bool) : State :=
  if ((threadOf s l.thread).map Thread.isEnded).getD true then dropReturn s l.tag
  else modThread s l.thread fun th => { th with status := th.status.setLive (.waiting (.barrier b (l.b % 16) held l.tag)) }

/-- What one lane of an entry that took effect leaves: a value, a wait, or nothing more (DESIGN CHOICE, safe: notes/assumptions/32.md). -/
def barLaneDone (s : State) (b : BarObj) (l : BarLane) (r : BarRes) : State :=
  let s0 := modThread s l.thread fun th => { th with inBar := none }
  let gid := (gidOf l.thread).getD 0
  match r with
  | .done _ (some v) => barDeliver s0 l.thread l.tag (BitVec.ofNat 64 v)
  | .done _ none => s0
  | .park => barPark s0 b l (recallsOut s0 gid)
  | .bovr _ => s0

/-- A BWAIT that does not park, with recalled threads still out, waits for them (R300). -/
def barBwaitDone (s : State) (b : BarObj) (o : BitVec 256) (l : BarLane) : State :=
  let gid := (gidOf l.thread).getD 0
  let s0 := modThread s l.thread fun th => { th with inBar := none }
  if recallsOut s0 gid then barPark s0 b l true
  else
    let s1 := barDeliver s0 l.thread l.tag (BitVec.ofNat 64 (barResult o))
    acquireAct s1 (coreOfThread s1 l.thread) (wider (barScope b) (numScope (bvf o 167 166)))

/-- One lane of an entry that takes effect: its command on the object, what the thread gets, and the test of every waiter
(R279, R282). -/
def barLaneRun (gid : Nat) (op : BarOp) (b : BarObj) (s : State) (x : BarLane × BarRes) : State :=
  let s1 := match op, x.2 with
    | .bwait, .done o _ => barBwaitDone s b o x.1
    | _, .done o _ => barLaneDone (barWrite s gid b o) b x.1 x.2
    | _, y => barLaneDone s b x.1 y
  testWaiters s1 gid b

/-- An entry takes effect; or the threads that fault, if any, and it takes effect for none. -/
def barEntry (s : State) (gid : Nat) (op : BarOp) (b : BarObj) (lanes : List BarLane) (pc : ThreadKey → Word) :
    List FaultRec × State :=
  let r := barRun op (tagOf s b) lanes (barRead s gid b)
  match barFaults s r.2 pc with
  | f :: fs => (f :: fs, s)
  | [] =>
    ([], r.2.foldl (barLaneRun gid op b) s)

end Sys2Proof.Machine
end

