-- ==== Sys2Proof/Machine/Flags.lean ====
section
/-! DEFINITION. The flags QSAT, QUND and QNAN, the N4 blocks that set them, and quantisation (spec/02_numbers.md R62 to
R67). No other instruction of the Breram has flags. -/

namespace Sys2Proof.Machine

/-- Bits of the crucible status word (R162). -/
def flagQNan : BitVec 3 := 1
def flagQUnd : BitVec 3 := 2
def flagQSat : BitVec 3 := 4

/-- The value grid of a block type by m, in units of 2^(-n4Unit) (R63): types I, E, P, H. -/
def n4Grid (t : Fin 4) : List Nat :=
  match t with
  | 0 => [0, 1, 2, 3, 4, 5, 6, 7, 8]
  | 1 => [0, 1, 2, 3, 4, 6, 8, 12]
  | 2 => [0, 1, 2, 4, 8, 16, 32, 64]
  | 3 => [0, 1, 2, 3, 4, 8, 16, 32]

/-- The unit's exponent, negated. -/
def n4Unit (t : Fin 4) : Nat :=
  match t with
  | 0 => 0
  | 1 => 1
  | 2 => 3
  | 3 => 0

/-- top(t) in units (R63). -/
def n4Top (t : Fin 4) : Nat :=
  match t with
  | 0 => 7
  | 1 => 12
  | 2 => 64
  | 3 => 32

/-- The value of element code c in a block with scale byte sb (R62, R63). -/
def n4Value (sb c : Nat) : FVal :=
  let t : Fin 4 := Fin.ofNat 4 (sb / 64)
  let ex : Int := (sb % 64 : Nat) - 48 - (n4Unit t : Int)
  let k := c % 16
  match t with
  | 0 => if k < 8 then .fin false k ex else .fin true (16 - k) ex
  | _ =>
    let m := (n4Grid t).getD (k % 8) 0
    .fin (decide (8 ≤ k) && m != 0) m ex

/-- amax of FP32 values; none when one is NaN or infinite (R65). -/
def n4Amax : List FVal → Option (Nat × Int)
  | [] => some (0, 0)
  | .fin _ m e :: l =>
    match n4Amax l with
    | none => none
    | some (m', e') => if (FVal.fin false m' e').lt (.fin false m e) then some (m, e) else some (m', e')
  | _ :: _ => none

/-- ceil(log2(m * 2^e / top(t))) (R65), for m > 0. -/
def n4Ceil (t : Fin 4) (m : Nat) (e : Int) : Int :=
  let a := Nat.log2 m
  let b := Nat.log2 (n4Top t)
  let k : Int := (a : Int) - b
  (if m * 2 ^ b ≤ n4Top t * 2 ^ a then k else k + 1) + e + (n4Unit t : Int)

/-- The magnitude index that grid(t, y, mode, rnd) picks for the magnitude num / den in units; `sr` is the random word, if
the mode is SR (R66). -/
def n4Pick (t : Fin 4) (neg : Bool) (num den : Nat) (sr : Option Nat) : Nat :=
  let g := if t = 0 ∧ neg = false then (n4Grid t).take 8 else n4Grid t
  let lo := (g.filter fun x => decide (x * den ≤ num)).length - 1
  if g.length ≤ lo + 1 then lo
  else
    let l := g.getD lo 0 * den
    let h := g.getD (lo + 1) 0 * den
    if l = num then lo
    else match sr with
      | some r => if r < (num - l) * 2 ^ 32 / (h - l) then lo + 1 else lo
      | none =>
        if 2 * num < l + h then lo
        else if l + h < 2 * num then lo + 1
        else if lo % 2 = 0 then lo else lo + 1

/-- The element code of an input in a block of exponent e. -/
def n4Code (t : Fin 4) (e : Nat) (v : FVal) (sr : Option Nat) : Nat :=
  match v with
  | .fin neg m x =>
    let q : Int := x - ((e : Int) - 48) + n4Unit t
    let k := n4Pick t neg (m * 2 ^ q.toNat) (2 ^ (-q).toNat) sr
    if k = 0 then 0
    else if t = 0 then (if neg then 16 - k else k)
    else (if neg then 8 + k else k)
  | _ => 0

/-- The 32-bit word rotated left. -/
def rotl32 (r k : Nat) : Nat :=
  let x := r % 2 ^ 32
  (x * 2 ^ (k % 32) + x / 2 ^ (32 - k % 32)) % 2 ^ 32

/-- A quantised block (R65): its 32 codes, its scale byte and the flags it sets. -/
structure N4Block where
  codes : List Nat
  scale : Nat
  flags : BitVec 3
  deriving DecidableEq, Repr

/-- R65. -/
def quantise (t : Fin 4) (xs : List FVal) (sr : Option Nat) : N4Block :=
  match n4Amax xs with
  | none => ⟨xs.map fun _ => 0, t.val * 64 + 63, flagQNan⟩
  | some (m, e) =>
    if m = 0 then ⟨xs.map fun _ => 0, t.val * 64, 0⟩
    else
      let f := n4Ceil t m e + 48
      let ex := if f < 0 then 0 else if 63 < f then 63 else f.toNat
      let codes := xs.zipIdx.map fun x => n4Code t ex x.1 (sr.map fun r => rotl32 r x.2)
      ⟨codes, t.val * 64 + ex, if f < 0 then flagQUnd else if 63 < f then flagQSat else 0⟩

/-- Data byte i of a block (R62). -/
def n4Bytes : List Nat → List Byte
  | a :: b :: l => BitVec.ofNat 8 (a + 16 * b) :: n4Bytes l
  | [a] => [BitVec.ofNat 8 a]
  | [] => []

end Sys2Proof.Machine
end

