-- ==== Sys2Proof/Machine/Func.lean ====
section
/-! DEFINITION. The function unit (spec/05_register_float.md R136 to R138) and `expo` (spec/06_bank.md R159). The device's
maps are unpublished: a result is the value of the opaque map where it meets the rules, else the correctly rounded value.
The bounds are tested against a reference that stands on the same side of every value it is compared with as the true result:
its relative error is below 2^-90, and where the true result lies nearer than that to a value of FP32, for a tiny input or where
`tanh` nears 1, the reference is taken just beside that value, on the true side. -/

namespace Sys2Proof.Machine

/-- The fixed-point scale of the references. -/
def fxp : Nat := 2 ^ 256

def fxTwoPi : Nat := 0x6487ed5110b4611a62633145c06e0e68948127044533e63a0105df531d89cd912
def fxLn2 : Nat := 0xb17217f7d1cf79abc9e3b39803f2f6af40f343267298b62d8a0d175b8baafa2b
def fxLog2e : Nat := 0x171547652b82fe1777d0ffda0d23a7d11d6aef551bad2b4b1164a2cd9a342648f

/-- m * 2^e in fixed point, towards zero. -/
def toFx (m : Nat) (e : Int) : Nat :=
  let k := e + 256
  if 0 ≤ k then m * 2 ^ k.toNat else m / 2 ^ (-k).toNat

/-- The integer square root, bit by bit. -/
def isqrtGo : Nat → Nat → Nat → Nat
  | 0, _, r => r
  | n + 1, x, r => if (r + 2 ^ n) * (r + 2 ^ n) ≤ x then isqrtGo n x (r + 2 ^ n) else isqrtGo n x r

/-- The sum of t^k / k! from a term on; t below 1 in fixed point. -/
def expSeries : Nat → Nat → Nat → Nat → Nat
  | 0, _, _, _ => 0
  | n + 1, k, t, term => term + expSeries n (k + 1) t (term * t / fxp / (k + 1))

/-- 2^f for a fraction f in fixed point, in fixed point. -/
def exp2Frac (f : Nat) : Nat := expSeries 60 0 (f * fxLn2 / fxp) fxp

/-- 2^y for a signed fixed-point y. -/
def exp2Ref (neg : Bool) (y : Nat) : FVal :=
  let i := y / fxp
  let f := y % fxp
  if neg then
    if f = 0 then .fin false 1 (-(i : Int)) else .fin false (exp2Frac (fxp - f)) (-(i : Int) - 1 - 256)
  else .fin false (exp2Frac f) ((i : Int) - 256)

/-- The bits of log2 g, for 1 <= g < 2 in fixed point. -/
def log2Bits : Nat → Nat → Nat → Nat
  | 0, _, r => r
  | n + 1, g, r =>
    let q := g * g / fxp
    if 2 * fxp ≤ q then log2Bits n (q / 2) (2 * r + 1) else log2Bits n q (2 * r)

/-- log2 of m * 2^e. -/
def log2Ref (m : Nat) (e : Int) : FVal :=
  let n := (Nat.log2 m : Int) + e
  let b := log2Bits 120 (toFx m (-(Nat.log2 m : Int))) 0
  let v := n * (2 ^ 120 : Nat) + b
  .fin (decide (v < 0)) v.natAbs (-120)

/-- Alternating Taylor series from a term on: sum of (-1)^j t^k / k!. -/
def trigSeries : Nat → Nat → Int → Int → Int
  | 0, _, _, _ => 0
  | n + 1, k, t2, term =>
    term + trigSeries n (k + 2) t2 (-(term * t2 / (fxp : Nat) / (((k + 1) * (k + 2) : Nat) : Int)))

def ofFxInt (v : Int) : FVal := .fin (decide (v < 0)) v.natAbs (-256)

/-- A value just below m * 2^e in magnitude. -/
def below (neg : Bool) (m : Nat) (e : Int) : FVal := .fin neg (m * 2 ^ 100 - 1) (e - 100)

/-- 2^x and e^x for a tiny x: just beside 1. -/
def besideOne (neg : Bool) : FVal := if neg then below false 1 0 else .fin false (2 ^ 100 + 1) (-100)

def sinRef (neg : Bool) (m : Nat) (e : Int) : FVal :=
  if (Nat.log2 m : Int) + e < -60 then below neg m e
  else
    let r : Int := (toFx m e % fxTwoPi : Nat)
    (ofFxInt (trigSeries 60 1 (r * r / (fxp : Nat)) r)).negIf neg

def cosRef (m : Nat) (e : Int) : FVal :=
  let r : Int := (toFx m e % fxTwoPi : Nat)
  ofFxInt (trigSeries 60 0 (r * r / (fxp : Nat)) (fxp : Nat))

def tanhRef (neg : Bool) (m : Nat) (e : Int) : FVal :=
  if (Nat.log2 m : Int) + e < -60 then below neg m e
  else if 6 ≤ (Nat.log2 m : Int) + e then below neg 1 0
  else
    match exp2Ref true (2 * toFx m e * fxLog2e / fxp) with
    | .fin _ n f =>
      let t := toFx n f
      .fin neg ((fxp - t) * fxp / (fxp + t)) (-256)
    | v => v

/-- |a - b| as a dyadic. -/
def fdist (a b : FVal) : FVal := (a.add b.negate).abs

/-- The ulp of a reference (R136), as an exponent. -/
def ulpExp (m : Nat) (e : Int) : Int := max ((Nat.log2 m : Int) + e - 23) (-149)

/-- r is within k ulp of the reference, or within an absolute bound 2^q. -/
def withinUlp (k : Nat) (r y : FVal) : Bool :=
  match y with
  | .fin _ m e => !(FVal.fin false k (ulpExp m e)).lt (fdist r y)
  | _ => false

def withinAbs (q : Int) (r y : FVal) : Bool := !(FVal.fin false 1 q).lt (fdist r y)

def FVal.isFin : FVal → Bool
  | .fin _ _ _ => true
  | _ => false

/-- A result: the opaque map's value where it is finite, not zero and meets `ok`; an infinite or zero rounding of the
reference is the result itself (R138). -/
def funcPick (raw : BitVec 32) (ok : FVal → Bool) (y : FVal) : Nat :=
  let c := roundRne .fp32 y
  let v := fdecode .fp32 c
  if !v.isFin || v.isZero then c
  else
    let r := fdecode .fp32 raw.toNat
    if r.isFin && !r.isZero && ok r then raw.toNat else c

/-- [-1, 1] (R138). -/
def unitRange (r : FVal) : Bool := !(FVal.fin false 1 0).lt r.abs

/-- |x| <= 2^q. -/
def absLe (m : Nat) (e q : Int) : Bool := !(FVal.fin false 1 q).lt (.fin false m e)

/-- The value of FSIN and FCOS beyond 2^15: any value in [-1, 1], fixed for each input (R138)
(DESIGN CHOICE, safe: notes/assumptions/17.md). -/
def trigFar (raw : BitVec 32) : Nat :=
  let r := fdecode .fp32 raw.toNat
  if r.isFin && unitRange r then raw.toNat else 0x3F800000 + raw.toNat / 2 ^ 31 * 2 ^ 31

/-- The functions of R137. -/
inductive Fn where
  | rcp
  | rsq
  | exp2
  | log2
  | sin
  | cos
  | tanh
  | expo
  deriving DecidableEq, Repr

def fnCode : Fn → Nat
  | .rcp => 0
  | .rsq => 1
  | .exp2 => 2
  | .log2 => 3
  | .sin => 4
  | .cos => 5
  | .tanh => 6
  | .expo => 7

/-- A finite nonzero input. -/
def fnFin (f : Fn) (raw : BitVec 32) (neg : Bool) (m : Nat) (e : Int) : Nat :=
  let pow2 := decide (m = 2 ^ Nat.log2 m)
  let x2 := (Nat.log2 m : Int) + e
  match f with
  | .rcp =>
    if pow2 then roundRne .fp32 (.fin neg 1 (-x2))
    else
      let y := FVal.fin neg (2 ^ 200 / m) (-200 - e)
      funcPick raw (fun r => withinUlp 1 r y) y
  | .rsq =>
    if neg then FFmt.fp32.nanCode
    else if pow2 && x2 % 2 == 0 then roundRne .fp32 (.fin false 1 (-(x2 / 2)))
    else
      let m' := if e % 2 = 0 then m else 2 * m
      let e' := if e % 2 = 0 then e else e - 1
      let y := FVal.fin false (isqrtGo 140 (2 ^ 260 / m') 0) (-130 - e' / 2)
      funcPick raw (fun r => withinUlp 1 r y) y
  | .exp2 =>
    if 8 ≤ x2 then (if neg then 0 else FFmt.fp32.infCode)
    else if 0 ≤ e ∨ m % 2 ^ (-e).toNat = 0 then
      let i : Int := (if 0 ≤ e then m * 2 ^ e.toNat else m / 2 ^ (-e).toNat : Nat)
      roundRne .fp32 (.fin false 1 (if neg then -i else i))
    else
      let y := if x2 < -100 then besideOne neg else exp2Ref neg (toFx m e)
      funcPick raw (fun r => withinUlp 2 r y) y
  | .log2 =>
    if neg then FFmt.fp32.nanCode
    else if pow2 then roundRne .fp32 (.fin (decide (x2 < 0)) x2.natAbs 0)
    else
      let y := log2Ref m e
      funcPick raw (fun r => if x2 = 0 ∨ x2 = -1 then withinAbs (-22) r y else withinUlp 2 r y) y
  | .sin =>
    if !absLe m e 15 then trigFar raw
    else
      let y := sinRef neg m e
      funcPick raw (fun r => unitRange r && (if absLe m e (-7) then withinUlp 2 r y else withinAbs (-21) r y)) y
  | .cos =>
    if !absLe m e 15 then trigFar raw
    else
      let y := if x2 < -100 then besideOne true else cosRef m e
      funcPick raw (fun r => unitRange r && withinAbs (-21) r y) y
  | .tanh =>
    let y := tanhRef neg m e
    funcPick raw (fun r => unitRange r && withinUlp 2 r y) y
  | .expo =>
    if 8 ≤ x2 then (if neg then 0 else FFmt.fp32.infCode)
    else
      let y := if x2 < -100 then besideOne neg else exp2Ref neg (toFx m e * fxLog2e / fxp)
      funcPick raw (fun r => withinUlp 2 r y) y

/-- R137, R138, R159: the result bits of a function. -/
def fnBits (f : Fn) (x : BitVec 32) : Nat :=
  let sgn (neg : Bool) (c : Nat) : Nat := fsigned .fp32 neg c
  match fdecode .fp32 x.toNat with
  | .nan => FFmt.fp32.nanCode
  | .inf neg =>
    match f with
    | .rcp => sgn neg 0
    | .rsq => if neg then FFmt.fp32.nanCode else 0
    | .exp2 | .expo => if neg then 0 else FFmt.fp32.infCode
    | .log2 => if neg then FFmt.fp32.nanCode else FFmt.fp32.infCode
    | .sin | .cos => FFmt.fp32.nanCode
    | .tanh => sgn neg 0x3F800000
  | .fin neg m e =>
    if m = 0 then
      match f with
      | .rcp | .rsq => sgn neg FFmt.fp32.infCode
      | .exp2 | .cos | .expo => 0x3F800000
      | .log2 => sgn true FFmt.fp32.infCode
      | .sin | .tanh => sgn neg 0
    else fnFin f (Config.funcMap (fnCode f) x) neg m e

/-- A function word (R136): FP32 in, FP32 out, zero-extended. -/
def aluFn (f : Fn) (a : Word) : Word := BitVec.ofNat 64 (fnBits f (BitVec.ofNat 32 a.toNat))

end Sys2Proof.Machine
end

