-- ==== Sys2Proof/Machine/Scratch.lean ====
section
/-! DEFINITION. The scratchpad, its banks, and the crucible words (spec/06_bank.md R143 to R168). -/

namespace Sys2Proof.Machine

/-! ### Lines and presence (R143, R144) -/

def bankOf (line : Nat) : Fin 32 := Fin.ofNat 32 line

/-- The bytes of a group's allocation (R143, R326). -/
def scratchSize (s : State) (t : ThreadKey) : Nat := ((groupOfThread s t).map fun g => g.hdr.scrUnits * 2048).getD 0

/-- A line is Absent while a transfer that cleared it has not landed all its bytes there (R144). -/
def lineAbsent (s : State) (gid line : Nat) : Bool := s.engs.any fun e => e.2.gid == gid && e.2.cleared.contains line

/-- Threads held on absent lines return when all are Present (R145). A barrier word is then Stalled until it is served
(R283). -/
def settleLines (s : State) : State :=
  (tkeys s.threads fun t th => match th.wait? with
    | some (.lines l) => l.all fun x => !lineAbsent s ((gidOf t).getD 0) x
    | _ => false).foldl (fun a t =>
      match threadOf a t with
      | none => a
      | some th =>
        if th.inBar.isSome then
          modThread a t fun x => { x with wake := wakeAs x 9, savedMark := false, dozedMark := false, status := x.status.setLive .stalled }
        else wakeThread a t 9) s

/-! ### Checks at issue (R146) -/

/-- One thread's part of a scratchpad word: the lines it touches and its lane. -/
structure Req where
  lines : List Nat
  lane : Lane
  deriving DecidableEq, Repr

/-- Checks 2 and 3 of R146 for an offset. -/
def offFault (s : State) (t : ThreadKey) (off size : Nat) : Option FaultRec :=
  if off % size ≠ 0 then some (addrFault s t .align off)
  else if scratchSize s t < off + size then some (violFault s t 8 1 off)
  else none

/-- The lines of a line set (R155). -/
def setLines (a : Word) : List Nat :=
  (List.range (bvf a 23 16 + 1)).map fun k => bvf a 12 0 + k * (32 * (bvf a 31 24 + 1))

/-- Checks 2 and 3 of R146 for lines: the first gives the bank. The offset recorded and logged is that of the first line of the set
that offends (DESIGN CHOICE, unsafe: notes/assumptions/93.md). -/
def linesFault (s : State) (t : ThreadKey) (l : List Nat) : Option FaultRec :=
  let b := bankOf (l.headD 0)
  match l.find? fun x => bankOf x ≠ b with
  | some x => some (addrFault s t .align (64 * x))
  | none =>
    match l.find? fun x => decide (scratchSize s t < 64 * x + 64) with
    | some x => some (violFault s t 8 1 (64 * x))
    | none => none

/-! ### Entries (R147) -/

/-- The entries of a (core, bank). -/
def bankQueue (s : State) (c : CoreId) (b : Fin 32) : List BankEntry := s.banks.filter fun e => e.core = c ∧ e.bank = b

/-- Adds a lane to the entry of its line, or a new entry. -/
def addLane (es : List BankEntry) (e : BankEntry) : List BankEntry :=
  if es.any fun x => x.gid == e.gid && x.lines == e.lines then
    es.map fun x => if x.gid = e.gid ∧ x.lines = e.lines then { x with lanes := x.lanes ++ e.lanes } else x
  else es ++ [e]

/-- The entries that a word forms. -/
def formEntries (s : State) (merge : Bool) (body : BankBody) (rs : List Req) : List BankEntry :=
  rs.foldl (fun es r =>
    let e : BankEntry :=
      { word := s.seq, core := s.focus.core, bank := bankOf (r.lines.headD 0), gid := (gidOf r.lane.thread).getD 0
        age := cycOf s s.focus.core, quarter := s.focus.quarter, lines := r.lines, lanes := [r.lane], body := body }
    if merge then addLane es e else es ++ [e]) []

/-- R147: in every bank touched the overflow queue is empty, and the entries fit. -/
def bankRoom (s : State) (es : List BankEntry) : Bool :=
  es.all fun e =>
    let n := (bankQueue s e.core e.bank).length
    decide (n ≤ 16) && decide (n + (es.filter fun x => x.bank = e.bank).length ≤ 32)

/-- Counted words of a warp (R150). -/
def countedWords (s : State) (w : WarpKey) : Nat :=
  (s.ops.filter fun e => e.2.warp = w ∧ e.2.isMem = false).length

/-- The tag of the returns of a warp of a word: its operation's number; the second half of a 128-bit load is one above. -/
def warpTag (base : Nat) (ws : List WarpKey) (w : WarpKey) : Nat := base + 1 + 2 * ws.idxOf w

/-- The next register for the high half of a 128-bit load (R23). -/
def nextDst : PDst → PDst
  | .push => .push
  | .named i => .named (i + 1)

/-- The destination slots that a thread allocates: one, or two for a 128-bit load. -/
def giveTags (s : State) (t : ThreadKey) (d : PDst) (tag : Nat) (two : Bool) : State :=
  let s1 := giveThread s t d 0 0 (some tag)
  if two then giveThread s1 t (nextDst d) 0 0 (some (tag + 1)) else s1

/-- A thread whose entries touch an Absent line enters Waiting, until every line they touch is Present (R145). -/
def holdOnLines (s : State) (r : Req) : State :=
  if r.lines.any (lineAbsent s ((gidOf r.lane.thread).getD 0)) then waitThread s r.lane.thread (.lines r.lines) else s

/-- What a word does once its checks have passed: it allocates its results and its entries enter the queues. -/
def enterBanks (s : State) (ts : List ThreadKey) (merge crucible : Bool) (body : BankBody) (ret : Option (PDst × Bool))
    (rs : List Req) : State :=
  let ws := warpsOf ts
  let tagged := rs.map fun r =>
    { r with lane := { r.lane with tag := warpTag s.seq ws (warpKeyOf r.lane.thread) } }
  let es := formEntries s merge body tagged
  let s1 : State := { s with banks := s.banks ++ es, seq := s.seq + 1 + 2 * ws.length }
  let s2 := match ret with
    | none => s1
    | some (d, two) =>
      let ops := ws.foldl (fun o w =>
        let mine := ts.filter fun t => warpKeyOf t = w
        tset o (warpTag s.seq ws w)
          { core := s.focus.core, warp := w, threads := mine, crucible := crucible
            body := .returns mine.length [] : Op }) s1.ops
      tagged.foldl (fun a r => giveTags a r.lane.thread d r.lane.tag two) { s1 with ops := ops }
  tagged.foldl holdOnLines s2

/-- A scratchpad word: the checks of R146, the room of R147 and R150, then its entries. -/
def bankWord (i : Instr) (merge crucible : Bool) (body : BankBody) (ret : Option (PDst × Bool))
    (mk : State → ThreadKey → FaultRec ⊕ Req) (s : State) : Host.Outcome State Fault Refusal :=
  issue i (fun ts s =>
    match ts.filterMap fun t => (mk s t).getLeft? with
    | f :: fs => .faults (f :: fs)
    | [] =>
      let rs := ts.filterMap fun t => (mk s t).getRight?
      if bankRoom s (formEntries s merge body rs) &&
          (ret.isNone || (warpsOf ts).all fun w => decide (countedWords s w < 8)) then
        .done (enterBanks s ts merge crucible body ret rs) (advance s ts)
      else .hold) s

/-- A request on an offset, or the fault of its checks. -/
def offReq (s : State) (t : ThreadKey) (off size : Nat) (x y : Word) : FaultRec ⊕ Req :=
  match offFault s t off size with
  | some f => .inl f
  | none => .inr ⟨[off / 64], ⟨t, off, x, y, 0⟩⟩

/-- A request on lines, or the fault of its checks. -/
def linesReq (s : State) (t : ThreadKey) (l : List Nat) (x y : Word) : FaultRec ⊕ Req :=
  match linesFault s t l with
  | some f => .inl f
  | none => .inr ⟨l, ⟨t, 0, x, y, 0⟩⟩

/-! ### The words -/

def execLds (a : Src) (d : PDst) (w : MemW) (off : BitVec 8) (st : Stall) (s : State) :=
  bankWord (.lds a d w off st) true false (.lds (memSize w) (memSigned w)) (some (d, w == .x128))
    (fun s t => offReq s t (memAddr s t a off w) (memSize w) 0 0) s

def execSts (a : Src) (d : Src) (w : MemW) (off : BitVec 8) (st : Stall) (s : State) :=
  bankWord (.sts a d w off st) true false (.sts (memSize w)) none
    (fun s t => offReq s t (memAddr s t a off w) (memSize w) (readSrc s t 1 d) 0) s

/-- The lines of a CVEC command: its set, and the source set of the `.L` forms with the count of a (R157). -/
def cvecLines (long : Bool) (a b : Word) : List Nat := setLines a ++ (if long then setLines (bvput b 23 16 (bvf a 23 16)) else [])

def execCvec (op : CvecOp) (long : Bool) (a b : Src) (st : Stall) (s : State) :=
  bankWord (.cvec op long a b st) false true (.cvec op long) none
    (fun s t => linesReq s t (cvecLines long (readSrc s t 0 a) (readSrc s t 1 b)) (readSrc s t 0 a) (readSrc s t 1 b)) s

def execCred (op : CredOp) (a : Src) (d : PDst) (st : Stall) (s : State) :=
  bankWord (.cred op a d st) false true (.cred op) (some (d, false))
    (fun s t => linesReq s t (setLines (readSrc s t 0 a)) (readSrc s t 0 a) 0) s

def execCsmx (a b : Src) (d : PDst) (st : Stall) (s : State) :=
  bankWord (.csmx a b d st) false true .csmx (some (d, false))
    (fun s t => linesReq s t (setLines (readSrc s t 0 a)) (readSrc s t 0 a) (readSrc s t 1 b)) s

/-- Check 4 of R146 for CCVT (R160). -/
def ccvtBad (b : Word) : Bool :=
  decide (4 < bvf b 10 8) || decide (4 < bvf b 5 3) || (decide (4 < bvf b 2 0) && decide (bvf b 5 3 < 3))

def execCcvt (a b : Src) (st : Stall) (s : State) :=
  bankWord (.ccvt a b st) false true .ccvt none
    (fun s t =>
      match linesReq s t (setLines (readSrc s t 0 a)) (readSrc s t 0 a) (readSrc s t 1 b) with
      | .inr r => if ccvtBad (readSrc s t 1 b) then .inl (plainFault s t .illegal) else .inr r
      | x => x) s

/-- The lines of CQNT: two of its set, the data line and the scale line (R161). -/
def cqntLines (a b : Word) : List Nat := setLines (bvput a 23 16 1) ++ [bvf b 12 0, bvf b 27 15]

def execCqnt (a b : Src) (st : Stall) (s : State) :=
  bankWord (.cqnt a b st) false true .cqnt none
    (fun s t => linesReq s t (cqntLines (readSrc s t 0 a) (readSrc s t 1 b)) (readSrc s t 0 a) (readSrc s t 1 b)) s

def execCatom (op : AtomOp) (a b : Src) (d : PDst) (st : Stall) (s : State) :=
  bankWord (.catom op a b d st) true true (.catom op) (some (d, false))
    (fun s t => offReq s t (readSrc s t 0 a).toNat 4 (readSrc s t 1 b) 0) s

def execCcas (a b c : Src) (st : Stall) (s : State) :=
  bankWord (.ccas a b c st) true true .ccas (some (cPDst c, false))
    (fun s t => offReq s t (readSrc s t 0 a).toNat 4 (readSrc s t 1 b) (readSrc s t 2 c)) s

def execCredStat (d : PDst) (st : Stall) (s : State) :=
  issue (.credStat d st) (fun ts s =>
    if (warpsOf ts).any fun w => crucibleOut s w ≠ [] then .hold
    else
      .done (ts.foldl (fun x t =>
          let v := ((groupOfThread x t).map (·.cstat)).getD 0
          giveThread (modGroup x ((gidOf t).getD 0) fun g => { g with cstat := 0 }) t d (BitVec.ofNat 64 v.toNat) 0 none) s)
        (advance s ts)) s

def execCwait (st : Stall) (s : State) :=
  issue (.cwait st) (fun ts s =>
    .done (ts.foldl (fun x t =>
        let l := crucibleOut s (warpKeyOf t)
        if l = [] then x else waitThread x t (.crucible l)) s)
      (advance s ts)) s

/-- `CFENCE` (R168): the thread is Stalled until its earlier accesses have taken effect. -/
def execCfence (st : Stall) (s : State) :=
  issue (.cfence st) (fun ts s => if ts.any (bankPending s) then .hold else .done s (advance s ts)) s

/-! ### The commands on the bytes -/

/-- FP32 word i of a line. -/
def cword (m : Memory) (line i : Nat) : Word := BitVec.ofNat 64 (memNat m (64 * line + 4 * i) 4)

def setCword (m : Memory) (line i : Nat) (v : Word) : Memory := memPut m (64 * line + 4 * i) 4 v.toNat

/-- One element of CVEC (R157): x, the scalar or source y, the scalar t. -/
def cvecElem (op : CvecOp) (long : Bool) (x y s t : Word) : Word :=
  match op with
  | .add => aluFadd false false false false x (if long then y else s)
  | .mul => aluFmul false false false x (if long then y else s)
  | .fma => if long then aluFfma false false y s x else aluFfma false false x s t
  | .max => aluFmax x (if long then y else s)
  | .min => aluFmin x (if long then y else s)

/-- CVEC over the lines of its set, with the line of its source set beside each. -/
def cvecRun (op : CvecOp) (long : Bool) (s t : Word) (m : Memory) (ls : List (Nat × Nat)) : Memory :=
  ls.foldl (fun m l =>
    (List.range 16).foldl (fun m i => setCword m l.1 i (cvecElem op long (cword m l.1 i) (cword m l.2 i) s t)) m) m

/-- The fixed tree of R71 over 16 elements. -/
def tree16 (f : Word → Word → Word) (e : Nat → Word) : Word :=
  let q (i : Nat) : Word := f (f (e i) (e (i + 1))) (f (e (i + 2)) (e (i + 3)))
  f (f (q 0) (q 4)) (f (q 8) (q 12))

def credFn (op : CredOp) : Word → Word → Word :=
  match op with
  | .sum => aluFadd false false false false
  | .max => aluFmax
  | .min => aluFmin

/-- The reduction of R71 over the lines of a set. -/
def credRun (op : CredOp) (m : Memory) : List Nat → Word
  | [] => 0
  | l :: ls => ls.foldl (fun v x => credFn op v (tree16 (credFn op) (cword m x))) (tree16 (credFn op) (cword m l))

/-- CSMX (R159). -/
def csmxRun (mx : Word) (m : Memory) (ls : List Nat) : Memory :=
  ls.foldl (fun m l =>
    (List.range 16).foldl (fun m i =>
      setCword m l i (aluFn .expo (aluFadd true false false false (cword m l i) mx))) m) m

/-- CCVT on one line (R160). -/
def ccvtLine (src dst : FFmt) (r : RndCode) (rnd : Nat) (m : Memory) (line : Nat) : Memory :=
  let ws := src.width / 8
  let wd := dst.width / 8
  let out := (List.range 16).flatMap fun i =>
    natBytes wd (aluFcvt (.float src) (.float dst) r (BitVec.ofNat 64 (memNat m (64 * line + i * ws) ws)) (rotl32 rnd i)).toNat
  memPutBytes m (64 * line) (out ++ List.replicate (64 - 16 * wd) 0)

def ccvtRun (a b : Word) (m : Memory) : Memory :=
  let src := (ffmtOf (bvf b 10 8)).getD .fp32
  let dst := (ffmtOf (bvf b 5 3)).getD .fp32
  (setLines a).foldl (ccvtLine src dst (rndOf (bvf b 2 0)) (bvf a 63 32)) m

/-- The block that CQNT forms (R161). -/
def cqntBlock (a b : Word) (m : Memory) : N4Block :=
  let l := setLines (bvput a 23 16 1)
  let xs := l.flatMap fun x => (List.range 16).map fun i => fp32 (cword m x i)
  quantise (Fin.ofNat 4 (bvf b 35 34)) xs (if bvf b 36 36 = 1 then some (bvf a 63 32) else none)

def cqntRun (a b : Word) (m : Memory) : Memory :=
  let k := cqntBlock a b m
  memSet (memPutBytes m (64 * bvf b 12 0 + 16 * bvf b 14 13) (n4Bytes k.codes)) (64 * bvf b 27 15 + bvf b 33 28)
    (BitVec.ofNat 8 k.scale)

/-- CATOM and CCAS over the lanes of an entry, in order (R164 to R166). -/
def catomRun (f : Word → Lane → Word) (m : Memory) : List Lane → Memory × List (ThreadKey × Nat × Word)
  | [] => (m, [])
  | l :: ls =>
    let old := BitVec.ofNat 64 (memNat m l.off 4)
    let r := catomRun f (memPut m l.off 4 (f old l).toNat) ls
    (r.1, (l.thread, l.tag, old) :: r.2)

/-- The values that an LDS lane gets. -/
def ldsReturns (m : Memory) (size : Nat) (sx : Bool) (l : Lane) : List (ThreadKey × Nat × Word) :=
  if size = 16 then
    [(l.thread, l.tag, BitVec.ofNat 64 (memNat m l.off 8)), (l.thread, l.tag + 1, BitVec.ofNat 64 (memNat m (l.off + 8) 8))]
  else [(l.thread, l.tag, loadValue size sx (memBytes m l.off size))]

/-- What serving an entry makes of the bytes, the values it returns and the flags it sets. -/
def entryEffect (e : BankEntry) (m : Memory) : Memory × List (ThreadKey × Nat × Word) × BitVec 3 :=
  let l := e.lanes.headD ⟨.handler ⟨0, 0⟩ 0, 0, 0, 0, 0⟩
  match e.body with
  | .lds size sx => (m, e.lanes.flatMap (ldsReturns m size sx), 0)
  | .sts size => (e.lanes.foldl (fun m x => memPut m x.off size x.x.toNat) m, [], 0)
  | .catom op => let r := catomRun (fun old x => atomNew op .w32 old x.x) m e.lanes; (r.1, r.2, 0)
  | .ccas =>
    let r := catomRun (fun old x => if old.toNat = zval 32 x.x then x.y else old) m e.lanes
    (r.1, r.2, 0)
  | .cvec op long =>
    (cvecRun op long (if long then l.y >>> 32 else l.y) (l.y >>> 32) m
      ((setLines l.x).zip (if long then setLines (bvput l.y 23 16 (bvf l.x 23 16)) else setLines l.x)), [], 0)
  | .cred op => (m, [(l.thread, l.tag, credRun op m (setLines l.x))], 0)
  | .csmx =>
    let m1 := csmxRun l.y m (setLines l.x)
    (m1, [(l.thread, l.tag, credRun .sum m1 (setLines l.x))], 0)
  | .ccvt => (ccvtRun l.x l.y m, [], 0)
  | .cqnt => (cqntRun l.x l.y m, [], (cqntBlock l.x l.y m).flags)
  | .bar _ => (m, [], 0)

/-- The scratchpad bytes that an entry writes, for the tile operations in progress (R271), whatever they held. A CCAS that finds
another value, and BWAIT, write nothing. -/
def entryWrites (e : BankEntry) (m : Memory) : List Nat :=
  let l := e.lanes.headD ⟨.handler ⟨0, 0⟩ 0, 0, 0, 0, 0⟩
  let set := (setLines l.x).flatMap fun x => rangeFrom (64 * x) 64
  match e.body with
  | .lds _ _ | .cred _ => []
  | .sts size => e.lanes.flatMap fun x => rangeFrom x.off size
  | .catom _ => e.lanes.flatMap fun x => rangeFrom x.off 4
  | .ccas => (e.lanes.zip (entryEffect e m).2.1).flatMap fun x =>
      if x.2.2.2.toNat = zval 32 x.1.x then rangeFrom x.1.off 4 else []
  | .cvec _ _ | .csmx | .ccvt => set
  | .cqnt => rangeFrom (64 * bvf l.y 12 0 + 16 * bvf l.y 14 13) 16 ++ [64 * bvf l.y 27 15 + bvf l.y 33 28]
  | .bar op => if op = .bwait then [] else rangeFrom l.off 32

def taintScr (s : State) (gid id : Nat) (bytes : List Nat) : State :=
  { s with engs := s.engs.map fun e =>
      if e.1 < id ∧ e.2.gid = gid ∧ (e.2.state = .pending ∨ e.2.state = .flight) then
        (e.1, { e.2 with taintScr := e.2.taintScr ++ bytes }) else e }

/-! ### BANK_SERVE (R148) -/

/-- An entry of a queue is eligible: in the request queue, its lines Present, no older entry with one of its threads. -/
def entryEligible (s : State) (q : List BankEntry) (i : Nat) (e : BankEntry) : Bool :=
  decide (i < 16) && e.lines.all (fun l => !lineAbsent s e.gid l) &&
  (q.take i).all fun o => o.lanes.all fun x => e.lanes.all fun y => x.thread != y.thread

/-- The eligible entries of a bank, in queue order. -/
def eligibleEntries (s : State) (c : CoreId) (b : Fin 32) : List BankEntry :=
  let q := bankQueue s c b
  (q.zipIdx.filter fun x => entryEligible s q x.2 x.1).map (·.1)

/-- The position of a quarter after the rotating pointer. -/
def turnOf (ptr q : Fin 4) : Nat := (q.val + 4 - ptr.val) % 4

/-- The entry that a bank begins: the oldest; among equals the first quarter from the rotating pointer. The flag says that
the pointer decided a tie. -/
def pickEntry (s : State) (c : CoreId) (b : Fin 32) : Option (BankEntry × Bool) :=
  let es := eligibleEntries s c b
  match es with
  | [] => none
  | e :: _ =>
    let age := es.foldl (fun m x => min m x.age) e.age
    let old := es.filter fun x => x.age = age
    let ptr := (coreOf s c).ptr[b]
    match sortBy (fun x y => decide (turnOf ptr x.quarter < turnOf ptr y.quarter)) old with
    | [] => none
    | x :: _ => some (x, old.any fun y => y.quarter ≠ x.quarter)

/-- The values of an entry reach their collectors (R150). -/
def collect (s : State) (got : List (ThreadKey × Nat × Word)) (lanes : List Lane) : State :=
  { s with ops := lanes.foldl (fun o l => tmod o l.tag fun x =>
      match x.body with
      | .returns left g => { x with body := .returns (left - 1) (g ++ got.filter fun y => y.1 = l.thread) }
      | _ => x) s.ops }

/-- The step of a thread whose barrier word was served, or whose wait ended in a saved image, ends at its boundary (R356). -/
def servedSteps (s : State) (ts : List ThreadKey) : State :=
  let stops := ts.filter fun t => ((threadOf s t).map fun th => th.step == .counted && (match th.status with
    | .live .ready | .live .stalled | .stopped .ready | .stopped .stalled => true
    | _ => false)).getD false
  match stops with
  | [] => s
  | t :: _ =>
    takeFaults (modThreads s stops fun _ th => { th with step := .off }) (coreOfThread s t)
      (stops.map fun x => ⟨x, .brk, pcOf s x, 1, 0, none⟩)

/-- A barrier entry that faults: its threads go back before the word (R281). -/
def undoBar (s : State) (lanes : List Lane) : State :=
  lanes.foldl (fun a l => modThread (dropReturn a l.tag) l.thread fun th =>
    match th.inBar with
    | some (_, r) => { th with regs := r, inBar := none, pc := th.pc - 4 }
    | none => th) s

/-- Serves a barrier entry (R281, R282). -/
def serveBar (s : State) (e : BankEntry) (op : BarOp) : State :=
  let off := (e.lanes.headD ⟨.handler ⟨0, 0⟩ 0, 0, 0, 0, 0⟩).off
  let r := barEntry s e.gid op (.scratch off) (e.lanes.map fun l => ⟨l.thread, l.x.toNat, l.tag⟩) fun t => pcOf s t - 4
  match r.1 with
  | f :: fs => takeFaults (undoBar s e.lanes) e.core (f :: fs)
  | [] =>
    servedSteps (taintScr r.2 e.gid e.word (entryWrites e [])) (e.lanes.map (·.thread))

/-- Serves an entry: whole, at once (R148). -/
def serveEntry (s : State) (e : BankEntry) : State :=
  match e.body with
  | .bar op => serveBar s e op
  | _ =>
    let m := ((groupOf s e.gid).map (·.scratch)).getD []
    let r := entryEffect e m
    let s1 := modGroup s e.gid fun g => { g with scratch := r.1, cstat := g.cstat ||| r.2.2 }
    taintScr (collect s1 r.2.1 (if r.2.1 = [] then [] else e.lanes)) e.gid e.word (entryWrites e m)

/-- BANK_SERVE. -/
def execBankServe (c : CoreId) (bank : Fin 32) (s : State) : Host.Outcome State Fault Refusal :=
  match pickEntry s c bank with
  | none => .next s
  | some (e, tie) =>
    let s1 : State := { s with banks := s.banks.erase e }
    let s2 := if tie then modCore s1 c fun k => { k with ptr := k.ptr.set bank (k.ptr[bank] + 1) } else s1
    .next (settleAccess (serveEntry s2 e))

end Sys2Proof.Machine
end

