-- ==== Sys2Proof/Machine/Barrier.lean ====
section
/-! DEFINITION. The barrier words (spec/12_barrier.md R280 to R283). -/

namespace Sys2Proof.Machine

/-- One thread's part of a barrier word: its object and its operand. -/
structure BarReq where
  thread : ThreadKey
  obj : BarObj
  b : Word
  deriving DecidableEq, Repr

/-- The checks of R281 for a thread, and the state that its translation leaves. An ALIGN entry shows operand a as it stands
(DESIGN CHOICE, unsafe: notes/assumptions/122.md). -/
def barReq (s : State) (t : ThreadKey) (op : BarOp) (a b : Word) : (FaultRec ⊕ BarReq) × State :=
  let bad := op == .binit && bvf b 63 16 != 0
  if bvf a 4 1 ≠ 0 then (.inl (addrFault s t .align a.toNat), s)
  else if a.getLsbD 0 = false then
    match offFault s t a.toNat 32 with
    | some f => (.inl f, s)
    | none => (if bad then .inl (plainFault s t .illegal) else .inr ⟨t, .scratch a.toNat, b⟩, s)
  else
    let va := a.toNat - 1
    let r := translateFor s t va ⟨true, true, false⟩
    match r.1 with
    | .page => (.inl (addrFault s t .page va), r.2)
    | .viol k => (.inl (violFault s t k 0 va), r.2)
    | .ok x =>
      (if bad || !x.attr.carve then .inl (plainFault s t .illegal) else .inr ⟨t, .carve x.loc, b⟩, r.2)

def barReqs (s : State) (op : BarOp) (a b : ThreadKey → Word) : List ThreadKey → List FaultRec × List BarReq × State
  | [] => ([], [], s)
  | t :: ts =>
    let r := barReq s t op (a t) (b t)
    let q := barReqs r.2 op a b ts
    match r.1 with
    | .inl f => (f :: q.1, q.2)
    | .inr x => (q.1, x :: q.2.1, q.2.2)

/-- The release of R231 that an arrival waits for: the thread's earlier accesses have taken effect; and what the acquire of a BWAIT's
return, of a scope not yet known, comes after (R229, DEDUCED, safe: notes/assumptions/31.md). -/
def arrivalReady (s : State) (op : BarOp) (t : ThreadKey) : Bool :=
  match op with
  | .barr | .barrx => releaseReady s .die t && !bankPending s t
  | .bwait => acquireReady s .sys t
  | _ => true

/-- A command on a carve-out object comes after the thread's earlier acquires (R226, R229); R230 excepts scratchpad. -/
def carveAcquired (s : State) (r : BarReq) : Bool :=
  match r.obj with
  | .scratch _ => true
  | .carve _ => !acqPending s r.thread

/-- R300: the away threads of the groups that issue a BWAIT are recalled. -/
def recallGroup (s : State) (gid : Nat) : State :=
  { s with threads := s.threads.map fun e =>
      if gidOf e.1 = some gid ∧ (e.2.away.isSome ∧ !e.2.isEnded) then (e.1, { e.2 with recalled := true }) else e }

/-- Own accesses of a thread to the bytes of a carve-out object that a command of its own must follow (R224): queued stores and
loads not yet returned. -/
def carveBehind (s : State) (r : BarReq) : Bool :=
  match r.obj with
  | .scratch _ => false
  | .carve pa =>
    let meets (a n : Nat) : Bool := decide (a < pa + 32) && decide (pa < a + n)
    (s.slots.any fun e => e.2.storeq.any fun x => decide (x.thread = r.thread) && meets x.pa x.data.length) ||
    s.ops.any fun e => match e.2.body with
      | .load t a n _ _ _ _ _ _ => decide (t = r.thread) && meets a n
      | .atomic _ n _ items _ => items.any fun x => decide (x.thread = r.thread) && meets x.pa n
      | .returns _ _ => false
      | .back _ _ => false

/-- The result slot of a barrier word. -/
def barGive (s : State) (d : Option PDst) (t : ThreadKey) (tag : Nat) : State :=
  match d with
  | some p => giveThread s t p 0 0 (some tag)
  | none => s

/-- The requests on scratchpad objects, each with the tag of its home warp's returns (R150). -/
def barReqsIn (tag : Nat) (ws : List WarpKey) (rs : List BarReq) : List Req :=
  rs.filterMap fun r => match r.obj with
    | .scratch off => some ⟨[off / 64], ⟨r.thread, off, r.b, 0, warpTag tag ws (warpKeyOf r.thread)⟩⟩
    | .carve _ => none

/-- The returns that a barrier word owes to its home warps (R150). -/
def barCount (s : State) (d : Option PDst) (reqs : List Req) : State :=
  if d.isNone then s
  else { s with ops := (dedup (reqs.map fun r => (r.lane.tag, warpKeyOf r.lane.thread))).foldl (fun o x =>
    let mine := (reqs.filter fun r => r.lane.tag = x.1).map (·.lane.thread)
    tset o x.1 { core := s.focus.core, warp := x.2, threads := mine, crucible := true
                 body := .returns mine.length [] : Op }) s.ops }

/-- The entries on scratchpad objects enter their banks; each thread is Stalled until its entry is served (R283). -/
def barEnter (s : State) (op : BarOp) (d : Option PDst) (tag : Nat) (ws : List WarpKey) (rs : List BarReq) : State :=
  let reqs := barReqsIn tag ws rs
  let es := reqs.foldl (fun es r =>
    let e : BankEntry :=
      { word := tag, core := s.focus.core, bank := bankOf (r.lane.off / 64), gid := (gidOf r.lane.thread).getD 0
        age := cycOf s s.focus.core, quarter := s.focus.quarter, lines := r.lines, lanes := [r.lane], body := .bar op }
    if es.any fun x => x.gid == e.gid && (x.lanes.head?.map (·.off)) == some r.lane.off then
      es.map fun x => if x.gid = e.gid ∧ (x.lanes.head?.map (·.off)) = some r.lane.off then { x with lanes := x.lanes ++ e.lanes } else x
    else es ++ [e]) []
  let s1 := reqs.foldl (fun a r =>
    barGive (modThread a r.lane.thread fun th => { th with inBar := some (tag, th.regs), status := .live .stalled }) d
      r.lane.thread tag)
    (barCount { s with banks := s.banks ++ es } d reqs)
  reqs.foldl holdOnLines s1

/-- The room for the entries on scratchpad objects (R147). -/
def barRoom (s : State) (rs : List BarReq) : Bool :=
  rs.all fun r => match r.obj with
    | .scratch off =>
      let n := (bankQueue s s.focus.core (bankOf (off / 64))).length
      decide (n ≤ 16) && decide (n + (dedup (rs.filterMap fun x => match x.obj with
        | .scratch o => if bankOf (o / 64) = bankOf (off / 64) then some (gidOf x.thread, o) else none
        | .carve _ => none)).length ≤ 32)
    | .carve _ => true

/-- The entry of one carve-out object, applied whole at its slice: it takes effect, or its threads that fault stop the
core. The flag of a thread says that it goes on (DESIGN CHOICE, unsafe: notes/assumptions/63.md). -/
def barCarve (s : State) (op : BarOp) (d : Option PDst) (tag : Nat) (pa : Nat) (rs : List BarReq) :
    List FaultRec × State :=
  let mine := rs.filter fun r => r.obj = .carve pa
  let gid := ((mine.head?).map fun r => (gidOf r.thread).getD 0).getD 0
  let lanes := mine.map fun r => (⟨r.thread, r.b.toNat, tag⟩ : BarLane)
  match (barEntry s gid op (.carve pa) lanes (pcOf s)).1 with
  | f :: fs => (f :: fs, s)
  | [] =>
    let s1 := (barEntry (mine.foldl (fun a r => barGive a d r.thread tag) s) gid op (.carve pa) lanes (pcOf s)).2
    ([], if op = .bwait then s1 else taintMem s1 tag pa 32)

/-- The carve-out objects that requests name. -/
def carveObjs (rs : List BarReq) : List Nat :=
  dedup (rs.filterMap fun r => match r.obj with
    | .carve pa => some pa
    | .scratch _ => none)

/-- All carve-out entries, in order: the faults of those that fault, the objects of those, and the state. -/
def barCarves (s : State) (op : BarOp) (d : Option PDst) (tag : Nat) (rs : List BarReq) :
    List Nat → List FaultRec × List Nat × State
  | [] => ([], [], s)
  | pa :: l =>
    let r := barCarve s op d tag pa rs
    let q := barCarves r.2 op d tag rs l
    (r.1 ++ q.1, (if r.1 = [] then q.2.1 else pa :: q.2.1), q.2.2)

/-- A barrier word: checks at issue (R281), then its entries (R282, R283). -/
def barWord (i : Instr) (op : BarOp) (a : Src) (b : Option Src) (d : Option PDst) (s : State) :
    Host.Outcome State Fault Refusal :=
  issue i (fun ts s =>
    let val (t : ThreadKey) : Word := (b.map (readSrc s t 1)).getD 0
    match barReqs s op (fun t => readSrc s t 0 a) val ts with
    | (f :: fs, _) => .faults (f :: fs)
    | ([], rs, s1) =>
      let ws := warpsOf ts
      if !ts.all (arrivalReady s op) || rs.any (carveBehind s) || !rs.all (carveAcquired s) || !barRoom s rs ||
          (d.isSome && !ws.all fun w => decide (countedWords s w < 8)) then .hold
      else
        let tag := s1.seq
        let s2 : State := { s1 with seq := s1.seq + 1 + 2 * ws.length }
        let s3 := if op = .bwait then (dedup (ts.filterMap gidOf)).foldl recallGroup s2 else s2
        let r := barCarves (barEnter s3 op d tag ws rs) op d tag rs (carveObjs rs)
        let stopped (x : BarReq) : Bool := match x.obj with
          | .carve pa => r.2.1.contains pa
          | .scratch _ => false
        .done (if r.1 = [] then r.2.2 else takeFaults r.2.2 s.focus.core r.1)
          (advance s ((rs.filter fun x => !stopped x).map (·.thread)))) s

def execBinit (a b : Src) (st : Stall) (s : State) := barWord (.binit a b st) .binit a (some b) none s
def execBarr (a : Src) (d : PDst) (st : Stall) (s : State) := barWord (.barr a d st) .barr a none (some d) s
def execBarrx (a b : Src) (d : PDst) (st : Stall) (s : State) := barWord (.barrx a b d st) .barrx a (some b) (some d) s
def execBwait (a b : Src) (d : PDst) (st : Stall) (s : State) := barWord (.bwait a b d st) .bwait a (some b) (some d) s
def execBxin (a b : Src) (st : Stall) (s : State) := barWord (.bxin a b st) .bxin a (some b) none s
def execBxout (a b : Src) (st : Stall) (s : State) := barWord (.bxout a b st) .bxout a (some b) none s

end Sys2Proof.Machine
end

