-- ==== Sys2Proof/Machine/Former.lean ====
section
/-! DEFINITION. Instruction fetch (spec/01_words.md R426) and the issue former (spec/03_thread.md R77 to R81). -/

namespace Sys2Proof.Machine

/-! ### Fetch -/

/-- The outcome of a fetch at an address: a word, or the translation that failed. -/
inductive Fetched where
  | word (w : IWord)
  | miss (r : XRes)
  deriving DecidableEq, Repr

/-- The bytes of a fetch that misses the instruction cache, and CLOCK when they came from home: the die's L2, or home where the line in
the L2 is too old for the threads (R426). -/
def fetchBytes (s : State) (c : CoreId) (ctx : Nat) (x : Xlat) (since : Option Nat) : List Byte × Nat × State :=
  let old := ((l2Of s c.die (lineOf x.loc)).map fun y => !freshFor since x.attr.shared y.filled).getD false
  let s1 := postRequests s none c ctx x.attr (readAsks s (if old then .home else .cache) c false x.loc 4 x.attr none)
  if old then (memBytes s1.mem x.loc 4, s1.clock, s1)
  else
    let r := cacheRead s1 c false x.loc 4 x.attr ctx none
    (r.1, ((l2Of r.2 c.die (lineOf x.loc)).map (·.filled)).getD s.clock, r.2)

/-- R426, R179, R182: the translation with the Exec right; then the instruction cache of the core, else the die's L2
(DEDUCED, safe: notes/assumptions/40.md). -/
def fetchAt (s : State) (c : CoreId) (ctx va : Nat) (since : Option Nat) : Fetched × State :=
  match translate s c.die (some c) ctx va ⟨false, false, true⟩ with
  | (.ok x, s1) =>
    match (tget (coreOf s1 c).icache x.loc).filter fun w => freshFor since x.attr.shared w.filled with
    | some w => (.word w.word, s1)
    | none =>
      let r := fetchBytes s1 c ctx x since
      let w : IWord := BitVec.ofNat 32 (bytesNat r.1)
      (.word w, modCore r.2.2 c fun k => { k with icache := tset k.icache x.loc ⟨w, r.2.1⟩ })
  | (e, s1) => (.miss e, s1)

/-- INSTRUCTION_FETCH_RETURN: the word of a thread's path comes into the instruction cache. A fetch that fails translation
brings nothing; its fault is taken when the path would issue. -/
def execInstructionFetchReturn (t : ThreadKey) (s : State) : Host.Outcome State Fault Refusal :=
  match threadOf s t with
  | none => .next s
  | some th =>
    if th.inPath then .next (fetchAt s th.place.core (ctxIdOf s t) th.pc.toNat (boundSince s [t])).2 else .next s

/-! ### The former (R79, R81) -/

/-- The slots of a quarter. -/
def quarterSlots (q : Fin 4) : List (Fin 64) := (List.range 16).map fun i => Fin.ofNat 64 (q.val * 16 + i)

/-- The threads of the leader of a slot. -/
def leaderThreads (s : State) (c : CoreId) (i : Fin 64) : List ThreadKey :=
  match (slotOf s c i).leader with
  | none => []
  | some k => (slotThreads s c i).filter fun t => ((threadOf s t).map pathKeyOf) = some k

/-- The thread's stall is spent, and nothing keeps it from its next word: a barrier entry (R283), a departure (R287), a recall
(R300), or a recognised pre-emption (R324). -/
def threadSpent (s : State) (t : ThreadKey) : Bool :=
  match threadOf s t with
  | some th => (th.status == .live .ready || th.status == .live .stalled) && decide (th.readyAt ≤ cycOf s th.place.core) &&
      !th.recalled && th.inBar.isNone && th.leaving.isNone && !((groupOfThread s t).map (·.recognised)).getD false
  | none => false

/-- A word that cannot be fetched faults when its path would issue (R184). -/
def wordOrFault (s : State) (t : ThreadKey) (th : Thread) : Bool := (nextWord s t th).isNone || nextReady s t th

/-- R79, but for the unit of the word: Ready, the stall spent, the word fetched, every scoreboarded source available. -/
def threadReady (s : State) (t : ThreadKey) : Bool :=
  threadSpent s t && ((threadOf s t).map fun th => th.status == .live .ready && wordOrFault s t th).getD false

def leaderSpent (s : State) (c : CoreId) (i : Fin 64) : Bool :=
  let ts := leaderThreads s c i
  !ts.isEmpty && ts.all (threadSpent s)

/-- The former fetches the word of a leader whose stall is spent, and its threads that wait for nothing more become Ready. -/
def wakeLeader (c : CoreId) (s : State) (i : Fin 64) : State :=
  if leaderSpent s c i then
    let ts := leaderThreads s c i
    let s1 := (fetchAt s c (((ts.head?).map (ctxIdOf s)).getD 0) (((slotOf s c i).leader.map (·.pc.toNat)).getD 0) (boundSince s ts)).2
    modThreads s1 ts fun t th => if wordOrFault s1 t th then { th with status := .live .ready } else th
  else s

def wakeLeaders (s : State) (c : CoreId) (q : Fin 4) : State := (quarterSlots q).foldl (wakeLeader c) s

/-- The unit of the word refuses these threads (R75, R79): issued now, the word would leave them Stalled where they are.
`run` is the meaning of a word. -/
def heldBy (run : Instr → State → Host.Outcome State Fault Refusal) (s : State) (c : CoreId) (q : Fin 4)
    (ts : List ThreadKey) : Bool :=
  match (ts.head?).bind fun t => (threadOf s t).bind (nextWord s t) with
  | none => false
  | some w =>
    match run (instrOfWord w) { s with focus := ⟨c, q, sortThreads s ts⟩ } with
    | .next s1 => ts.any fun t => ((threadOf s1 t).map fun th =>
        th.status == .live .stalled && decide (th.readyAt ≤ cycOf s c) && th.inBar.isNone).getD false
    | _ => false

/-- R79, R81: the leader of a slot is ready. -/
def leaderReady (run : Instr → State → Host.Outcome State Fault Refusal) (s : State) (c : CoreId) (q : Fin 4) (i : Fin 64) :
    Bool :=
  let ts := leaderThreads s c i
  !ts.isEmpty && ts.all (threadReady s) && !heldBy run s c q ts

/-- R81 step 1: the longest without issuing first, then the lower slot. -/
def olderSlot (s : State) (c : CoreId) (a b : Fin 64) : Bool :=
  decide ((slotOf s c a).last < (slotOf s c b).last) ||
    ((slotOf s c a).last == (slotOf s c b).last && decide (a.val < b.val))

/-- The issue lanes that threads occupy (R297). -/
def lanesOf (s : State) (ts : List ThreadKey) : List (Fin 32) := ts.filterMap fun t => (threadOf s t).map (·.place.lane)

/-- R81 step 3: another ready leader joins where its PC and prefix state match, its lanes are free, and the unit takes it beside
those before it (DEDUCED, safe: notes/assumptions/86.md). -/
def joinLeader (run : Instr → State → Host.Outcome State Fault Refusal) (s : State) (c : CoreId) (q : Fin 4) (k : PathKey)
    (g : List ThreadKey × List (Fin 64)) (i : Fin 64) : List ThreadKey × List (Fin 64) :=
  let ts := leaderThreads s c i
  if (slotOf s c i).leader = some k ∧ (lanesOf s ts).all (fun l => !(lanesOf s g.1).contains l) ∧
      heldBy run s c q (g.1 ++ ts) = false then
    (g.1 ++ ts, g.2 ++ [i])
  else g

/-- The issue group of a quarter (R81): its path, its threads in the order of R297, its slots. -/
def formGroup (run : Instr → State → Host.Outcome State Fault Refusal) (s : State) (c : CoreId) (q : Fin 4) :
    Option (PathKey × List ThreadKey × List (Fin 64)) :=
  match sortBy (olderSlot s c) ((quarterSlots q).filter (leaderReady run s c q)) with
  | [] => none
  | i :: rest =>
    match (slotOf s c i).leader with
    | none => none
    | some k =>
      let g := rest.foldl (joinLeader run s c q k) (leaderThreads s c i, [i])
      some (k, sortThreads s g.1, g.2)

/-- A thread that is held at an OPRDY waits for what its group has issued so far (R274). -/
def markOprdy (s : State) (ts : List ThreadKey) : State :=
  modThreads s ts fun t th => match (nextWord s t th).map instrOfWord with
    | some (.oprdy _) => { th with oprdy := some (th.oprdy.getD s.seq) }
    | _ => th

/-- The unit of its word refuses a leader: its threads are Stalled (R75). -/
def stallHeld (run : Instr → State → Host.Outcome State Fault Refusal) (s : State) (c : CoreId) (q : Fin 4) : State :=
  ((quarterSlots q).filter fun i =>
      let ts := leaderThreads s c i
      !ts.isEmpty && ts.all (threadReady s) && heldBy run s c q ts).foldl (fun a i =>
    stallThreads (markOprdy a (leaderThreads s c i)) (leaderThreads s c i)) s

/-- The former may issue in this cycle: the die runs, the core is not dozing, and nothing was issued yet. -/
def mayIssue (s : State) (c : CoreId) (q : Fin 4) : Bool :=
  let d := dieOf s c.die
  d.pow != .gated && !d.lost && !(coreOf s c).dozing && (coreOf s c).issued[q] != d.cyc + 1

/-- The former's own marks: the cycle of issue; the timer's protection ends (R84); the die is touched (R359). -/
def markIssued (s : State) (c : CoreId) (q : Fin 4) (ctx : Nat) (slots : List (Fin 64)) : State :=
  slots.foldl (fun a i => modSlot a c i fun x => { x with last := (dieOf s c.die).cyc + 1, timed := false })
    (modCore (touchDie s ctx c.die) c fun k => { k with issued := k.issued.set q ((dieOf s c.die).cyc + 1) })

/-- The slots that issue a word: a word that is carried home issues for no ladle (R299). -/
def issuingSlots (i : Instr) (slots : List (Fin 64)) : List (Fin 64) :=
  if (instrShape i).carry then slots.filter fun x => decide (x.val < 60) || x == 63 else slots

/-- The word of an issue group, and the state in which it issues: the group stands in `focus`. -/
inductive Formed where
  | none (s : State)
  | word (i : Instr) (k : PathKey) (ts : List ThreadKey) (slots : List (Fin 64)) (s : State)
  | fetchFault (s : State)

/-- Forms the issue group of a quarter and fetches its word. A fetch that faults stops the core (R184). -/
def formed (run : Instr → State → Host.Outcome State Fault Refusal) (s0 : State) (c : CoreId) (q : Fin 4) : Formed :=
  if !mayIssue s0 c q then .none s0
  else
    let s := wakeLeaders s0 c q
    match formGroup run s c q with
    | none => .none (stallHeld run s c q)
    | some (k, ts, slots) =>
      let ctx := ((ts.head?).map (ctxIdOf s)).getD 0
      match fetchAt (stallHeld run s c q) c ctx k.pc.toNat (boundSince s ts) with
      | (.word w, s1) =>
        .word (instrOfWord w) k ts slots { markIssued s1 c q ctx (issuingSlots (instrOfWord w) slots) with focus := ⟨c, q, ts⟩ }
      | (.miss r, s1) =>
        .fetchFault (takeFaults (markIssued s1 c q ctx slots) c (ts.filterMap fun t => xlatFault s1 t k.pc.toNat r))

/-- The leaders after a word has issued (R80). -/
def afterIssue (s : State) (c : CoreId) (k : PathKey) (ts : List ThreadKey) (slots : List (Fin 64)) : State :=
  slots.foldl (fun a i => settleIssued a k ts c i) s

end Sys2Proof.Machine
end

