-- ==== Sys2Proof/Machine/Int.lean ====
section
/-! DEFINITION. The meanings of the integer and move words (spec/04_register.md R112 to R127). -/

namespace Sys2Proof.Machine

def execIadd (n : Width) (m : SatMode) (a b : Src) (d : Dst) (st : Stall) (s : State) :=
  regWord (.iadd n m a b d st) latShort d [a, b] (fun _ => op2 (aluAddSub false n m)) s

def execIsub (n : Width) (m : SatMode) (a b : Src) (d : Dst) (st : Stall) (s : State) :=
  regWord (.isub n m a b d st) latShort d [a, b] (fun _ => op2 (aluAddSub true n m)) s

def execImul (n : Width) (a b : Src) (d : Dst) (st : Stall) (s : State) :=
  regWord (.imul n a b d st) latLong d [a, b] (fun _ => op2 (aluMulLow n)) s

def execImulhS (n : Width) (a b : Src) (d : Dst) (st : Stall) (s : State) :=
  regWord (.imulhS n a b d st) latLong d [a, b] (fun _ => op2 (aluMulHighS n)) s

def execImulhU (n : Width) (a b : Src) (d : Dst) (st : Stall) (s : State) :=
  regWord (.imulhU n a b d st) latLong d [a, b] (fun _ => op2 (aluMulHighU n)) s

def execImin (n : Width) (uns : Bool) (a b : Src) (d : Dst) (st : Stall) (s : State) :=
  regWord (.imin n uns a b d st) latShort d [a, b] (fun _ => op2 (aluMin n uns)) s

def execImax (n : Width) (uns : Bool) (a b : Src) (d : Dst) (st : Stall) (s : State) :=
  regWord (.imax n uns a b d st) latShort d [a, b] (fun _ => op2 (aluMax n uns)) s

def execIabs (n : Width) (a : Src) (d : Dst) (st : Stall) (s : State) :=
  regWord (.iabs n a d st) latShort d [a] (fun _ => op1 (aluAbs n)) s

def execAndW (a b : Src) (d : Dst) (st : Stall) (s : State) :=
  regWord (.andW a b d st) latShort d [a, b] (fun _ => op2 fun x y => x &&& y) s

def execOrW (a b : Src) (d : Dst) (st : Stall) (s : State) :=
  regWord (.orW a b d st) latShort d [a, b] (fun _ => op2 fun x y => x ||| y) s

def execXorW (a b : Src) (d : Dst) (st : Stall) (s : State) :=
  regWord (.xorW a b d st) latShort d [a, b] (fun _ => op2 fun x y => x ^^^ y) s

def execAndn (a b : Src) (d : Dst) (st : Stall) (s : State) :=
  regWord (.andn a b d st) latShort d [a, b] (fun _ => op2 fun x y => x &&& ~~~y) s

def execShl (n : Width) (a b : Src) (d : Dst) (st : Stall) (s : State) :=
  regWord (.shl n a b d st) latShort d [a, b] (fun _ => op2 (aluShl n)) s

def execShr (n : Width) (a b : Src) (d : Dst) (st : Stall) (s : State) :=
  regWord (.shr n a b d st) latShort d [a, b] (fun _ => op2 (aluShr n)) s

def execSar (n : Width) (a b : Src) (d : Dst) (st : Stall) (s : State) :=
  regWord (.sar n a b d st) latShort d [a, b] (fun _ => op2 (aluSar n)) s

def execRot (n : Width) (a b : Src) (d : Dst) (st : Stall) (s : State) :=
  regWord (.rot n a b d st) latShort d [a, b] (fun _ => op2 (aluRot n)) s

def execPopc (n : Width) (a : Src) (d : Dst) (st : Stall) (s : State) :=
  regWord (.popc n a d st) latLong d [a] (fun _ => op1 (aluPopc n)) s

def execClz (n : Width) (a : Src) (d : Dst) (st : Stall) (s : State) :=
  regWord (.clz n a d st) latLong d [a] (fun _ => op1 (aluClz n)) s

def execBrev (n : Width) (a : Src) (d : Dst) (st : Stall) (s : State) :=
  regWord (.brev n a d st) latLong d [a] (fun _ => op1 (aluBrev n)) s

def execBfe (n : Width) (a b : Src) (d : Dst) (st : Stall) (s : State) :=
  regWord (.bfe n a b d st) latLong d [a, b] (fun _ => op2 (aluBfe n)) s

def execIcmp (n : Width) (rel : ICmpRel) (a b : Src) (d : Dst) (st : Stall) (s : State) :=
  regWord (.icmp n rel a b d st) latShort d [a, b] (fun _ => op2 (aluIcmp n rel)) s

def execLea (sh : Fin 16) (a b : Src) (d : Dst) (st : Stall) (s : State) :=
  regWord (.lea sh a b d st) latShort d [a, b] (fun _ => op2 (aluLea sh)) s

/-- R115. -/
def execMov (a : Src) (d : Dst) (st : Stall) (s : State) :=
  regWord (.mov a d st) latShort d [a] (fun _ => op1 id) s

def execImad (n : Width) (a b c : Src) (uni : Bool) (st : Stall) (s : State) :=
  regWord (.imad n a b c uni st) latLong (cDst c uni) [a, b, c] (fun _ => op3 (aluMad n)) s

def execBfi (n : Width) (a b c : Src) (uni : Bool) (st : Stall) (s : State) :=
  regWord (.bfi n a b c uni st) latLong (cDst c uni) [a, b, c] (fun _ => op3 (aluBfi n)) s

def execSel (a b c : Src) (uni : Bool) (st : Stall) (s : State) :=
  regWord (.sel a b c uni st) latShort (cDst c uni) [a, b, c] (fun _ => op3 aluSel) s

def execIaddi (a : Src) (d : Dst) (imm : BitVec 10) (st : Stall) (s : State) :=
  regWord (.iaddi a d imm st) latShort d [a] (fun p => op1 fun x => x + immOf p imm) s

def execAndi (a : Src) (d : Dst) (imm : BitVec 10) (st : Stall) (s : State) :=
  regWord (.andi a d imm st) latShort d [a] (fun p => op1 fun x => x &&& immOf p imm) s

def execOri (a : Src) (d : Dst) (imm : BitVec 10) (st : Stall) (s : State) :=
  regWord (.ori a d imm st) latShort d [a] (fun p => op1 fun x => x ||| immOf p imm) s

def execXori (a : Src) (d : Dst) (imm : BitVec 10) (st : Stall) (s : State) :=
  regWord (.xori a d imm st) latShort d [a] (fun p => op1 fun x => x ^^^ immOf p imm) s

def execShli (a : Src) (d : Dst) (imm : BitVec 10) (st : Stall) (s : State) :=
  regWord (.shli a d imm st) latShort d [a] (fun p => op1 fun x => aluShli x (immOf p imm)) s

def execShri (a : Src) (d : Dst) (imm : BitVec 10) (st : Stall) (s : State) :=
  regWord (.shri a d imm st) latShort d [a] (fun p => op1 fun x => aluShri x (immOf p imm)) s

def execSari (a : Src) (d : Dst) (imm : BitVec 10) (st : Stall) (s : State) :=
  regWord (.sari a d imm st) latShort d [a] (fun p => op1 fun x => aluSari x (immOf p imm)) s

/-- R115. -/
def execMovi (d : Dst) (imm : BitVec 10) (st : Stall) (s : State) :=
  regWord (.movi d imm st) latShort d [] (fun p _ => immOf p imm) s

/-- The thread of lowest LANE of a home warp among the threads of a group. -/
def lowestLane (w : WarpKey) (ts : List ThreadKey) : Option ThreadKey :=
  (sortBy (fun a b => decide (laneOf a < laneOf b)) (ts.filter fun t => warpKeyOf t = w)).head?

/-- `SMOV` (R115): the active thread of lowest LANE writes its home warp's w register. -/
def execSmov (a : Src) (d : Fin 16) (st : Stall) (s : State) :=
  issue (.smov a d st) (fun ts s =>
    .done ((warpsOf ts).foldl (fun x w =>
        match lowestLane w ts with
        | some j => putUni x w d (readSrc s j 0 a) (cycOf s s.focus.core + latShort)
        | none => x) s)
      (advance s ts)) s

/-- The named register `a` of the lane that `SHFL` names: the home copy of a thread that is away (R116, R288). -/
def laneNamed (s : State) (t : ThreadKey) (a : Fin 32) : RCell :=
  match threadOf s t with
  | none => RCell.zero
  | some th => match th.away with
    | some x => x.home.named[a]
    | none => th.regs.named[a]

/-- The thread of the same warp with a given LANE. -/
def laneThread (t : ThreadKey) (j : Fin 32) : ThreadKey :=
  match t with
  | .home g h _ => .home g h j
  | .handler c _ => .handler c j

/-- `SHFL` (R116): held until every write to the register by any thread of the home warp has landed. -/
def execShfl (a : Fin 32) (b : Src) (d : PDst) (st : Stall) (s : State) :=
  issue (.shfl a b d st) (fun ts s =>
    if ts.all fun t => (List.finRange 32).all fun j =>
        (laneNamed s (laneThread t j) a).landed (cycOf s s.focus.core) then
      .done (ts.foldl (fun x t =>
          giveThread x t d (laneNamed s (laneThread t (Fin.ofNat 32 (readSrc s t 0 b).toNat)) a).val 0 none) s)
        (advance s ts)
    else .hold) s

end Sys2Proof.Machine
end

