-- ==== Sys2Proof/Machine/Grow.lean ====
section
/-! DEFINITION. The REGS words and the granules of the quarter pools (spec/04_register.md R104 to R111). -/

namespace Sys2Proof.Machine

/-- The group is resident on its core. -/
def Group.isResident (g : Group) : Bool := g.phase == .resident || g.phase == .parking

/-- A bind record that is not yet Valid keeps a place for the group. -/
def Group.isPlaced (g : Group) : Bool := g.phase == .queued || g.phase == .returning

/-- Every thread of a home warp has ended (R93); an end away counts from its notice (R302). A home warp that is bound and whose
threads have not started holds its granules. -/
def warpEnded (s : State) (w : WarpKey) : Bool :=
  (s.threads.any fun e => decide (warpKeyOf e.1 = w)) &&
    s.threads.all fun e => decide (warpKeyOf e.1 ≠ w) || (e.2.isEnded && e.2.away.isNone)

/-- The first granule and the number of granules of each home warp that holds a block in a quarter (R104). -/
def blocksOf (s : State) (c : CoreId) (q : Fin 4) : List (WarpKey × Nat × Nat) :=
  s.warps.filterMap fun e =>
    match e.1 with
    | .home g _ =>
      match groupOf s g with
      | some x =>
        if x.core = c ∧ x.quarter = q ∧ (x.isPlaced ∨ (x.isResident ∧ warpEnded s e.1 = false)) then
          some (e.1, e.2.base, e.2.count / 8)
        else none
      | none => none
    | .handler _ => none

/-- A granule of a quarter pool is held; G47 of quarter 3 while a context is loaded (R350). -/
def granuleHeld (s : State) (c : CoreId) (q : Fin 4) (i : Nat) : Bool :=
  (q == 3 && i == 47 && (coreOf s c).ctx.isSome) ||
    (blocksOf s c q).any fun b => decide (b.2.1 ≤ i) && decide (i < b.2.1 + b.2.2)

/-- The core and the quarter of a home warp. -/
def poolOf (s : State) (w : WarpKey) : CoreId × Fin 4 :=
  match w with
  | .home g _ => ((groupOf s g).map fun x => (x.core, x.quarter)).getD (s.focus.core, 0)
  | .handler c => (c, 3)

/-- The status of a growth of a home warp to t (R109). -/
def growStatus (s : State) (w : WarpKey) (t : Nat) : Nat :=
  match tget s.warps w with
  | none => 0
  | some x =>
    let p := poolOf s w
    if t ≤ x.count then 0
    else if 47 < x.base + t / 8 - 1 then 2
    else if (rangeFrom (x.base + x.count / 8) (t / 8 - x.count / 8)).any (granuleHeld s p.1 p.2) then 1 else 0

/-- Named registers lo .. hi - 1 of a lane read 0. -/
def Regs.clearNamed (r : Regs) (lo hi : Nat) : Regs :=
  { r with named := r.named.mapIdx fun i x => if lo ≤ i ∧ i < hi then RCell.zero else x }

/-- The granules are taken and cleared in every lane, and the count becomes t (R105, R109). -/
def growTo (s : State) (w : WarpKey) (t : Nat) : State :=
  let c := ((tget s.warps w).map (·.count)).getD 0
  if t ≤ c then s
  else
    let s1 := modWarp s w fun x => { x with count := t }
    { s1 with threads := s1.threads.map fun e =>
        if warpKeyOf e.1 = w then
          (e.1, match e.2.away with
            | none => { e.2 with regs := e.2.regs.clearNamed c t
                                 inBar := e.2.inBar.map fun b => (b.1, b.2.clearNamed c t) }
            | some a => { e.2 with away := some { a with home := a.home.clearNamed c t } })
        else e }

/-- The target of the REGS words: 8, 16, 24 or 32 for the field values 0 to 3. -/
def growTarget (t : Fin 4) : Nat := 8 * (t.val + 1)

/-- `GROW` (R109, R110): the threads of a home warp whose block cannot extend now wait. -/
def execGrow (t : Fin 4) (st : Stall) (s : State) :=
  issue (.grow t st) (fun ts s =>
    .done ((warpsOf ts).foldl (fun a w =>
        if growStatus a w (growTarget t) = 0 then growTo a w (growTarget t)
        else (ts.filter fun x => warpKeyOf x = w).foldl (fun b x => waitThread b x (.grow (growTarget t))) a) s)
      (advance s ts)) s

/-- `GROW.try` (R109): each thread of a home warp receives its status. -/
def execGrowTry (t : Fin 4) (d : PDst) (st : Stall) (s : State) :=
  issue (.growTry t d st) (fun ts s =>
    .done ((warpsOf ts).foldl (fun a w =>
        let v := growStatus a w (growTarget t)
        (ts.filter fun x => warpKeyOf x = w).foldl (fun b x => giveThread b x d (BitVec.ofNat 64 v) 0 none)
          (if v = 0 then growTo a w (growTarget t) else a)) s)
      (advance s ts)) s

/-- A register of the travelling subset would leave the block (R111) (DEDUCED, safe: notes/assumptions/77.md). -/
def shrinksSubset (s : State) (t : ThreadKey) (n : Nat) : Bool :=
  ((groupOfThread s t).map fun g =>
    g.hdr.migrate && (List.range 32).any fun i => g.hdr.subset.getLsbD i && decide (n ≤ i)).getD false

/-- No write is owed to the registers that would leave the block (R109). -/
def shrinkLanded (s : State) (w : WarpKey) (t : Nat) : Bool :=
  let c := ((tget s.warps w).map (·.count)).getD 0
  (threadsOfWarp s w).all fun k => ((threadOf s k).map fun th =>
    (List.finRange 32).all fun i => decide (i.val < t) || decide (c ≤ i.val) || (th.regs.named[i]).landed (cycOf s s.focus.core)).getD true

/-- `SHRINK` (R109, R111). -/
def execShrink (t : Fin 4) (st : Stall) (s : State) :=
  issue (.shrink t st) (fun ts s =>
    match (ts.filter fun x => shrinksSubset s x (growTarget t)).map fun x => plainFault s x .regRange with
    | f :: fs => .faults (f :: fs)
    | [] =>
      if (warpsOf ts).all fun w => shrinkLanded s w (growTarget t) then
        .done ((warpsOf ts).foldl (fun a w => modWarp a w fun x => { x with count := min x.count (growTarget t) }) s)
          (advance s ts)
      else .hold) s

/-- The targets for which threads of a home warp wait. -/
def growTargets (s : State) (w : WarpKey) : List Nat :=
  s.threads.filterMap fun e =>
    match e.2.wait? with
    | some (.grow t) => if warpKeyOf e.1 = w then some t else none
    | _ => none

/-- A growth of the home warp can be granted. -/
def grantable (s : State) (w : WarpKey) : Bool := (growTargets s w).any fun t => growStatus s w t == 0

/-- The group of a home warp is resident. -/
def warpResident (s : State) (w : WarpKey) : Bool :=
  match w with
  | .home g _ => ((groupOf s g).map (·.isResident)).getD false
  | .handler _ => false

/-- A home warp in a lower slot of the same quarter is served first (R110). -/
def lowerGrant (s : State) (w : WarpKey) : Bool :=
  s.warps.any fun e => warpResident s e.1 && decide (poolOf s e.1 = poolOf s w) && grantable s e.1 &&
    decide (e.2.slot.val < ((tget s.warps w).map (·.slot.val)).getD 0)

/-- GROW_GRANT: the grants that a home warp waits for, smallest target first. -/
def execGrowGrant (gid : Nat) (hwarp : Fin 16) (s : State) : Host.Outcome State Fault Refusal :=
  let w := WarpKey.home gid hwarp
  if !warpResident s w || lowerGrant s w then .next s
  else
    .next ((sortBy (fun a b => decide (a < b)) (dedup (growTargets s w))).foldl (fun a t =>
      if growStatus a w t = 0 then
        (tkeys a.threads fun k th => warpKeyOf k == w && (match th.wait? with
          | some (.grow x) => x == t
          | _ => false)).foldl (fun b k => wakeThread b k 10) (growTo a w t)
      else a) s)

/-- R110: a grant is made in the cycle in which the block can extend, in ascending slot order. -/
def grantGrows (s : State) : State :=
  (sortBy (fun a b => decide (a.2.val < b.2.val))
      (s.warps.filterMap fun e => match e.1 with
        | .home g h => if warpResident s e.1 && grantable s e.1 then some ((g, h), e.2.slot) else none
        | .handler _ => none)).foldl
    (fun a e => match execGrowGrant e.1.1 e.1.2 a with
      | .next x => x
      | _ => a) s

end Sys2Proof.Machine
end

