-- ==== Sys2Proof/Machine/Ladle.lean ====
section
/-! DEFINITION. Ladles: departure, landing, refusal, return, recall, and the words GO, HOME and WHERE
(spec/13_ladle.md R286 to R309). -/

namespace Sys2Proof.Machine

/-! ### What travels (R289, R290) -/

/-- D, the carried queue depth. -/
def carriedDepth (h : Header) : Nat := 4 * 2 ^ h.qdepth.val

/-- The travelling subset, in ascending order. -/
def subsetOf (h : Header) : List (Fin 32) := (List.finRange 32).filter fun i => h.subset.getLsbD i.val

/-- The register area (R289): the subset registers, then q0 to q(D-1). -/
def packArea (h : Header) (r : Regs) : List Word :=
  (subsetOf h).map (fun i => (r.named[i]).val) ++
    (List.range (carriedDepth h)).map fun k => (r.slots[r.qslot (Fin.ofNat 16 k)]).val

/-- The flits behind the header (R289): the area, 8 bytes a register, padded with zero bytes to whole flits. -/
def areaFlits (area : List Word) : List Byte :=
  let b := area.flatMap fun v => natBytes 8 v.toNat
  b ++ List.replicate ((64 - b.length % 64) % 64) 0

/-- The register area of a ladle. -/
def Away.area (a : Away) : List Word :=
  (List.range (a.body.length / 8)).map fun i => BitVec.ofNat 64 (bytesNat ((a.body.drop (8 * i)).take 8))

/-- The flits of a ladle: the header, then the area (R289). -/
def Away.flits (a : Away) : List Byte := natBytes 64 a.header.toNat ++ a.body

/-- Registers of a lane that receives a register area: the other named registers keep those of `r`, the rest of the queue
reads 0 (R291, R301). -/
def unpackArea (h : Header) (area : List Word) (r : Regs) : Regs :=
  let n := (subsetOf h).length
  { head := 0
    slots := (Vector.replicate 16 RCell.zero).mapIdx fun k _ => ⟨(area.drop n).getD k 0, 0, 0, none⟩
    named := (subsetOf h).zipIdx.foldl (fun v x => v.set x.1 ⟨area.getD x.2 0, 0, 0, none⟩) r.named }

/-- The thread's bits in k11 to k0 (R290). -/
def maskBits (s : State) (t : ThreadKey) : BitVec 12 :=
  BitVec.ofNat 12 ((List.finRange 12).foldl (fun v k =>
    v + (if ((warpOf s t).map fun w => (w.k[k]).getLsb (laneOf t)).getD false then 2 ^ k.val else 0)) 0)

/-- The header flit (R290). -/
def ladleHeader (s : State) (t : ThreadKey) (th : Thread) (kind : Fin 4) (home : Place) (pc : Word) : BitVec 512 :=
  let g := groupOfThread s t
  let h := (g.map (·.hdr)).getD Header.zero
  let f (hi lo v : Nat) (x : BitVec 512) : BitVec 512 := bvput x hi lo v
  f 511 256 th.filter.toNat <| f 239 238 kind.val <| f 237 237 (if h.migStrict then 1 else 0) <|
  f 236 233 (subsetOf h).length <| f 232 231 h.qdepth.val <| f 230 229 th.streakRow.val <| f 228 227 th.streak <|
  f 226 172 (pfxBits th.pfx / 2 ^ 38 % 2 ^ 16 * 2 ^ 39 + pfxBits th.pfx / 2 ^ 54 * 2 ^ 38 +
    pfxBits th.pfx / 2 ^ 23 % 2 ^ 14 * 2 ^ 24 + pfxBits th.pfx / 2 ^ 37 % 2 * 2 ^ 23 + pfxBits th.pfx % 2 ^ 22 * 2 +
    pfxBits th.pfx / 2 ^ 22 % 2) <|
  f 171 160 (maskBits s t).toNat <| f 159 154 home.slot.val <| f 153 147 home.core.core.val <| f 146 144 home.core.die.val <|
  f 143 139 (laneOf t).val <| f 138 134 (hwarpOf t).val <| f 133 130 ((g.map (·.group.val)).getD 0) <|
  f 129 98 ((g.map (·.gang.toNat)).getD 0) <| f 97 66 ((g.map (·.launch.toNat)).getD 0) <| f 65 55 (ctxIdOf s t) <|
  f 54 1 (pc.toNat / 4) 0

/-- The Masks copy of the header. -/
def Away.masks (a : Away) : BitVec 12 := BitVec.ofNat 12 (bvf a.header 171 160)

/-- The PC that a ladle carries. -/
def Away.pc (a : Away) : Word := sext 56 (bvf a.header 54 1 * 4 : Nat)

/-- The prefix state that a ladle carries; the must-be-0 bits of a pending MOD or DLN have no field in the header, and stay with
the thread (DESIGN CHOICE, unsafe: notes/assumptions/98.md). -/
def Away.pfx (a : Away) (p : Pfx) : Pfx :=
  { lit := if bvf a.header 172 172 = 1 then some (BitVec.ofNat 22 (bvf a.header 194 173)) else none
    mod := if bvf a.header 195 195 = 1 then some (BitVec.ofNat 14 (bvf a.header 209 196)) else none
    modBad := p.modBad
    dln := if bvf a.header 210 210 = 1 then some (BitVec.ofNat 16 (bvf a.header 226 211)) else none
    dlnBad := p.dlnBad }

/-- The write filter that a ladle carries. -/
def Away.filter (a : Away) : BitVec 256 := BitVec.ofNat 256 (bvf a.header 511 256)

/-! ### Guest places and reports (R295) -/

/-- The guest places of a core, slot 60 and lane 0 first. -/
def guestPlaces : List (Fin 64 × Fin 32) :=
  [60, 61, 62].flatMap fun i => (List.finRange 32).map fun l => (i, l)

/-- The free guest places of a core. -/
def freeGuests (s : State) (c : CoreId) : List (Fin 64 × Fin 32) :=
  let used := s.threads.filterMap fun e =>
    if e.2.isResident ∧ e.2.away.isSome ∧ e.2.place.core = c then some (e.2.place.slot, e.2.place.lane) else none
  guestPlaces.filter fun p => !used.contains p

/-- The cores of a die that have a context loaded. -/
def coresWith (s : State) (d : Fin 8) (ctx : Nat) : List (Fin 128) :=
  (List.finRange 128).filter fun k => (coreOf s ⟨d, k⟩).ctx == some ctx

/-- The die may take work: powered, not lost, and not starting to gate (R295, R298). -/
def Die.takes (x : Die) : Bool :=
  x.pow != .gated && !x.lost && (match x.change with
    | some (.gated, _) => false
    | _ => true)

/-- The cupola offers the guest places of a core: no other context is to be loaded on it, and its die does not start to gate
(R303). -/
def offersGuests (s : State) (c : CoreId) : Bool := (dieOf s c.die).takes && !(coreOf s c).wanted

/-- GUEST_REPORT: the cupola of a die reports its free guest places. -/
def execGuestReport (d : Fin 8) (s : State) : Host.Outcome State Fault Refusal :=
  .next (modDie s d fun x => { x with
    reportAt := s.clock
    reports := (List.finRange 128).filterMap fun k =>
      match (coreOf s ⟨d, k⟩).ctx with
      | some ctx => if offersGuests s ⟨d, k⟩ then some (k, (ctx, (freeGuests s ⟨d, k⟩).length)) else none
      | none => none })

/-- The free places that the latest report of a die shows for a context. -/
def reportedPlaces (s : State) (d : Fin 8) (ctx : Nat) : Nat :=
  ((dieOf s d).reports.filter fun e => e.2.1 == ctx).foldl (fun n e => n + e.2.2) 0

def eligibleDie (s : State) (ctx : Nat) (d : Fin 8) : Bool :=
  (dieOf s d).takes && (ctxOf s ctx).dieMask.getLsbD d.val && decide (0 < reportedPlaces s d ctx)

/-- The die that the runner of a row takes: the most free places, a tie to the even die (DESIGN CHOICE, safe: notes/assumptions/43.md). -/
def chooseDie (s : State) (row : Fin 4) (ctx : Nat) : Option (Fin 8) :=
  let even : Fin 8 := Fin.ofNat 8 (2 * row.val)
  let odd : Fin 8 := Fin.ofNat 8 (2 * row.val + 1)
  match eligibleDie s ctx even, eligibleDie s ctx odd with
  | true, true => some (if reportedPlaces s even ctx < reportedPlaces s odd ctx then odd else even)
  | true, false => some even
  | false, true => some odd
  | false, false => none

/-- The core and the place that the cupola takes: the most free places, a tie to the lower core. -/
def chooseCore (s : State) (d : Fin 8) (ctx : Nat) : Option Place :=
  let best := ((coresWith s d ctx).filter fun k => !(coreOf s ⟨d, k⟩).wanted).foldl (fun (m : Option (Fin 128)) k =>
    let n := (freeGuests s ⟨d, k⟩).length
    if n = 0 then m
    else match m with
      | none => some k
      | some j => if (freeGuests s ⟨d, j⟩).length < n then some k else m) none
  best.bind fun k => (freeGuests s ⟨d, k⟩).head?.map fun p => ⟨⟨d, k⟩, p.1, p.2⟩

/-! ### Departure (R287) -/

/-- The thread may leave: at a boundary, no write owed to it, its release done. -/
def departReady (s : State) (t : ThreadKey) (th : Thread) : Bool :=
  (th.status == .live .ready || th.status == .live .stalled) && th.inBar.isNone &&
    th.regs.landed (cycOf s th.place.core) && releaseReady s .pkg t && !bankPending s t

/-- Items 3 and 4 of R287. -/
def departRelease (s : State) (t : ThreadKey) (th : Thread) : State :=
  let d := th.place.core.die
  let s1 := releaseAct s d (ctxIdOf s t) .pkg
  (linesWhere s1 d fun ln x => x.dirty != 0 && !x.shared && th.filter.getLsbD (filterIdx (ln * 128))).foldl
    (fun a ln => evictLine a d ln) s1

/-- R307: no thread of the same `GO` that comes before it under R297 is still to depart. -/
def departFirst (s : State) (t : ThreadKey) (l : Leaving) : Bool :=
  decide (l.kind ≠ 1) || s.threads.all fun e => !(placeLt s e.1 t && (match e.2.leaving with
    | some m => m.kind == 1 && m.word == l.word
    | none => false))

/-- LADLE_DEPARTURE: the ladle is sent, and the thread enters Travelling. The copy that travels after a `GO` holds its
status 0 (R307). -/
def execLadleDeparture (t : ThreadKey) (s : State) : Host.Outcome State Fault Refusal :=
  match threadOf s t with
  | none => .next s
  | some th =>
    match th.leaving with
    | none => .next s
    | some l =>
      if !departReady s t th || !departFirst s t l then .next s
      else
        let h := ((groupOfThread s t).map (·.hdr)).getD Header.zero
        let s1 := departRelease s t th
        let isGo := l.kind == 1
        let r := if isGo then th.regs.give l.goDst 0 0 none else th.regs
        let pc := if isGo then th.pc + 4 else th.pc
        let home := (th.away.map (·.homePlace)).getD th.place
        let header := ladleHeader s t th l.kind home pc
        let body := areaFlits (packArea h r)
        let a : Away := match th.away with
          | some x => { x with kind := l.kind, header := header, body := body }
          | none =>
            { home := th.regs, homePc := th.pc, homePfx := th.pfx, homePlace := th.place, kind := l.kind, stack := l.stack
              target := none, header := header, body := body, goDst := l.goDst, addr := l.addr, refused := false }
        .next (modThread s1 t fun x => { x with
          status := .travelling
          away := some a
          leaving := none
          pc := pc
          step := if isGo ∧ x.step = .armed then .counted else x.step })

/-! ### Arrival -/

/-- The state in which a thread arrives at a core (R303). -/
def arriveStatus (s : State) (c : CoreId) : Status := if (coreOf s c).stopped then .stopped .ready else .live .ready

/-- A step whose counted word moved the thread stops at its arrival (R356). -/
def arriveStep (s : State) (t : ThreadKey) : State :=
  match threadOf s t with
  | none => s
  | some th =>
    if th.step = .counted then
      takeFaults (modThread s t fun x => { x with step := .off }) th.place.core [⟨t, .brk, th.pc, 1, 0, none⟩]
    else s

/-- The thread is written into a guest place (R296). -/
def landAt (s : State) (t : ThreadKey) (a : Away) (p : Place) : State :=
  let h := ((groupOfThread s t).map (·.hdr)).getD Header.zero
  let s1 := touchDie (applyFilter s p.core a.filter t) (ctxIdOf s t) p.core.die
  let s2 := modThread (modCore s1 p.core fun k => { k with dozing := false }) t fun x => { x with
    status := arriveStatus s p.core
    place := p
    regs := unpackArea h a.area Regs.zero
    pc := a.pc
    pfx := a.pfx x.pfx
    filter := 0
    streak := 0
    readyAt := 0
    wake := ⟨13, false, false⟩ }
  arriveStep s2 t

/-- LADLE_LANDING: the runner chooses the die; at the ladle's arrival its cupola chooses the core and the place. -/
def execLadleLanding (t : ThreadKey) (s : State) : Host.Outcome State Fault Refusal :=
  match threadOf s t with
  | none => .next s
  | some th =>
    match th.status, th.away with
    | .travelling, some a =>
      if a.refused || decide (2 ≤ a.kind.val) then .next s
      else
        let put (x : Away) : State := modThread s t fun y => { y with away := some x }
        match a.target with
        | none =>
          match chooseDie s (rowOfStack a.stack) (ctxIdOf s t) with
          | some d => .next (put { a with target := some d })
          | none => .next (put { a with refused := true })
        | some d =>
          if (dieOf s d).takes then
            match chooseCore s d (ctxIdOf s t) with
            | some p => .next (landAt s t a p)
            | none => .next (put { a with refused := true })
          else .next (put { a with refused := true })
    | _, _ => .next s

/-! ### Refusal (R298) -/

/-- The thread stands at home again as it left, with WAKE Reason 14 and the streak counter 0 (R200). -/
def backHome (s : State) (t : ThreadKey) (a : Away) : State :=
  modThread s t fun x => { x with
    status := .live .ready, place := a.homePlace, regs := a.home, pc := a.homePc, pfx := a.homePfx, away := none
    readyAt := 0, wake := ⟨14, false, false⟩, recalled := false, streak := 0 }

/-- A thread of a stopped core is Stopped at its boundary. -/
def settleStopped (s : State) (t : ThreadKey) (c : CoreId) : State :=
  if (coreOf s c).stopped then
    modThread s t fun x => match x.status with
      | .live _ => { x with status := .stopped .ready }
      | _ => x
  else s

/-- The marked access of a refused thread is executed through the home die's cache (R199): as with Place 00
(DEDUCED, unsafe: notes/assumptions/44.md). -/
def refusedAccess (s : State) (t : ThreadKey) (a : Away) : State :=
  let plain (p : Pfx) : Pfx := { p with mod := p.mod.map fun m => bvput m 8 7 0 }
  let s1 := modThread s t fun x => { x with pfx := plain x.pfx }
  let s2 : State := { s1 with focus := ⟨a.homePlace.core, Fin.ofNat 4 (a.homePlace.slot.val / 16), [t]⟩ }
  match fetchAt s2 a.homePlace.core (ctxIdOf s t) a.homePc.toNat ((groupOfThread s t).map (·.bindAt)) with
  | (.word w, s3) =>
    match instrOfWord w with
    | .ld x d w off st => (match execLd x d w off st s3 with
        | .next s4 => s4
        | _ => s3)
    | .store x d w off st => (match execStore x d w off st s3 with
        | .next s4 => s4
        | _ => s3)
    | _ => s3
  | (.miss _, s3) => s3

/-- LADLE_REFUSAL: the notice reaches the home slot. The thread is home: a `BWAIT` that was held for it is tested again (R300). -/
def execLadleRefusal (t : ThreadKey) (s : State) : Host.Outcome State Fault Refusal :=
  match threadOf s t with
  | none => .next s
  | some th =>
    match th.status, th.away with
    | .travelling, some a =>
      let c := a.homePlace.core
      if !a.refused then .next s
      else if (dieOf s c.die).lost then .next (loseThread s t)
      else
        let strict := ((groupOfThread s t).map (·.hdr.migStrict)).getD false
        let s1 := modThread (backHome s t a) t fun x => { x with
          step := if x.step = .counted then .armed else x.step }
        let home (x : State) : Host.Outcome State Fault Refusal := .next (testHeld x ((gidOf t).getD 0))
        if strict then home (takeFaults (modThread s1 t fun x => { x with wake := th.wake }) c
          [⟨t, .migRef, a.homePc, 0, a.addr, none⟩])
        else if a.kind = 1 then
          let s2 := modThread s1 t fun x => { x with regs := x.regs.give a.goDst 1 0 none, pc := a.homePc + 4 }
          home (settleStopped (stepStops { s2 with focus := ⟨c, 0, [t]⟩ } [t]) t c)
        else home (settleStopped (refusedAccess s1 t a) t c)
    | _, _ => .next s

/-! ### Coming home (R299 to R304) -/

/-- LADLE_RETURN: the thread is home; one whose home die is lost is Lost (R304). -/
def execLadleReturn (t : ThreadKey) (s : State) : Host.Outcome State Fault Refusal :=
  match threadOf s t with
  | none => .next s
  | some th =>
    match th.status, th.away with
    | .travelling, some a =>
      let c := a.homePlace.core
      if decide (a.kind.val < 2) then .next s
      else if (dieOf s c.die).lost then .next (loseThread s t)
      else
        let h := ((groupOfThread s t).map (·.hdr)).getD Header.zero
        let s1 := modThread (applyFilter s c a.filter t) t fun x => { x with
          status := arriveStatus s c
          place := a.homePlace
          regs := unpackArea h a.area a.home
          pc := a.pc
          pfx := a.pfx x.pfx
          away := none
          recalled := false
          filter := 0
          streak := 0
          readyAt := 0
          wake := ⟨15, false, false⟩ }
        .next (testHeld (arriveStep s1 t) ((gidOf t).getD 0))
    | _, _ => .next s

/-- RECALL: at its next boundary an away thread begins its return (R300). -/
def execRecall (t : ThreadKey) (s : State) : Host.Outcome State Fault Refusal :=
  match threadOf s t with
  | none => .next s
  | some th =>
    if th.recalled ∧ th.away.isSome ∧ th.leaving.isNone ∧ (th.status = .live .ready ∨ th.status = .live .stalled) then
      .next (modThread s t fun x => { x with leaving := some ⟨3, 0, .push, 0, 0⟩ })
    else .next s

/-- END_NOTICE: the home slot learns that an away thread has ended (R302). -/
def execEndNotice (t : ThreadKey) (s : State) : Host.Outcome State Fault Refusal :=
  if s.endNotes.contains ⟨t⟩ then
    let s1 : State := { s with endNotes := s.endNotes.erase ⟨t⟩ }
    let s2 := modThread (clearMaskBits s1 t) t fun x => { x with
      place := (x.away.map (·.homePlace)).getD x.place
      away := none
      recalled := false }
    .next (testHeld s2 ((gidOf t).getD 0))
  else .next s

/-! ### GO, HOME and WHERE (R306 to R309) -/

/-- The translations of a word that only names an address: the faults, the places, the state. -/
def placeAll (s : State) (va : ThreadKey → Nat) : List ThreadKey → List FaultRec × List (ThreadKey × Xlat) × State
  | [] => ([], [], s)
  | t :: ts =>
    let r := translateFor s t (va t) ⟨true, false, false⟩
    let q := placeAll r.2 va ts
    match r.1 with
    | .ok x => (q.1, (t, x) :: q.2.1, q.2.2)
    | .page => (addrFault s t .page (va t) :: q.1, q.2)
    | .viol k => (violFault s t k 0 (va t) :: q.1, q.2)

/-- The status that GO pushes without a departure (R307); none where the thread departs. -/
def goStatus (s : State) (t : ThreadKey) (x : Xlat) : Option Nat :=
  if !migratable s t then some 2
  else if isAway s t then some 4
  else if x.attr.carve || x.attr.remote then some 3
  else if rowOfStack (stackOf x.pa) = rowOfDie (coreOfThread s t).die then some 0
  else none

def execGo (a : Src) (d : PDst) (st : Stall) (s : State) :=
  issue (.go a d st) (fun ts s =>
    match placeAll s (fun t => (readSrc s t 0 a).toNat) ts with
    | (f :: fs, _) => .faults (f :: fs)
    | ([], xs, s1) =>
      .done (xs.foldl (fun b e =>
          let b1 := modThread b e.1 fun th => { th with streak := 0 }
          match goStatus s e.1 e.2 with
          | some v => giveThread b1 e.1 d (BitVec.ofNat 64 v) 0 none
          | none => modThread b1 e.1 fun th => { th with leaving := some ⟨1, stackOf e.2.pa, d, readSrc s e.1 0 a, s.seq⟩ })
          { s1 with seq := s1.seq + 1 })
        (advance s ((xs.filter fun e => (goStatus s e.1 e.2).isSome).map (·.1)))) s

/-- `HOME` (R308). -/
def execHomeW (st : Stall) (s : State) :=
  issue (.homeW st) (fun ts s =>
    .done (startCarry s (ts.filter (isAway s))) (advance s ts)) s

/-- The value of WHERE (R309). -/
def whereValue (s : State) (t : ThreadKey) (x : Xlat) : Nat :=
  let far := x.attr.carve || x.attr.remote
  let hops := if far then 3 else if rowOfStack (stackOf x.pa) = rowOfDie (coreOfThread s t).die then 1 else 2
  hops * 2 ^ 36 + (if far then 0 else (stackOf x.pa).val * 2 ^ 32) + ((threadOf s t).map placeBits).getD 0

def execWhereW (a : Src) (d : PDst) (st : Stall) (s : State) :=
  issue (.whereW a d st) (fun ts s =>
    match placeAll s (fun t => (readSrc s t 0 a).toNat) ts with
    | (f :: fs, _) => .faults (f :: fs)
    | ([], xs, s1) =>
      .done (xs.foldl (fun b e => giveThread b e.1 d (BitVec.ofNat 64 (whereValue s e.1 e.2)) 0 none) s1) (advance s ts)) s

end Sys2Proof.Machine
end

