-- ==== Sys2Proof/Machine/Record.lean ====
section
/-! DEFINITION. Tensor records, handles, SEAL, tokens, and the elected execution of the words that act once for each group of
an issue group (spec/11_tile.md R250 to R255; spec/10_transfer.md R240, R243; spec/03_thread.md R83). -/

namespace Sys2Proof.Machine

/-! ### Records (R250, R251) -/

def recKind (r : BitVec 512) : Nat := bvf r 452 450
def recBlk (r : BitVec 512) : Nat := bvf r 449 448
def recDimsM1 (r : BitVec 512) : Nat := bvf r 447 446
def recSpace (r : BitVec 512) : Nat := bvf r 445 444
def recFmt (r : BitVec 512) : Nat := bvf r 443 440
def recBase (r : BitVec 512) : Nat := bvf r 63 0
def recScaleBase (r : BitVec 512) : Nat := bvf r 127 64

/-- SizeM1 of a dimension. -/
def recSizeM1 (r : BitVec 512) (k : Nat) : Nat := bvf r (151 + 24 * k) (128 + 24 * k)
def recSize (r : BitVec 512) (k : Nat) : Nat := recSizeM1 r k + 1

/-- Stride of a dimension from 1 to 3, and of its scale bytes. -/
def recStride (r : BitVec 512) (k : Nat) : Nat := bvf r (223 + 40 * k) (184 + 40 * k)
def recScStride (r : BitVec 512) (k : Nat) : Nat := bvf r (343 + 32 * k) (312 + 32 * k)

/-- Bytes of an element; half a byte counts as 0 (R251). -/
def fmtBytes (f : Nat) : Nat :=
  match f with
  | 0 | 8 => 4
  | 1 | 2 => 2
  | 5 => 0
  | _ => 1

/-- The floating-point format of codes 0 to 4. -/
def recFloat (f : Nat) : FFmt := (ffmtOf f).getD .fp32

/-- eaddr of element (i0, i1, i2, i3) (R251), before it is reduced. -/
def elemAddr (r : BitVec 512) (i0 i1 i2 i3 : Nat) : Nat :=
  recBase r + i1 * recStride r 1 + i2 * recStride r 2 + i3 * recStride r 3 +
    (if recFmt r = 5 then i0 / 2 else i0 * fmtBytes (recFmt r))

/-- saddr of an N4 element (R251). -/
def scaleAddr (r : BitVec 512) (i0 i1 i2 i3 : Nat) : Nat :=
  recScaleBase r + i0 / 32 + i1 * recScStride r 1 + i2 * recScStride r 2 + i3 * recScStride r 3

/-- The last byte of the highest element, and the highest scale byte. -/
def highElem (r : BitVec 512) : Nat :=
  elemAddr r (recSizeM1 r 0) (recSizeM1 r 1) (recSizeM1 r 2) (recSizeM1 r 3) + (fmtBytes (recFmt r) - 1)
def highScale (r : BitVec 512) : Nat := scaleAddr r (recSizeM1 r 0) (recSizeM1 r 1) (recSizeM1 r 2) (recSizeM1 r 3)

/-- The rows of a region: every step above dimension 0. -/
def recRows (r : BitVec 512) : Nat := recSize r 1 * recSize r 2 * recSize r 3

/-! ### The units that a transfer moves: elements, or for N4 its data bytes and scale bytes (R245, R247) -/

/-- Units of a row. -/
def rowUnits (r : BitVec 512) : Nat :=
  if recFmt r = 5 then recSize r 0 / 2 + recSize r 0 / 32 else recSize r 0

def recUnits (r : BitVec 512) : Nat := recRows r * rowUnits r

/-- Bytes of a unit. -/
def unitBytes (r : BitVec 512) : Nat := if recFmt r = 5 then 1 else fmtBytes (recFmt r)

def recBytes (r : BitVec 512) : Nat := recUnits r * unitBytes r

/-- The address of unit k of a row, in its space (R251). -/
def unitAddr (r : BitVec 512) (row k : Nat) : Nat :=
  let i1 := row % recSize r 1
  let i2 := row / recSize r 1 % recSize r 2
  let i3 := row / recSize r 1 / recSize r 2
  (if recFmt r = 5 ∧ recSize r 0 / 2 ≤ k then scaleAddr r ((k - recSize r 0 / 2) * 32) i1 i2 i3
    else if recFmt r = 5 then elemAddr r (2 * k) i1 i2 i3
    else elemAddr r k i1 i2 i3) % 2 ^ 64

/-! ### SEAL (R252 to R254) -/

/-- Reason 1: reserved fields and dimensions above DimsM1. -/
def sealBad1 (r : BitVec 512) : Bool :=
  bvf r 511 453 != 0 ||
  [1, 2, 3].any fun k => decide (recDimsM1 r < k) && (recSizeM1 r k != 0 || recStride r k != 0 || recScStride r k != 0)

def sealBad2 (r : BitVec 512) : Bool :=
  decide (9 ≤ recFmt r) || decide (2 ≤ recSpace r) || decide (4 ≤ recKind r) ||
    (recFmt r != 5 && (recBlk r != 0 || recScaleBase r != 0))

def sealBad3 (r : BitVec 512) : Bool :=
  let w := if recFmt r = 5 then 16 else fmtBytes (recFmt r)
  recBase r % w != 0 || [1, 2, 3].any fun k => decide (k ≤ recDimsM1 r) && recStride r k % w != 0

/-- Two ends of a range of virtual addresses: both canonical, in one half. The highest end is tested before the reduction modulo 2^64
of R251 (DESIGN CHOICE, unsafe: notes/assumptions/121.md). -/
def rangeCanonical (lo hi : Nat) : Bool :=
  canonical lo && decide (hi < 2 ^ 64) && canonical hi && lo / 2 ^ 55 % 2 == hi / 2 ^ 55 % 2

def sealBad4 (r : BitVec 512) : Bool :=
  (recFmt r == 5 && recSize r 0 % 32 != 0) ||
  (if recSpace r = 0 then
    !rangeCanonical (recBase r) (highElem r) || (recFmt r == 5 && !rangeCanonical (recScaleBase r) (highScale r))
  else decide (524288 ≤ highElem r) || (recFmt r == 5 && decide (524288 ≤ highScale r)))

/-- R252. -/
def sealBad5 (r : BitVec 512) : Bool :=
  let two := recDimsM1 r == 1
  let f := recFmt r
  match recKind r with
  | 0 => false
  | 1 => !(two && decide (1 ≤ f) && decide (f ≤ 7) && recSize r 0 % (if f = 5 then 256 else 128) == 0 &&
      recSize r 1 % 128 == 0)
  | 2 => !(two && decide (1 ≤ f) && decide (f ≤ 7) && recSize r 0 % 128 == 0)
  | _ => !(two && (decide (f ≤ 4) || f == 8) && recSize r 0 == 128 && recSpace r == 1)

/-- The first reason of R254 that a record meets by itself; 0 none. -/
def sealReason (r : BitVec 512) : Nat :=
  if sealBad1 r then 1 else if sealBad2 r then 2 else if sealBad3 r then 3 else if sealBad4 r then 4
  else if sealBad5 r then 5 else 0

/-- HandleCount of a context (R347). -/
def handleCount (s : State) (c : Nat) : Nat := bvf (ctxOf s c).live 377 357

/-- An entry of a handle table; free with g = 1 at creation (R253). -/
def handleAt (s : State) (c i : Nat) : Handle := (tget (ctxOf s c).handles i).getD ⟨1, none⟩

/-- The record that a valid handle names (R253). -/
def handleRecord (s : State) (c h : Nat) : Option (BitVec 512) :=
  let i := h / 4096
  if i < handleCount s c ∧ (handleAt s c i).gen = h % 4096 then (handleAt s c i).record else none

def putHandle (s : State) (c i : Nat) (e : Handle) : State := modCtx s c fun x => { x with handles := tset x.handles i e }

/-- Retiring an entry: freed, and g advances from 4095 to 1. -/
def retireHandle (s : State) (c i : Nat) : State :=
  putHandle s c i ⟨if (handleAt s c i).gen = 4095 then 1 else (handleAt s c i).gen + 1, none⟩

/-- The lowest free entry from i on, among n. -/
def freeEntry (s : State) (c : Nat) : Nat → Nat → Option Nat
  | 0, _ => none
  | n + 1, i => if (handleAt s c i).record.isNone then some i else freeEntry s c n (i + 1)

/-- The action of SEAL for a record, and the value it pushes (R254). -/
def sealRecord (s : State) (c h : Nat) (r : BitVec 512) : Nat × State :=
  let free := freeEntry s c (handleCount s c) 0
  let valid := (handleRecord s c h).isSome
  let reason :=
    if sealReason r ≠ 0 then sealReason r
    else if h ≠ 0 ∧ !valid then 7
    else if h = 0 ∧ free.isNone then 6 else 0
  if reason ≠ 0 then (reason * 2 ^ 32, s)
  else
    let s1 := if h ≠ 0 then retireHandle s c (h / 4096) else s
    let x := if h ≠ 0 then h / 4096 else free.getD 0
    let g := (handleAt s1 c x).gen
    (x * 4096 + g, putHandle s1 c x ⟨g, some r⟩)

/-! ### Elected execution (R83, R243) -/

/-- The outcome of an elected execution. -/
inductive Elected where
  | fault (f : FaultRec)
  | hold
  /-- The line of its block is Absent: it waits until the line is Present (R145, R243). -/
  | wait (line : Nat)
  /-- The value that each thread of the group is pushed, if any. -/
  | done (v : Option Nat) (s : State)

/-- The order of threads within a group: home warp, then home lane. -/
def keyLt (a b : ThreadKey) : Bool :=
  decide ((hwarpOf a).val * 32 + (laneOf a).val < (hwarpOf b).val * 32 + (laneOf b).val)

/-- The elected thread of each group of an issue group, in ascending order of its slot. -/
def electedOf (s : State) (ts : List ThreadKey) : List ThreadKey :=
  let gs := dedup (ts.filterMap gidOf)
  let es := gs.filterMap fun g => (sortBy keyLt (ts.filter fun t => gidOf t = some g)).head?
  sortBy (fun a b => match threadOf s a, threadOf s b with
    | some x, some y => decide (x.place.slot.val < y.place.slot.val)
    | _, _ => false) es

/-- What the executions of an issue group's word come to: the faults, whether one is held, the lines that are waited for, the
pushed values, and the state. -/
structure Ran where
  faults : List FaultRec
  held : Bool
  waits : List (ThreadKey × Nat)
  values : List (ThreadKey × Option Nat)
  state : State

/-- Executes each group's word in turn. -/
def runElected (f : State → ThreadKey → Elected) : List ThreadKey → State → Ran
  | [], s => ⟨[], false, [], [], s⟩
  | e :: l, s =>
    match f s e with
    | .fault x => let q := runElected f l s; { q with faults := x :: q.faults }
    | .hold => { runElected f l s with held := true }
    | .wait n => let q := runElected f l s; { q with waits := (e, n) :: q.waits }
    | .done v s1 => let q := runElected f l s1; { q with values := (e, v) :: q.values }

/-- The threads of a group whose elected thread's block stands on an Absent line are Waiting together, and issue the word again once
it is Present (DEDUCED, unsafe: notes/assumptions/99.md). -/
def waitBlocks (s : State) (ts : List ThreadKey) (ws : List (ThreadKey × Nat)) : State :=
  ts.foldl (fun a t => match ws.find? fun w => gidOf w.1 = gidOf t with
    | some w => waitThread a t (.lines [w.2])
    | none => a) s

/-- A word executed once for each group by its elected thread; each active thread gets its own group's value (R83). -/
def electedAct (d : Option PDst) (f : State → ThreadKey → Elected) (ts : List ThreadKey) (s : State) : Act :=
  let r := runElected f (electedOf s ts) s
  match r.faults, r.waits with
  | x :: xs, _ => .faults (x :: xs)
  | [], w :: ws => .done (waitBlocks s ts (w :: ws)) []
  | [], [] =>
    if r.held then .hold
    else .done (ts.foldl (fun a t =>
        match d, r.values.find? fun v => gidOf v.1 = gidOf t with
        | some p, some (_, some v) => giveThread a t p (BitVec.ofNat 64 v) 0 none
        | _, _ => a) r.state)
      (advance s ts)

def electedWord (i : Instr) (d : Option PDst) (f : State → ThreadKey → Elected) (s : State) :
    Host.Outcome State Fault Refusal :=
  issue i (electedAct d f) s

/-- Checks 1 and 2 of R243 and R259 for an operand a that names a 64-byte line. -/
def blockFault (s : State) (t : ThreadKey) (a : Nat) : Option FaultRec :=
  if a % 64 ≠ 0 then some (addrFault s t .align a)
  else if scratchSize s t ≤ a then some (violFault s t 8 1 a) else none

def blockAbsent (s : State) (t : ThreadKey) (a : Nat) : Bool := lineAbsent s ((gidOf t).getD 0) (a / 64)

/-- The line may be read as the youngest entry of its bank (R148, R243): no earlier access of the thread waits there, the entry would
stand in the request queue, and every entry that the bank would begin before it has been served. -/
def blockReady (s : State) (t : ThreadKey) (a : Nat) : Bool :=
  let c := ((threadOf s t).map (·.place.core)).getD s.focus.core
  let b := bankOf (a / 64)
  decide ((bankQueue s c b).length < 16) && (eligibleEntries s c b).isEmpty &&
    (bankQueue s c b).all fun e => e.lanes.all fun l => l.thread != t

/-- 64 bytes of a group's scratchpad. -/
def readBlock (s : State) (t : ThreadKey) (a : Nat) : BitVec 512 :=
  BitVec.ofNat 512 (((groupOfThread s t).map fun g => memNat g.scratch a 64).getD 0)

/-- SEAL for an elected thread (R254). -/
def sealOne (a b : Src) (s : State) (t : ThreadKey) : Elected :=
  let av := readSrc s t 0 a
  let bv := readSrc s t 1 b
  let c := ctxIdOf s t
  let h := bvf bv 31 0
  if bvf bv 63 33 ≠ 0 ∨ (bv.getLsbD 32 = true ∧ av ≠ 0) then .fault (plainFault s t .illegal)
  else match blockFault s t av.toNat with
    | some f => .fault f
    | none =>
      if bv.getLsbD 32 then
        match handleRecord s c h with
        | some _ => .done (some 0) (retireHandle s c (h / 4096))
        | none => .done (some (7 * 2 ^ 32)) s
      else if blockAbsent s t av.toNat then .wait (av.toNat / 64)
      else if !blockReady s t av.toNat then .hold
      else
        let r := sealRecord s c h (readBlock s t av.toNat)
        .done (some r.1) r.2

def execSeal (a b : Src) (d : PDst) (st : Stall) (s : State) :=
  electedWord (.seal a b d st) (some d) (sealOne a b) s

/-! ### Tokens and the dependency table (R240) -/

/-- The operations of a group, in issue order. -/
def engsOf (s : State) (gid : Nat) : Tab Nat Eng := s.engs.filter fun e => e.2.gid = gid

/-- The dependency table of a core has room (R240). -/
def tableRoom (s : State) (c : CoreId) : Bool := decide ((s.engs.filter fun e => e.2.core = c).length < 64)

/-- The incomplete operation that a token names, if any. -/
def tokenOp (s : State) (gid tok : Nat) : Option Nat :=
  (tkeys s.engs fun _ e => e.gid == gid && e.token == tok && e.named).getLast?

/-- The status of a complete operation that a token names. -/
def tokenEnd (s : State) (gid tok : Nat) : Option TokenEnd := (groupOf s gid).bind fun g => tget g.statuses tok

/-- An input token (R240, R256): the incomplete operation it names; and whether it names one that is Faulted. A transfer's token that
names no operation of the group is no input, and an operation that is Faulted already makes the new one Faulted, as for tile words
and for an input that completes later (DESIGN CHOICE, unsafe: notes/assumptions/96.md). -/
def inputOp (s : State) (gid tok : Nat) : Option Nat × Bool :=
  if tok = 0 ∨ tok = 0xFFFF then (none, false)
  else match tokenOp s gid tok with
    | some op => (some op, false)
    | none => (none, ((tokenEnd s gid tok).map fun e => e.status % 2 == 1).getD false)

/-- The token after one. -/
def nextToken (t : Nat) : Nat := if t + 1 = 0xFFFF then 1 else t + 1

/-- Takes a token and a dependency-table entry for an operation; an older operation with that token loses its name (R240). -/
def addEng (s : State) (gid : Nat) (e : Eng) : Nat × State :=
  let tok := ((groupOf s gid).map (·.token)).getD 1
  let old := s.engs.map fun o => if o.2.gid = gid ∧ o.2.token = tok then (o.1, { o.2 with named := false }) else o
  (tok, { modGroup s gid (fun g => { g with token := nextToken tok, statuses := tdel g.statuses tok }) with
          engs := tset old s.seq { e with token := tok }, seq := s.seq + 1 })

/-- An operation with nothing captured yet. -/
def Eng.blank (gid : Nat) (core : CoreId) (t : ThreadKey) (pcNext : Word) (k : EngKind) : Eng :=
  { gid := gid, core := core, thread := t, pcNext := pcNext, token := 0, named := true, kind := k, state := .pending, dispatched := 0, block := 0, src := 0
    dst := 0, in0 := none, in1 := none, poison := false, bar := none, cleared := [], idx := none, asked := false, buf := [], landed := []
    inDone := 0, outDone := 0, shape := (0, 0), rows := (0, 0), slot := 0, index := 0, taintScr := [], taintPa := []
    status := 0, cls := none, deadline := none, scope := .core }

/-- The input fields of an operation, from operand b. -/
def Eng.inputs (e : Eng) (s : State) (gid : Nat) (b : Word) : Eng :=
  let x := inputOp s gid (bvf b 15 0)
  let y := inputOp s gid (bvf b 31 16)
  { e with in0 := x.1, in1 := y.1, poison := x.2 || y.2 }

def EngKind.isTile : EngKind → Bool
  | .mxld => true
  | .mxmm => true
  | .mxsp => true
  | .acz => true
  | .acld => true
  | .acst => true
  | _ => false

/-- The rows and the slot that a tile operation claims conflict with those of another (R260). -/
def claimsMeet (a b : Eng) : Bool :=
  let rows := decide (a.rows.1 < b.rows.1 + b.rows.2) && decide (b.rows.1 < a.rows.1 + a.rows.2)
  let uses (e : Eng) : Bool := e.kind == .mxld || e.kind == .mxmm || e.kind == .mxsp
  let slot := uses a && uses b && a.slot == b.slot && (a.kind == .mxld || b.kind == .mxld)
  a.kind.isTile && b.kind.isTile && (rows || slot)

/-- No operation of the group issued earlier with a conflicting claim is incomplete (R260). -/
def claimsClear (s : State) (id : Nat) (e : Eng) : Bool :=
  s.engs.all fun o => !(decide (o.1 < id) && o.2.gid == e.gid && claimsMeet o.2 e)

/-- The inputs are complete and no earlier conflicting claim remains (R238, R260). -/
def engClear (s : State) (id : Nat) (e : Eng) : Bool :=
  let gone (x : Option Nat) : Bool := match x with
    | some op => (tget s.engs op).isNone
    | none => true
  gone e.in0 && gone e.in1 && claimsClear s id e

/-- The waits on an operation end with its status (R249, R275). -/
def endWaits (s : State) (id : Nat) (e : Eng) (status : Nat) : State :=
  (tkeys s.threads fun _ th => match th.wait? with
    | some (.token (some op) _) => op == id
    | some (.tile op _) => op == id
    | _ => false).foldl (fun a t =>
      match (threadOf a t).bind Thread.wait? with
      | some (.token _ tag) =>
        let a1 := acquireAct a (coreOfThread a t) e.scope
        wakeThread (deliverTo a1 t tag (BitVec.ofNat 64 (if e.kind.isTile then 0 else status))) t 6
      | some (.tile _ tag) =>
        wakeThread (deliverTo (acquireAct a (coreOfThread a t) .core) t tag (BitVec.ofNat 64 status)) t 7
      | _ => a) s

/-! ### The parameter block (R244) -/

def xRnd (b : BitVec 512) : Nat := bvf b 216 214
def xRedOp (b : BitVec 512) : Nat := bvf b 213 212
def xIdxSp (b : BitVec 512) : Nat := bvf b 211 210
def xBarSp (b : BitVec 512) : Nat := bvf b 209 208
def xCount (b : BitVec 512) : Nat := bvf b 207 192 + 1
def xIdx (b : BitVec 512) : Nat := bvf b 191 128
def xBar (b : BitVec 512) : Nat := bvf b 127 64
def xDst (b : BitVec 512) : Nat := bvf b 63 32
def xSrc (b : BitVec 512) : Nat := bvf b 31 0

def usesIdx : EngKind → Bool
  | .gath => true
  | .scat => true
  | _ => false

/-- The bytes that a transfer counts in all: inbound and outbound. -/
def xferBytes (e : Eng) : Nat × Nat :=
  if usesIdx e.kind then
    let n := xCount e.block * rowUnits e.dst * unitBytes e.dst
    (n, n)
  else (recBytes e.dst, recBytes e.src)

/-- A decrement of a barrier object of a group (R247, R284), and the test of its waiters. -/
def barDecrease (s : State) (gid : Nat) (b : BarObj) (inB outB : Nat) (sc : Scope) (xf : Bool) : State :=
  testWaiters (barWrite s gid b (barDecrement (barRead s gid b) inB outB sc xf)) gid b

/-- One decrement that stands out: it is made once the line of its object is Present (R145, R247). -/
def payDue (gid : Nat) (s : State) (x : BarDue) : State :=
  if lineAbsent s gid (x.off / 64) then modGroup s gid fun g => { g with dues := g.dues ++ [x] }
  else barDecrease s gid (.scratch x.off) x.inB x.outB x.scope x.xf

/-- The decrements of a group that stand out are made where the line is Present now. -/
def payDues (s : State) (gid : Nat) : State :=
  (((groupOf s gid).map (·.dues)).getD []).foldl (payDue gid) (modGroup s gid fun g => { g with dues := [] })

/-- Decrements the barrier object of a transfer, if it names one. -/
def countBar (s : State) (e : Eng) (inB outB : Nat) (xf : Bool) : State :=
  match e.bar with
  | none => s
  | some b =>
    if inB = 0 ∧ outB = 0 ∧ xf = false then s
    else match b with
      | .scratch off => payDue e.gid s ⟨off, inB, outB, e.scope, xf⟩
      | .carve pa => barDecrease s e.gid (.carve pa) inB outB e.scope xf

/-- Everything not yet counted is settled. -/
def settleBar (s : State) (e : Eng) (xf : Bool) : State :=
  countBar s e ((xferBytes e).1 - e.inDone) ((xferBytes e).2 - e.outDone) xf

/-- A Faulted MXLD leaves its slot Empty (R263), and Empty in issue order when it is the slot's latest (R258). -/
def emptySlot (s : State) (id : Nat) (e : Eng) : State :=
  if e.kind = .mxld then
    modGroup s e.gid fun g =>
      let h := match g.ws[e.slot].history with
        | some (op, f) => if op = id then none else some (op, f)
        | none => none
      { g with ws := g.ws.set e.slot { WeightSlot.empty with history := h } }
  else s

/-! ### Completion -/

/-- An operation is complete (R238, R261): its entry and claims are released, its token keeps the status while it names it (R240),
what depends on a Faulted one is marked, and the waits end. -/
def completeOne (s : State) (id : Nat) (e : Eng) (faulted : Bool) : State :=
  let status := e.status + (if faulted then 1 else 0)
  let s1 := modGroup { s with engs := tdel s.engs id } e.gid fun g =>
    { g with statuses := if e.named then tset g.statuses e.token ⟨status, e.scope, e.kind.isTile⟩ else g.statuses }
  let s2 : State := if faulted then
      { s1 with engs := s1.engs.map fun o =>
          if o.2.gid = e.gid ∧ o.2.state = .pending ∧
              (o.2.in0 = some id ∨ o.2.in1 = some id ∨ (id < o.1 ∧ claimsMeet e o.2 = true)) then
            (o.1, { o.2 with poison := true }) else o }
    else s1
  settleLines (payDues (endWaits s2 id e status) e.gid)

/-- Every line that an operation has cleared is Present, as far as it goes (R144, R242). -/
def uncover (s : State) (id : Nat) : State := { s with engs := tmod s.engs id fun x => { x with cleared := [] } }

/-- A transfer settles what its barrier object is owed and completes; what an Absent line holds back is taken later, and holds back no
completion (R238, R247). -/
def finishXfer (s : State) (id : Nat) (e : Eng) (faulted : Bool) : State :=
  completeOne (settleBar (uncover s id) e faulted) id { e with cleared := [] } faulted

/-- An operation made Faulted in Pending: no byte moves, its counts settle, an MXLD leaves its slot Empty, and nothing stops (R242,
R261). -/
def quietFault (s : State) (id : Nat) (e : Eng) : State :=
  if e.kind.isTile then completeOne (emptySlot s id e) id e true else finishXfer s id e true

/-- Every Pending operation with an input, or an earlier conflicting claim, that completed Faulted is Faulted in turn, once no earlier
operation with a conflicting claim is incomplete (R260, R261). -/
def drainPoison : Nat → State → State
  | 0, s => s
  | n + 1, s =>
    match s.engs.find? fun e => e.2.state == .pending && e.2.poison && claimsClear s e.1 e.2 with
    | none => s
    | some (id, e) => drainPoison n (quietFault s id e)

/-- After a completion, the operations that a fault makes Faulted. -/
def drainAll (s : State) : State := drainPoison s.engs.length s

/-- The completion of a tile operation, and of those that its fault makes Faulted. -/
def completeEng (s : State) (id : Nat) (e : Eng) (faulted : Bool) : State := drainAll (completeOne s id e faulted)

end Sys2Proof.Machine
end

