-- ==== Sys2Proof/Machine/Transfer.lean ====
section
/-! DEFINITION. Transfers: their words, their life, the elements they move, the packets of STKRED and their landing
(spec/10_transfer.md R238 to R249; spec/18_stack.md R372 to R377; spec/02_numbers.md R72, R73). -/

namespace Sys2Proof.Machine

/-! ### The checks of the parameter block (R243, R244) -/

/-- Check 4 of R243. -/
def xferIllegal (k : EngKind) (b : BitVec 512) : Bool :=
  bvf b 511 217 != 0 ||
  (if k = .stkcvt then xRnd b == 4 || xRnd b == 7 else xRnd b != 0) ||
  (k != .stkred && xRedOp b != 0) ||
  (if usesIdx k then xIdxSp b != 1 && xIdxSp b != 2 else xIdxSp b != 0 || bvf b 207 192 != 0 || xIdx b != 0) ||
  xBarSp b == 3 || (xBarSp b == 0 && xBar b != 0)

/-- The element format of a RedOp (R244). -/
def redFmt (r : Nat) : Nat :=
  match r with
  | 1 => 1
  | 2 => 8
  | _ => 0

def sameSizes (a b : BitVec 512) : Bool := [0, 1, 2, 3].all fun k => recSizeM1 a k == recSizeM1 b k

def cvtFmt (f : Nat) : Bool := f == 0 || f == 1 || f == 3 || f == 4 || f == 5

/-- The record pairs that R245 admits (DEDUCED, unsafe: notes/assumptions/33.md). -/
def xferAdmits (k : EngKind) (b src dst : BitVec 512) : Bool :=
  match k with
  | .copy => sameSizes src dst && recFmt src == recFmt dst
  | .gath => recDimsM1 src == 1 && recSpace src == 0 && recDimsM1 dst == 1 && recSize dst 1 == xCount b &&
      recSizeM1 src 0 == recSizeM1 dst 0 && recFmt src == recFmt dst
  | .scat => recDimsM1 src == 1 && recSize src 1 == xCount b && recDimsM1 dst == 1 && recSpace dst == 0 &&
      recSizeM1 src 0 == recSizeM1 dst 0 && recFmt src == recFmt dst
  | .stkred => recFmt src == redFmt (xRedOp b) && recSpace dst == 0 && sameSizes src dst && recFmt dst == recFmt src
  | .stkcvt => recSpace src == 0 && recSpace dst == 0 && cvtFmt (recFmt src) && cvtFmt (recFmt dst) &&
      recFmt src != recFmt dst && recBase src == recBase dst && sameSizes src dst
  | _ => false

/-! ### Where the units of a transfer lie -/

/-- The place of an address that an engine uses. -/
inductive EngLoc where
  | scr (off : Nat)
  | mem (x : Xlat)
  | page
  | viol (kind space : Nat)
  deriving DecidableEq, Repr

/-- R179, R180, R146: an address of a record's space, for an engine of a core (DESIGN CHOICE, safe: notes/assumptions/38.md). -/
def engLoc (s : State) (e : Eng) (space addr size : Nat) (need : Need) : EngLoc :=
  if space = 1 then
    if scratchSize s e.thread < addr + size then .viol 8 1 else .scr addr
  else
    match (translate s e.core.die (some e.core) (ctxIdOf s e.thread) addr need).1 with
    | .ok x => .mem x
    | .page => .page
    | .viol k => .viol k 0

/-- A page that a stack-side operation cannot use (R245). -/
def stackOnly (l : EngLoc) : EngLoc :=
  match l with
  | .mem x => if x.attr.carve || x.attr.remote then .viol 7 0 else l
  | _ => l

/-- The units that a transfer lands, and the units that it reads. -/
def xferUnits (e : Eng) : Nat :=
  match e.kind with
  | .scat => recUnits e.src
  | _ => recUnits e.dst

def srcUnits (e : Eng) : Nat := if e.kind = .stkcvt then recUnits e.src else xferUnits e

/-- Units of a row of the destination; of the source, the same but in STKCVT. -/
def xferRow (e : Eng) : Nat := rowUnits e.dst
def srcRow (e : Eng) : Nat := if e.kind = .stkcvt then rowUnits e.src else rowUnits e.dst

/-- The index of a row of GATH or SCAT. -/
def idxAt (e : Eng) (row : Nat) : Nat := (e.idx.getD []).getD row 0

/-- The source address of unit n; none for a GATH row with an index out of range (R245). -/
def unitSrc (e : Eng) (n : Nat) : Option Nat :=
  let row := n / srcRow e
  let k := n % srcRow e
  match e.kind with
  | .gath => if idxAt e row < recSize e.src 1 then some (unitAddr e.src (idxAt e row) k) else none
  | _ => some (unitAddr e.src row k)

/-- A later row of the list names the same destination row (R245). -/
def superseded (e : Eng) (row : Nat) : Bool := ((e.idx.getD []).drop (row + 1)).contains (idxAt e row)

/-- The destination address of unit n; none where SCAT writes nothing. -/
def unitDst (e : Eng) (n : Nat) : Option Nat :=
  let row := n / xferRow e
  let k := n % xferRow e
  match e.kind with
  | .scat => if idxAt e row < recSize e.dst 1 ∧ !superseded e row then some (unitAddr e.dst (idxAt e row) k) else none
  | _ => some (unitAddr e.dst row k)

def needRead : Need := ⟨true, false, false⟩
def needWrite : Need := ⟨false, true, false⟩

/-- A source address: a STKCVT needs Write throughout its region (R179). -/
def srcLoc (s : State) (e : Eng) (a : Nat) : EngLoc :=
  if e.kind = .stkcvt then stackOnly (engLoc s e (recSpace e.src) a (unitBytes e.src) needWrite)
  else engLoc s e (recSpace e.src) a (unitBytes e.src) needRead

def dstLoc (s : State) (e : Eng) (a : Nat) : EngLoc :=
  let l := engLoc s e (recSpace e.dst) a (unitBytes e.dst) needWrite
  if e.kind = .stkred ∨ e.kind = .stkcvt then stackOnly l else l

/-- Every address of both records of a STKCVT: it needs Write throughout (R179). -/
def cvtAddrs (e : Eng) : List Nat :=
  ((List.range (recUnits e.src)).map fun n => unitAddr e.src (n / rowUnits e.src) (n % rowUnits e.src)) ++
  ((List.range (recUnits e.dst)).map fun n => unitAddr e.dst (n / rowUnits e.dst) (n % rowUnits e.dst))

/-- Every address that a transfer touches, with its place. -/
def xferLocs (s : State) (e : Eng) (units : List Nat) : List (Nat × EngLoc) :=
  match e.kind with
  | .stkcvt => (cvtAddrs e).map fun a => (a, stackOnly (engLoc s e 0 a 1 needWrite))
  | _ => units.flatMap fun n =>
      ((unitSrc e n).map fun a => (a, srcLoc s e a)).toList ++ ((unitDst e n).map fun a => (a, dstLoc s e a)).toList

/-- Addresses of the index list (R244). The table of R179 names no right for it: these reads need Read
(DESIGN CHOICE, unsafe: notes/assumptions/95.md). -/
def idxLocs (s : State) (e : Eng) : List (Nat × EngLoc) :=
  if usesIdx e.kind then
    (List.range (xCount e.block)).map fun k =>
      let a := (xIdx e.block + 4 * k) % 2 ^ 64
      (a, engLoc s e (if xIdxSp e.block = 1 then 1 else 0) a 4 needRead)
  else []

def locBad : EngLoc → Bool
  | .page => true
  | .viol _ _ => true
  | _ => false

/-- The units that have not landed. -/
def unitsLeft (e : Eng) : List Nat := (List.range (xferUnits e)).filter fun n => !e.landed.contains n

/-- The units whose addresses are still to be used: of STKRED, those that no packet has left for. -/
def unitsOpen (e : Eng) : List Nat :=
  if e.kind = .stkred then (List.range (xferUnits e)).filter fun n => (tget e.buf n).isNone else unitsLeft e

/-- The first page fault of what is left (R238) (DEDUCED, unsafe: notes/assumptions/34.md). -/
def xferFault (s : State) (e : Eng) : Option (Nat × EngLoc) :=
  match (if e.idx.isNone then (idxLocs s e).find? fun x => locBad x.2 else none) with
  | some x => some x
  | none =>
    if usesIdx e.kind ∧ e.idx.isNone then none else (xferLocs s e (unitsOpen e)).find? fun x => locBad x.2

/-! ### Reading and landing -/

/-- A scratchpad line that an earlier transfer has cleared holds the read (DEDUCED, safe: notes/assumptions/39.md). -/
def lineHeld (s : State) (id gid line : Nat) : Bool :=
  s.engs.any fun e => decide (e.1 < id) && e.2.gid == gid && e.2.cleared.contains line

/-- The scope of a place in memory (R232). -/
def placeScope (a : Attr) : Scope := if a.carve then .die else if a.remote then .sys else .pkg

/-- Bytes at a place, at the engine (scratchpad), the slice (carve-out) or home (R201). -/
def engRead (s : State) (id : Nat) (e : Eng) (l : EngLoc) (n : Nat) : Option Nat :=
  match l with
  | .scr off =>
    if lineHeld s id e.gid (off / 64) then none else (groupOf s e.gid).map fun g => memNat g.scratch off n
  | .mem x => some (memNat s.mem x.loc n)
  | _ => none

def engWrite (s : State) (e : Eng) (l : EngLoc) (n v : Nat) : State :=
  match l with
  | .scr off => modGroup s e.gid fun g => { g with scratch := memPut g.scratch off n v }
  | .mem x =>
    if x.attr.carve then hitWatches { s with mem := memPut s.mem x.loc n v } (carveDie x.pa) (lineOf x.loc) false
    else if x.attr.remote then { s with mem := memPut s.mem x.loc n v }
    else homeWrite s x.loc (natBytes n v)
  | _ => s

def modEng (s : State) (id : Nat) (f : Eng → Eng) : State := { s with engs := tmod s.engs id f }

/-- The requests of some bytes, one for each 64-byte block (R364). -/
def spanAsks (us : List (Nat × Nat × Attr)) : List ((Nat × Nat) × Attr) :=
  (dedup (us.map fun u => u.1 / 64)).filterMap fun k =>
    let mine := us.filter fun u => u.1 / 64 = k
    match mine with
    | [] => none
    | u :: _ =>
      let lo := mine.foldl (fun m x => min m x.1) u.1
      some ((lo, mine.foldl (fun m x => max m (x.1 + x.2.1)) 0 - lo), u.2.2)

/-- The DRAM bytes among some places. -/
def dramSpans (n : Nat) (l : List (Nat × EngLoc)) : List (Nat × Nat × Attr) :=
  l.filterMap fun x => match x.2 with
    | .mem y => if y.attr.carve || y.attr.remote then none else some (y.loc, n, y.attr)
    | _ => none

/-- An engine's translations fill the caches and post the reads of their walks (R181, R364). -/
def engWalks (s : State) (e : Eng) (l : List Nat) : State :=
  (dedup (l.map fun a => a / 65536)).foldl (fun a p =>
    (translate a e.core.die (some e.core) (ctxIdOf s e.thread) (p * 65536) ⟨false, false, false⟩).2) s

/-- The addresses outside scratchpad among those that a transfer uses. -/
def memAddrs (space : Nat) (l : List Nat) : List Nat := if space = 1 then [] else l

/-- The translations of a transfer in Flight, once its index list is known (R181). -/
def xferWalks (s : State) (id : Nat) : State :=
  match tget s.engs id with
  | none => s
  | some e =>
    if e.asked || e.state != .flight || (usesIdx e.kind && e.idx.isNone) then s
    else engWalks (modEng s id fun x => { x with asked := true }) e
      (memAddrs (recSpace e.src) ((List.range (srcUnits e)).filterMap (unitSrc e)) ++
        memAddrs (recSpace e.dst) ((List.range (xferUnits e)).filterMap (unitDst e)))

/-- Requests of a transfer arrive, with its class and its stamp (R364). -/
def postXfer (s : State) (id : Nat) (e : Eng) (asks : List ((Nat × Nat) × Attr)) : State :=
  asks.foldl (fun a p => postRequest a (some id) e.core (ctxIdOf s e.thread)
    { p.2 with cls := e.cls.getD p.2.cls, deadline := e.deadline } p.1) s

/-- Accesses of an engine: those to host memory pass the buckets (R387); the first decides, and each takes its bytes. -/
def engTakes (s : State) (e : Eng) (out : Bool) (l : List (EngLoc × Nat)) : Option State :=
  let host := l.filterMap fun x => match x.1 with
    | .mem y => if y.attr.remote then some (y.loc, x.2) else none
    | _ => none
  if (host.head?.map fun x => devicePasses s (ctxIdOf s e.thread) x.1 out x.2).getD true then
    some (host.foldl (fun a x => deviceSpend a (ctxIdOf s e.thread) x.1 out x.2) s)
  else none

/-- An engine's read of DRAM comes behind the packets that its die has sent to the home (R394). -/
def behindFor (s : State) (e : Eng) (l : EngLoc) : State :=
  match l with
  | .mem x => if x.attr.carve || x.attr.remote then s else behindPackets s e.core.die (stackOf x.pa)
  | _ => s

/-- The index list is read, once, in Flight (R239) (DESIGN CHOICE, unsafe: notes/assumptions/35.md). -/
def readIdx (s0 : State) (id : Nat) : State :=
  match tget s0.engs id with
  | none => s0
  | some e =>
    if !usesIdx e.kind || e.idx.isSome || e.state != .flight then s0
    else
      let l := idxLocs s0 e
      let s := l.foldl (fun a x => behindFor a e x.2) s0
      let vs := l.map fun x => engRead s id e x.2 4
      match vs.all Option.isSome, engTakes s e false (l.map fun x => (x.2, 4)) with
      | true, some s2 =>
        let s1 := postXfer (engWalks s2 e (memAddrs (xIdxSp e.block) (l.map (·.1)))) id e (spanAsks (dramSpans 4 l))
        xferWalks (modEng s1 id fun x => { x with idx := some (vs.map fun v => v.getD 0) }) id
      | _, _ => s

/-- A unit of STKRED leaves as a packet for its home stack (R372). -/
def sendPacket (s : State) (id : Nat) (e : Eng) (n v : Nat) (x : Xlat) : State :=
  let k : Packet :=
    { op := some id, threads := [], stack := stackOf x.pa, pa := x.loc, red := some (Fin.ofNat 4 (xRedOp e.block))
      atom := none, values := [BitVec.ofNat 64 v], counts := [(id, n)], redWin := x.attr.redWin
      cls := e.cls.getD x.attr.cls, deadline := e.deadline, core := e.core, ctx := ctxIdOf s e.thread, more := []
      sent := [(e.core.die, s.seq)], applied := false }
  { s with packets := tset s.packets s.seq k, seq := s.seq + 1 }

/-- Reads the source of unit n, once (R232). -/
def unitRead (s0 : State) (id : Nat) (n : Nat) : State :=
  match tget s0.engs id with
  | none => s0
  | some e =>
    if (tget e.buf n).isSome then s0
    else match unitSrc e n with
      | none => modEng s0 id fun x => { x with buf := tset x.buf n 0, status := x.status ||| 16 }
      | some a =>
        let s := behindFor s0 e (srcLoc s0 e a)
        match engRead s id e (srcLoc s e a) (unitBytes e.src), engTakes s e false [(srcLoc s e a, unitBytes e.src)] with
        | none, _ | _, none => s
        | some v, some s2 =>
          let s1 := modEng s2 id fun x => { x with buf := tset x.buf n v }
          if e.kind = .stkred then
            match (unitDst e n).map (dstLoc s e) with
            | some (.mem x) => sendPacket s1 id e n v x
            | _ => s
          else s1

/-- An index of SCAT is out of range (R245). -/
def scatSkips (e : Eng) (n : Nat) : Bool :=
  e.kind == .scat && !decide (idxAt e (n / xferRow e) < recSize e.dst 1)

/-- A row of SCAT that a later one supersedes counts once the elements that it names hold their final row (R247). -/
def finalLanded (e : Eng) (n : Nat) : Bool :=
  let row := n / xferRow e
  e.kind != .scat || !superseded e row ||
    match ((List.range (recSize e.src 1)).filter fun k => idxAt e k = idxAt e row).getLast? with
    | some k => e.landed.contains (k * xferRow e + n % xferRow e)
    | none => true

/-! ### STKCVT (R245) -/

/-- The value of an element of a region, from the source units that were read. -/
def cvtElem (e : Eng) (row i : Nat) : FVal :=
  let u (k : Nat) : Nat := (tget e.buf (row * rowUnits e.src + k)).getD 0
  if recFmt e.src = 5 then n4Value (u (recSize e.src 0 / 2 + i / 32)) (u (i / 2) / 16 ^ (i % 2))
  else fdecode (recFloat (recFmt e.src)) (u i)

/-- The bytes of a converted row: its data, then its scale bytes; and the flags (R60, R64 to R66). -/
def cvtRow (dst : BitVec 512) (rnd : Nat) (vs : List FVal) : List Nat × BitVec 3 :=
  if recFmt dst = 5 then
    let blocks := (List.range (vs.length / 32)).map fun b => quantise (Fin.ofNat 4 (recBlk dst)) ((vs.drop (32 * b)).take 32) none
    (blocks.flatMap (fun k => (n4Bytes k.codes).map (·.toNat)) ++ blocks.map (·.scale),
      blocks.foldl (fun f k => f ||| k.flags) 0)
  else
    let m := rndMode (rndOf rnd) 0
    (vs.map fun v => fround (recFloat (recFmt dst)) m.1 m.2 v, 0)

/-- Unit n of the converted region and the flags of its row, once every source element has been read (R245, R377). -/
def cvtUnit (e : Eng) (n : Nat) : Nat × BitVec 3 :=
  let r := cvtRow e.dst (xRnd e.block) ((List.range (recSize e.src 0)).map (cvtElem e (n / rowUnits e.dst)))
  (r.1.getD (n % rowUnits e.dst) 0, r.2)

/-! ### Landing (R239) -/

/-- The value that lands as unit n, once what it comes from has been read. -/
def unitValue (e : Eng) (n : Nat) : Option Nat :=
  if e.kind = .stkcvt then (if e.buf.length = srcUnits e then some (cvtUnit e n).1 else none) else tget e.buf n

/-- The status bits that the landing of unit n adds (R246). -/
def unitStatus (e : Eng) (n : Nat) : Nat :=
  if e.kind = .stkcvt then (cvtUnit e n).2.toNat * 2 else if scatSkips e n then 16 else 0

/-- Lands unit n (R239). -/
def landOne (id : Nat) (s : State) (n : Nat) : State :=
  match tget s.engs id with
  | none => s
  | some e =>
    match unitValue e n with
    | none => s
    | some v =>
      if e.landed.contains n || e.kind == .stkred || !finalLanded e n then s
      else
        let mark (sc : Scope) (x : State) : State := modEng x id fun y =>
          { y with landed := n :: y.landed, status := y.status ||| unitStatus e n, scope := wider y.scope sc }
        match unitDst e n with
        | none => mark e.scope s
        | some a => match dstLoc s e a, engTakes s e true [(dstLoc s e a, unitBytes e.dst)] with
          | .scr off, _ => mark .core (engWrite s e (.scr off) (unitBytes e.dst) v)
          | .mem x, some s1 => mark (placeScope x.attr) (engWrite s1 e (.mem x) (unitBytes e.dst) v)
          | _, _ => s

/-- The units that land with unit n: of STKCVT, those of its aligned 4-byte word (R377). -/
def landsWith (e : Eng) (n : Nat) : List Nat :=
  if e.kind = .stkcvt then
    (List.range (xferUnits e)).filter fun m => (unitDst e m).map (· / 4) == (unitDst e n).map (· / 4)
  else [n]

def unitLand (s : State) (id : Nat) (n : Nat) : State :=
  match tget s.engs id with
  | none => s
  | some e => (landsWith e n).foldl (landOne id) s

/-- What has been read and has landed between two states arrives as requests: the bytes of one 64-byte block together (R364). So every
request arrives as its access takes effect (R366). -/
def askMoved (s0 s1 : State) (id : Nat) : State :=
  match tget s0.engs id, tget s1.engs id with
  | some a, some b =>
    let read := (List.range (srcUnits b)).filter fun n => (tget a.buf n).isNone && (tget b.buf n).isSome
    let land := (List.range (xferUnits b)).filter fun n => !a.landed.contains n && b.landed.contains n
    let src := read.filterMap fun n => (unitSrc b n).map fun x => (x, srcLoc s0 b x)
    let dst := land.filterMap fun n => (unitDst b n).map fun x => (x, dstLoc s0 b x)
    postXfer s1 id b (spanAsks (dramSpans (unitBytes b.src) src) ++
      (if b.kind = .stkred then [] else spanAsks (dramSpans (unitBytes b.dst) dst)))
  | _, _ => s1

/-! ### Barrier counts (R247) -/

/-- The bytes that may be counted so far: units that have landed, and units whose source has been read; of a row whose index is out of
range, where nothing lands or nothing is read, once its index has been read. -/
def countable (e : Eng) : Nat × Nat :=
  let known := e.idx.isSome
  (((List.range (xferUnits e)).filter fun n => e.landed.contains n || (known && scatSkips e n)).length * unitBytes e.dst,
    ((List.range (srcUnits e)).filter fun n => (tget e.buf n).isSome || (known && (unitSrc e n).isNone)).length * unitBytes e.src)

/-- The line of the barrier object is Absent, by an operation that meets a test: a crucible command on it waits (R145, R247). -/
def barHeld (s : State) (e : Eng) (who : Nat → Bool) : Bool :=
  match e.bar with
  | some (.scratch off) => s.engs.any fun o => who o.1 && o.2.gid == e.gid && o.2.cleared.contains (off / 64)
  | _ => false

/-! ### Issue (R239, R243) -/

/-- Checks 3 to 5 of R243, on the block. -/
def xferBlockFault (s : State) (t : ThreadKey) (k : EngKind) (b : BitVec 512) : Option FaultRec :=
  let size := scratchSize s t
  if xBar b % 32 ≠ 0 ∨ xIdx b % 4 ≠ 0 then some (addrFault s t .align (if xBar b % 32 ≠ 0 then xBar b else xIdx b))
  else if xferIllegal k b then some (plainFault s t .illegal)
  else if xBarSp b = 1 ∧ size ≤ xBar b then some (violFault s t 8 1 (xBar b))
  else if xIdxSp b = 1 ∧ size < xIdx b + 4 * xCount b then some (violFault s t 8 1 (max (xIdx b) size))
  else none

/-- Check 6 of R243: the barrier object. -/
def xferBar (s : State) (t : ThreadKey) (b : BitVec 512) : FaultRec ⊕ Option BarObj :=
  match xBarSp b with
  | 1 => .inr (some (.scratch (xBar b)))
  | 2 =>
    match (translateFor s t (xBar b) ⟨true, true, false⟩).1 with
    | .page => .inl (addrFault s t .page (xBar b))
    | .viol k => .inl (violFault s t k 0 (xBar b))
    | .ok x => if x.attr.carve then .inr (some (.carve x.loc)) else .inl (plainFault s t .illegal)
  | _ => .inr none

/-- The reads of its walk (R364). -/
def xferBarWalk (s : State) (t : ThreadKey) (b : BitVec 512) : State :=
  if xBarSp b = 2 then (translateFor s t (xBar b) ⟨true, true, false⟩).2 else s

/-- The destination scope of R232: the widest over the places of the destination; a page that is not mapped yet is taken as DRAM. -/
def xferScope (s : State) (e : Eng) : Scope :=
  if recSpace e.dst = 1 then .core
  else if e.kind = .stkred ∨ e.kind = .stkcvt then .pkg
  else
    (List.range (recUnits e.dst)).foldl (fun sc n =>
      match engLoc s e 0 (unitAddr e.dst (n / rowUnits e.dst) (n % rowUnits e.dst)) (unitBytes e.dst) ⟨false, false, false⟩ with
      | .mem x => wider sc (placeScope x.attr)
      | _ => wider sc .pkg) .die

/-- The DRAM lines of the source, the destination and the index list (R239 item 1). -/
def xferLines (s : State) (e : Eng) : List Nat :=
  let all (r : BitVec 512) : List (Nat × Nat) := if recSpace r = 1 then [] else
    (List.range (recUnits r)).map fun n => (unitAddr r (n / rowUnits r) (n % rowUnits r), unitBytes r)
  let idx : List (Nat × Nat) := if usesIdx e.kind ∧ xIdxSp e.block = 2 then
    (List.range (xCount e.block)).map fun k => ((xIdx e.block + 4 * k) % 2 ^ 64, 4) else []
  dedup ((all e.src ++ all e.dst ++ idx).filterMap fun u =>
    match engLoc s e 0 u.1 u.2 ⟨false, false, false⟩ with
    | .mem x => if x.attr.carve || x.attr.remote then none else some (lineOf x.loc)
    | _ => none)

/-- The scratchpad lines that a COPY or GATH clears (R144). -/
def clearedLines (s : State) (e : Eng) : List Nat :=
  if (e.kind = .copy ∨ e.kind = .gath) ∧ recSpace e.dst = 1 then
    (dedup ((List.range (recUnits e.dst)).map fun n =>
      unitAddr e.dst (n / rowUnits e.dst) (n % rowUnits e.dst) / 64)).filter fun l =>
        decide (64 * l < scratchSize s e.thread)
  else []

/-- A checked transfer, ready to issue. -/
def xferStart (s : State) (t : ThreadKey) (k : EngKind) (blk src dst : BitVec 512) (bar : Option BarObj) (b : Word) :
    Nat × State :=
  let gid := (gidOf t).getD 0
  let core := coreOfThread s t
  let p := pfxOf s t
  let m := p.mod.getD 0
  let e0 : Eng := { Eng.blank gid core t (pcOf s t + 4) k with
    block := blk, src := src, dst := dst, bar := bar
    cls := if modClassSet m then some (modClass m) else none
    deadline := p.dln.map fun d => s.clock + 64 * d.toNat }
  let e1 := e0.inputs s gid b
  let e2 := { e1 with scope := xferScope s e1, cleared := clearedLines s e1 }
  let r := addEng (homePrepare s core (xferLines s e2)) gid e2
  (r.1, drainPoison r.2.engs.length r.2)

/-- The rounding codes that a destination format of STKCVT forbids: all but 000 for N4 (R245), and the toggles for FP32 and BF16
(R42, R244). -/
def cvtRndBad (fmt rnd : Nat) : Bool := if fmt = 5 then rnd != 0 else (fmt == 0 || fmt == 1) && decide (5 ≤ rnd)

/-- One elected transfer word (R243). -/
def xferOne (k : EngKind) (a b : Src) (s : State) (t : ThreadKey) : Elected :=
  let av := (readSrc s t 0 a).toNat
  match blockFault s t av with
  | some f => .fault f
  | none =>
    if blockAbsent s t av then .wait (av / 64)
    else if !blockReady s t av then .hold
    else
      let blk := readBlock s t av
      match xferBlockFault s t k blk with
      | some f => .fault f
      | none =>
        match xferBar s t blk with
        | .inl f => .fault f
        | .inr bar =>
          match handleRecord s (ctxIdOf s t) (xSrc blk), handleRecord s (ctxIdOf s t) (xDst blk) with
          | some src, some dst =>
            if k = .stkcvt ∧ cvtRndBad (recFmt dst) (xRnd blk) = true then .fault (plainFault s t .illegal)
            else if !xferAdmits k blk src dst then .fault (plainFault s t .handle)
            else if !tableRoom s (coreOfThread s t) || !releaseReady s .die t || bankPending s t then .hold
            else
              let r := xferStart (xferBarWalk s t blk) t k blk src dst bar (readSrc s t 1 b)
              .done (some r.1) r.2
          | _, _ => .fault (plainFault s t .handle)

def xferWord (i : Instr) (k : EngKind) (a b : Src) (d : PDst) (s : State) : Host.Outcome State Fault Refusal :=
  electedWord i (some d) (xferOne k a b) s

def execCopy (a b : Src) (d : PDst) (st : Stall) (s : State) := xferWord (.copy a b d st) .copy a b d s
def execGath (a b : Src) (d : PDst) (st : Stall) (s : State) := xferWord (.gath a b d st) .gath a b d s
def execScat (a b : Src) (d : PDst) (st : Stall) (s : State) := xferWord (.scat a b d st) .scat a b d s
def execStkred (a b : Src) (d : PDst) (st : Stall) (s : State) := xferWord (.stkred a b d st) .stkred a b d s
def execStkcvt (a b : Src) (d : PDst) (st : Stall) (s : State) := xferWord (.stkcvt a b d st) .stkcvt a b d s

/-! ### CPWAIT (R249) -/

/-- A wait on a token, by CPWAIT or, for a transfer, by MXWAIT. -/
def tokenWait (s : State) (t : ThreadKey) (tok : Nat) (d : PDst) (mx : Bool) : State :=
  let gid := (gidOf t).getD 0
  let push (v : Nat) (x : State) : State := giveThread x t d (BitVec.ofNat 64 v) 0 none
  let park (w : Nat → Wait) : State :=
    waitThread (giveThread { s with seq := s.seq + 1 } t d 0 0 (some s.seq)) t (w s.seq)
  if tok = 0 ∧ mx = false then
    if nrPending s t then park fun tag => .token none tag else push 0 s
  else if tok = 0 ∨ tok = 0xFFFF then push 0 s
  else match tokenOp s gid tok with
    | some op =>
      if mx ∧ ((tget s.engs op).map (·.kind.isTile)).getD false then park fun tag => .tile op tag
      else park fun tag => .token (some op) tag
    | none => match tokenEnd s gid tok with
      | none => push 0 s
      | some e =>
        push (if e.tile ∧ !mx then 0 else e.status) (acquireAct s (coreOfThread s t) (if e.tile then .core else e.scope))

/-- What the acquire at the return of a wait on a token comes after (R207, R229): the thread waits for it before it issues
(DEDUCED, safe: notes/assumptions/31.md). -/
def tokenReady (s : State) (t : ThreadKey) (tok : Nat) : Bool :=
  let gid := (gidOf t).getD 0
  if tok = 0 ∨ tok = 0xFFFF then true
  else match (tokenOp s gid tok).bind (tget s.engs) with
    | some e => acquireReady s (if e.kind.isTile then .core else e.scope) t
    | none => match tokenEnd s gid tok with
      | some e => acquireReady s (if e.tile then .core else e.scope) t
      | none => true

def tokenWord (i : Instr) (a : Src) (d : PDst) (mx : Bool) (s : State) : Host.Outcome State Fault Refusal :=
  issue i (fun ts s =>
    if ts.any fun t => !tokenReady s t (bvf (readSrc s t 0 a) 15 0) then .hold
    else .done (ts.foldl (fun x t => tokenWait x t (bvf (readSrc s t 0 a) 15 0) d mx) s) (advance s ts)) s

def execCpwait (a : Src) (d : PDst) (st : Stall) (s : State) := tokenWord (.cpwait a d st) a d false s

/-! ### The events of a transfer (R238) -/

/-- An operation of the core issued earlier could be dispatched first (R240). -/
def earlierDispatch (s : State) (id : Nat) (e : Eng) : Bool :=
  s.engs.any fun o => decide (o.1 < id) && o.2.core == e.core && o.2.state == .pending && engClear s o.1 o.2

/-- The place of the next operation in the order of dispatch (R269). -/
def nextDispatch (s : State) : Nat := s.engs.foldl (fun m o => max m o.2.dispatched) 0 + 1

/-- TRANSFER_FLIGHT. -/
def execTransferFlight (op : Nat) (s : State) : Host.Outcome State Fault Refusal :=
  match tget s.engs op with
  | none => .next s
  | some e =>
    if e.kind.isTile || e.state != .pending || !engClear s op e || earlierDispatch s op e then .next s
    else if e.poison then .next (drainAll (quietFault s op e))
    else
      let s1 := modEng s op fun x => { x with state := .flight, scope := xferScope s e, dispatched := nextDispatch s }
      .next (readIdx (xferWalks s1 op) op)

/-- One unit of a transfer in Flight is read, or lands. For STKCVT the numbers past the units that it reads are those that it lands. -/
def elementMove (s : State) (op n : Nat) : State :=
  let s1 := readIdx s op
  match tget s1.engs op with
  | none => s
  | some e =>
    if e.kind.isTile || e.state != .flight || (usesIdx e.kind && e.idx.isNone) then s1
    else askMoved s1 (
      if e.kind = .stkcvt then
        if n < srcUnits e then unitRead s1 op n else if n < srcUnits e + xferUnits e then unitLand s1 op (n - srcUnits e) else s1
      else if !decide (n < xferUnits e) || e.landed.contains n then s1
      else if (tget e.buf n).isSome then unitLand s1 op n else unitRead s1 op n) op

/-- Everything left of a transfer is read and lands; of rows that name one destination, the last of the list first. -/
def moveAll (s : State) (op : Nat) (e : Eng) : State :=
  (unitsLeft e).reverse.foldl (fun a n => unitLand a op n) ((List.range (srcUnits e)).foldl (fun a n => unitRead a op n) s)

/-- TRANSFER_DONE: the rest is read and lands; the transfer is Done once every unit has landed and its requests are granted. -/
def execTransferDone (op : Nat) (s : State) : Host.Outcome State Fault Refusal :=
  let s1 := readIdx s op
  match tget s1.engs op with
  | none => .next s
  | some e =>
    if e.kind.isTile || e.state != .flight || (usesIdx e.kind && e.idx.isNone) || (xferFault s1 e).isSome then .next s1
    else
      let s2 := askMoved s1 (moveAll s1 op e) op
      match tget s2.engs op with
      | none => .next s2
      | some e2 =>
        if unitsLeft e2 ≠ [] ∨ requestsDone s2 op = false then .next s2
        else .next (drainAll (finishXfer s2 op e2 false))

/-- The source of an engine's violation (R185): the conversion engines of the base dies carry STKCVT out (R377); every
other operation is found by the core's engine (DEDUCED, unsafe: notes/assumptions/37.md). -/
def engSrc (k : EngKind) : Nat := if k = .stkcvt then 2 else 1

/-- An engine fault stops the core where the group is resident (R242, R263). The entry stands on the elected thread's own record, also
while that thread is away or Travelling (DESIGN CHOICE, unsafe: notes/assumptions/97.md). -/
def engFault (s : State) (e : Eng) (addr : Nat) (l : EngLoc) : State :=
  let r (c : Cause) (log : Option LogRec) : FaultRec := ⟨e.thread, c, e.pcNext, e.token, BitVec.ofNat 64 addr, log⟩
  match l with
  | .viol k sp =>
    takeFaults s e.core [r .viol (some ⟨engSrc e.kind, e.core.core.val, e.core.die.val, ctxIdOf s e.thread, k, sp, addr⟩)]
  | _ => takeFaults s e.core [r .page none]

/-- Packets of a transfer are on their way. -/
def packetsOut (s : State) (op : Nat) : Bool := s.packets.any fun k => k.2.counts.any fun c => c.1 == op

/-- TRANSFER_FAULT (R242): once its requests are granted and its misses counted (R367). The packets that a STKRED has sent land before it
is Faulted (DESIGN CHOICE, unsafe: notes/assumptions/106.md). -/
def execTransferFault (op : Nat) (s : State) : Host.Outcome State Fault Refusal :=
  let s1 := readIdx s op
  match tget s1.engs op with
  | none => .next s
  | some e =>
    if e.kind.isTile || e.state != .flight || !requestsDone s1 op || packetsOut s1 op then .next s1
    else match xferFault s1 e with
      | none => .next s1
      | some (a, l) => .next (engFault (drainAll (finishXfer s1 op e true)) e a l)

/-- ENGINE_DECREMENT (R247): a grouping of whole elements that have landed and been read. -/
def execEngineDecrement (op : Nat) (inB outB : Nat) (s : State) : Host.Outcome State Fault Refusal :=
  match tget s.engs op with
  | none => .next s
  | some e =>
    let c := countable e
    if e.kind.isTile || e.state != .flight || e.inDone + inB > c.1 || e.outDone + outB > c.2 ||
        inB % unitBytes e.dst != 0 || outB % unitBytes e.src != 0 || barHeld s e (fun _ => true) then .next s
    else .next (countBar (modEng s op fun x => { x with inDone := x.inDone + inB, outDone := x.outDone + outB }) e inB outB false)

/-- LINE_PRESENT (R144): all the bytes of a transfer in a line it cleared have landed. -/
def execLinePresent (op : Nat) (line : Nat) (s : State) : Host.Outcome State Fault Refusal :=
  match tget s.engs op with
  | none => .next s
  | some e =>
    if e.cleared.contains line &&
        (unitsLeft e).all (fun n => ((unitDst e n).map fun a => a / 64 != line).getD true) &&
        !(usesIdx e.kind && e.idx.isNone) then
      .next (settleLines (payDues (modEng s op fun x => { x with cleared := x.cleared.erase line }) e.gid))
    else .next s

/-! ### Landing and merging (R72, R73, R372 to R374) -/

/-- R201, R215: the earlier accesses of a packet's threads to its line have taken effect, and their earlier packets there have been
sent; it may leave the die. -/
def sendReady (s : State) (id : Nat) (k : Packet) : Bool :=
  (k.threads.all fun t =>
    !opHolds s id t (lineOf k.pa) false && (queuedOlder s id t).all fun x => lineOf x.pa != lineOf k.pa) &&
  s.packets.all fun e => !(decide (e.1 < id) && e.2.sent.isEmpty && lineOf e.2.pa == lineOf k.pa && e.2.threads.any k.threads.contains)

/-- The packet leaves its die, which keeps no copy of the line (R201). -/
def sendOff (s : State) (id : Nat) (k : Packet) : State :=
  let s1 := homePrepare s k.core [lineOf k.pa]
  { s1 with packets := tset s1.packets id { k with sent := [(k.core.die, s1.seq)] }, seq := s1.seq + 1 }

/-- A landed packet is complete: its sources are told together (R372, R374). -/
def packetDone (s : State) (id : Nat) (k : Packet) : State :=
  settleAccess (k.counts.foldl (fun a c => modEng a c.1 fun e => { e with landed := c.2 :: e.landed })
    { s with packets := tdel s.packets id })

/-- STACK_LANDING: the packet leaves its die; it lands; and it is complete when its request is granted. -/
def execStackLanding (packet : Nat) (s : State) : Host.Outcome State Fault Refusal :=
  match tget s.packets packet with
  | none => .next s
  | some k =>
    if k.applied then (if requestsDone s packet then .next (packetDone s packet k) else .next s)
    else if k.sent.isEmpty then (if sendReady s packet k then .next (sendOff s packet k) else .next s)
    else if packetFirst s packet k packet then .next s
    else .next (landPacket s packet k)

/-- Two packets that a runner may merge (R373): both under way, neither landed. -/
def mergeable (a b : Packet) : Bool :=
  !a.sent.isEmpty && !b.sent.isEmpty && !a.applied && !b.applied && a.redWin && b.redWin && a.pa == b.pa && a.op.isSome == b.op.isSome &&
  a.red == b.red && a.atom == b.atom &&
  match a.atom with
  | some (op, _) => op != .exch
  | none => true

/-- The one operand that operands combine to (R73, R214). -/
def combined (k : Packet) : List Word → List Word
  | [] => []
  | v :: l => [l.foldl (packetOne k) v]

/-- The stamp of a packet, for a miss of its own (R367). -/
def stampOf (k : Packet) : List Stamp :=
  match k.deadline with
  | some d => [⟨k.core, k.ctx, k.cls, d⟩]
  | none => []

/-- RUNNER_MERGE: the combination of R73, of two packets that none must precede (R233). Both sources keep their counts, their threads and
their stamps (R374). A packet named twice combines the operands that it carries. -/
def execRunnerMerge (p1 p2 : Nat) (s : State) : Host.Outcome State Fault Refusal :=
  match tget s.packets p1, tget s.packets p2 with
  | some a, some b =>
    if !mergeable a b || packetFirst s p1 a p2 || packetFirst s p2 b p1 then .next s
    else if p1 = p2 then .next { s with packets := tset s.packets p1 { a with values := combined a a.values } }
    else
      let k := { a with values := combined a (a.values ++ b.values), counts := a.counts ++ b.counts, threads := a.threads ++ b.threads
                        sent := a.sent ++ b.sent
                        more := a.more ++ stampOf b ++ b.more }
      .next { s with packets := tset (tdel (tdel s.packets p1) p2) (min p1 p2) k }
  | _, _ => .next s

end Sys2Proof.Machine
end

