-- ==== Sys2Proof/Machine/Tile.lean ====
section
/-! DEFINITION. Tile operations: their words, their checks, their life, the array and the accumulators
(spec/11_tile.md R256 to R275; spec/02_numbers.md R68 to R70; spec/09_order.md R234). -/

namespace Sys2Proof.Machine

/-! ### The parameter block (R257) -/

def tRnd (b : BitVec 512) : Nat := bvf b 108 106
def tIdxReg (b : BitVec 512) : Nat := bvf b 105 101
def tFresh (b : BitVec 512) : Bool := bvf b 100 100 == 1
def tSlot (b : BitVec 512) : Fin 2 := Fin.ofNat 2 (bvf b 99 99)
def tRows (b : BitVec 512) : Nat := bvf b 98 89
def tAccRow (b : BitVec 512) : Nat := bvf b 88 80
def tStart1 (b : BitVec 512) : Nat := bvf b 79 56
def tStart0 (b : BitVec 512) : Nat := bvf b 55 32
def tHnd (b : BitVec 512) : Nat := bvf b 31 0

def usesSlot (k : EngKind) : Bool := k == .mxld || k == .mxmm || k == .mxsp
def isMul (k : EngKind) : Bool := k == .mxmm || k == .mxsp
def isImage (k : EngKind) : Bool := k == .acld || k == .acst

/-- A field that the word does not use is nonzero. -/
def tileFieldBad (k : EngKind) (b : BitVec 512) : Bool :=
  bvf b 511 109 != 0 || (k != .acst && tRnd b != 0) || (k != .mxsp && tIdxReg b != 0) || (!isMul k && tFresh b) ||
  (!usesSlot k && tSlot b != 0) || (!isImage k && tRows b != 0) || (k == .mxld && tAccRow b != 0) ||
  (isImage k && tStart0 b != 0)

/-! ### The group's part -/

/-- The shape (Mg, Rg) of a thread's group (R264). -/
def shapeOf (s : State) (t : ThreadKey) : Nat × Nat := ((groupOfThread s t).map (·.shape)).getD (0, 0)

/-- The issue-order format of a slot (R258); none when it is Empty in issue order. -/
def slotHistory (s : State) (t : ThreadKey) (k : Fin 2) : Option Nat :=
  ((groupOfThread s t).bind fun g => g.ws[k].history).map fun h => h.2.val

/-- The group holds the slot (R265). -/
def holdsSlot (s : State) (t : ThreadKey) (k : Fin 2) : Bool :=
  ((groupOfThread s t).map fun g => g.wslots.getLsbD k.val).getD false

/-- K for a weight format (R258). -/
def chunkK (fmt : Nat) : Nat := if fmt = 5 then 256 else 128

/-- Check 3 of R259. -/
def tileIllegal (s : State) (t : ThreadKey) (k : EngKind) (b : BitVec 512) : Bool :=
  let sh := shapeOf s t
  let h := slotHistory s t (tSlot b)
  tileFieldBad k b || (usesSlot k && !holdsSlot s t (tSlot b)) || (isMul k && h.isNone) || (k == .mxsp && h == some 5) ||
  (isMul k && (sh.1 == 0 || decide (sh.2 < tAccRow b + sh.1))) ||
  (isImage k && (tRows b == 0 || decide (sh.2 < tAccRow b + tRows b))) || tRnd b == 4 || tRnd b == 7

/-- R258: the record that a block word admits. -/
def tileAdmits (s : State) (t : ThreadKey) (k : EngKind) (b r : BitVec 512) : Bool :=
  let f := recFmt r
  let h := (slotHistory s t (tSlot b)).getD 0
  match k with
  | .mxld => recKind r == 1 && tStart0 b % chunkK f == 0 && decide (tStart0 b + chunkK f ≤ recSize r 0) &&
      decide (tStart1 b + 128 ≤ recSize r 1)
  | .mxmm | .mxsp => recKind r == 2 && (f == 6 || f == 7) == (h == 6 || h == 7) && tStart0 b % 128 == 0 &&
      decide (tStart0 b + (if k = .mxsp then 256 else chunkK h) ≤ recSize r 0) && decide (tStart1 b ≤ recSizeM1 r 1)
  | .acld => recKind r == 3 && decide (tStart1 b ≤ recSizeM1 r 1)
  | .acst => recKind r == 3 && decide (tStart1 b ≤ recSizeM1 r 1) && ((f != 0 && f != 8) || tRnd b == 0) &&
      (f == 3 || f == 4 || decide (tRnd b < 5))
  | _ => false

/-- Check 6 of R259 (DEDUCED, unsafe: notes/assumptions/41.md). -/
def tileScrBad (s : State) (t : ThreadKey) (r : BitVec 512) : Option Nat :=
  if recSpace r ≠ 1 then none
  else if scratchSize s t ≤ highElem r then some (highElem r)
  else if recFmt r = 5 ∧ scratchSize s t ≤ highScale r then some (highScale r) else none

/-- The value V of R268, from lanes 4 * sel to 4 * sel + 3 of the home warp. -/
def sparseIndex (s : State) (t : ThreadKey) (reg : Fin 32) (sel : Fin 8) : BitVec 256 :=
  BitVec.ofNat 256 ((List.range 4).foldl (fun v i =>
    v + (laneNamed s (laneThread t (Fin.ofNat 32 (4 * sel.val + i))) reg).val.toNat * 2 ^ (64 * i)) 0)

/-- Every write to the register by a thread of the home warp has landed (R116, R268). -/
def warpLanded (s : State) (t : ThreadKey) (reg : Fin 32) : Bool :=
  (List.finRange 32).all fun j => (laneNamed s (laneThread t j) reg).landed (cycOf s s.focus.core)

/-! ### Issue (R259) -/

/-- Places a checked tile operation: its claims, its token, and the load history of its slot. -/
def tileStart (s : State) (t : ThreadKey) (e : Eng) (fmt : Nat) : Nat × State :=
  let gid := (gidOf t).getD 0
  let r := addEng s gid e
  let s1 := if e.kind = .mxld then
      modGroup r.2 gid fun g => { g with ws := g.ws.set e.slot { g.ws[e.slot] with history := some (s.seq, Fin.ofNat 16 fmt) } }
    else r.2
  (r.1, drainPoison s1.engs.length s1)

/-- The rows that an operation claims (R260). -/
def tileRows (k : EngKind) (b : BitVec 512) (sh : Nat × Nat) : Nat × Nat :=
  if isMul k then (tAccRow b, sh.1) else if isImage k then (tAccRow b, tRows b) else (0, 0)

/-- A block word for an elected thread. -/
def tileOne (k : EngKind) (a b : Src) (sel : Fin 8) (s : State) (t : ThreadKey) : Elected :=
  let av := (readSrc s t 0 a).toNat
  match blockFault s t av with
  | some f => .fault f
  | none =>
    if blockAbsent s t av then .wait (av / 64)
    else if !blockReady s t av || acqPending s t then .hold
    else
      let blk := readBlock s t av
      let reg := Fin.ofNat 32 (tIdxReg blk)
      if tileIllegal s t k blk then .fault (plainFault s t .illegal)
      else if k = .mxsp ∧ ((warpOf s t).map (·.count)).getD 0 ≤ tIdxReg blk then .fault (plainFault s t .regRange)
      else match handleRecord s (ctxIdOf s t) (tHnd blk) with
        | none => .fault (plainFault s t .handle)
        | some r =>
          if !tileAdmits s t k blk r then .fault (plainFault s t .handle)
          else match tileScrBad s t r with
            | some x => .fault (violFault s t 8 1 x)
            | none =>
              if !tableRoom s (coreOfThread s t) || (k == .mxsp && !warpLanded s t reg) then .hold
              else
                let gid := (gidOf t).getD 0
                let e0 : Eng := { Eng.blank gid (coreOfThread s t) t (pcOf s t + 4) k with
                  block := blk, src := r, shape := shapeOf s t, rows := tileRows k blk (shapeOf s t), slot := tSlot blk
                  index := if k = .mxsp then sparseIndex s t reg sel else 0 }
                let q := tileStart s t (e0.inputs s gid (readSrc s t 1 b)) (recFmt r)
                .done (some q.1) q.2

def execMxld (a b : Src) (d : PDst) (st : Stall) (s : State) :=
  electedWord (.mxld a b d st) (some d) (tileOne .mxld a b 0) s
def execMxmm (a b : Src) (d : PDst) (st : Stall) (s : State) :=
  electedWord (.mxmm a b d st) (some d) (tileOne .mxmm a b 0) s
def execMxsp (a b : Src) (sel : Fin 8) (st : Stall) (s : State) :=
  electedWord (.mxsp a b sel st) (some .push) (tileOne .mxsp a b sel) s
def execAcld (a b : Src) (d : PDst) (st : Stall) (s : State) :=
  electedWord (.acld a b d st) (some d) (tileOne .acld a b 0) s
def execAcst (a b : Src) (d : PDst) (st : Stall) (s : State) :=
  electedWord (.acst a b d st) (some d) (tileOne .acst a b 0) s

/-- `ACZ` for an elected thread. -/
def aczOne (a b : Src) (s : State) (t : ThreadKey) : Elected :=
  let row := bvf (readSrc s t 0 a) 9 0
  let n := bvf (readSrc s t 1 b) 9 0
  if n = 0 ∨ (shapeOf s t).2 < row + n then .fault (plainFault s t .illegal)
  else if !tableRoom s (coreOfThread s t) then .hold
  else
    let gid := (gidOf t).getD 0
    let e : Eng := { Eng.blank gid (coreOfThread s t) t (pcOf s t + 4) .acz with shape := shapeOf s t, rows := (row, n) }
    let q := tileStart s t e 0
    .done (some q.1) q.2

def execAcz (a b : Src) (d : PDst) (st : Stall) (s : State) := electedWord (.acz a b d st) (some d) (aczOne a b) s

/-- The shape that a request is granted (R264). -/
def grantShape (rows m n : Nat) : Nat × Nat :=
  let rg := min n rows
  (min (min m 256) rg / 8 * 8, rg)

/-- `SHAPE` for an elected thread. -/
def shapeOne (a b : Src) (s : State) (t : ThreadKey) : Elected :=
  let g := grantShape (((groupOfThread s t).map (·.hdr.accRows)).getD 0) (bvf (readSrc s t 0 a) 9 0)
    (bvf (readSrc s t 1 b) 9 0)
  .done (some (g.2 % 65536 * 65536 + g.1 % 65536)) (modGroup s ((gidOf t).getD 0) fun x => { x with shape := g })

def execShape (a b : Src) (d : PDst) (st : Stall) (s : State) := electedWord (.shape a b d st) (some d) (shapeOne a b) s

/-- A bank entry that OPRDY waits for: an STS or a crucible command, barrier commands included (R151, R274). -/
def bankWrites (e : BankEntry) : Bool :=
  match e.body with
  | .lds _ _ => false
  | _ => true

/-- Every STS, crucible command, ST and atomic that threads of a group issued before a number has taken effect (R274). -/
def groupWritesDone (s : State) (gid before : Nat) : Bool :=
  let mine (id : Nat) (t : ThreadKey) : Bool := decide (id < before) && gidOf t == some gid
  s.banks.all (fun e => !(e.gid == gid && decide (e.word < before) && bankWrites e)) &&
  s.slots.all (fun e => e.2.storeq.all fun x => x.applied || !mine x.id x.thread) &&
  s.packets.all (fun e => e.2.atom.isNone || e.2.applied || e.2.threads.all fun t => !mine e.1 t) &&
  s.ops.all fun e => match e.2.body with
    | .atomic _ _ _ _ _ => e.2.threads.all fun t => !mine e.1 t
    | _ => true

/-- A thread may pass its OPRDY: what its own group issued before the OPRDY has taken effect (R83, R274). -/
def oprdyReady (s : State) (t : ThreadKey) : Bool :=
  groupWritesDone s ((gidOf t).getD 0) (((threadOf s t).bind (·.oprdy)).getD s.seq)

/-- `OPRDY` (R274). -/
def execOprdy (st : Stall) (s : State) :=
  issue (.oprdy st) (fun ts s => if ts.all (oprdyReady s) then .done s (advance s ts) else .hold) s

/-- `MXWAIT` (R275). -/
def execMxwait (a : Src) (d : PDst) (st : Stall) (s : State) := tokenWord (.mxwait a d st) a d true s

/-! ### Operands (R270) -/

/-- The place of an operand address. -/
def tileLoc (s : State) (e : Eng) (addr n : Nat) : EngLoc :=
  engLoc s e (recSpace e.src) (addr % 2 ^ 64) n (if e.kind = .acst then needWrite else needRead)

/-- The addresses of an element: its own, and for N4 its scale byte. -/
def elemAddrs (r : BitVec 512) (i0 i1 : Nat) : List (Nat × Nat) :=
  (elemAddr r i0 i1 0 0, if recFmt r = 5 then 1 else fmtBytes (recFmt r)) ::
    (if recFmt r = 5 then [(scaleAddr r i0 i1 0 0, 1)] else [])

/-- The format in the slot when the operation runs. -/
def slotFmt (s : State) (e : Eng) : Nat := (((groupOf s e.gid).bind fun g => g.ws[e.slot].fmt).map (·.val)).getD 0

/-- The activation columns that an operation reads. -/
def mulK (s : State) (e : Eng) : Nat := if e.kind = .mxsp then 256 else chunkK (slotFmt s e)

/-- The elements of its record that an operation reads or writes, as (i0, i1). -/
def tileElems (s : State) (e : Eng) : List (Nat × Nat) :=
  let rows (n : Nat) : List Nat := (List.range n).filter fun i => decide (tStart1 e.block + i ≤ recSizeM1 e.src 1)
  let grid (n k : Nat) : List (Nat × Nat) :=
    (rows n).flatMap fun i => (List.range k).map fun j => (tStart0 e.block + j, tStart1 e.block + i)
  match e.kind with
  | .mxld => grid 128 (chunkK (recFmt e.src))
  | .mxmm | .mxsp => grid e.shape.1 (mulK s e)
  | .acld | .acst => grid (tRows e.block) 128
  | _ => []

/-- The addresses that an operation touches. -/
def tileAddrs (s : State) (e : Eng) : List (Nat × Nat) :=
  dedup ((tileElems s e).flatMap fun x => elemAddrs e.src x.1 x.2)

/-- The first operand that the operation may not reach. -/
def tileBad (s : State) (e : Eng) : Option (Nat × EngLoc) :=
  ((tileAddrs s e).map fun a => (a.1, tileLoc s e a.1 a.2)).find? fun x => locBad x.2

/-- The L2 lines of an operation's operands, with the attributes of their pages. -/
def tileLines (s : State) (e : Eng) : List (Nat × Attr) :=
  dedup ((tileAddrs s e).filterMap fun a => match tileLoc s e a.1 a.2 with
    | .mem x => if x.attr.carve || x.attr.remote then none else some (lineOf x.loc, x.attr)
    | _ => none)

/-- Fetches a line, Clean when it was Absent (R191, R270). A Stale line that another operation pins stays as it is. -/
def fetchLine (e : Eng) (s : State) (x : Nat × Attr) : State :=
  let d := e.core.die
  if (l2Of s d x.1).isSome then s
  else l2Fill (postRequests s none e.core (ctxIdOf s e.thread) x.2 (fillAsks (x.1 * 128))) d x.1 x.2 (ctxIdOf s e.thread)

/-- The lines that a core has pinned (R195). -/
def pinsOfCore (s : State) (c : CoreId) : Nat :=
  (linesWhere s c.die fun _ x => x.pins.any fun op => ((tget s.engs op).map (·.core)) == some c).length

/-- Fetches a line and pins it while the core has fewer than 512 pinned (R195, R270). A Stale line counts as Absent (R191, R194). -/
def pinLine (op : Nat) (e : Eng) (s : State) (x : Nat × Attr) : State :=
  if pinsOfCore s e.core < 512 then
    let s1 := fetchLine e s x
    match l2Of s1 e.core.die x.1 with
    | some y => if y.stale || y.pins.contains op then s1 else l2Set s1 e.core.die x.1 { y with pins := op :: y.pins }
    | none => s1
  else s

/-- A line that an operation no longer pins: a Stale one becomes Absent, and one that a landing waits for is evicted
(R191, R294). -/
def unpinLine (op : Nat) (d : Fin 8) (s : State) (ln : Nat) : State :=
  match l2Of s d ln with
  | none => s
  | some x =>
    let y := { x with pins := x.pins.erase op }
    let s1 := l2Set s d ln y
    if y.pins ≠ [] then s1
    else if y.evictFor ≠ [] then evictLine s1 d ln
    else if y.stale then l2Drop s1 d ln else s1

/-- Releases every line that an operation pins. -/
def unpinAll (s : State) (op : Nat) (e : Eng) : State :=
  (linesWhere s e.core.die fun _ x => x.pins.contains op).foldl (unpinLine op e.core.die) s

/-- The bytes of an operand as they stand: a Stale line serves the operations that pinned it, and no other (R195). -/
def tileNow (s : State) (op : Nat) (e : Eng) (addr n : Nat) : Nat :=
  match tileLoc s e addr n with
  | .scr off => ((groupOf s e.gid).map fun g => memNat g.scratch off n).getD 0
  | .mem x =>
    if x.attr.carve || x.attr.remote then memNat s.mem x.loc n
    else match l2Of s e.core.die (lineOf x.loc) with
      | some y => if y.stale && !y.pins.contains op then memNat s.mem x.loc n else bytesNat (lineSlice y.data x.loc n)
      | none => memNat s.mem x.loc n
  | _ => 0

/-- The bytes of an operand: of its aligned 4-byte word, where that has been read (R234). -/
def tileNat (s : State) (op : Nat) (e : Eng) (addr n : Nat) : Nat :=
  let a := addr % 2 ^ 64
  match tget e.buf (a / 4) with
  | some v => v / 2 ^ (8 * (a % 4)) % 2 ^ (8 * n)
  | none => tileNow s op e addr n

/-- A program has written the operand since the operation was issued (R271). -/
def tileTainted (s : State) (e : Eng) (addr n : Nat) : Bool :=
  match tileLoc s e addr n with
  | .scr off => (rangeFrom off n).any e.taintScr.contains
  | .mem x => (rangeFrom x.loc n).any e.taintPa.contains
  | _ => false

/-- The value of an element of the record (R251, R60 to R64). -/
def tileElem (s : State) (op : Nat) (e : Eng) (i0 i1 : Nat) : FVal :=
  let raw := tileNat s op e (elemAddr e.src i0 i1 0 0) (if recFmt e.src = 5 then 1 else fmtBytes (recFmt e.src))
  match recFmt e.src with
  | 5 => n4Value (tileNat s op e (scaleAddr e.src i0 i1 0 0) 1) (raw / 16 ^ (i0 % 2))
  | 6 => cvtDecode .s8 (BitVec.ofNat 64 raw)
  | 7 => cvtDecode .z8 (BitVec.ofNat 64 raw)
  | f => fdecode (recFloat f) raw

/-- An element, or its scale byte, has been written since issue. -/
def elemTainted (s : State) (e : Eng) (i0 i1 : Nat) : Bool :=
  (elemAddrs e.src i0 i1).any fun a => tileTainted s e a.1 a.2

/-- Scratchpad lines of the operands are all Present (R270); a store into the scratchpad does not wait. -/
def tileLinesReady (s : State) (e : Eng) : Bool :=
  e.kind == .acst || (tileAddrs s e).all fun a => match tileLoc s e a.1 a.2 with
    | .scr off => !lineAbsent s e.gid (off / 64)
    | _ => true

/-! ### The array (R266 to R268, R68 to R70) -/

def intFmt (f : Nat) : Bool := f == 6 || f == 7

/-- An exact integer value. -/
def fvalInt : FVal → Int
  | .fin neg m e => dyInt neg m e 0
  | _ => 0

/-- A slot holds exact values: as FP32, or for S8 and Z8 as 32-bit integers. -/
def slotCode (f : Nat) (v : FVal) : Nat := if intFmt f then (zext 32 (fvalInt v)).toNat else roundRne .fp32 v

def slotValue (w : WeightSlot) (n k : Nat) : FVal :=
  let c := (tget w.elems (n * 256 + k)).getD 0
  if intFmt ((w.fmt.map (·.val)).getD 0) then cvtDecode .s32 (BitVec.ofNat 64 c) else fdecode .fp32 c

/-- `MXLD` (R266). An element that a program has written since issue takes a free value (R271). -/
def loadSlot (s : State) (op : Nat) (e : Eng) : WeightSlot :=
  let f := recFmt e.src
  let k := chunkK f
  let cols := (List.range 128).flatMap fun n => (List.range k).map fun j => (n, j)
  { fmt := some (Fin.ofNat 16 f)
    elems := cols.map fun x =>
      (x.1 * 256 + x.2,
        if elemTainted s e (tStart0 e.block + x.2) (tStart1 e.block + x.1) then
          (Config.freeWord s.freeCount (x.1 * 256 + x.2)).toNat % 2 ^ 32
        else slotCode f (tileElem s op e (tStart0 e.block + x.2) (tStart1 e.block + x.1)))
    scales := if f = 5 then
        (List.range 128).flatMap fun n => (List.range 8).map fun b =>
          (n * 8 + b, tileNat s op e (scaleAddr e.src (tStart0 e.block + 32 * b) (tStart1 e.block + n) 0 0) 1)
      else []
    history := ((groupOf s e.gid).map fun g => g.ws[e.slot].history).getD none }

/-- Element n of accumulator row r; an unlisted one is 0. -/
def accAt (g : Group) (r n : Nat) : BitVec 32 := (tget g.acc (r * 128 + n)).getD 0

def accPut (g : Group) (r n : Nat) (v : BitVec 32) : Group :=
  { g with acc := if v = 0 then tdel g.acc (r * 128 + n) else tset g.acc (r * 128 + n) v }

/-- The dense position of kept row j (R268). -/
def sparsePos (v : BitVec 256) (j : Nat) : Nat := 4 * (j / 2) + bvf v (2 * j + 1) (2 * j)

/-- x(i, k) of R267. -/
def mulX (s : State) (op : Nat) (e : Eng) (i k : Nat) : FVal :=
  if tStart1 e.block + i ≤ recSizeM1 e.src 1 then tileElem s op e (tStart0 e.block + k) (tStart1 e.block + i)
  else .fin false 0 0

/-- The exact chunk sum (R68, R268): -0 only when every product is -0. A position beyond `k` or a row beyond the region multiplies the
weight by +0 as R267 says, so that an infinite or negative weight contributes NaN or -0, where R68 says +0 (DEDUCED, unsafe:
notes/assumptions/120.md). -/
def chunkSum (s : State) (op : Nat) (e : Eng) (w : WeightSlot) (i n : Nat) : FVal :=
  (List.range (if e.kind = .mxsp then 128 else mulK s e)).foldl (fun sum j =>
    sum.add ((mulX s op e i (if e.kind = .mxsp then sparsePos e.index j else j)).mul (slotValue w n j))) (.fin true 0 0)

/-- One chunk added onto an accumulator element (R68 to R70). -/
def addChunk (int : Bool) (acc : BitVec 32) (sum : FVal) : BitVec 32 :=
  if int then BitVec.ofInt 32 (acc.toNat + fvalInt sum)
  else BitVec.ofNat 32 (roundRne .fp32 ((fdecode .fp32 acc.toNat).add sum))

/-- A row of activations has been written since issue. -/
def rowTainted (s : State) (e : Eng) (i : Nat) : Bool :=
  decide (tStart1 e.block + i ≤ recSizeM1 e.src 1) &&
    (List.range (mulK s e)).any fun k => elemTainted s e (tStart0 e.block + k) (tStart1 e.block + i)

/-- The value of accumulator element (AccRow + i, n) after MXMM or MXSP. -/
def mulElem (s : State) (op : Nat) (e : Eng) (g : Group) (i n : Nat) : BitVec 32 :=
  let w := g.ws[e.slot]
  if rowTainted s e i then BitVec.ofNat 32 (Config.freeWord s.freeCount (i * 128 + n)).toNat
  else addChunk (intFmt (slotFmt s e) && intFmt (recFmt e.src))
    (if tFresh e.block then 0 else accAt g (tAccRow e.block + i) n) (chunkSum s op e w i n)

/-- The elements of n rows. -/
def accGrid (n : Nat) : List (Nat × Nat) := (List.range n).flatMap fun i => (List.range 128).map fun k => (i, k)

/-- Rows beyond the record are met (R267, R273). -/
def tileShort (e : Eng) (n : Nat) : Bool := decide (recSizeM1 e.src 1 < tStart1 e.block + n - 1)

/-- The value of an accumulator element after ACLD (R273). -/
def acldElem (s : State) (op : Nat) (e : Eng) (i n : Nat) : BitVec 32 :=
  let row := tStart1 e.block + i
  if recSizeM1 e.src 1 < row then 0
  else if elemTainted s e n row then BitVec.ofNat 32 (Config.freeWord s.freeCount (i * 128 + n)).toNat
  else if recFmt e.src = 0 ∨ recFmt e.src = 8 then BitVec.ofNat 32 (tileNat s op e (elemAddr e.src n row 0 0) 4)
  else BitVec.ofNat 32 (roundRne .fp32 (tileElem s op e n row))

/-- The bytes that ACST writes for an accumulator element (R273). -/
def acstBits (e : Eng) (v : BitVec 32) : Nat :=
  let f := recFmt e.src
  if f = 0 ∨ f = 8 then v.toNat
  else
    let m := rndMode (rndOf (tRnd e.block)) 0
    fround (recFloat f) m.1 m.2 (fdecode .fp32 v.toNat)

/-- ACST writes an element, unless a program has written it since issue and its value stays (R271). -/
def acstPut (s0 : State) (e : Eng) (s : State) (x : Nat × Nat) : State :=
  let row := tStart1 e.block + x.1
  let a := elemAddr e.src x.2 row 0 0
  let n := fmtBytes (recFmt e.src)
  if recSizeM1 e.src 1 < row then s
  else if tileTainted s0 e a n && Config.early s0.freeCount (x.1 * 128 + x.2) then s
  else modGroup s e.gid fun g =>
    { g with scratch := memPut g.scratch a n (acstBits e (accAt g (tAccRow e.block + x.1) x.2)) }

/-- What an operation does at completion, and whether rows lie beyond the record. -/
def tileEffect (s : State) (op : Nat) (e : Eng) : State × Bool :=
  match groupOf s e.gid with
  | none => (s, false)
  | some g =>
    let put (rows : Nat) (f : Nat → Nat → BitVec 32) : State :=
      modGroup s e.gid fun _ => (accGrid rows).foldl (fun a x => accPut a (e.rows.1 + x.1) x.2 (f x.1 x.2)) g
    match e.kind with
    | .mxld => (modGroup s e.gid fun x => { x with ws := x.ws.set e.slot (loadSlot s op e) }, false)
    | .mxmm | .mxsp => (put e.shape.1 (mulElem s op e g), tileShort e e.shape.1)
    | .acz => (put e.rows.2 fun _ _ => 0, false)
    | .acld => (put (tRows e.block) (acldElem s op e), tileShort e (tRows e.block))
    | .acst => ((accGrid (tRows e.block)).foldl (acstPut s e) s, tileShort e (tRows e.block))
    | _ => (s, false)

/-! ### The events of a tile operation (R261) -/

/-- TILE_FLIGHT. -/
def execTileFlight (op : Nat) (s : State) : Host.Outcome State Fault Refusal :=
  match tget s.engs op with
  | none => .next s
  | some e =>
    if !e.kind.isTile || e.state != .pending || !engClear s op e || earlierDispatch s op e then .next s
    else if e.poison then .next (drainAll (quietFault s op e))
    else
      let e1 := { e with state := .flight, dispatched := nextDispatch s }
      let s1 := engWalks { s with engs := tset s.engs op e1 } e1
        (if recSpace e.src = 1 then [] else (tileAddrs s e1).map (·.1))
      .next ((tileLines s1 e1).foldl (pinLine op e1) s1)

/-- The array serves the operations of a core one at a time, in the order of their dispatch (R269). -/
def earlierArray (s : State) (e : Eng) : Bool :=
  s.engs.any fun o => o.2.core == e.core && o.2.kind.isTile && o.2.state == .flight && decide (o.2.dispatched < e.dispatched)

/-- An aligned 4-byte word of an operand is read, once (R234, R270). -/
def operandMove (s : State) (op w : Nat) : State :=
  match tget s.engs op with
  | none => s
  | some e =>
    let present : Bool := match tileLoc s e (4 * w) 4 with
      | .scr off => !lineAbsent s e.gid (off / 64)
      | .mem _ => true
      | _ => false
    if e.kind.isTile && e.kind != .acst && e.state == .flight && (tget e.buf w).isNone && present &&
        (tileAddrs s e).any (fun a => a.1 % 2 ^ 64 / 4 == w) then
      match engTakes s e false [(tileLoc s e (4 * w) 4, 4)] with
      | some s1 => modEng s1 op fun x => { x with buf := tset x.buf w (tileNow s op e (4 * w) 4) }
      | none => s
    else s

/-- The operand bytes that have not been read. -/
def tileUnread (s : State) (e : Eng) : List (EngLoc × Nat) :=
  if e.kind = .acst then [] else
    ((tileAddrs s e).filter fun a => (tget e.buf (a.1 % 2 ^ 64 / 4)).isNone).map fun a => (tileLoc s e a.1 a.2, a.2)

/-- TILE_DONE: the operation reads what is left of its operands and writes its results, and releases its lines. -/
def execTileDone (op : Nat) (s0 : State) : Host.Outcome State Fault Refusal :=
  match tget s0.engs op with
  | none => .next s0
  | some e =>
    if !e.kind.isTile || e.state != .flight || (tileBad s0 e).isSome || !tileLinesReady s0 e || earlierArray s0 e then .next s0
    else
      match engTakes s0 e false (tileUnread s0 e) with
      | none => .next s0
      | some s2 =>
        let s := (tileLines s2 e).foldl (fetchLine e) s2
        let r := tileEffect s op e
        let s1 : State := { r.1 with freeCount := r.1.freeCount + 1 }
        .next (completeEng (unpinAll s1 op e) op { e with status := if r.2 then 2 else 0 } false)

/-- The elements of a Faulted MXMM or MXSP that have their new value (R263): only rows that could be read
(DESIGN CHOICE, safe: notes/assumptions/42.md). -/
def partialMul (s : State) (op : Nat) (e : Eng) : State :=
  match groupOf s e.gid with
  | none => s
  | some g =>
    if isMul e.kind then
      modGroup s e.gid fun _ => (accGrid e.shape.1).foldl (fun a x =>
        let readable := (List.range (mulK s e)).all fun k =>
          (elemAddrs e.src (tStart0 e.block + k) (tStart1 e.block + x.1)).all fun y => !locBad (tileLoc s e y.1 y.2)
        if readable && Config.early s.freeCount (x.1 * 128 + x.2) then
          accPut a (e.rows.1 + x.1) x.2 (mulElem s op e g x.1 x.2) else a) g
    else s

/-- TILE_FAULT (R263). -/
def execTileFault (op : Nat) (s : State) : Host.Outcome State Fault Refusal :=
  match tget s.engs op with
  | none => .next s
  | some e =>
    if !e.kind.isTile || e.state != .flight then .next s
    else match tileBad s e with
      | none => .next s
      | some (a, l) =>
        let s1 := emptySlot (partialMul s op e) op e
        let s2 := unpinAll { s1 with freeCount := s1.freeCount + 1 } op e
        .next (engFault (completeEng s2 op e true) e a l)

end Sys2Proof.Machine
end

