-- ==== Sys2Proof/Machine/Group.lean ====
section
/-! DEFINITION. Groups and gangs: placement, bind, saves and relaunch, doze, retirement, critical windows and pre-emption
(spec/14_group.md R310 to R324; spec/17_context.md R350, R358, R359). -/

namespace Sys2Proof.Machine

/-! ### What a core's groups hold (R310, R321) -/

/-- The group holds its slots. -/
def Group.holdsSlots (g : Group) : Bool := g.isResident || g.isPlaced

/-- The group holds its scratchpad, accumulator rows and weight slots. -/
def Group.holdsParts (g : Group) : Bool := g.holdsSlots || g.phase == .tracked

/-- A slot of a core is some group's. -/
def slotHeld (s : State) (c : CoreId) (i : Nat) : Bool :=
  s.groups.any fun e => decide (e.2.core = c) && e.2.holdsSlots && decide (e.2.quarter.val = i / 16) &&
    e.2.slotMask.getLsbD (i % 16)

/-- A 2048-byte unit of scratchpad, or an accumulator row, is some group's. -/
def unitHeld (s : State) (c : CoreId) (u : Nat) : Bool :=
  s.groups.any fun e => decide (e.2.core = c) && e.2.holdsParts && decide (e.2.scrBase ≤ u) &&
    decide (u < e.2.scrBase + e.2.hdr.scrUnits)

def rowHeld (s : State) (c : CoreId) (r : Nat) : Bool :=
  s.groups.any fun e => decide (e.2.core = c) && e.2.holdsParts && decide (e.2.accBase ≤ r) &&
    decide (r < e.2.accBase + e.2.hdr.accRows)

def wslotsHeld (s : State) (c : CoreId) : Bool :=
  s.groups.any fun e => decide (e.2.core = c) && e.2.holdsParts && e.2.wslots != 0

/-! ### Placement (R313) -/

/-- The lowest base of n free things in a row below a limit, trying `tries` bases from b. -/
def findRun (free : Nat → Bool) (n limit : Nat) : Nat → Nat → Option Nat
  | 0, _ => none
  | tries + 1, b =>
    if limit < b + n then none
    else if (rangeFrom b n).all free then some b else findRun free n limit tries (b + 1)

/-- The lowest bases of the warps' blocks, in HWARP order: a base that leaves no room for the later warps is passed over. -/
def placeBlocks (held : Nat → Bool) : List Nat → Option (List Nat)
  | [] => some []
  | n :: rest =>
    if ((List.range 48).filter fun i => !held i).length < n + rest.sum then none
    else (List.range 49).findSome? fun b =>
      if b + n ≤ 48 ∧ ((rangeFrom b n).all fun i => !held i) = true then
        (placeBlocks (fun i => held i || (decide (b ≤ i) && decide (i < b + n))) rest).map (b :: ·)
      else none

/-- Where a group stands on a core. -/
structure Spot where
  quarter : Fin 4
  slots : List Nat
  bases : List Nat
  scrBase : Nat
  accBase : Nat
  deriving DecidableEq, Repr

/-- The named counts of a group's home warps: those of its warps, or the header's before the first bind. -/
def warpCounts (s : State) (gid : Nat) (h : Header) : List Nat :=
  (List.range (h.warpsM1.val + 1)).map fun i =>
    ((tget s.warps (.home gid (Fin.ofNat 16 i))).map (·.count)).getD (8 * (h.namedM1.val + 1))

/-- The slots that a group takes in a quarter: the lowest free ones; none of slots 60 to 63. -/
def freeSlots (s : State) (c : CoreId) (q : Fin 4) : List Nat :=
  (rangeFrom (16 * q.val) 16).filter fun i => decide (i < 60) && !slotHeld s c i

/-- A group fits a quarter of a core. -/
def fitQuarter (s : State) (gid : Nat) (h : Header) (c : CoreId) (q : Fin 4) : Option Spot :=
  let n := h.warpsM1.val + 1
  let sl := freeSlots s c q
  if sl.length < n then none
  else
    let held (i : Nat) : Bool := granuleHeld s c q i || (q == 3 && i == 47)
    match placeBlocks held ((warpCounts s gid h).map (· / 8)), findRun (fun u => !unitHeld s c u) h.scrUnits 256 257 0,
        findRun (fun r => !rowHeld s c r) h.accRows 512 513 0 with
    | some bs, some sb, some ab =>
      if h.accRows ≠ 0 ∧ wslotsHeld s c then none else some ⟨q, sl.take n, bs, sb, ab⟩
    | _, _, _ => none

/-- The lowest quarter of a core that a group fits. -/
def fitCore (s : State) (gid : Nat) (h : Header) (c : CoreId) : Option Spot :=
  (List.finRange 4).foldl (fun m q => match m with
    | some x => some x
    | none => fitQuarter s gid h c q) none

/-- R350: no resident group, no ladle in a guest place, no handler invocation. -/
def loadFree (s : State) (c : CoreId) : Bool :=
  (coreOf s c).handler.isNone && (s.groups.all fun e => !(decide (e.2.core = c) && e.2.isResident)) &&
    (s.threads.all fun e => !(e.2.isResident && e.2.away.isSome && decide (e.2.place.core = c)))

/-- R350: the core can take another context; a placed group keeps it for its own. -/
def canLoad (s : State) (c : CoreId) : Bool :=
  loadFree s c && s.groups.all fun e => !(decide (e.2.core = c) && e.2.isPlaced)

/-- The core can take a group of a context: it has it loaded, or a group of the context waits for its load
(DEDUCED, unsafe: notes/assumptions/45.md). -/
def hasLoaded (s : State) (c : CoreId) (ctx : Nat) : Bool :=
  ((coreOf s c).ctx == some ctx &&
    s.groups.all fun e => !(decide (e.2.core = c) && e.2.isPlaced && e.2.ctx != ctx)) ||
  s.groups.any fun e => decide (e.2.core = c) && e.2.isPlaced && e.2.ctx == ctx

/-- R313: the core and the spot that the cupola of a die chooses for a group. -/
def findSpot (s : State) (d : Fin 8) (gid ctx : Nat) (h : Header) : Option (CoreId × Spot) :=
  let pick (p : CoreId → Bool) : Option (CoreId × Spot) :=
    (List.finRange 128).foldl (fun m k => match m with
      | some x => some x
      | none => if p ⟨d, k⟩ then (fitCore s gid h ⟨d, k⟩).map fun x => (⟨d, k⟩, x) else none) none
  match pick fun c => hasLoaded s c ctx with
  | some x => some x
  | none => pick fun c => canLoad s c

/-- The slots of a spot as a mask of its quarter. -/
def spotMask (x : Spot) : BitVec 16 := x.slots.foldl (fun m i => m ||| (1#16 <<< (i % 16))) 0

/-- The bind record is written: the group has its place (R310). -/
def placeAt (s : State) (gid : Nat) (g : Group) (c : CoreId) (x : Spot) (ph : Phase) : State :=
  let counts := warpCounts s gid g.hdr
  let s1 : State := { s with groups := tset s.groups gid { g with
    core := c, quarter := x.quarter, slotMask := spotMask x, scrBase := x.scrBase, accBase := x.accBase, phase := ph
    wslots := if g.hdr.accRows = 0 then 0 else 3 } }
  (List.range (g.hdr.warpsM1.val + 1)).foldl (fun a i =>
    let w := WarpKey.home gid (Fin.ofNat 16 i)
    let old := (tget a.warps w).getD ⟨Vector.replicate 16 RCell.zero, Vector.replicate 12 0, counts.getD i 8, 0, 0, 0⟩
    { a with warps := tset a.warps w { old with
      base := x.bases.getD i 0, slot := Fin.ofNat 64 (x.slots.getD i 0), w := old.w.mapIdx fun _ c => c.relaunched } }) s1

/-- Places each group of a list on a die, all or none (R315). -/
def placeAll? (d : Fin 8) (ph : Phase) : List Nat → State → Option State
  | [], s => some s
  | gid :: rest, s =>
    match groupOf s gid with
    | none => placeAll? d ph rest s
    | some g => match findSpot s d gid g.ctx g.hdr with
      | none => none
      | some (c, x) => placeAll? d ph rest (placeAt s gid g c x ph)

/-- An element at a place of a list, or at its end. -/
def insertAt (x : Nat) : List Nat → Nat → List Nat
  | [], _ => [x]
  | y :: l, i => match i with
    | 0 => x :: y :: l
    | n + 1 => y :: insertAt x l n

/-- The order in which the cupola places the groups of a gang, which the manual does not state: a free one. R422 has group 1 on a
lower core than group 0 (DESIGN CHOICE, unsafe: notes/assumptions/123.md). -/
def placeOrder (s : State) : List Nat → List Nat
  | [] => []
  | i :: l => insertAt i (placeOrder s l) ((Config.freeWord s.freeCount i).toNat % (l.length + 1))

/-- Places the groups of a gang on a die, in the cupola's order, else in theirs where that one leaves a group without a place (R315). -/
def placeGroups? (d : Fin 8) (ph : Phase) (gids : List Nat) (s : State) : Option State :=
  let r := match placeAll? d ph (placeOrder s gids) s with
    | some s1 => some s1
    | none => placeAll? d ph gids s
  r.map fun s1 => { s1 with freeCount := s1.freeCount + 1 }

/-! ### Bind (R311) and the start of threads (R76) -/

/-- A thread of a group at its first bind. -/
def freshThread (pc : Word) (p : Place) : Thread := { handlerThread pc p.core p.lane with place := p }

/-- No granule lies in two blocks of a list. -/
def blocksApart (bs : List (WarpKey × Nat × Nat)) : Bool :=
  (List.range 48).all fun i => decide ((bs.filter fun b => decide (b.2.1 ≤ i) && decide (i < b.2.1 + b.2.2)).length ≤ 1)

/-- The blocks of a group's own record. -/
def ownBlocks (s : State) (gid : Nat) (g : Group) : List (WarpKey × Nat × Nat) :=
  (blocksOf s g.core g.quarter).filter fun b => match b.1 with
    | .home x _ => x == gid
    | .handler _ => false

/-- R311: the core accepts the record of a placed group. -/
def recordOk (s : State) (gid : Nat) (g : Group) : Bool :=
  let o : State := { s with groups := tdel s.groups gid }
  (coreOf s g.core).ctx == some g.ctx &&
  decide (popCount 16 g.slotMask.toNat = g.hdr.warpsM1.val + 1) &&
  (List.range 16).all (fun j => !g.slotMask.getLsbD j ||
    (!slotHeld o g.core (16 * g.quarter.val + j) && decide (16 * g.quarter.val + j < 60))) &&
  (ownBlocks s gid g).all (fun b => decide (b.2.1 + b.2.2 ≤ 48) &&
      (rangeFrom b.2.1 b.2.2).all fun i => !granuleHeld o g.core g.quarter i) && blocksApart (ownBlocks s gid g) &&
  decide (g.scrBase + g.hdr.scrUnits ≤ 256) && (rangeFrom g.scrBase g.hdr.scrUnits).all (fun u => !unitHeld o g.core u) &&
  decide (g.accBase + g.hdr.accRows ≤ 512) && (rangeFrom g.accBase g.hdr.accRows).all (fun r => !rowHeld o g.core r) &&
  (if g.hdr.accRows = 0 then g.wslots == 0 else g.wslots == 3 && !wslotsHeld o g.core)

/-- The retired groups of which a core still holds what they left: those without an entry that awaits the handler. -/
def retiredOn (s : State) (c : CoreId) : List Nat :=
  tkeys s.groups fun gid g => g.phase == .retired && decide (g.core = c) &&
    (threadsOfGroup s gid).all fun t => ((threadOf s t).map (·.entry.isNone)).getD true

/-- Groups leave the package, with their threads and warps. -/
def dropGroups (s : State) (ks : List Nat) : State :=
  { s with
    groups := s.groups.filter fun e => !ks.contains e.1
    threads := s.threads.filter fun e => !((gidOf e.1).map ks.contains).getD false
    warps := s.warps.filter fun e => match e.1 with
      | .home x _ => !ks.contains x
      | .handler _ => true }

/-- What every bind does to its core: a system-scope acquire, an empty instruction cache, the die touched, the core awake
(R426, R235, R329, R359, R320). What retired groups left on the core is gone (DESIGN CHOICE, safe: notes/assumptions/107.md). -/
def bindCore (s : State) (g : Group) : State :=
  modCore (touchDie (acquireAct (dropGroups s (retiredOn s g.core)) g.core .sys) g.ctx g.core.die) g.core fun k =>
    { k with icache := [], dozing := false }

/-- The slots of a group start without leaders, fairness counts, timer mark or time of a last issue, also at a save and at a relaunch
(DESIGN CHOICE, unsafe: notes/assumptions/102.md). -/
def clearSlots (s : State) (g : Group) : State :=
  (List.range 16).foldl (fun a j =>
    if g.slotMask.getLsbD j then
      modSlot a g.core (Fin.ofNat 64 (16 * g.quarter.val + j)) fun x =>
        { x with leader := none, last := 0, counts := [], timed := false }
    else a) s

/-- The 32 threads of a home warp start at the entry (R76, R325); on a stopped core they arrive Stopped
(DEDUCED, unsafe: notes/assumptions/87.md). -/
def startWarp (gid : Nat) (g : Group) (s : State) (i : Nat) : State :=
  let h : Fin 16 := Fin.ofNat 16 i
  let slot := ((tget s.warps (.home gid h)).map (·.slot)).getD 0
  (List.finRange 32).foldl (fun a l =>
    let th := freshThread (g.hdrVa + 128) ⟨g.core, slot, l⟩
    { a with threads := tset a.threads (.home gid h l) { th with status := arriveStatus s g.core } }) s

/-- The threads of a group start. -/
def startGroup (s : State) (gid : Nat) : State :=
  match groupOf s gid with
  | none => s
  | some g => (List.range (g.hdr.warpsM1.val + 1)).foldl (startWarp gid g) (clearSlots s g)

/-- The gang of a group. -/
def gangOfGroup (s : State) (gid : Nat) : Option (Nat × Gang) :=
  (groupOf s gid).bind fun g => (tget s.gangs g.gangKey).map fun x => (g.gangKey, x)

def modGang (s : State) (k : Nat) (f : Gang → Gang) : State := { s with gangs := tmod s.gangs k f }

/-- The phase of a group; a group that is gone has retired. -/
def phaseOf (s : State) (gid : Nat) : Phase := ((groupOf s gid).map (·.phase)).getD .retired

/-- A gang that has not started goes back to its launch, which hands it out anew before any later gang (R311, R341). A closed launch
with no other gang out has then handed out none, and is discarded (R337). -/
def handBack (s : State) (k : Nat) (x : Gang) : State :=
  let n := x.gang.toNat
  let s1 := dropGroups { s with gangs := tdel s.gangs k } x.groups
  { s1 with queues := tmod s1.queues x.queue fun q => { q with records := (q.records.map fun l =>
      if l.num = x.launch ∧ l.ctx = x.ctx then
        { l with back := l.back.filter (· < n) ++ n :: l.back.filter (n < ·) } else l).filter fun l =>
          !(l.closed && l.handed == l.back.length) } }

/-- The gang goes back to the tundish: its records are withdrawn (R311). The groups of a gang that has started stand saved and await
relaunch; one that has not is handed out anew (R341). -/
def refuseGang (s : State) (k : Nat) (x : Gang) : State :=
  if x.started then
    let back (p : Phase) : Phase := if p = .queued ∨ p = .returning ∨ (p = .resident ∧ x.bound = false) then .preemptSaved else p
    let s1 := x.groups.foldl (fun a i => modGroup a i fun g => { g with phase := back g.phase }) s
    modGang s1 k fun y => { y with bound := false, saved := true }
  else handBack s k x

/-- The core of a placed group may take its record: the die works, the mask of the context permits it (R362), and the core
accepts it (R311). -/
def mayBind (s : State) (gid : Nat) (g : Group) : Bool :=
  (dieOf s g.core.die).takes && (ctxOf s g.ctx).dieMask.getLsbD g.core.die.val && recordOk s gid g

/-- BIND: the record of a placed group becomes Valid. When the last group of its gang is bound, the threads of the gang
start (R315). -/
def execBind (gid : Nat) (s : State) : Host.Outcome State Fault Refusal :=
  match groupOf s gid, gangOfGroup s gid with
  | some g, some (k, x) =>
    if g.phase ≠ .queued then .next s
    else if !mayBind s gid g then .next (refuseGang s k x)
    else
      let s1 := bindCore (modGroup s gid fun y => { y with phase := .resident, bindAt := s.clock }) g
      if x.groups.any fun i => phaseOf s1 i == .queued then .next s1
      else .next (modGang (x.groups.foldl startGroup s1) k fun y =>
        { y with bound := true, started := true, boundAt := s.clock, saved := false })
  | _, _ => .next s

/-- The entries of threads that have ended on a core leave with the context for which they stood. -/
def dropEntries (s : State) (c : CoreId) : State :=
  { s with threads := s.threads.map fun e =>
      if e.2.place.core = c ∧ e.2.isEnded = true then (e.1, { e.2 with entry := none, res := .none }) else e }

/-- CONTEXT_LOAD (R350). A stop that outlives its context's groups ends with the load (DEDUCED, unsafe: notes/assumptions/87.md). -/
def execContextLoad (c : CoreId) (ctx : Fin 2048) (s : State) : Host.Outcome State Fault Refusal :=
  let waits := s.groups.all fun e => !(decide (e.2.core = c) && e.2.isPlaced) || e.2.ctx == ctx.val
  let k := coreOf s c
  let x := ctxOf s ctx.val
  if waits && loadFree s c && k.ctx != some ctx.val && x.exists? && !x.destroyed &&
      x.cmd != some .destroy && x.lost == 0 && x.dieMask.getLsbD c.die.val &&
      (dieOf s c.die).takes then
    .next { modCore (if k.stopped then dropEntries s c else s) c fun y => { y with
              ctx := some ctx.val, stopped := false, wanted := false, tlb := [], miss := Vector.replicate 4 0, l1 := [], icache := [] }
            with phases := s.phases.filter fun e => e.core ≠ c }
  else .next s

/-! ### Outstanding work (R103, R153, R241, R262, R321) -/

/-- The returns of a barrier word for which threads are still parked in BWAIT: with every entry served, only a BWAIT leaves values to
come, and it keeps them across a save (R153, R279). -/
def parkedReturns (o : Op) : Bool :=
  match o.body with
  | .returns left _ => decide (0 < left)
  | _ => false

/-- An operation that the group issued is not complete. -/
def groupBusy (s : State) (gid : Nat) : Bool :=
  let mine (t : ThreadKey) : Bool := gidOf t == some gid
  s.banks.any (fun e => e.gid == gid) || s.engs.any (fun e => e.2.gid == gid) ||
  s.slots.any (fun e => e.2.storeq.any fun x => mine x.thread) ||
  s.packets.any (fun e => e.2.threads.any mine) || s.ops.any fun e => e.2.threads.any mine && !parkedReturns e.2

/-- Every register write owed to the group has landed. -/
def groupLanded (s : State) (g : Group) (gid : Nat) : Bool :=
  let cyc := cycOf s g.core
  let owed (c : RCell) : Bool := decide (c.due ≤ cyc)
  s.threads.all (fun e => !(gidOf e.1 == some gid) || (e.2.regs.slots.toList.all owed && e.2.regs.named.toList.all owed)) &&
  s.warps.all fun e => match e.1 with
    | .home x _ => !(x == gid) || e.2.w.toList.all owed
    | .handler _ => true

/-- The group is drained: nothing outstanding, every write landed. -/
def drained (s : State) (g : Group) (gid : Nat) : Bool := !groupBusy s gid && groupLanded s g gid

/-- Every thread of the group that has not ended is Waiting at home, and one is (R317). -/
def allWaiting (s : State) (gid : Nat) : Bool :=
  (threadsOfGroup s gid).all (fun t => match threadOf s t with
    | some th => (th.status == .ended && th.away.isNone) || (match th.status with
        | .live (.waiting _) => true
        | _ => false)
    | none => true) &&
  (threadsOfGroup s gid).any fun t => ((threadOf s t).map fun th => !th.isEnded).getD false

/-! ### Saves (R318, R358) -/

/-- The lowest free image slot, of n from i. -/
def freeImage (used : List Nat) : Nat → Nat → Nat
  | 0, i => i
  | n + 1, i => if used.contains i then freeImage used n (i + 1) else i

/-- A save or a relaunch on a die asks for each block of the image, in class C3 (R364). -/
def imageTraffic (s : State) (d : Fin 8) (ctx a : Nat) : State := postPlain s d ctx 3 (blockAsks a (2 ^ 21))

/-- The image of a group is written at home into a slot of 2 MiB (R318, R358): its layout is the device's own, so each byte of
the slot takes a free value (DESIGN CHOICE, safe: notes/assumptions/47.md). -/
def writeImage (s : State) (d : Fin 8) (ctx a : Nat) : State :=
  let s1 : State := { s with
    mem := memFill s.mem a (2 ^ 21) fun k => (Config.freeWord s.freeCount k).truncate 8
    freeCount := s.freeCount + 1 }
  imageTraffic ((dedup ((s.homeWatches.filter fun e => decide (a / 128 ≤ e.line) && decide (e.line < a / 128 + 2 ^ 14)).map
    (·.line))).foldl homeTouched s1) d ctx a

/-- The image of a group on a die goes into a free slot of the context's save area (R358). -/
def takeImage (s : State) (gid : Nat) (d : Fin 8) (ctx : Nat) : State :=
  let x := ctxOf s ctx
  let i := freeImage x.images x.images.length 0
  let a := (bvf x.live 468 434 + i) * 2 ^ 21
  modGroup (modCtx (writeImage s d ctx a) ctx fun y => { y with images := i :: y.images }) gid fun g => { g with image := a }

/-- Frees it after a relaunch. -/
def freeImageOf (s : State) (ctx : Nat) (image : Nat) : State :=
  modCtx s ctx fun y => { y with images := y.images.erase (image / 2 ^ 21 - bvf y.live 468 434) }

/-- The context holds a carve-out unit on a die. -/
def holdsCarve (s : State) (ctx : Nat) (d : Fin 8) : Bool :=
  (List.finRange 8).any fun u => ((dieOf s d).carve[u]).valid && ((dieOf s d).carve[u]).ctx == ctx

/-- A group, a ladle or a handler of a context stands on a die. -/
def standsOn (s : State) (ctx : Nat) (d : Fin 8) : Bool :=
  (s.groups.any fun e => e.2.ctx == ctx && e.2.holdsParts && decide (e.2.core.die = d)) ||
  (s.threads.any fun e => e.2.isResident && decide (e.2.place.core.die = d) && ctxIdOf s e.1 == ctx) ||
  s.cores.any fun e => decide (e.1.die = d) && e.2.ctx == some ctx && (e.2.handler.isSome || e.2.stopped)

/-- The cores of a die have nothing of a context loaded. -/
def unloadDie (s : State) (ctx : Nat) (d : Fin 8) : State :=
  { s with cores := s.cores.map fun e =>
      if e.1.die = d ∧ e.2.ctx = some ctx then (e.1, { e.2 with ctx := none, tlb := [], l1 := [], icache := [] }) else e }

/-- A drain of a die for a context (R359): its dirty words go home; where nothing of it stands on the die, the cores unload
it, and without a carve-out its Touched bit clears. -/
def drainDie (s : State) (ctx : Nat) (d : Fin 8) : State :=
  let s1 := releaseAct s d ctx .sys
  if standsOn s1 ctx d then s1
  else
    let s2 := unloadDie s1 ctx d
    if holdsCarve s2 ctx d then s2 else modCtx s2 ctx fun x => { x with touched := x.touched &&& ~~~(1#8 <<< d.val) }

/-- A thread enters Saved (R76): Stalled is recorded as Ready; a Ready one has WAKE Reason 12 at its relaunch. -/
def saveThread (th : Thread) : Thread :=
  match th.status with
  | .live (.waiting w) => { th with status := .saved (.waiting w), savedMark := true }
  | .live .exiting => { th with status := .saved .exiting }
  | .live _ => { th with status := .saved .ready, wake := ⟨12, false, true⟩ }
  | _ => th

/-- The Gen of each carve-out object on which a thread of a group waits (R319). -/
def savedGens (s : State) (gid : Nat) : Tab Nat Nat :=
  (threadsOfGroup s gid).filterMap fun t => match (threadOf s t).bind Thread.wait? with
    | some (.barrier (.carve pa) _ _ _) => some (pa, barGen (barRead s gid (.carve pa)))
    | _ => none

/-- The group is saved: a system-scope release, an image slot, its place is free, and the die drains (R235, R318, R359). -/
def saveGroup (s : State) (gid : Nat) (ph : Phase) : State :=
  match groupOf s gid with
  | none => s
  | some g =>
    let s1 := clearSlots (takeImage (releaseAct s g.core.die g.ctx .sys) gid g.core.die g.ctx) g
    let s2 := (threadsOfGroup s1 gid).foldl (fun a t => modThread a t saveThread) s1
    drainDie (modGroup s2 gid fun x => { x with
      phase := ph, parkCount := 0, recognised := false, queued := false, gens := savedGens s2 gid }) g.ctx g.core.die

/-- A saved GROW is complete: the image records the target count (R110). -/
def saveGrows (s : State) (gid : Nat) : State :=
  (threadsOfGroup s gid).foldl (fun a t =>
    match (threadOf a t).bind Thread.wait? with
    | some (.grow n) => wakeThread (growTo a (warpKeyOf t) n) t 10
    | _ => a) s

/-- The park threshold of a context (R317, R347). -/
def parkThreshold (s : State) (ctx : Nat) : Nat :=
  let p := bvf (ctxOf s ctx).live 417 394
  if p = 0 then 20000 else p

/-- The context waits in doze mode (R100). -/
def dozeMode (s : State) (ctx : Nat) : Bool := bvf (ctxOf s ctx).live 249 249 == 1

/-- A save by park or compaction goes on: it drains, is abandoned, or is done (R318). -/
def parkStep (s : State) (gid : Nat) (g : Group) : State :=
  if !allWaiting s gid then resetPark s gid
  else if drained s g gid then saveGrows (saveGroup s gid .parkSaved) gid
  else modGroup s gid fun x => { x with phase := .parking }

/-- PARK_SAVE (R317, R318). -/
def execParkSave (gid : Nat) (s : State) : Host.Outcome State Fault Refusal :=
  match groupOf s gid with
  | none => .next s
  | some g =>
    if g.phase = .parking ∨
        (g.phase = .resident ∧ dozeMode s g.ctx = false ∧ parkThreshold s g.ctx < g.parkCount) then
      .next (parkStep s gid g)
    else .next s

/-- COMPACTION_SAVE (R314). -/
def execCompactionSave (gid : Nat) (s : State) : Host.Outcome State Fault Refusal :=
  match groupOf s gid with
  | none => .next s
  | some g =>
    if g.isResident ∧ allWaiting s gid ∧ g.recognised = false then .next (parkStep s gid g) else .next s

/-! ### Relaunch (R316, R319) -/

/-- A thread returns from Saved (R76, R293); on a stopped core it arrives Stopped (DEDUCED, unsafe: notes/assumptions/87.md). The
lane of one that has ended comes with its warp: its values have landed (R103). -/
def resumeThread (stopped : Bool) (c : CoreId) (slot : Fin 64) (lane : Fin 32) (th : Thread) : Thread :=
  match th.status with
  | .saved p => { th with
    status := if stopped then .stopped p else .live p
    place := ⟨c, slot, lane⟩, filter := 0, readyAt := 0, regs := th.regs.relaunched }
  | .ended | .lost => { th with place := ⟨c, slot, lane⟩, regs := th.regs.relaunched }
  | _ => th

/-- The threads of a group that wait in BWAIT are tested at their relaunch (R279, R319). -/
def testWaits (s : State) (gid : Nat) : State :=
  (threadsOfGroup s gid).foldl (fun a t => match (threadOf a t).bind Thread.wait? with
    | some (.barrier _ _ _ _) => testWaiter a t
    | _ => a) s

/-- The threads of a group resume; the step of one whose wait ended in the image stops it now (R356). -/
def resumeGroup (s : State) (gid : Nat) : State :=
  match groupOf s gid with
  | none => s
  | some g =>
    let s1 := freeImageOf (imageTraffic (clearSlots s g) g.core.die g.ctx g.image) g.ctx g.image
    let s2 := (threadsOfGroup s1 gid).foldl (fun a t =>
      modThread a t (resumeThread (coreOf s1 g.core).stopped g.core (((warpOf a t).map (·.slot)).getD 0) (laneOf t))) s1
    let s3 : State := { s2 with ops := s2.ops.map fun e =>
      if (e.2.threads.any fun t => gidOf t == some gid) then (e.1, { e.2 with core := g.core }) else e }
    let s4 := finishExits (modGroup s3 gid fun x => { x with queued := false, gens := [] })
    testWaits (servedSteps s4 (threadsOfGroup s4 gid)) gid

/-- A park-saved group is queued for relaunch: the wait of a thread of it has ended, or the Gen of an object has changed (R319). -/
def parkReady (s : State) (gid : Nat) : Bool :=
  ((groupOf s gid).map (·.queued)).getD false || (threadsOfGroup s gid).any fun t => ((threadOf s t).map fun th => th.status == .saved .ready).getD false

/-- The most free home slots on the cores of a die where a gang of a context could be bound (R341). -/
def freeHomeSlots (s : State) (d : Fin 8) (ctx : Nat) : Nat :=
  (List.finRange 128).foldl (fun n k =>
    if hasLoaded s ⟨d, k⟩ ctx || canLoad s ⟨d, k⟩ then
      n + ((List.range 60).filter fun i => !slotHeld s ⟨d, k⟩ i).length else n) 0

/-- The dies that a context's mask permits and that may take work. -/
def diesFor (s : State) (ctx : Nat) : List (Fin 8) :=
  (List.finRange 8).filter fun d => (ctxOf s ctx).dieMask.getLsbD d.val && (dieOf s d).takes

/-- R341: among the fitting dies, the one with the most free home slots; a tie goes to the lower die. -/
def bestFit (s : State) (ctx : Nat) (dies : List (Fin 8)) (gids : List Nat) (ph : Phase) : Option (Fin 8 × State) :=
  dies.foldl (fun m d =>
    match placeGroups? d ph gids s with
    | none => m
    | some s1 => match m with
      | none => some (d, s1)
      | some (e, s2) => if freeHomeSlots s e ctx < freeHomeSlots s d ctx then some (d, s1) else some (e, s2)) none

/-- Another group of a gang stands on its die, or has its place there. -/
def gangStands (s : State) (gid : Nat) (x : Gang) : Bool :=
  x.groups.any fun i => decide (i ≠ gid) && ((groupOf s i).map fun g => g.isResident || g.isPlaced).getD false

/-- The dies to which a park-saved group may return: the die of the rest of its gang, where any of it is resident (R316). -/
def parkDies (s : State) (gid : Nat) (g : Group) : List (Fin 8) :=
  match gangOfGroup s gid with
  | some (_, x) => if gangStands s gid x then (diesFor s g.ctx).filter fun d => decide (d = x.die) else diesFor s g.ctx
  | none => diesFor s g.ctx

/-- The gang of a returning group is whole again: no group of it waits for its bind. -/
def gangWhole (s : State) (x : Gang) : Bool := x.groups.all fun i => phaseOf s i != .returning

/-- The watches that a pre-emption save removed end at the relaunch of their threads (R221). -/
def endSavedWatches (s : State) (gid : Nat) : State :=
  (tkeys s.watches fun _ w => w.saved && decide (gidOf w.thread = some gid)).foldl endWatch s

/-- The resident groups of a gang resume. -/
def resumeGang (s : State) (k : Nat) (x : Gang) : State :=
  modGang ((x.groups.filter fun i => phaseOf s i == .resident).foldl (fun a i => endSavedWatches (resumeGroup a i) i) s) k fun y =>
    { y with bound := true, started := true, boundAt := if y.bound then y.boundAt else s.clock, saved := false }

/-- RELAUNCH: a park-saved group that is queued receives a place; a group with a place is bound again, and resumes when its
gang is whole. -/
def execRelaunch (gid : Nat) (s : State) : Host.Outcome State Fault Refusal :=
  match groupOf s gid, gangOfGroup s gid with
  | some g, some (k, x) =>
    match g.phase with
    | .parkSaved =>
      if !parkReady s gid || !x.bound || x.preempt then .next s
      else match bestFit s g.ctx (parkDies s gid g) [gid] .returning with
        | none => .next s
        | some (d, s1) => .next (modGang s1 k fun y => { y with die := d })
    | .returning =>
      if !mayBind s gid g || (x.bound && x.preempt) then
        .next (if x.bound then modGroup s gid fun y => { y with phase := .parkSaved } else refuseGang s k x)
      else
        let s1 := dropPrivate (bindCore (modGroup s gid fun y => { y with phase := .resident, bindAt := s.clock }) g) g.core.die
        if x.bound then .next (resumeGroup s1 gid)
        else if gangWhole s1 x then .next (resumeGang s1 k x) else .next s1
    | _ => .next s
  | _, _ => .next s

/-! ### Doze (R320) -/

/-- A bind record of the core is Valid, and its gang has not started yet. -/
def startsSoon (s : State) (c : CoreId) : Bool :=
  s.groups.any fun e => decide (e.2.core = c) && e.2.isResident && ((tget s.gangs e.2.gangKey).map fun x => !x.bound).getD false

/-- The resident threads of a core let it doze. -/
def coreIdle (s : State) (c : CoreId) : Bool :=
  !startsSoon s c && s.threads.all fun e =>
    !(decide (e.2.place.core = c) && e.2.isResident) || (match e.2.status with
      | .live (.waiting _) => true
      | .live .exiting => true
      | _ => false)

/-- A mask release is due on a core. -/
def releaseDue (s : State) (c : CoreId) : Bool :=
  s.warps.any fun e => match e.1 with
    | .home g _ => ((groupOf s g).map fun x => x.isResident && decide (x.core = c)).getD false &&
        (List.finRange 12).any fun k => maskReady s e.1 k || maskDue s e.1 k
    | .handler _ => false

/-- The conditions of R320. A core stays awake while a group on it is recognised for a pre-emption
(DESIGN CHOICE, safe: notes/assumptions/108.md). -/
def mayDoze (s : State) (c : CoreId) : Bool :=
  let k := coreOf s c
  (match k.ctx with
    | some x => dozeMode s x
    | none => false) &&
  coreIdle s c && k.handler.isNone && !k.stopped && (s.banks.all fun e => decide (e.core ≠ c)) &&
  s.slots.all (fun e => decide (e.1.1 ≠ c) || e.2.storeq.isEmpty) && !releaseDue s c &&
  s.groups.all fun e => !(decide (e.2.core = c) && e.2.recognised)

/-- No thread is resident on the core, and no bind record of it waits for its gang's start (R320, R408). -/
def noThreads (s : State) (c : CoreId) : Bool :=
  !startsSoon s c && s.threads.all fun e => !(decide (e.2.place.core = c) && e.2.isResident)

/-- The waits that the doze of a core falls into (R98). -/
def markDozed (s : State) (c : CoreId) : State :=
  { s with threads := s.threads.map fun e =>
      if e.2.place.core = c ∧ e.2.isResident = true ∧ e.2.wait?.isSome then (e.1, { e.2 with dozedMark := true }) else e }

/-- DOZE (R320): the core is clock-gated. -/
def execDoze (c : CoreId) (s : State) : Host.Outcome State Fault Refusal :=
  if mayDoze s c || (noThreads s c && (coreOf s c).handler.isNone && s.banks.all fun e => decide (e.core ≠ c)) then
    .next (markDozed (modCore s c fun k => { k with dozing := true }) c)
  else .next s

/-- CORE_WAKE: a resident thread has been released, or a pre-emption request stands against a group of the core
(DESIGN CHOICE, safe: notes/assumptions/55.md). -/
def execCoreWake (c : CoreId) (s : State) : Host.Outcome State Fault Refusal :=
  let asked := s.groups.any fun e => decide (e.2.core = c) && e.2.isResident &&
    ((tget s.gangs e.2.gangKey).map (·.preempt)).getD false
  if (coreOf s c).dozing && ((!noThreads s c && !coreIdle s c) || asked) then
    .next (modCore s c fun k => { k with dozing := false })
  else .next s

/-! ### Retirement (R321) -/

/-- Every thread of the group has ended, and every end notice has arrived (R302). -/
def groupEnded (s : State) (gid : Nat) : Bool :=
  let ts := threadsOfGroup s gid
  !ts.isEmpty && ts.all fun t =>
    ((threadOf s t).map fun th => th.status == .ended && th.away.isNone).getD true

/-- The group has retired: its allocations are free; its gang and launch count it. What its parts hold stands until the next bind on
its core, and so does an entry of a thread that ended (R321, R351). -/
def retireGroup (s : State) (gid : Nat) (g : Group) : State :=
  let s1 := modGroup { s with ops := s.ops.filter fun e => !(e.2.threads.any fun t => gidOf t == some gid) } gid fun x =>
    { x with phase := .retired, bg := 0, recognised := false }
  match tget s1.gangs g.gangKey with
  | none => s1
  | some x =>
    if x.groups.all fun i => phaseOf s1 i == .retired then
      let s2 : State := { s1 with gangs := tdel s1.gangs g.gangKey }
      { s2 with queues := tmod s2.queues x.queue fun q => { q with records := q.records.map fun l =>
          if l.num = x.launch ∧ l.ctx = x.ctx then { l with retired := l.retired + 1 } else l } }
    else s1

/-- The groups with work that the retirement tracker of a core holds for ladles that ended on it, away from their home core
(R302). -/
def ladleTracks (s : State) (c : CoreId) : List Nat :=
  let away (t : ThreadKey) : Option Nat :=
    if ((threadOf s t).map Thread.isEnded).getD false ∧ ((groupOfThread s t).map (·.core)) ≠ some c then gidOf t else none
  dedup (((s.ops.filter fun e => decide (e.2.core = c)).flatMap (fun e => e.2.threads.filterMap away)) ++
    ((s.slots.filter fun e => decide (e.1.1 = c)).flatMap (fun e => e.2.storeq.filterMap fun x => away x.thread)) ++
    ((s.packets.filter fun e => decide (e.2.core = c) && e.2.op.isNone).flatMap fun e => e.2.threads.filterMap away))

/-- The entries of a core's retirement tracker in use (R321). -/
def trackerUse (s : State) (c : CoreId) : Nat :=
  (s.groups.filter fun e => decide (e.2.core = c) && e.2.phase == .tracked).length + (ladleTracks s c).length

/-- GROUP_RETIRE: the slots are freed, with a tracker entry for what is outstanding, and then the allocations. -/
def execGroupRetire (gid : Nat) (s : State) : Host.Outcome State Fault Refusal :=
  match groupOf s gid with
  | none => .next s
  | some g =>
    if !(g.isResident || g.phase == .tracked) || !groupEnded s gid then .next s
    else if !groupBusy s gid then .next (retireGroup (if g.isResident then clearSlots s g else s) gid g)
    else if g.phase = .tracked then .next s
    else if trackerUse s g.core < 16 then
      .next (modGroup (clearSlots s g) gid fun x => { x with phase := .tracked })
    else .next s

/-! ### Critical windows (R322, R323) -/

/-- OpenCount of a group. -/
def openCount (s : State) (gid : Nat) : Nat :=
  (s.threads.filter fun e => gidOf e.1 == some gid && e.2.critOpen).length

/-- The group is inside a window (R322). -/
def insideWindow (s : State) (gid : Nat) (g : Group) : Bool :=
  decide (0 < openCount s gid) && decide (0 < g.bg) &&
  s.threads.any fun e => gidOf e.1 == some gid && !e.2.isEnded && e.2.wait?.isNone

/-- A pre-emption request is pending against the gang of a group. -/
def preemptPending (s : State) (gid : Nat) : Bool := ((gangOfGroup s gid).map (·.2.preempt)).getD false

/-- One thread's CRIT. -/
def critOne (open_ : Bool) (d : PDst) (s : State) (t : ThreadKey) : State :=
  let gid := (gidOf t).getD 0
  let was := ((threadOf s t).map (·.critOpen)).getD false
  let s1 :=
    if open_ then
      if was then s
      else
        let s2 := if openCount s gid = 0 then
            modGroup s gid fun g => { g with bg := if preemptPending s gid then 0 else g.hdr.crit } else s
        modThread s2 t fun th => { th with critOpen := true }
    else modThread s t fun th => { th with critOpen := false }
  giveThread s1 t d (BitVec.ofNat 64 (((groupOf s1 gid).map (·.bg)).getD 0 % 65536)) 0 none

def execCrit (a : Src) (d : PDst) (st : Stall) (s : State) :=
  issue (.crit a d st) (fun ts s =>
    .done ((sortThreads s ts).foldl (fun x t => critOne ((readSrc s t 0 a).getLsbD 0) d x t) s) (advance s ts)) s

/-- Bg falls in the cycles of R322. -/
def bgRuns (s : State) (gid : Nat) (g : Group) : Bool :=
  g.isResident && decide (0 < g.bg) && decide (0 < openCount s gid) && !(coreOf s g.core).dozing && !(coreOf s g.core).stopped

/-- CRIT_BUDGET_EXPIRE: the last cycle of the budget. -/
def execCritBudgetExpire (gid : Nat) (s : State) : Host.Outcome State Fault Refusal :=
  match groupOf s gid with
  | none => .next s
  | some g => if g.bg = 1 ∧ bgRuns s gid g = true then .next (modGroup s gid fun x => { x with bg := 0 }) else .next s

/-! ### Pre-emption (R303, R324) -/

/-- A thread is away, or is about to leave (R287): a recall reaches it (R303). -/
def Thread.recallable (th : Thread) : Bool :=
  !th.isEnded && (th.away.isSome || match th.leaving with
    | some l => decide (l.kind.val < 2)
    | none => false)

/-- PREEMPT_RECOGNISE: away threads are recalled, and the group issues nothing more. -/
def execPreemptRecognise (gid : Nat) (s : State) : Host.Outcome State Fault Refusal :=
  match groupOf s gid with
  | none => .next s
  | some g =>
    if g.isResident ∧ preemptPending s gid ∧ insideWindow s gid g = false ∧ (coreOf s g.core).stopped = false then
      let s1 := modGroup s gid fun x => { x with recognised := true, phase := .resident }
      .next ((threadsOfGroup s1 gid).foldl (fun a t => modThread a t fun th =>
        if th.recallable then { th with recalled := true } else th) s1)
    else .next s

/-- A group is ready for its gang's save: recognised, its threads home or ended and none Stopped, drained. -/
def preemptReady (s : State) (gid : Nat) : Bool :=
  match groupOf s gid with
  | none => true
  | some g =>
    match g.phase with
    | .resident =>
      g.recognised && drained s g gid && !(coreOf s g.core).stopped &&
      (threadsOfGroup s gid).all fun t => ((threadOf s t).map fun th =>
        th.away.isNone && th.leaving.isNone && th.inBar.isNone && (match th.status with
          | .live .exiting => false
          | .live _ => true
          | .ended => true
          | .lost => true
          | _ => false)).getD true
    | .parkSaved => true
    | .preemptSaved => true
    | .retired => true
    | _ => false

/-- No tile operation of a context pins a line (R195). -/
def pinsReleased (s : State) (ctx : Nat) : Bool :=
  s.dies.toList.all fun d => d.l2.all fun e => e.2.pins.all fun op =>
    ((tget s.engs op).map fun x => ((groupOf s x.gid).map (·.ctx)).getD 0 != ctx).getD true

/-- A pre-emption save removes the watches of a group's threads (R220, R221) (DEDUCED, unsafe: notes/assumptions/74.md). -/
def saveWatches (s : State) (gid : Nat) : State :=
  { s with watches := s.watches.map fun e => if gidOf e.2.thread = some gid then (e.1, { e.2 with saved := true }) else e }

/-- PREEMPT_SAVE: the whole gang is saved. -/
def execPreemptSave (gang : Nat) (s : State) : Host.Outcome State Fault Refusal :=
  match tget s.gangs gang with
  | none => .next s
  | some x =>
    if x.preempt ∧ x.bound ∧ x.groups.all (preemptReady s) ∧ pinsReleased s x.ctx then
      let s1 := x.groups.foldl (fun a i =>
        match phaseOf a i with
        | .resident =>
          let b := saveWatches (saveGroup a i .preemptSaved) i
          if dozeMode b x.ctx then b else saveGrows b i
        | .parkSaved => modGroup a i fun g => { g with phase := .preemptSaved }
        | _ => a) s
      .next (modGang s1 gang fun y => { y with preempt := false, saved := true, bound := false, left := y.die })
    else .next s

/-- A request is recognised at the next instruction boundary outside a window (R324). -/
def recogniseAll (s : State) : State :=
  (tkeys s.groups fun gid g => !g.recognised && preemptPending s gid).foldl (fun a gid =>
    match execPreemptRecognise gid a with
    | .next x => x
    | _ => a) s

/-- R319: a Saved thread's object has another Gen than was last seen: the group is queued for relaunch. -/
def noteGens (s : State) : State :=
  { s with groups := s.groups.map fun e =>
      if e.2.phase = .parkSaved ∧ (e.2.gens.any fun x => barGen (barRead s e.1 (.carve x.1)) != x.2) = true then
        (e.1, { e.2 with queued := true }) else e }

end Sys2Proof.Machine
end

