-- ==== Sys2Proof/Machine/Tundish.lean ====
section
/-! DEFINITION. The tundish: launch records, queues, events, the choice of gangs, completion and latency bounds, and the
words QPOST, EVSIG and SIG (spec/16_queue.md R331 to R346; spec/15_kernel.md R326 to R329). -/

namespace Sys2Proof.Machine

/-! ### Headers (R326, R327) -/

/-- The fields of a header. -/
def headerOf (r : BitVec 1024) : Header :=
  { paramDir := BitVec.ofNat 64 (bvf r 191 128), subset := BitVec.ofNat 32 (bvf r 127 96), crit := bvf r 92 80
    gangM1 := Fin.ofNat 16 (bvf r 75 72), warpsM1 := Fin.ofNat 32 (bvf r 68 64), accRows := bvf r 57 48
    scrUnits := bvf r 40 32, paramLog := Fin.ofNat 16 (bvf r 20 17), qdepth := Fin.ofNat 4 (bvf r 16 15)
    migStrict := r.getLsbD 14, migrate := r.getLsbD 13, strict := r.getLsbD 12, doze := r.getLsbD 11
    promise := r.getLsbD 10, namedM1 := Fin.ofNat 4 (bvf r 9 8) }

/-- A must-be-0 field of a header is nonzero. -/
def headerMbz (r : BitVec 1024) : Bool :=
  bvf r 1023 192 != 0 || bvf r 95 93 != 0 || bvf r 79 76 != 0 || bvf r 71 69 != 0 || bvf r 63 58 != 0 ||
  bvf r 47 41 != 0 || bvf r 31 21 != 0

/-- The tests of R327 on the header's own fields, for a context. -/
def headerBad (s : State) (ctx : Nat) (r : BitVec 1024) : Bool :=
  let h := headerOf r
  let bits := popCount 32 h.subset.toNat
  bvf r 7 0 != 1 || headerMbz r || decide (256 < h.scrUnits) || decide (512 < h.accRows) || decide (4096 < h.crit) ||
  decide (15 < h.warpsM1.val) || decide (48 < (h.warpsM1.val + 1) * (h.namedM1.val + 1)) ||
  (!h.migrate && (h.subset != 0 || h.qdepth != 0 || h.migStrict)) ||
  (h.migrate && (h.qdepth == 3 || decide (12 < bits) || decide (24 < bits + carriedDepth h) ||
    decide (2 ^ (8 * (h.namedM1.val + 1)) ≤ h.subset.toNat))) ||
  h.paramDir.toNat % 8 != 0 || !canonical h.paramDir.toNat || h.doze != dozeMode s ctx

/-! ### Launch records (R331, R332) -/

def lrSigInc (r : BitVec 512) : Nat := bvf r 511 448
def lrSigAddr (r : BitVec 512) : Nat := bvf r 447 384
def lrWaitVal (r : BitVec 512) : Nat := bvf r 383 320
def lrWaitAddr (r : BitVec 512) : Nat := bvf r 319 256
def lrParam (r : BitVec 512) : Nat := bvf r 255 192
def lrKernel (r : BitVec 512) : Nat := bvf r 191 128
def lrGangs (r : BitVec 512) : Nat := bvf r 95 64
def lrVector (r : BitVec 512) : Fin 64 := Fin.ofNat 64 (bvf r 31 26)
def lrIrq (r : BitVec 512) : Bool := r.getLsbD 25
def lrOrdered (r : BitVec 512) : Bool := r.getLsbD 24
def lrPrio (r : BitVec 512) : Nat := bvf r 23 20
def lrGroups (r : BitVec 512) : Nat := bvf r 19 15

/-- Stage 1 of R332. -/
def recordBad (r : BitVec 512) : Bool :=
  bvf r 7 0 != 1 || bvf r 127 96 != 0 || bvf r 63 32 != 0 || bvf r 14 8 != 0 || decide (11 < lrPrio r) || lrGangs r == 0 ||
  [lrWaitAddr r, lrSigAddr r].any fun a => a % 8 != 0 || !canonical a

/-- A translation by the tundish, which belongs to no die: a carve-out frame stands apart. -/
inductive TundishXlat where
  | ok (loc : Nat)
  | carve
  | bad (kind : Nat)
  deriving DecidableEq, Repr

def tundishXlat (s : State) (ctx va : Nat) (need : Need) : TundishXlat :=
  match translateHost s ctx va need with
  | .ok x => .ok x.loc
  | .page => .bad 11
  | .viol 6 => .carve
  | .viol k => .bad k

/-- Requests of class C3 from the runner of a stack, for bytes at home in DRAM (R364); host memory asks nothing of a controller. -/
def postC3 (s : State) (a : Fin 16) (loc n : Nat) : State := if loc < 2 ^ 64 then postOutside s a 0 3 (blockAsks loc n) else s

/-- Those of the active tundish. -/
def postTundish (s : State) (loc n : Nat) : State := postC3 s (activeTundish s) loc n

/-- The reads of a walk for a host port or the tundish at a stack, of class C2 (R364). -/
def outsideWalk (s : State) (a : Fin 16) (ctx va : Nat) : State :=
  if canonical va then postOutside s a ctx 2 (walkAsks s ctx va) else s

def tundishWalk (s : State) (ctx va : Nat) : State := outsideWalk s (activeTundish s) ctx va

/-- A failed translation of a test is logged for the tenant (R327, R332). -/
def tundishLog (s : State) (t : Fin 64) (ctx kind va : Nat) : State := logViolation s t ⟨5, 0, 0, ctx, kind, 0, va⟩

/-- What the tests of a record find: the launch's parts, or a refusal code with the state that logs it. -/
inductive Offer where
  | ok (l : Launch)
  | refused (code : Nat) (s : State)

/-- Stage 3 for one event address: its place, or the Kind of its log entry. -/
def eventPlace (s : State) (ctx va : Nat) (need : Need) : Option Nat ⊕ Nat :=
  if va = 0 then .inl none
  else match tundishXlat s ctx va need with
    | .ok l => .inl (some l)
    | .carve => .inr 7
    | .bad k => .inr k

/-- Stages 1 to 3 of R332 for a record that would receive the number n (DEDUCED, unsafe: notes/assumptions/51.md). -/
def testRecord (s : State) (t : Fin 64) (ctx : Nat) (n : BitVec 32) (r : BitVec 512) : Offer :=
  let k := lrKernel r
  if recordBad r then .refused 1 s
  else if k % 128 ≠ 0 ∨ canonical k = false then .refused 2 s
  else match tundishXlat s ctx k ⟨true, false, false⟩ with
    | .carve => .refused 2 (tundishLog s t ctx 6 k)
    | .bad kind => .refused 2 (tundishLog s t ctx kind k)
    | .ok loc =>
      let hr : BitVec 1024 := BitVec.ofNat 1024 (memNat s.mem loc 128)
      let h := headerOf hr
      if headerBad s ctx hr then .refused 2 s
      else
        let dirVa := h.paramDir.toNat + 8 * (n.toNat % 2 ^ h.paramLog.val)
        let dir := if h.paramDir = 0 then Sum.inl none else match tundishXlat s ctx dirVa ⟨false, true, false⟩ with
          | .ok l => Sum.inl (some l)
          | .carve => Sum.inr none
          | .bad kind => Sum.inr (some kind)
        match dir with
        | .inr none => .refused 2 s
        | .inr (some kind) => .refused 2 (tundishLog s t ctx kind dirVa)
        | .inl dirPa =>
          if lrGroups r ≠ 0 ∧ lrGroups r ≠ h.gangM1.val + 1 then .refused 1 s
          else match eventPlace s ctx (lrWaitAddr r) ⟨true, false, false⟩ with
            | .inr kind => .refused 1 (tundishLog s t ctx kind (lrWaitAddr r))
            | .inl waitPa => match eventPlace s ctx (lrSigAddr r) ⟨true, true, false⟩ with
              | .inr kind => .refused 1 (tundishLog s t ctx kind (lrSigAddr r))
              | .inl sigPa =>
                .ok { num := n, ctx := ctx, record := r, hdr := h
                      prio := min (lrPrio r) (bvf (tenantOf s t).entry 981 978), dirPa := dirPa, waitPa := waitPa
                      sigPa := sigPa, waitMet := waitPa.isNone, dirDone := dirPa.isNone, handed := 0, back := [], retired := 0
                      closed := false, dead := false, since := none }

/-- What the tests of a record read: the header, and the entries of the walks (R364). -/
def testTraffic (s : State) (ctx : Nat) (n : BitVec 32) (r : BitVec 512) : State :=
  let k := lrKernel r
  if recordBad r ∨ k % 128 ≠ 0 ∨ canonical k = false then s
  else
    let s1 := tundishWalk s ctx k
    match tundishXlat s ctx k ⟨true, false, false⟩ with
    | .carve => s1
    | .bad _ => s1
    | .ok loc =>
      let hr : BitVec 1024 := BitVec.ofNat 1024 (memNat s.mem loc 128)
      let h := headerOf hr
      let s2 := postTundish s1 loc 128
      if headerBad s ctx hr then s2
      else
        let dirVa := if h.paramDir = 0 then 0 else h.paramDir.toNat + 8 * (n.toNat % 2 ^ h.paramLog.val)
        ([dirVa, lrWaitAddr r, lrSigAddr r].filter fun va => va != 0).foldl (fun a va => tundishWalk a ctx va) s2

/-! ### Queues (R335 to R339) -/

def Queue.none : Queue := ⟨false, false, 0, 0, 0, 0, 0, .open, []⟩

def queueOf (s : State) (q : QueueId) : Queue := (tget s.queues q).getD Queue.none
def modQueue (s : State) (q : QueueId) (f : Queue → Queue) : State := { s with queues := tset s.queues q (f (queueOf s q)) }

/-- Every gang of the launch has been handed out, or none will be. -/
def Launch.handedOut (l : Launch) : Bool := l.closed || (l.back.isEmpty && decide (lrGangs l.record ≤ l.handed))

/-- The event has reached WaitVal (R338). -/
def waitHolds (s : State) (l : Launch) : Bool :=
  l.waitMet || (match l.waitPa with
    | some p => decide (lrWaitVal l.record ≤ memNat s.mem p 8)
    | none => true)

/-- The first record that may still hand out gangs is read again; a wait once satisfied stays satisfied
(DEDUCED, unsafe: notes/assumptions/49.md). -/
def pollHead (s : State) : List Launch → List Launch
  | [] => []
  | l :: rest => if l.handedOut then l :: pollHead s rest else { l with waitMet := waitHolds s l } :: rest

/-- The tundish reads the waiting events of every queue again, or of those that wait at a place. -/
def pollQueues (s : State) (at? : Option Nat) : State :=
  { s with queues := s.queues.map fun e =>
      let l := e.2.records.find? fun x => !x.handedOut
      if at?.isNone || (l.bind (·.waitPa)) == at? then (e.1, { e.2 with records := pollHead s e.2.records }) else e }

/-- The launch of a queue that may hand out a gang (R339), if any: the earliest. -/
def readyLaunch (q : Queue) : Option Launch :=
  match q.records.find? fun l => !l.handedOut with
  | none => none
  | some l =>
    if l.waitMet && !l.dead && (!lrOrdered l.record || (q.records.head?.map (·.num)) == some l.num) then some l else none

/-- The gangs of a queue. -/
def gangsOfQueue (s : State) (q : QueueId) : Tab Nat Gang := s.gangs.filter fun e => e.2.queue = q

/-- A gang that a cupola has bound and that has not retired: it is bound, park-saved or saved by pre-emption (R335). -/
def queueRuns (s : State) (q : QueueId) : Bool := (gangsOfQueue s q).any fun e => e.2.started

/-- A gang of the queue stands on a die, or is handed out to one. -/
def queueOut (s : State) (q : QueueId) : Bool :=
  (gangsOfQueue s q).any fun e => e.2.groups.any fun i => ((groupOf s i).map fun g => g.isPlaced || g.isResident).getD false

/-- The state codes of R335. -/
def queueState (s : State) (q : QueueId) : Nat :=
  let x := queueOf s q
  if x.fault ≠ 0 then 6
  else if x.mark = .suspended then 5
  else if x.mark = .draining then (if queueRuns s q || queueOut s q then 4 else 5)
  else if queueRuns s q then 3
  else if (readyLaunch x).isSome then 1
  else if x.records ≠ [] then 2 else 0

/-- QSTAT (R336). -/
def qstat (s : State) (q : QueueId) : Nat :=
  let x := queueOf s q
  let head := ((x.records.head?.map (·.num)).getD x.nextNum).toNat
  head * 2 ^ 32 + x.records.length * 2 ^ 16 + x.dropped * 2 ^ 8 + x.fault * 16 + queueState s q

/-- The reads of the events for which the head records wait (R338, R364). -/
def pollTraffic (s : State) (at? : Option Nat) : State :=
  (s.queues.filterMap fun e => match e.2.records.find? fun x => !x.handedOut with
    | some l => if l.waitMet || (at?.isSome && l.waitPa != at?) then none else l.waitPa
    | none => none).foldl (fun a p => postTundish a p 8) s

/-- An accepted record is numbered and joins its queue; a head record's event is read. -/
def acceptRecord (s : State) (q : QueueId) (l : Launch) : State :=
  modQueue s q fun x => { x with records := pollHead s (x.records ++ [l]), nextNum := x.nextNum + 1 }

/-- The tundish moves queue records to or from the reserve of a stack, which has no physical address (R173, R364): what stands there
and when is not stated (DESIGN CHOICE, safe: notes/assumptions/110.md). -/
def overflowTraffic (s : State) (k : Fin 16) (byte : Nat) : State :=
  if decide ((1024 - s.pools.reserve[k]) * 2 ^ 26 ≤ byte) && decide (byte + 64 ≤ 2 ^ 36) &&
      s.queues.any fun e => decide (1 < e.2.records.length) then
    postTo s (k, Config.dramPch k.val byte, Config.dramBank k.val byte, Config.dramRow k.val byte)
      (runnerPort (activeTundish s) k) none ⟨0, 0⟩ 0 3 none [] ((4100 + k.val) * 2 ^ 64 + byte) 64
  else s

/-! ### Submission by a host (R333) -/

/-- The error response for a posted write (R381): logged with Kind 9 and Space 3, and reported. -/
def badWindowWrite (s : State) (port : Fin 2) (t : Fin 64) (off : Nat) : State :=
  let s1 := logViolation s t ⟨3 + port.val, 0, 0, 0, 9, 3, off⟩
  { s1 with notes := s1.notes ++ [.nonFatal port] }

/-- The tenant has a function on the port (R379). -/
def onPort (s : State) (port : Fin 2) (t : Fin 64) : Bool := bvf (tenantOf s t).entry 1023 1023 == 1 && tenantVf s t port != 0

/-- The virtual function is in service (R379, R398). -/
def served (s : State) (port : Fin 2) (t : Fin 64) : Bool := s.boot.phase == .ready && onPort s port t

/-- LOAD of a completion that the port forms itself for a tenant's function: 0, where it carries the prefix (R388). -/
def formedLoad (s : State) (port : Fin 2) (t : Fin 64) : Option Nat :=
  if (portOf s port).prefixes && tenantVf s t port != 0 && (portOf s port).loadFb.getLsbD (tenantVf s t port) then some 0 else none

/-- A write of n bytes to a BAR of a tenant's function passes the buckets (R387). -/
def writePasses (s : State) (port : Fin 2) (t : Fin 64) (n : Nat) : Bool := mayPass s port (fnOf (tenantVf s t port)) false n

def writeSpend (s : State) (port : Fin 2) (t : Fin 64) (n : Nat) : State := spend s port (fnOf (tenantVf s t port)) false n

/-- LAUNCH_SUBMIT: a write to a launch page. -/
def execLaunchSubmit (port : Fin 2) (q : QueueId) (off : BitVec 12) (data : List Byte) (s0 : State) :
    Host.Outcome State Fault Refusal :=
  let s := writeSpend s0 port q.tenant data.length
  let x := queueOf s q
  if !served s0 port q.tenant then .next { s0 with notes := s0.notes ++ [.unsupported port none] }
  else if !writePasses s0 port q.tenant data.length then .next s0
  else if data.length ≠ 64 ∨ off.toNat % 64 ≠ 0 ∨ x.enable = false then
    .next (badWindowWrite s port q.tenant (0x1000 * q.q.val + off.toNat))
  else if x.fault ≠ 0 ∨ 4096 ≤ x.records.length then
    .next (modQueue s q fun y => { y with dropped := min (y.dropped + 1) 255 })
  else match testRecord s q.tenant x.ctx x.nextNum (BitVec.ofNat 512 (bytesNat data)) with
    | .ok l => .next (acceptRecord (testTraffic s x.ctx x.nextNum (BitVec.ofNat 512 (bytesNat data))) q l)
    | .refused code s1 =>
      .next (modQueue (testTraffic s1 x.ctx x.nextNum (BitVec.ofNat 512 (bytesNat data))) q fun y => { y with fault := code })

/-! ### Events (R338) -/

/-- An add to an event at home, modulo 2^64, whose request `post` sends; the tundish reads the waiting events at the place again. -/
def eventAdd (s : State) (post : State → State) (loc inc : Nat) : State :=
  let v := (memNat s.mem loc 8 + inc) % 2 ^ 64
  let s1 : State := if 2 ^ 64 ≤ loc then { s with mem := memPut s.mem loc 8 v } else homeWrite s loc (natBytes 8 v)
  pollQueues (pollTraffic (post s1) (some loc)) (some loc)

/-- EVENT_POLL. -/
def execEventPoll (s : State) : Host.Outcome State Fault Refusal :=
  if s.nextPoll ≤ s.clock then .next (pollQueues (pollTraffic { s with nextPoll := s.clock + 16384 } none) none) else .next s

/-- The aperture context of a tenant, if it is a created one (R184, R384). -/
def aperCtx (s : State) (t : Fin 64) : Option Nat :=
  let c := bvf (tenantOf s t).entry 977 967
  if (ctxOf s c).exists? ∧ (ctxOf s c).destroyed = false then some c else none

/-- EVENT_WINDOW_WRITE. -/
def execEventWindowWrite (port : Fin 2) (tenant : Fin 64) (off : BitVec 12) (data : List Byte) (s0 : State) :
    Host.Outcome State Fault Refusal :=
  let s := writeSpend s0 port tenant data.length
  let va := bytesNat (data.take 8)
  let inc := bytesNat (data.drop 8)
  let log (ctx kind : Nat) : State := logViolation s tenant ⟨3 + port.val, 0, 0, ctx, kind, 0, va⟩
  if !served s0 port tenant then .next { s0 with notes := s0.notes ++ [.unsupported port none] }
  else if !writePasses s0 port tenant data.length then .next s0
  else if data.length ≠ 16 ∨ off.toNat % 16 ≠ 0 then .next (badWindowWrite s port tenant (0x20000 + off.toNat))
  else match aperCtx s tenant with
    | none => .next (log (bvf (tenantOf s tenant).entry 977 967) 12)
    | some c =>
      if va % 8 ≠ 0 then .next (log c 9)
      else match tundishXlat s c va ⟨true, true, false⟩ with
        | .ok loc => .next (eventAdd (outsideWalk s (hostStack port) c va) (fun x => postC3 x (hostStack port) loc 8) loc inc)
        | .carve => .next (log c 7)
        | .bad k => .next (log c k)

/-! ### Commands (R336, R337) -/

/-- The records that clear, rebind and remove discard. -/
def keepRecord (l : Launch) : Bool := decide (l.handed ≠ l.back.length) && !l.dead

/-- The port at which a tenant writes to its own window: the one that gives it a function; the event does not name it, so either where
both do (DESIGN CHOICE, safe: notes/assumptions/114.md). -/
def windowPort (s : State) (t : Fin 64) : Option (Fin 2) :=
  match served s 0 t, served s 1 t with
  | true, true => some (if Config.early s.freeCount 0 then 1 else 0)
  | true, false => some 0
  | false, true => some 1
  | false, false => none

/-- A write of 8 bytes to the register window of a tenant: a function must be there to take it, and the buckets must let it pass
(R379, R387). -/
def tenantWrite (t : Fin 64) (s : State) (f : State → State) : Host.Outcome State Fault Refusal :=
  match windowPort s t with
  | none => .next s
  | some p => if writePasses s p t 8 then .next (f (bumpFree (writeSpend s p t 8))) else .next s

def execQueueDrain (q : QueueId) (s : State) : Host.Outcome State Fault Refusal :=
  tenantWrite q.tenant s fun s =>
    if (queueOf s q).enable ∧ (queueOf s q).mark = .open then modQueue s q fun x => { x with mark := .draining } else s

/-- A pre-emption request is sent to gangs, and their cores wake (R320). -/
def requestPreempt (s : State) (ks : List Nat) : State :=
  { s with gangs := s.gangs.map fun e => if ks.contains e.1 then (e.1, { e.2 with preempt := true }) else e }

/-- The suspend command pre-empts every bound gang of the queue, and takes back those that are handed out and not yet bound
(R335). -/
def execQueueSuspend (q : QueueId) (s : State) : Host.Outcome State Fault Refusal :=
  tenantWrite q.tenant s fun s =>
    if (queueOf s q).enable then
      let s1 := modQueue s q fun x => { x with mark := .suspended }
      let s2 := (tkeys s1.gangs fun _ x => decide (x.queue = q) && !x.bound).foldl (fun a k => match tget a.gangs k with
        | some x => refuseGang a k x
        | none => a) s1
      requestPreempt s2 (tkeys s2.gangs fun _ x => decide (x.queue = q) && x.bound)
    else s

def execQueueResume (q : QueueId) (s : State) : Host.Outcome State Fault Refusal :=
  tenantWrite q.tenant s fun s => if (queueOf s q).enable then modQueue s q fun x => { x with mark := .open } else s

/-- Clear takes effect only in faulted. -/
def execQueueClear (q : QueueId) (s : State) : Host.Outcome State Fault Refusal :=
  tenantWrite q.tenant s fun s =>
    if (queueOf s q).enable ∧ (queueOf s q).fault ≠ 0 then
      modQueue s q fun x => { x with records := x.records.filter keepRecord, fault := 0, dropped := 0 }
    else s

/-- A write to QCFG (R337). The manual does not order the codes: 1 is tested first, then 3, then 2 (DESIGN CHOICE, unsafe:
notes/assumptions/36.md). -/
def writeQcfg (s : State) (q : QueueId) (enable : Bool) (ctx : Nat) : State :=
  let x := queueOf s q
  let st := queueState s q
  let busy := st != 0 && st != 6
  let err (e : Fin 4) : State := modQueue s q fun y => { y with err := e }
  let kept := (x.records.filter keepRecord).map fun l => { l with closed := true }
  if x.enable ∧ enable ∧ x.ctx = ctx then err 0
  else if x.enable = false ∧ enable = false then modQueue s q fun y => { y with err := 0, ctx := ctx }
  else if (x.enable = true ∧ busy = true) ∨ (x.enable = false ∧ x.gone = true) then err 1
  else if bvf (tenantOf s q.tenant).entry 1023 1023 = 0 then err 3
  else if enable ∧ ((ctxOf s ctx).exists? = false ∨ (ctxOf s ctx).destroyed = true ∨ tenantOfCtx s ctx ≠ q.tenant) then err 2
  else if !x.enable then
    { s with queues := tset s.queues q { Queue.none with enable := true, ctx := ctx } }
  else if enable then
    modQueue s q fun y => { y with ctx := ctx, records := kept, fault := 0, dropped := 0, err := 0, mark := .open }
  else modQueue s q fun y =>
    { y with enable := false, gone := kept != [], records := kept, ctx := ctx, fault := 0, err := 0, mark := .open }

/-- The port at which function 0 writes: an event does not name it (DESIGN CHOICE, safe: notes/assumptions/114.md). -/
def managementPort (s : State) : Fin 2 := if Config.early s.freeCount 1 then 1 else 0

/-- A write of 8 bytes by function 0 has passed the buckets (R387). -/
def managementPasses (s : State) : Bool := mayPass s (managementPort s) 0 false 8

def managed (s : State) : State := bumpFree (spend s (managementPort s) 0 false 8)

/-- A write to a register of the management window: until Phase is ready it is ignored (R398). -/
def managementWrite (s : State) (f : State → State) : Host.Outcome State Fault Refusal :=
  if s.boot.phase = .ready ∧ managementPasses s = true then .next (f (managed s)) else .next s

def execQueueCreate (q : QueueId) (ctx : Fin 2048) (s : State) : Host.Outcome State Fault Refusal :=
  managementWrite s fun s => if (queueOf s q).enable then s else writeQcfg s q true ctx.val

def execQueueRebind (q : QueueId) (ctx : Fin 2048) (s : State) : Host.Outcome State Fault Refusal :=
  managementWrite s fun s => if (queueOf s q).enable then writeQcfg s q true ctx.val else s

/-- QUEUE_REMOVE: a write of QCFG that leaves Ctx as it stands. -/
def execQueueRemove (q : QueueId) (s : State) : Host.Outcome State Fault Refusal :=
  managementWrite s fun s => writeQcfg s q false (queueOf s q).ctx

/-- VLOGACK (R186). -/
def execVlogAck (tenant : Fin 64) (value : BitVec 64) (s : State) : Host.Outcome State Fault Refusal :=
  tenantWrite tenant s fun s => modTenant s tenant fun x =>
    let k := min (bvf value 6 0) x.count
    { x with head := (x.head + k) % 64, count := x.count - k, dropped := if value.getLsbD 31 then 0 else x.dropped }

/-- MSIX_VECTOR_UNMASK (R345): a pending vector is raised. Until Phase is ready no function but function 0 answers (R398). -/
def execMsixVectorUnmask (port : Fin 2) (vf : Fin 64) (vec : Fin 64) (s : State) : Host.Outcome State Fault Refusal :=
  if s.boot.phase ≠ .ready then .next s else
  let m := (tget s.msix (port, vf.val)).getD Msix.reset
  let bit : BitVec 64 := 1 <<< vec.val
  let s1 : State := { s with msix := tset s.msix (port, vf.val) ⟨m.pending &&& ~~~bit, m.masked &&& ~~~bit⟩ }
  .next (if m.pending.getLsb vec then { s1 with notes := s1.notes ++ [.irq port vf.val vec] } else s1)

/-! ### Completion (R340) -/

/-- Every gang that has gone out has retired, and no other will go out. -/
def Launch.done (l : Launch) : Bool := l.handedOut && l.retired + l.back.length == l.handed && !l.dead

/-- Each die drains a context's dirty words (R340). -/
def drainContext (s : State) (ctx : Nat) : State := (List.finRange 8).foldl (fun a d => releaseAct a d ctx .sys) s

/-- A queue that has been removed ceases to exist with its last launch. -/
def settleGone (s : State) (q : QueueId) : State :=
  if (queueOf s q).gone ∧ (queueOf s q).records = [] then
    modQueue s q fun x => { Queue.none with err := x.err, ctx := x.ctx, nextNum := x.nextNum }
  else s

/-- LAUNCH_COMPLETE. -/
def execLaunchComplete (q : QueueId) (launch : BitVec 32) (s : State) : Host.Outcome State Fault Refusal :=
  match (queueOf s q).records.find? fun l => l.num = launch with
  | none => .next s
  | some l =>
    if !l.done then .next s
    else
      let s1 := drainContext s l.ctx
      let s2 := match l.sigPa with
        | some p => eventAdd s1 (fun x => postTundish x p 8) p (lrSigInc l.record)
        | none => s1
      let s3 := if lrIrq l.record then raiseVector s2 q.tenant (lrVector l.record) else s2
      let s4 := modQueue s3 q fun x => { x with records := x.records.filter fun y => y.num ≠ launch }
      .next (settleGone (modQueue s4 q fun x => { x with records := pollHead s4 x.records }) q)

/-! ### The choice of a gang (R341) -/

/-- What a queue may hand out next: a gang saved by pre-emption, or the next gang of its ready launch. -/
inductive Choice where
  | again (key : Nat) (x : Gang)
  | fresh (l : Launch)

/-- The place of a parameter directory entry is held by an incomplete launch with the same header address (R329). -/
def dirHeld (s : State) (q : QueueId) (l : Launch) : Bool :=
  l.dirPa.isSome && !l.dirDone &&
  s.queues.any fun e => e.2.records.any fun o =>
    !(decide (e.1 = q) && o.num == l.num) && o.dirDone && o.dirPa == l.dirPa && lrKernel o.record == lrKernel l.record

/-- The context is destroyed, or its destruction is in progress: the tundish hands out nothing of it (R349). -/
def ctxLeaves (s : State) (c : Nat) : Bool := (ctxOf s c).destroyed || (ctxOf s c).cmd == some .destroy

/-- The choice of a queue: a gang saved by pre-emption first. Which of several goes first is not stated: the one handed out first
(DESIGN CHOICE, unsafe: notes/assumptions/113.md). -/
def choiceOf (s : State) (q : QueueId) : Option (Nat × Choice) :=
  let x := queueOf s q
  if x.fault ≠ 0 ∨ x.mark ≠ .open ∨ ctxLeaves s x.ctx = true then none
  else match (gangsOfQueue s q).find? fun e => e.2.saved && !e.2.bound && e.2.groups.all fun i => !((groupOf s i).map Group.isPlaced).getD false with
    | some (k, g) => some (g.prio, .again k g)
    | none => match readyLaunch x with
      | some l => if dirHeld s q l then none else some (l.prio, .fresh l)
      | none => none

/-- n values from lo, wrapping. -/
def cycleFrom (n lo : Nat) : List Nat := (List.range n).map fun i => (lo + i) % n

/-- The queues in the order in which a level serves them: tenants from the one whose turn it is, and the queues of each from
the next one. -/
def serveOrder (s : State) (p : Fin 12) : List QueueId :=
  let r := s.rotation[p]
  (cycleFrom 64 r.tenant.val).flatMap fun t =>
    (cycleFrom 16 (if t = r.tenant.val then r.queue.val else 0)).map fun k => ⟨Fin.ofNat 64 t, Fin.ofNat 16 k⟩

/-- The dies to which a choice may be handed (R316, R341). -/
def choiceDies (s : State) : Choice → List (Fin 8)
  | .again _ x => if x.started ∧ holdsCarve s x.ctx x.left then (diesFor s x.ctx).filter fun d => decide (d = x.left) else diesFor s x.ctx
  | .fresh l => diesFor s l.ctx

/-- The number of the next gang of a launch: the lowest that was handed back, else the next one. -/
def Launch.nextGang (l : Launch) : Nat := l.back.head?.getD l.handed

/-- The new groups of a gang: unplaced, nothing in them (R105, R107, R272, R322). -/
def newGroup (q : QueueId) (l : Launch) (key : Nat) (i : Nat) : Group :=
  { ctx := l.ctx, tenant := q.tenant.val, launch := l.num, gang := BitVec.ofNat 32 l.nextGang, group := Fin.ofNat 16 i
    gangKey := key, hdr := l.hdr, hdrVa := BitVec.ofNat 64 (lrKernel l.record), core := ⟨0, 0⟩, quarter := 0
    slotMask := 0, scrBase := 0, accBase := 0, wslots := 0, image := 0, phase := .preemptSaved, scratch := [], cstat := 0
    acc := [], ws := Vector.replicate 2 WeightSlot.empty, shape := (0, 0), token := 1, statuses := [], dues := [], bg := 0
    parkCount := 0, recognised := false, queued := false, gens := [], bindAt := 0 }

/-- A gang of a launch with its groups. -/
def newGang (s : State) (q : QueueId) (l : Launch) : Nat × State :=
  let key := s.seq
  let n := l.hdr.gangM1.val + 1
  let gids := rangeFrom (s.seq + 1) n
  let g : Gang :=
    { queue := q, launch := l.num, gang := BitVec.ofNat 32 l.nextGang, ctx := l.ctx, prio := l.prio, die := 0, left := 0, groups := gids
      boundAt := s.clock, bound := false, preempt := false, saved := false, retired := false, started := false }
  (key, { s with
    gangs := tset s.gangs key g
    groups := (List.range n).foldl (fun t i => tset t (s.seq + 1 + i) (newGroup q l key i)) s.groups
    seq := s.seq + 1 + n })

/-- The die that takes a gang, and the state with its groups placed; a group without threads waits for its first bind. -/
def placeGang (s : State) (c : Choice) (key : Nat) (ctx : Nat) : Option State :=
  match tget s.gangs key with
  | none => none
  | some x =>
    let ph := if x.started then Phase.returning else Phase.queued
    (bestFit s ctx (choiceDies s c) x.groups ph).map fun r => modGang r.2 key fun y => { y with die := r.1 }

/-- R358: with the groups of one more gang, every group of a context still has an image slot. -/
def slotsLeft (s : State) (l : Launch) : Bool :=
  decide ((s.groups.filter fun e => e.2.ctx = l.ctx ∧ e.2.phase ≠ .tracked ∧ e.2.phase ≠ .retired).length + (l.hdr.gangM1.val + 1) ≤
    bvf (ctxOf s l.ctx).live 433 418)

/-- A choice is handed out, if it fits somewhere (DESIGN CHOICE, safe: notes/assumptions/46.md). Before the first gang the parameter
block's address goes into the directory, and into every copy of the entry (R329) (DESIGN CHOICE, safe: notes/assumptions/109.md). -/
def handOut (s : State) (q : QueueId) (c : Choice) : Option State :=
  match c with
  | .again key x => placeGang s c key x.ctx
  | .fresh l =>
    let r := newGang s q l
    if !slotsLeft s l then none else (placeGang r.2 c r.1 l.ctx).map fun s1 =>
      let s2 := match l.dirPa with
        | some p => if l.dirDone then s1 else postTundish (writeEvery s1 p (natBytes 8 (lrParam l.record))) p 8
        | none => s1
      modQueue s2 q fun x => { x with records := pollHead s2 (x.records.map fun y =>
        if y.num = l.num then
          { y with handed := if y.back.isEmpty then y.handed + 1 else y.handed, back := y.back.tail, dirDone := true, since := none }
        else y) }

/-- The weight of a tenant (R384). -/
def tenantWeight (s : State) (t : Fin 64) : Nat := max 1 (bvf (tenantOf s t).entry 989 982)

/-- The rotation of a level after it has served a queue (DEDUCED, unsafe: notes/assumptions/48.md). -/
def rotate (s : State) (p : Fin 12) (q : QueueId) : State :=
  let r := s.rotation[p]
  let left := (if r.tenant = q.tenant ∧ 0 < r.left then r.left else tenantWeight s q.tenant) - 1
  let r1 : Rotation := if left = 0 then ⟨q.tenant + 1, 0, 0⟩ else ⟨q.tenant, left, q.q + 1⟩
  { s with rotation := s.rotation.set p r1 }

/-- The first choice of a level that fits. -/
def serveLevel (s : State) (p : Fin 12) : List QueueId → Option State
  | [] => none
  | q :: rest =>
    match choiceOf s q with
    | some (prio, c) =>
      if prio = p.val then
        match handOut s q c with
        | some s1 => some (rotate s1 p q)
        | none => serveLevel s p rest
      else serveLevel s p rest
    | none => serveLevel s p rest

/-- GANG_HANDOUT: the highest level first; a gang that fits nowhere is passed over. -/
def execGangHandout (s : State) : Host.Outcome State Fault Refusal :=
  .next (((List.finRange 12).reverse.foldl (fun m p => match m with
    | some x => some x
    | none => serveLevel s p (serveOrder s p)) none).getD s)

/-! ### Latency bounds (R342) -/

/-- Launches that may hand out a gang begin to wait. -/
def startWaits (s : State) : State :=
  { s with queues := s.queues.map fun e =>
      match readyLaunch e.2 with
      | some l => if l.since.isNone then
          (e.1, { e.2 with records := e.2.records.map fun y => if y.num = l.num then { y with since := some s.clock } else y })
        else e
      | none => e }

/-- The bound of a level in fabric cycles: none, or 1 to 1,000,000 µs at 1600 cycles each (DEDUCED, unsafe: notes/assumptions/54.md). -/
def levelBound (s : State) (p : Nat) : Option Nat :=
  let r := s.latbnd.toList.getD p 0
  if bvf r 63 63 = 1 then some (1600 * max 1 (min 1000000 (bvf r 19 0))) else none

/-- The gangs that are bound on a die. -/
def boundOn (s : State) (d : Fin 8) : Tab Nat Gang := s.gangs.filter fun e => e.2.bound && decide (e.2.die = d)

/-- The state without the places of some gangs. -/
def without (s : State) (ks : List Nat) : State :=
  { s with groups := s.groups.filter fun e => !ks.contains e.2.gangKey }

/-- The order of victims: lowest priority, most recently bound, lower die. -/
def victimLt (a b : Nat × Gang) : Bool :=
  decide (a.2.prio < b.2.prio) || (a.2.prio == b.2.prio && (decide (b.2.boundAt < a.2.boundAt) ||
    (a.2.boundAt == b.2.boundAt && decide (a.2.die < b.2.die))))

/-- The gangs that a launch may displace. -/
def victimsFor (s : State) (l : Launch) : List (Nat × Gang) :=
  sortBy victimLt (s.gangs.filter fun e => e.2.bound && !e.2.preempt && decide (e.2.prio < l.prio) &&
    (diesFor s l.ctx).contains e.2.die)

/-- The fewest victims of a die, in order, that make room with those already asked. -/
def enough (fits : List Nat → Bool) : List Nat → List Nat → Option (List Nat)
  | taken, [] => if fits taken then some taken else none
  | taken, k :: rest => if fits taken then some taken else enough fits (taken ++ [k]) rest

/-- The next gang of a launch fits a die once some gangs have left. -/
def fitsWithout (s : State) (q : QueueId) (l : Launch) (d : Fin 8) (ks : List Nat) : Bool :=
  let asked := ((boundOn s d).filter fun e => e.2.preempt).map (·.1)
  let r := newGang (without s (ks ++ asked)) q l
  match tget r.2.gangs r.1 with
  | some x => (placeAll? d .queued x.groups r.2).isSome
  | none => false

/-- The gangs of the ladles in the guest places of a core (R303). -/
def ladleGangs (s : State) (c : CoreId) : List Nat :=
  dedup (s.threads.filterMap fun e =>
    if e.2.isResident ∧ e.2.away.isSome ∧ e.2.place.core = c then (groupOfThread s e.1).map (·.gangKey) else none)

/-- LATENCY_BOUND_EXPIRE: requests go to victims on the first die, in their order, that can be made to fit. -/
def execLatencyBoundExpire (q : QueueId) (s : State) : Host.Outcome State Fault Refusal :=
  let x := queueOf s q
  match readyLaunch x with
  | none => .next s
  | some l =>
    match l.since, levelBound s l.prio with
    | some t0, some b =>
      let open_ := x.fault == 0 && x.mark == .open
      if !open_ || s.clock - t0 ≤ b || (diesFor s l.ctx).any (fun d => fitsWithout s q l d []) then .next s
      else
        let vs := victimsFor s l
        let pick := (dedup (vs.map fun v => v.2.die)).foldl (fun (m : Option (List Nat)) d => match m with
          | some k => some k
          | none => enough (fitsWithout s q l d) [] ((vs.filter fun v => v.2.die = d).map (·.1))) none
        .next (requestPreempt s (pick.getD []))
    | _, _ => .next s

/-! ### QPOST, EVSIG and SIG (R344 to R346) -/

/-- QPOST for an elected thread, after the releases (DEDUCED, unsafe: notes/assumptions/50.md). -/
def qpostOne (a b : Src) (s : State) (t : ThreadKey) : Elected :=
  let av := (readSrc s t 0 a).toNat
  let bv := (readSrc s t 1 b).toNat
  let tenant := tenantOfCtx s (ctxIdOf s t)
  let q : QueueId := ⟨tenant, Fin.ofNat 16 bv⟩
  let x := queueOf s q
  match blockFault s t av with
  | some f => .fault f
  | none =>
    if blockAbsent s t av then .wait (av / 64)
    else if !blockReady s t av then .hold
    else if 16 ≤ bv ∨ x.enable = false then .done (some 4) s
    else if x.fault ≠ 0 then .done (some 2) s
    else if 4096 ≤ x.records.length then .done (some 1) s
    else match testRecord s tenant x.ctx x.nextNum (readBlock s t av) with
      | .ok l => .done (some (l.num.toNat * 2 ^ 32)) (acceptRecord (testTraffic s x.ctx x.nextNum (readBlock s t av)) q l)
      | .refused _ s1 => .done (some 3) (testTraffic s1 x.ctx x.nextNum (readBlock s t av))

def execQpost (a b : Src) (d : PDst) (st : Stall) (s : State) :=
  issue (.qpost a b d st) (fun ts s =>
    match (electedOf s ts).filterMap fun t => blockFault s t (readSrc s t 0 a).toNat with
    | f :: fs => .faults (f :: fs)
    | [] =>
      if ts.all (releaseReady s .sys) then electedAct (some d) (qpostOne a b) ts (releaseAll s (ts.map fun t => (t, .sys)))
      else .hold) s

/-- The checks of EVSIG for a thread. -/
def evsigFault (s : State) (t : ThreadKey) (va : Nat) : Option FaultRec :=
  if va % 8 ≠ 0 then some (addrFault s t .align va)
  else match (translateFor s t va ⟨true, true, false⟩).1 with
    | .page => some (addrFault s t .page va)
    | .viol k => some (violFault s t k 0 va)
    | .ok x => if x.attr.carve then some (violFault s t 7 0 va) else none

/-- One thread's EVSIG. -/
def evsigOne (s : State) (t : ThreadKey) (va inc : Nat) : State :=
  match translateFor s t va ⟨true, true, false⟩ with
  | (.ok x, s1) =>
    let c := coreOfThread s t
    let s2 := releaseAct (markFilter s1 t x) c.die (ctxIdOf s t) .sys
    eventAdd (if x.attr.remote then s2 else homePrepare s2 c [lineOf x.loc])
      (fun y => if x.attr.remote then y else postPlain y c.die (ctxIdOf s t) 3 (blockAsks x.loc 8)) x.loc inc
  | (_, s1) => s1

def execEvsig (a b : Src) (st : Stall) (s : State) :=
  issue (.evsig a b st) (fun ts s =>
    match ts.filterMap fun t => evsigFault s t (readSrc s t 0 a).toNat with
    | f :: fs => .faults (f :: fs)
    | [] =>
      if ts.all (releaseReady s .sys) then
        .done ((sortThreads s ts).foldl (fun x t => evsigOne x t (readSrc s t 0 a).toNat (readSrc s t 1 b).toNat) s)
          (advance s ts)
      else .hold) s

def execSig (a : Src) (st : Stall) (s : State) :=
  issue (.sig a st) (fun ts s =>
    if ts.all (releaseReady s .sys) then
      .done (ts.foldl (fun x t =>
          raiseVector (releaseAct x (coreOfThread s t).die (ctxIdOf s t) .sys) (tenantOfCtx s (ctxIdOf s t))
            (Fin.ofNat 64 (readSrc s t 0 a).toNat)) s)
        (advance s ts)
    else .hold) s

end Sys2Proof.Machine
end

