-- ==== Sys2Proof/Machine/Context.lean ====
section
/-! DEFINITION. Contexts: the privileged words of the trap handler, the commands of a context, the loss of a die, and the
power states of dies and the carve-out units (spec/17_context.md R347 to R363; spec/20_startup.md R408, R409). -/

namespace Sys2Proof.Machine

/-! ### Selectors (R355) -/

def selSlot (v : Word) : Fin 64 := Fin.ofNat 64 (bvf v 5 0)
def selLane (v : Word) : Fin 32 := Fin.ofNat 32 (bvf v 10 6)
def selItem (v : Word) : Nat := bvf v 27 16

/-- The thread holds its place: in a guest place, or in the home slot of a resident group; an Ended thread of a group
that no longer holds its slots, while it holds an entry (R93). -/
def holdsPlace (s : State) (t : ThreadKey) (th : Thread) : Bool :=
  !t.isHandler &&
  (match th.status with
    | .travelling => false
    | .saved _ => false
    | .ended => th.away.isNone
    | _ => true) &&
  (th.away.isSome || ((groupOfThread s t).map fun g => g.isResident || ((g.phase == .tracked || g.phase == .retired) && th.entry.isSome)).getD false)

/-- The thread holds an unresolved entry (R356). -/
def Thread.unresolved (th : Thread) : Bool := th.entry.isSome && th.res == .none

/-- The thread that a selector names on a core; none for an empty place. Where an Ended thread of such a group shares a place
with a later thread, its unresolved entry is read first (DEDUCED, unsafe: notes/assumptions/88.md). -/
def selected (s : State) (c : CoreId) (slot : Fin 64) (lane : Fin 32) : Option (ThreadKey × Thread) :=
  let here := s.threads.filter fun e => decide (e.2.place = ⟨c, slot, lane⟩) && holdsPlace s e.1 e.2
  match here.find? fun e => e.2.unresolved with
  | some e => some e
  | none => match here.find? fun e => !e.2.isEnded with
    | some e => some e
    | none => here.head?

def resCode : Res → Nat
  | .none => 0
  | .resume => 1
  | .step => 2
  | .kill => 3

def liveCode : Live → Nat
  | .ready => 1
  | .stalled => 2
  | .waiting _ => 3
  | .exiting => 4

/-- Now and Prior of the State word. -/
def nowCode (x : Status) : Nat × Nat :=
  match x with
  | .stopped p => (1, liveCode p)
  | .ended => (2, 0)
  | .lost => (3, 0)
  | _ => (0, 0)

/-- The State word. -/
def stateWord (th : Thread) : Nat :=
  let e := th.entry
  (e.map fun x => causeCode x.cause).getD 0 * 2 ^ 24 +
  (if (e.map (·.again)).getD false then 2 ^ 20 else 0) +
  (nowCode th.status).2 * 2 ^ 16 + (nowCode th.status).1 * 2 ^ 12 + resCode th.res * 2 ^ 10 +
  (if th.away.isSome then 512 else 0) + (if th.unresolved then 256 else 0)

/-- The items of R355. -/
inductive Item where
  | state
  | pc
  | detail
  | address
  | pfx
  | wake
  | place
  | entryMask
  | masks
  | entryPc
  | q (i : Fin 16)
  | n (i : Fin 32)
  | w (i : Fin 16)
  | k (i : Fin 12)
  deriving DecidableEq, Repr

/-- The item of a code; none outside the table. -/
def itemOf (c : Nat) : Option Item :=
  match c with
  | 0 => some .state
  | 1 => some .pc
  | 2 => some .detail
  | 3 => some .address
  | 4 => some .pfx
  | 5 => some .wake
  | 6 => some .place
  | 7 => some .entryMask
  | 8 => some .masks
  | 9 => some .entryPc
  | _ =>
    if 0x10 ≤ c ∧ c < 0x20 then some (.q (Fin.ofNat 16 (c - 0x10)))
    else if 0x20 ≤ c ∧ c < 0x40 then some (.n (Fin.ofNat 32 (c - 0x20)))
    else if 0x40 ≤ c ∧ c < 0x50 then some (.w (Fin.ofNat 16 (c - 0x40)))
    else if 0x50 ≤ c ∧ c < 0x5C then some (.k (Fin.ofNat 12 (c - 0x50)))
    else none

/-- A cell as the handler reads it: a value still owed reads as the former one (DEDUCED, unsafe: notes/assumptions/71.md). -/
def cellNow (c : RCell) : Nat := (if c.pend.isSome then c.old else c.val).toNat

/-- A named register that the handler reaches: below the count at home, of the travelling subset in a guest place. -/
def namedReach (s : State) (t : ThreadKey) (th : Thread) (i : Fin 32) : Bool :=
  if th.away.isSome then ((groupOfThread s t).map fun g => g.hdr.subset.getLsbD i).getD false
  else decide (i.val < ((warpOf s t).map (·.count)).getD 0)

/-- The lanes of a slot that hold an unresolved entry. -/
def entryMaskOf (s : State) (c : CoreId) (slot : Fin 64) : Nat :=
  (List.finRange 32).foldl (fun m l =>
    m + (if ((selected s c slot l).map fun e => e.2.unresolved).getD false then 2 ^ l.val else 0)) 0

/-- The value of an item of a thread. -/
def readItem (s : State) (t : ThreadKey) (th : Thread) (i : Item) : Nat :=
  let e := th.entry
  match i with
  | .state => stateWord th
  | .pc => th.pc.toNat
  | .detail => (e.map (·.detail)).getD 0
  | .address => (e.map (·.addr.toNat)).getD 0
  | .pfx => pfxBits th.pfx
  | .wake => wakeBits th.wake
  | .place => placeBits th
  | .entryMask => entryMaskOf s th.place.core th.place.slot
  | .masks => (th.away.map (·.masks.toNat)).getD 0
  | .entryPc => (e.map (·.pc.toNat)).getD 0
  | .q i => cellNow (th.regs.slots[th.regs.qslot i])
  | .n i => if namedReach s t th i then cellNow (th.regs.named[i]) else 0
  | .w i => if th.away.isSome then 0 else ((warpOf s t).map fun w => cellNow (w.w[i])).getD 0
  | .k i => if th.away.isSome then 0 else ((warpOf s t).map fun w => (w.k[i]).toNat).getD 0

/-- A prefix state from item 0x004. A must-be-0 bit of a pending MOD or DLN has no place in the 55 bits: TRD does not show it, and
TWR clears it (DESIGN CHOICE, unsafe: notes/assumptions/98.md). -/
def pfxOfBits (v : Nat) : Pfx :=
  { lit := if v / 2 ^ 22 % 2 = 1 then some (BitVec.ofNat 22 v) else none
    mod := if v / 2 ^ 37 % 2 = 1 then some (BitVec.ofNat 14 (v / 2 ^ 23)) else none
    modBad := false
    dln := if v / 2 ^ 54 % 2 = 1 then some (BitVec.ofNat 16 (v / 2 ^ 38)) else none
    dlnBad := false }

/-- A register that the handler has written. -/
def RCell.written (c : RCell) (v : Word) : RCell := ⟨v, c.val, 0, none⟩

/-- An item of a Stopped thread is written; a read-only item is not. -/
def writeItem (s : State) (t : ThreadKey) (th : Thread) (i : Item) (v : Word) : State :=
  match i with
  | .pc => modThread s t fun x => { x with pc := v }
  | .pfx => modThread s t fun x => { x with pfx := pfxOfBits v.toNat }
  | .q i => modThread s t fun x =>
      { x with regs := { x.regs with slots := x.regs.slots.set (x.regs.qslot i) ((x.regs.slots[x.regs.qslot i]).written v) } }
  | .n i =>
    if namedReach s t th i then
      modThread s t fun x => { x with regs := { x.regs with named := x.regs.named.set i ((x.regs.named[i]).written v) } }
    else s
  | .w i => if th.away.isSome then s else modWarp s (warpKeyOf t) fun w => { w with w := w.w.set i ((w.w[i]).written v) }
  | .k i => if th.away.isSome then s else modWarp s (warpKeyOf t) fun w => { w with k := w.k.set i (BitVec.ofNat 32 v.toNat) }
  | _ => s

/-! ### TRD, TWR and the marks -/

/-- The handler threads whose selector names no place, or no item. -/
def selectorFaults (s : State) (ts : List ThreadKey) (a : Src) (item : Bool) : List FaultRec :=
  (ts.filter fun t =>
    let v := readSrc s t 0 a
    selSlot v == 63 || (item && (itemOf (selItem v)).isNone)).map fun t => plainFault s t .illegal

/-- The value that TRD pushes. -/
def trdValue (s : State) (c : CoreId) (v : Word) : Nat :=
  match itemOf (selItem v), selected s c (selSlot v) (selLane v) with
  | some .entryMask, _ => entryMaskOf s c (selSlot v)
  | some i, some (t, th) => readItem s t th i
  | _, _ => 0

def execTrd (a : Src) (d : PDst) (st : Stall) (s : State) :=
  issue (.trd a d st) (fun ts s =>
    match selectorFaults s ts a true with
    | f :: fs => .faults (f :: fs)
    | [] =>
      .done (ts.foldl (fun x t =>
          giveThread x t d (BitVec.ofNat 64 (trdValue s (coreOfThread s t) (readSrc s t 0 a))) 0 none) s)
        (advance s ts)) s

/-- The Stopped thread that a TWR writes. -/
def writable (s : State) (c : CoreId) (v : Word) : Option (ThreadKey × Thread × Item) :=
  match itemOf (selItem v), selected s c (selSlot v) (selLane v) with
  | some i, some (t, th) => (match th.status with
    | .stopped _ => some (t, th, i)
    | _ => none)
  | _, _ => none

/-- A PC that is no multiple of 4 (R355). -/
def twrFault (s : State) (t : ThreadKey) (v w : Word) : Option FaultRec :=
  match writable s (coreOfThread s t) v with
  | some (_, _, .pc) => if w.toNat % 4 ≠ 0 then some (addrFault s t .align w.toNat) else none
  | _ => none

def execTwr (a b : Src) (st : Stall) (s : State) :=
  issue (.twr a b st) (fun ts s =>
    match selectorFaults s ts a true ++ ts.filterMap fun t => twrFault s t (readSrc s t 0 a) (readSrc s t 1 b) with
    | f :: fs => .faults (f :: fs)
    | [] =>
      .done (ts.foldl (fun x t =>
          match writable x (coreOfThread s t) (readSrc s t 0 a) with
          | some (k, th, i) => writeItem x k th i (readSrc s t 1 b)
          | none => x) s)
        (advance s ts)) s

/-- One mark (R356): its status, and the state. -/
def markOne (s : State) (c : CoreId) (v : Word) (r : Res) : Nat × State :=
  match selected s c (selSlot v) (selLane v) with
  | none => (1, s)
  | some (t, th) =>
    match th.status with
    | .stopped _ =>
      if r ≠ .kill ∧ (th.entry.map (·.cause)) = some .dieLost then (3, s)
      else (0, modThread s t fun x => { x with res := r })
    | _ => (2, s)

def markWord (i : Instr) (a : Src) (d : PDst) (r : Res) (s : State) : Host.Outcome State Fault Refusal :=
  issue i (fun ts s =>
    match selectorFaults s ts a false with
    | f :: fs => .faults (f :: fs)
    | [] =>
      .done (ts.foldl (fun x t =>
          let m := markOne x (coreOfThread s t) (readSrc s t 0 a) r
          giveThread m.2 t d (BitVec.ofNat 64 m.1) 0 none) s)
        (advance s ts)) s

def execTres (a : Src) (d : PDst) (st : Stall) (s : State) := markWord (.tres a d st) a d .resume s
def execTstop (a : Src) (d : PDst) (st : Stall) (s : State) := markWord (.tstop a d st) a d .step s
def execTkill (a : Src) (d : PDst) (st : Stall) (s : State) := markWord (.tkill a d st) a d .kill s

/-! ### TRET (R354) -/

/-- The threads of a core, its handler's apart, that a TRET settles. -/
def stoppedOf (s : State) (c : CoreId) : List ThreadKey :=
  tkeys s.threads fun t th => !t.isHandler && decide (th.place.core = c) && (match th.status with
    | .stopped _ => true
    | _ => false)

/-- A thread with an unresolved entry that the invocation has not seen. -/
def Thread.unseen (th : Thread) : Bool := th.res == .none && ((th.entry.map fun e => !e.seen).getD false)

/-- The threads of a core that hold such an entry, Stopped or Ended. -/
def unseenOn (s : State) (c : CoreId) : Bool :=
  s.threads.any fun e => decide (e.2.place.core = c) && !e.1.isHandler && e.2.unseen

/-- A Stopped thread that items 1 and 3 kill. -/
def Thread.dies (th : Thread) : Bool :=
  th.res == .kill || (th.res == .none && ((th.entry.map (·.seen)).getD false))

/-- The kills of a TRET take effect (R93). -/
def killDead (s : State) (c : CoreId) : State :=
  ((stoppedOf s c).filter fun t => ((threadOf s t).map Thread.dies).getD false).foldl (fun a t =>
    endThread (modThread a t fun x => { x with entry := none, res := .none }) t) s

/-- A thread resumes (R354, R356) (DEDUCED, unsafe: notes/assumptions/75.md). -/
def resumeOne (th : Thread) : Thread :=
  match th.status with
  | .stopped p =>
    { th with
      status := .live p
      entry := none
      res := .none
      step := match th.res with
        | .step => .armed
        | .resume => .off
        | _ => th.step
      wake := match p with
        | .ready => ⟨11, false, false⟩
        | .stalled => ⟨11, false, false⟩
        | _ => th.wake }
  | _ => th

/-- The end of an invocation by TRET. -/
def endInvocation (s : State) (c : CoreId) : State :=
  let s1 := killDead s c
  if unseenOn s c then invokeHandler (endHandler s1 c) c
  else
    let s2 : State := { s1 with threads := s1.threads.map fun e =>
      if e.2.place.core = c ∧ e.1.isHandler = false then
        (e.1, match e.2.status with
          | .stopped _ => resumeOne e.2
          | .ended => { e.2 with entry := none, res := .none }
          | _ => e.2)
      else e }
    let s3 := modCore (endHandler s2 c) c fun k =>
      { k with stopped := false, issued := Vector.replicate 4 (cycOf s c + 1) }
    finishExits s3

def execTret (st : Stall) (s : State) :=
  issue (.tret st) (fun ts s =>
    let c := s.focus.core
    let all := threadsOfWarp s (.handler c)
    if all.all (releaseReady s .sys) then
      .done (endInvocation (releaseAct s c.die ((ts.head?.map (ctxIdOf s)).getD 0) .sys) c) []
    else .hold) s

/-! ### PINV (R357) -/

/-- The page of a cached translation overlaps bytes a to (a + b - 1) mod 2^64. -/
def pageMeets (e : TlbEntry) (a b : Nat) : Bool :=
  let lo := (sext 56 (e.vpn * 2 ^ pageBits e.level.val : Nat)).toNat
  let hi := lo + 2 ^ pageBits e.level.val - 1
  let last := (a + b + 2 ^ 64 - 1) % 2 ^ 64
  b == 0 || (if a ≤ last then decide (lo ≤ last) && decide (a ≤ hi) else decide (lo ≤ last) || decide (a ≤ hi))

def execPinv (a b : Src) (st : Stall) (s : State) :=
  issue (.pinv a b st) (fun ts s =>
    .done (ts.foldl (fun x t =>
        mapTlbs x fun e =>
          if e.ctx = ctxIdOf s t ∧ pageMeets e (readSrc s t 0 a).toNat (readSrc s t 1 b).toNat = true then none else some e) s)
      (advance s ts)) s

/-! ### The handler's limit (R353) -/

/-- HandlerLimit in cycles (R347). -/
def handlerLimit (s : State) (ctx : Nat) : Nat :=
  let u := bvf (ctxOf s ctx).live 356 333
  256 * (if u = 0 then 4096 else u)

def execHandlerLimit (c : CoreId) (s : State) : Host.Outcome State Fault Refusal :=
  match (coreOf s c).handler with
  | some h => if handlerLimit s ((coreOf s c).ctx.getD 0) ≤ h.cycles then .next (handlerFault s c 15) else .next s
  | none => .next s

/-! ### Commands of a context (R347 to R349, R362, R427) -/

/-- The gang of a group is bound: a save of the group alone was a park save. -/
def gangBound (s : State) (g : Group) : Bool := ((tget s.gangs g.gangKey).map (·.bound)).getD false

/-- The codes of R349. -/
def ctxState (s : State) (c : Nat) : Nat :=
  let x := ctxOf s c
  let has (p : Phase → Bool) : Bool := s.groups.any fun e => e.2.ctx == c && p e.2.phase
  if x.destroyed then 7
  else if x.lost ≠ 0 then 6
  else if s.cores.any fun e => e.2.ctx == some c && e.2.stopped then 5
  else if has (fun p => p == .resident || p == .parking) then 4
  else if s.cores.any fun e => e.2.ctx == some c then 3
  else if (s.groups.any fun e => e.2.ctx == c &&
      (e.2.phase == .preemptSaved || (e.2.phase == .returning && !gangBound s e.2)) &&
      s.threads.any fun t => gidOf t.1 == some e.1) then 2
  else if s.groups.any (fun e => e.2.ctx == c &&
      (e.2.phase == .parkSaved || (e.2.phase == .returning && gangBound s e.2))) then 1 else 0

/-- The save area of a descriptor lies in own DRAM, wholly in the windows of its tenant. -/
def saveAreaOk (s : State) (d : BitVec 512) : Bool :=
  let base := bvf d 468 434 * 2 ^ 21
  let size := bvf d 433 418 * 2 ^ 21
  let t : Fin 64 := Fin.ofNat 64 (bvf d 255 250)
  let units := (List.range ((base % 2 ^ 26 + size + 2 ^ 26 - 1) / 2 ^ 26)).map fun i => (base / 2 ^ 26 + i) * 2 ^ 26
  units.all fun pa => isOwn s pa && paMode pa != 3 && (List.range 8).any (inWindow s t pa)

/-- The descriptor meets R347. -/
def descOk (s : State) (d : BitVec 512) : Bool :=
  let park := bvf d 417 394
  let fair := bvf d 393 378
  let n := bvf d 377 357
  decide (1 ≤ bvf d 433 418) && (park == 0 || decide (1024 ≤ park)) && (fair == 0 || decide (64 ≤ fair)) &&
  decide (1 ≤ n) && decide (n ≤ 2 ^ 20) && bvf d 332 277 % 4 == 0 && bvf d 263 256 != 0 && saveAreaOk s d

/-- A command is refused. -/
def refuseCx (s : State) (c : Nat) (err : Fin 8) : State := modCtx s c fun x => { x with cmdErr := err }

/-- CX_CREATE: accepted where no context exists, and its descriptor is good. -/
def cxCreateAct (ctx : Fin 2048) (s : State) : State :=
  let x := ctxOf s ctx.val
  if x.cmd.isSome then s
  else if (x.exists? ∧ x.destroyed = false) ∨ descOk s x.desc = false then (refuseCx s ctx.val 3)
  else (modCtx s ctx.val fun y => { y with cmd := some (.create y.desc) })

def execCxCreate (ctx : Fin 2048) (s : State) : Host.Outcome State Fault Refusal := managementWrite s (cxCreateAct ctx)

/-- The creation, from the descriptor that its acceptance copied: everything else starts as after reset, but for the record of
the last handler fault, which keeps its values (R347, R353), and the dies that still hold dirty words of a lost context (R359). -/
def createCtx (s : State) (c : Nat) (d : BitVec 512) : State :=
  modCtx s c fun x => { Context.none with desc := x.desc, live := d, exists? := true
                                          dieMask := BitVec.ofNat 8 (bvf d 263 256)
                                          touched := x.touched, hfCause := x.hfCause, hfCore := x.hfCore, hfDie := x.hfDie }

/-- The threads of a context. -/
def threadsOfCtx (s : State) (c : Nat) : List ThreadKey := (tkeys s.threads fun _ _ => true).filter fun t => ctxIdOf s t == c

/-- The tundish hands out, binds and relaunches nothing more of a context, and its launches do not complete (R349). -/
def withdrawCtx (s : State) (c : Nat) : State :=
  { s with
    groups := s.groups.map fun e =>
      if e.2.ctx = c ∧ e.2.isPlaced = true then (e.1, { e.2 with phase := .preemptSaved }) else e
    gangs := s.gangs.map fun e => if e.2.ctx = c then (e.1, { e.2 with saved := false, preempt := false }) else e
    queues := s.queues.map fun e =>
      (e.1, { e.2 with records := e.2.records.map fun l => if l.ctx = c then { l with dead := true } else l }) }

/-- Step 1 of destroy: its cores stop, its handlers end, and its threads end as by TKILL. -/
def killCtx (s : State) (c : Nat) : State :=
  let cs := (s.cores.filter fun e => e.2.ctx = some c).map (·.1)
  let s1 := cs.foldl (fun a k => modCore (endHandler a k) k fun x => { x with stopped := true }) s
  ((threadsOfCtx s1 c).filter fun t => ((threadOf s1 t).map fun th => !th.isEnded).getD false).foldl (fun a t =>
    endThread (modThread a t fun x => { x with entry := none, res := .none }) t) s1

/-- CX_DESTROY (DEDUCED, unsafe: notes/assumptions/72.md). -/
def cxDestroyAct (ctx : Fin 2048) (s : State) : State :=
  let x := ctxOf s ctx.val
  let creating := match x.cmd with
    | some (.create _) => true
    | _ => false
  if (x.exists? = false ∨ x.destroyed = true) ∧ creating = false then
    (if x.cmd.isSome then s else refuseCx s ctx.val 3)
  else (modCtx (killCtx (withdrawCtx s ctx.val) ctx.val) ctx.val fun y => { y with cmd := some .destroy })

def execCxDestroy (ctx : Fin 2048) (s : State) : Host.Outcome State Fault Refusal := managementWrite s (cxDestroyAct ctx)

/-- R362: a place on an excluded die is withdrawn. A park-saved group is queued again; a gang goes back to the tundish. -/
def withdrawPlaces (s : State) (c : Nat) (mask : BitVec 8) : State :=
  (tkeys s.groups fun _ g => g.ctx == c && g.isPlaced && !mask.getLsbD g.core.die.val).foldl (fun a gid =>
    match groupOf a gid, gangOfGroup a gid with
    | some g, some (k, x) =>
      if !g.isPlaced then a
      else if x.bound then modGroup a gid fun y => { y with phase := .parkSaved }
      else refuseGang a k x
    | _, _ => a) s

/-- CX_SET_DIE_MASK: an excluded die with carve-out refuses it; else the gangs and the ladles there are pre-empted. -/
def cxSetDieMaskAct (ctx : Fin 2048) (mask : BitVec 8) (s : State) : State :=
  let c := ctx.val
  let x := ctxOf s c
  let out (d : Fin 8) : Bool := !mask.getLsbD d.val
  if x.cmd.isSome then s
  else if x.exists? = false ∨ x.destroyed = true ∨ x.lost ≠ 0 then (refuseCx s c 3)
  else if mask = 0 then (refuseCx s c 2)
  else if (List.finRange 8).any fun d => out d && holdsCarve s c d then (refuseCx s c 1)
  else
    let hit := tkeys s.gangs fun k g => g.ctx == c && g.bound &&
      ((s.groups.any fun e => e.2.gangKey == k && e.2.isResident && out e.2.core.die) ||
        s.threads.any fun e => e.2.isResident && e.2.away.isSome && out e.2.place.core.die &&
          ((groupOfThread s e.1).map (·.gangKey)) == some k)
    let s1 := modCtx (requestPreempt s hit) c fun y => { y with dieMask := mask, cmd := some (.dieMask mask) }
    (withdrawPlaces s1 c mask)

def execCxSetDieMask (ctx : Fin 2048) (mask : BitVec 8) (s : State) : Host.Outcome State Fault Refusal := managementWrite s (cxSetDieMaskAct ctx mask)

/-- CX_HANDLER_RESTART. -/
def cxHandlerRestartAct (ctx : Fin 2048) (s : State) : State :=
  let x := ctxOf s ctx.val
  let c : CoreId := ⟨x.hfDie, x.hfCore⟩
  if x.cmd.isSome then s
  else if x.hf = false ∨ x.destroyed = true then (refuseCx s ctx.val 3)
  else
    let s1 := modCtx s ctx.val fun y => { y with hf := false, cmdErr := 0 }
    (if (coreOf s1 c).ctx = some ctx.val ∧ (coreOf s1 c).stopped = true then invokeHandler s1 c else s1)

def execCxHandlerRestart (ctx : Fin 2048) (s : State) : Host.Outcome State Fault Refusal := managementWrite s (cxHandlerRestartAct ctx)

/-- Nothing that a context has issued is outstanding. -/
def ctxQuiet (s : State) (c : Nat) : Bool :=
  let mine (t : ThreadKey) : Bool := ctxIdOf s t == c
  (s.ops.all fun e => !e.2.threads.any mine) && (s.banks.all fun e => !e.lanes.any fun l => mine l.thread) &&
  (s.slots.all fun e => !e.2.storeq.any fun x => mine x.thread) && (s.packets.all fun e => e.2.ctx != c) &&
  s.engs.all fun e => !mine e.2.thread

/-- A carve-out unit is nobody's. -/
def freeUnits (s : State) (c : Nat) : State :=
  { s with dies := s.dies.mapIdx fun _ d => { d with carve := d.carve.mapIdx fun _ u =>
      if u.valid ∧ u.ctx = c then { u with valid := false, ctx := 0, busy := false } else u } }

/-- The queues of a context enter faulted (R349, R360). -/
def faultQueues (s : State) (c code : Nat) : State :=
  { s with queues := s.queues.map fun e => if e.2.enable ∧ e.2.ctx = c then (e.1, { e.2 with fault := code }) else e }

/-- The dies that hold dirty words of a context. -/
def dirtyDies (s : State) (c : Nat) : BitVec 8 :=
  BitVec.ofNat 8 ((List.finRange 8).foldl (fun n d =>
    n + (if (dieOf s d).l2.any fun e => e.2.dirty != 0 && e.2.ctx == c then 2 ^ d.val else 0)) 0)

/-- Steps 3 to 5 of destroy: the dies drain unless the context is lost; what it holds is free. A die that keeps dirty words of a lost
context stays touched (R359). -/
def destroyCtx (s : State) (c : Nat) : State :=
  let s0 := withdrawCtx s c
  let s1 := if (ctxOf s c).lost = 0 then (List.finRange 8).foldl (fun a d => releaseAct a d c .sys) s0 else s0
  let mine (g : Nat) : Bool := ((groupOf s g).map (·.ctx)) == some c
  let keep (t : ThreadKey) : Bool := match gidOf t with
    | some g => !mine g
    | none => true
  let s2 : State := { freeUnits s1 c with
    cores := s1.cores.map fun e => if e.2.ctx = some c then
      (e.1, { e.2 with ctx := none, stopped := false, handler := none, tlb := [], l1 := [], icache := [] }) else e
    dies := (freeUnits s1 c).dies.mapIdx fun _ d => { d with tlb := d.tlb.filter fun e => e.ctx ≠ c }
    groups := s1.groups.filter fun e => e.2.ctx ≠ c
    gangs := s1.gangs.filter fun e => e.2.ctx ≠ c
    threads := s1.threads.filter fun e => keep e.1
    warps := s1.warps.filter fun e => match e.1 with
      | .home g _ => !mine g
      | .handler _ => true
    watches := s1.watches.filter fun e => keep e.2.thread
    endNotes := s1.endNotes.filter fun e => keep e.thread }
  modCtx (faultQueues s2 c 4) c fun x =>
    { x with exists? := true, destroyed := true, cmd := none, cmdErr := 0, handles := [], images := [], touched := dirtyDies s2 c }

/-- The excluded dies of a die-mask command. -/
def excluded (mask : BitVec 8) : List (Fin 8) := (List.finRange 8).filter fun d => !mask.getLsbD d.val

/-- CX_COMMAND_DONE: the command in progress finishes, once what it waits for has come about. -/
def execCxCommandDone (ctx : Fin 2048) (s : State) : Host.Outcome State Fault Refusal :=
  let c := ctx.val
  match (ctxOf s c).cmd with
  | none => .next s
  | some (.create d) => .next (createCtx s c d)
  | some .destroy => if ctxQuiet s c then .next (destroyCtx s c) else .next s
  | some (.dieMask mask) =>
    let s1 := (excluded mask).foldl (fun a d => drainDie a c d) s
    if (excluded mask).all fun d => !(ctxOf s1 c).touched.getLsbD d.val then
      .next (modCtx s1 c fun x => { x with cmd := none, cmdErr := 0 })
    else .next s1

/-! ### Loss of a die (R360, R304) -/

/-- The die to which a thread travels: a return and a refused ladle's notice go home. -/
def headedTo (th : Thread) : Option (Fin 8) :=
  match th.status, th.away with
  | .travelling, some a => if 2 ≤ a.kind.val ∨ a.refused = true then some a.homePlace.core.die else a.target
  | _, _ => none

/-- The threads that a loss takes. -/
def lostWith (s : State) (d : Fin 8) : List ThreadKey :=
  tkeys s.threads fun t th => !t.isHandler &&
    ((th.isResident && decide (th.place.core.die = d)) || headedTo th == some d)

/-- What stood on the die is gone. -/
def clearDie (s0 : State) (d : Fin 8) : State :=
  let here (c : CoreId) : Bool := decide (c.die = d)
  let s := dropGroups s0 (tkeys s0.groups fun _ g => g.phase == .retired && here g.core)
  let s1 := modDie s d fun x => { x with
    lost := true, change := none, l2 := [], dirtyList := [], tlb := [], reports := [], cupola := [], cupolaRuns := false
    carve := Vector.replicate 8 ⟨false, 0, 0, false⟩ }
  takeHeld { s1 with
    cores := s1.cores.filter fun e => !here e.1
    slots := s1.slots.filter fun e => !here e.1.1
    threads := s1.threads.filter fun e => match e.1 with
      | .handler c _ => !here c
      | _ => true
    warps := s1.warps.filter fun e => match e.1 with
      | .handler c => !here c
      | _ => true
    ops := s1.ops.filter fun e => !here e.2.core
    banks := s1.banks.filter fun e => !here e.core
    engs := s1.engs.filter fun e => !here e.2.core
    watches := s1.watches.filter fun e => e.2.die ≠ d
    homeWatches := s1.homeWatches.filter fun e => e.die ≠ d
    requests := s1.requests.filter fun e => !here e.core
    misses := s1.misses.filter fun e => !here e.core
    mem := memClear s1.mem (s.boot.latched.toNat * 2 ^ 44 + 3 * 2 ^ 42 + d.val * 2 ^ 37) (2 ^ 29) }

/-- The threads of a core get an entry of cause DIELOST. -/
def trapCore (s : State) (c : CoreId) : State :=
  takeFaults s c (((threadsOfCore s c).filter fun t => !t.isHandler).map fun t => ⟨t, .dieLost, pcOf s t, 0, 0, none⟩)

/-- A context whose Touched mask holds the die enters lost. -/
def loseCtx (s : State) (d : Fin 8) (c : Nat) : State :=
  let s1 := modCtx s c fun x => { x with lost := x.lost ||| (1#8 <<< d.val) }
  let s2 := ((s1.cores.filter fun e => e.2.ctx = some c).map (·.1)).foldl trapCore s1
  raiseVector (faultQueues s2 c 3) (tenantOfCtx s2 c)
    (Fin.ofNat 64 (bvf (tenantOf s2 (tenantOfCtx s2 c)).entry 1001 996))

/-- DIE_LOSS. -/
def execDieLoss (d : Fin 8) (s : State) : Host.Outcome State Fault Refusal :=
  if (dieOf s d).lost then .next s
  else
    let hit := tkeys s.contexts fun _ x => x.exists? && !x.destroyed && x.touched.getLsbD d.val
    let s1 := clearDie ((lostWith s d).foldl loseThread s) d
    .next (hit.foldl (fun a c => loseCtx a d c) s1)

/-! ### Carve-out units (R363) -/

/-- Physical address of a carve-out unit. -/
def unitPa (s : State) (d u : Fin 8) : Nat :=
  s.boot.latched.toNat * 2 ^ 44 + 3 * 2 ^ 42 + d.val * 2 ^ 37 + u.val * 2 ^ 26

def modUnit (s : State) (d u : Fin 8) (f : CarveUnit → CarveUnit) : State :=
  modDie s d fun x => { x with carve := x.carve.set u (f x.carve[u]) }

/-- The lines that give way to a unit: which ones is not stated (DESIGN CHOICE, safe: notes/assumptions/73.md). -/
def giveWay (s : State) (d : Fin 8) : State :=
  bumpFree (((linesWhere s d fun _ x => x.pins.isEmpty).filter fun ln => Config.early s.freeCount ln).foldl
    (fun a ln => evictLine a d ln) s)

/-- CARVE_ASSIGN: a write that sets Valid. -/
def carveAssignAct (d : Fin 8) (u : Fin 8) (ctx : Fin 2048) (s : State) : State :=
  let x := (dieOf s d).carve[u]
  let k := ctxOf s ctx.val
  if x.valid then (modUnit s d u fun y => { y with err := if x.ctx = ctx.val then 0 else 1 })
  else if (dieOf s d).pow = .gated ∨ (dieOf s d).startFail = true ∨ k.exists? = false ∨ k.destroyed = true ∨
      k.dieMask.getLsbD d.val = false then (modUnit s d u fun y => { y with err := 3 })
  else
    let s1 := giveWay s d
    let s2 := trimSlices (modUnit s1 d u fun y => { y with valid := true, ctx := ctx.val, err := 0, busy := true }) d
    { s2 with mem := memClear s2.mem (unitPa s d u) (2 ^ 26) }

def execCarveAssign (d : Fin 8) (u : Fin 8) (ctx : Fin 2048) (s : State) : Host.Outcome State Fault Refusal := managementWrite s (carveAssignAct d u ctx)

/-- Addresses of a list fall into the carve-out unit. -/
def inUnit (base : Nat) (pa : Nat) : Bool := decide (base ≤ pa) && decide (pa < base + 2 ^ 26)

/-- An incomplete operation of a context has an address in a unit (R363). -/
def unitUsed (s : State) (c base : Nat) : Bool :=
  let hit := inUnit base
  (s.ops.any fun e => e.2.threads.any (fun t => ctxIdOf s t == c) && (match e.2.body with
    | .load _ pa _ _ _ _ _ _ _ => hit pa
    | .atomic _ _ _ items _ => items.any fun x => hit x.pa
    | .returns _ _ => false
    | .back _ _ => false)) ||
  (s.slots.any fun e => e.2.storeq.any fun x => ctxIdOf s x.thread == c && hit x.pa) ||
  (s.packets.any fun e => e.2.ctx == c && hit e.2.pa) ||
  s.engs.any fun e => ctxIdOf s e.2.thread == c && (e.2.bar.any (fun b => match b with
    | .carve pa => hit pa
    | .scratch _ => false) || engTouches s e.2 hit)
where
  /-- An address that the records of an operation or its index list name translates into the unit. -/
  engTouches (s : State) (e : Eng) (hit : Nat → Bool) : Bool :=
    let at_ (va : Nat) : Bool := match walk s (ctxIdOf s e.thread) va with
      | .leaf level _ f => f.getLsbD 9 && hit (pteFrame f + va % 2 ^ pageBits level.val)
      | _ => false
    ([e.src, e.dst].any fun r => recSpace r == 0 && r != 0 &&
      (List.range (recUnits r)).any fun k => at_ (unitAddr r (k / rowUnits r) (k % rowUnits r))) ||
    (usesIdx e.kind && xIdxSp e.block != 1 &&
      (List.range (xCount e.block)).any fun k => at_ ((xIdx e.block + 4 * k) % 2 ^ 64))

/-- A group or a ladle of a context is resident on a die (R363). -/
def residentOn (s : State) (ctx : Nat) (d : Fin 8) : Bool :=
  (s.groups.any fun e => e.2.ctx == ctx && e.2.isResident && decide (e.2.core.die = d)) ||
  s.threads.any fun e => e.2.isResident && e.2.away.isSome && decide (e.2.place.core.die = d) && ctxIdOf s e.1 == ctx

/-- CARVE_RELEASE: a write that clears Valid (DEDUCED, unsafe: notes/assumptions/76.md). -/
def carveReleaseAct (d : Fin 8) (u : Fin 8) (s : State) : State :=
  let x := (dieOf s d).carve[u]
  if !x.valid then (modUnit s d u fun y => { y with err := 0 })
  else if residentOn s x.ctx d || unitUsed s x.ctx (unitPa s d u) then (modUnit s d u fun y => { y with err := 2 })
  else
    (modUnit { s with mem := memClear s.mem (unitPa s d u) (2 ^ 26) } d u fun y =>
      { y with valid := false, ctx := 0, err := 0, busy := true })

def execCarveRelease (d : Fin 8) (u : Fin 8) (s : State) : Host.Outcome State Fault Refusal := managementWrite s (carveReleaseAct d u)

/-- CARVE_UNIT_DONE. -/
def execCarveUnitDone (d : Fin 8) (u : Fin 8) (s : State) : Host.Outcome State Fault Refusal :=
  let x := (dieOf s d).carve[u]
  if !x.busy then .next s
  else
    let s1 := modUnit s d u fun y => { y with busy := false }
    .next (if x.valid then touchDie s1 x.ctx d else s1)

/-! ### Power (R8 to R10, R408, R409) -/

/-- A request to DIEPWR is refused, or begins a change (DEDUCED, unsafe: notes/assumptions/69.md). -/
def dieErr (s : State) (d : Fin 8) (e : Fin 4) : State := modDie s d fun x => { x with err := e }

def powCode : PowState → Fin 3
  | .on => 0
  | .nt => 1
  | .gated => 2

/-- The ceiling of a die at its present grant (R10): that of a change to ON or NT once it is accepted; while one to GATED, which may yet
be refused (R409), is in progress, the higher of the two (DEDUCED, safe: notes/assumptions/101.md). -/
def dieGrant (s : State) (d : Fin 8) : Nat :=
  let x := dieOf s d
  let now := Config.dieCeiling s.boot.buffer d (powCode x.pow) x.step
  match x.change with
  | some (.gated, step) => max now (Config.dieCeiling s.boot.buffer d (powCode .gated) step)
  | some (p, step) => Config.dieCeiling s.boot.buffer d (powCode p) step
  | none => now

/-- The projected power of the package with a die ON at a step, in mW (R10). -/
def projected (s : State) (d : Fin 8) (step : Nat) : Nat :=
  (List.finRange 8).foldl (fun n k => n + (if k = d then Config.dieCeiling s.boot.buffer k 0 step else dieGrant s k))
    (Config.fixedCeiling s.boot.buffer)

/-- The granted step: above 800 MHz the highest that keeps the projection within 5.0 kW (R10). Where no step from 800 MHz up to
the request keeps it there, the manual names no grant: 800 MHz (DESIGN CHOICE, unsafe: notes/assumptions/100.md). -/
def grantStep (s : State) (d : Fin 8) (req : Nat) : Nat :=
  if req ≤ 24 then req
  else (((rangeFrom 25 (req - 24)).filter fun k => decide (projected s d k ≤ 5000000)).getLast?).getD 24

def dieChange (s : State) (d : Fin 8) (p : PowState) (step : Nat) : State :=
  modDie s d fun x => { x with err := 0, change := some (p, step) }

/-- A request while a change of the die is in progress is ignored, and leaves Err as it stands: the manual does not say
(DESIGN CHOICE, unsafe: notes/assumptions/116.md). A die that did not start, or is lost, refuses every request. -/
def dieRequest (s : State) (d : Fin 8) (p : PowState) (step top : Nat) : State :=
  let x := dieOf s d
  if x.change.isSome then s
  else if x.startFail || x.lost then dieErr s d 3
  else if top < step then dieErr s d 1
  else dieChange s d p (grantStep s d step)

def execDieReqOn (d : Fin 8) (req : BitVec 6) (s : State) : Host.Outcome State Fault Refusal :=
  managementWrite s fun s => dieRequest s d .on req.toNat 40

def execDieReqNt (d : Fin 8) (req : BitVec 6) (s : State) : Host.Outcome State Fault Refusal :=
  managementWrite s fun s => dieRequest s d .nt req.toNat 4

/-- Some context has its Touched bit for a die set (R359). -/
def dieTouched (s : State) (d : Fin 8) : Bool :=
  s.contexts.any fun e => e.2.touched.getLsbD d.val

/-- DIE_REQ_GATED: refused while a context has its Touched bit set. -/
def dieReqGatedAct (d : Fin 8) (s : State) : State :=
  let x := dieOf s d
  if x.change.isSome then s
  else if x.startFail || x.lost then (dieErr s d 3)
  else if dieTouched s d then (dieErr s d 2)
  else (dieChange s d .gated x.step)

def execDieReqGated (d : Fin 8) (s : State) : Host.Outcome State Fault Refusal := managementWrite s (dieReqGatedAct d)

/-- The die loses its volatile parts. -/
def gateDie (s : State) (d : Fin 8) : State :=
  let s0 := dropGroups s (tkeys s.groups fun _ g => g.phase == .retired && decide (g.core.die = d))
  let s1 := modDie s0 d fun x =>
    { x with pow := .gated, l2 := [], dirtyList := [], tlb := [], reports := [], frac := 0, cupola := [], cupolaRuns := false }
  { s1 with cores := s1.cores.filter fun e => decide (e.1.die ≠ d), slots := s1.slots.filter fun e => decide (e.1.1.die ≠ d) }

/-- DIE_POWER_DONE. -/
def execDiePowerDone (d : Fin 8) (s : State) : Host.Outcome State Fault Refusal :=
  match (dieOf s d).change with
  | none => .next s
  | some (p, step) =>
    let s1 := modDie s d fun x => { x with change := none }
    match p with
    | .gated => if dieTouched s1 d then .next (dieErr s1 d 2) else .next (gateDie s1 d)
    | _ =>
      let s2 : State := if (dieOf s d).pow = .gated then
          { s1 with mem := memClear s1.mem (unitPa s d 0) (2 ^ 29) } else s1
      .next (modDie s2 d fun x => { x with pow := p, step := step })

/-- A core is clock-gated (R408). -/
def coreGated (s : State) (c : CoreId) : Bool :=
  (coreOf s c).dozing || (noThreads s c && (coreOf s c).handler.isNone)

/-- CurState (R408). -/
def curState (s : State) (d : Fin 8) : Nat :=
  match (dieOf s d).pow with
  | .gated => 3
  | p =>
    if (List.finRange 128).all fun k => coreGated s ⟨d, k⟩ then 2 else if p == .nt then 1 else 0

end Sys2Proof.Machine
end

