-- ==== Sys2Proof/Machine/Stack.lean ====
section
/-! DEFINITION. The controllers of the stacks: the grant of a request, refresh, compute-bound intervals, the row predictor
and miss notices (spec/18_stack.md R364 to R371). -/

namespace Sys2Proof.Machine

/-! ### The row predictor (R371) -/

/-- The counter of a row of a bank. -/
def rowIndex (bank row : Nat) : Nat := (row % 1024 ^^^ row / 1024 % 1024 ^^^ bank * 16) % 1024

def rowCounter (x : Bank) (i : Nat) : Nat := (tget x.rows i).getD 2

/-- The controller holds the row of the latest access open. -/
def Bank.holdsOpen (x : Bank) (bank : Nat) : Bool :=
  match x.lastRow with
  | some r => decide (2 ≤ rowCounter x (rowIndex bank r))
  | none => false

/-- An access to a row: the counter of the access before it rises or falls. -/
def Bank.access (x : Bank) (bank row : Nat) : Bank :=
  match x.lastRow with
  | none => { x with lastRow := some row }
  | some r =>
    let i := rowIndex bank r
    let v := rowCounter x i
    { x with lastRow := some row, rows := tset x.rows i (if r = row then min 3 (v + 1) else v - 1) }

/-! ### Grants (R365 to R367) -/

/-- The requests of a pseudo-channel in arrival order; the controller holds the first 64. -/
def waitingAt (s : State) (k : Fin 16) (p : Fin 64) : List Request :=
  (s.requests.filter fun r => r.stack = k ∧ r.pch = p).take 64

/-- R366: the requests of a list that touch no byte of an earlier one. -/
def unheld : List Request → List Request → List Request
  | _, [] => []
  | seen, r :: l =>
    if seen.any fun x => overlaps x.pa x.len r.pa r.len then unheld (seen ++ [r]) l else r :: unheld (seen ++ [r]) l

/-- The order within a class: earliest deadline, then arrival, then the runner port (R365); at one port, the order of arrival. -/
def requestLt (a b : Request) : Bool :=
  decide (a.deadline < b.deadline) || (a.deadline == b.deadline && (decide (a.arrived < b.arrived) ||
    (a.arrived == b.arrived && (decide (a.port < b.port) || (a.port == b.port && decide (a.id < b.id))))))

def firstOf (l : List Request) : Option Request := (sortBy requestLt l).head?

/-- The guard for C0: none granted in the last 64 fabric cycles. -/
def guardOn (s : State) (k : Fin 16) (p : Fin 64) : Bool :=
  match tget s.lastC0 (k, p) with
  | some t => decide (t + 64 ≤ s.clock)
  | none => true

/-- Items 2 to 4 of R365. -/
def chooseRequest (s : State) (k : Fin 16) (p : Fin 64) : Option Request :=
  let l := unheld [] (waitingAt s k p)
  let ofClass (c : Nat) : Option Request := firstOf (l.filter fun r => r.cls.val = c)
  match (if guardOn s k p then ofClass 0 else none) with
  | some r => some r
  | none => [3, 2, 1, 0].findSome? ofClass

/-- The bank of a pseudo-channel that is owed a refresh, if any. -/
def owedBank (s : State) (k : Fin 16) (p : Fin 64) : Option Nat :=
  (s.dramBanks.find? fun e => decide (e.1.1 = k) && decide (e.1.2.1 = p) && decide (0 < e.2.owed)).map (·.1.2.2)

/-- The misses of a request at its grant: its own stamp, and those of packets merged into it (R367, R374). -/
def missesOf (s : State) (r : Request) : List MissNotice :=
  (if r.stamped ∧ r.deadline < s.clock then [⟨r.op, r.core, r.ctx, r.cls⟩] else []) ++
    (r.more.filter fun x => decide (x.deadline < s.clock)).map fun x => ⟨r.op, x.core, x.ctx, x.cls⟩

/-- LOAD of a response flit (R368), from the requests that wait when it leaves. -/
def loadAt (s : State) (k : Fin 16) (p : Fin 64) : Nat := min 15 ((waitingAt s k p).length / 4)

/-- The response of a host request carries its LOAD to its completion (R388). -/
def noteLoad (s : State) (r : Request) : State :=
  match r.op with
  | none => s
  | some i => { s with hostReads := tmod s.hostReads i fun x =>
      let k := (r.pa - x.base) / 512
      { x with loads := tset x.loads k (max ((tget x.loads k).getD 0) (loadAt s r.stack r.pch)) } }

/-- A request is granted: its row is accessed, and a stamped one that is late is a miss. The next of the runner arrives. -/
def grantOne (s : State) (r : Request) : State :=
  let s1 : State := { s with
    requests := s.requests.filter fun x => x.id ≠ r.id
    lastC0 := if r.cls = 0 then tset s.lastC0 (r.stack, r.pch) s.clock else s.lastC0
    misses := s.misses ++ missesOf s r }
  noteLoad (takeHeld (setBank s1 r.stack r.pch r.bank ((bankAt s1 r.stack r.pch r.bank).access r.bank r.row))) r

/-! ### Completions to hosts (R388) -/

/-- LOAD of a completion for a tenant's function, where it carries the prefix. -/
def prefixLoad (s : State) (port : Fin 2) (t : Fin 64) (load : Nat) : Option Nat := (formedLoad s port t).map fun _ => load

/-- The completions of a request in address order, of at most 512 bytes (R378, R385), each with the largest LOAD of its responses
(DEDUCED, unsafe: notes/assumptions/70.md). -/
def complete (s : State) (x : HostRead) : State :=
  { s with notes := s.notes ++ (List.range ((x.data.length + 511) / 512)).map fun k =>
      .completion x.port ((x.data.drop (512 * k)).take 512) (prefixLoad s x.port x.tenant ((tget x.loads k).getD 0)) }

/-- The completions leave once each of the requests has been served. -/
def settleHost (s : State) : State :=
  (tkeys s.hostReads fun i _ => requestsDone s i).foldl (fun a i => match tget a.hostReads i with
    | some x => complete { a with hostReads := tdel a.hostReads i } x
    | none => a) s

/-- A host access that has taken effect: its requests are posted with the class of its page, and its completion waits for them; for
host memory nothing is asked of a controller, and the completion carries LOAD 0. -/
def answerHost (s : State) (x : HostRead) (ctx : Nat) (cls : Fin 4) (asks : List (Nat × Nat)) : State :=
  let i := s.seq
  let s1 : State := { s with hostReads := tset s.hostReads i x, seq := s.seq + 1 }
  settleHost (asks.foldl (fun a r => postAt a (runnerPort (hostStack x.port) (stackOf r.1)) (some i) ⟨0, 0⟩ ctx cls none [] r.1 r.2) s1)

/-- DRAM_GRANT: an owed refresh first, else a request. -/
def execDramGrant (stack : Fin 16) (pch : Fin 64) (s : State) : Host.Outcome State Fault Refusal :=
  match owedBank s stack pch with
  | some b => .next (setBank s stack pch b { bankAt s stack pch b with owed := (bankAt s stack pch b).owed - 1 })
  | none => match chooseRequest s stack pch with
    | some r => .next (settleHost (grantOne s r))
    | none => .next s

/-! ### Refresh (R369, R370) -/

/-- The stack is in a compute-bound interval. -/
def inPhase (s : State) (k : Fin 16) : Bool :=
  s.phases.any fun e => decide (e.stack = k) && (match e.until? with
    | some u => decide (s.clock < u)
    | none => true)

/-- REFRESH_DUE: a credit is spent, or the refresh is owed. -/
def execRefreshDue (stack : Fin 16) (pch : Fin 64) (bank : Nat) (s : State) : Host.Outcome State Fault Refusal :=
  let x := bankAt s stack pch bank
  if x.due ≤ s.clock then
    let y := { x with due := x.due + 6240 }
    .next (setBank s stack pch bank (if 0 < x.credit then { y with credit := x.credit - 1 } else { y with owed := x.owed + 1 }))
  else .next s

/-- EARLY_REFRESH: a bank without a waiting request and with credit below 8, in a compute-bound interval: once in a fabric cycle. -/
def execEarlyRefresh (stack : Fin 16) (pch : Fin 64) (bank : Nat) (s : State) : Host.Outcome State Fault Refusal :=
  let x := bankAt s stack pch bank
  if inPhase s stack ∧ x.credit < 8 ∧ x.early ≠ s.clock + 1 ∧
      (s.requests.all fun r => !(decide (r.stack = stack ∧ r.pch = pch) && r.bank == bank)) then
    .next (setBank s stack pch bank { x with credit := x.credit + 1, early := s.clock + 1 })
  else .next s

/-- The banks that no access has reached, in one fabric cycle: a refresh that falls due takes a credit, if there is one, and in a
compute-bound interval each is refreshed early while its credit is below 8 (R369). -/
def idleRefresh (s : State) : State :=
  { s with idleCredit := Vector.ofFn fun k =>
      let c := s.idleCredit[k] - (if 0 < s.clock ∧ s.clock % 6240 = 0 then 1 else 0)
      if inPhase s k ∧ c < 8 then c + 1 else c }

/-- PHASE_EXPIRE. -/
def execPhaseExpire (stack : Fin 16) (c : CoreId) (s : State) : Host.Outcome State Fault Refusal :=
  .next { s with phases := s.phases.filter fun e =>
    !(decide (e.stack = stack) && decide (e.core = c) && (match e.until? with
      | some u => decide (u ≤ s.clock)
      | none => false)) }

/-- MISS_NOTICE: the counter of the class rises on the core, while the request's context is loaded there (R99, R367). -/
def execMissNotice (n : Nat) (s : State) : Host.Outcome State Fault Refusal :=
  match s.misses[n]? with
  | none => .next s
  | some x =>
    let s1 : State := { s with misses := s.misses.eraseIdx n }
    if (coreOf s1 x.core).ctx = some x.ctx then
      .next (modCore s1 x.core fun k => { k with miss := k.miss.set x.cls (min 0xFFFF (k.miss[x.cls] + 1)) })
    else .next s1

end Sys2Proof.Machine
end

