-- ==== Sys2Proof/Machine/Host.lean ====
section
/-! DEFINITION. Hosts and links: accesses through BAR2, bandwidth buckets, shared regions, register writes, links and
messages of other packages (spec/19_link.md R378 to R397). -/

namespace Sys2Proof.Machine

/-! ### Bandwidth buckets (R387) -/

/-- TOKEN_BUCKET_REFILL: what 25 fabric cycles add, one byte for each unit of the rate. -/
def execTokenBucketRefill (port : Fin 2) (fn : Fin 65) (out : Bool) (s : State) : Host.Outcome State Fault Refusal :=
  let b := bucketOf s port fn
  .next (if b.rate out = 0 then s else setBucket s port fn (b.setFill out (min (b.depth out) (b.fill out + b.rate out))))

/-! ### Shared regions (R390, R391) -/

def regionValid (r : BitVec 256) : Bool := r.getLsbD 0
def regionBase (r : BitVec 256) : Nat := bvf r 63 1 * 2
def regionLimit (r : BitVec 256) : Nat := bvf r 127 64
def regionVer (r : BitVec 256) : Nat := bvf r 191 136

/-- A tenant reaches a physical byte range: no region that holds it excludes the tenant. -/
def regionAllows (s : State) (t : Fin 64) (pa n : Nat) : Bool :=
  s.regions.toList.all fun r => !(regionValid r && decide (pa ≤ regionLimit r) && decide (regionBase r < pa + n)) ||
    (bvf r 255 192) / 2 ^ t.val % 2 == 1

/-- A byte range meets the version word of a region. -/
def meetsVersion (s : State) (pa n : Nat) : Bool :=
  s.regions.toList.any fun r => regionValid r && decide (pa < regionVer r + 8) && decide (regionVer r < pa + n)

/-- A range is the version word of a region. -/
def isVersion (s : State) (pa n : Nat) : Bool :=
  s.regions.toList.any fun r => regionValid r && regionVer r == pa && n == 8

/-! ### Accesses through BAR2 (R184, R385) -/

def portSrc (port : Fin 2) : Nat := 3 + port.val

/-- A logged failure of a host access (DEDUCED, unsafe: notes/assumptions/59.md). -/
def hostFail (s : State) (port : Fin 2) (t : Fin 64) (posted : Bool) (kind off : Nat) : State :=
  let s1 := logViolation s t ⟨portSrc port, 0, 0, bvf (tenantOf s t).entry 977 967, kind, 2, off⟩
  { s1 with notes := s1.notes ++ [.abort port (if posted then none else formedLoad s port t)] }

/-- An Unsupported Request. -/
def unsupported (s : State) (port : Fin 2) (t : Fin 64) (posted : Bool) : State :=
  { s with notes := s.notes ++ [.unsupported port (if posted then none else formedLoad s port t)] }

/-- BAR2 of a tenant's function holds n bytes at an offset (R380). -/
def inBar2 (s : State) (port : Fin 2) (t : Fin 64) (off n : Nat) : Bool :=
  decide (off + n ≤ 2 ^ (tget (portOf s port).bar2 (Fin.ofNat 64 (tenantVf s t port))).getD 40)

/-- An access through BAR2 that the function takes: in service, within BAR2, not empty, and not across 4,096 bytes
(PRESUMED, unsafe: notes/assumptions/60.md). -/
def bar2Takes (s : State) (port : Fin 2) (t : Fin 64) (off n : Nat) : Bool :=
  served s port t && inBar2 s port t off n && n != 0 && decide (off % 4096 + n ≤ 4096)

/-- The translation of a host access, with the checks of its region: the place, or the Kind that is logged. -/
def hostXlat (s : State) (t : Fin 64) (off n : Nat) (need : Need) : Xlat ⊕ Nat :=
  match aperCtx s t with
  | none => .inr 12
  | some c => match translateHost s c off need with
    | .page => .inr 11
    | .viol k => .inr k
    | .ok x => if regionAllows s t x.pa n then .inl x else .inr 5

/-- The walk of a host access posts its reads (R364). -/
def hostWalk (s : State) (port : Fin 2) (t : Fin 64) (off : Nat) : State :=
  match aperCtx s t with
  | some c => outsideWalk s (hostStack port) c off
  | none => s

/-- The requests of a host access at home, and its context. -/
def hostAsks (x : Xlat) (n : Nat) : List (Nat × Nat) := if x.attr.remote then [] else blockAsks x.loc n

def hostCtx (s : State) (t : Fin 64) : Nat := bvf (tenantOf s t).entry 977 967

/-- Bytes written at home, in DRAM or in host memory. -/
def putHome (s : State) (x : Xlat) (loc : Nat) (data : List Byte) : State :=
  if x.attr.remote then { s with mem := memPutBytes s.mem loc data } else homeWrite s loc data

/-- A posted write of a tenant's function has not been accepted at home: its reads and AtomicOps are held (R385). -/
def writesPending (s : State) (port : Fin 2) (t : Fin 64) : Bool :=
  s.hostWrites.any fun e => e.2.port == port && e.2.fn == tenantVf s t port

/-- HOST_READ: the completions hold the data at home. -/
def execHostRead (port : Fin 2) (tenant : Fin 64) (off : BitVec 64) (len : Nat) (s : State) :
    Host.Outcome State Fault Refusal :=
  let f := fnOf (tenantVf s tenant port)
  if !bar2Takes s port tenant off.toNat len then .next (unsupported s port tenant false)
  else if writesPending s port tenant then .next s
  else match hostXlat s tenant off.toNat len ⟨true, false, false⟩ with
    | .inr k => .next (hostFail (hostWalk s port tenant off.toNat) port tenant false k off.toNat)
    | .inl x =>
      if !mayPass s port f true len then .next s
      else .next (answerHost (hostWalk (spend s port f true len) port tenant off.toNat)
        ⟨port, tenant, x.loc, memBytes s.mem x.loc len, []⟩ (hostCtx s tenant) x.attr.page (hostAsks x len))

/-- The pieces of a posted write: aligned runs within 8-byte words (PRESUMED, unsafe: notes/assumptions/60.md). -/
def pieces (off : Nat) : Nat → List Byte → List (Nat × List Byte)
  | 0, _ => []
  | _ + 1, [] => []
  | n + 1, b :: l =>
    let k := 8 - off % 8
    (off, (b :: l).take k) :: pieces (off + k) n ((b :: l).drop k)

/-- A piece takes effect at home; one that meets a version word is discarded and logged (R391). -/
def writePiece (s : State) (w : HostWrite) (p : Nat × List Byte) : State :=
  let d := p.1 - w.off
  if meetsVersion s (w.pa + d) p.2.length then
    logViolation s w.tenant ⟨portSrc w.port, 0, 0, w.ctx, 10, 2, p.1⟩
  else if w.remote then { s with mem := memPutBytes s.mem (w.loc + d) p.2 }
  else homeWrite (postOutside s (hostStack w.port) w.ctx w.cls [(w.loc + d, p.2.length)]) (w.loc + d) p.2

/-- The home of a piece: a stack, or host memory. -/
def pieceHome (w : HostWrite) (p : Nat × List Byte) : Nat :=
  if w.remote then 16 + w.loc / 2 ^ 64 else (stackOf (w.pa + (p.1 - w.off))).val

/-- The posted writes of a function to one home take effect in arrival order (R385, R394), the pieces of one in address order. -/
def pieceReady (s : State) (id : Nat) (w : HostWrite) (i : Nat) (p : Nat × List Byte) : Bool :=
  (w.pieces.take i).all (fun q => pieceHome w q != pieceHome w p) &&
  s.hostWrites.all fun e => !(decide (e.1 < id) && e.2.port == w.port && e.2.fn == w.fn) ||
    e.2.pieces.all fun q => pieceHome e.2 q != pieceHome w p

/-- The home of a piece of a posted write accepts it (R385). -/
def acceptPiece (id i : Nat) (s : State) : State :=
  match tget s.hostWrites id with
  | none => s
  | some w => match w.pieces[i]? with
    | none => s
    | some p =>
      if !pieceReady s id w i p then s
      else
        let l := w.pieces.eraseIdx i
        { writePiece s w p with
          hostWrites := if l = [] then tdel s.hostWrites id else tset s.hostWrites id { w with pieces := l } }

/-- HOST_WRITE: a posted write, whose pieces the homes accept one after another. -/
def execHostWrite (port : Fin 2) (tenant : Fin 64) (off : BitVec 64) (data : List Byte) (s : State) :
    Host.Outcome State Fault Refusal :=
  let n := data.length
  let f := fnOf (tenantVf s tenant port)
  if !bar2Takes s port tenant off.toNat n || decide (512 < n) then .next (unsupported s port tenant true)
  else if !mayPass s port f false n then .next s
  else
    let s0 := hostWalk (spend s port f false n) port tenant off.toNat
    match hostXlat s tenant off.toNat n ⟨false, true, false⟩ with
    | .inr k => .next (hostFail s0 port tenant true k off.toNat)
    | .inl x => .next { s0 with
        seq := s0.seq + 1
        hostWrites := tset s0.hostWrites s0.seq
          { port := port, tenant := tenant, fn := tenantVf s tenant port, off := off.toNat, pa := x.pa, loc := x.loc
            remote := x.attr.remote, cls := x.attr.page, ctx := hostCtx s tenant, pieces := pieces off.toNat n data } }

/-- The width of an AtomicOp in bytes. -/
def hostOpBytes : HostAtomicOp → Nat
  | .fetchAdd32 => 4
  | .swap32 => 4
  | .fetchAdd64 => 8
  | .swap64 => 8
  | .cas64 => 8

/-- The new value that an AtomicOp writes, if it writes: x the operand, or the compare operand with y the swap operand. -/
def hostOpNew (op : HostAtomicOp) (old x y : Nat) : Option Nat :=
  match op with
  | .fetchAdd32 => some ((old + x) % 2 ^ 32)
  | .fetchAdd64 => some ((old + x) % 2 ^ 64)
  | .swap32 => some (x % 2 ^ 32)
  | .swap64 => some x
  | .cas64 => if old = x then some y else none

/-- HOST_ATOMIC: at home, as an ATOM or ACAS of its width; on a version word as R391 decides. -/
def execHostAtomic (port : Fin 2) (tenant : Fin 64) (off : BitVec 64) (op : HostAtomicOp) (x y : BitVec 64) (s : State) :
    Host.Outcome State Fault Refusal :=
  let n := hostOpBytes op
  let f := fnOf (tenantVf s tenant port)
  if !bar2Takes s port tenant off.toNat n || off.toNat % n != 0 then .next (unsupported s port tenant false)
  else if writesPending s port tenant || !mayPass s port f false (if op = .cas64 then 16 else n) || !mayPass s port f true n then
    .next s
  else
    let s2 := spend s port f false (if op = .cas64 then 16 else n)
    match hostXlat s tenant off.toNat n ⟨true, true, false⟩ with
    | .inr k => .next (hostFail (hostWalk s2 port tenant off.toNat) port tenant false k off.toNat)
    | .inl p =>
      let s0 := hostWalk (spend s2 port f true n) port tenant off.toNat
      let old := memNat s.mem p.loc n
      let publish := op == .cas64 && isVersion s p.pa n
      if meetsVersion s p.pa n && (!publish || old != x.toNat) then .next (hostFail s0 port tenant false 10 off.toNat)
      else
        let s1 := match hostOpNew op old x.toNat y.toNat with
          | some v => putHome s0 p p.loc (natBytes n v)
          | none => s0
        .next (answerHost s1 ⟨port, tenant, p.loc, natBytes n old, []⟩ (hostCtx s tenant) p.attr.page (hostAsks p n))

/-- FUNCTION_LEVEL_RESET (R379): the MSI-X state and the buckets of the function (DEDUCED, unsafe: notes/assumptions/62.md). Before
Phase ready a tenant function answers no request (R398). -/
def execFunctionLevelReset (port : Fin 2) (vf : Fin 64) (s : State) : Host.Outcome State Fault Refusal :=
  if s.boot.phase != .ready && vf.val != 0 then .next s
  else .next (modPort { s with msix := tdel s.msix (port, vf.val) } port fun x =>
    { x with buckets := tdel x.buckets (fnOf vf.val) })

/-! ### Links (R392, R396, R397) -/

/-- LINK_REPLAY: no flit is lost or duplicated (DESIGN CHOICE, unsafe: notes/assumptions/85.md). -/
def execLinkReplay (_link : Nat) (s : State) : Host.Outcome State Fault Refusal := .next s

def execLinkFail (stack : Fin 16) (k : Fin 2) (s : State) : Host.Outcome State Fault Refusal :=
  .next { s with linkFail := s.linkFail ||| linkBit stack k, linkDown := s.linkDown ||| linkBit stack k }

/-- LINK_RETRAIN: the port carries traffic again; its LINKFAIL bit stays until it is cleared. -/
def execLinkRetrain (stack : Fin 16) (k : Fin 2) (s : State) : Host.Outcome State Fault Refusal :=
  .next { s with linkDown := s.linkDown &&& ~~~linkBit stack k }

/-- The host window of a port of this package that a message of another package names: its tenant, and the bus address; a window whose
tenant has no function on the port is not in force (R386). -/
def remoteWindow (s : State) (p : Fin 2) (pa : Nat) : Option (Fin 64 × Nat) :=
  ((portOf s p).windows.toList.find? fun w => bvf w 255 255 == 1 && tenantVf s (Fin.ofNat 64 (bvf w 245 240)) p != 0 &&
    decide (bvf w 43 0 ≤ pa % 2 ^ 44) && decide (pa % 2 ^ 44 < bvf w 43 0 + bvf w 91 64 * 65536)).map fun w =>
      (Fin.ofNat 64 (bvf w 245 240), bvf w 191 128 + (pa % 2 ^ 44 - bvf w 43 0))

/-- The bytes that a message of another package touches. -/
def remoteBytes (op : RemoteOp) (len : Nat) : Nat :=
  match op with
  | .read => len
  | .write data => min len data.length
  | .atomic o _ _ => hostOpBytes o
  | .landing r _ => redBytes r
  | .free _ wide _ => if wide then 8 else 4

/-- What a message writes over the bytes that it finds; none where it writes nothing (R372, R385). -/
def remoteNew (op : RemoteOp) (old : Nat) (len : Nat) : Option (List Byte) :=
  match op with
  | .read => none
  | .write data => some (data.take len)
  | .atomic o x y => (hostOpNew o old x.toNat y.toNat).map (natBytes (hostOpBytes o))
  | .landing r p => some (natBytes (redBytes r) (redLand r (BitVec.ofNat 64 old) (p.zeroExtend 64)).toNat)
  | .free o wide p => some (natBytes (if wide then 8 else 4) (atomNew o (if wide then .w64 else .w32) (BitVec.ofNat 64 old) p).toNat)

/-- What returns to the package that asked; a posted write and a return-free operation return nothing. -/
def remoteAnswer (op : RemoteOp) (data : List Byte) : Option (List Byte) :=
  match op with
  | .read | .atomic _ _ _ => some data
  | _ => none

/-- A message leaves through an off-package port. -/
def sendOut (s : State) (x : OffNote) : State := { s with sent := s.sent ++ [x] }

/-- A message acts on bytes at their home, and its answer goes back. -/
def actRemote (s : State) (stack : Fin 16) (k : Fin 2) (loc len : Nat) (op : RemoteOp) (put : State → List Byte → State) : State :=
  let old := memBytes s.mem loc (remoteBytes op len)
  let s1 := match remoteNew op (bytesNat old) len with
    | some l => put s l
    | none => s
  match remoteAnswer op old with
  | some l => sendOut s1 (.response stack k l)
  | none => s1

/-- A message for host memory behind a port of this package: it passes the buckets of the function that the window names (R387); a
reduction has no AtomicOp. -/
def remoteHost (s : State) (stack : Fin 16) (k : Fin 2) (p : Fin 2) (pa : BitVec 56) (len : Nat) (op : RemoteOp) : State :=
  match remoteWindow s p pa.toNat, op with
  | none, _ | some _, .landing _ _ | some _, .free _ _ _ => sendOut s (.error stack k pa)
  | some (t, bus), _ =>
    let out := match op with
      | .read => false
      | _ => true
    let f := fnOf (tenantVf s t p)
    if !mayPass s p f out (remoteBytes op len) then s
    else actRemote (spend s p f out (remoteBytes op len)) stack k (hostKey p bus) len op fun x l =>
      { x with mem := memPutBytes x.mem (hostKey p bus) l }

/-- OFF_PACKAGE_REQUEST (R386, R396, R397): it acts at its home in DRAM, behind a host port of this package, or travels on by the route
table; a message for which there is no place and no route meets an error response, which goes back to the package it came from. Its
class and its stamp are free (DESIGN CHOICE, safe: notes/assumptions/115.md). -/
def execOffPackageRequest (stack : Fin 16) (k : Fin 2) (pa : BitVec 56) (len : Nat) (op : RemoteOp) (s : State) :
    Host.Outcome State Fault Refusal :=
  let a := pa.toNat
  if s.linkDown &&& linkBit stack k != 0 then .next s
  else if isOwn s a then
    if paMode a == 3 || unbacked s a then .next (sendOut s (.error stack k pa))
    else
      let cls := Fin.ofNat 4 (Config.freeWord s.freeCount 0).toNat
      let s1 := (blockAsks a (remoteBytes op len)).foldl (fun x r =>
        postAt x (runnerPort stack (stackOf r.1)) none ⟨0, 0⟩ 0 cls none [] r.1 r.2) (bumpFree s)
      .next (actRemote s1 stack k a len op fun x l => homeWrite x a l)
  else match hostPort s a with
    | some p => .next (remoteHost s stack k p pa len op)
    | none => match routeOf s a with
      | some (st, pt) => .next (sendOut s (.forward st pt pa len op (((tget s.route (paPkg a)).getD 0).getLsbD 6)))
      | none => .next (sendOut s (.error stack k pa))

/-! ### Register writes (R13, R383) -/

/-- The bits hi:lo of a register, as a mask. -/
def maskBitsOf (l : List (Nat × Nat)) : Nat := l.foldl (fun m x => m ||| (2 ^ (x.1 + 1) - 2 ^ x.2)) 0

/-- Word k of a register of several words takes the writable bits of a 64-bit write. -/
def putWord {n : Nat} (r : BitVec n) (k : Nat) (mask : Nat) (v : BitVec 64) : BitVec n :=
  let m : BitVec n := BitVec.ofNat n (mask / 2 ^ (64 * k) % 2 ^ 64 * 2 ^ (64 * k))
  (r &&& ~~~m) ||| (BitVec.ofNat n (v.toNat * 2 ^ (64 * k)) &&& m)

def descMask : Nat := maskBitsOf [(511, 277), (263, 249)]
def entryMask : Nat := maskBitsOf [(1023, 1023), (1013, 967), (511, 0)]
def regionMask : Nat := maskBitsOf [(255, 136), (127, 0)]
def windowMask : Nat := maskBitsOf [(255, 255), (245, 240), (191, 64), (43, 0)] - maskBitsOf [(127, 92)]
def portcfgMask : Nat := maskBitsOf [(63, 63), (11, 0)]
def latbndMask : Nat := maskBitsOf [(63, 63), (19, 0)]
def routeMask : Nat := maskBitsOf [(31, 31), (6, 0)]

/-- A write to an offset of a port page (R389). -/
def writePortPage (s : State) (p : Fin 2) (o : Nat) (v : BitVec 64) : State :=
  if o = 0 then modPort s p fun x => { x with cfg := putWord x.cfg 0 portcfgMask v }
  else if o = 8 then modPort s p fun x => { x with loadFb := v }
  else if 0x100 ≤ o ∧ o ≤ 0x300 then
    let f := Fin.ofNat 65 ((o - 0x100) / 8)
    setBucket s p f { bucketOf s p f with pair := v }
  else if 0x1000 ≤ o ∧ o < 0x1200 then
    let w := Fin.ofNat 16 ((o - 0x1000) / 0x20)
    modPort s p fun x => { x with windows := x.windows.set w (putWord x.windows[w] (o / 8 % 4) windowMask v) }
  else s

/-- The route entries that a write covers (R396). -/
def writeRoute (s : State) (o : Nat) (v : BitVec 64) : State :=
  let e (i : Nat) (x : Nat) (t : Tab Nat (BitVec 32)) : Tab Nat (BitVec 32) := tset t i (BitVec.ofNat 32 x &&& BitVec.ofNat 32 routeMask)
  { s with route := e (o / 4 + 1) (v.toNat / 2 ^ 32) (e (o / 4) v.toNat s.route) }

/-- A register of the management window without behaviour of its own takes what is written (R13), and QCFG acts as R337 says. Another
register with behaviour of its own is written by its own event. -/
def writeManagement (s : State) (o : Nat) (v : BitVec 64) : State :=
  if o < 0x4_0000 then
    if o % 0x80 < 0x40 then
      modCtx s (o / 0x80) fun x => { x with desc := putWord x.desc (o % 0x40 / 8) descMask v }
    else s
  else if o < 0x4_2000 then
    modTenant s (Fin.ofNat 64 ((o - 0x4_0000) / 0x80)) fun x => { x with entry := putWord x.entry (o % 0x80 / 8) entryMask v }
  else if 0x6_0000 ≤ o ∧ o < 0x6_0800 then
    let r := Fin.ofNat 64 ((o - 0x6_0000) / 0x20)
    { s with regions := s.regions.set r (putWord s.regions[r] (o % 0x20 / 8) regionMask v) }
  else if 0x8_0000 ≤ o ∧ o < 0xA_0000 then writePortPage s (Fin.ofNat 2 ((o - 0x8_0000) / 0x1_0000)) (o % 0x1_0000) v
  else if 0xA_0000 ≤ o ∧ o < 0xA_8000 then
    if o % 0x20 = 0 then
      writeQcfg s ⟨Fin.ofNat 64 ((o - 0xA_0000) / 0x200), Fin.ofNat 16 ((o - 0xA_0000) / 0x20)⟩ (v.getLsbD 63) (bvf v 10 0)
    else s
  else if 0xB_0000 ≤ o ∧ o < 0xB_0060 then
    let p := Fin.ofNat 12 ((o - 0xB_0000) / 8)
    { s with latbnd := s.latbnd.set p (putWord s.latbnd[p] 0 latbndMask v) }
  else if 0x10_0000 ≤ o ∧ o < 0x10_4000 then writeRoute s (o - 0x10_0000) v
  else if o = 0x10_4000 then { s with linkFail := s.linkFail &&& ~~~BitVec.ofNat 32 v.toNat }
  else s

/-- A write to the boot area: the boot buffer by the owner in open, and ATTNONCE, of which each port has what it wrote
(R398, R399, R407) (DEDUCED, unsafe: notes/assumptions/117.md). -/
def writeBootArea (s : State) (port : Fin 2) (o : Nat) (v : BitVec 64) : State :=
  if 0x80_0000 ≤ o then
    if s.boot.phase = .openP ∧ s.boot.claimed = true ∧ s.boot.owner = port then
      { s with boot := { s.boot with buffer := memPut s.boot.buffer (o - 0x80_0000) 8 v.toNat } }
    else s
  else if 0x20_1000 ≤ o ∧ o < 0x20_1040 then
    { s with boot := { s.boot with
      nonces := s.boot.nonces.set port (putWord s.boot.nonces[port] (o % 0x40 / 8) (2 ^ 512 - 1) v) } }
  else s

/-- REGISTER_WRITE: function 0 of a port writes 8 aligned bytes of BAR4 (DEDUCED, unsafe: notes/assumptions/82.md). -/
def execRegisterWrite (port : Fin 2) (off : BitVec 24) (value : BitVec 64) (s0 : State) : Host.Outcome State Fault Refusal :=
  let o := off.toNat
  let s := spend s0 port 0 false 8
  if !mayPass s0 port 0 false 8 then .next s0
  else if o % 8 ≠ 0 then .next s
  else if 0x20_0000 ≤ o ∧ (o < 0x30_0000 ∨ 0x80_0000 ≤ o) then .next (writeBootArea s port o value)
  else if s.boot.phase = .ready then .next (writeManagement s o value)
  else .next s

end Sys2Proof.Machine
end

