-- ==== Sys2Proof/Machine/Boot.lean ====
section
/-! DEFINITION. From power to first launch: power, the boot ROM's commands, the check of the bundle, start-up and
attestation (spec/20_startup.md R398 to R407). -/

namespace Sys2Proof.Machine

/-- The package without power: only host memory, which is not its own, and the model's own counts remain (R404)
(DESIGN CHOICE, unsafe: notes/assumptions/68.md). -/
def unpowered (s : State) : State :=
  { State.reset with
    agenda := s.agenda
    moveCount := s.moveCount
    freeCount := s.freeCount
    seq := s.seq
    mem := s.mem.filter fun c => decide (2 ^ 64 ≤ c.1)
    notes := s.notes
    boot := { Boot.reset with powered := false } }

/-- POWER_ON: the ROM trains the host ports, and Phase becomes open (R399). -/
def execPowerOn (s : State) : Host.Outcome State Fault Refusal :=
  if s.boot.powered then
    if s.boot.phase = .training then .next { s with boot := { s.boot with phase := .openP } } else .next s
  else .next { unpowered s with boot := { Boot.reset with phase := .openP } }

/-- POWER_OFF. -/
def execPowerOff (s : State) : Host.Outcome State Fault Refusal := .next (unpowered s)

/-- A port has claimed the boot. -/
def owns (s : State) (port : Fin 2) : Bool := s.boot.claimed && s.boot.owner == port

/-- BOOT_CLAIM: the first claim counts. -/
def execBootClaim (port : Fin 2) (s : State) : Host.Outcome State Fault Refusal :=
  if s.boot.phase = .openP ∧ s.boot.claimed = false then
    .next { s with boot := { s.boot with claimed := true, owner := port } } else .next s

/-- BOOT_RESTART: accepted in failed only. -/
def execBootRestart (port : Fin 2) (s : State) : Host.Outcome State Fault Refusal :=
  if owns s port ∧ s.boot.phase = .failed then
    .next { s with boot := { s.boot with phase := .openP, errCode := 0, errUnit := 0 } } else .next s

/-- PKGNUM_WRITE (R400). -/
def execPkgnumWrite (port : Fin 2) (num : BitVec 12) (s : State) : Host.Outcome State Fault Refusal :=
  if owns s port ∧ s.boot.phase = .openP then
    .next { s with boot := { s.boot with pkgSet := true, pkgNum := num } } else .next s

/-! ### The bundle (R401 to R403) -/

/-- The header of the bundle in the boot buffer. -/
def bundleHeader (b : Memory) : BitVec 512 := BitVec.ofNat 512 (memNat b 0 64)

/-- Length and offset of the sections: stack parameters, runner tables, cupola, tundish. -/
def sections (h : BitVec 512) : List (Nat × Nat) :=
  [(bvf h 351 320, bvf h 319 288), (bvf h 287 256, bvf h 255 224), (bvf h 223 192, bvf h 191 160),
    (bvf h 159 128, bvf h 127 96)]

def sectionAt (h : BitVec 512) (i : Nat) : Nat × Nat := (sections h).getD i (0, 0)

def bundleLength (h : BitVec 512) : Nat := bvf h 95 64

/-- A section stands apart from another. -/
def apart (a b : Nat × Nat) : Bool := decide (a.2 + a.1 ≤ b.2) || decide (b.2 + b.1 ≤ a.2)

/-- Each section stands apart from every later one. -/
def allApart : List (Nat × Nat) → Bool
  | [] => true
  | a :: l => l.all (apart a) && allApart l

/-- Test 1 of R403. -/
def headerOk (h : BitVec 512) : Bool :=
  let n := bundleLength h
  let image (x : Nat × Nat) : Bool := decide (64 ≤ x.1) && decide (x.1 ≤ 4194304)
  bvf h 31 0 == 0x46424D4C && bvf h 39 32 == 1 && bvf h 63 40 == 0 && bvf h 511 352 == 0 &&
  decide (8192 ≤ n) && decide (n ≤ 8388608) &&
  (sections h).all (fun x => x.2 % 64 == 0 && decide (8192 ≤ x.2) && decide (x.2 + x.1 ≤ n)) && allApart (sections h) &&
  (sectionAt h 0).1 == 1024 && (sectionAt h 1).1 == 16384 && image (sectionAt h 2) && image (sectionAt h 3)

/-- The 64 bytes of a digest. -/
def digest (l : List Byte) : List Byte := natBytes 64 (bytesNat (Config.sha3 l))

/-- The digest of the body. -/
def bodyDigest (b : Memory) : List Byte := digest (memBytes b 8192 (bundleLength (bundleHeader b) - 8192))

/-- The digest of a section. -/
def sectionDigest (b : Memory) (i : Nat) : List Byte :=
  let x := sectionAt (bundleHeader b) i
  digest (memBytes b x.2 x.1)

/-- Route entry e of the runner section, and the test of R402. -/
def bundleRoute (b : Memory) (e : Nat) : BitVec 32 :=
  BitVec.ofNat 32 (memNat b ((sectionAt (bundleHeader b) 1).2 + 4 * e) 4)

def routeEntryOk (e : BitVec 32) : Bool := bvf e 30 7 == 0 && !(e.getLsbD 31 && decide (16 ≤ bvf e 4 0))

/-- The code of the first test of R403 that fails; 0 none. -/
def checkCode (b : Memory) : Nat :=
  if !headerOk (bundleHeader b) then 1
  else if digest (memBytes b 64 2592) ≠ Config.fusedKeyHash then 2
  else if !Config.verifies (memBytes b 64 2592) (memBytes b 2656 4627) (bodyDigest b) then 3
  else if !(List.range 4096).all (fun e => routeEntryOk (bundleRoute b e)) then 7
  else 0

/-- BOOT_CHECK: the package number is latched, and the check begins (R400, R403) (DESIGN CHOICE, unsafe: notes/assumptions/67.md). -/
def execBootCheck (port : Fin 2) (s : State) : Host.Outcome State Fault Refusal :=
  if owns s port ∧ s.boot.phase = .openP then
    .next { s with boot := { s.boot with latched := if s.boot.pkgSet then s.boot.pkgNum else 0, phase := .checking } }
  else .next s

/-- The check ends: the tests of R403 decide, and a bundle that passes is copied into both base dies. -/
def endCheck (s : State) : State :=
  if s.boot.phase = .checking then
    let code := checkCode s.boot.buffer
    { s with boot := { s.boot with
      errCode := code
      errUnit := 0
      copies := if code = 0 then Vector.replicate 2 s.boot.buffer else s.boot.copies
      phase := if code = 0 then .starting else .failed } }
  else s

/-! ### Start-up (R402, R405) -/

/-- Record k of the stack parameters. -/
def stackRecord (b : Memory) (k : Nat) : BitVec 512 :=
  BitVec.ofNat 512 (memNat b ((sectionAt (bundleHeader b) 0).2 + 64 * k) 64)

def recInter (r : BitVec 512) : Nat := bvf r 10 0
def recRow (r : BitVec 512) : Nat := bvf r 26 16
def recPin (r : BitVec 512) : Nat := bvf r 42 32
def recReserve (r : BitVec 512) : Nat := bvf r 58 48

/-- Record k meets R402. -/
def stackRecordOk (b : Memory) (k : Nat) : Bool :=
  let r := stackRecord b k
  recInter r + recRow r + recPin r + recReserve r == 1024 && decide (4 ≤ recReserve r) &&
  recInter r == recInter (stackRecord b 0) && recRow r == recRow (stackRecord b (4 * (k / 4))) &&
  bvf r 511 59 == 0 && bvf r 47 43 == 0 && bvf r 31 27 == 0 && bvf r 15 11 == 0

/-- The pools that the parameters give. -/
def bundlePools (b : Memory) : Pools :=
  { inter := recInter (stackRecord b 0)
    row := #v[recRow (stackRecord b 0), recRow (stackRecord b 4), recRow (stackRecord b 8), recRow (stackRecord b 12)]
    pin := (Vector.replicate 16 0).mapIdx fun k _ => recPin (stackRecord b k)
    reserve := (Vector.replicate 16 0).mapIdx fun k _ => recReserve (stackRecord b k) }

/-- The package halts. -/
def haltBoot (s : State) (code unit : Nat) : State :=
  { s with boot := { s.boot with phase := .halted, errCode := code, errUnit := unit } }

/-- A die after start-up: ON at 800 MHz, with the image that its cupola runs; or GATED with StartFail. -/
def startDie (image : Memory) (fail : Bool) : Die :=
  if fail then { Die.reset with pow := .gated, startFail := true } else { Die.reset with cupola := image, cupolaRuns := true }

/-- The image of a section, as it stands in the instruction memory of the cores that run it, from address 0 (R402). -/
def imageOf (b : Memory) (i : Nat) : Memory :=
  let x := sectionAt (bundleHeader b) i
  memPutBytes [] 0 (memBytes b x.2 x.1)

/-- STARTUP: the steps of R405, in order; the standby tundish holds the image of the active one and runs it, too
(DEDUCED, unsafe: notes/assumptions/66.md). -/
def execStartup (o : StartOutcome) (s : State) : Host.Outcome State Fault Refusal :=
  let b := s.boot.copies[s.boot.owner]
  if s.boot.phase ≠ .starting then .next s
  else if o.noTundish then .next (haltBoot s 6 0)
  else match o.stackFail with
    | some k => .next (haltBoot s 4 k.val)
    | none => match (List.range 16).find? fun k => !stackRecordOk b k with
      | some k => .next (haltBoot s 5 k)
      | none =>
        .next { s with
          pools := bundlePools b
          dramBanks := []
          idleCredit := Vector.replicate 16 0
          route := (List.range 4096).filterMap fun e =>
            if bundleRoute b e = 0 then none else some (e, bundleRoute b e)
          linkFail := o.portFail
          linkDown := o.portFail
          dies := (Vector.replicate 8 Die.reset).mapIdx fun d _ => startDie (imageOf b 2) (o.dieFail.getLsbD d)
          boot := { s.boot with
            tundish := Vector.replicate 2 (imageOf b 3), tundishRuns := Vector.replicate 2 true, phase := .ready } }

/-! ### Attestation (R406, R407) -/

/-- ATTEST_REQUEST: ignored while a report is being formed. The port is served with the nonce that it has written. -/
def execAttestRequest (port : Fin 2) (s : State) : Host.Outcome State Fault Refusal :=
  if s.boot.powered = false ∨ (s.boot.attBusy = true ∧ s.boot.attDone = false) then .next s
  else .next { s with boot := { s.boot with
    attBusy := true, attDone := false, attPort := port, attNonce := s.boot.nonces[port] } }

/-- Bytes 0 to 479 of the report. -/
def reportBody (s : State) : List Byte :=
  let b := s.boot.buffer
  natBytes 8 (0x52414D4C + 2 ^ 32 + s.boot.latched.toNat * 2 ^ 40) ++ natBytes 8 Config.fuseId.toNat ++
    natBytes 64 s.boot.attNonce.toNat ++ bodyDigest b ++ sectionDigest b 3 ++ sectionDigest b 2 ++ sectionDigest b 1 ++
    sectionDigest b 0 ++ digest Config.identityKey ++ natBytes 8 s.clock ++ natBytes 8 0

/-- ATTEST_REPORT: the report stands at 0x20_4000, and ATTCTL bit 1 is set. -/
def execAttestReport (s : State) : Host.Outcome State Fault Refusal :=
  if s.boot.attBusy then
    let body := reportBody s
    .next { s with boot := { s.boot with
      attBusy := false, attDone := true
      report := body ++ natBytes 4627 (bytesNat (Config.identitySign (digest body))) } }
  else .next s

end Sys2Proof.Machine
end

