-- ==== Sys2Proof/Machine/FloatWords.lean ====
section
/-! DEFINITION. The meanings of the floating-point words (spec/05_register_float.md R128 to R142). -/

namespace Sys2Proof.Machine

def execFadd (na aa ab : Bool) (a b : Src) (d : Dst) (st : Stall) (s : State) :=
  regWord (.fadd na aa ab a b d st) latLong d [a, b] (fun _ => op2 (aluFadd false na aa ab)) s

def execFsub (na aa ab : Bool) (a b : Src) (d : Dst) (st : Stall) (s : State) :=
  regWord (.fsub na aa ab a b d st) latLong d [a, b] (fun _ => op2 (aluFadd true na aa ab)) s

def execFmul (neg aa ab : Bool) (a b : Src) (d : Dst) (st : Stall) (s : State) :=
  regWord (.fmul neg aa ab a b d st) latLong d [a, b] (fun _ => op2 (aluFmul neg aa ab)) s

def execFmin (a b : Src) (d : Dst) (st : Stall) (s : State) :=
  regWord (.fmin a b d st) latLong d [a, b] (fun _ => op2 aluFmin) s

def execFmax (a b : Src) (d : Dst) (st : Stall) (s : State) :=
  regWord (.fmax a b d st) latLong d [a, b] (fun _ => op2 aluFmax) s

def execFcmp (rel : FCmpRel) (a b : Src) (d : Dst) (st : Stall) (s : State) :=
  regWord (.fcmp rel a b d st) latLong d [a, b] (fun _ => op2 (aluFcmp rel)) s

def execFrcp (a : Src) (d : PDst) (st : Stall) (s : State) :=
  regWord (.frcp a d st) latFunc (.thread d) [a] (fun _ => op1 (aluFn .rcp)) s

def execFrsq (a : Src) (d : PDst) (st : Stall) (s : State) :=
  regWord (.frsq a d st) latFunc (.thread d) [a] (fun _ => op1 (aluFn .rsq)) s

def execFexp2 (a : Src) (d : PDst) (st : Stall) (s : State) :=
  regWord (.fexp2 a d st) latFunc (.thread d) [a] (fun _ => op1 (aluFn .exp2)) s

def execFlog2 (a : Src) (d : PDst) (st : Stall) (s : State) :=
  regWord (.flog2 a d st) latFunc (.thread d) [a] (fun _ => op1 (aluFn .log2)) s

def execFsin (a : Src) (d : PDst) (st : Stall) (s : State) :=
  regWord (.fsin a d st) latFunc (.thread d) [a] (fun _ => op1 (aluFn .sin)) s

def execFcos (a : Src) (d : PDst) (st : Stall) (s : State) :=
  regWord (.fcos a d st) latFunc (.thread d) [a] (fun _ => op1 (aluFn .cos)) s

def execFtanh (a : Src) (d : PDst) (st : Stall) (s : State) :=
  regWord (.ftanh a d st) latFunc (.thread d) [a] (fun _ => op1 (aluFn .tanh)) s

/-- `FCVT` (R139); under SR the partner is read as operand 1 (R58). -/
def execFcvt (src : CvtSrc) (dst : CvtDst) (rnd : RndCode) (a : Src) (d : Dst) (st : Stall) (s : State) :=
  regWord (.fcvt src dst rnd a d st) latLong d (if rnd.isSr then [a, srcPartner a] else [a])
    (fun _ => op2 fun x y => aluFcvt src dst rnd x (y.toNat % 2 ^ 32)) s

def execHadd2 (h : Bool) (a b : Src) (d : PDst) (st : Stall) (s : State) :=
  regWord (.hadd2 h a b d st) latLong (.thread d) [a, b] (fun _ => op2 (aluHpk FVal.add h)) s

def execHmul2 (h : Bool) (a b : Src) (d : PDst) (st : Stall) (s : State) :=
  regWord (.hmul2 h a b d st) latLong (.thread d) [a, b] (fun _ => op2 (aluHpk FVal.mul h)) s

def execHmax2 (h : Bool) (a b : Src) (d : PDst) (st : Stall) (s : State) :=
  regWord (.hmax2 h a b d st) latLong (.thread d) [a, b] (fun _ => op2 (aluHpk FVal.max h)) s

def execFfma (neg nc : Bool) (a b c : Src) (uni : Bool) (st : Stall) (s : State) :=
  regWord (.ffma neg nc a b c uni st) latLong (cDst c uni) [a, b, c] (fun _ => op3 (aluFfma neg nc)) s

def execHfma2 (h neg nc : Bool) (a b c : Src) (st : Stall) (s : State) :=
  regWord (.hfma2 h neg nc a b c st) latLong (cDst c false) [a, b, c] (fun _ => op3 (aluHfma2 h neg nc)) s

end Sys2Proof.Machine
end

