-- ==== Sys2Proof/Machine/Timer.lean ====
section
/-! DEFINITION. The end of a stall and the fairness timer (spec/01_words.md R25; spec/03_thread.md R76, R84). -/

namespace Sys2Proof.Machine

/-! ### STALL_EXPIRE -/

/-- STALL_EXPIRE: the stall count is spent, the next word has been fetched, and every source is available. -/
def execStallExpire (t : ThreadKey) (s : State) : Host.Outcome State Fault Refusal :=
  match threadOf s t with
  | none => .next s
  | some th =>
    if th.status = .live .stalled ∧ th.readyAt ≤ cycOf s th.place.core ∧ nextReady s t th = true then
      .next (modThread s t fun x => { x with status := .live .ready })
    else .next s

/-! ### FAIRNESS_TIMER -/

/-- F of the context of a core (R84, R347). -/
def fairness (s : State) (c : CoreId) : Nat :=
  let f := bvf (ctxOf s ((coreOf s c).ctx.getD 0)).live 393 378
  if f = 0 then 2048 else f

/-- The progress promise of a path: that of a kernel of its threads (R84, R297); the handler has no kernel header
(DEDUCED, unsafe: notes/assumptions/56.md). -/
def promised (s : State) (c : CoreId) (i : Fin 64) (k : PathKey) : Bool :=
  (slotThreads s c i).any fun t => ((threadOf s t).map pathKeyOf) == some k &&
    ((groupOfThread s t).map (·.hdr.promise)).getD true

/-- The count of a path. -/
def countOf (x : Slot) (k : PathKey) : Nat := (tget x.counts k).getD 0

/-- The paths of a slot whose count has reached F, the one served first in front. -/
def overdue (s : State) (c : CoreId) (i : Fin 64) : List PathKey :=
  let x := slotOf s c i
  sortBy (fun a b => decide (a.pc.toNat < b.pc.toNat) || (a.pc == b.pc && decide (pfxBits a.pfx < pfxBits b.pfx)))
    ((dedup (slotPaths s c i)).filter fun k => some k != x.leader && decide (fairness s c ≤ countOf x k) && promised s c i k)

/-- FAIRNESS_TIMER: the path becomes leader; the former leader's count starts at 0. -/
def execFairnessTimer (c : CoreId) (slot : Fin 64) (s : State) : Host.Outcome State Fault Refusal :=
  let x := slotOf s c slot
  match overdue s c slot with
  | [] => .next s
  | k :: _ =>
    if x.timed then .next s
    else
      .next (modSlot (setLeader s c slot (some k)) c slot fun y => { y with
        timed := true
        counts := match x.leader with
          | some o => tset y.counts o 0
          | none => y.counts })

end Sys2Proof.Machine
end

