-- ==== Sys2Proof/Machine/Dispatch.lean ====
section
/-! DEFINITION. The meaning of each instruction and event: one arm for each constructor of Instr. -/

namespace Sys2Proof.Machine

def exec (i : Instr) (s : State) : Host.Outcome State Fault Refusal :=
  match i with
  | .hintNop kind payload st => Sys2Proof.Machine.execHintNop kind payload st s
  | .hintYield payload st => Sys2Proof.Machine.execHintYield payload st s
  | .hintDead payload st => Sys2Proof.Machine.execHintDead payload st s
  | .hintPref payload st => Sys2Proof.Machine.execHintPref payload st s
  | .hintMod payload st => Sys2Proof.Machine.execHintMod payload st s
  | .hintDln payload st => Sys2Proof.Machine.execHintDln payload st s
  | .hintPhase payload st => Sys2Proof.Machine.execHintPhase payload st s
  | .lit value st => Sys2Proof.Machine.execLit value st s
  | .illegalWord word => Sys2Proof.Machine.execIllegalWord word s
  | .iadd n m a b d st => Sys2Proof.Machine.execIadd n m a b d st s
  | .isub n m a b d st => Sys2Proof.Machine.execIsub n m a b d st s
  | .imul n a b d st => Sys2Proof.Machine.execImul n a b d st s
  | .imulhS n a b d st => Sys2Proof.Machine.execImulhS n a b d st s
  | .imulhU n a b d st => Sys2Proof.Machine.execImulhU n a b d st s
  | .imin n uns a b d st => Sys2Proof.Machine.execImin n uns a b d st s
  | .imax n uns a b d st => Sys2Proof.Machine.execImax n uns a b d st s
  | .iabs n a d st => Sys2Proof.Machine.execIabs n a d st s
  | .andW a b d st => Sys2Proof.Machine.execAndW a b d st s
  | .orW a b d st => Sys2Proof.Machine.execOrW a b d st s
  | .xorW a b d st => Sys2Proof.Machine.execXorW a b d st s
  | .andn a b d st => Sys2Proof.Machine.execAndn a b d st s
  | .shl n a b d st => Sys2Proof.Machine.execShl n a b d st s
  | .shr n a b d st => Sys2Proof.Machine.execShr n a b d st s
  | .sar n a b d st => Sys2Proof.Machine.execSar n a b d st s
  | .rot n a b d st => Sys2Proof.Machine.execRot n a b d st s
  | .popc n a d st => Sys2Proof.Machine.execPopc n a d st s
  | .clz n a d st => Sys2Proof.Machine.execClz n a d st s
  | .brev n a d st => Sys2Proof.Machine.execBrev n a d st s
  | .bfe n a b d st => Sys2Proof.Machine.execBfe n a b d st s
  | .icmp n rel a b d st => Sys2Proof.Machine.execIcmp n rel a b d st s
  | .lea sh a b d st => Sys2Proof.Machine.execLea sh a b d st s
  | .mov a d st => Sys2Proof.Machine.execMov a d st s
  | .smov a d st => Sys2Proof.Machine.execSmov a d st s
  | .shfl a b d st => Sys2Proof.Machine.execShfl a b d st s
  | .grow t st => Sys2Proof.Machine.execGrow t st s
  | .growTry t d st => Sys2Proof.Machine.execGrowTry t d st s
  | .shrink t st => Sys2Proof.Machine.execShrink t st s
  | .imad n a b c uni st => Sys2Proof.Machine.execImad n a b c uni st s
  | .bfi n a b c uni st => Sys2Proof.Machine.execBfi n a b c uni st s
  | .sel a b c uni st => Sys2Proof.Machine.execSel a b c uni st s
  | .iaddi a d imm st => Sys2Proof.Machine.execIaddi a d imm st s
  | .andi a d imm st => Sys2Proof.Machine.execAndi a d imm st s
  | .ori a d imm st => Sys2Proof.Machine.execOri a d imm st s
  | .xori a d imm st => Sys2Proof.Machine.execXori a d imm st s
  | .shli a d imm st => Sys2Proof.Machine.execShli a d imm st s
  | .shri a d imm st => Sys2Proof.Machine.execShri a d imm st s
  | .sari a d imm st => Sys2Proof.Machine.execSari a d imm st s
  | .movi d imm st => Sys2Proof.Machine.execMovi d imm st s
  | .fadd na aa ab a b d st => Sys2Proof.Machine.execFadd na aa ab a b d st s
  | .fsub na aa ab a b d st => Sys2Proof.Machine.execFsub na aa ab a b d st s
  | .fmul neg aa ab a b d st => Sys2Proof.Machine.execFmul neg aa ab a b d st s
  | .fmin a b d st => Sys2Proof.Machine.execFmin a b d st s
  | .fmax a b d st => Sys2Proof.Machine.execFmax a b d st s
  | .fcmp rel a b d st => Sys2Proof.Machine.execFcmp rel a b d st s
  | .frcp a d st => Sys2Proof.Machine.execFrcp a d st s
  | .frsq a d st => Sys2Proof.Machine.execFrsq a d st s
  | .fexp2 a d st => Sys2Proof.Machine.execFexp2 a d st s
  | .flog2 a d st => Sys2Proof.Machine.execFlog2 a d st s
  | .fsin a d st => Sys2Proof.Machine.execFsin a d st s
  | .fcos a d st => Sys2Proof.Machine.execFcos a d st s
  | .ftanh a d st => Sys2Proof.Machine.execFtanh a d st s
  | .fcvt src dst rnd a d st => Sys2Proof.Machine.execFcvt src dst rnd a d st s
  | .hadd2 h a b d st => Sys2Proof.Machine.execHadd2 h a b d st s
  | .hmul2 h a b d st => Sys2Proof.Machine.execHmul2 h a b d st s
  | .hmax2 h a b d st => Sys2Proof.Machine.execHmax2 h a b d st s
  | .ffma neg nc a b c uni st => Sys2Proof.Machine.execFfma neg nc a b c uni st s
  | .hfma2 h neg nc a b c st => Sys2Proof.Machine.execHfma2 h neg nc a b c st s
  | .bra disp st => Sys2Proof.Machine.execBra disp st s
  | .bnz a disp st => Sys2Proof.Machine.execBnz a disp st s
  | .bz a disp st => Sys2Proof.Machine.execBz a disp st s
  | .call disp st => Sys2Proof.Machine.execCall disp st s
  | .jmpr a st => Sys2Proof.Machine.execJmpr a st s
  | .ret a st => Sys2Proof.Machine.execRet a st s
  | .join k st => Sys2Proof.Machine.execJoin k st s
  | .leave k st => Sys2Proof.Machine.execLeave k st s
  | .waitk k st => Sys2Proof.Machine.execWaitk k st s
  | .voteAll a k d st => Sys2Proof.Machine.execVoteAll a k d st s
  | .voteAny a k d st => Sys2Proof.Machine.execVoteAny a k d st s
  | .voteBal a k d st => Sys2Proof.Machine.execVoteBal a k d st s
  | .voteCnt a k d st => Sys2Proof.Machine.execVoteCnt a k d st s
  | .exit st => Sys2Proof.Machine.execExit st s
  | .tail st => Sys2Proof.Machine.execTail st s
  | .trap num st => Sys2Proof.Machine.execTrap num st s
  | .brk st => Sys2Proof.Machine.execBrk st s
  | .srd sp d st => Sys2Proof.Machine.execSrd sp d st s
  | .lds a d w off st => Sys2Proof.Machine.execLds a d w off st s
  | .sts a d w off st => Sys2Proof.Machine.execSts a d w off st s
  | .ld a d w off st => Sys2Proof.Machine.execLd a d w off st s
  | .store a d w off st => Sys2Proof.Machine.execStore a d w off st s
  | .cvec op long a b st => Sys2Proof.Machine.execCvec op long a b st s
  | .cred op a d st => Sys2Proof.Machine.execCred op a d st s
  | .credStat d st => Sys2Proof.Machine.execCredStat d st s
  | .csmx a b d st => Sys2Proof.Machine.execCsmx a b d st s
  | .ccvt a b st => Sys2Proof.Machine.execCcvt a b st s
  | .cqnt a b st => Sys2Proof.Machine.execCqnt a b st s
  | .catom op a b d st => Sys2Proof.Machine.execCatom op a b d st s
  | .ccas a b c st => Sys2Proof.Machine.execCcas a b c st s
  | .cwait st => Sys2Proof.Machine.execCwait st s
  | .cfence st => Sys2Proof.Machine.execCfence st s
  | .atom n op a b d st => Sys2Proof.Machine.execAtom n op a b d st s
  | .acas n a b c st => Sys2Proof.Machine.execAcas n a b c st s
  | .fence scope kind st => Sys2Proof.Machine.execFence scope kind st s
  | .waita a b c st => Sys2Proof.Machine.execWaita a b c st s
  | .copy a b d st => Sys2Proof.Machine.execCopy a b d st s
  | .gath a b d st => Sys2Proof.Machine.execGath a b d st s
  | .scat a b d st => Sys2Proof.Machine.execScat a b d st s
  | .stkred a b d st => Sys2Proof.Machine.execStkred a b d st s
  | .stkcvt a b d st => Sys2Proof.Machine.execStkcvt a b d st s
  | .cpwait a d st => Sys2Proof.Machine.execCpwait a d st s
  | .seal a b d st => Sys2Proof.Machine.execSeal a b d st s
  | .shape a b d st => Sys2Proof.Machine.execShape a b d st s
  | .mxld a b d st => Sys2Proof.Machine.execMxld a b d st s
  | .mxmm a b d st => Sys2Proof.Machine.execMxmm a b d st s
  | .mxsp a b sel st => Sys2Proof.Machine.execMxsp a b sel st s
  | .oprdy st => Sys2Proof.Machine.execOprdy st s
  | .mxwait a d st => Sys2Proof.Machine.execMxwait a d st s
  | .acz a b d st => Sys2Proof.Machine.execAcz a b d st s
  | .acld a b d st => Sys2Proof.Machine.execAcld a b d st s
  | .acst a b d st => Sys2Proof.Machine.execAcst a b d st s
  | .binit a b st => Sys2Proof.Machine.execBinit a b st s
  | .barr a d st => Sys2Proof.Machine.execBarr a d st s
  | .barrx a b d st => Sys2Proof.Machine.execBarrx a b d st s
  | .bwait a b d st => Sys2Proof.Machine.execBwait a b d st s
  | .bxin a b st => Sys2Proof.Machine.execBxin a b st s
  | .bxout a b st => Sys2Proof.Machine.execBxout a b st s
  | .go a d st => Sys2Proof.Machine.execGo a d st s
  | .homeW st => Sys2Proof.Machine.execHomeW st s
  | .whereW a d st => Sys2Proof.Machine.execWhereW a d st s
  | .qpost a b d st => Sys2Proof.Machine.execQpost a b d st s
  | .evsig a b st => Sys2Proof.Machine.execEvsig a b st s
  | .sig a st => Sys2Proof.Machine.execSig a st s
  | .crit a d st => Sys2Proof.Machine.execCrit a d st s
  | .mhint a b d st => Sys2Proof.Machine.execMhint a b d st s
  | .tret st => Sys2Proof.Machine.execTret st s
  | .trd a d st => Sys2Proof.Machine.execTrd a d st s
  | .twr a b st => Sys2Proof.Machine.execTwr a b st s
  | .tres a d st => Sys2Proof.Machine.execTres a d st s
  | .tstop a d st => Sys2Proof.Machine.execTstop a d st s
  | .tkill a d st => Sys2Proof.Machine.execTkill a d st s
  | .pinv a b st => Sys2Proof.Machine.execPinv a b st s
  | .stallExpire t => Sys2Proof.Machine.execStallExpire t s
  | .resultReturn op => Sys2Proof.Machine.execResultReturn op s
  | .fairnessTimer c slot => Sys2Proof.Machine.execFairnessTimer c slot s
  | .maskRelease gid hwarp k => Sys2Proof.Machine.execMaskRelease gid hwarp k s
  | .growGrant gid hwarp => Sys2Proof.Machine.execGrowGrant gid hwarp s
  | .bankServe c bank => Sys2Proof.Machine.execBankServe c bank s
  | .linePresent op line => Sys2Proof.Machine.execLinePresent op line s
  | .storeDrain c slot => Sys2Proof.Machine.execStoreDrain c slot s
  | .l2Eviction d line => Sys2Proof.Machine.execL2Eviction d line s
  | .watchDeadline watch => Sys2Proof.Machine.execWatchDeadline watch s
  | .watchWake d slice => Sys2Proof.Machine.execWatchWake d slice s
  | .transferFlight op => Sys2Proof.Machine.execTransferFlight op s
  | .transferDone op => Sys2Proof.Machine.execTransferDone op s
  | .transferFault op => Sys2Proof.Machine.execTransferFault op s
  | .engineDecrement op inB outB => Sys2Proof.Machine.execEngineDecrement op inB outB s
  | .tileFlight op => Sys2Proof.Machine.execTileFlight op s
  | .tileDone op => Sys2Proof.Machine.execTileDone op s
  | .tileFault op => Sys2Proof.Machine.execTileFault op s
  | .stackLanding packet => Sys2Proof.Machine.execStackLanding packet s
  | .runnerMerge p1 p2 => Sys2Proof.Machine.execRunnerMerge p1 p2 s
  | .ladleDeparture t => Sys2Proof.Machine.execLadleDeparture t s
  | .ladleLanding t => Sys2Proof.Machine.execLadleLanding t s
  | .ladleRefusal t => Sys2Proof.Machine.execLadleRefusal t s
  | .ladleReturn t => Sys2Proof.Machine.execLadleReturn t s
  | .recall t => Sys2Proof.Machine.execRecall t s
  | .endNotice t => Sys2Proof.Machine.execEndNotice t s
  | .guestReport d => Sys2Proof.Machine.execGuestReport d s
  | .parkSave gid => Sys2Proof.Machine.execParkSave gid s
  | .compactionSave gid => Sys2Proof.Machine.execCompactionSave gid s
  | .relaunch gid => Sys2Proof.Machine.execRelaunch gid s
  | .doze c => Sys2Proof.Machine.execDoze c s
  | .coreWake c => Sys2Proof.Machine.execCoreWake c s
  | .critBudgetExpire gid => Sys2Proof.Machine.execCritBudgetExpire gid s
  | .preemptRecognise gid => Sys2Proof.Machine.execPreemptRecognise gid s
  | .preemptSave gang => Sys2Proof.Machine.execPreemptSave gang s
  | .bind gid => Sys2Proof.Machine.execBind gid s
  | .contextLoad c ctx => Sys2Proof.Machine.execContextLoad c ctx s
  | .groupRetire gid => Sys2Proof.Machine.execGroupRetire gid s
  | .gangHandout => Sys2Proof.Machine.execGangHandout s
  | .latencyBoundExpire q => Sys2Proof.Machine.execLatencyBoundExpire q s
  | .launchComplete q launch => Sys2Proof.Machine.execLaunchComplete q launch s
  | .eventPoll => Sys2Proof.Machine.execEventPoll s
  | .launchSubmit port q off data => Sys2Proof.Machine.execLaunchSubmit port q off data s
  | .eventWindowWrite port tenant off data => Sys2Proof.Machine.execEventWindowWrite port tenant off data s
  | .queueDrain q => Sys2Proof.Machine.execQueueDrain q s
  | .queueSuspend q => Sys2Proof.Machine.execQueueSuspend q s
  | .queueResume q => Sys2Proof.Machine.execQueueResume q s
  | .queueClear q => Sys2Proof.Machine.execQueueClear q s
  | .queueCreate q ctx => Sys2Proof.Machine.execQueueCreate q ctx s
  | .queueRebind q ctx => Sys2Proof.Machine.execQueueRebind q ctx s
  | .queueRemove q => Sys2Proof.Machine.execQueueRemove q s
  | .vlogAck tenant value => Sys2Proof.Machine.execVlogAck tenant value s
  | .cxCreate ctx => Sys2Proof.Machine.execCxCreate ctx s
  | .cxDestroy ctx => Sys2Proof.Machine.execCxDestroy ctx s
  | .cxSetDieMask ctx mask => Sys2Proof.Machine.execCxSetDieMask ctx mask s
  | .cxHandlerRestart ctx => Sys2Proof.Machine.execCxHandlerRestart ctx s
  | .cxCommandDone ctx => Sys2Proof.Machine.execCxCommandDone ctx s
  | .handlerLimit c => Sys2Proof.Machine.execHandlerLimit c s
  | .dieLoss d => Sys2Proof.Machine.execDieLoss d s
  | .carveAssign d u ctx => Sys2Proof.Machine.execCarveAssign d u ctx s
  | .carveRelease d u => Sys2Proof.Machine.execCarveRelease d u s
  | .dieReqOn d req => Sys2Proof.Machine.execDieReqOn d req s
  | .dieReqNt d req => Sys2Proof.Machine.execDieReqNt d req s
  | .dieReqGated d => Sys2Proof.Machine.execDieReqGated d s
  | .diePowerDone d => Sys2Proof.Machine.execDiePowerDone d s
  | .dramGrant stack pch => Sys2Proof.Machine.execDramGrant stack pch s
  | .refreshDue stack pch bank => Sys2Proof.Machine.execRefreshDue stack pch bank s
  | .earlyRefresh stack pch bank => Sys2Proof.Machine.execEarlyRefresh stack pch bank s
  | .phaseExpire stack c => Sys2Proof.Machine.execPhaseExpire stack c s
  | .missNotice n => Sys2Proof.Machine.execMissNotice n s
  | .hostRead port tenant off len => Sys2Proof.Machine.execHostRead port tenant off len s
  | .hostWrite port tenant off data => Sys2Proof.Machine.execHostWrite port tenant off data s
  | .hostAtomic port tenant off op x y => Sys2Proof.Machine.execHostAtomic port tenant off op x y s
  | .functionLevelReset port vf => Sys2Proof.Machine.execFunctionLevelReset port vf s
  | .linkReplay link => Sys2Proof.Machine.execLinkReplay link s
  | .linkFail stack k => Sys2Proof.Machine.execLinkFail stack k s
  | .linkRetrain stack k => Sys2Proof.Machine.execLinkRetrain stack k s
  | .powerOn => Sys2Proof.Machine.execPowerOn s
  | .bootClaim port => Sys2Proof.Machine.execBootClaim port s
  | .bootCheck port => Sys2Proof.Machine.execBootCheck port s
  | .bootRestart port => Sys2Proof.Machine.execBootRestart port s
  | .pkgnumWrite port num => Sys2Proof.Machine.execPkgnumWrite port num s
  | .startup o => Sys2Proof.Machine.execStartup o s
  | .attestRequest port => Sys2Proof.Machine.execAttestRequest port s
  | .attestReport => Sys2Proof.Machine.execAttestReport s
  | .registerWrite port off value => Sys2Proof.Machine.execRegisterWrite port off value s
  | .instructionFetchReturn t => Sys2Proof.Machine.execInstructionFetchReturn t s
  | .carveUnitDone d u => Sys2Proof.Machine.execCarveUnitDone d u s
  | .offPackageRequest stack k pa len op => Sys2Proof.Machine.execOffPackageRequest stack k pa len op s
  | .tokenBucketRefill port fn out => Sys2Proof.Machine.execTokenBucketRefill port fn out s
  | .powerOff => Sys2Proof.Machine.execPowerOff s
  | .msixVectorUnmask port vf vec => Sys2Proof.Machine.execMsixVectorUnmask port vf vec s

end Sys2Proof.Machine
end

