-- ==== Sys2Proof/Machine/Sched.lean ====
section
/-! DEFINITION. One fabric cycle (spec/00_scope.md R8, R9): what falls due, and the counts that a cycle advances; and the acts
of agents that have no row. -/

namespace Sys2Proof.Machine

/-- The state after an event of the device. -/
def after (o : Host.Outcome State Fault Refusal) (s : State) : State :=
  match o with
  | .next x => x
  | _ => s

/-- One event for each element of a list. -/
def eachDue {α : Type} (l : List α) (f : α → State → Host.Outcome State Fault Refusal) (s : State) : State :=
  l.foldl (fun a x => after (f x a) a) s

/-- What a move leaves to be done at once: the ends of CWAIT (R167), the grants of R110, the leaders of R80, and who is Ready (R75). -/
def settled (s : State) : State := settleAll (grantGrows (recogniseAll (noteGens (settleCrucible s))))

/-- Every mask whose release is due (R89). -/
def dueMasks (s : State) : State :=
  s.warps.foldl (fun a e => match e.1 with
    | .home g h => eachDue (List.finRange 12) (execMaskRelease g h) a
    | .handler _ => a) s

/-- The deadlines, limits, bounds and polls that have come, and what the cycle makes due. -/
def dueEvents (s : State) : State :=
  let s0 := eachDue (tkeys s.threads fun _ th => th.status == .live .stalled) execStallExpire (dueMasks s)
  let s1 := eachDue (usedSlots s0) (fun x => execFairnessTimer x.1 x.2) s0
  let s2 := eachDue (s1.watches.map (·.1)) execWatchDeadline s1
  let s3 := eachDue (s2.cores.map (·.1)) execHandlerLimit s2
  let s4 := eachDue (s3.groups.map (·.1)) execParkSave s3
  let s5 := eachDue s4.phases (fun e => execPhaseExpire e.stack e.core) s4
  let s6 := eachDue (s5.dramBanks.map (·.1)) (fun k => execRefreshDue k.1 k.2.1 k.2.2)
    (eachDue (s5.dramBanks.map (·.1)) (fun k => execEarlyRefresh k.1 k.2.1 k.2.2) (idleRefresh s5))
  let s7 := after (execEventPoll s6) s6
  let s8 := eachDue ((List.finRange 8).filter fun d => decide ((dieOf s7 d).reportAt + 256 ≤ s7.clock)) execGuestReport s7
  let s9 := startWaits (eachDue (s8.queues.map (·.1)) execLatencyBoundExpire s8)
  eachDue ((s9.cores.filter fun e => !e.2.dozing).map (·.1)) execDoze s9

/-- The fairness counts of a slot after a cycle (R84): every path but the leader, where the promise is on. Paths that merge go on
with the count of the path that stood at that PC and prefix state (DESIGN CHOICE, unsafe: notes/assumptions/91.md). -/
def countPaths (s : State) (c : CoreId) (i : Fin 64) : State :=
  let x := slotOf s c i
  let ks := (dedup (slotPaths s c i)).filter fun k => some k != x.leader
  modSlot s c i fun y => { y with counts := ks.map fun k =>
    (k, if promised s c i k then countOf x k + 1 else countOf x k) }

/-- The masks of a die whose condition held at the end of the cycle before (R89). -/
def dieMasks (s : State) (d : Fin 8) : State :=
  s.warps.foldl (fun a e => match e.1 with
    | .home g _ => if ((groupOf s g).map (·.core.die)) = some d then noteMasks a e.1 else a
    | .handler _ => a) s

/-- R9: a cycle spent in doze spends no stall count. -/
def holdStalls (s : State) (d : Fin 8) : State :=
  { s with threads := s.threads.map fun e =>
      if e.2.place.core.die = d ∧ (coreOf s e.2.place.core).dozing = true ∧ cycOf s e.2.place.core ≤ e.2.readyAt then
        (e.1, { e.2 with readyAt := e.2.readyAt + 1 }) else e }

/-- What one clock cycle of a die advances (R9): the counts of the cores that run, park counts, critical budgets and handler
invocations. -/
def dieCycle (s : State) (d : Fin 8) : State :=
  let on (c : CoreId) : Bool := decide (c.die = d) && !(coreOf s c).dozing
  let s0 := holdStalls (dieMasks s d) d
  let s1 := ((usedSlots s0).filter fun x => on x.1).foldl (fun a x => countPaths a x.1 x.2) s0
  let s2 := ((s.groups.filter fun e => on e.2.core && e.2.isResident).map (·.1)).foldl (fun a g =>
    match groupOf s g with
    | none => a
    | some x =>
      let a1 := modGroup a g fun y => { y with
        parkCount := if dozeMode s x.ctx then 0 else if allWaiting s g then y.parkCount + 1 else 0 }
      if bgRuns s g x then
        (if x.bg = 1 then after (execCritBudgetExpire g a1) a1 else modGroup a1 g fun y => { y with bg := y.bg - 1 })
      else a1) s1
  { s2 with cores := s2.cores.map fun e => match e.2.handler with
      | some h => if e.1.die = d then (e.1, { e.2 with handler := some ⟨h.cycles + 1⟩ }) else e
      | none => e }

/-- A die's clock after one fabric cycle: 25-MHz parts of 1.6 GHz. -/
def tickDie (s : State) (d : Fin 8) : State :=
  let x := dieOf s d
  if x.pow = .gated ∨ x.lost = true then s
  else if x.frac + 8 + x.step < 64 then modDie s d fun y => { y with frac := y.frac + 8 + y.step }
  else dieCycle (modDie s d fun y => { y with frac := y.frac + 8 + y.step - 64, cyc := y.cyc + 1 }) d

/-- One fabric cycle. Delays that no state shows are left out (DESIGN CHOICE, unsafe: notes/assumptions/84.md). -/
def tickCycle (s : State) : State :=
  let s1 := settled (dueEvents s)
  recogniseAll ((List.finRange 8).foldl tickDie { s1 with clock := s1.clock + 1 })

/-- A move that has no row (DESIGN CHOICE, safe: notes/assumptions/80.md). -/
def otherMove (m : Move) (s : State) : State :=
  match m with
  | .l1Drop c line =>
    let rank (ln : Nat) : Nat := (tget (coreOf s c).l1Rank ln).getD 2
    if (coreOf s c).l1.all fun e => decide (rank line ≤ rank e.1) then modCore s c fun k => { k with l1 := tdel k.l1 line } else s
  | .icacheDrop c pa => modCore s c fun k => { k with icache := tdel k.icache pa }
  | .tlbDrop d core i => dropTlb s d core i
  | .element op i => if ((tget s.engs op).map (·.kind.isTile)).getD false then operandMove s op i else elementMove s op i
  | .outsideWrite port bus data => { s with mem := memPutBytes s.mem (hostKey port bus.toNat) data }
  | .coreWant c now =>
    let s1 := modCore s c fun k => { k with wanted := true }
    if now then requestPreempt s1 (ladleGangs s c) else s1
  | .vectorMask port fn vec => if s.boot.phase ≠ .ready then s else
    let m := (tget s.msix (port, fn.val)).getD Msix.reset
    { s with msix := tset s.msix (port, fn.val) { m with masked := m.masked ||| (1 <<< vec.val) } }
  | .farPort num valid ts atomics =>
    let x : FarPort := ⟨((tget s.farPorts num.toNat).map (·.windows)).getD (Vector.replicate 16 0), ts, atomics⟩
    { s with farPorts := if valid then tset s.farPorts num.toNat x else tdel s.farPorts num.toNat }
  | .farWindow num i w =>
    { s with farPorts := tmod s.farPorts num.toNat fun x => { x with windows := x.windows.set i w } }
  | .hostCaps port atomics prefixes => modPort s port fun x => { x with atomics := atomics, prefixes := prefixes }
  | .barSize port fn log =>
    if 26 ≤ log ∧ log ≤ 40 then modPort s port fun x => { x with bar2 := tset x.bar2 fn log } else s
  | .hostPiece id i => acceptPiece id i s
  | .romCheck => endCheck s
  | .queueOverflow stack byte => overflowTraffic s stack byte
  | _ => s

end Sys2Proof.Machine
end

