-- ==== Sys2Proof/Machine/Step.lean ====
section
/-! DEFINITION. One step of the package: the next move, performed. -/

namespace Sys2Proof.Machine

/-- A state function applied to the next state of an outcome. -/
def onNext (f : State → State) : Host.Outcome State Fault Refusal → Host.Outcome State Fault Refusal
  | .next s => .next (f s)
  | .fault e => .fault e
  | .refused e => .refused e

/-- A quarter's former issues one word. -/
def issueMove (c : CoreId) (q : Fin 4) (s : State) : Host.Outcome State Fault Refusal :=
  match formed exec s c q with
  | .none s1 => .next (settled s1)
  | .fetchFault s1 => .next (settled s1)
  | .word i k ts slots s1 => onNext (fun x => settled (afterIssue x c k ts slots)) (exec i s1)

/-- A move. -/
def perform (m : Move) (s : State) : Host.Outcome State Fault Refusal :=
  match m with
  | .issue c q => issueMove c q s
  | .event i => if (encode i).isNone then onNext settled (exec i s) else .next s
  | .tick => .next (tickCycle s)
  | m => .next (settled (otherMove m s))

/-- One step: the head of the agenda, else the free choice of R28. -/
def step (s : State) : Host.Outcome State Fault Refusal :=
  match s.agenda with
  | m :: rest => perform m { s with agenda := rest }
  | [] => perform (Config.nextMove s.moveCount) { s with moveCount := s.moveCount + 1 }

/-! ### The load that the host's checks stand for (notes/assumptions/5.md) -/

/-- The thread that runs the loaded word: at 0x80, in slot 0 of core 0 of D0. -/
def loadedThread : Thread := freshThread 0x80 ⟨⟨0, 0⟩, 0, 0⟩

/-- Its context: the root table stands at physical address 0x1_0000. -/
def loadedContext : Context := { Context.none with exists? := true, live := BitVec.ofNat 512 (8 * 2 ^ 469), dieMask := 1 }

/-- Its group: one home warp with 32 named registers. -/
def loadedGroup : Group :=
  { ctx := 0, tenant := 0, launch := 0, gang := 0, group := 0, gangKey := 0
    hdr := { Header.zero with namedM1 := 3, scrUnits := 1, accRows := 32 }
    hdrVa := 0, core := ⟨0, 0⟩, quarter := 0, slotMask := 1, scrBase := 0, accBase := 0, wslots := 3, image := 0
    phase := .resident, scratch := [], cstat := 0, acc := [], ws := Vector.replicate 2 WeightSlot.empty, shape := (0, 0)
    token := 1, statuses := [], dues := [], bg := 0, parkCount := 0, recognised := false
    queued := false, gens := [], bindAt := 0 }

/-- A page of 64 GiB maps virtual to physical addresses from 0 on, with every right: the table at 0x1_0000 leads to the leaf
at 0x1_2000. -/
def loadedTables (m : Memory) : Memory := memPut (memPut m 0x10000 8 0x12001) 0x12000 8 0x7B

/-- A word of the table, stored where the thread that the next step issues fetches it. The machine loads its programs through
a bundle, a context and a launch; this stands for that load (DESIGN CHOICE, unsafe: notes/assumptions/5.md). -/
def State.withFetchWord (s : State) (_nbits w : Nat) : State :=
  { s with
    agenda := [.issue ⟨0, 0⟩ 0]
    mem := loadedTables (memPut s.mem 0x80 4 w)
    pools := { s.pools with inter := 1 }
    boot := { s.boot with phase := .ready }
    tenants := tset s.tenants 0 { tenantOf s 0 with
      entry := (tenantOf s 0).entry ||| BitVec.ofNat 1024 (2 ^ 1023 + 2 ^ 63 + 15 * 2 ^ 32) }
    contexts := tset s.contexts 0 loadedContext
    cores := tset s.cores ⟨0, 0⟩ { Core.idle with ctx := some 0 }
    slots := tset s.slots (⟨0, 0⟩, 0) { Slot.idle with leader := some ⟨0x80, Pfx.empty⟩ }
    groups := tset s.groups 0 loadedGroup
    warps := tset s.warps (.home 0 0) ⟨Vector.replicate 16 RCell.zero, Vector.replicate 12 0, 32, 0, 0, 0⟩
    threads := tset s.threads (.home 0 0 0) loadedThread }

end Sys2Proof.Machine
end

