-- ==== Sys2Proof/Safety.lean ====
section
/-! DEFINITION. What the statements speak of: a safe run, an issue group that may issue a word, what a word leaves behind
when it goes on, and what stays as it was. -/

namespace Sys2Proof.Machine

/-- An outcome that goes on. -/
def Goes (o : Host.Outcome State Fault Refusal) : Prop := ∃ s, o = .next s

/-- A run of n steps goes on. -/
def SafeRun : Nat → State → Prop
  | 0, _ => True
  | n + 1, s => ∃ t, step s = .next t ∧ SafeRun n t

/-! ### Issue -/

/-- The issue group may issue a word: it is not empty and names no thread twice; every thread of it is Ready and is not
being stepped (R356), is at home where the word is carried home (R299), has every source available (R79), and passes the
checks of R45. -/
def issuable (i : Instr) (s : State) : Bool :=
  let sh := instrShape i
  !s.focus.threads.isEmpty && decide s.focus.threads.Nodup &&
  s.focus.threads.all fun t =>
    ((threadOf s t).map fun th => th.status == .live .ready && th.step == .off).getD false &&
    !(sh.carry && isAway s t) && srcsReady s t sh && (issueCause s t sh).isNone

/-- The die cycle of the issuing core. -/
def now (s : State) : Nat := cycOf s s.focus.core

/-- The cell of q_k (R102). -/
def Regs.qcell (r : Regs) (k : Fin 16) : RCell := r.slots[r.qslot k]

/-- R20, R21: a value has gone to a destination. It stands in q0 and the other values are one age older; a named
destination holds it too, and no other named register has changed. An early read may find what the slot and the register held
before (R26). -/
def Gave (r r' : Regs) (d : PDst) (v : Word) (due : Nat) (pend : Option Nat) : Prop :=
  r'.qcell 0 = ⟨v, (r.qcell 15).held, due, pend⟩ ∧ (∀ k : Fin 16, k ≠ 15 → r'.qcell (k + 1) = r.qcell k) ∧
  match d with
  | .push => r'.named = r.named
  | .named i => r'.named[i] = ⟨v, r.named[i].held, due, pend⟩ ∧ ∀ j : Fin 32, j ≠ i → r'.named[j] = r.named[j]

/-- A thread that has issued a word (R25, R29, R32): it goes on at `pc` with an empty prefix state, `st` cycles later, with
registers `r`. -/
def issued (cyc : Nat) (st : Stall) (pc : Word) (r : Regs) (th : Thread) : Thread :=
  { th with pc := pc, pfx := Pfx.empty, readyAt := cyc + st.val + 1, regs := r, oprdy := none
            status := if st.val = 0 then .live .ready else .live .stalled }

/-- The frame of a word that changes threads and warps only: no other thread, nothing else of the package, and no byte of
memory. -/
def OnlyThreads (s s' : State) : Prop :=
  (∀ t, t ∉ s.focus.threads → threadOf s' t = threadOf s t) ∧ (∀ a, memByte s'.mem a = memByte s.mem a) ∧
  s' = { s with threads := s'.threads, warps := s'.warps, freeCount := s.freeCount + 1 }

/-- What a register word answers: each thread's own result, or under W = 1 one result for each home warp in a w register;
the result is certain `lat` die cycles later (R20 to R28). -/
def RegDone (s s' : State) (st : Stall) (lat : Nat) (d : Dst) (val : ThreadKey → Word) (uval : WarpKey → Word) : Prop :=
  (∀ t ∈ s.focus.threads, ∀ th, threadOf s t = some th → ∃ r,
    threadOf s' t = some (issued (now s) st (th.pc + 4) r th) ∧
    match d with
    | .thread p => Gave th.regs r p (val t) (now s + lat) none
    | .uni _ => r = th.regs) ∧
  (match d with
    | .thread _ => s'.warps = s.warps
    | .uni k => ∀ w, tget s'.warps w =
        if w ∈ s.focus.threads.map warpKeyOf then
          (tget s.warps w).map fun x => { x with w := x.w.set k ⟨uval w, x.w[k].held, now s + lat, none⟩ }
        else tget s.warps w) ∧
  OnlyThreads s s'

end Sys2Proof.Machine
end

