-- ==== Sys2Proof/Rules.lean ====
section
/-! DEFINITION. The formulas of the rules as the statements give them: the arithmetic of spec/04_register.md on bit vectors
and integers, and the forms of a statement about a word. -/

open Classical

namespace Sys2Proof.Machine

/-! ### What every reachable state has -/

/-- No thread stands twice in the table of threads, and no gang twice in the table of gangs. -/
def KeysOnce (s : State) : Prop := (s.threads.map (·.1)).Nodup ∧ (s.gangs.map (·.1)).Nodup

/-! ### The forms of a statement -/

/-- The W = 1 value of a word is computed for each home warp with the prefix state of the path. -/
def pathPfx (s : State) : Pfx := ((s.focus.threads.head?).map (pfxOf s)).getD Pfx.empty

/-- A register word without a source: whenever its issue group may issue it, it goes on, with the stated result. -/
def Word0 (i : Instr) (st : Stall) (lat : Nat) (d : Dst) (f : Pfx → Word) : Prop :=
  ∀ s, issuable i s = true → ∃ s', exec i s = .next s' ∧
    RegDone s s' st lat d (fun t => f (pfxOf s t)) (fun _ => f (pathPfx s))

/-- A register word of one source. -/
def Word1 (i : Instr) (st : Stall) (lat : Nat) (d : Dst) (a : Src) (f : Pfx → Word → Word) : Prop :=
  ∀ s, issuable i s = true → ∃ s', exec i s = .next s' ∧
    RegDone s s' st lat d (fun t => f (pfxOf s t) (readSrc s t 0 a)) (fun w => f (pathPfx s) (readUni s w 0 a))

/-- A register word of two sources. -/
def Word2 (i : Instr) (st : Stall) (lat : Nat) (d : Dst) (a b : Src) (f : Word → Word → Word) : Prop :=
  ∀ s, issuable i s = true → ∃ s', exec i s = .next s' ∧
    RegDone s s' st lat d (fun t => f (readSrc s t 0 a) (readSrc s t 1 b)) (fun w => f (readUni s w 0 a) (readUni s w 1 b))

/-- A register word of three sources. -/
def Word3 (i : Instr) (st : Stall) (lat : Nat) (d : Dst) (a b c : Src) (f : Word → Word → Word → Word) : Prop :=
  ∀ s, issuable i s = true → ∃ s', exec i s = .next s' ∧
    RegDone s s' st lat d (fun t => f (readSrc s t 0 a) (readSrc s t 1 b) (readSrc s t 2 c))
      (fun w => f (readUni s w 0 a) (readUni s w 1 b) (readUni s w 2 c))

/-- R22: a format F word sends its result to c where c is a named register, to q0 alone where c is a q code, and under W = 1
to the w register of c. -/
def dstOfC (c : Src) (uni : Bool) : Dst :=
  match c with
  | .n k => .thread (.named k)
  | .q _ => .thread .push
  | .w k => if uni then .uni k else .thread .push

/-- The threads of the issue group become what `f` says, and no other thread changes. -/
def ThreadsBecome (s s' : State) (f : ThreadKey → Thread → Thread) : Prop :=
  ∀ t, threadOf s' t = if t ∈ s.focus.threads then (threadOf s t).map (f t) else threadOf s t

/-- The rest of the package: nothing but threads has changed, and no byte of memory. -/
def OnlyThreadsChange (s s' : State) : Prop :=
  (∀ a, memByte s'.mem a = memByte s.mem a) ∧ s' = { s with threads := s'.threads, freeCount := s.freeCount + 1 }

/-- A word that changes threads only: whenever its issue group may issue it, each thread of it becomes what `f` says. -/
def ThreadWord (i : Instr) (f : State → ThreadKey → Thread → Thread) : Prop :=
  ∀ s, issuable i s = true → ∃ s', exec i s = .next s' ∧ ThreadsBecome s s' (f s) ∧ OnlyThreadsChange s s'

/-- A thread that has issued a hint or LIT: it goes on with a prefix state of its own (R29, R32). -/
def hinted (cyc : Nat) (st : Stall) (p : Pfx) (th : Thread) : Thread := { issued cyc st (th.pc + 4) th.regs th with pfx := p }

/-- The target of a format B word: 4 times the displacement, from the next word (R17, R91). -/
def branchRule (pc : Word) (disp : BitVec 17) : Word := pc + 4 + (disp.signExtend 64 <<< 2)

/-- An address in canonical form, and a multiple of 4 (R92). -/
def jumpable (v : Word) : Bool := v.extractLsb 1 0 == 0 && canonical v.toNat

/-! ### Taking an exception (R351 to R353) -/

/-- A fault of a thread is a first one: the thread has no entry, or one that is resolved (R351, R356; log 103). -/
def firstFault (th : Thread) : Bool := th.entry.isNone || th.res != .none

/-- The entry of a thread once faults have been taken: its own cause on a first fault, the first one with Again on a second,
and Seen where a handler invocation starts. -/
def entryAfter (starts : Bool) (f : Option FaultRec) (th : Thread) : Option Entry :=
  let e := match f with
    | none => th.entry
    | some f => if firstFault th then some ⟨f.cause, f.pc, f.detail, f.addr, false, false⟩
      else th.entry.map fun x => { x with again := true }
  if starts then e.map fun x => { x with seen := true } else e

/-- The threads of a core once faults have been taken there: every live thread of its home and guest slots is Stopped; a
faulting thread has its entry, and after a TRAP it resumes behind it. -/
def trappedThread (c : CoreId) (starts : Bool) (f : Option FaultRec) (th : Thread) : Thread :=
  { th with
    status := match th.status with
      | .live l => if th.place.core = c then .stopped l else .live l
      | x => x
    pc := match f with
      | some r => if firstFault th ∧ r.cause = .trap then r.pc else th.pc
      | none => th.pc
    res := if f.isSome ∧ firstFault th then .none else th.res
    entry := entryAfter (starts && decide (th.place.core = c)) f th }

/-- What taking faults of home threads or ladles leaves behind: the core is stopped; a handler invocation starts unless the core
was already stopped or a handler runs, with 32 threads Ready at HandlerPc in slot 63 that read zeros but for w0, which holds the
slots with an unresolved entry; every other thread of the core stops; nothing else changes but what the faults logged (`s0`). -/
def Trapped (s0 s' : State) (c : CoreId) (fs : List FaultRec) : Prop :=
  let starts := !(coreOf s0 c).stopped && (coreOf s0 c).handler.isNone
  coreOf s' c = { coreOf s0 c with
    stopped := true
    handler := if starts then some ⟨0⟩ else (coreOf s0 c).handler
    dozing := if starts then false else (coreOf s0 c).dozing } ∧
  (∀ k, k ≠ c → coreOf s' k = coreOf s0 k) ∧
  (∀ t, t.isHandler = false →
    threadOf s' t = (threadOf s0 t).map (trappedThread c starts (fs.find? fun f => f.thread = t))) ∧
  (∀ k l, threadOf s' (.handler k l) = if starts ∧ k = c then
      some (handlerThread (handlerPc s0 ((coreOf s0 c).ctx.getD 0)) c l) else threadOf s0 (.handler k l)) ∧
  (∀ w, w ≠ .handler c → tget s'.warps w = tget s0.warps w) ∧
  (∀ k i, (k, i) ≠ (c, 63) → slotOf s' k i = slotOf s0 k i) ∧
  (starts = true → ∃ w, tget s'.warps (.handler c) = some w ∧ w.count = 8 ∧ (∀ i : Fin 16, i ≠ 0 → w.w[i] = RCell.zero) ∧
    ∀ i : Fin 64, w.w[0].val.getLsbD i = true ↔ ∃ e ∈ s'.threads, e.1.isHandler = false ∧ e.2.place.core = c ∧
      e.2.place.slot = i ∧ e.2.entry.isSome = true ∧ e.2.res = .none) ∧
  (∀ a, memByte s'.mem a = memByte s0.mem a) ∧
  s' = { s0 with threads := s'.threads, warps := s'.warps, cores := s'.cores, slots := s'.slots, freeCount := s'.freeCount }

/-- The threads of an issue group fault with the word: the walks that found the faults have posted their reads (R364), the violations
are logged (R184), and the exception is taken (R351). -/
def Faulted (s s' : State) (fs : List FaultRec) : Prop :=
  Trapped (logFaults (faultWalks s s.focus.core fs) fs) s' s.focus.core fs

/-- A word has had its effect, which left `x`, and each thread of its issue group goes on at the next word (R25, R29, R32): Ready, or
Stalled for the stall count; or in the state into which the effect has put it. -/
def GoesOn (st : Stall) (s x s' : State) : Prop :=
  (∀ t, threadOf s' t = if t ∈ s.focus.threads then (threadOf x t).map fun th =>
    { th with pc := pcOf s t + 4, pfx := Pfx.empty, readyAt := now s + st.val + 1, oprdy := none
              status := if th.status = .live .ready ∧ st.val ≠ 0 then .live .stalled else th.status }
    else threadOf x t) ∧
  s' = { x with threads := s'.threads, freeCount := x.freeCount + 1 }

/-- A word that cannot be taken yet: its Ready threads are Stalled and will issue it again; nothing else changes (R75). -/
def Held (s s' : State) : Prop :=
  ThreadsBecome s s' (fun _ th => if th.status = .live .ready then { th with status := .live .stalled } else th) ∧
  s' = { s with threads := s'.threads }

/-! ### The checks at issue (R45, R291, R299, R356) -/

/-- The words that carry an away thread home (R299). -/
def carriedRule : Instr → Bool
  | .lds _ _ _ _ _ | .sts _ _ _ _ _ | .cvec _ _ _ _ _ | .ccvt _ _ _ | .cqnt _ _ _ | .cred _ _ _ _ | .credStat _ _ | .csmx _ _ _ _
  | .catom _ _ _ _ _ | .ccas _ _ _ _ | .cwait _ | .cfence _ => true
  | .join _ _ | .leave _ _ | .waitk _ _ | .voteAll _ _ _ _ | .voteAny _ _ _ _ | .voteBal _ _ _ _ | .voteCnt _ _ _ _ => true
  | .waita _ _ _ _ | .qpost _ _ _ _ | .crit _ _ _ => true
  | .copy _ _ _ _ | .gath _ _ _ _ | .scat _ _ _ _ | .stkred _ _ _ _ | .stkcvt _ _ _ _ | .cpwait _ _ _ => true
  | .seal _ _ _ _ | .shape _ _ _ _ | .mxld _ _ _ _ | .mxmm _ _ _ _ | .mxsp _ _ _ _ | .oprdy _ | .mxwait _ _ _ | .acz _ _ _ _
  | .acld _ _ _ _ | .acst _ _ _ _ => true
  | .binit _ _ _ | .barr _ _ _ | .barrx _ _ _ _ | .bwait _ _ _ _ | .bxin _ _ _ | .bxout _ _ _ => true
  | _ => false

/-- The words that fault REGRANGE wherever an away thread issues them, whatever their codes: SHFL, the REGS words, and SMOV, which
writes a w register (R111, R116, R291). -/
def homeOnlyRule : Instr → Bool
  | .shfl _ _ _ _ | .grow _ _ | .growTry _ _ _ | .shrink _ _ | .smov _ _ _ => true
  | _ => false

/-- The threads of an issue group for which a word is issued: a carried word leaves out those that are away (R299). -/
def issuesFor (i : Instr) (s : State) : List ThreadKey := s.focus.threads.filter fun t => !(carriedRule i && isAway s t)

/-- The away threads of a carried word have begun their way home, and nothing else has happened (R299). -/
def CarryBegun (i : Instr) (s s0 : State) : Prop :=
  (∀ t, threadOf s0 t = if t ∈ s.focus.threads ∧ carriedRule i = true ∧ isAway s t = true then
    (threadOf s t).map fun th => { th with leaving := some ⟨2, 0, .push, 0, 0⟩ } else threadOf s t) ∧
  s0 = { s with threads := s0.threads }

/-- A thread stops at the boundary after the word that it has issued: its step is armed, it does not wait for a barrier entry, and it is
not on its way to another core (R356). -/
def stepDue (th : Thread) : Bool :=
  decide (th.step = .armed) && th.inBar.isNone && th.leaving.isNone &&
    decide (th.status ∈ [Status.live .ready, .live .stalled, .stopped .ready, .stopped .stalled])

/-- A step after the word: over where the thread stops or has ended, else its stop comes when the wait ends (R356). -/
def stepAfter (th : Thread) : StepMark :=
  if th.step = .armed then (if stepDue th || th.isEnded then .off else .counted) else th.step

/-! ### Arithmetic (R113) -/

/-- The low n bits, as a bit vector. -/
def low (w : Width) (x : Word) : BitVec (widthBits w) := x.setWidth (widthBits w)

/-- The Z high half. -/
def zHigh {n : Nat} (x : BitVec n) : Word := x.setWidth 64

/-- The S high half. -/
def sHigh {n : Nat} (x : BitVec n) : Word := x.signExtend 64

/-- An integer kept within bounds. -/
def within (lo hi v : Int) : Int := max lo (min hi v)

/-- The result of IADD (`f` is +) and of ISUB (`f` is -), R118. -/
def sumRule (f : Int → Int → Int) (w : Width) (m : SatMode) (a b : Word) : Word :=
  let n := widthBits w
  match m with
  | .wrap => zHigh (BitVec.ofInt n (f (low w a).toNat (low w b).toNat))
  | .ss => sHigh (BitVec.ofInt n (within (-2 ^ (n - 1)) (2 ^ (n - 1) - 1) (f (low w a).toInt (low w b).toInt)))
  | .us => zHigh (BitVec.ofInt n (within 0 (2 ^ n - 1) (f (low w a).toNat (low w b).toNat)))

/-- IMIN (`.u` compares and extends as Z), R120. -/
def minRule (w : Width) (uns : Bool) (a b : Word) : Word :=
  if uns then zHigh (if (low w a).ule (low w b) then low w a else low w b)
  else sHigh (if (low w a).sle (low w b) then low w a else low w b)

/-- IMAX, R120. -/
def maxRule (w : Width) (uns : Bool) (a b : Word) : Word :=
  if uns then zHigh (if (low w b).ule (low w a) then low w a else low w b)
  else sHigh (if (low w b).sle (low w a) then low w a else low w b)

/-- IABS: the most negative input saturates, R120. -/
def absRule (w : Width) (a : Word) : Word :=
  sHigh (BitVec.ofInt (widthBits w) (min (2 ^ (widthBits w - 1) - 1) ((low w a).toInt.natAbs : Int)))

/-- The relations of ICMP, R124. -/
def relRule (w : Width) (r : ICmpRel) (a b : Word) : Bool :=
  match r with
  | .eq => low w a == low w b
  | .ne => low w a != low w b
  | .lt => (low w a).slt (low w b)
  | .le => (low w a).sle (low w b)
  | .ltu => (low w a).ult (low w b)
  | .leu => (low w a).ule (low w b)

/-- The len low bits of a width, len above the width taken as the width. -/
def fieldMask (n len : Nat) : BitVec n := BitVec.allOnes n >>> (n - min len n)

/-- BFE: the field of len bits from bit p upward, zeros beyond the width; R123. -/
def bfeRule (w : Width) (a b : Word) : Word :=
  zHigh ((low w a >>> (b.extractLsb 6 0).toNat) &&& fieldMask (widthBits w) (b.extractLsb 14 8).toNat)

/-- BFI: the field of len bits from bit p upward comes from the low bits of a, the rest from b; R126. -/
def bfiRule (w : Width) (a b c : Word) : Word :=
  let p := (c.extractLsb 6 0).toNat
  let m := fieldMask (widthBits w) (c.extractLsb 14 8).toNat <<< p
  zHigh ((low w b &&& ~~~m) ||| ((low w a <<< p) &&& m))

/-- The number of set bits. -/
def onesOf {n : Nat} (x : BitVec n) : Nat := ((List.range n).filter fun i => x.getLsbD i).length

/-- The shift count, R122. -/
def shiftOf (w : Width) (b : Word) : Nat :=
  match w with
  | .w32 => (b.extractLsb 4 0).toNat
  | .w64 => (b.extractLsb 5 0).toNat

/-- The immediate of a format I word: sext(imm10, 10), or the pending literal above it, R29. -/
def immRule (p : Pfx) (imm : BitVec 10) : Word :=
  match p.lit with
  | none => imm.signExtend 64
  | some v => (v ++ imm).signExtend 64

/-! ### Floating-point values (R50 to R61) -/

/-- The exact real value of a finite value. -/
def FVal.rat? : FVal → Option ℚ
  | .fin neg m e => some ((if neg then -1 else 1) * m * 2 ^ e)
  | _ => none

/-- The largest finite value of a format, and half the step at it (R50). -/
def fmtMax : FFmt → ℚ
  | .fp32 => (2 ^ 24 - 1) * 2 ^ 104
  | .bf16 => (2 ^ 8 - 1) * 2 ^ 120
  | .fp16 => 65504
  | .e4m3 => 448
  | .e5m2 => 57344

def halfStep : FFmt → ℚ
  | .fp32 => 2 ^ 103
  | .bf16 => 2 ^ 119
  | .fp16 => 16
  | .e4m3 => 16
  | .e5m2 => 4096

/-- The code of the largest finite value, the canonical NaN, and the overflow target T; `t` is the toggle `.nosat` or `.sat` (R50, R51,
R60). -/
def maxRuleCode : FFmt → Nat
  | .fp32 => 0x7F7FFFFF
  | .bf16 => 0x7F7F
  | .fp16 => 0x7BFF
  | .e4m3 => 0x7E
  | .e5m2 => 0x7B

def nanRuleCode : FFmt → Nat
  | .fp32 => 0x7FC00000
  | .bf16 => 0x7FC0
  | .fp16 => 0x7E00
  | .e4m3 => 0x7F
  | .e5m2 => 0x7E

def targetCode (f : FFmt) (t : Bool) : Nat :=
  match f with
  | .fp32 => 0x7F800000
  | .bf16 => 0x7F80
  | .fp16 => 0x7C00
  | .e4m3 => if t then 0x7F else 0x7E
  | .e5m2 => if t then 0x7B else 0x7C

/-- A code with the sign of a value; NaN takes none (R52). -/
def withSign (f : FFmt) (neg : Bool) (c : Nat) : Nat := if neg = true ∧ c ≠ nanRuleCode f then 2 ^ (f.width - 1) + c else c

/-- A finite value overflows in a mode (R59): to nearest, where it lies beyond the largest value by more than half a step, or by half a
step where the largest value is odd; in every other mode, where it lies beyond. -/
def Overflows (f : FFmt) (r : Rnd) (p : ℚ) : Prop :=
  match r with
  | .rne => fmtMax f + halfStep f < |p| ∨ (|p| = fmtMax f + halfStep f ∧ f ≠ .e4m3)
  | _ => fmtMax f < |p|

/-- l and h are the neighbours of y among some values, with the sign of y: l may be zero (R58). -/
def Neighbours (vals : ℚ → Prop) (y l h : ℚ) : Prop :=
  vals l ∧ vals h ∧ |l| < |y| ∧ |y| < |h| ∧ 0 ≤ l * y ∧ 0 < h * y ∧ ∀ u, vals u → 0 ≤ u * y → ¬(|l| < |u| ∧ |u| < |h|)

/-- Stochastic rounding between two neighbours (R58). -/
def stochastic (rnd : Nat) (y l h : ℚ) : ℚ := if (rnd : ℤ) < ⌊(|y| - |l|) / (|h| - |l|) * 2 ^ 32⌋ then h else l

/-- A finite value rounded to an integer under a mode (R57, R61). -/
def IntRounded (r : Rnd) (p : ℚ) (i : ℤ) : Prop :=
  match r with
  | .rne => |(i : ℚ) - p| ≤ 1 / 2 ∧ (|(i : ℚ) - p| = 1 / 2 → i % 2 = 0)
  | .rz => i = if 0 ≤ p then ⌊p⌋ else ⌈p⌉
  | .rd => i = ⌊p⌋
  | .ru => i = ⌈p⌉
  | .sr rnd => i = (if 0 ≤ p then 1 else -1) * (⌊|p|⌋ + if ((rnd % 2 ^ 32 : Nat) : ℤ) < ⌊(|p| - ⌊|p|⌋) * 2 ^ 32⌋ then 1 else 0)

/-- The mode of a rounding code (R42), and whether it toggles the saturation default. -/
def modeRule (c : RndCode) (rnd : Nat) : Rnd :=
  match c with
  | .rne | .rneT => .rne
  | .rz | .rzT => .rz
  | .rd => .rd
  | .ru => .ru
  | .sr | .srT => .sr rnd

def togglesRule (c : RndCode) : Bool := c == .rneT || c == .rzT || c == .srT

/-! ### N4 blocks (R62 to R66) -/

/-- The value of an element code in units of its block's scale (R63). -/
def n4Rule (t : Fin 4) (c : Nat) : ℚ :=
  let signed (l : List ℚ) : ℚ := (if 8 ≤ c % 16 then -1 else 1) * l.getD (c % 8) 0
  match t with
  | 0 => ((BitVec.ofNat 4 c).toInt : ℚ)
  | 1 => signed [0, 1 / 2, 1, 3 / 2, 2, 3, 4, 6]
  | 2 => signed [0, 1 / 8, 1 / 4, 1 / 2, 1, 2, 4, 8]
  | 3 => signed [0, 1, 2, 3, 4, 8, 16, 32]

/-- top(t), which is the largest value of the type; and the smallest (R63, R66). -/
def n4TopRule : Fin 4 → ℚ
  | 0 => 7
  | 1 => 6
  | 2 => 8
  | 3 => 32

def n4Least (t : Fin 4) : ℚ := if t = 0 then -8 else -n4TopRule t

/-- grid(t, y, mode, rnd) of R66: `sr` is the random word of SR, none for RNE. -/
def GridRule (t : Fin 4) (y : ℚ) (sr : Option Nat) (c : Nat) : Prop :=
  c < 16 ∧ (n4Rule t c = 0 → c = 0) ∧ (n4TopRule t < y → n4Rule t c = n4TopRule t) ∧ (y < n4Least t → n4Rule t c = n4Least t) ∧
  (n4Least t ≤ y → y ≤ n4TopRule t →
    ((∃ w, n4Rule t w = y) → n4Rule t c = y) ∧
    (sr = none → ∀ w, |n4Rule t c - y| ≤ |n4Rule t w - y| ∧
      (|n4Rule t c - y| = |n4Rule t w - y| → n4Rule t w ≠ n4Rule t c → c % 2 = 0)) ∧
    ∀ rnd l h, sr = some rnd → Neighbours (fun u => ∃ w, n4Rule t w = u) y l h → n4Rule t c = stochastic rnd y l h)

/-- The block that CQNT forms (R65): all finite inputs, of values `ps`, of which the greatest magnitude is `a`; or not all finite. -/
def QuantRule (t : Fin 4) (xs : List FVal) (sr : Option Nat) (q : N4Block) : Prop :=
  ((∃ x ∈ xs, x.rat? = none) → q.codes = xs.map (fun _ => 0) ∧ q.scale = 64 * t.val + 63 ∧ q.flags = 1) ∧
  ∀ ps : List ℚ, xs.map FVal.rat? = ps.map some →
    ((∀ p ∈ ps, p = 0) → q.codes = xs.map (fun _ => 0) ∧ q.scale = 64 * t.val ∧ q.flags = 0) ∧
    ∀ (a : ℚ) (f : ℤ), (∃ p ∈ ps, |p| = a) → (∀ p ∈ ps, |p| ≤ a) → 0 < a →
      n4TopRule t * 2 ^ (f - 49) < a → a ≤ n4TopRule t * 2 ^ (f - 48) →
      let e : ℤ := max 0 (min 63 f)
      q.scale = 64 * t.val + e.toNat ∧ q.flags = (if f < 0 then 2 else if 63 < f then 4 else 0) ∧ q.codes.length = xs.length ∧
      ∀ (i : Nat) (p : ℚ), ps[i]? = some p → ∃ c, q.codes[i]? = some c ∧
        GridRule t (p / 2 ^ (e - 48)) (sr.map fun r => ((BitVec.ofNat 32 r).rotateLeft i).toNat) c

/-- The value of the result of a word is rounded once to FP32 and placed in the low half (R128, R129). -/
def fp32Result (v : FVal) : Word := BitVec.ofNat 64 (roundRne .fp32 v)

/-- A modified operand (R131): the absolute value first, then the sign. -/
def modified (absolute negated : Bool) (x : FVal) : FVal :=
  let y := if absolute then x.abs else x
  if negated then y.negate else y

/-- An operation on both elements of packed sources (R141, R142). -/
def packedRule (h : Bool) (f : Nat → FVal) : Word := BitVec.ofNat 64 (roundRne (packFmt h) (f 1) * 2 ^ 16 + roundRne (packFmt h) (f 0))

/-- The result of a function word for a zero and for an infinity (R138). -/
def fnOfZero (f : Fn) (neg : Bool) : Word :=
  match f with
  | .rcp | .rsq => if neg then 0xFF800000 else 0x7F800000
  | .exp2 | .cos | .expo => 0x3F800000
  | .log2 => 0xFF800000
  | .sin | .tanh => if neg then 0x80000000 else 0

def fnOfInf (f : Fn) (neg : Bool) : Word :=
  match f with
  | .rcp => if neg then 0x80000000 else 0
  | .rsq => if neg then 0x7FC00000 else 0
  | .exp2 | .expo => if neg then 0 else 0x7F800000
  | .log2 => if neg then 0x7FC00000 else 0x7F800000
  | .sin | .cos => 0x7FC00000
  | .tanh => if neg then 0xBF800000 else 0x3F800000

/-! ### Memory words -/

/-- The plans of an issue group: no thread of it faults in the checks of R203. -/
def Planned (s : State) (size : Nat) (need : Need) (atomic : Bool) (va : ThreadKey → Nat) (ps : List Plan) (s1 : State) : Prop :=
  (∀ t ∈ s.focus.threads, acqPending s t = false) ∧ planAll s size need atomic va s.focus.threads = ([], ps, s1)

/-- A thread whose marked access has gone through the locality monitor (R199, R200). -/
def streaked (p : Plan) (th : Thread) : Thread := { th with streak := p.loc.streak, streakRow := p.loc.row }

/-- A thread whose access migrates: it has not issued, and leaves as a ladle of Kind 00 for the line's home stack (R286, R287). -/
def migrating (p : Plan) (th : Thread) : Thread :=
  { streaked p th with leaving := some ⟨0, stackOf p.x.pa, .push, BitVec.ofNat 64 p.va, 0⟩ }

/-- The threads after the word of a planned issue group: those that stay become what `f` says of their plan, by its place among the
staying ones; those that migrate begin to leave; no other thread changes. -/
def PlansTaken (s s' : State) (ps : List Plan) (f : Nat → Plan → Thread → Thread) : Prop :=
  (∀ j p, (staying ps)[j]? = some p → threadOf s' p.thread = (threadOf s p.thread).map (f j p)) ∧
  (∀ p ∈ ps, p.loc.point = none → threadOf s' p.thread = (threadOf s p.thread).map (migrating p)) ∧
  (∀ t, t ∉ s.focus.threads → threadOf s' t = threadOf s t)

/-- The access of an atomic by one thread (R212). -/
def atomItem (s : State) (b : Src) (y : ThreadKey → Word) (tag : Option Nat) (p : Plan) : AtomItem :=
  ⟨p.thread, p.x.loc, readSrc s p.thread 1 b, y p.thread, tag, p.attr, p.loc.point.getD .cache⟩

/-- The low half of the new value of an atomic (R212). -/
def atomRule (op : AtomOp) (n : Width) (old p : Word) : BitVec (widthBits n) :=
  match op with
  | .add => low n old + low n p
  | .fadd => low n (fp32Result ((fp32 old).add (fp32 p)))
  | .min => if (low n p).slt (low n old) then low n p else low n old
  | .max => if (low n old).slt (low n p) then low n p else low n old
  | .and => low n old &&& low n p
  | .or => low n old ||| low n p
  | .xor => low n old ^^^ low n p
  | .exch => low n p

/-- An AtomicOp that host memory takes, of those that its host advertises: FetchAdd of either width, Swap of either width, and CAS of
64 bits (R386, R394). -/
def hostTakes (adv : BitVec 5) (cas : Bool) (n : Width) (op : AtomOp) : Bool :=
  if cas then n == .w64 && adv.getLsbD 4
  else (op == .add && adv.getLsbD (if n = .w64 then 1 else 0)) || (op == .exch && adv.getLsbD (if n = .w64 then 3 else 2))

/-- An access that goes to host memory waits for nothing but its turn: the route to the host carries it, and the buckets of the tenant's
function let its bytes pass (R387, R397). Own memory asks nothing. -/
def HostOpen (s : State) (ctx loc : Nat) (out : Bool) (n : Nat) : Prop := linkUp s loc = true ∧ devicePasses s ctx loc out n = true

/-- The thread of an access whose way to a host of another package has failed since (R397, log 119): the core stops, and the thread has an
entry of a violation with the address of the access. -/
def LinkFaulted (s s' : State) (c : CoreId) (t : ThreadKey) (va : Nat) : Prop :=
  (coreOf s' c).stopped = true ∧ ∀ th, threadOf s t = some th → th.entry = none →
    ∃ th' e, threadOf s' t = some th' ∧ th'.entry = some e ∧ e.cause = .viol ∧ e.addr = BitVec.ofNat 64 va

/-- A line of the L1 of a core and of the L2 of its die, if there, holds 128 bytes; a Stale one holds no dirty word (R191). -/
def LineWhole (s : State) (c : CoreId) (ln : Nat) : Prop :=
  (∀ d, tget (coreOf s c).l1 ln = some d → d.length = 128) ∧
  (∀ x, l2Of s c.die ln = some x → x.data.length = 128 ∧ (x.stale = true → x.dirty = 0))

/-! ### Threads, masks and special registers -/

/-- WAKE, by its fields (R98). -/
def wakeRule (th : Thread) : Word :=
  BitVec.ofNat 64 (th.wake.reason + (if th.wake.dozed then 256 else 0) + if th.wake.saved then 512 else 0)

/-- The value of a special register (R96 to R99): each by the fields of its layout. -/
def specialRule (s : State) (t : ThreadKey) (th : Thread) : Special → Word
  | .tid => BitVec.ofNat 64 (32 * (hwarpOf t).val + (laneOf t).val)
  | .lane => BitVec.ofNat 64 (laneOf t).val
  | .hwarp => BitVec.ofNat 64 (hwarpOf t).val
  | .group => BitVec.ofNat 64 (((groupOfThread s t).map (·.group.val)).getD 0)
  | .gang => (((groupOfThread s t).map Group.gang).getD 0).setWidth 64
  | .launch => (((groupOfThread s t).map Group.launch).getD 0).setWidth 64
  | .core => BitVec.ofNat 64 th.place.core.core.val
  | .die => BitVec.ofNat 64 th.place.core.die.val
  | .slot => BitVec.ofNat 64 th.place.slot.val
  | .place => (0#32 ++ BitVec.ofBool th.away.isSome ++ 0#7 ++ BitVec.ofNat 6 th.place.slot.val ++
      BitVec.ofNat 7 th.place.core.core.val ++ BitVec.ofNat 3 th.place.core.die.val ++ 0#3 ++ BitVec.ofNat 5 th.place.lane.val)
  | .ctx => BitVec.ofNat 64 (ctxIdOf s t)
  | .tenant => BitVec.ofNat 64 (tenantOfCtx s (ctxIdOf s t)).val
  | .pkg => s.boot.latched.setWidth 64
  | .clock => BitVec.ofNat 64 s.clock
  | .wake => if t.isHandler then 0 else wakeRule th
  | .misscnt => BitVec.ofNat 64 (((List.finRange 4).map fun i => (coreOf s th.place.core).miss[i] * 2 ^ (16 * i.val)).sum)

/-- One bit of a mask of a home warp. -/
def maskBit (s : State) (w : WarpKey) (k : Fin 12) (l : Fin 32) : Bool := (maskOfWarp s w k).getLsbD l

/-- The value of a VOTE form from the mask and the ballot (R90). -/
def voteRule (f : VoteForm) (m b : BitVec 32) : Word :=
  match f with
  | .all => if b = m then 1 else 0
  | .any => if b ≠ 0 then 1 else 0
  | .bal => b.setWidth 64
  | .cnt => BitVec.ofNat 64 (onesOf b)

/-- No thread has a step whose stop waits for the end of a wait (R356). -/
def NoStepDue (s : State) : Prop := ∀ e ∈ s.threads, e.2.step ≠ .counted

/-! ### The scratchpad -/

/-- The checks of a scratchpad or barrier word: the faults of the threads that have one, and the requests of the others. -/
def faultsOf {α : Type} (mk : ThreadKey → FaultRec ⊕ α) (ts : List ThreadKey) : List FaultRec := ts.filterMap fun t => (mk t).getLeft?
def requestsOf {α : Type} (mk : ThreadKey → FaultRec ⊕ α) (ts : List ThreadKey) : List α := ts.filterMap fun t => (mk t).getRight?

/-- A word on the banks (R146, R147, R150): it faults for the threads that fail their checks and takes effect for none; else it is
Stalled until its banks have room and its warps a free counter; else its entries enter the queues and its threads go on. -/
def BankWord (i : Instr) (st : Stall) (merge crucible : Bool) (body : BankBody) (ret : Option (PDst × Bool))
    (mk : State → ThreadKey → FaultRec ⊕ Req) : Prop :=
  ∀ s, issuable i s = true →
    let ts := s.focus.threads
    let fs := faultsOf (mk s) ts
    let rs := requestsOf (mk s) ts
    let room := bankRoom s (formEntries s merge body rs) = true ∧
      (ret.isSome = true → ∀ t ∈ ts, countedWords s (warpKeyOf t) < 8)
    (fs ≠ [] → ∃ s', exec i s = .next s' ∧ Faulted s s' fs) ∧
    (fs = [] → room → ∃ s', exec i s = .next s' ∧ GoesOn st s (enterBanks s ts merge crucible body ret rs) s') ∧
    (fs = [] → ¬ room → ∃ s', exec i s = .next s' ∧ Held s s')

/-- The address of an LDS or STS access (R29, R154). -/
def scratchAddr (s : State) (t : ThreadKey) (a : Src) (off : BitVec 8) (size : Nat) : Nat :=
  let k : Word := match (pfxOf s t).lit with
    | none => off.signExtend 64
    | some v => (v ++ off).signExtend 64
  (readSrc s t 0 a + k * BitVec.ofNat 64 size).toNat

/-- The request on an offset (R146): ALIGN, then VIOL kind 8 in space 1, each with the offset as its address. -/
def offsetRule (s : State) (t : ThreadKey) (off size : Nat) (x y : Word) : FaultRec ⊕ Req :=
  if off % size ≠ 0 then .inl (addrFault s t .align off)
  else if off + size ≤ scratchSize s t then .inr ⟨[off / 64], ⟨t, off, x, y, 0⟩⟩
  else .inl (violFault s t 8 1 off)

/-- The lines of a line set (R155). -/
def lineSet (a : Word) : List Nat :=
  (List.range ((a.extractLsb' 16 8).toNat + 1)).map fun k => (a.extractLsb' 0 13).toNat + k * (32 * ((a.extractLsb' 24 8).toNat + 1))

/-- The request on lines (R146): all in the bank of the first, and all within the allocation. -/
def linesRule (s : State) (t : ThreadKey) (l : List Nat) (x y : Word) : FaultRec ⊕ Req :=
  match l.find? fun k => decide (k % 32 ≠ l.headD 0 % 32) with
  | some k => .inl (addrFault s t .align (64 * k))
  | none =>
    match l.find? fun k => decide (scratchSize s t < 64 * k + 64) with
    | some k => .inl (violFault s t 8 1 (64 * k))
    | none => .inr ⟨l, ⟨t, 0, x, y, 0⟩⟩

/-- An operand word that names a set, with its CountM1 replaced. -/
def withCount (a : Word) (n : BitVec 8) : Word := a.extractLsb' 24 40 ++ n ++ a.extractLsb' 0 16

/-- One element of CVEC (R157). -/
def cvecRule (op : CvecOp) (long : Bool) (x y s t : Word) : Word :=
  let z := fp32 (if long then y else s)
  match op with
  | .add => fp32Result ((fp32 x).add z)
  | .mul => fp32Result ((fp32 x).mul z)
  | .fma => fp32Result (if long then ((fp32 y).mul (fp32 s)).add (fp32 x) else ((fp32 x).mul (fp32 s)).add (fp32 t))
  | .max => fp32Result ((fp32 x).max z)
  | .min => fp32Result ((fp32 x).min z)

/-- One step of a crucible reduction (R71, R158). -/
def credStep (op : CredOp) (x y : Word) : Word :=
  match op with
  | .sum => fp32Result ((fp32 x).add (fp32 y))
  | .max => fp32Result ((fp32 x).max (fp32 y))
  | .min => fp32Result ((fp32 x).min (fp32 y))

/-- The fixed tree over 2^k elements from number i (R71). -/
def treeRule (f : Word → Word → Word) (e : Nat → Word) : Nat → Nat → Word
  | 0, i => e i
  | k + 1, i => f (treeRule f e k i) (treeRule f e k (i + 2 ^ k))

/-- A reduction over the lines of a set, in ascending order (R71). -/
def credRule (op : CredOp) (m : Memory) (ls : List Nat) : Word :=
  let line (l : Nat) : Word := treeRule (credStep op) (cword m l) 4 0
  match ls with
  | [] => 0
  | l :: ls => ls.foldl (fun v x => credStep op v (line x)) (line l)

/-- The bytes of a scratchpad after a word was written. -/
def wroteAt (m m' : Memory) (off size : Nat) (v : Nat) : Prop :=
  ∀ k, memByte m' k = if off ≤ k ∧ k < off + size then (natBytes size v).getD (k - off) 0 else memByte m k

/-! ### Barrier objects (R276 to R282) -/

/-- An object with its counts, its generation and its carry replaced, and Ovr set where `carry`; every other bit stays (R276). -/
def barWith (o : BitVec 256) (ovr : BitVec 8) (carry : Bool) (gen : BitVec 4) (pending : BitVec 16) (ins outs : BitVec 56) :
    BitVec 256 :=
  (o.extractLsb' 176 80 ++ ovr ++ o.extractLsb' 165 3 ++ BitVec.ofBool (carry || o.getLsbD 164) ++ gen ++ o.extractLsb' 144 16 ++
    pending ++ o.extractLsb' 120 8 ++ ins ++ o.extractLsb' 56 8 ++ outs : BitVec 256)

/-- test(): the object after it, and whether a phase has completed (R278). -/
def testRule (o : BitVec 256) : BitVec 256 × Bool :=
  let expected := o.extractLsb' 144 16
  let gen := o.extractLsb' 160 4
  if o.extractLsb' 128 16 = 0 ∧ o.extractLsb' 64 56 = 0 ∧ o.extractLsb' 0 56 = 0 then
    let p := expected - (o.extractLsb' 168 8).setWidth 16
    (if p = 0 ∧ expected ≠ 0 then barWith o 0 false (gen + 2) expected 0 0 else barWith o 0 false (gen + 1) p 0 0, true)
  else (o, false)

/-- One thread's command on an object whose owner tag matches, or BINIT (R281, R282). -/
def commandRule (op : BarOp) (tag b : Nat) (o : BitVec 256) : BarRes :=
  let ovr := o.extractLsb' 168 8
  let gen := o.extractLsb' 160 4
  let expected := o.extractLsb' 144 16
  let pending := o.extractLsb' 128 16
  let ins := o.extractLsb' 64 56
  let outs := o.extractLsb' 0 56
  let arrive : BarRes :=
    let r := testRule (barWith o ovr false gen (pending - 1) ins outs)
    .done r.1 (some ((if r.2 then 512 else 0) + gen.toNat))
  match op with
  | .binit => .done (BitVec.ofNat 64 tag ++ 0#32 ++ BitVec.ofNat 16 b ++ BitVec.ofNat 16 b ++ 0#128) none
  | .bxin => .done (if b % 2 ^ 56 = 0 then o else (testRule (barWith o ovr false gen pending (ins + BitVec.ofNat 56 b) outs)).1) none
  | .bxout => .done (if b % 2 ^ 56 = 0 then o else (testRule (barWith o ovr false gen pending ins (outs + BitVec.ofNat 56 b))).1) none
  | .bwait =>
    if gen = BitVec.ofNat 4 b then .park
    else .done o (some (gen.toNat + (if o.getLsbD 164 then 256 else 0) + if o.getLsbD 165 then 512 else 0))
  | .barr =>
    if pending ≠ 0 then arrive
    else if min expected.toNat 255 ≤ ovr.toNat then .bovr 3
    else .done (barWith o (ovr + 1) true gen pending ins outs) (some (256 + (gen + 1).toNat))
  | .barrx => if gen ≠ BitVec.ofNat 4 b then .bovr 0 else if pending ≠ 0 then arrive else .bovr 1

/-- The checks of a barrier word at issue for one thread, after the carry home (R281). -/
def barRequest (s : State) (t : ThreadKey) (op : BarOp) (a b : Word) : FaultRec ⊕ BarReq :=
  let illegal : FaultRec ⊕ BarReq := .inl ⟨t, .illegal, pcOf s t, 0, 0, none⟩
  let reserved := op = .binit ∧ b.extractLsb' 16 48 ≠ 0
  let va := (a - 1).toNat
  if a.extractLsb' 1 4 ≠ 0 then .inl (addrFault s t .align a.toNat)
  else if a.getLsbD 0 = true then
    match (translateFor s t va ⟨true, true, false⟩).1 with
    | .page => .inl (addrFault s t .page va)
    | .viol k => .inl (violFault s t k 0 va)
    | .ok x => if reserved ∨ x.attr.carve = false then illegal else .inr ⟨t, .carve x.loc, b⟩
  else if scratchSize s t < a.toNat + 32 then .inl (violFault s t 8 1 a.toNat)
  else if reserved then illegal else .inr ⟨t, .scratch a.toNat, b⟩

/-! ### Elected words, transfers and tile operations -/

/-- Check 4 of R243, by the fields of R244: a bit of 511:217, a rounding code, a reduction or an index field that the instruction does not
use or that the table forbids, an index space other than 01 and 10 where it uses one, a barrier space 11, or an address without one. -/
def BlockIllegal (k : EngKind) (b : BitVec 512) : Prop :=
  let rnd := b.extractLsb' 214 3
  let idxSp := b.extractLsb' 210 2
  let barSp := b.extractLsb' 208 2
  b.extractLsb' 217 295 ≠ 0 ∨ (if k = .stkcvt then rnd = 4 ∨ rnd = 7 else rnd ≠ 0) ∨ (k ≠ .stkred ∧ b.extractLsb' 212 2 ≠ 0) ∨
  (if k = .gath ∨ k = .scat then idxSp ≠ 1 ∧ idxSp ≠ 2
    else idxSp ≠ 0 ∨ b.extractLsb' 192 16 ≠ 0 ∨ b.extractLsb' 128 64 ≠ 0) ∨
  barSp = 3 ∨ (barSp = 0 ∧ b.extractLsb' 64 64 ≠ 0)

/-- The barrier object that a parameter block names (R243, R244): none, an offset, or the home of a carve-out page. -/
def BarNamed (s : State) (t : ThreadKey) (b : BitVec 512) (o : Option BarObj) : Prop :=
  let a := (b.extractLsb' 64 64).toNat
  (b.extractLsb' 208 2 = 0 ∧ o = none) ∨ (b.extractLsb' 208 2 = 1 ∧ o = some (.scratch a)) ∨
  (b.extractLsb' 208 2 = 2 ∧ ∃ x, (translateFor s t a ⟨true, true, false⟩).1 = .ok x ∧ x.attr.carve = true ∧ o = some (.carve x.loc))

/-- Two ends of a range of virtual addresses lie in one canonical half; the higher one below 2^64 before it is reduced (log 121). -/
def OneHalf (lo hi : Nat) : Prop := canonical lo = true ∧ hi < 2 ^ 64 ∧ canonical hi = true ∧ lo / 2 ^ 55 % 2 = hi / 2 ^ 55 % 2

/-- The conditions of R254 that a record meets by itself, by their codes, in the fields of R250 and with the formats of R251 and the kinds of
R252. -/
def SealCond (r : BitVec 512) (code : Nat) : Prop :=
  let f (lo n : Nat) : Nat := (r.extractLsb' lo n).toNat
  let fmt := f 440 4
  let w := if fmt = 0 ∨ fmt = 8 then 4 else if fmt = 1 ∨ fmt = 2 then 2 else 1
  let steps (base gap stride width : Nat) : Nat :=
    f base 64 + f 152 24 * f stride width + f 176 24 * f (stride + gap) width + f 200 24 * f (stride + 2 * gap) width
  let highest := steps 0 40 224 40 + if fmt = 5 then f 128 24 / 2 else f 128 24 * w + (w - 1)
  let scale := steps 64 32 344 32 + f 128 24 / 32
  match code with
  | 1 => f 453 59 ≠ 0 ∨ ∃ k ∈ [1, 2, 3], f 446 2 < k ∧ (f (128 + 24 * k) 24 ≠ 0 ∨ f (184 + 40 * k) 40 ≠ 0 ∨ f (312 + 32 * k) 32 ≠ 0)
  | 2 => 9 ≤ fmt ∨ 2 ≤ f 444 2 ∨ 4 ≤ f 450 3 ∨ (fmt ≠ 5 ∧ (f 448 2 ≠ 0 ∨ f 64 64 ≠ 0))
  | 3 => f 0 64 % (if fmt = 5 then 16 else w) ≠ 0 ∨
      ∃ k ∈ [1, 2, 3], k ≤ f 446 2 ∧ f (184 + 40 * k) 40 % (if fmt = 5 then 16 else w) ≠ 0
  | 4 => (fmt = 5 ∧ (f 128 24 + 1) % 32 ≠ 0) ∨
      (f 444 2 = 0 ∧ (¬ OneHalf (f 0 64) highest ∨ (fmt = 5 ∧ ¬ OneHalf (f 64 64) scale))) ∨
      (f 444 2 = 1 ∧ (524288 ≤ highest ∨ (fmt = 5 ∧ 524288 ≤ scale)))
  | 5 => (f 450 3 = 1 ∧ ¬ (f 446 2 = 1 ∧ 1 ≤ fmt ∧ fmt ≤ 7 ∧ (f 128 24 + 1) % (if fmt = 5 then 256 else 128) = 0 ∧
        (f 152 24 + 1) % 128 = 0)) ∨
      (f 450 3 = 2 ∧ ¬ (f 446 2 = 1 ∧ 1 ≤ fmt ∧ fmt ≤ 7 ∧ (f 128 24 + 1) % 128 = 0)) ∨
      (f 450 3 = 3 ∧ ¬ (f 446 2 = 1 ∧ (fmt ≤ 4 ∨ fmt = 8) ∧ f 128 24 + 1 = 128 ∧ f 444 2 = 1))
  | _ => False

/-- The threads of the groups whose blocks stand on Absent lines wait for those lines together, and nothing else has happened
(R145, R243). -/
def BlocksAwaited (s s' : State) (ws : List (ThreadKey × Nat)) : Prop :=
  ThreadsBecome s s' (fun t th => match ws.find? fun w => decide (gidOf w.1 = gidOf t) with
    | some w => { th with status := .live (.waiting (.lines [w.2])) }
    | none => th) ∧ OnlyThreadsChange s s'

/-- A word that the elected thread of each group executes (R83, R243, R259): it faults for the elected threads that fail, waits for
the Absent line of a block, is Stalled while one of them must be, and else acts once for each group and pushes each thread its own
group's value. -/
def ElectedWord (i : Instr) (st : Stall) (d : PDst) (f : State → ThreadKey → Elected) : Prop :=
  ∀ s, issuable i s = true →
    let r := runElected f (electedOf s s.focus.threads) s
    (r.faults ≠ [] → ∃ s', exec i s = .next s' ∧ Faulted s s' r.faults) ∧
    (r.faults = [] → r.waits ≠ [] → ∃ s', exec i s = .next s' ∧ BlocksAwaited s s' r.waits) ∧
    (r.faults = [] → r.waits = [] → r.held = true → ∃ s', exec i s = .next s' ∧ Held s s') ∧
    (r.faults = [] → r.waits = [] → r.held = false → ∃ s', exec i s = .next s' ∧
      GoesOn st s (modThreads r.state s.focus.threads fun t th =>
        match r.values.find? fun v => decide (gidOf v.1 = gidOf t) with
        | some (_, some v) => { th with regs := th.regs.give d (BitVec.ofNat 64 v) 0 none }
        | _ => th) s')

/-- The elected threads: of each group that has threads in the issue group, the one of lowest home warp and lane (R83). -/
def isElected (s : State) (t : ThreadKey) : Prop :=
  t ∈ s.focus.threads ∧ ∀ u ∈ s.focus.threads, gidOf u = gidOf t →
    (hwarpOf t).val * 32 + (laneOf t).val ≤ (hwarpOf u).val * 32 + (laneOf u).val

/-- What placing an operation leaves: it is Pending with the token of its group, which takes the next one: 1 to 0xFFFE in turn; the
token names it, and no older operation (R238, R240, R261). -/
def OpPlaced (s s1 : State) (t : ThreadKey) (k : EngKind) (e : Eng) : Prop :=
  let g := (gidOf t).getD 0
  (∃ id, tget s1.engs id = some e ∧ tokenOp s1 g e.token = some id) ∧ e.named = true ∧ e.dispatched = 0 ∧ e.asked = false ∧
  e.kind = k ∧ e.state = .pending ∧ e.gid = g ∧ e.thread = t ∧ e.pcNext = pcOf s t + 4 ∧
  e.token = ((groupOf s g).map Group.token).getD 1 ∧ e.landed = [] ∧ e.buf = [] ∧ s1.threads = s.threads ∧
  ∀ x, groupOf s g = some x → ∃ x', groupOf s1 g = some x' ∧ x'.token = (if x.token = 0xFFFE then 1 else x.token + 1) ∧
    x'.scratch = x.scratch ∧ x'.acc = x.acc

/-- The inputs of an operation: it waits for the incomplete ones that its tokens name, and it is Faulted where one is already (log 96;
R240, R256). -/
def InputsTaken (s : State) (b : Word) (e : Eng) : Prop :=
  let x := inputOp s e.gid (b.extractLsb' 0 16).toNat
  let y := inputOp s e.gid (b.extractLsb' 16 16).toNat
  e.in0 = x.1 ∧ e.in1 = y.1 ∧ e.poison = (x.2 || y.2)

/-- The token of an operation names it, and no other operation of its group (R240). -/
def NamedAlone (s : State) (op : Nat) (e : Eng) : Prop :=
  e.named = true ∧ ∀ o ∈ s.engs, o.1 ≠ op → o.2.gid = e.gid → o.2.named = true → o.2.token ≠ e.token

/-- An operation has left the table, and a token that still names it keeps its status (R238, R240, R246, R261, R275). -/
def OpEnded (s s' : State) (op : Nat) (e : Eng) (status : Nat) : Prop :=
  tget s'.engs op = none ∧ (NamedAlone s op e →
    ∀ g, groupOf s' e.gid = some g → tget g.statuses e.token = some ⟨status, e.scope, e.kind.isTile⟩)

/-- A packet that has not landed covers an address: its landing may change the byte there (R372, R394). -/
def UnderPacket (s : State) (a : Nat) : Prop := ∃ k ∈ s.packets, k.2.applied = false ∧ k.2.pa ≤ a ∧ a < k.2.pa + packetBytes k.2

/-- No packet that a die has sent is still on its way. -/
def NothingSent (s : State) (d : Fin 8) : Prop := ∀ k ∈ s.packets, k.2.applied = false → ∀ y ∈ k.2.sent, y.1 ≠ d

/-- Memory differs only where dirty words of lines of a die have gone home (R191), and where packets have landed before them (R394). -/
def WrittenBack (s s' : State) (d : Fin 8) : Prop :=
  ∀ a, memByte s'.mem a = memByte s.mem a ∨ UnderPacket s a ∨ ∃ x, l2Of s d (a / 128) = some x ∧
    x.dirty.getLsbD (a % 128 / 4) = true ∧ memByte s'.mem a = x.data.getD (a % 128) 0

/-- An engine fault: the core stops, and the elected thread has the entry with the token as its detail (R242, R263). -/
def EngineTrap (s s' : State) (e : Eng) (l : EngLoc) (addr : Nat) : Prop :=
  (coreOf s' e.core).stopped = true ∧
  ∀ th, threadOf s e.thread = some th → th.entry = none → ∃ th' seen, threadOf s' e.thread = some th' ∧ th'.entry =
    some ⟨match l with | .viol _ _ => .viol | _ => .page, e.pcNext, e.token, BitVec.ofNat 64 addr, false, seen⟩

/-- An engine decrement (R247, R284). -/
def decrementRule (o : BitVec 256) (i j : Nat) (sc : Scope) (xf : Bool) : BitVec 256 :=
  let wide : BitVec 2 := match sc with | .core => 0 | .die => 1 | .pkg => 2 | .sys => 3
  let xs := if (o.extractLsb' 166 2).ult wide then wide else o.extractLsb' 166 2
  let o1 : BitVec 256 := o.extractLsb' 168 88 ++ xs ++ BitVec.ofBool (xf || o.getLsbD 165) ++ o.extractLsb' 0 165
  let o2 := barWith o1 (o.extractLsb' 168 8) false (o.extractLsb' 160 4) (o.extractLsb' 128 16)
    (o.extractLsb' 64 56 - BitVec.ofNat 56 i) (o.extractLsb' 0 56 - BitVec.ofNat 56 j)
  if i = 0 ∧ j = 0 then o2 else (testRule o2).1

/-- The landing of a stack-side reduction (R72). -/
def landRule (r : Fin 4) (d p : Word) : Word :=
  match r with
  | 0 => fp32Result ((fp32 d).add (fp32 p))
  | 1 => BitVec.ofNat 64 (roundRne .bf16 (fdecode .fp32 (roundRne .fp32 ((fdecode .bf16 d.toNat).add (fdecode .bf16 p.toNat)))))
  | 2 => ((d.setWidth 32 : BitVec 32) + p.setWidth 32).setWidth 64
  | 3 => fp32Result ((fp32 d).max (fp32 p))

/-- One chunk onto an accumulator element (R68 to R70). -/
def chunkRule (int : Bool) (acc : BitVec 32) (sum : FVal) : BitVec 32 :=
  if int then acc + BitVec.ofInt 32 (fvalInt sum) else BitVec.ofNat 32 (roundRne .fp32 ((fdecode .fp32 acc.toNat).add sum))

/-! ### Ladles (R286 to R309) -/

/-- The status of a GO that does not depart: 2 without a travelling subset, 4 away, 3 for carve-out and remote addresses, 0 in the
row of the home stack (R307). -/
def goRule (s : State) (t : ThreadKey) (th : Thread) (x : Xlat) : Option Nat :=
  if ((groupOfThread s t).map fun g => g.hdr.migrate) ≠ some true then some 2
  else if th.away.isSome then some 4
  else if x.attr.carve ∨ x.attr.remote then some 3
  else if (stackOf x.pa).val / 4 = th.place.core.die.val / 2 then some 0 else none

/-- The value of WHERE (R309): PLACE, the home stack, and 1 for the thread's row, 2 for another, 3 elsewhere. -/
def whereRule (s : State) (t : ThreadKey) (th : Thread) (x : Xlat) : Word :=
  let far := x.attr.carve || x.attr.remote
  specialRule s t th .place + (if far then 0 else BitVec.ofNat 64 (2 ^ 32 * (stackOf x.pa).val)) +
    BitVec.ofNat 64 (2 ^ 36 * (if far then 3 else if (stackOf x.pa).val / 4 = th.place.core.die.val / 2 then 1 else 2))

/-- The register area of a ladle: the subset registers in ascending order, then q0 upward (R289). -/
def areaRule (h : Header) (r : Regs) : List Word :=
  (((List.finRange 32).filter fun i => h.subset.getLsbD i.val).map fun i => (r.named[i]).val) ++
    (List.range (4 * 2 ^ h.qdepth.val)).map fun k => (r.qcell (Fin.ofNat 16 k)).val

/-- The header flit of a ladle, by its fields (R290). -/
def headerRule (s : State) (t : ThreadKey) (th : Thread) (kind : Fin 4) (home : Place) (pc : Word) : BitVec 512 :=
  let g := groupOfThread s t
  let h := (g.map (·.hdr)).getD Header.zero
  (th.filter ++ 0#16 ++ BitVec.ofNat 2 kind.val ++ BitVec.ofBool h.migStrict ++ BitVec.ofNat 4 (onesOf h.subset) ++
    BitVec.ofNat 2 h.qdepth.val ++ BitVec.ofNat 2 th.streakRow.val ++ BitVec.ofNat 2 th.streak ++
    th.pfx.dln.getD 0 ++ BitVec.ofBool th.pfx.dln.isSome ++ th.pfx.mod.getD 0 ++ BitVec.ofBool th.pfx.mod.isSome ++
    th.pfx.lit.getD 0 ++ BitVec.ofBool th.pfx.lit.isSome ++
    BitVec.ofNat 12 ((List.finRange 12).map fun k => if maskBit s (warpKeyOf t) k (laneOf t) then 2 ^ k.val else 0).sum ++
    BitVec.ofNat 6 home.slot.val ++ BitVec.ofNat 7 home.core.core.val ++ BitVec.ofNat 3 home.core.die.val ++
    BitVec.ofNat 5 (laneOf t).val ++ BitVec.ofNat 5 (hwarpOf t).val ++ BitVec.ofNat 4 ((g.map (·.group.val)).getD 0) ++
    (g.map Group.gang).getD 0 ++ (g.map Group.launch).getD 0 ++ BitVec.ofNat 11 (ctxIdOf s t) ++ pc.extractLsb' 2 54 ++ 0#1)

/-- The registers of a lane that takes a register area: the subset registers and the queue from the area, and zeros above; the other
named registers as `keep` has them (R291, R301). -/
def AreaTaken (h : Header) (area : List Word) (keep r : Regs) : Prop :=
  let sub := (List.finRange 32).filter fun i => h.subset.getLsbD i.val
  (∀ j i, sub[j]? = some i → (r.named[i]).val = area.getD j 0 ∧ (r.named[i]).pend = none) ∧
  (∀ i : Fin 32, h.subset.getLsbD i.val = false → r.named[i] = keep.named[i]) ∧
  ∀ k : Fin 16, (r.qcell k).val = (area.drop sub.length).getD k.val 0 ∧ (r.qcell k).pend = none

/-! ### Interrupts, events and the trap handler (R338, R345, R353 to R357) -/

/-- A vector of a tenant has been raised on each port that gives the tenant a function: pending while it is masked (R345, R384). -/
def Raised (s s' : State) (t vec : Fin 64) : Prop :=
  ∀ p : Fin 2, tenantVf s t p ≠ 0 →
    let m := (tget s.msix (p, tenantVf s t p)).getD Msix.reset
    (m.masked.getLsbD vec.val = true → ∃ m', tget s'.msix (p, tenantVf s t p) = some m' ∧ m'.masked = m.masked ∧
      m'.pending.getLsbD vec.val = true) ∧
    (m.masked.getLsbD vec.val = false → HostNote.irq p (tenantVf s t p) vec ∈ s'.notes)

/-- An event has taken an add, modulo 2^64, and no other byte of memory has changed (R338). -/
def Added (m m' : Memory) (loc inc : Nat) : Prop := wroteAt m m' loc 8 ((memNat m loc 8 + inc) % 2 ^ 64)

/-- A handler fault (R353): the invocation is over, the core stays as it is; the first record stands while Hf is 1; and the context
interrupt of the tenant has been raised. -/
def HandlerFailed (s s' : State) (c : CoreId) (code : Nat) : Prop :=
  let x := (coreOf s c).ctx.getD 0
  coreOf s' c = { coreOf s c with handler := none } ∧ (∀ k, k ≠ c → coreOf s' k = coreOf s k) ∧
  (∀ t, t.isHandler = false → threadOf s' t = threadOf s t) ∧
  (∀ l th, threadOf s (.handler c l) = some th → th.place.core = c →
    threadOf s' (.handler c l) = some { th with status := .ended }) ∧
  ctxOf s' x = (if (ctxOf s x).hf then ctxOf s x
    else { ctxOf s x with hf := true, hfCause := code, hfCore := c.core, hfDie := c.die }) ∧
  Raised s s' (tenantOfCtx s x) (Fin.ofNat 64 (bvf (tenantOf s (tenantOfCtx s x)).entry 1001 996)) ∧
  ∀ a, memByte s'.mem a = memByte s.mem a

/-- The State word of R355, by its fields. -/
def stateRule (th : Thread) : Word :=
  let prior : BitVec 4 := match th.status with
    | .stopped .ready => 1
    | .stopped .stalled => 2
    | .stopped (.waiting _) => 3
    | .stopped .exiting => 4
    | _ => 0
  let cur : BitVec 4 := match th.status with
    | .stopped _ => 1
    | .ended => 2
    | .lost => 3
    | _ => 0
  let res : BitVec 2 := match th.res with
    | .none => 0
    | .resume => 1
    | .step => 2
    | .kill => 3
  (0#32 ++ BitVec.ofNat 8 ((th.entry.map fun e => causeCode e.cause).getD 0) ++ 0#3 ++
    BitVec.ofBool ((th.entry.map fun e => e.again).getD false) ++ prior ++ cur ++ res ++ BitVec.ofBool th.away.isSome ++
    BitVec.ofBool (th.entry.isSome && decide (th.res = .none)) ++ 0#8)

/-- The prefix state as item 0x004 of R355 has it. -/
def pfxRule (p : Pfx) : Word :=
  (0#9 ++ BitVec.ofBool p.dln.isSome ++ p.dln.getD 0 ++ BitVec.ofBool p.mod.isSome ++ p.mod.getD 0 ++ BitVec.ofBool p.lit.isSome ++
    p.lit.getD 0)

/-- The items of a thread (R355), but for EntryMask. -/
def itemRule (s : State) (t : ThreadKey) (th : Thread) (code : Nat) : Word :=
  let reg (c : RCell) : Word := if c.pend.isSome then c.old else c.val
  let e := th.entry
  if code = 0 then stateRule th
  else if code = 1 then th.pc
  else if code = 2 then BitVec.ofNat 64 ((e.map fun x => x.detail).getD 0)
  else if code = 3 then (e.map fun x => x.addr).getD 0
  else if code = 4 then pfxRule th.pfx
  else if code = 5 then wakeRule th
  else if code = 6 then specialRule s t th .place
  else if code = 8 then BitVec.ofNat 64 ((th.away.map fun a => a.masks.toNat).getD 0)
  else if code = 9 then (e.map fun x => x.pc).getD 0
  else if code < 0x20 then reg (th.regs.qcell (Fin.ofNat 16 (code - 0x10)))
  else if code < 0x40 then
    let i := Fin.ofNat 32 (code - 0x20)
    let reach : Bool := match th.away with
      | some _ => ((groupOfThread s t).map fun g => g.hdr.subset.getLsbD i.val).getD false
      | none => Nat.blt i.val (((warpOf s t).map fun w => w.count).getD 0)
    if reach then reg th.regs.named[i] else 0
  else if th.away.isSome then 0
  else if code < 0x50 then ((warpOf s t).map fun w => reg w.w[Fin.ofNat 16 (code - 0x40)]).getD 0
  else ((warpOf s t).map fun w => (w.k[Fin.ofNat 12 (code - 0x50)]).setWidth 64).getD 0

/-- A Stopped thread that TRET kills: by its mark, or with a seen entry and none (R354). -/
def killedRule (th : Thread) : Prop := th.res = .kill ∨ (th.res = .none ∧ ∃ e, th.entry = some e ∧ e.seen = true)

/-! ### Cores and groups (R310 to R324, R341, R408) -/

/-- A write of function 0 takes effect: Phase is ready (R398), and the bucket of the port lets it pass (R387). -/
def Managed (s : State) : Prop := s.boot.phase = .ready ∧ managementPasses s = true

/-- A bind record of a core is Valid whose gang has not started (R311, R315). -/
def StartsSoon (s : State) (c : CoreId) : Prop :=
  ∃ e ∈ s.groups, e.2.core = c ∧ e.2.isResident = true ∧ ∃ x, tget s.gangs e.2.gangKey = some x ∧ x.bound = false

/-- R320: a core in doze mode may doze. -/
def DozeDue (s : State) (c : CoreId) : Prop :=
  ¬ StartsSoon s c ∧ (∃ x, (coreOf s c).ctx = some x ∧ bvf (ctxOf s x).live 249 249 = 1) ∧
  (∀ e ∈ s.threads, e.2.place.core = c → e.2.isResident = true →
    (∃ w, e.2.status = .live (.waiting w)) ∨ e.2.status = .live .exiting) ∧
  (coreOf s c).handler = none ∧ (coreOf s c).stopped = false ∧ (∀ e ∈ s.banks, e.core ≠ c) ∧
  (∀ e ∈ s.slots, e.1.1 = c → e.2.storeq = []) ∧
  (∀ e ∈ s.warps, ∀ g h x k, e.1 = .home g h → groupOf s g = some x → x.isResident = true → x.core = c →
    maskReady s (.home g h) k = false ∧ maskDue s (.home g h) k = false) ∧
  ∀ e ∈ s.groups, e.2.core = c → e.2.recognised = false

/-- R408: a core without threads is clock-gated. -/
def GateDue (s : State) (c : CoreId) : Prop :=
  ¬ StartsSoon s c ∧ (∀ e ∈ s.threads, e.2.place.core = c → e.2.isResident = false) ∧ (coreOf s c).handler = none ∧ ∀ e ∈ s.banks, e.core ≠ c

/-- The cupola may bind a placed group where it stands: the die works, the mask of the context permits it, and the core accepts the
record (R311, R362). -/
def BindOk (s : State) (gid : Nat) (g : Group) : Prop :=
  (dieOf s g.core.die).takes = true ∧ (ctxOf s g.ctx).dieMask.getLsbD g.core.die.val = true ∧ recordOk s gid g = true

/-- A thread is away, or is about to leave in a kind that travels out: a recall reaches it (R287, R303). -/
def Recallable (th : Thread) : Prop :=
  th.isEnded = false ∧ (th.away.isSome = true ∨ ∃ l, th.leaving = some l ∧ l.kind.val < 2)

/-- A gang that has not started goes back to its launch (R311, R341): the gang, its groups and their threads are gone, and the launch
hands out its number anew, before any later one. A closed launch that has no other gang out is discarded (R337). -/
def HandedBack (s s' : State) (k : Nat) (x : Gang) : Prop :=
  s' = { s with gangs := s'.gangs, groups := s'.groups, threads := s'.threads, warps := s'.warps, queues := s'.queues } ∧
  tget s'.gangs k = none ∧ (∀ j, j ≠ k → tget s'.gangs j = tget s.gangs j) ∧
  (∀ i, groupOf s' i = if i ∈ x.groups then none else groupOf s i) ∧
  (∀ t, threadOf s' t = if (∃ i ∈ x.groups, gidOf t = some i) then none else threadOf s t) ∧
  (∀ q, q ≠ x.queue → tget s'.queues q = tget s.queues q) ∧
  ∀ q, tget s.queues x.queue = some q → ∃ rs : List Launch, rs.length = q.records.length ∧
    tget s'.queues x.queue = some { q with records := rs.filter fun l => !(l.closed && l.handed == l.back.length) } ∧
    ∀ (i : Nat) (l : Launch), q.records[i]? = some l → ∃ y, rs[i]? = some y ∧
      (¬ (l.num = x.launch ∧ l.ctx = x.ctx) → y = l) ∧
      (l.num = x.launch ∧ l.ctx = x.ctx → y = { l with back := y.back } ∧ (∀ m, m ∈ y.back ↔ m = x.gang.toNat ∨ m ∈ l.back) ∧
        (l.back.Pairwise (· < ·) → y.back.Pairwise (· < ·)))

/-- The gangs of lower priority that a launch may displace, in the order of R342: lowest priority first, then the most recently bound,
then the lower die. -/
def VictimsOf (s : State) (l : Launch) (vs : List (Nat × Gang)) : Prop :=
  (∀ k x, (k, x) ∈ vs ↔ tget s.gangs k = some x ∧ x.bound = true ∧ x.preempt = false ∧ x.prio < l.prio ∧ x.die ∈ diesFor s l.ctx) ∧
  vs.Pairwise fun a b => ¬ (b.2.prio < a.2.prio ∨ (b.2.prio = a.2.prio ∧
    (a.2.boundAt < b.2.boundAt ∨ (a.2.boundAt = b.2.boundAt ∧ b.2.die < a.2.die))))

/-- The victims of a die, in their order. -/
def victimsOn (vs : List (Nat × Gang)) (d : Fin 8) : List Nat := (vs.filter fun v => decide (v.2.die = d)).map (·.1)

/-- What a save by park or compaction does next (R318): abandoned where a thread waits no longer, draining, or done. -/
def ParkGoesOn (s s' : State) (gid : Nat) (g : Group) : Prop :=
  (allWaiting s gid = false → s' = { s with groups := s'.groups } ∧ groupOf s' gid = some { g with
    parkCount := 0, phase := if g.phase = .parking then .resident else g.phase }) ∧
  (allWaiting s gid = true → drained s g gid = false → s' = { s with groups := s'.groups } ∧
    groupOf s' gid = some { g with phase := .parking }) ∧
  (allWaiting s gid = true → drained s g gid = true →
    (∃ g', groupOf s' gid = some g' ∧ g'.phase = .parkSaved ∧ g'.parkCount = 0 ∧ g'.scratch = g.scratch ∧ g'.acc = g.acc ∧
      ∀ a, a < g'.image ∨ g'.image + 2 ^ 21 ≤ a → memByte s'.mem a = memByte (releaseAct s g.core.die g.ctx .sys).mem a) ∧
    (∀ t, gidOf t ≠ some gid → threadOf s' t = threadOf s t) ∧
    ∀ t th w, gidOf t = some gid → threadOf s t = some th → th.status = .live (.waiting w) →
      ∃ th', threadOf s' t = some th' ∧ th'.pc = th.pc ∧ th'.pfx = th.pfx ∧
        if (∃ n, w = .grow n) then th'.status = .saved .ready ∧ th'.wake.reason = 10
        else th'.status = .saved (.waiting w) ∧ th'.savedMark = true)

/-! ### Logs, queues, hosts and boot (R185, R186, R332, R337, R378 to R408) -/

/-- A violation-log entry, by its fields (R185). -/
def logRule (seq : Nat) (r : LogRec) : BitVec 128 :=
  (0#16 ++ BitVec.ofNat 16 seq ++ BitVec.ofNat 3 r.src ++ BitVec.ofNat 7 r.core ++ BitVec.ofNat 3 r.die ++ BitVec.ofNat 11 r.ctx ++
    BitVec.ofNat 4 r.kind ++ BitVec.ofNat 4 r.space ++ BitVec.ofNat 64 r.addr)

/-- A violation of a tenant has been logged and its interrupt raised: the entry stands behind the others, or is dropped where 64
stand (R185, R186). -/
def Logged (s s' : State) (t : Fin 64) (r : LogRec) : Prop :=
  let n := tenantOf s t
  let n' := tenantOf s' t
  Raised s s' t (Fin.ofNat 64 (bvf n.entry 995 990)) ∧ n'.entry = n.entry ∧ n'.head = n.head ∧ n'.seq = (n.seq + 1) % 65536 ∧
  (n.count = 64 → n'.count = 64 ∧ n'.vlog = n.vlog ∧ n'.dropped = min (n.dropped + 1) 0xFFFF) ∧
  (n.count ≠ 64 → n'.count = n.count + 1 ∧ n'.dropped = n.dropped ∧
    (r.src < 8 → r.core < 128 → r.die < 8 → r.ctx < 2048 → r.kind < 16 → r.space < 16 →
      tget n'.vlog ((n.head + n.count) % 64) = some (logRule n.seq r)))

/-- Stage 1 of R332: the record's own fields. -/
def recordRule (r : BitVec 512) : Prop :=
  r.extractLsb' 0 8 ≠ 1 ∨ r.extractLsb' 96 32 ≠ 0 ∨ r.extractLsb' 32 32 ≠ 0 ∨ r.extractLsb' 8 7 ≠ 0 ∨
  11 < (r.extractLsb' 20 4).toNat ∨ r.extractLsb' 64 32 = 0 ∨
  (∃ a ∈ [r.extractLsb' 256 64, r.extractLsb' 384 64], a.extractLsb' 0 3 ≠ 0 ∨ canonical a.toNat = false)

/-- The tests of R327 on a header's own fields, for a context. -/
def HeaderIllegal (s : State) (ctx : Nat) (r : BitVec 1024) : Prop :=
  let subset := r.extractLsb' 96 32
  let depth := 4 * 2 ^ (r.extractLsb' 15 2).toNat
  let warps := (r.extractLsb' 64 5).toNat + 1
  let named := (r.extractLsb' 8 2).toNat + 1
  let dir := r.extractLsb' 128 64
  r.extractLsb' 0 8 ≠ 1 ∨ (r.extractLsb' 192 832 ≠ 0 ∨ r.extractLsb' 93 3 ≠ 0 ∨ r.extractLsb' 76 4 ≠ 0 ∨ r.extractLsb' 69 3 ≠ 0 ∨
    r.extractLsb' 58 6 ≠ 0 ∨ r.extractLsb' 41 7 ≠ 0 ∨ r.extractLsb' 21 11 ≠ 0) ∨
  256 < (r.extractLsb' 32 9).toNat ∨ 512 < (r.extractLsb' 48 10).toNat ∨ 4096 < (r.extractLsb' 80 13).toNat ∨ 16 < warps ∨
  48 < warps * named ∨
  (r.getLsbD 13 = false ∧ (subset ≠ 0 ∨ r.extractLsb' 15 2 ≠ 0 ∨ r.getLsbD 14 = true)) ∨
  (r.getLsbD 13 = true ∧ (r.extractLsb' 15 2 = 3 ∨ 12 < onesOf subset ∨ 24 < onesOf subset + depth ∨
    ∃ j, subset.getLsbD j = true ∧ 8 * named ≤ j)) ∨
  dir.extractLsb' 0 3 ≠ 0 ∨ canonical dir.toNat = false ∨ r.getLsbD 11 ≠ (ctxOf s ctx).live.getLsbD 249

/-- A write of 8 bytes to the register window of a tenant has reached it at a port, and this is the state it finds (R379, R387). -/
def Windowed (s : State) (t : Fin 64) (b : State) : Prop :=
  ∃ p, windowPort s t = some p ∧ writePasses s p t 8 = true ∧ b = bumpFree (writeSpend s p t 8)

/-- None has: no function of the tenant is in service, or the buckets hold the write back (R379, R387). -/
def Unwindowed (s : State) (t : Fin 64) : Prop := ∀ p, windowPort s t = some p → writePasses s p t 8 = false

/-- The context that a queue names may be bound to it (R337). -/
def CtxFor (s : State) (q : QueueId) (c : Nat) : Prop :=
  (ctxOf s c).exists? = true ∧ (ctxOf s c).destroyed = false ∧ tenantOfCtx s c = q.tenant

/-- The records of a queue that a rebind or a remove leaves: launches with gangs out, which hand out no more (R337). -/
def leftRecords (x : Queue) : List Launch :=
  (x.records.filter fun l => decide (l.handed ≠ l.back.length) && !l.dead).map fun l => { l with closed := true }

/-- A queue command has answered: nothing but the queue has changed. -/
def QueueBecomes (s s' : State) (q : QueueId) (x : Queue) : Prop :=
  queueOf s' q = x ∧ (∀ r, r ≠ q → queueOf s' r = queueOf s r) ∧ s' = { s with queues := s'.queues }

/-- A context command has answered: nothing but the context has changed. -/
def CtxBecomes (s s' : State) (c : Nat) (x : Context) : Prop :=
  ctxOf s' c = x ∧ (∀ d, d ≠ c → ctxOf s' d = ctxOf s d) ∧ s' = { s with contexts := s'.contexts }

/-- A die register has changed, and nothing else. -/
def DieBecomes (s s' : State) (d : Fin 8) (x : Die) : Prop :=
  dieOf s' d = x ∧ (∀ e, e ≠ d → dieOf s' e = dieOf s e) ∧ s' = { s with dies := s'.dies }

/-- LOAD in a completion that a port forms for a tenant's function: 0, where the host has enabled prefixes and LoadFb is set (R388). -/
def loadRule (s : State) (port : Fin 2) (t : Fin 64) : Option Nat :=
  if (portOf s port).prefixes = true ∧ tenantVf s t port ≠ 0 ∧ (portOf s port).loadFb.getLsbD (tenantVf s t port) = true then some 0
  else none

/-- A request of a host has been answered with a note, and nothing else has happened. -/
def Noted (s s' : State) (n : HostNote) : Prop := s' = { s with notes := s.notes ++ [n] }

/-- The value that an AtomicOp of the fabric leaves, if it writes (R394, R396). -/
def hostOpRule (op : HostAtomicOp) (old x y : Nat) : Option Nat :=
  if op = .cas64 ∧ old ≠ x then none
  else some ((if op = .fetchAdd32 ∨ op = .fetchAdd64 then old + x else if op = .cas64 then y else x) %
    2 ^ (if op = .fetchAdd32 ∨ op = .swap32 then 32 else 64))

/-- A failed host access: logged under Space 2 with its offset, and answered with an abort, which carries LOAD where the access expects
a completion (R184, R385, R388). -/
def HostFailed (s s' : State) (port : Fin 2) (t : Fin 64) (load : Option Nat) (kind off : Nat) : Prop :=
  Logged s s' t ⟨3 + port.val, 0, 0, bvf (tenantOf s t).entry 977 967, kind, 2, off⟩ ∧ HostNote.abort port load ∈ s'.notes ∧
  s'.mem = s.mem ∧ s'.hostReads = s.hostReads ∧ s'.hostWrites = s.hostWrites

/-- A function takes no access to n bytes of BAR2 at an offset: it is out of service, the bytes are not all in BAR2, there are none, or
they cross 4,096 bytes (R379, R380, R398). -/
def Bar2Refuses (s : State) (port : Fin 2) (t : Fin 64) (off n : Nat) : Prop :=
  served s port t = false ∨ 2 ^ (tget (portOf s port).bar2 (Fin.ofNat 64 (tenantVf s t port))).getD 40 < off + n ∨ n = 0 ∨
    4096 < off % 4096 + n

/-- A posted write of the function has not been accepted at home (R385). -/
def WritesPending (s : State) (port : Fin 2) (t : Fin 64) : Prop :=
  ∃ e ∈ s.hostWrites, e.2.port = port ∧ e.2.fn = tenantVf s t port

/-- A message of another package has acted at a place, and its answer, where it has one, has gone back (R372, R385, R396). -/
def RemoteEffect (s s' : State) (stack : Fin 16) (k : Fin 2) (loc len : Nat) (op : RemoteOp) : Prop :=
  let back (n : Nat) : Prop := s'.sent = s.sent ++ [OffNote.response stack k (memBytes s.mem loc n)]
  match op with
  | .read => s'.mem = s.mem ∧ back len
  | .write data => s'.sent = s.sent ∧ ∀ a, memByte s'.mem a =
      if loc ≤ a ∧ a < loc + (data.take len).length then (data.take len).getD (a - loc) 0 else memByte s.mem a
  | .atomic o x y =>
    let n := if o = .fetchAdd32 ∨ o = .swap32 then 4 else 8
    back n ∧ match hostOpRule o (memNat s.mem loc n) x.toNat y.toNat with
      | some v => wroteAt s.mem s'.mem loc n v
      | none => s'.mem = s.mem
  | .landing r p =>
    let n := if r = 1 then 2 else 4
    s'.sent = s.sent ∧ wroteAt s.mem s'.mem loc n (landRule r (BitVec.ofNat 64 (memNat s.mem loc n)) (p.setWidth 64)).toNat
  | .free o wide p =>
    s'.sent = s.sent ∧ if wide = true then
      wroteAt s.mem s'.mem loc 8 (atomRule o .w64 (BitVec.ofNat 64 (memNat s.mem loc 8)) p).toNat
    else wroteAt s.mem s'.mem loc 4 (atomRule o .w32 (BitVec.ofNat 64 (memNat s.mem loc 4)) p).toNat

/-- A bucket of a port lets n bytes of a direction pass: it has no limit, or it holds them (R387). -/
def BucketPasses (b : Bucket) (out : Bool) (n : Nat) : Prop :=
  if out = true then b.pair.extractLsb' 32 16 = 0 ∨ n ≤ b.outFill else b.pair.extractLsb' 0 16 = 0 ∨ n ≤ b.inFill

/-- What a bucket holds after n bytes of a direction have passed (R387). -/
def spentRule (b : Bucket) (out : Bool) (n : Nat) : Bucket :=
  if out = true then (if b.pair.extractLsb' 32 16 = 0 then b else { b with outFill := b.outFill - n })
  else if b.pair.extractLsb' 0 16 = 0 then b else { b with inFill := b.inFill - n }

/-- A host request that has taken effect at home: each 64-byte block of own DRAM that it touches is a request of the class of its page,
and its completions of at most 512 bytes leave once all are served: at once for host memory, with LOAD 0 where LoadFb is set and
prefixes are enabled (R364, R368, R378, R388). -/
def HostAnswered (s s' : State) (port : Fin 2) (t : Fin 64) (p : Xlat) (n : Nat) (data : List Byte) : Prop :=
  let i := s.seq
  (p.attr.remote = true → requestsDone s' i = requestsDone s i) ∧
  (p.attr.remote = false → ∀ k, p.loc < 64 * k + 64 → 64 * k < p.loc + n → ∃ r ∈ s'.requests, r.op = some i ∧
    r.pa = max p.loc (64 * k) ∧ r.pa + r.len = min (p.loc + n) (64 * k + 64) ∧ r.cls = p.attr.page ∧ r.stamped = false ∧
    (r.held = false → r.deadline = s.clock + 0xFFFF * 64 ∧ r.arrived = s.clock) ∧
    r.port = runnerPort (if port = 0 then 0 else 15) (stackOf r.pa) ∧ r.ctx = bvf (tenantOf s t).entry 977 967) ∧
  (requestsDone s' i = false → tget s'.hostReads i = some ⟨port, t, p.loc, data, []⟩) ∧
  (requestsDone s' i = true → tget s'.hostReads i = none ∧
    ∀ k, 512 * k < data.length → HostNote.completion port ((data.drop (512 * k)).take 512) (loadRule s port t) ∈ s'.notes)

/-- Bit i of a register of several words after a 64-bit write to its word k (R13, R383): writable bits of the word take the value. -/
def bitAfter (writable : Nat → Bool) (k : Nat) (v : BitVec 64) (old : Bool) (i : Nat) : Bool :=
  if i / 64 = k ∧ writable i then v.getLsbD (i % 64) else old

end Sys2Proof.Machine
end

