-- ==== Sys2Proof/Certificates/Slice0/Obligations.lean ====
section
/-! DEFINITION. The statements for the provers. -/

open Sys2Proof Sys2Proof.Machine Classical

/-! ### Encoding, reset and step -/

/-- Decoding the word of a well-formed instruction gives that instruction, for every instruction that has a word, with every
operand at every value. -/
def Obligations.DecodeOfEncode : Prop :=
  ∀ (i : Instr) (w : IWord), (∀ x, i ≠ .illegalWord x) → i.wf = true → encode i = some w → decode w = .ok i

/-- A word that decodes is the word of the instruction it decodes to, which is well-formed: no bit of it is dropped, and no two
words are one instruction. -/
def Obligations.EncodeOfDecode : Prop :=
  ∀ (w : IWord) (i : Instr), decode w = .ok i → encode i = some w ∧ i.wf = true

/-- Words that the manual writes out decode to the instructions it gives them (R29, R87, R93, R108, R117, R127). -/
def Obligations.WordsOfTheManual : Prop :=
  decode 0x05FFFFF0#32 = .ok (.lit 0x1FFFFF 0) ∧ decode 0x5C053D00#32 = .ok (.movi (.thread (.named 4)) 0x3D0 0) ∧
  decode 0x09455610#32 = .ok (.iadd .w32 .ss (.n 4) (.n 5) (.thread (.named 6)) 0) ∧
  decode 0x1C101721#32 = .ok (.sar .w32 (.q 1) (.q 0) (.thread (.named 7)) 1) ∧
  decode 0x2400C020#32 = .ok (.icmp .w32 .lt (.q 0) (.q 3) (.thread .push) 0) ∧
  decode 0x31800010#32 = .ok (.growTry 2 .push 0) ∧ decode 0x31000020#32 = .ok (.shrink 1 0) ∧
  decode 0x9C000000#32 = .ok (.exit 0)

/-- What the manual says of a package that leaves reset: CLOCK is 0; the boot area is in phase 0, unclaimed, without an error, and
no package number is set; every die is ON at clock step 24, not busy, without an error; the acceptance bounds of R337 stand; a
tenant has CtxVec 63, ViolVec 62, Weight 1, an empty log and nothing else; and no port, region, link, queue, context, carve-out
unit or work is there (R95 to R99, R186, R337, R363, R384, R389, R397, R398, R408). -/
def Obligations.ResetState : Prop :=
  let s := State.reset
  s.clock = 0 ∧ s.boot.phase = .training ∧ s.boot.claimed = false ∧ s.boot.errCode = 0 ∧ s.boot.errUnit = 0 ∧
  s.boot.pkgSet = false ∧ s.boot.pkgNum = 0 ∧ s.boot.attBusy = false ∧ s.boot.attDone = false ∧
  (∀ d, (dieOf s d).pow = .on ∧ (dieOf s d).step = 24 ∧ (dieOf s d).err = 0 ∧ (dieOf s d).change = none ∧
    (dieOf s d).startFail = false ∧ (dieOf s d).l2 = [] ∧
    ∀ u : Fin 8, (dieOf s d).carve[u].valid = false ∧ (dieOf s d).carve[u].err = 0 ∧ (dieOf s d).carve[u].busy = false) ∧
  (∀ k : Fin 12, s.latbnd[k] = if 9 ≤ k.val then 2 ^ 63 + 50 else if 6 ≤ k.val then 2 ^ 63 + 500 else 0) ∧
  (∀ t, bvf (tenantOf s t).entry 1001 996 = 63 ∧ bvf (tenantOf s t).entry 995 990 = 62 ∧
    bvf (tenantOf s t).entry 989 982 = 1 ∧ bvf (tenantOf s t).entry 1023 1023 = 0 ∧
    (tenantOf s t).head = 0 ∧ (tenantOf s t).count = 0 ∧ (tenantOf s t).dropped = 0 ∧ (tenantOf s t).seq = 0) ∧
  (∀ p : Fin 2, (portOf s p).cfg = 0 ∧ (portOf s p).loadFb = 0 ∧ ∀ w : Fin 16, (portOf s p).windows[w] = 0) ∧
  (∀ r : Fin 64, s.regions[r] = 0) ∧ s.linkFail = 0 ∧ s.groups = [] ∧ s.threads = [] ∧ s.queues = [] ∧ s.contexts = [] ∧
  s.engs = [] ∧ s.watches = []

/-- A step with an issue move at the head of the agenda runs the word at the path's program counter: where the former of the
quarter has a group and its fetch brings a word, the step is `exec` of the instruction that the word decodes to, or of
ILLEGAL_WORD where it decodes to none, on the state in which the group stands in `focus`; where the fetch fails, every thread of
the group faults; where the former has no group, the threads that their unit refuses are Stalled. The leaders of R80 and the
states of R75 settle after each. The agenda and the moves are the model's own (log 1). -/
def Obligations.StepRunsTheDecodedWord : Prop :=
  ∀ (c : CoreId) (q : Fin 4) (rest : List Move) (s : State), s.agenda = .issue c q :: rest →
    let s0 : State := { s with agenda := rest }
    let s1 := wakeLeaders s0 c q
    let s2 := stallHeld exec s1 c q
    (mayIssue s0 c q = false → step s = .next (settled s0)) ∧
    (mayIssue s0 c q = true → formGroup exec s1 c q = none → step s = .next (settled s2)) ∧
    ∀ (k : PathKey) (ts : List ThreadKey) (slots : List (Fin 64)), mayIssue s0 c q = true →
      formGroup exec s1 c q = some (k, ts, slots) →
      let ctx := ((ts.head?).map (ctxIdOf s1)).getD 0
      (∀ (w : IWord) (s3 : State), fetchAt s2 c ctx k.pc.toNat (boundSince s1 ts) = (.word w, s3) → ∀ i,
        decode w = .ok i ∨ (∃ e, decode w = .error e) ∧ i = .illegalWord w →
        step s = onNext (fun x => settled (afterIssue x c k ts slots))
          (exec i { markIssued s3 c q ctx (issuingSlots i slots) with focus := ⟨c, q, ts⟩ })) ∧
      ∀ (r : XRes) (s3 : State), fetchAt s2 c ctx k.pc.toNat (boundSince s1 ts) = (.miss r, s3) →
        step s = .next (settled (takeFaults (markIssued s3 c q ctx slots) c (ts.filterMap fun t => xlatFault s3 t k.pc.toNat r)))

/-- A step with an event at the head of the agenda is `exec` of the event, after which every slot has the leader of R80 and every
thread the state of R75; with a tick, one fabric cycle; and with an empty agenda the next move is a free choice (log 1). -/
def Obligations.StepPerformsTheMove : Prop :=
  ∀ (s : State) (rest : List Move),
    (∀ i, s.agenda = .event i :: rest → encode i = none → step s = onNext settled (exec i { s with agenda := rest })) ∧
    (s.agenda = .tick :: rest → step s = .next (tickCycle { s with agenda := rest })) ∧
    (s.agenda = [] → step s = step { s with agenda := [Config.nextMove s.moveCount], moveCount := s.moveCount + 1 })

/-- No state makes a step stop: every word of every issue group and every event goes on, to its effect or to the exception that
the manual gives it. -/
def Obligations.NoStepStops : Prop :=
  (∀ s, Goes (step s)) ∧
  (∀ (i : Instr) (s : State), s.focus.threads ≠ [] → Goes (exec i s)) ∧
  (∀ (i : Instr) (s : State), encode i = none → Goes (exec i s)) ∧
  (∀ (i : Instr) (s : State), (encode i).isSome = true → s.focus.threads = [] → exec i s = .fault .noIssueGroup)

/-! ### Register words -/

/-- IADD and ISUB in their three forms, IMIN, IMAX and IABS give the results of R118 and R120 with the high halves of R113, 2
cycles later; nothing else changes. IMUL gives the low half of the product, IMULH the floor of the exact signed or unsigned
product over 2^n, IMAD the low half of product and sum; 4 cycles later (R119, R125). -/
def Obligations.SumsAndProducts : Prop :=
  (∀ (n : Width) (m : SatMode) (uns : Bool) (a b : Src) (d : Dst) (st : Stall),
     Word2 (.iadd n m a b d st) st 2 d a b (sumRule (· + ·) n m) ∧
     Word2 (.isub n m a b d st) st 2 d a b (sumRule (· - ·) n m) ∧
     Word2 (.imin n uns a b d st) st 2 d a b (minRule n uns) ∧
     Word2 (.imax n uns a b d st) st 2 d a b (maxRule n uns) ∧
     Word1 (.iabs n a d st) st 2 d a (fun _ => absRule n)) ∧
  (∀ (n : Width) (a b c : Src) (d : Dst) (uni : Bool) (st : Stall),
     Word2 (.imul n a b d st) st 4 d a b (fun x y => zHigh (low n x * low n y)) ∧
     Word2 (.imulhS n a b d st) st 4 d a b (fun x y =>
       sHigh (BitVec.ofInt (widthBits n) ((low n x).toInt * (low n y).toInt / 2 ^ widthBits n))) ∧
     Word2 (.imulhU n a b d st) st 4 d a b (fun x y =>
       zHigh (BitVec.ofNat (widthBits n) ((low n x).toNat * (low n y).toNat / 2 ^ widthBits n))) ∧
     Word3 (.imad n a b c uni st) st 4 (dstOfC c uni) a b c (fun x y z => zHigh (low n x * low n y + low n z)))

/-- The shifts take their count from the low 5 or 6 bits of b; SAR copies the sign; ROT rotates left (R122). POPC counts the 1
bits, CLZ the zeros above the highest 1, BREV reverses the bits, BFE and BFI take and put a field; 4 cycles later (R123, R126). -/
def Obligations.ShiftsAndFields : Prop :=
  (∀ (n : Width) (a b : Src) (d : Dst) (st : Stall),
     Word2 (.shl n a b d st) st 2 d a b (fun x y => zHigh (low n x <<< shiftOf n y)) ∧
     Word2 (.shr n a b d st) st 2 d a b (fun x y => zHigh (low n x >>> shiftOf n y)) ∧
     Word2 (.sar n a b d st) st 2 d a b (fun x y => sHigh ((low n x).sshiftRight (shiftOf n y))) ∧
     Word2 (.rot n a b d st) st 2 d a b (fun x y => zHigh ((low n x).rotateLeft (shiftOf n y)))) ∧
  (∀ (n : Width) (a b c : Src) (d : Dst) (uni : Bool) (st : Stall),
     Word1 (.popc n a d st) st 4 d a (fun _ x => BitVec.ofNat 64 (onesOf (low n x))) ∧
     Word1 (.clz n a d st) st 4 d a (fun _ x => zHigh (low n x).clz) ∧
     Word1 (.brev n a d st) st 4 d a (fun _ x => zHigh (low n x).reverse) ∧
     Word2 (.bfe n a b d st) st 4 d a b (bfeRule n) ∧
     Word3 (.bfi n a b c uni st) st 4 (dstOfC c uni) a b c (bfiRule n))

/-- The logic words, LEA, ICMP, SEL and MOV (R115, R121, R124, R125). The format I words compute on all 64 bits with the immediate
of R29; the shifts use its low 6 bits (R127). -/
def Obligations.LogicMovesAndImmediates : Prop :=
  (∀ (n : Width) (rel : ICmpRel) (sh : Fin 16) (a b c : Src) (d : Dst) (uni : Bool) (st : Stall),
     Word2 (.andW a b d st) st 2 d a b (fun x y => x &&& y) ∧
     Word2 (.orW a b d st) st 2 d a b (fun x y => x ||| y) ∧
     Word2 (.xorW a b d st) st 2 d a b (fun x y => x ^^^ y) ∧
     Word2 (.andn a b d st) st 2 d a b (fun x y => x &&& ~~~y) ∧
     Word2 (.lea sh a b d st) st 2 d a b (fun x y => x + (y <<< sh.val)) ∧
     Word2 (.icmp n rel a b d st) st 2 d a b (fun x y => if relRule n rel x y then 1 else 0) ∧
     Word3 (.sel a b c uni st) st 2 (dstOfC c uni) a b c (fun x y z => if z ≠ 0 then x else y) ∧
     Word1 (.mov a d st) st 2 d a (fun _ x => x)) ∧
  (∀ (a : Src) (d : Dst) (imm : BitVec 10) (st : Stall),
     Word1 (.iaddi a d imm st) st 2 d a (fun p x => x + immRule p imm) ∧
     Word1 (.andi a d imm st) st 2 d a (fun p x => x &&& immRule p imm) ∧
     Word1 (.ori a d imm st) st 2 d a (fun p x => x ||| immRule p imm) ∧
     Word1 (.xori a d imm st) st 2 d a (fun p x => x ^^^ immRule p imm) ∧
     Word1 (.shli a d imm st) st 2 d a (fun p x => x <<< ((immRule p imm).extractLsb 5 0).toNat) ∧
     Word1 (.shri a d imm st) st 2 d a (fun p x => x >>> ((immRule p imm).extractLsb 5 0).toNat) ∧
     Word1 (.sari a d imm st) st 2 d a (fun p x => x.sshiftRight ((immRule p imm).extractLsb 5 0).toNat) ∧
     Word0 (.movi d imm st) st 2 d (fun p => immRule p imm))

/-- FADD, FSUB, FMUL and FFMA form one exact result from the modified operands and round it once; FMIN, FMAX and FCMP compare; 4
cycles later (R128, R129, R131 to R135). The packed words work on each element in BF16 or FP16 and round once; FCVT rounds its
decoded source under its mode, for SR with the low half of the partner register (R58, R139, R141, R142). -/
def Obligations.FloatWords : Prop :=
  (∀ (n aa ab nc : Bool) (rel : FCmpRel) (a b c : Src) (d : Dst) (uni : Bool) (st : Stall),
     Word2 (.fadd n aa ab a b d st) st 4 d a b (fun x y =>
       fp32Result ((modified aa n (fp32 x)).add (modified ab false (fp32 y)))) ∧
     Word2 (.fsub n aa ab a b d st) st 4 d a b (fun x y =>
       fp32Result ((modified aa n (fp32 x)).add (modified ab true (fp32 y)))) ∧
     Word2 (.fmul n aa ab a b d st) st 4 d a b (fun x y =>
       fp32Result (modified false n ((modified aa false (fp32 x)).mul (modified ab false (fp32 y))))) ∧
     Word3 (.ffma n nc a b c uni st) st 4 (dstOfC c uni) a b c (fun x y z =>
       fp32Result ((modified false n ((fp32 x).mul (fp32 y))).add (modified false nc (fp32 z)))) ∧
     Word2 (.fmin a b d st) st 4 d a b (fun x y => fp32Result ((fp32 x).min (fp32 y))) ∧
     Word2 (.fmax a b d st) st 4 d a b (fun x y => fp32Result ((fp32 x).max (fp32 y))) ∧
     Word2 (.fcmp rel a b d st) st 4 d a b (fun x y => if fcmpHolds rel (fp32 x) (fp32 y) then 1 else 0)) ∧
  (∀ (h n nc : Bool) (src : CvtSrc) (dst : CvtDst) (r : RndCode) (a b c : Src) (d : Dst) (p : PDst) (st : Stall),
     Word2 (.hadd2 h a b p st) st 4 (.thread p) a b (fun x y => packedRule h fun i => (packElem h i x).add (packElem h i y)) ∧
     Word2 (.hmul2 h a b p st) st 4 (.thread p) a b (fun x y => packedRule h fun i => (packElem h i x).mul (packElem h i y)) ∧
     Word2 (.hmax2 h a b p st) st 4 (.thread p) a b (fun x y => packedRule h fun i => (packElem h i x).max (packElem h i y)) ∧
     Word3 (.hfma2 h n nc a b c st) st 4 (dstOfC c false) a b c (fun x y z => packedRule h fun i =>
       (modified false n ((packElem h i x).mul (packElem h i y))).add (modified false nc (packElem h i z))) ∧
     (r.isSr = false → Word1 (.fcvt src dst r a d st) st 4 d a (fun _ x => aluFcvt src dst r x 0)) ∧
     (r.isSr = true → Word2 (.fcvt src dst r a d st) st 4 d a (srcPartner a)
       (fun x y => aluFcvt src dst r x (y.setWidth 32).toNat)))

/-- The seven function words put the result of their function into q0 and d, 12 cycles later (R128, R136). The function unit,
whatever its unpublished maps are: it reads the low half only; NaN gives the canonical NaN; zeros and infinities give the listed
results; a power of two has its exact reciprocal, a power of four its exact inverse root, an integer its exact power, a power of
two its exact logarithm; FRSQ and FLOG2 of a negative value give NaN; and FSIN and FCOS of a value beyond 2^15 are numbers of [-1,
1] (R137, R138). -/
def Obligations.FunctionUnit : Prop :=
  (∀ (a : Src) (d : PDst) (st : Stall),
     Word1 (.frcp a d st) st 12 (.thread d) a (fun _ => aluFn .rcp) ∧
     Word1 (.frsq a d st) st 12 (.thread d) a (fun _ => aluFn .rsq) ∧
     Word1 (.fexp2 a d st) st 12 (.thread d) a (fun _ => aluFn .exp2) ∧
     Word1 (.flog2 a d st) st 12 (.thread d) a (fun _ => aluFn .log2) ∧
     Word1 (.fsin a d st) st 12 (.thread d) a (fun _ => aluFn .sin) ∧
     Word1 (.fcos a d st) st 12 (.thread d) a (fun _ => aluFn .cos) ∧
     Word1 (.ftanh a d st) st 12 (.thread d) a (fun _ => aluFn .tanh)) ∧
  (∀ (f : Fn) (a : Word),
     (∀ b : Word, b.setWidth 32 = a.setWidth 32 → aluFn f b = aluFn f a) ∧
     (fp32 a = .nan → aluFn f a = 0x7FC00000) ∧
     (∀ neg, fp32 a = .inf neg → aluFn f a = fnOfInf f neg) ∧
     (∀ neg e, fp32 a = .fin neg 0 e → aluFn f a = fnOfZero f neg) ∧
     ∀ neg m e, fp32 a = .fin neg m e → m ≠ 0 →
       (neg = true → f = .rsq ∨ f = .log2 → aluFn f a = 0x7FC00000) ∧
       (∀ j : Nat, m = 2 ^ j → f = .rcp → aluFn f a = fp32Result (.fin neg 1 (-(j + e)))) ∧
       (∀ (j : Nat) (k : Int), m = 2 ^ j → neg = false → j + e = 2 * k → f = .rsq →
         aluFn f a = fp32Result (.fin false 1 (-k))) ∧
       (∀ j : Nat, m = 2 ^ j → neg = false → f = .log2 →
         aluFn f a = fp32Result (.fin (decide (j + e < 0)) (j + e).natAbs 0)) ∧
       (∀ i : Int, (fp32 a).rat? = some (i : ℚ) → -149 ≤ i → i ≤ 127 → f = .exp2 →
         aluFn f a = fp32Result (.fin false 1 i)) ∧
       (2 ^ 15 * 2 ^ 149 < m * 2 ^ (e + 149).toNat → f = .sin ∨ f = .cos →
         ∃ neg' m' e', fp32 (aluFn f a) = .fin neg' m' e' ∧ ((m' : ℚ) * 2 ^ e') ≤ 1))

/-- The exact arithmetic behind every floating-point word: on finite values sums, products, negation, absolute value and order
are those of the real numbers; a sum of equal infinities is that infinity, of opposite ones NaN, and a zero times an infinity is
NaN; an exact zero sum is -0 only of two -0 (R55, R129). FMIN and FMAX take the lesser and the greater operand, with -0 below +0 and
NaN before all; FCMP holds by the order, in which the zeros are equal and NaN is unordered (R134, R135). -/
def Obligations.ExactArithmetic : Prop :=
  (∀ x y : FVal, ∀ p q : ℚ, x.rat? = some p → y.rat? = some q →
    (x.add y).rat? = some (p + q) ∧ (x.mul y).rat? = some (p * q) ∧ x.negate.rat? = some (-p) ∧
    x.abs.rat? = some |p| ∧ (x.lt y = true ↔ p < q)) ∧
  (∀ s t : Bool, (FVal.inf s).add (.inf t) = if s = t then .inf s else .nan) ∧
  (∀ (s t : Bool) (e : Int), (FVal.inf s).mul (.fin t 0 e) = .nan ∧ (FVal.fin t 0 e).mul (.inf s) = .nan) ∧
  (∀ x y : FVal, ∀ p q : ℚ, x.rat? = some p → y.rat? = some q → p + q = 0 →
    ((x.add y).neg? = true ↔ p = 0 ∧ x.neg? = true ∧ y.neg? = true)) ∧
  (∀ (s t : Bool) (m : Nat) (e : Int), (FVal.inf s).lt (.fin t m e) = s ∧ (FVal.fin t m e).lt (.inf s) = !s ∧
    (FVal.inf s).lt (.inf t) = (s && !t)) ∧
  (∀ x y : FVal,
    (x = .nan ∨ y = .nan → x.min y = .nan ∧ x.max y = .nan ∧ ∀ r, fcmpHolds r x y = (r == .ne || r == .un)) ∧
    (x ≠ .nan → y ≠ .nan →
      (x.lt y = true → x.min y = x ∧ x.max y = y) ∧ (y.lt x = true → x.min y = y ∧ x.max y = x) ∧
      (∀ p, x.rat? = some p → y.rat? = some p → (x.min y).rat? = some p ∧ (x.max y).rat? = some p ∧
        (p = 0 → (x.min y).neg? = (x.neg? || y.neg?) ∧ (x.max y).neg? = (x.neg? && y.neg?))) ∧
      (∀ s, x = .inf s → y = .inf s → x.min y = .inf s ∧ x.max y = .inf s) ∧
      fcmpHolds .eq x y = (!x.lt y && !y.lt x) ∧ fcmpHolds .ne x y = (x.lt y || y.lt x) ∧ fcmpHolds .lt x y = x.lt y ∧
      fcmpHolds .le x y = !y.lt x ∧ fcmpHolds .gt x y = y.lt x ∧ fcmpHolds .ge x y = !x.lt y ∧ fcmpHolds .un x y = false))

/-- Rounding: a code of a finite value, rounded in any mode, gives that code again. A finite result of round to nearest even is
a value of the format than which no finite value is nearer, and has an even code where another is as near (R53, R57). RZ gives the
greatest magnitude not beyond the value's, RD the greatest value not above it, RU the least not below it, and SR one of the two
neighbours, by the random word; what overflows gives the largest value or the target of the format, by mode and sign; NaN the
canonical NaN, an infinity the target, a zero itself (R57 to R60). FCVT converts so, and to an integer by rounding to an integer under
the mode and saturating, NaN to 0; its integer sources have their exact value (R42, R61, R139). -/
def Obligations.RoundingToNearest : Prop :=
  ∀ f : FFmt,
    (∀ (r : Rnd) (t : Bool) (c : Nat) (neg : Bool) (m : Nat) (e : Int), c < 2 ^ f.width → fdecode f c = .fin neg m e →
      fround f r t (fdecode f c) = c) ∧
    (∀ (x : FVal) (p v : ℚ), x.rat? = some p → (fdecode f (roundRne f x)).rat? = some v →
      ∀ (c : Nat) (u : ℚ), (fdecode f c).rat? = some u →
        |v - p| ≤ |u - p| ∧ (|v - p| = |u - p| → u ≠ v → roundRne f x % 2 = 0)) ∧
    (∀ (t : Bool) (x : FVal) (p : ℚ), x.rat? = some p →
      let vals : ℚ → Prop := fun u => ∃ c, (fdecode f c).rat? = some u
      let got (r : Rnd) (v : ℚ) : Prop := (fdecode f (fround f r t x)).rat? = some v
      (∃ v, got .rz v ∧ |v| ≤ |p| ∧ 0 ≤ v * p ∧ ∀ u, vals u → |u| ≤ |p| → 0 ≤ u * p → |u| ≤ |v|) ∧
      (-fmtMax f ≤ p → ∃ v, got .rd v ∧ v ≤ p ∧ ∀ u, vals u → u ≤ p → u ≤ v) ∧
      (p ≤ fmtMax f → ∃ v, got .ru v ∧ p ≤ v ∧ ∀ u, vals u → p ≤ u → v ≤ u) ∧
      (¬ Overflows f .rne p → ∃ v, got .rne v) ∧
      (∀ (rnd : Nat) (l h : ℚ), Neighbours vals p l h → got (.sr rnd) (stochastic (rnd % 2 ^ 32) p l h)) ∧
      ∀ r, Overflows f r p → fround f r t x = withSign f (decide (p < 0)) (match r with
        | .rz => maxRuleCode f
        | .rd => if p < 0 then targetCode f t else maxRuleCode f
        | .ru => if p < 0 then maxRuleCode f else targetCode f t
        | _ => targetCode f t)) ∧
    (∀ (r : Rnd) (t neg : Bool) (e : Int), fround f r t .nan = nanRuleCode f ∧
      fround f r t (.inf neg) = withSign f neg (targetCode f t) ∧ fround f r t (.fin neg 0 e) = withSign f neg 0) ∧
    ∀ (src : CvtSrc) (c : RndCode) (x : Word) (rnd : Nat),
      let v := cvtDecode src x
      let int (lo hi : ℤ) (i : ℤ) : Prop := (v = .nan → i = 0) ∧ (∀ neg, v = .inf neg → i = if neg then lo else hi) ∧
        ∀ p, v.rat? = some p → ∃ j, IntRounded (modeRule c rnd) p j ∧ i = within lo hi j
      aluFcvt src (.float f) c x rnd = BitVec.ofNat 64 (fround f (modeRule c rnd) (togglesRule c) v) ∧
      (∃ i, int (-2 ^ 31) (2 ^ 31 - 1) i ∧ aluFcvt src .s32 c x rnd = (BitVec.ofInt 32 i).signExtend 64) ∧
      (∃ i, int 0 (2 ^ 32 - 1) i ∧ aluFcvt src .z32 c x rnd = (BitVec.ofInt 32 i).setWidth 64) ∧
      (∃ i, int (-2 ^ 63) (2 ^ 63 - 1) i ∧ aluFcvt src .s64 c x rnd = BitVec.ofInt 64 i) ∧
      (∀ n : ℤ, (src = .s8 ∧ n = (x.setWidth 8).toInt) ∨ (src = .s16 ∧ n = (x.setWidth 16).toInt) ∨
        (src = .s32 ∧ n = (x.setWidth 32).toInt) ∨ (src = .s64 ∧ n = x.toInt) ∨ (src = .z8 ∧ n = (x.setWidth 8).toNat) ∨
        (src = .z16 ∧ n = (x.setWidth 16).toNat) ∨ (src = .z32 ∧ n = (x.setWidth 32).toNat) ∨ (src = .z64 ∧ n = x.toNat) →
        v.rat? = some (n : ℚ) ∧ v.neg? = decide (n < 0)) ∧
      ∀ g, src = .float g → v = fdecode g x.toNat

/-! ### Control -/

/-- A hint and LIT go on with their prefix state: LIT, MOD and DLN set their part of it, DEAD and the unassigned kinds nothing; no
other part of the package changes (R29, R31, R32, R34). YIELD gives each slot that its path leads to the best other path of the
slot, with the yielding path's count at 0, and changes no other slot; PHASE sends its begin or end notice to each of the sixteen
stacks, or nothing where bit 16 or 17 is set (R39, R85, R370). -/
def Obligations.HintWords : Prop :=
  (∀ (kind : BitVec 4) (p : BitVec 19) (v : BitVec 22) (st : Stall),
     ThreadWord (.hintNop kind p st) (fun s _ th => hinted (now s) st th.pfx th) ∧
     ThreadWord (.hintDead p st) (fun s _ th => hinted (now s) st th.pfx th) ∧
     ThreadWord (.hintMod p st) (fun s _ th => hinted (now s) st
       { th.pfx with mod := some (p.extractLsb' 5 14), modBad := p.extractLsb' 0 5 != 0 } th) ∧
     ThreadWord (.hintDln p st) (fun s _ th => hinted (now s) st
       { th.pfx with dln := some (p.extractLsb' 0 16), dlnBad := p.extractLsb' 16 3 != 0 } th) ∧
     ThreadWord (.lit v st) (fun s _ th => hinted (now s) st { th.pfx with lit := some v } th)) ∧
  ((∀ (p : BitVec 19) (st : Stall) (s : State) (k : PathKey), issuable (.hintYield p st) s = true →
     (∀ t ∈ s.focus.threads, ∀ th, threadOf s t = some th → pathKeyOf th = k) →
     ∃ s', exec (.hintYield p st) s = .next s' ∧ ThreadsBecome s s' (fun _ th => hinted (now s) st th.pfx th) ∧
       (∀ c i, slotOf s' c i =
         match bestPath ((slotPaths s c i).filter (· ≠ k)) with
         | some b =>
           if (slotOf s c i).leader = some k ∧
               (∃ t ∈ s.focus.threads, ∃ th, threadOf s t = some th ∧ th.place.core = c ∧ th.place.slot = i) then
             { slotOf s c i with
               leader := some b, timed := false, counts := tset (tdel (slotOf s c i).counts b) ⟨k.pc + 4, k.pfx⟩ 0 }
           else slotOf s c i
         | none => slotOf s c i) ∧
       (∀ a, memByte s'.mem a = memByte s.mem a) ∧
       s' = { s with threads := s'.threads, slots := s'.slots, freeCount := s.freeCount + 1 }) ∧
   (∀ (p : BitVec 19) (st : Stall) (s : State), issuable (.hintPhase p st) s = true →
     ∃ s', exec (.hintPhase p st) s = .next s' ∧ ThreadsBecome s s' (fun _ th => hinted (now s) st th.pfx th) ∧
       (∀ a, memByte s'.mem a = memByte s.mem a) ∧
       s' = { s with
         threads := s'.threads
         freeCount := s.freeCount + 1
         phases := if p.getLsbD 16 ∨ p.getLsbD 17 then s.phases
           else s.phases.filter (fun e => e.core ≠ s.focus.core) ++
             if p.getLsbD 18 then (List.finRange 16).map fun k =>
               ⟨k, s.focus.core, if p.extractLsb' 0 16 = 0 then none else some (s.clock + 1024 * (p.extractLsb' 0 16).toNat)⟩
             else [] }))

/-- The branches go to their target or on; CALL pushes the return address, 2 cycles; JMPR and RET go to their operand where it is
a canonical multiple of 4 in every thread (R91, R92). JMPR and RET with a target that is no canonical multiple of 4 in some thread
take effect for none: each thread with a misaligned target faults with ALIGN, each other thread with a non-canonical one with
VIOL, logged (R92, R184, R351). That this log entry has Kind 3 and Space 0, as a translation's has, is the model's reading
(log 8). -/
def Obligations.ControlTransfers : Prop :=
  (∀ (a : Src) (disp : BitVec 17) (st : Stall),
     ThreadWord (.bra disp st) (fun s _ th => issued (now s) st (branchRule th.pc disp) th.regs th) ∧
     ThreadWord (.bnz a disp st) (fun s t th => issued (now s) st
       (if readSrc s t 0 a ≠ 0 then branchRule th.pc disp else th.pc + 4) th.regs th) ∧
     ThreadWord (.bz a disp st) (fun s t th => issued (now s) st
       (if readSrc s t 0 a = 0 then branchRule th.pc disp else th.pc + 4) th.regs th) ∧
     ThreadWord (.call disp st) (fun s _ th => issued (now s) st (branchRule th.pc disp)
       (th.regs.give .push (th.pc + 4) (now s + 2) none) th) ∧
     ∀ i, i = .jmpr a st ∨ i = .ret a st → ∀ s, issuable i s = true →
       (∀ t ∈ s.focus.threads, jumpable (readSrc s t 0 a) = true) →
       ∃ s', exec i s = .next s' ∧
         ThreadsBecome s s' (fun t th => issued (now s) st (readSrc s t 0 a) th.regs th) ∧ OnlyThreadsChange s s') ∧
  (∀ (a : Src) (st : Stall) (i : Instr), i = .jmpr a st ∨ i = .ret a st → ∀ s, issuable i s = true →
     (∀ t ∈ s.focus.threads, t.isHandler = false) → (∃ t ∈ s.focus.threads, jumpable (readSrc s t 0 a) = false) →
     let fs := s.focus.threads.filterMap fun t =>
       let v := readSrc s t 0 a
       if v.extractLsb 1 0 ≠ 0 then some (addrFault s t .align v.toNat)
       else if canonical v.toNat then none
       else some (violFault s t 3 0 v.toNat)
     ∃ s', exec i s = .next s' ∧ Faulted s s' fs)

/-- TRAP, BRK and a word that is no instruction take their exception in every thread of the issue group: TRAP records the next
word's address and its number and resumes behind it, the others record the address of the word (R44, R95, R351 to R353). -/
def Obligations.ExceptionEntry : Prop :=
  ∀ s, (∀ t ∈ s.focus.threads, t.isHandler = false) →
    (∀ (num : BitVec 6) (st : Stall), issuable (.trap num st) s = true → ∃ s', exec (.trap num st) s = .next s' ∧
      Trapped s s' s.focus.core (s.focus.threads.map fun t => ⟨t, .trap, pcOf s t + 4, num.toNat, 0, none⟩)) ∧
    (∀ st : Stall, issuable (.brk st) s = true → ∃ s', exec (.brk st) s = .next s' ∧
      Trapped s s' s.focus.core (s.focus.threads.map fun t => ⟨t, .brk, pcOf s t, 0, 0, none⟩)) ∧
    (∀ w : IWord, s.focus.threads ≠ [] → s.focus.threads.Nodup → ∃ s', exec (.illegalWord w) s = .next s' ∧
      Trapped s s' s.focus.core (s.focus.threads.map fun t => ⟨t, .illegal, pcOf s t, 0, 0, none⟩))

/-- What every word does at issue. Away threads of a carried word leave for home, and the word is issued for the others (R299). The
first fault of R45 in a thread: the word takes effect for none, and each thread that has one faults with it: ILLEGAL of R425 before
PRIV, then LITSEQ, ILLEGAL of a prefix, REGRANGE and STALLSHORT. REGRANGE at home is a named code at or beyond the count; away it is
SHFL, a REGS word, any w code, and any named code outside the subset (R106, R111, R116, R291). A thread whose step is armed stops after
the word with an entry of cause BRK and Detail 1, after a hint or LIT, too; where the word leaves it waiting, when the wait ends (R356).
That the whole group goes without effect is the model's reading (log 6), as are the moment at which an away thread leaves (log 7) and the
stop of a word that waits in a unit (log 13). -/
def Obligations.ChecksBeforeEffect : Prop :=
  (∀ (i : Instr) (s : State), (encode i).isSome = true → (∀ w, i ≠ .illegalWord w) → s.focus.threads.Nodup →
    s.focus.threads ≠ [] → (∀ t ∈ s.focus.threads, t.isHandler = false) →
    (issuesFor i s = [] → ∃ s0, CarryBegun i s s0 ∧ exec i s = .next s0) ∧
    (issuesFor i s ≠ [] → (∀ t ∈ issuesFor i s, srcsReady s t (instrShape i) = true) →
      (∃ t ∈ issuesFor i s, issueCause s t (instrShape i) ≠ none) →
      ∃ s0 s', CarryBegun i s s0 ∧ exec i s = .next s' ∧
        Trapped s0 s' s.focus.core ((issuesFor i s).filterMap fun t =>
          (issueCause s t (instrShape i)).map fun c => ⟨t, c, pcOf s t, 0, 0, none⟩))) ∧
  (∀ (i : Instr) (s : State) (t : ThreadKey), t.isHandler = false →
    let sh := instrShape i
    let p := pfxOf s t
    let named (k : Nat) : Prop := k ∈ shapeNamed sh
    let out := if isAway s t = true then homeOnlyRule i = true ∨ sh.uni = true ∨ (∃ k, Src.w k ∈ sh.srcs) ∨
        ∃ k, named k ∧ ∀ g, groupOfThread s t = some g → g.hdr.subset.getLsbD k = false
      else ∃ k, named k ∧ ∀ w, warpOf s t = some w → w.count ≤ k
    sh.carry = carriedRule i ∧
    (sh.priv = true → issueCause s t sh = some .priv) ∧
    (sh.priv = false → p.lit.isSome = true → sh.imm = false → issueCause s t sh = some .litSeq) ∧
    (sh.priv = false → p.lit = none ∨ sh.imm = true →
      (prefixBad sh p = true → issueCause s t sh = some .illegal) ∧
      (prefixBad sh p = false → out → issueCause s t sh = some .regRange) ∧
      (prefixBad sh p = false → ¬ out → issueCause s t sh = if stallShort s t sh = true then some .stallShort else none))) ∧
  (∀ (s : State) (ts : List ThreadKey), ts.Nodup → (∀ t ∈ ts, t.isHandler = false) →
    let stops := ts.filter fun t => ((threadOf s t).map stepDue).getD false
    ∃ x : State, (∀ t, threadOf x t = if t ∈ ts then (threadOf s t).map fun th => { th with step := stepAfter th } else threadOf s t) ∧
      x = { s with threads := x.threads } ∧
      (stops = [] → stepStops s ts = x) ∧
      (stops ≠ [] → Trapped x (stepStops s ts) s.focus.core (stops.map fun t => ⟨t, .brk, pcOf s t, 1, 0, none⟩))) ∧
  (∀ (i : Instr) (s : State), (∃ k p, i = .hintNop k p 0) ∨ (∃ v, i = .lit v 0) →
    s.focus.threads ≠ [] → s.focus.threads.Nodup →
    (∀ t ∈ s.focus.threads, t.isHandler = false ∧ issueCause s t (instrShape i) = none ∧
      ∃ th, threadOf s t = some th ∧ th.status = .live .ready ∧ stepDue th = true) →
    ∃ x s', exec i s = .next s' ∧ x = { s with threads := x.threads } ∧ (∀ t, t ∉ s.focus.threads → threadOf x t = threadOf s t) ∧
      (∀ t ∈ s.focus.threads, ∀ th, threadOf s t = some th → ∃ p, threadOf x t = some { hinted (now s) 0 p th with step := .off }) ∧
      Trapped x s' s.focus.core (s.focus.threads.map fun t => ⟨t, .brk, pcOf s t + 4, 1, 0, none⟩)) ∧
  ∀ (s : State) (t : ThreadKey) (th : Thread) (w : Wait) (reason : Nat), t.isHandler = false → threadOf s t = some th →
    th.status = .live (.waiting w) → th.step = .counted →
    ∃ x : State, x = { s with threads := x.threads, groups := x.groups } ∧ (∀ u, u ≠ t → threadOf x u = threadOf s u) ∧
      threadOf x t = some { th with wake := ⟨reason, th.dozedMark, th.savedMark⟩, savedMark := false, dozedMark := false
                                    status := .live .ready, step := .off } ∧
      Trapped x (wakeThread s t reason) th.place.core [⟨t, .brk, th.pc, 1, 0, none⟩]

/-- A fault of a thread of slot 63 is a handler fault: the invocation ends with no resolution, the core stays as it is, and Hf,
HfCause, HfCore and HfDie are set unless Hf stands; shown for TRAP and BRK, and for every word of R425, which is ILLEGAL
there (R353, R425). -/
def Obligations.HandlerFaults : Prop :=
  ∀ (i : Instr) (code : Nat) (c : CoreId) (s : State), issuable (.brk 0) s = true → s.focus.core = c →
    (∀ t ∈ s.focus.threads, (∃ l, t = .handler c l) ∧ isAway s t = false ∧ srcsReady s t (instrShape i) = true) →
    ((∃ n st, i = .trap n st ∧ code = 13) ∨ (∃ st, i = .brk st ∧ code = 14) ∨
      ((instrShape i).noHandler = true ∧ (encode i).isSome = true ∧ code = 1)) →
    ∃ s', exec i s = .next s' ∧ coreOf s' c = { coreOf s c with handler := none } ∧
      (∀ l th, threadOf s (.handler c l) = some th → th.place.core = c →
        threadOf s' (.handler c l) = some { th with status := .ended }) ∧
      (∀ t, t.isHandler = false → threadOf s' t = threadOf s t) ∧ (∀ a, memByte s'.mem a = memByte s.mem a) ∧
      (ctxOf s' ((coreOf s c).ctx.getD 0) =
        let x := ctxOf s ((coreOf s c).ctx.getD 0)
        if x.hf then x else { x with hf := true, hfCause := code, hfCore := c.core, hfDie := c.die }) ∧
      s' = { s with threads := s'.threads, cores := s'.cores, slots := s'.slots, contexts := s'.contexts, msix := s'.msix
                    notes := s'.notes, watches := s'.watches, freeCount := s.freeCount + 1 }

/-! ### Memory -/

/-- A walk of the page tables from the root of the context: the levels are read from memory in turn; an entry that is not Valid is
PAGE, a malformed one VIOL 4, a table outside backed DRAM VIOL 7 (R177, R180). The checks of the leaf end in the first fault of this
order, or in the frame with the offset: no Read where it is needed VIOL 0, no Write VIOL 1 (an access that needs both and finds Read,
too), no Exec VIOL 2; a carve-out frame of another die or a unit assigned to another context VIOL 6; own DRAM outside every window of
the tenant VIOL 5; a frame that is unbacked VIOL 7 (R179, R180, R183). For memory behind a host port VIOL 5 without a host window, else
the bus address it gives (R386). An address that is not canonical is VIOL 3 before anything is read (R180). -/
def Obligations.TranslationChecks : Prop :=
  ∀ (s : State) (c va : Nat) (d : Fin 8) (need : Need),
    (∀ n tbl, let ea := tbl + 8 * (va / 2 ^ pageBits n % 1024)
      let e : BitVec 64 := BitVec.ofNat 64 (bytesNat (memBytes s.mem ea 8))
      (isOwn s ea = false ∨ paMode ea = 3 ∨ unbacked s ea = true → walkFrom s va (n + 1) tbl = .viol 7) ∧
      (isOwn s ea = true → paMode ea ≠ 3 → unbacked s ea = false →
        (e.getLsbD 0 = false → walkFrom s va (n + 1) tbl = .notPresent) ∧
        (e.getLsbD 0 = true → malformed s n e = true → walkFrom s va (n + 1) tbl = .viol 4) ∧
        (e.getLsbD 0 = true → malformed s n e = false → e.getLsbD 1 = false →
          walkFrom s va (n + 1) tbl = walkFrom s va n (pteTable e)) ∧
        (e.getLsbD 0 = true → malformed s n e = false → e.getLsbD 1 = true →
          walkFrom s va (n + 1) tbl = .leaf (Fin.ofNat 4 n) ea e))) ∧
    (∀ (core : Option CoreId), (canonical va = false → translate s d core c va need = (.viol 3, s)) ∧
      (canonical va = true → core.bind (fun k => tlbFind (coreOf s k).tlb c va) = none → tlbFind (dieOf s d).tlb c va = none →
        (translate s d core c va need).1 = match walkFrom s va 4 (((ctxOf s c).live.extractLsb' 469 43).toNat * 2 ^ 13) with
          | .viol k => .viol k
          | .notPresent => .page
          | .leaf level _ e => checkLeaf s (some d) c va need level e)) ∧
    (∀ (t : Fin 64) (pa k : Nat), k < 8 → (inWindow s t pa k = true ↔
      let w := (tenantOf s t).entry.extractLsb' (64 * k) 64
      w.getLsbD 63 = true ∧ (w.extractLsb' 0 30).toNat ≤ pa / 2 ^ 26 ∧ pa / 2 ^ 26 ≤ (w.extractLsb' 32 30).toNat)) ∧
    ∀ (level : Fin 4) (e : BitVec 64),
      let pa := pteFrame e + va % 2 ^ pageBits level.val
      let r := checkLeaf s (some d) c va need level e
      let t := tenantOfCtx s c
      let rights := (need.r = true → e.getLsbD 4 = true) ∧ (need.w = true → e.getLsbD 5 = true) ∧
        (need.x = true → e.getLsbD 6 = true)
      let away := carveDie pa ≠ d ∨ ((unitOf s pa).valid = true ∧ (unitOf s pa).ctx ≠ c)
      let windowed := ∃ k, k < 8 ∧ inWindow s t pa k = true
      let frame (loc : Nat) (x : Xlat) := x.pa = pa ∧ x.loc = loc ∧ x.attr.carve = e.getLsbD 9 ∧ x.attr.shared = e.getLsbD 7 ∧
        x.attr.redWin = e.getLsbD 8 ∧ x.attr.cls.val = bvf e 11 10 ∧ x.attr.temp.val = bvf e 13 12 ∧
        x.attr.remote = !isOwn s pa
      (need.r = true → e.getLsbD 4 = false → r = .viol 0) ∧
      ((need.r = true → e.getLsbD 4 = true) → need.w = true → e.getLsbD 5 = false → r = .viol 1) ∧
      ((need.r = true → e.getLsbD 4 = true) → (need.w = true → e.getLsbD 5 = true) → need.x = true → e.getLsbD 6 = false →
        r = .viol 2) ∧
      (rights → e.getLsbD 9 = true → away → r = .viol 6) ∧
      (rights → e.getLsbD 9 = true → ¬ away → unbacked s pa = true → r = .viol 7) ∧
      (rights → e.getLsbD 9 = true → ¬ away → unbacked s pa = false → isOwn s pa = true → ∃ x, r = .ok x ∧ frame pa x) ∧
      (rights → e.getLsbD 9 = false → isOwn s pa = true → ¬ windowed → r = .viol 5) ∧
      (rights → e.getLsbD 9 = false → isOwn s pa = true → windowed → unbacked s pa = true → r = .viol 7) ∧
      (rights → e.getLsbD 9 = false → isOwn s pa = true → windowed → unbacked s pa = false → ∃ x, r = .ok x ∧ frame pa x) ∧
      ∀ p, rights → e.getLsbD 9 = false → isOwn s pa = false → hostPort s pa = some p →
        (hostAddr s t p pa = none → r = .viol 5) ∧ ∀ k, hostAddr s t p pa = some k → ∃ x, r = .ok x ∧ frame k x

/-- LD: each thread that stays has a load outstanding for its address, to which q0 and d of the thread are owed; a thread whose
access migrates begins to leave instead; no byte of memory changes (R199, R202 to R204, R207). -/
def Obligations.LoadIssues : Prop :=
  ∀ (a : Src) (d : PDst) (w : MemW) (off : BitVec 8) (st : Stall) (s s1 : State) (ps : List Plan),
    issuable (.ld a d w off st) s = true →
    Planned s (memSize w) ⟨true, false, false⟩ false (fun t => memAddr s t a off w) ps s1 →
    ∃ s', exec (.ld a d w off st) s = .next s' ∧
      PlansTaken s s' ps (fun j p th => issued (now s) st (th.pc + 4) (th.regs.give d 0 0 (some (s.seq + j))) (streaked p th)) ∧
      (∀ j p, (staying ps)[j]? = some p → tget s'.ops (s.seq + j) = some (loadOp s p w (s.seq + j))) ∧
      (∀ id, id < s.seq → tget s'.ops id = tget s.ops id) ∧ (∀ x, memByte s'.mem x = memByte s.mem x) ∧
      s' = { s1 with threads := s'.threads, ops := s'.ops, seq := s.seq + (staying ps).length, freeCount := s.freeCount + 1 }

/-- ST: once the accesses that its releases wait for are done, each thread that stays has a store at the end of its slot's queue,
with the low bytes of its data, and the line in its write filter; releases act first; nothing is stored to memory yet (R202 to
R208, R292). -/
def Obligations.StoreIssues : Prop :=
  ∀ (a d : Src) (w : MemW) (off : BitVec 8) (st : Stall) (s s1 : State) (ps : List Plan),
    issuable (.store a d w off st) s = true →
    Planned s (memSize w) ⟨false, true, false⟩ false (fun t => memAddr s t a off w) ps s1 →
    (∀ e ∈ (staying ps).filterMap (relOf s), releaseReady s e.2 e.1 = true) →
    let r := releaseAll (startMigrations s1 ps) ((staying ps).filterMap (relOf s))
    let q (j : Nat) (p : Plan) : Store :=
      { id := s.seq + j, word := s.seq, thread := p.thread, pa := p.x.loc
        data := natBytes (memSize w) (readSrc s p.thread 1 d).toNat, point := p.loc.point.getD .cache, attr := p.attr
        through := ((relOf s p).map fun e => isWide e.2).getD false, applied := false }
    ∃ s', exec (.store a d w off st) s = .next s' ∧
      PlansTaken s s' ps (fun _ p th => { issued (now s) st (th.pc + 4) th.regs (streaked p th) with
        filter := if p.x.attr.remote ∨ p.x.attr.carve then th.filter else th.filter ||| (1#256 <<< filterIdx p.x.pa) }) ∧
      (∀ c i, (slotOf s' c i).storeq = (slotOf s c i).storeq ++ ((staying ps).zipIdx.filter fun e =>
        (threadOf s e.1.thread).any fun th => th.place.core = c ∧ th.place.slot = i).map fun e => q e.2 e.1) ∧
      ((staying ps).filterMap (relOf s) = [] → ∀ x, memByte s'.mem x = memByte s.mem x) ∧
      s' = { r with threads := s'.threads, slots := s'.slots, seq := s.seq + (staying ps).length, freeCount := s.freeCount + 1 }

/-- ATOM and ACAS: once the accesses that a release waits for are done, the threads of the issue group have one atomic outstanding, to
which q0 and the destination are owed; under `.nr` nothing is owed, and what executes at home without an acquire leaves as one packet for
each word, with the operand of each of its threads, for the home stack; no value of memory is decided yet, and without a release no byte
changes (R208, R211 to R216). -/
def Obligations.AtomicsIssue : Prop :=
  ∀ (i : Instr) (cas : Bool) (n : Width) (op : AtomOp) (a b : Src) (d : PDst) (st : Stall) (y : State → ThreadKey → Word),
    ((i = .atom n op a b d st ∧ cas = false ∧ y = fun _ _ => 0) ∨
      (∃ c, i = .acas n a b c st ∧ cas = true ∧ op = .exch ∧ d = cPDst c ∧ y = fun s t => readSrc s t 2 c)) →
    ∀ (s s1 : State) (ps : List Plan), issuable i s = true →
      Planned s (widthBits n / 8) ⟨true, true, false⟩ true (fun t => (readSrc s t 0 a).toNat) ps s1 →
      (∀ p ∈ ps, p.x.attr.remote = true → hostTakes (hostAtomics s p.x.loc) cas n op = true) →
      (∀ e ∈ ps.filterMap (relOf s), releaseReady s e.2 e.1 = true) →
      let m := ((s.focus.threads.head?).map fun t => (pfxOf s t).mod.getD 0).getD 0
      let acq := if modOrder m = 1 ∨ modOrder m = 3 then some (scopeOfMod m) else none
      let op0 (tag : Option Nat) (l : List Plan) : Op :=
        { core := s.focus.core, warp := ((l.head?).map fun p => warpKeyOf p.thread).getD (.home 0 0)
          threads := l.map (·.thread), crucible := false
          body := .atomic cas (widthBits n / 8) op (l.map (atomItem s b (y s) tag)) acq }
      ∃ s' x, exec i s = .next s' ∧ GoesOn st s x s' ∧
        (ps.filterMap (relOf s) = [] → ∀ k, memByte s'.mem k = memByte s.mem k) ∧
        (modNoRet m = false → tget x.ops s.seq = some (op0 (some s.seq) ps) ∧
          ∀ p ∈ ps, threadOf x p.thread = (threadOf s p.thread).map fun th =>
            { streaked p th with
              regs := th.regs.give d 0 0 (some s.seq)
              filter := if p.x.attr.remote ∨ p.x.attr.carve then th.filter else th.filter ||| (1#256 <<< filterIdx p.x.pa) }) ∧
        (modNoRet m = true →
          let red (p : Plan) : Bool := acq.isNone && p.loc.point == some .home && !p.x.attr.remote
          let words := dedup ((ps.filter red).map fun p => p.x.loc)
          (∀ p ∈ ps.filter red, ∃ (j : Nat) (k : Packet) (m : Nat), j < words.length ∧ tget x.packets (s.seq + j) = some k ∧
            k.stack = stackOf p.x.pa ∧ k.pa = p.x.loc ∧ k.atom = some (op, widthBits n / 8) ∧ k.applied = false ∧
            k.threads = ((ps.filter red).filter fun y => decide (y.x.loc = p.x.loc)).map (·.thread) ∧
            k.threads[m]? = some p.thread ∧ k.values[m]? = some (readSrc s p.thread 1 b)) ∧
          ((ps.filter fun p => !red p) ≠ [] →
            tget x.ops (s.seq + words.length) = some (op0 none (ps.filter fun p => !red p))) ∧
          ∀ p ∈ ps, ((threadOf x p.thread).map (·.regs)) = (threadOf s p.thread).map (·.regs))

/-- The new value of an atomic, by operation: the low bits of the sum, the single-precision sum, the signed lesser or greater, the
bitwise results, the operand (R212). RESULT_RETURN of an atomic: the accesses apply one after another in the order of the group,
whole, before anything else happens; each reads its old value and writes its new value, ACAS only where the old value equals its
operand; on carve-out and remote memory no other byte changes; the old values, zero-extended, go to the registers that wait for
them, at once or once the DRAM requests of the access have been granted (R212, R215, R216, R366). -/
def Obligations.AtomicsTakeEffect : Prop :=
  (∀ (op : AtomOp) (n : Width) (old p : Word), (op = .fadd → n = .w32) → low n (atomNew op n old p) = atomRule op n old p) ∧
  ((∀ (s : State) (id : Nat) (c : CoreId) (cas : Bool) (n : Width) (op : AtomOp) (x : AtomItem),
     x.attr.carve = true ∨ x.attr.remote = true → x.point = .cache ∨ x.attr.remote = true → (op = .fadd → n = .w32) →
     let sz := widthBits n / 8
     let old := BitVec.ofNat 64 (bytesNat (memBytes s.mem x.pa sz))
     let new := if cas then (if old = zHigh (low n x.p) then low n x.c else low n old) else atomRule op n old x.p
     (atomApply s id c cas sz op x).1 = old ∧
     ∀ k, memByte (atomApply s id c cas sz op x).2.mem k =
       if x.pa ≤ k ∧ k < x.pa + sz then (natBytes sz new.toNat).getD (k - x.pa) 0 else memByte s.mem k) ∧
   (∀ (s : State) (id : Nat) (o : Op) (cas : Bool) (size : Nat) (op : AtomOp) (items : List AtomItem) (acq : Option Scope),
     tget s.ops id = some o → o.body = .atomic cas size op items acq → atomReady s id items acq = true →
     (∀ x ∈ items, HostOpen s (ctxIdOf s x.thread) x.pa true size) →
     let r := atomRun (items.foldl (fun a x => deviceSpend a (ctxIdOf s x.thread) x.pa true size) s) id o.core cas size op items
     let quiet := ∀ x ∈ items, readAsks s x.point o.core false x.pa size x.attr (some x.thread) = []
     (quiet → exec (.resultReturn id) s = .next (deliverAll (atomAcquire r.2 items acq) id r.1)) ∧
     (¬ quiet → ∃ s', exec (.resultReturn id) s = .next s' ∧ tget s'.ops id = some { o with body := .back r.1 acq } ∧
       (∃ q ∈ s'.requests, q.op = some id) ∧ s'.threads = (atomAcquire r.2 items acq).threads ∧
       ∀ k, memByte s'.mem k = memByte (atomAcquire r.2 items acq).mem k)) ∧
   (∀ (s : State) (id : Nat) (c : CoreId) (cas : Bool) (size : Nat) (op : AtomOp) (x : AtomItem) (l : List AtomItem),
     atomRun s id c cas size op [] = ([], s) ∧
     let r := atomApply s id c cas size op x
     let q := atomRun r.2 id c cas size op l
     atomRun s id c cas size op (x :: l) = ((match x.tag with
       | some tag => [(x.thread, tag, r.1)]
       | none => []) ++ q.1, q.2)) ∧
   (∀ (s : State) (id : Nat) (o : Op) (cas : Bool) (size : Nat) (op : AtomOp) (items : List AtomItem) (acq : Option Scope),
     tget s.ops id = some o → o.body = .atomic cas size op items acq →
     atomReady s id items acq = false ∨ (∃ x ∈ items, devicePasses s (ctxIdOf s x.thread) x.pa true size = false) →
     exec (.resultReturn id) s = .next s))

/-- RESULT_RETURN of a load: once older accesses allow it, it reads the bytes at its point, with the thread's own queued stores laid
over them; extended, they arrive in every register that the load owes, at once where no DRAM request is asked, else once its
requests have been granted; then the load is gone; nothing happens before (R23, R28, R204, R224, R228, R366). -/
def Obligations.LoadReturns : Prop :=
  ∀ (s : State) (id : Nat) (o : Op) (t : ThreadKey) (pa size tag : Nat) (sx mem : Bool) (pt : Point) (a : Attr) (acq : Option Scope),
    tget s.ops id = some o → o.body = .load t pa size sx tag pt a acq mem →
    (loadReady s id t pa pt acq = false ∨ (linkUp s pa = true ∧ devicePasses s (ctxIdOf s t) pa false size = false) →
      exec (.resultReturn id) s = .next s) ∧
    (loadReady s id t pa pt acq = true → linkUp s pa = false → t.isHandler = false → KeysOnce s → NoStepDue s →
      ∃ s', exec (.resultReturn id) s = .next s' ∧ tget s'.ops id = none ∧ LinkFaulted s s' o.core t a.va) ∧
    let got := loadRead (deviceSpend s (ctxIdOf s t) pa false size) id o.core t pa size pt a acq mem
    let v : Word := if sx then (BitVec.ofNat (8 * size) (bytesNat got.1)).signExtend 64 else BitVec.ofNat 64 (bytesNat got.1)
    let asks := readAsks s pt o.core (acq.isNone || acq == some .core) pa size a (some t)
    let open? := HostOpen s (ctxIdOf s t) pa false size
    (asks = [] → loadReady s id t pa pt acq = true → open? → KeysOnce s → NoStepDue s →
      ∃ s', exec (.resultReturn id) s = .next s' ∧ tget s'.ops id = none ∧ (∀ k, memByte s'.mem k = memByte got.2.mem k) ∧
        ∀ th, threadOf s t = some th → th.wait? = none → th.status ≠ .live .exiting →
          ∃ th', threadOf s' t = some th' ∧ th'.status = th.status ∧ th'.pc = th.pc ∧ th'.regs = th.regs.deliver tag v) ∧
    (asks ≠ [] → loadReady s id t pa pt acq = true → open? →
      ∃ s', exec (.resultReturn id) s = .next s' ∧ tget s'.ops id = some { o with body := .back [(t, tag, v)] acq } ∧
        (∀ k, memByte s'.mem k = memByte got.2.mem k) ∧ s'.threads = s.threads ∧ ∃ r ∈ s'.requests, r.op = some id) ∧
    (let o' : Op := { o with body := .back [(t, tag, v)] acq }
     ∀ s2, tget s2.ops id = some o' → (requestsDone s2 id = false → exec (.resultReturn id) s2 = .next s2) ∧
      (requestsDone s2 id = true → KeysOnce s2 → NoStepDue s2 →
        ∃ s', exec (.resultReturn id) s2 = .next s' ∧ tget s'.ops id = none ∧ (∀ k, memByte s'.mem k = memByte s2.mem k) ∧
          ∀ th, threadOf s2 t = some th → th.wait? = none → th.status ≠ .live .exiting →
            ∃ th', threadOf s' t = some th' ∧ th'.status = th.status ∧ th'.pc = th.pc ∧ th'.regs = th.regs.deliver tag v))

/-- STORE_DRAIN: the oldest store of a queue is applied at its point once older accesses of its thread, and of its issue group to the same
bytes, allow it; it leaves the queue at once, or once the DRAM requests that it asks have been granted; into carve-out or remote memory it
changes its own bytes and no other; an empty queue does nothing (R190 to R192, R204, R205, R366). L2_EVICTION: an unpinned line of its slice's
lowest rank leaves the L2 with its dirty words at home, behind the packets that the die has sent there, and no other byte of memory
changes; a pinned or absent line, and one of a higher rank, stays (R191, R195, R394; that a cache operator goes before Temp in the rank is
the model's: log 21). -/
def Obligations.WritesReachHome : Prop :=
  (∀ (s : State) (c : CoreId) (i : Fin 64),
     ((slotOf s c i).storeq = [] → exec (.storeDrain c i) s = .next s) ∧
     ∀ (x : Store) (rest : List Store), (slotOf s c i).storeq = x :: rest →
       let asks := writeAsks s x.point c x.pa x.data.length x.attr x.through (some x.thread)
       let open? := HostOpen s (ctxIdOf s x.thread) x.pa true x.data.length
       (x.applied = true → requestsDone s x.id = false → exec (.storeDrain c i) s = .next s) ∧
       (x.applied = true → requestsDone s x.id = true → ∃ s', exec (.storeDrain c i) s = .next s' ∧
         (slotOf s' c i).storeq = rest ∧ (∀ k j, (k, j) ≠ (c, i) → (slotOf s' k j).storeq = (slotOf s k j).storeq) ∧
         ∀ k, memByte s'.mem k = memByte s.mem k) ∧
       (x.applied = false → drainReady s x = false ∨ (linkUp s x.pa = true ∧
         devicePasses s (ctxIdOf s x.thread) x.pa true x.data.length = false) → exec (.storeDrain c i) s = .next s) ∧
       (x.applied = false → drainReady s x = true → linkUp s x.pa = false → x.thread.isHandler = false → KeysOnce s → NoStepDue s →
         ∃ s', exec (.storeDrain c i) s = .next s' ∧ LinkFaulted s s' c x.thread x.attr.va ∧
           ∀ k, memByte s'.mem k = memByte s.mem k) ∧
       (x.applied = false → drainReady s x = true → open? → ∃ s', exec (.storeDrain c i) s = .next s' ∧
         (slotOf s' c i).storeq = (if asks = [] then rest else { x with applied := true } :: rest) ∧
         (asks ≠ [] → ∃ r ∈ s'.requests, r.op = some x.id) ∧
         (∀ k j, (k, j) ≠ (c, i) → (slotOf s' k j).storeq = (slotOf s k j).storeq) ∧
         (∀ k, memByte s'.mem k = memByte (writeAt (deviceSpend s (ctxIdOf s x.thread) x.pa true x.data.length) x.point c x.pa
           x.data x.attr (ctxIdOf s x.thread) (some x.thread) x.through).mem k) ∧
         (x.attr.remote = true ∨ (x.attr.carve = true ∧ x.point = .cache) → ∀ k, memByte s'.mem k =
           if x.pa ≤ k ∧ k < x.pa + x.data.length then x.data.getD (k - x.pa) 0 else memByte s.mem k))) ∧
  (∀ (s : State) (d : Fin 8) (ln : Nat),
     (l2Of s d ln = none → exec (.l2Eviction d ln) s = .next s) ∧
     (∀ x, l2Of s d ln = some x → x.pins ≠ [] → exec (.l2Eviction d ln) s = .next s) ∧
     (∀ x k y, l2Of s d ln = some x → l2Of s d k = some y → y.pins = [] → sliceOf (k * 128) = sliceOf (ln * 128) →
       y.rank < x.rank → exec (.l2Eviction d ln) s = .next s) ∧
     (∀ x, l2Of s d ln = some x → x.pins = [] → x.data.length = 128 →
       (∀ k y, l2Of s d k = some y → y.pins = [] → sliceOf (k * 128) = sliceOf (ln * 128) → x.rank ≤ y.rank) →
       let s0 := if x.dirty = 0 then s else behindPackets s d (stackOf (ln * 128))
       (NothingSent s d → s0 = s) ∧ ∃ s', exec (.l2Eviction d ln) s = .next s' ∧ l2Of s' d ln = none ∧
         ∀ k, memByte s'.mem k = if k / 128 = ln ∧ x.dirty.getLsbD (k % 128 / 4) = true then x.data.getD (k % 128) 0
           else memByte s0.mem k))

/-- A load by any thread of a core reads the bytes that the last store from that core has written, wherever the two stand: in the L1,
in the L2, pinned, awaiting eviction, held dirty by another context, narrow, released, or at home, while no packet of the die is on its
way (R190 to R195, R201, R294, R394). -/
def Obligations.LoadAfterStore : Prop :=
  ∀ (s : State) (c : CoreId) (loc : Nat) (data : List Byte) (a : Attr) (ctx ctx' : Nat) (t t' : Option ThreadKey)
    (through l1 : Bool), data ≠ [] → loc % 128 + data.length ≤ 128 → LineWhole s c (lineOf loc) → NothingSent s c.die →
    (cacheRead (writeAt s .cache c loc data a ctx t through) c l1 loc data.length a ctx' t').1 = data ∧
    (homeRead (writeAt s .home c loc data a ctx t through) c loc data.length a).1 = data ∧
    (a.carve = false → (homeRead (writeAt s .cache c loc data a ctx t through) c loc data.length a).1 = data)

/-- FENCE: where the accesses that it orders are done for every thread of the group, it performs the release of each thread, then
one acquire for each core, and the threads go on; else they are Stalled and nothing happens (R206, R207, R209, R210, R230). A
release at package scope leaves no dirty word in a line of a SHARED page on the die, one at system scope none that the context
holds either; an acquire at package or system scope empties the core's L1, leaves no usable SHARED line in the die's L2 and
advances the die's epoch by 1; at die scope it empties the L1 only (R193, R194, R206). -/
def Obligations.FencesAndReleases : Prop :=
  (∀ (sc : Scope) (k : FenceKind) (st : Stall) (s : State), issuable (.fence sc k st) s = true →
     let l := s.focus.threads.map fun t => (t, sc)
     let s1 := if k = .acq then s else releaseAll s l
     ((∀ t ∈ s.focus.threads, fenceReady s sc k t = true) → ∃ s', exec (.fence sc k st) s = .next s' ∧
       GoesOn st s (if k = .rel then s1 else acquireAll s1 l) s' ∧
       (sc = .core ∨ sc = .die → ∀ a, memByte s'.mem a = memByte s.mem a)) ∧
     ((∃ t ∈ s.focus.threads, fenceReady s sc k t = false) → ∃ s', exec (.fence sc k st) s = .next s' ∧ Held s s') ∧
     ∀ t, fenceReady s sc k t = true → bankPending s t = false ∧ memPending s t = false ∧
       (k ≠ .acq → sc ≠ .core → storePending s t = false ∧ packetPending s t = false) ∧
       (k ≠ .rel → isWide sc = true → storePending s t = false ∧ packetPending s t = false)) ∧
  (∀ (s : State) (c : CoreId) (ctx ln : Nat) (x : L2Line),
     (l2Of (releaseAct s c.die ctx .pkg) c.die ln = some x → x.shared = true → x.dirty = 0) ∧
     (l2Of (releaseAct s c.die ctx .sys) c.die ln = some x → (x.shared = true ∨ x.ctx = ctx) → x.dirty = 0) ∧
     (acquireAct s c .core = s) ∧
     (acquireAct s c .die = modCore s c fun k => { k with l1 := [] }) ∧
     (∀ sc, sc = .pkg ∨ sc = .sys → (coreOf (acquireAct s c sc) c).l1 = [] ∧
       (dieOf (acquireAct s c sc) c.die).epoch = (dieOf s c.die).epoch + 1 ∧
       (l2Of (acquireAct s c sc) c.die ln = some x → x.shared = true → x.stale = true ∧ x.dirty = 0)))

/-- WAITA: each thread of a planned group whose older loads have returned reads its word in turn; where it differs from the
expected value the thread receives 0 and goes on, on remote memory 2 where it does not; else the thread waits in a watch that owes
it its code, with the deadline that its timeout sets (R217 to R221). The end of a watch: WATCH_WAKE ends the first eight hit
watches of the slice, in the order of registration, and WATCH_DEADLINE a watch whose deadline has come; its word is read once
more, and the thread is Ready with 0 where the word has changed, else with 1 at or past the deadline, else with 2; WAKE gives the
code plus 2 (R98, R220, R221). R221 speaks of a word in host memory; that remote memory here takes in memory behind another
package is the model's reading (log 124). -/
def Obligations.WatchedWords : Prop :=
  (∀ (a b c : Src) (st : Stall) (s s1 : State) (ps : List Plan), issuable (.waita a b c st) s = true →
     (∀ t ∈ s.focus.threads, memPending s t = false ∧
       (isWide (scopeOfMod ((pfxOf s t).mod.getD 0)) = true → storePending s t = false ∧ packetPending s t = false)) →
     planAll s 8 ⟨true, false, false⟩ false (fun t => (readSrc s t 0 a).toNat) s.focus.threads = ([], ps, s1) →
     (∀ p ∈ ps, olderHolds s s.seq p.thread (lineOf p.x.loc) false = false ∧
       devicePasses s (ctxIdOf s p.thread) p.x.loc false 8 = true) →
     let one (x : State) (p : Plan) : State :=
       waitaOne x p (readSrc s p.thread 1 b) ((readSrc s p.thread 2 c).setWidth 32).toNat (cPDst c)
     (∃ s', exec (.waita a b c st) s = .next s' ∧ GoesOn st s (ps.foldl one s1) s') ∧
     ∀ (x : State) (p : Plan) (th : Thread), threadOf x p.thread = some th →
       let m := (pfxOf x p.thread).mod.getD 0
       let acq := if modOrder m = 1 ∨ modOrder m = 3 then some (effScope p.attr (scopeOfMod m)) else none
       let v := (waitRead { x with seq := x.seq + 1 } p.thread (coreOfThread x p.thread) p.x.loc p.attr acq).1
       (v ≠ readSrc s p.thread 1 b → threadOf (one x p) p.thread = some { th with regs := th.regs.give (cPDst c) 0 0 none }) ∧
       (v = readSrc s p.thread 1 b → p.attr.remote = true →
         threadOf (one x p) p.thread = some { th with regs := th.regs.give (cPDst c) 2 0 none }) ∧
       (v = readSrc s p.thread 1 b → p.attr.remote = false →
         threadOf (one x p) p.thread = some { th with
           regs := th.regs.give (cPDst c) 0 0 (some x.seq), status := .live (.waiting (.word x.seq)) } ∧
         ∃ w, tget (one x p).watches x.seq = some w ∧ w.thread = p.thread ∧ w.pa = p.x.loc ∧
           w.expected = readSrc s p.thread 1 b ∧ w.hit = false ∧
           (w.deadline = none ↔ (readSrc s p.thread 2 c).setWidth 32 = 0) ∧
           ∀ t, w.deadline = some t → x.clock ≤ t)) ∧
  ((∀ (s : State) (d : Fin 8) (sl : Fin 64), exec (.watchWake d sl) s =
     .next (((tkeys s.watches fun _ w => w.hit && !w.saved && decide (w.die = d ∧ w.slice = sl)).take 8).foldl endWatch s)) ∧
   (∀ (s : State) (id : Nat) (x : Watch), tget s.watches id = some x →
     ((∃ t, x.deadline = some t ∧ t ≤ s.clock) → x.saved = false → exec (.watchDeadline id) s = .next (endWatch s id)) ∧
     ((∀ t, x.deadline = some t → s.clock < t) ∨ x.saved = true → exec (.watchDeadline id) s = .next s) ∧
     ∀ th w, threadOf s x.thread = some th → th.status = .live (.waiting w) → th.step ≠ .counted →
       let v := (waitRead s x.thread (coreOfThread s x.thread) x.pa x.attr x.acq).1
       let code : Nat := if v ≠ x.expected then 0 else if x.deadline.any fun t => t ≤ s.clock then 1 else 2
       tget (endWatch s id).watches id = none ∧ ∃ th', threadOf (endWatch s id) x.thread = some th' ∧
         th'.status = .live .ready ∧ th'.pc = th.pc ∧ th'.wake.reason = code + 2 ∧
         th'.regs = th.regs.deliver x.tag (BitVec.ofNat 64 code)))

/-- PREF, once its address register has its value, changes no register and no value that a program reads: it brings at most clean lines,
and where a line gives way its dirty words go home, with the packets that must come before them; MHINT refuses a start or a length that is
no multiple of 64 KiB with ALIGN, else rewrites Temp of each writable leaf of its range and gives the count of the units that it skipped
(R35, R187, R188). -/
def Obligations.MemoryHints : Prop :=
  (∀ (p : BitVec 19) (st : Stall) (s : State), issuable (.hintPref p st) s = true →
    (∀ t ∈ s.focus.threads, (srcCell s t (codeSrc (p.extractLsb' 13 6).toNat)).pend = none) →
    ∃ s', exec (.hintPref p st) s = .next s' ∧ ThreadsBecome s s' (fun _ th => hinted (now s) st th.pfx th) ∧
      (∀ a, memByte s'.mem a = memByte s.mem a ∨ UnderPacket s a ∨ ∃ d x, l2Of s d (a / 128) = some x ∧
        x.dirty.getLsbD (a % 128 / 4) = true ∧ memByte s'.mem a = x.data.getD (a % 128) 0) ∧
      (∀ d ln x, l2Of s' d ln = some x → x.dirty = 0 ∨ ∃ y, l2Of s d ln = some y ∧ y.dirty = x.dirty ∧
        ∀ k, x.dirty.getLsbD (k / 4) = true → k < x.data.length → x.data.getD k 0 = y.data.getD k 0) ∧
      s' = { s with
        threads := s'.threads, dies := s'.dies, cores := s'.cores, mem := s'.mem, requests := s'.requests
        arrivals := s'.arrivals, dramBanks := s'.dramBanks, watches := s'.watches, homeWatches := s'.homeWatches
        packets := s'.packets, engs := s'.engs, freeCount := s.freeCount + 1 }) ∧
  (∀ (a b : Src) (d : PDst) (st : Stall) (s : State), issuable (.mhint a b d st) s = true →
    let start (t : ThreadKey) : Nat := (readSrc s t 0 a).toNat
    let len (t : ThreadKey) : Nat := ((readSrc s t 1 b).setWidth 48).toNat
    let fs := s.focus.threads.filterMap fun t => mhintFault s t (start t) (len t)
    (fs = [] → ∃ s', exec (.mhint a b d st) s = .next s' ∧
      GoesOn st s (s.focus.threads.foldl (fun x t =>
        let r := mhintUnits (coreOfThread s t).die (ctxIdOf s t) (start t) ((readSrc s t 1 b).extractLsb' 62 2).toNat
          (len t / 65536) 0 x
        giveThread r.2 t d (BitVec.ofNat 64 r.1) 0 none) s) s') ∧
    (fs ≠ [] → (∀ t ∈ s.focus.threads, t.isHandler = false) → ∃ s', exec (.mhint a b d st) s = .next s' ∧
      Faulted s s' fs) ∧
    (∀ t, start t % 65536 ≠ 0 ∨ len t % 65536 ≠ 0 → mhintFault s t (start t) (len t) = some (addrFault s t .align (start t))) ∧
    ∀ (dd : Fin 8) (c va temp n skipped : Nat) (y : State), (mhintUnits dd c va temp (n + 1) skipped y) =
      let x := postPlain y dd c 2 (walkAsks y c va)
      match walk y c va with
      | .leaf level ea e => match checkLeaf x (some dd) c va ⟨false, true, false⟩ level e with
        | .ok _ => mhintUnits dd c (va + 65536) temp n skipped (setTemp x ea temp)
        | _ => mhintUnits dd c (va + 65536) temp n (skipped + 1) x
      | _ => mhintUnits dd c (va + 65536) temp n (skipped + 1) x)

/-! ### Warps -/

/-- SMOV writes the value of the issuing thread of lowest LANE to its home warp's w register, 2 cycles; SHFL, once every lane's
copy of the register has landed, gives each thread the value of the lane that it names; SRD gives each thread its special register,
2 cycles (R96 to R99, R115, R116). -/
def Obligations.LanesAndSpecialRegisters : Prop :=
  (∀ (a : Src) (d : Fin 16) (st : Stall) (s : State), issuable (.smov a d st) s = true →
    ∃ s', exec (.smov a d st) s = .next s' ∧ OnlyThreads s s' ∧
      ThreadsBecome s s' (fun _ th => issued (now s) st (th.pc + 4) th.regs th) ∧
      (∀ t ∈ s.focus.threads, (∀ u ∈ s.focus.threads, warpKeyOf u = warpKeyOf t → laneOf t ≤ laneOf u) →
        tget s'.warps (warpKeyOf t) = (tget s.warps (warpKeyOf t)).map fun x =>
          { x with w := x.w.set d ⟨readSrc s t 0 a, x.w[d].held, now s + 2, none⟩ }) ∧
      ∀ w, (∀ t ∈ s.focus.threads, warpKeyOf t ≠ w) → tget s'.warps w = tget s.warps w) ∧
  (∀ (a : Fin 32) (b : Src) (d : PDst) (st : Stall) (s : State), issuable (.shfl a b d st) s = true →
    let landed := ∀ t ∈ s.focus.threads, ∀ j, (laneNamed s (laneThread t j) a).landed (now s) = true
    (landed → ∃ s', exec (.shfl a b d st) s = .next s' ∧ OnlyThreadsChange s s' ∧ ThreadsBecome s s' (fun t th =>
      issued (now s) st (th.pc + 4)
        (th.regs.give d (laneNamed s (laneThread t ((readSrc s t 0 b).extractLsb' 0 5).toFin) a).val 0 none) th)) ∧
    (¬ landed → ∃ s', exec (.shfl a b d st) s = .next s' ∧ Held s s')) ∧
  ∀ (sp : Special) (d : PDst) (st : Stall) (s : State), issuable (.srd sp d st) s = true →
    ∃ s', exec (.srd sp d st) s = .next s' ∧ OnlyThreadsChange s s' ∧
      ThreadsBecome s s' (fun t th => issued (now s) st (th.pc + 4) (th.regs.give d (specialRule s t th sp) (now s + 2) none) th)

/-- The REGS words. A growth extends the block in place, with zeros in the new registers, where its granules are free; GROW.try gives
0 then, 1 where one of them is held and 2 where the pool ends before; GROW waits instead, and GROW_GRANT serves it, WAKE 10. SHRINK
gives granules back once no write is owed to them, and refuses with REGRANGE to give up a travelling register (R104, R109 to R111). -/
def Obligations.RegisterBlocks : Prop :=
  (∀ (t : Fin 4) (st : Stall) (s : State), issuable (.grow t st) s = true → ∃ s', exec (.grow t st) s = .next s' ∧
    GoesOn st s ((warpsOf s.focus.threads).foldl (fun a w => if growStatus a w (8 * t.val + 8) = 0 then growTo a w (8 * t.val + 8)
      else modThreads a (s.focus.threads.filter fun x => warpKeyOf x = w) fun _ th =>
        { th with status := .live (.waiting (.grow (8 * t.val + 8))) }) s) s') ∧
  (∀ (t : Fin 4) (d : PDst) (st : Stall) (s : State), issuable (.growTry t d st) s = true →
    ∃ s', exec (.growTry t d st) s = .next s' ∧
      GoesOn st s ((warpsOf s.focus.threads).foldl (fun a w =>
        modThreads (if growStatus a w (8 * t.val + 8) = 0 then growTo a w (8 * t.val + 8) else a)
          (s.focus.threads.filter fun x => warpKeyOf x = w) fun _ th =>
            { th with regs := th.regs.give d (BitVec.ofNat 64 (growStatus a w (8 * t.val + 8))) 0 none }) s) s') ∧
  (∀ (t : Fin 4) (st : Stall) (s : State), issuable (.shrink t st) s = true →
    let n := 8 * t.val + 8
    let bad := s.focus.threads.filter fun k => shrinksSubset s k n
    let owed := ∃ k ∈ s.focus.threads, ∃ j, warpKeyOf j = warpKeyOf k ∧ ∃ x, tget s.warps (warpKeyOf k) = some x ∧
      ∃ th, threadOf s j = some th ∧ ∃ i : Fin 32, n ≤ i.val ∧ i.val < x.count ∧ (th.regs.named[i]).landed (now s) = false
    (bad ≠ [] → (∀ k ∈ s.focus.threads, k.isHandler = false) → ∃ s', exec (.shrink t st) s = .next s' ∧
      Trapped s s' s.focus.core (bad.map fun k => ⟨k, .regRange, pcOf s k, 0, 0, none⟩)) ∧
    (bad = [] → KeysOnce s → owed → ∃ s', exec (.shrink t st) s = .next s' ∧ Held s s') ∧
    (bad = [] → KeysOnce s → ¬ owed → ∃ s', exec (.shrink t st) s = .next s' ∧ OnlyThreads s s' ∧
      ThreadsBecome s s' (fun _ th => issued (now s) st (th.pc + 4) th.regs th) ∧
      ∀ w, tget s'.warps w = if w ∈ s.focus.threads.map warpKeyOf then
        (tget s.warps w).map fun x => { x with count := min x.count n } else tget s.warps w)) ∧
  (∀ (s : State) (g : Nat) (h : Fin 16) (n : Nat) (x : Warp), tget s.warps (.home g h) = some x → n % 8 = 0 → x.count % 8 = 0 →
    growStatus s (.home g h) n = (if n ≤ x.count then 0 else if 48 < x.base + n / 8 then 2
      else if ∃ i, x.base + x.count / 8 ≤ i ∧ i < x.base + n / 8 ∧
        granuleHeld s (poolOf s (.home g h)).1 (poolOf s (.home g h)).2 i = true then 1 else 0) ∧
    tget (growTo s (.home g h) n).warps (.home g h) = some { x with count := max x.count n } ∧
    ∀ t th, threadOf s t = some th → th.away = none → ∃ th', threadOf (growTo s (.home g h) n) t = some th' ∧
      th'.regs.slots = th.regs.slots ∧ th'.regs.head = th.regs.head ∧ ∀ i : Fin 32, th'.regs.named[i] =
        if warpKeyOf t = .home g h ∧ x.count ≤ i.val ∧ i.val < n then RCell.zero else th.regs.named[i]) ∧
  ∀ (s : State) (g : Nat) (h : Fin 16),
    let w := WarpKey.home g h
    ((∀ n ∈ growTargets s w, growStatus s w n ≠ 0) → exec (.growGrant g h) s = .next s) ∧
    ∀ n, ((groupOf s g).map (·.isResident)).getD false = true → lowerGrant s w = false → NoStepDue s →
      (∀ m ∈ growTargets s w, m = n) → growStatus s w n = 0 → ∃ s', exec (.growGrant g h) s = .next s' ∧
        ∀ t th, warpKeyOf t = w → threadOf s t = some th → th.status = .live (.waiting (.grow n)) →
          ∃ th', threadOf s' t = some th' ∧ th'.status = .live .ready ∧ th'.pc = th.pc ∧ th'.wake.reason = 10 ∧
            (∃ x, threadOf (growTo s w n) t = some x ∧ th'.regs = x.regs) ∧ tget s'.warps w = tget (growTo s w n).warps w

/-- JOIN and LEAVE set and clear the issuing threads' bits of a mask; WAITK and the VOTE forms wait at it, and recall its absent
members. At the end of a cycle in which every member waits at home the release of the mask falls due; MASK_RELEASE then releases
every thread of the home warp that waits, with the value of its form over the members' predicates, WAKE 1, to issue from the next
cycle on; it does nothing before (R86 to R90, R300). -/
def Obligations.MasksAndVotes : Prop :=
  (∀ (k : Fin 12) (st : Stall) (s : State) (i : Instr) (v : Bool),
    (i = .join k st ∧ v = true) ∨ (i = .leave k st ∧ v = false) → issuable i s = true →
    ∃ s', exec i s = .next s' ∧ OnlyThreads s s' ∧ ThreadsBecome s s' (fun _ th => issued (now s) st (th.pc + 4) th.regs th) ∧
      ∀ w x, tget s.warps w = some x → ∃ x', tget s'.warps w = some { x with k := x' } ∧
        ∀ j (l : Fin 32), x'[j].getLsbD l =
          if j = k ∧ (∃ t ∈ s.focus.threads, warpKeyOf t = w ∧ laneOf t = l) then v else x.k[j].getLsbD l) ∧
  (∀ (a : Src) (k : Fin 12) (d : PDst) (st : Stall) (s : State) (i : Instr) (f : Option VoteForm),
    (i = .waitk k st ∧ f = none) ∨ (i = .voteAll a k d st ∧ f = some .all) ∨ (i = .voteAny a k d st ∧ f = some .any) ∨
      (i = .voteBal a k d st ∧ f = some .bal) ∨ (i = .voteCnt a k d st ∧ f = some .cnt) → issuable i s = true →
    ∃ s', exec i s = .next s' ∧
      s' = { s with threads := s'.threads, seq := s.seq + 1, freeCount := s.freeCount + 1 } ∧
      (∀ b, memByte s'.mem b = memByte s.mem b) ∧
      (∀ t ∈ s.focus.threads, threadOf s' t = (threadOf s t).map fun th =>
        { issued (now s) st (th.pc + 4) (if f.isSome then th.regs.give d 0 0 (some s.seq) else th.regs) th with
          status := .live (.waiting (.mask k (f.map fun g => (g, decide (readSrc s t 0 a ≠ 0))) s.seq)) }) ∧
      ∀ t, t ∉ s.focus.threads → threadOf s' t = (threadOf s t).map fun th =>
        if th.away.isSome = true ∧ th.isEnded = false ∧ warpKeyOf t ∈ s.focus.threads.map warpKeyOf ∧
            maskBit s (warpKeyOf t) k (laneOf t) = true
          then { th with recalled := true } else th) ∧
  ∀ (s : State) (g : Nat) (h : Fin 16) (k : Fin 12), KeysOnce s →
    let w := WarpKey.home g h
    let ready := (∃ t th, threadOf s t = some th ∧ warpKeyOf t = w ∧ (maskWait th k).isSome = true) ∧
      ∀ l, maskBit s w k l = true → ∃ th, threadOf s (.home g h l) = some th ∧ (maskWait th k).isSome = true ∧ th.away = none
    (tget s.warps w ≠ none → (maskDue (noteMasks s w) w k = true ↔ maskDue s w k = true ∨ ready)) ∧
    (maskDue s w k = false → exec (.maskRelease g h k) s = .next s) ∧
    (maskDue s w k = true → NoStepDue s → ∃ (s' : State) (b : BitVec 32), exec (.maskRelease g h k) s = .next s' ∧
      (∀ l : Fin 32, b.getLsbD l = true ↔ maskBit s w k l = true ∧ ∃ th f tag, threadOf s (.home g h l) = some th ∧
        maskWait th k = some (some (f, true), tag)) ∧
      (∀ t th v tag, warpKeyOf t = w → threadOf s t = some th → th.status = .live (.waiting (.mask k v tag)) →
        ∃ th', threadOf s' t = some th' ∧ th'.status = .live .ready ∧ th'.pc = th.pc ∧ th'.wake.reason = 1 ∧
          cycOf s th.place.core < th'.readyAt ∧
          th'.regs = match v with
            | some (f, _) => th.regs.deliver tag (voteRule f (maskOfWarp s w k) b)
            | none => th.regs) ∧
      (∀ t, warpKeyOf t ≠ w → threadOf s' t = threadOf s t) ∧ (∀ v, v ≠ w → tget s'.warps v = tget s.warps v) ∧
      (∀ x, tget s.warps w = some x → ∃ x', tget s'.warps w = some x' ∧ x' = { x with freed := x'.freed } ∧
        ∀ j : Fin 12, x'.freed.getLsbD j = (decide (j ≠ k) && x.freed.getLsbD j)) ∧
      ∀ a, memByte s'.mem a = memByte s.mem a)

/-- TAIL ends each issuing thread at once; EXIT ends it once its stores are accepted and leaves it Exiting before. A thread that ends
at home has its mask bits cleared; one that ends away leaves a notice for its home slot (R76, R86, R93, R302). -/
def Obligations.ThreadsEnd : Prop :=
  ∀ (st : Stall) (s : State) (i : Instr), i = .exit st ∨ i = .tail st → issuable i s = true →
    ∃ s', exec i s = .next s' ∧ (∀ a, memByte s'.mem a = memByte s.mem a) ∧
      s' = { s with threads := s'.threads, warps := s'.warps, endNotes := s'.endNotes, freeCount := s.freeCount + 1 } ∧
      (∀ t, t ∉ s.focus.threads → threadOf s' t = threadOf s t) ∧
      ∀ t ∈ s.focus.threads, ∀ th, threadOf s t = some th → ∃ th', threadOf s' t = some th' ∧
        if i = .exit st ∧ storesOutstanding s t = true then th'.status = .live .exiting ∧ th'.regs = th.regs
        else th'.status = .ended ∧ th'.critOpen = false ∧
          (th.away = none → ∀ k, maskBit s' (warpKeyOf t) k (laneOf t) = false) ∧
          (∀ x, th.away = some x → th'.regs = x.home ∧ ⟨t⟩ ∈ s'.endNotes)

/-! ### The scratchpad -/

/-- The scratchpad words check their offsets or lines for every thread, wait for room, and enter their banks; the sources, the
destinations and the returns of each are those of its rule (R23, R146, R147, R150, R154 to R161, R164, R165). That the address
recorded and logged for a set of lines is that of its first offending line is the model's choice (log 93). -/
def Obligations.ScratchpadWords : Prop :=
  ∀ (a b c : Src) (d : PDst) (w : MemW) (off : BitVec 8) (vop : CvecOp) (long : Bool) (rop : CredOp) (aop : AtomOp) (st : Stall),
    BankWord (.lds a d w off st) st true false (.lds (memSize w) (memSigned w)) (some (d, w == .x128))
      (fun s t => offsetRule s t (scratchAddr s t a off (memSize w)) (memSize w) 0 0) ∧
    BankWord (.sts a b w off st) st true false (.sts (memSize w)) none
      (fun s t => offsetRule s t (scratchAddr s t a off (memSize w)) (memSize w) (readSrc s t 1 b) 0) ∧
    BankWord (.catom aop a b d st) st true true (.catom aop) (some (d, false))
      (fun s t => offsetRule s t (readSrc s t 0 a).toNat 4 (readSrc s t 1 b) 0) ∧
    BankWord (.ccas a b c st) st true true .ccas (some (match c with | .n k => .named k | _ => .push, false))
      (fun s t => offsetRule s t (readSrc s t 0 a).toNat 4 (readSrc s t 1 b) (readSrc s t 2 c)) ∧
    BankWord (.cvec vop long a b st) st false true (.cvec vop long) none (fun s t =>
      let x := readSrc s t 0 a
      let y := readSrc s t 1 b
      linesRule s t (lineSet x ++ if long then lineSet (withCount y (x.extractLsb' 16 8)) else []) x y) ∧
    BankWord (.cred rop a d st) st false true (.cred rop) (some (d, false))
      (fun s t => linesRule s t (lineSet (readSrc s t 0 a)) (readSrc s t 0 a) 0) ∧
    BankWord (.csmx a b d st) st false true .csmx (some (d, false))
      (fun s t => linesRule s t (lineSet (readSrc s t 0 a)) (readSrc s t 0 a) (readSrc s t 1 b)) ∧
    BankWord (.ccvt a b st) st false true .ccvt none (fun s t =>
      let x := readSrc s t 0 a
      let y := readSrc s t 1 b
      match linesRule s t (lineSet x) x y with
      | .inl f => .inl f
      | .inr r =>
        if 5 ≤ (y.extractLsb' 8 3).toNat ∨ 5 ≤ (y.extractLsb' 3 3).toNat ∨
            (5 ≤ (y.extractLsb' 0 3).toNat ∧ (y.extractLsb' 3 3).toNat ≤ 2) then .inl ⟨t, .illegal, pcOf s t, 0, 0, none⟩
        else .inr r) ∧
    BankWord (.cqnt a b st) st false true .cqnt none (fun s t =>
      let x := readSrc s t 0 a
      let y := readSrc s t 1 b
      linesRule s t (lineSet (withCount x 1) ++ [(y.extractLsb' 0 13).toNat, (y.extractLsb' 15 13).toNat]) x y)

/-- What an entry does to the bytes of the scratchpad, what it returns and which flags it sets: the loads and stores, and the
atomics one lane after another (R151, R154, R164 to R166). What a crucible command does to the bytes of the scratchpad, what it
returns and which flags it sets: CVEC element by element, CRED and CSMX with the tree of R71, CCVT with zeros above its elements,
CQNT its data bytes and its scale byte, quantised by R65 and R66 (R62 to R66, R71, R155 to R162). -/
def Obligations.ScratchpadEffects : Prop :=
  (∀ (e : BankEntry) (m : Memory),
     (∀ size sx, e.body = .lds size sx → 1 ≤ size → size ≤ 8 → entryEffect e m = (m, e.lanes.map fun l =>
       (l.thread, l.tag, if sx then (BitVec.ofNat (8 * size) (memNat m l.off size)).signExtend 64
         else BitVec.ofNat 64 (memNat m l.off size)), 0)) ∧
     (∀ sx, e.body = .lds 16 sx → entryEffect e m = (m, e.lanes.flatMap fun l =>
       [(l.thread, l.tag, BitVec.ofNat 64 (memNat m l.off 8)), (l.thread, l.tag + 1, BitVec.ofNat 64 (memNat m (l.off + 8) 8))], 0)) ∧
     (∀ size, e.body = .sts size → (entryEffect e m).2 = ([], 0) ∧ ∀ k, memByte (entryEffect e m).1 k =
       match e.lanes.reverse.find? fun l => decide (l.off ≤ k ∧ k < l.off + size) with
       | some l => (natBytes size l.x.toNat).getD (k - l.off) 0
       | none => memByte m k) ∧
     ∀ op, e.body = .catom op ∨ e.body = .ccas →
       entryEffect { e with lanes := [] } m = (m, [], 0) ∧
       ∀ l ls, ∃ m', wroteAt m m' l.off 4
           (let old := BitVec.ofNat 64 (memNat m l.off 4)
             if e.body = .ccas then (if old = l.x &&& 0xFFFFFFFF then l.y &&& 0xFFFFFFFF else old).toNat
             else (atomRule op .w32 old l.x).toNat) ∧
         entryEffect { e with lanes := l :: ls } m =
           ((entryEffect { e with lanes := ls } m').1,
             (l.thread, l.tag, BitVec.ofNat 64 (memNat m l.off 4)) :: (entryEffect { e with lanes := ls } m').2.1, 0)) ∧
  ((∀ (op : CvecOp) (long : Bool) (s t : Word) (m : Memory) (l l2 : Nat) (rest : List (Nat × Nat)),
     ∃ m', cvecRun op long s t m ((l, l2) :: rest) = cvecRun op long s t m' rest ∧
       (∀ i, i < 16 → cword m' l i = cvecRule op long (cword m l i) (cword m l2 i) s t) ∧
       ∀ k, k / 64 ≠ l → memByte m' k = memByte m k) ∧
   ∀ (e : BankEntry) (x : Lane) (m : Memory), e.lanes = [x] →
     (∀ op, e.body = .cvec op false → entryEffect e m =
       (cvecRun op false x.y (x.y >>> 32) m ((lineSet x.x).zip (lineSet x.x)), [], 0)) ∧
     (∀ op, e.body = .cvec op true → entryEffect e m = (cvecRun op true (x.y >>> 32) (x.y >>> 32) m
       ((lineSet x.x).zip (lineSet (withCount x.y (x.x.extractLsb' 16 8)))), [], 0)) ∧
     (∀ op, e.body = .cred op → entryEffect e m = (m, [(x.thread, x.tag, credRule op m (lineSet x.x))], 0)) ∧
     (e.body = .csmx → ∃ m', entryEffect e m = (m', [(x.thread, x.tag, credRule .sum m' (lineSet x.x))], 0) ∧
       (∀ l ∈ lineSet x.x, ∀ i, i < 16 → cword m' l i =
         aluFn .expo (fp32Result ((fp32 (cword m l i)).add (fp32 x.y).negate)) &&& 0xFFFFFFFF) ∧
       ∀ k, k / 64 ∉ lineSet x.x → memByte m' k = memByte m k) ∧
     (∀ src dst, e.body = .ccvt → ffmtOf (x.y.extractLsb' 8 3).toNat = some src → ffmtOf (x.y.extractLsb' 3 3).toNat = some dst →
       (entryEffect e m).2 = ([], 0) ∧ ∀ k, memByte (entryEffect e m).1 k =
         if k / 64 ∈ lineSet x.x then
           let wd := dst.width / 8
           let ws := src.width / 8
           let i := k % 64 / wd
           if i < 16 then (natBytes wd (aluFcvt (.float src) (.float dst) (rndOf (x.y.extractLsb' 0 3).toNat)
             (BitVec.ofNat 64 (memNat m (k / 64 * 64 + i * ws) ws))
             (((x.x.extractLsb' 32 32).rotateLeft i).toNat)).toNat).getD (k % 64 % wd) 0
           else 0
         else memByte m k) ∧
     (e.body = .cqnt → (entryEffect e m).2.1 = [] ∧
       let l0 := (x.x.extractLsb' 0 13).toNat
       let l1 := l0 + 32 * ((x.x.extractLsb' 24 8).toNat + 1)
       let b := quantise (x.y.extractLsb' 34 2).toFin ((List.range 32).map fun i => fp32 (cword m (if i < 16 then l0 else l1) (i % 16)))
         (if x.y.getLsbD 36 then some (x.x.extractLsb' 32 32).toNat else none)
       let data := 64 * (x.y.extractLsb' 0 13).toNat + 16 * (x.y.extractLsb' 13 2).toNat
       (entryEffect e m).2.2 = b.flags ∧ QuantRule (x.y.extractLsb' 34 2).toFin
         ((List.range 32).map fun i => fp32 (cword m (if i < 16 then l0 else l1) (i % 16)))
         (if x.y.getLsbD 36 then some (x.x.extractLsb' 32 32).toNat else none) b ∧ ∀ k, memByte (entryEffect e m).1 k =
         if k = 64 * (x.y.extractLsb' 15 13).toNat + (x.y.extractLsb' 28 6).toNat then BitVec.ofNat 8 b.scale
         else if data ≤ k ∧ k < data + 16 then
           BitVec.ofNat 8 (b.codes.getD (2 * (k - data)) 0 + 16 * b.codes.getD (2 * (k - data) + 1) 0)
         else memByte m k))

/-- BANK_SERVE begins an eligible entry of the greatest age and serves it whole; the values return when the last of a warp has come;
LINE_PRESENT makes a line Present once nothing of the transfer is left to land there, and the threads held on it return, WAKE 9;
CRED.STAT waits for the crucible commands of its warps, reads and clears; CWAIT waits for them; CFENCE waits for the thread's own
entries (R144, R145, R148, R150, R163, R167, R168). -/
def Obligations.BankService : Prop :=
  (∀ (c : CoreId) (b : Fin 32) (s : State),
    (eligibleEntries s c b = [] → exec (.bankServe c b) s = .next s) ∧
    (eligibleEntries s c b ≠ [] → ∃ e tie, pickEntry s c b = some (e, tie) ∧ e ∈ eligibleEntries s c b ∧
      (∀ x ∈ eligibleEntries s c b, e.age ≤ x.age) ∧ e.core = c ∧ e.bank = b ∧ (∀ l ∈ e.lines, lineAbsent s e.gid l = false) ∧
      ((∀ op, e.body ≠ .bar op) → NoStepDue s → ∃ s', exec (.bankServe c b) s = .next s' ∧ s'.banks = s.banks.erase e ∧
        (∀ a, memByte s'.mem a = memByte s.mem a) ∧
        ∀ g x, groupOf s g = some x → ∃ x', groupOf s' g = some x' ∧
          x'.scratch = (if g = e.gid then (entryEffect e x.scratch).1 else x.scratch) ∧
          x'.cstat = if g = e.gid then x.cstat ||| (entryEffect e x.scratch).2.2 else x.cstat))) ∧
  (∀ (id left : Nat) (got : List (ThreadKey × Nat × Word)) (o : Op) (s : State), tget s.ops id = some o →
    o.body = .returns left got →
    (left ≠ 0 → exec (.resultReturn id) s = .next s) ∧
    (left = 0 → NoStepDue s → ∃ s', exec (.resultReturn id) s = .next s' ∧ tget s'.ops id = none ∧
      (∀ a, memByte s'.mem a = memByte s.mem a) ∧
      ∀ t th, threadOf s t = some th → th.away = none → (∀ tag, th.wait? ≠ some (.token none tag)) →
        ∃ th', threadOf s' t = some th' ∧ th'.pc = th.pc ∧
          th'.regs = (got.filter fun g => decide (g.1 = t)).foldl (fun r g => r.deliver g.2.1 g.2.2) th.regs)) ∧
  (∀ (op line : Nat) (s : State) (e : Eng), tget s.engs op = some e →
    let full := line ∈ e.cleared ∧ (∀ n ∈ unitsLeft e, ∀ a, unitDst e n = some a → a / 64 ≠ line) ∧
      ¬ (usesIdx e.kind = true ∧ e.idx = none)
    (¬ full → exec (.linePresent op line) s = .next s) ∧
    (full → NoStepDue s → ∃ s', exec (.linePresent op line) s = .next s' ∧
      (∃ e', tget s'.engs op = some e' ∧ e'.cleared = e.cleared.erase line ∧ e'.landed = e.landed ∧ e'.buf = e.buf ∧
        e'.state = e.state) ∧
      (∀ k, k ≠ op → (tget s'.engs k).map Eng.cleared = (tget s.engs k).map Eng.cleared) ∧
      ∀ t th l, threadOf s t = some th → th.status = .live (.waiting (.lines l)) →
        (∀ x ∈ l, lineAbsent s' ((gidOf t).getD 0) x = false) → ∃ th', threadOf s' t = some th' ∧ th'.wake.reason = 9 ∧
          th'.pc = th.pc ∧ th'.regs = th.regs ∧ th'.status = .live (if th.inBar.isSome then .stalled else .ready))) ∧
  (∀ (d : PDst) (st : Stall) (s : State), issuable (.credStat d st) s = true →
    let out := ∃ t ∈ s.focus.threads, crucibleOut s (warpKeyOf t) ≠ []
    (out → ∃ s', exec (.credStat d st) s = .next s' ∧ Held s s') ∧
    (¬ out → ∃ s', exec (.credStat d st) s = .next s' ∧
      s' = { s with threads := s'.threads, groups := s'.groups, freeCount := s.freeCount + 1 } ∧
      (∀ a, memByte s'.mem a = memByte s.mem a) ∧
      ThreadsBecome s s' (fun t th => issued (now s) st (th.pc + 4) (th.regs.give d
        (if s.focus.threads.find? (fun u => decide (gidOf u = gidOf t)) = some t then
          (((groupOfThread s t).map Group.cstat).getD 0).setWidth 64 else 0) 0 none) th) ∧
      ∀ g, groupOf s' g = if some g ∈ s.focus.threads.map gidOf then (groupOf s g).map fun x => { x with cstat := 0 }
        else groupOf s g)) ∧
  (∀ st : Stall, ThreadWord (.cwait st) (fun s t th =>
    let l := crucibleOut s (warpKeyOf t)
    if l = [] then issued (now s) st (th.pc + 4) th.regs th
    else { issued (now s) st (th.pc + 4) th.regs th with status := .live (.waiting (.crucible l)) })) ∧
  ∀ (st : Stall) (s : State), issuable (.cfence st) s = true →
    ((∀ t ∈ s.focus.threads, bankPending s t = false) → ∃ s', exec (.cfence st) s = .next s' ∧ OnlyThreadsChange s s' ∧
      ThreadsBecome s s' (fun _ th => issued (now s) st (th.pc + 4) th.regs th)) ∧
    ((∃ t ∈ s.focus.threads, bankPending s t = true) → ∃ s', exec (.cfence st) s = .next s' ∧ Held s s')

/-! ### Barriers -/

/-- The barrier words: each thread checks its object; the word is Stalled while an arrival's older accesses, an own access to a carve-out
object or an earlier acquire before it, the banks or the counter of returns hold it; then its entries enter the banks, or are applied at
once at a carve-out object (the model's timing, log 63), and the threads go on. A command acts on the fields of the object by R278 and
R282. The address of a misaligned object is operand a as it stands (the model's choice, log 122). (R150, R226, R229, R231, R276 to R283,
R300). -/
def Obligations.BarrierWords : Prop :=
  (∀ (a b : Src) (d : PDst) (st : Stall) (s : State) (w : Instr × BarOp × Option Src × Option PDst),
    w ∈ [(.binit a b st, .binit, some b, none), (.barr a d st, .barr, none, some d), (.barrx a b d st, .barrx, some b, some d),
      (.bwait a b d st, .bwait, some b, some d), (.bxin a b st, .bxin, some b, none), (.bxout a b st, .bxout, some b, none)] →
    issuable w.1 s = true →
    let op := w.2.1
    let ws := warpsOf s.focus.threads
    let q := barReqs s op (fun t => readSrc s t 0 a) (fun t => (w.2.2.1.map (readSrc s t 1)).getD 0) s.focus.threads
    let busy := (∃ t ∈ s.focus.threads, arrivalReady s op t = false) ∨ (∃ x ∈ q.2.1, carveBehind s x = true) ∨
      (∃ x ∈ q.2.1, (∃ pa, x.obj = .carve pa) ∧ acqPending s x.thread = true) ∨ barRoom s q.2.1 = false ∨ (w.2.2.2.isSome = true ∧ ∃ v ∈ ws, 8 ≤ countedWords s v)
    let s2 : State := { q.2.2 with seq := q.2.2.seq + 1 + 2 * ws.length }
    let s3 := if op = .bwait then (dedup (s.focus.threads.filterMap gidOf)).foldl recallGroup s2 else s2
    let r := barCarves (barEnter s3 op w.2.2.2 q.2.2.seq ws q.2.1) op w.2.2.2 q.2.2.seq q.2.1 (carveObjs q.2.1)
    (q.1 ≠ [] → ∃ s', exec w.1 s = .next s' ∧ Faulted s s' q.1) ∧
    (q.1 = [] → busy → ∃ s', exec w.1 s = .next s' ∧ Held s s') ∧
    (q.1 = [] → ¬ busy → r.1 = [] → ∃ s', exec w.1 s = .next s' ∧ GoesOn st s r.2.2 s') ∧
    (q.1 = [] → ¬ busy → r.1 ≠ [] → NoStepDue s → ∃ s', exec w.1 s = .next s' ∧ (coreOf s' s.focus.core).stopped = true ∧
      ∀ f ∈ r.1, f.cause = .bovr ∧ f.pc = pcOf s f.thread ∧ ((threadOf s' f.thread).bind (·.entry)).isSome = true)) ∧
  (∀ (s : State) (t : ThreadKey) (op : BarOp) (a b : Word), (barReq s t op a b).1 = barRequest s t op a b) ∧
  (∀ (o : BitVec 256), barTest o = testRule o) ∧
  ∀ (op : BarOp) (tag b : Nat) (o : BitVec 256), barCommand op tag b o =
    if op ≠ .binit ∧ tagMatch (o.extractLsb' 192 64).toNat tag = false then .bovr 2 else commandRule op tag b o

/-- BANK_SERVE of a barrier entry: the object takes the commands of its lanes in their order, and the value of each lane joins those
of its home warp, which return together; or, where a lane faults, the entry takes effect for none and each faulting lane has its BOVR
with its detail. Every waiter whose generation has passed returns with the result read then, WAKE 5 (R150, R279, R281 to R283). -/
def Obligations.BarrierService : Prop :=
  (∀ (c : CoreId) (bank : Fin 32) (s : State) (e : BankEntry) (tie : Bool) (op : BarOp) (x : Lane) (ls : List Lane) (g : Group),
    pickEntry s c bank = some (e, tie) → e.body = .bar op → e.lanes = x :: ls → groupOf s e.gid = some g →
    (e.lanes.map (·.thread)).Nodup → (∀ l ∈ e.lanes, gidOf l.thread = some e.gid) → NoStepDue s →
    let obj := BarObj.scratch x.off
    let r := barRun op (tagOf s obj) (e.lanes.map fun l => ⟨l.thread, l.x.toNat, l.tag⟩) (barRead s e.gid obj)
    ((∀ q ∈ r.2, ∀ n, q.2 ≠ .bovr n) → ∃ s', exec (.bankServe c bank) s = .next s' ∧ s'.banks = s.banks.erase e ∧
      barRead s' e.gid obj = (if op = .bwait then barRead s e.gid obj else r.1) ∧
      ∀ q ∈ r.2, ∀ o v th, q.2 = .done o (some v) → op ≠ .bwait → threadOf s q.1.thread = some th →
        th.status = .live .stalled ∨ th.status = .live .ready →
        ∃ th', threadOf s' q.1.thread = some th' ∧ th'.inBar = none ∧ th'.status = th.status ∧ th'.pc = th.pc ∧
          (tget s.ops q.1.tag = none → th'.regs = th.regs.deliver q.1.tag (BitVec.ofNat 64 v)) ∧
          ∀ o1 left got, tget s.ops q.1.tag = some o1 → o1.body = .returns left got → th'.regs = th.regs ∧
            ∃ o2 left' got', tget s'.ops q.1.tag = some o2 ∧ o2.body = .returns left' got' ∧ left' < max left 1 ∧
              (q.1.thread, q.1.tag, BitVec.ofNat 64 v) ∈ got') ∧
    ((∃ q ∈ r.2, ∃ n, q.2 = .bovr n) → ∃ s', exec (.bankServe c bank) s = .next s' ∧ (coreOf s' e.core).stopped = true ∧
      s'.banks = s.banks.erase e ∧ barRead s' e.gid obj = barRead s e.gid obj ∧
      ∀ q ∈ r.2, ∀ n th before, q.2 = .bovr n → threadOf s q.1.thread = some th → th.entry = none → th.inBar = some before →
        th.status = .live .stalled → th.place.core = e.core →
        ∃ th' seen, threadOf s' q.1.thread = some th' ∧ th'.status = .stopped .stalled ∧ th'.regs = before.2 ∧
          th'.pc = th.pc - 4 ∧ th'.entry = some ⟨.bovr, th.pc - 4, n, 0, false, seen⟩)) ∧
  ∀ (s : State) (t : ThreadKey) (th : Thread) (b : BarObj) (gen tag : Nat) (held : Bool), threadOf s t = some th →
    th.status = .live (.waiting (.barrier b gen held tag)) → th.step ≠ .counted → recallsOut s ((gidOf t).getD 0) = false →
    let o := barRead s ((gidOf t).getD 0) b
    let v := BitVec.ofNat 64 ((o.extractLsb' 160 4).toNat + (if o.getLsbD 164 then 256 else 0) + if o.getLsbD 165 then 512 else 0)
    ∃ th', threadOf (testWaiter s t) t = some th' ∧ th'.pc = th.pc ∧
      if (o.extractLsb' 160 4).toNat = gen then
        th'.status = .live (.waiting (.barrier b gen false tag)) ∧ th'.regs = th.regs
      else th'.status = .live .ready ∧ th'.wake.reason = 5 ∧
        (tget s.ops tag = none → th'.regs = th.regs.deliver tag v) ∧
        ∀ o1 left got, tget s.ops tag = some o1 → o1.body = .returns left got → th'.regs = th.regs ∧
          ∃ o2, tget (testWaiter s t).ops tag = some o2 ∧ o2.body = .returns (left - 1) (got ++ [(t, tag, v)])

/-! ### Transfers -/

/-- The transfer words act once for each group: the wait for an Absent line of the block, the checks of R243 in their order, then
the operation is Pending and its token is pushed; the word is Stalled while the table is full or the thread's accesses are out.
An operation with a Faulted input is Faulted in turn, once no earlier operation with a conflicting claim is incomplete. CPWAIT waits for an
operation, acquires and pushes its status; a token that names none, 0xFFFF and, once no return-free atomic is
out, 0 push 0; it is Stalled while older accesses hold its acquire (R145, R207, R213, R229, R232, R238 to R249, R260). The model's choices:
where the rounding check of STKCVT stands, and the address of an index list beyond the allocation (log 33); what an input token takes
(log 96); and that the whole issue group waits with the thread that is held (log 99). -/
def Obligations.TransferWords : Prop :=
  (∀ (a b : Src) (d : PDst) (st : Stall) (w : Instr × EngKind),
    w ∈ [(.copy a b d st, .copy), (.gath a b d st, .gath), (.scat a b d st, .scat), (.stkred a b d st, .stkred),
      (.stkcvt a b d st, .stkcvt)] → ElectedWord w.1 st d (xferOne w.2 a b)) ∧
  (∀ (s : State), (∀ t ∈ s.focus.threads, t.isHandler = false) →
    ∀ t, t ∈ electedOf s s.focus.threads ↔ isElected s t) ∧
  (∀ (k : EngKind) (a b : Src) (s : State) (t : ThreadKey), t.isHandler = false →
    let av := (readSrc s t 0 a).toNat
    let blk := readBlock s t av
    let inside := av % 64 = 0 ∧ av < scratchSize s t
    let handleFault : FaultRec := ⟨t, .handle, pcOf s t, 0, 0, none⟩
    let illegal : FaultRec := ⟨t, .illegal, pcOf s t, 0, 0, none⟩
    (av % 64 ≠ 0 → xferOne k a b s t = .fault (addrFault s t .align av)) ∧
    (av % 64 = 0 → scratchSize s t ≤ av → xferOne k a b s t = .fault (violFault s t 8 1 av)) ∧
    (inside → blockAbsent s t av = true → xferOne k a b s t = .wait (av / 64)) ∧
    (inside → blockAbsent s t av = false → blockReady s t av = false → xferOne k a b s t = .hold) ∧
    (inside → blockAbsent s t av = false → blockReady s t av = true →
      ((blk.extractLsb' 64 5 ≠ 0) → xferOne k a b s t = .fault (addrFault s t .align (blk.extractLsb' 64 64).toNat)) ∧
      (blk.extractLsb' 64 5 = 0 → blk.extractLsb' 128 2 ≠ 0 →
        xferOne k a b s t = .fault (addrFault s t .align (blk.extractLsb' 128 64).toNat)) ∧
      let size := scratchSize s t
      let barAt := (blk.extractLsb' 64 64).toNat
      let idxAt := (blk.extractLsb' 128 64).toNat
      let idxEnd := idxAt + 4 * ((blk.extractLsb' 192 16).toNat + 1)
      let aligned := blk.extractLsb' 64 5 = 0 ∧ blk.extractLsb' 128 2 = 0
      let barOut := blk.extractLsb' 208 2 = 1 ∧ size ≤ barAt
      let idxOut := blk.extractLsb' 210 2 = 1 ∧ size < idxEnd
      let fits := aligned ∧ ¬ BlockIllegal k blk ∧ ¬ barOut ∧ ¬ idxOut
      (aligned → BlockIllegal k blk → xferOne k a b s t = .fault illegal) ∧
      (aligned → ¬ BlockIllegal k blk → barOut → xferOne k a b s t = .fault (violFault s t 8 1 barAt)) ∧
      (aligned → ¬ BlockIllegal k blk → ¬ barOut → idxOut →
        xferOne k a b s t = .fault (violFault s t 8 1 (max idxAt size))) ∧
      (fits → blk.extractLsb' 208 2 = 2 →
        ((translateFor s t barAt ⟨true, true, false⟩).1 = .page → xferOne k a b s t = .fault (addrFault s t .page barAt)) ∧
        (∀ n, (translateFor s t barAt ⟨true, true, false⟩).1 = .viol n → xferOne k a b s t = .fault (violFault s t n 0 barAt)) ∧
        ∀ x, (translateFor s t barAt ⟨true, true, false⟩).1 = .ok x → x.attr.carve = false → xferOne k a b s t = .fault illegal) ∧
      (∀ bar, fits → BarNamed s t blk bar →
        (handleRecord s (ctxIdOf s t) (xSrc blk) = none ∨ handleRecord s (ctxIdOf s t) (xDst blk) = none →
          xferOne k a b s t = .fault handleFault) ∧
        ∀ src dst, handleRecord s (ctxIdOf s t) (xSrc blk) = some src → handleRecord s (ctxIdOf s t) (xDst blk) = some dst →
          let badRnd := k = .stkcvt ∧ ((recFmt dst = 5 ∧ xRnd blk ≠ 0) ∨ ((recFmt dst = 0 ∨ recFmt dst = 1) ∧ 5 ≤ xRnd blk))
          let room := tableRoom s (coreOfThread s t) = true ∧ releaseReady s .die t = true ∧ bankPending s t = false
          (badRnd → xferOne k a b s t = .fault illegal) ∧
          (¬ badRnd → xferAdmits k blk src dst = false → xferOne k a b s t = .fault handleFault) ∧
          (¬ badRnd → xferAdmits k blk src dst = true → ¬ room → xferOne k a b s t = .hold) ∧
          (¬ badRnd → xferAdmits k blk src dst = true → room →
            ∃ s1 e, xferOne k a b s t = .done (some e.token) (drainPoison s1.engs.length s1) ∧ OpPlaced s s1 t k e ∧
              e.block = blk ∧ e.src = src ∧ e.dst = dst ∧ e.bar = bar ∧ InputsTaken s (readSrc s t 1 b) e)))) ∧
  (∀ (n : Nat) (s : State),
    ((∀ o ∈ s.engs, o.2.state = .pending → o.2.poison = true → claimsClear s o.1 o.2 = false) → drainPoison n s = s) ∧
    ∀ id e, s.engs.find? (fun o => o.2.state == .pending && o.2.poison && claimsClear s o.1 o.2) = some (id, e) →
      drainPoison (n + 1) s = drainPoison n (quietFault s id e)) ∧
  (∀ (a : Src) (d : PDst) (st : Stall) (s : State), issuable (.cpwait a d st) s = true →
    let tok (t : ThreadKey) : Nat := ((readSrc s t 0 a).extractLsb' 0 16).toNat
    ((∀ t ∈ s.focus.threads, tokenReady s t (tok t) = true) → ∃ s', exec (.cpwait a d st) s = .next s' ∧
      GoesOn st s (s.focus.threads.foldl (fun x t => tokenWait x t (tok t) d false) s) s') ∧
    ((∃ t ∈ s.focus.threads, tokenReady s t (tok t) = false) → ∃ s', exec (.cpwait a d st) s = .next s' ∧ Held s s')) ∧
  ∀ (s : State) (t : ThreadKey) (th : Thread) (tok : Nat) (d : PDst), threadOf s t = some th →
    let g := (gidOf t).getD 0
    let waits (w : Wait) : Prop := threadOf (tokenWait s t tok d false) t =
      some { th with regs := th.regs.give d 0 0 (some s.seq), status := .live (.waiting w) }
    let gets (v : Nat) : Prop := threadOf (tokenWait s t tok d false) t =
      some { th with regs := th.regs.give d (BitVec.ofNat 64 v) 0 none }
    (tok = 0 → nrPending s t = true → waits (.token none s.seq)) ∧ (tok = 0 → nrPending s t = false → gets 0) ∧
    (tok = 0xFFFF → gets 0) ∧
    (tok ≠ 0 → tok ≠ 0xFFFF →
      (∀ op, tokenOp s g tok = some op → waits (.token (some op) s.seq)) ∧
      (tokenOp s g tok = none → tokenEnd s g tok = none → gets 0) ∧
      ∀ e, tokenOp s g tok = none → tokenEnd s g tok = some e → gets (if e.tile then 0 else e.status) ∧
        (e.tile = false → e.scope ≠ .core → (coreOf (tokenWait s t tok d false) (coreOfThread s t)).l1 = []))

/-- The life of a transfer: TRANSFER_FLIGHT starts it once its inputs are complete, and its translations are made once its index list is
known; or it is completed Faulted by its input without moving a byte. TRANSFER_DONE reads and lands what is left, each access with its
request, and ends it once every unit has landed; TRANSFER_FAULT stops the core at the first page that refuses it, once no packet of it is
on its way; each waits for the requests of the transfer and leaves its status in the token. A unit is read once, behind the packets of its
die, and lands with the bytes that were read; a GATH row out of range reads zeros; the units of a STKCVT in one aligned word of 4 bytes
land together (R232, R238 to R242, R245 to R247, R364, R366, R367, R377, R387, R394). The model's choices: which page fault is the first
(log 34); when the index list is read, and the rights of that read (logs 35, 95); what poisons an operation (log 96); the entry of an engine
fault on the elected thread's own record (log 97); and that the packets of a STKRED land before it is Faulted (log 106). -/
def Obligations.TransfersRun : Prop :=
  ∀ (op : Nat) (s : State) (e : Eng), tget s.engs op = some e → e.kind.isTile = false →
    (∃ g, groupOf s e.gid = some g) → gidOf e.thread = some e.gid → NoStepDue s →
    let ready := e.state = .pending ∧ engClear s op e = true ∧ earlierDispatch s op e = false
    let running := e.state = .flight ∧ (usesIdx e.kind = true → e.idx.isSome = true)
    (¬ ready → exec (.transferFlight op) s = .next s) ∧
    (ready → e.poison = false → ∃ s' e', exec (.transferFlight op) s = .next s' ∧ tget s'.engs op = some e' ∧
      e' = { e with
        state := .flight, scope := xferScope s e, dispatched := nextDispatch s, asked := e'.asked, idx := e'.idx, taintPa := e'.taintPa } ∧
      (usesIdx e.kind = false → e'.idx = e.idx ∧ e'.asked = true) ∧
      s'.threads = s.threads ∧ ∀ a, memByte s'.mem a = memByte s.mem a ∨ (usesIdx e.kind = true ∧ UnderPacket s a)) ∧
    (ready → e.poison = true → ∃ s', exec (.transferFlight op) s = .next s' ∧ OpEnded s s' op e (e.status + 1)) ∧
    (e.state ≠ .flight → exec (.transferDone op) s = .next s ∧ exec (.transferFault op) s = .next s) ∧
    (running → ∀ e2, xferFault s e = none → tget (askMoved s (moveAll s op e) op).engs op = some e2 →
      let s2 := askMoved s (moveAll s op e) op
      let stays := unitsLeft e2 ≠ [] ∨ requestsDone s2 op = false
      (stays → exec (.transferDone op) s = .next s2) ∧
      (¬ stays → ∃ s', exec (.transferDone op) s = .next s' ∧ OpEnded s s' op e2 e2.status) ∧
      (∀ n a y, tget e.buf n = none → (∃ v, tget e2.buf n = some v) → unitSrc e n = some a → n < srcUnits e →
        srcLoc s e a = .mem y → y.attr.carve = false → y.attr.remote = false →
        ∃ r ∈ s2.requests, r.op = some op ∧ r.pa ≤ y.loc ∧ y.loc + unitBytes e.src ≤ r.pa + r.len) ∧
      (∀ n a y, e.kind ≠ .stkred → n ∉ e.landed → n ∈ e2.landed → unitDst e n = some a → n < xferUnits e →
        dstLoc s e a = .mem y → y.attr.carve = false → y.attr.remote = false →
        ∃ r ∈ s2.requests, r.op = some op ∧ r.pa ≤ y.loc ∧ y.loc + unitBytes e.dst ≤ r.pa + r.len)) ∧
    (running → xferFault s e = none → exec (.transferFault op) s = .next s) ∧
    (running → ∀ a l, xferFault s e = some (a, l) → exec (.transferDone op) s = .next s ∧
      let out := requestsDone s op = false ∨ ∃ k ∈ s.packets, ∃ c ∈ k.2.counts, c.1 = op
      (out → exec (.transferFault op) s = .next s) ∧
      (¬ out → ∃ s', exec (.transferFault op) s = .next s' ∧ OpEnded s s' op e (e.status + 1) ∧ EngineTrap s s' e l a)) ∧
    (∀ n, tget e.buf n = none →
      (unitSrc e n = none → tget (unitRead s op n).engs op = some { e with buf := tset e.buf n 0, status := e.status ||| 16 }) ∧
      ∀ a v, e.kind ≠ .stkred → unitSrc e n = some a →
        let s0 := behindFor s e (srcLoc s e a)
        (NothingSent s e.core.die → s0 = s) ∧
        (engRead s0 op e (srcLoc s0 e a) (unitBytes e.src) = some v →
          (∀ y, srcLoc s0 e a = .mem y → y.attr.remote = true →
            devicePasses s0 (ctxIdOf s0 e.thread) y.loc false (unitBytes e.src) = true) →
          ∃ e', tget (unitRead s op n).engs op = some e' ∧ e'.buf = tset e.buf n v ∧ e'.landed = e.landed)) ∧
    (∀ n, unitLand s op n = (landsWith e n).foldl (landOne op) s ∧ (e.kind ≠ .stkcvt → landsWith e n = [n]) ∧
      (e.kind = .stkcvt → ∀ m, m ∈ landsWith e n ↔ m < xferUnits e ∧ (unitDst e m).map (· / 4) = (unitDst e n).map (· / 4))) ∧
    ∀ n v x, e.kind ≠ .stkred → n ∉ e.landed → finalLanded e n = true → unitValue e n = some v → unitDst e n = some x →
      let s' := landOne op s n
      (∀ off, dstLoc s e x = .scr off → ∃ g', groupOf s' e.gid = some g' ∧
        memNat g'.scratch off (unitBytes e.dst) = v % 256 ^ unitBytes e.dst) ∧
      (∀ y, dstLoc s e x = .mem y →
        (y.attr.remote = true → devicePasses s (ctxIdOf s e.thread) y.loc true (unitBytes e.dst) = true) →
        memNat s'.mem y.loc (unitBytes e.dst) = v % 256 ^ unitBytes e.dst)

/-- ENGINE_DECREMENT subtracts whole landed and read units from the object of the transfer, in scratchpad or in the carve-out, and tests
its waiters, unless the object's line is Absent; a decrement that an Absent line holds back is made once it is Present. STACK_LANDING sends
a packet once the older accesses of its threads allow it, lands it whole at its home once those before it have landed, and tells its sources
once its request is granted; a read or a write-back of a die comes behind the packets that it has sent to that home. RUNNER_MERGE combines
two packets of one page and element by the landing operation, where none must land between them (R72, R73, R145, R201, R215, R233, R247,
R284, R366, R372 to R374, R394). -/
def Obligations.PacketsAndCounts : Prop :=
  (∀ (op i j : Nat) (s : State) (e : Eng), tget s.engs op = some e →
    let due := e.kind.isTile = false ∧ e.state = .flight ∧ e.inDone + i ≤ (countable e).1 ∧ e.outDone + j ≤ (countable e).2 ∧
      i % unitBytes e.dst = 0 ∧ j % unitBytes e.src = 0 ∧ barHeld s e (fun _ => true) = false
    (¬ due → exec (.engineDecrement op i j) s = .next s) ∧
    (∀ off, e.bar = some (.scratch off) → ((barHeld s e fun _ => true) = true ↔
      ∃ o ∈ s.engs, o.2.gid = e.gid ∧ off / 64 ∈ o.2.cleared)) ∧
    (due → NoStepDue s → ∃ s', exec (.engineDecrement op i j) s = .next s' ∧
      (∃ e', tget s'.engs op = some e' ∧ e'.inDone = e.inDone + i ∧ e'.outDone = e.outDone + j ∧ e'.landed = e.landed ∧
        e'.buf = e.buf) ∧
      (∀ b, e.bar = some b → i ≠ 0 ∨ j ≠ 0 →
        let s1 := modEng s op fun x => { x with inDone := x.inDone + i, outDone := x.outDone + j }
        s' = testWaiters (barWrite s1 e.gid b (decrementRule (barRead s e.gid b) i j e.scope false)) e.gid b) ∧
      ∀ off g, e.bar = some (.scratch off) → i ≠ 0 ∨ j ≠ 0 → groupOf s e.gid = some g →
        barRead s' e.gid (.scratch off) = decrementRule (barRead s e.gid (.scratch off)) i j e.scope false)) ∧
  (∀ (gid : Nat) (s : State) (x : BarDue) (g : Group), groupOf s gid = some g →
    (lineAbsent s gid (x.off / 64) = true → ∃ g', groupOf (payDue gid s x) gid = some g' ∧ g'.dues = g.dues ++ [x] ∧
      g'.scratch = g.scratch) ∧
    (lineAbsent s gid (x.off / 64) = false →
      barRead (payDue gid s x) gid (.scratch x.off) = decrementRule (barRead s gid (.scratch x.off)) x.inB x.outB x.scope x.xf)) ∧
  (∀ (p : Nat) (s : State) (k : Packet), tget s.packets p = some k →
    (k.applied = true → requestsDone s p = false → exec (.stackLanding p) s = .next s) ∧
    (k.applied = true → requestsDone s p = true → NoStepDue s → ∃ s', exec (.stackLanding p) s = .next s' ∧
      tget s'.packets p = none ∧ (∀ a, memByte s'.mem a = memByte s.mem a) ∧
      ∀ c ∈ k.counts, ∀ e, tget s.engs c.1 = some e → ∃ e', tget s'.engs c.1 = some e' ∧ c.2 ∈ e'.landed) ∧
    (k.applied = false → k.sent = [] → sendReady s p k = false → exec (.stackLanding p) s = .next s) ∧
    (k.applied = false → k.sent = [] → sendReady s p k = true → ∃ s' m, exec (.stackLanding p) s = .next s' ∧ s.seq ≤ m ∧
      tget s'.packets p = some { k with sent := [(k.core.die, m)] } ∧ s'.seq = m + 1 ∧ WrittenBack s s' k.core.die ∧
      tget (coreOf s' k.core).l1 (k.pa / 128) = none) ∧
    (k.applied = false → k.sent ≠ [] → packetFirst s p k p = true → exec (.stackLanding p) s = .next s) ∧
    (k.applied = false → k.sent ≠ [] → packetFirst s p k p = false → ∃ s', exec (.stackLanding p) s = .next s' ∧
      tget s'.packets p = some { k with applied := true } ∧
      (∃ q, s'.requests = s.requests ++ [q] ∧ q.op = some p ∧ q.pa = k.pa ∧ q.len = packetBytes k ∧ q.cls = k.cls) ∧
      let n := packetBytes k
      let v := packetValue k (BitVec.ofNat 64 (memNat s.mem k.pa n))
      ∀ a, memByte s'.mem a = if k.pa ≤ a ∧ a < k.pa + n then (natBytes n v.toNat).getD (a - k.pa) 0 else memByte s.mem a)) ∧
  (∀ (r : Fin 4) (d p : Word), redLand r d p = landRule r d p) ∧
  ((∀ (i j : Nat) (a b : Packet), packetBefore i a j b = true ↔
      (i < j ∧ a.pa / 128 = b.pa / 128 ∧ ∃ t ∈ a.threads, t ∈ b.threads) ∨
      (a.stack = b.stack ∧ ∃ x ∈ a.sent, ∃ y ∈ b.sent, x.1 = y.1 ∧ x.2 < y.2)) ∧
    (∀ (s : State) (p skip : Nat) (k : Packet), packetFirst s p k skip = true ↔
      ∃ e ∈ s.packets, e.1 ≠ p ∧ e.1 ≠ skip ∧ e.2.applied = false ∧ packetBefore e.1 e.2 p k = true) ∧
    ∀ (s : State) (d : Fin 8) (k : Fin 16), (NothingSent s d → behindPackets s d k = s) ∧
      (∀ a, memByte (behindPackets s d k).mem a = memByte s.mem a ∨ UnderPacket s a) ∧
      ∀ p x, tget s.packets p = some x → x.stack = k → (∃ y ∈ x.sent, y.1 = d) →
        ∃ x', tget (behindPackets s d k).packets p = some x' ∧ x' = { x with applied := true }) ∧
  (∀ (a b : Packet), mergeable a b = true ↔ a.sent ≠ [] ∧ b.sent ≠ [] ∧ a.applied = false ∧ b.applied = false ∧ a.redWin = true ∧
    b.redWin = true ∧ a.pa = b.pa ∧ (a.op.isSome ↔ b.op.isSome) ∧ a.red = b.red ∧ a.atom = b.atom ∧
    ∀ n, a.atom ≠ some (.exch, n)) ∧
  (∀ (p1 p2 : Nat) (s : State) (a b : Packet), tget s.packets p1 = some a → tget s.packets p2 = some b →
    let stops := mergeable a b = false ∨ packetFirst s p1 a p2 = true ∨ packetFirst s p2 b p1 = true
    let joined (l : List Word) : List Word := match l with
      | [] => []
      | v :: l => [l.foldl (packetOne a) v]
    (stops → exec (.runnerMerge p1 p2) s = .next s) ∧
    (¬ stops → p1 = p2 → ∃ s', exec (.runnerMerge p1 p2) s = .next s' ∧
      tget s'.packets p1 = some { a with values := joined a.values } ∧
      (∀ k, k ≠ p1 → tget s'.packets k = tget s.packets k) ∧ s' = { s with packets := s'.packets }) ∧
    (¬ stops → p1 ≠ p2 → ∃ s', exec (.runnerMerge p1 p2) s = .next s' ∧ tget s'.packets (max p1 p2) = none ∧
      (∃ k, tget s'.packets (min p1 p2) = some k ∧ k.values = joined (a.values ++ b.values) ∧ k.counts = a.counts ++ b.counts ∧
        k.threads = a.threads ++ b.threads ∧ k.sent = a.sent ++ b.sent ∧ k.pa = a.pa ∧ k.red = a.red ∧ k.atom = a.atom ∧
        (∀ d, b.deadline = some d → ⟨b.core, b.ctx, b.cls, d⟩ ∈ k.more) ∧ ∀ x ∈ a.more ++ b.more, x ∈ k.more) ∧
      (∀ k, k ≠ p1 → k ≠ p2 → tget s'.packets k = tget s.packets k) ∧ s' = { s with packets := s'.packets }))

/-! ### Tile operations -/

/-- The tile words act once for each group. SEAL checks its operands, then the record by the conditions of R254 in their order, and gives it
a handle, or releases one, whose generation then advances; SHAPE grants rows; the block words and ACZ place an operation and push its token,
MXSP after the REGRANGE check of its index register. OPRDY waits, for each thread, for the
writes that its own group had issued before; MXWAIT waits for a tile operation and pushes its status (R83, R145, R226, R250 to R264,
R273 to R275). The model's choices: the address of a record beyond the allocation (log 41); what an input token takes (log 96); that the
whole group waits with the thread whose block stands on an Absent line (log 99); and that reason 4 tests the highest byte before the
reduction modulo 2^64 (log 121). -/
def Obligations.TileWords : Prop :=
  (∀ (a b : Src) (d : PDst) (sel : Fin 8) (st : Stall),
    ElectedWord (.seal a b d st) st d (sealOne a b) ∧ ElectedWord (.shape a b d st) st d (shapeOne a b) ∧
    ElectedWord (.mxld a b d st) st d (tileOne .mxld a b 0) ∧ ElectedWord (.mxmm a b d st) st d (tileOne .mxmm a b 0) ∧
    ElectedWord (.mxsp a b sel st) st .push (tileOne .mxsp a b sel) ∧ ElectedWord (.acld a b d st) st d (tileOne .acld a b 0) ∧
    ElectedWord (.acst a b d st) st d (tileOne .acst a b 0) ∧ ElectedWord (.acz a b d st) st d (aczOne a b)) ∧
  (∀ (a b : Src) (s : State) (t : ThreadKey), ∃ s1,
    let rows := ((groupOfThread s t).map fun g => g.hdr.accRows).getD 0
    let rg := min ((readSrc s t 1 b).extractLsb' 0 10).toNat rows
    let mg := 8 * (min (min ((readSrc s t 0 a).extractLsb' 0 10).toNat 256) rg / 8)
    shapeOne a b s t = .done (some (rg % 65536 * 65536 + mg)) s1 ∧
    ∀ g x, gidOf t = some g → groupOf s g = some x → groupOf s1 g = some { x with shape := (mg, rg) }) ∧
  (∀ (k : EngKind) (a b : Src) (sel : Fin 8) (s : State) (t : ThreadKey), t.isHandler = false → k.isTile = true → k ≠ .acz →
    let av := (readSrc s t 0 a).toNat
    let blk := readBlock s t av
    let inside := av % 64 = 0 ∧ av < scratchSize s t
    (av % 64 ≠ 0 → tileOne k a b sel s t = .fault (addrFault s t .align av)) ∧
    (av % 64 = 0 → scratchSize s t ≤ av → tileOne k a b sel s t = .fault (violFault s t 8 1 av)) ∧
    (inside → blockAbsent s t av = true → tileOne k a b sel s t = .wait (av / 64)) ∧
    (inside → blockAbsent s t av = false → blockReady s t av = false ∨ acqPending s t = true → tileOne k a b sel s t = .hold) ∧
    (inside → blockAbsent s t av = false → blockReady s t av = true → acqPending s t = false →
      (tileIllegal s t k blk = true → tileOne k a b sel s t = .fault ⟨t, .illegal, pcOf s t, 0, 0, none⟩) ∧
      (tileIllegal s t k blk = false → k = .mxsp → ((warpOf s t).map Warp.count).getD 0 ≤ (blk.extractLsb' 101 5).toNat →
        tileOne k a b sel s t = .fault ⟨t, .regRange, pcOf s t, 0, 0, none⟩) ∧
      (tileIllegal s t k blk = false → (k = .mxsp → tIdxReg blk < ((warpOf s t).map Warp.count).getD 0) →
        (handleRecord s (ctxIdOf s t) (tHnd blk) = none →
          tileOne k a b sel s t = .fault ⟨t, .handle, pcOf s t, 0, 0, none⟩) ∧
        ∀ r, handleRecord s (ctxIdOf s t) (tHnd blk) = some r →
          (tileAdmits s t k blk r = false → tileOne k a b sel s t = .fault ⟨t, .handle, pcOf s t, 0, 0, none⟩) ∧
          (∀ x, tileAdmits s t k blk r = true → tileScrBad s t r = some x →
            tileOne k a b sel s t = .fault (violFault s t 8 1 x)) ∧
          (tileAdmits s t k blk r = true → tileScrBad s t r = none →
            let room := tableRoom s (coreOfThread s t) = true ∧
              (k = .mxsp → warpLanded s t (Fin.ofNat 32 (tIdxReg blk)) = true)
            (¬ room → tileOne k a b sel s t = .hold) ∧
            (room → ∃ s1 e, tileOne k a b sel s t = .done (some e.token) (drainPoison s1.engs.length s1) ∧ OpPlaced s s1 t k e ∧
              e.block = blk ∧ e.src = r ∧ e.shape = shapeOf s t ∧ e.rows = tileRows k blk (shapeOf s t) ∧
              InputsTaken s (readSrc s t 1 b) e))))) ∧
  (∀ (a b : Src) (s : State) (t : ThreadKey),
    let row := ((readSrc s t 0 a).extractLsb' 0 10).toNat
    let n := ((readSrc s t 1 b).extractLsb' 0 10).toNat
    (n = 0 ∨ (shapeOf s t).2 < row + n → aczOne a b s t = .fault ⟨t, .illegal, pcOf s t, 0, 0, none⟩) ∧
    (n ≠ 0 → row + n ≤ (shapeOf s t).2 → tableRoom s (coreOfThread s t) = false → aczOne a b s t = .hold) ∧
    (n ≠ 0 → row + n ≤ (shapeOf s t).2 → tableRoom s (coreOfThread s t) = true → ∃ s1 e,
      aczOne a b s t = .done (some e.token) (drainPoison s1.engs.length s1) ∧ OpPlaced s s1 t .acz e ∧ e.rows = (row, n))) ∧
  (∀ (a b : Src) (s : State) (t : ThreadKey), t.isHandler = false →
    let av := readSrc s t 0 a
    let bv := readSrc s t 1 b
    let h := (bv.extractLsb' 0 32).toNat
    let c := ctxIdOf s t
    let bad := bv.extractLsb' 33 31 ≠ 0 ∨ (bv.getLsbD 32 = true ∧ av ≠ 0)
    let inside := av.toNat % 64 = 0 ∧ av.toNat < scratchSize s t
    (bad → sealOne a b s t = .fault ⟨t, .illegal, pcOf s t, 0, 0, none⟩) ∧
    (¬ bad → av.toNat % 64 ≠ 0 → sealOne a b s t = .fault (addrFault s t .align av.toNat)) ∧
    (¬ bad → av.toNat % 64 = 0 → scratchSize s t ≤ av.toNat → sealOne a b s t = .fault (violFault s t 8 1 av.toNat)) ∧
    (¬ bad → inside → bv.getLsbD 32 = true →
      (handleRecord s c h = none → sealOne a b s t = .done (some (7 * 2 ^ 32)) s) ∧
      (handleRecord s c h ≠ none → ∃ s1, sealOne a b s t = .done (some 0) s1 ∧ handleRecord s1 c h = none ∧
        ∀ k, k / 4096 ≠ h / 4096 → handleRecord s1 c k = handleRecord s c k)) ∧
    (¬ bad → inside → bv.getLsbD 32 = false →
      (blockAbsent s t av.toNat = true → sealOne a b s t = .wait (av.toNat / 64)) ∧
      (blockAbsent s t av.toNat = false → blockReady s t av.toNat = false → sealOne a b s t = .hold) ∧
      (blockAbsent s t av.toNat = false → blockReady s t av.toNat = true →
        sealOne a b s t = .done (some (sealRecord s c h (readBlock s t av.toNat)).1) (sealRecord s c h (readBlock s t av.toNat)).2))) ∧
  (∀ (r : BitVec 512) (n : Nat), sealReason r = n ↔
    ((n = 0 ∧ ∀ k, ¬ SealCond r k) ∨ (n ≠ 0 ∧ SealCond r n ∧ ∀ k, k < n → ¬ SealCond r k))) ∧
  (∀ (s : State) (c h : Nat) (r : BitVec 512), sealReason r ≠ 0 → sealRecord s c h r = (sealReason r * 2 ^ 32, s)) ∧
  (∀ (s : State) (c : Nat) (r : BitVec 512), sealReason r = 0 →
    (freeEntry s c (handleCount s c) 0 = none → sealRecord s c 0 r = (6 * 2 ^ 32, s)) ∧
    (∀ x, freeEntry s c (handleCount s c) 0 = some x → x < handleCount s c ∧ (handleAt s c x).record = none ∧
      (∀ y, y < x → (handleAt s c y).record ≠ none) ∧ ((handleAt s c x).gen < 4096 →
      ∃ s1, sealRecord s c 0 r = (x * 4096 + (handleAt s c x).gen, s1) ∧
        handleRecord s1 c (x * 4096 + (handleAt s c x).gen) = some r)) ∧
    ∀ h, h ≠ 0 → (handleRecord s c h = none → sealRecord s c h r = (7 * 2 ^ 32, s)) ∧
      (handleRecord s c h ≠ none → h / 4096 < 2 ^ 20 → ∃ h' s1, sealRecord s c h r = (h', s1) ∧ h' / 4096 = h / 4096 ∧
        handleRecord s1 c h = none ∧ handleRecord s1 c h' = some r)) ∧
  (∀ (st : Stall) (s : State), issuable (.oprdy st) s = true →
    let clear := ∀ t ∈ s.focus.threads, oprdyReady s t = true
    (clear → ∃ s', exec (.oprdy st) s = .next s' ∧ OnlyThreadsChange s s' ∧
      ThreadsBecome s s' (fun _ th => issued (now s) st (th.pc + 4) th.regs th)) ∧
    (¬ clear → ∃ s', exec (.oprdy st) s = .next s' ∧ Held s s')) ∧
  (∀ (a : Src) (d : PDst) (st : Stall) (s : State), issuable (.mxwait a d st) s = true →
    let tok (t : ThreadKey) : Nat := ((readSrc s t 0 a).extractLsb' 0 16).toNat
    ((∀ t ∈ s.focus.threads, tokenReady s t (tok t) = true) → ∃ s', exec (.mxwait a d st) s = .next s' ∧
      GoesOn st s (s.focus.threads.foldl (fun x t => tokenWait x t (tok t) d true) s) s') ∧
    ((∃ t ∈ s.focus.threads, tokenReady s t (tok t) = false) → ∃ s', exec (.mxwait a d st) s = .next s' ∧ Held s s')) ∧
  ∀ (s : State) (t : ThreadKey) (th : Thread) (tok op : Nat) (e : Eng) (d : PDst), threadOf s t = some th → tok ≠ 0 → tok ≠ 0xFFFF →
    tokenOp s ((gidOf t).getD 0) tok = some op → tget s.engs op = some e →
    threadOf (tokenWait s t tok d true) t = some { th with regs := th.regs.give d 0 0 (some s.seq)
                                                           status := .live (.waiting
                                                             (if e.kind.isTile then .tile op s.seq else .token (some op) s.seq)) }

/-- The life of a tile operation: TILE_FLIGHT fetches and pins the lines of its operands, as long as the core has fewer than 512 pinned,
and gives it its place in the order of the array; TILE_DONE computes its result once those before it are done: the chunk sum onto
each accumulator element, rounded once, or modulo 2^32 for integers; zeros; the image of a record; or the latched weights; an ACST
stores each accumulator element in the format of the record, and no other byte. TILE_FAULT stops the core at an operand that it may not
reach and leaves an MXLD's slot Empty (R68 to R70, R195, R261 to R273, R387, R394). The model's choices: when operands are read and results
written (log 35); what a Faulted operation leaves (log 42); what poisons an operation (log 96); the entry of an engine fault on the elected
thread's own record (log 97); and a position without operands multiplies its weight by +0 (log 120). -/
def Obligations.TilesRun : Prop :=
  ∀ (op : Nat) (s : State) (e : Eng) (g : Group), tget s.engs op = some e → e.kind.isTile = true → groupOf s e.gid = some g →
    gidOf e.thread = some e.gid → NoStepDue s →
    let ready := e.state = .pending ∧ engClear s op e = true ∧ earlierDispatch s op e = false
    let stops := tileBad s e ≠ none ∨ tileLinesReady s e = false ∨ earlierArray s e = true
    (¬ ready → exec (.tileFlight op) s = .next s) ∧
    (ready → e.poison = false →
      let e1 := { e with state := .flight, dispatched := nextDispatch s }
      let s1 := engWalks { s with engs := tset s.engs op e1 } e1
        (if recSpace e.src = 1 then [] else (tileAddrs s e1).map (·.1))
      (∀ a, memByte s1.mem a = memByte s.mem a) ∧
      ∃ s', exec (.tileFlight op) s = .next s' ∧
        (∃ e', tget s'.engs op = some e' ∧ e' = { e1 with taintPa := e'.taintPa }) ∧ WrittenBack s s' e.core.die ∧
        s'.threads = s.threads ∧ (512 ≤ pinsOfCore s1 e.core → s' = s1) ∧
        (pinsOfCore s1 e.core + (tileLines s1 e1).length ≤ 512 → ∀ x ∈ tileLines s1 e1, ∀ y,
          l2Of s' e.core.die x.1 = some y → y.stale = false → op ∈ y.pins)) ∧
    (ready → e.poison = true → ∃ s', exec (.tileFlight op) s = .next s' ∧ OpEnded s s' op e (e.status + 1)) ∧
    (e.state ≠ .flight ∨ stops → exec (.tileDone op) s = .next s) ∧
    (∀ (x : State) (out : Bool) (l : List (EngLoc × Nat)),
      ((∀ p ∈ l, ∀ y, p.1 = .mem y → y.attr.remote = false) → engTakes x e out l = some x) ∧
      ∀ y n, y.attr.remote = true →
        (engTakes x e out ((.mem y, n) :: l) = none ↔ devicePasses x (ctxIdOf x e.thread) y.loc out n = false)) ∧
    (e.state = .flight → ¬ stops → engTakes s e false (tileUnread s e) = none → exec (.tileDone op) s = .next s) ∧
    (∀ s0, e.state = .flight → ¬ stops → engTakes s e false (tileUnread s e) = some s0 →
      let s1 := (tileLines s0 e).foldl (fetchLine e) s0
      WrittenBack s s1 e.core.die ∧ ∃ s2 s' g' short, exec (.tileDone op) s = .next s' ∧
      s' = completeEng (unpinAll s2 op e) op { e with status := if short then 2 else 0 } false ∧
      OpEnded s s' op e (if short then 2 else 0) ∧ groupOf s2 e.gid = some g' ∧ (∀ a, memByte s2.mem a = memByte s1.mem a) ∧
      (short = true ↔ (e.kind = .mxmm ∨ e.kind = .mxsp) ∧ tileShort e e.shape.1 = true ∨
        (e.kind = .acld ∨ e.kind = .acst) ∧ tileShort e (tRows e.block) = true) ∧
      (e.kind = .mxld → g'.ws[e.slot] = loadSlot s1 op e ∧ g'.acc = g.acc ∧ g'.scratch = g.scratch) ∧
      (e.kind = .acst → g'.acc = g.acc ∧ g'.ws = g.ws ∧ (recFmt e.src ≤ 4 ∨ recFmt e.src = 8 →
        let rows := (e.block.extractLsb' 89 10).toNat
        let first := (e.block.extractLsb' 56 24).toNat
        let w := fmtBytes (recFmt e.src)
        let at' (i n : Nat) : Nat := (e.src.extractLsb' 0 64).toNat + (first + i) * (e.src.extractLsb' 224 40).toNat + n * w
        let lies (i n : Nat) : Prop := i < rows ∧ n < 128 ∧ first + i ≤ (e.src.extractLsb' 152 24).toNat
        (∀ i n, lies i n → tileTainted s1 e (at' i n) w = false →
          (∀ j m, lies j m → i < j ∨ (i = j ∧ n < m) → at' j m + w ≤ at' i n ∨ at' i n + w ≤ at' j m) →
          let v := accAt g ((e.block.extractLsb' 80 9).toNat + i) n
          memNat g'.scratch (at' i n) w = if recFmt e.src = 0 ∨ recFmt e.src = 8 then v.toNat
            else (aluFcvt (.float .fp32) (.float (recFloat (recFmt e.src))) (rndOf (e.block.extractLsb' 106 3).toNat)
              (v.setWidth 64) 0).toNat % 256 ^ w) ∧
        ∀ k, (∀ i n, lies i n → k < at' i n ∨ at' i n + w ≤ k) → memByte g'.scratch k = memByte g.scratch k)) ∧
      (e.kind ≠ .mxld → e.kind ≠ .acst → g'.ws = g.ws ∧ g'.scratch = g.scratch ∧ ∀ r n, n < 128 →
        let k := if e.kind = .acz then e.rows.2 else if e.kind = .acld then tRows e.block else e.shape.1
        accAt g' r n = if e.rows.1 ≤ r ∧ r < e.rows.1 + k then
            (if e.kind = .acz then 0 else if e.kind = .acld then acldElem s1 op e (r - e.rows.1) n
              else mulElem s1 op e g (r - e.rows.1) n)
          else accAt g r n)) ∧
    (∀ i n, rowTainted s e i = false → mulElem s op e g i n = chunkRule (intFmt (slotFmt s e) && intFmt (recFmt e.src))
      (if tFresh e.block then 0 else accAt g (tAccRow e.block + i) n) (chunkSum s op e g.ws[e.slot] i n)) ∧
    (e.state ≠ .flight ∨ tileBad s e = none → exec (.tileFault op) s = .next s) ∧
    (e.state = .flight → ∀ a l, tileBad s e = some (a, l) → ∃ s', exec (.tileFault op) s = .next s' ∧
      OpEnded s s' op e (e.status + 1) ∧ EngineTrap s s' e l a ∧
      (e.kind = .mxld → ∀ g', groupOf s' e.gid = some g' → g'.ws[e.slot].fmt = none))

/-! ### Ladles -/

/-- GO pushes the status of a thread that stays and lets another leave for the row of its address; WHERE gives the place and the
home; both check their address. HOME sends an away thread home (R286, R306 to R309). The runner takes the eligible die of the row
with the most reported places, a tie to the even one; RECALL sends a recalled thread home at its boundary; END_NOTICE clears the
ended thread's mask bits at home; GUEST_REPORT reports the context and the free guest places of each core on which no other context
is to be loaded (R86, R295, R300, R302, R303). -/
def Obligations.LadleWordsAndService : Prop :=
  ((∀ (a : Src) (d : PDst) (st : Stall) (s : State) (i : Instr), i = .go a d st ∨ i = .whereW a d st → issuable i s = true →
     let q := placeAll s (fun t => (readSrc s t 0 a).toNat) s.focus.threads
     (q.1 ≠ [] → (∀ t ∈ s.focus.threads, t.isHandler = false) →
       ∃ s', exec i s = .next s' ∧ Faulted s s' q.1) ∧
     (q.1 = [] → q.2.1.map (·.1) = s.focus.threads ∧ ∃ s', exec i s = .next s' ∧
       (∀ b, memByte s'.mem b = memByte s.mem b) ∧ (∀ t, t ∉ s.focus.threads → threadOf s' t = threadOf s t) ∧
       ∀ e ∈ q.2.1, ∀ th, threadOf s e.1 = some th → threadOf s' e.1 = some (
         if i = .whereW a d st then
           issued (now s) st (th.pc + 4) (th.regs.give d (whereRule s e.1 th e.2) 0 none) th
         else match goRule s e.1 th e.2 with
           | some v => { issued (now s) st (th.pc + 4) (th.regs.give d (BitVec.ofNat 64 v) 0 none) th with streak := 0 }
           | none => { th with streak := 0, leaving := some ⟨1, stackOf e.2.pa, d, readSrc s e.1 0 a, s.seq⟩ }))) ∧
   ∀ st : Stall, ThreadWord (.homeW st) (fun s _ th =>
     { issued (now s) st (th.pc + 4) th.regs th with leaving := if th.away.isSome then some ⟨2, 0, .push, 0, 0⟩ else th.leaving })) ∧
  ((∀ (s : State) (row : Fin 4) (ctx : Nat),
     (∀ d, chooseDie s row ctx = some d → d.val / 2 = row.val ∧ eligibleDie s ctx d = true ∧
       ∀ e : Fin 8, e.val / 2 = row.val → eligibleDie s ctx e = true →
         reportedPlaces s e ctx < reportedPlaces s d ctx ∨ (reportedPlaces s e ctx = reportedPlaces s d ctx ∧ d.val ≤ e.val)) ∧
     (chooseDie s row ctx = none → ∀ e : Fin 8, e.val / 2 = row.val → eligibleDie s ctx e = false)) ∧
   (∀ (t : ThreadKey) (s : State) (th : Thread), threadOf s t = some th →
     let goes := th.recalled = true ∧ th.away.isSome = true ∧ th.leaving = none ∧ (th.status = .live .ready ∨ th.status = .live .stalled)
     (¬ goes → exec (.recall t) s = .next s) ∧
     (goes → ∃ s', exec (.recall t) s = .next s' ∧ threadOf s' t = some { th with leaving := some ⟨3, 0, .push, 0, 0⟩ } ∧
       (∀ u, u ≠ t → threadOf s' u = threadOf s u) ∧ s' = { s with threads := s'.threads })) ∧
   (∀ (t : ThreadKey) (s : State),
     (⟨t⟩ ∉ s.endNotes → exec (.endNotice t) s = .next s) ∧
     (⟨t⟩ ∈ s.endNotes → NoStepDue s → ∃ s', exec (.endNotice t) s = .next s' ∧ s'.endNotes = s.endNotes.erase ⟨t⟩ ∧
       (∀ k, maskBit s' (warpKeyOf t) k (laneOf t) = false) ∧
       ∀ th, threadOf s t = some th → th.status = .ended → ∃ th', threadOf s' t = some th' ∧ th'.status = .ended ∧ th'.away = none ∧
         th'.recalled = false ∧ ∀ x, th.away = some x → th'.place = x.homePlace)) ∧
   ∀ (d : Fin 8) (s : State), ∃ s', exec (.guestReport d) s = .next s' ∧ (dieOf s' d).reportAt = s.clock ∧
     (∀ k : Fin 128, tget (dieOf s' d).reports k = if offersGuests s ⟨d, k⟩ then
       (coreOf s ⟨d, k⟩).ctx.map fun c => (c, (freeGuests s ⟨d, k⟩).length) else none) ∧
     (∀ e, e ≠ d → dieOf s' e = dieOf s e) ∧ s' = { s with dies := s'.dies })

/-- The journey of a ladle. LADLE_DEPARTURE, once every owed write has landed, the release is done and no thread of its GO comes before
it, forms the flits of the ladle, header and padded register area, and leaves the registers at home; the ladle carries the PC, the
prefix state and the write filter. LADLE_LANDING chooses the die with the most reported free places, then a core and a place, and the thread
stands there with its area, WAKE 13; where none is free the ladle is refused. LADLE_REFUSAL puts the thread back where it was, WAKE 14,
its streak counter 0: after GO with status 1 at the next word; under FALLBACK the access is executed there by its own word as the
thread's issue group, without its mark, so that the thread's PC and registers are those that the word leaves; under STRICT it has MIGREF.
LADLE_RETURN brings it home, WAKE 15; one whose home die is lost is Lost (R199, R200, R287 to R304, R307). The model's choices: when the
runner and the cupola choose (log 43); what the access of a refused thread is, and that one whose home die is lost is Lost (log 44); and
the must-be-0 bits of a pending MOD or DLN, which the header does not carry (log 98). -/
def Obligations.LadlesMove : Prop :=
  ∀ (t : ThreadKey) (s : State) (th : Thread), threadOf s t = some th → t.isHandler = false → NoStepDue s →
    let h := ((groupOfThread s t).map (·.hdr)).getD Header.zero
    (th.leaving = none ∨ departReady s t th = false → exec (.ladleDeparture t) s = .next s) ∧
    (∀ l, th.leaving = some l → departFirst s t l = false → exec (.ladleDeparture t) s = .next s) ∧
    (∀ l, th.leaving = some l → departReady s t th = true → departFirst s t l = true → ∃ s' th' a, exec (.ladleDeparture t) s = .next s' ∧
      threadOf s' t = some th' ∧ th'.status = .travelling ∧ th'.leaving = none ∧ th'.away = some a ∧ a.kind = l.kind ∧
      th'.pc = (if l.kind = 1 then th.pc + 4 else th.pc) ∧ th'.pfx = th.pfx ∧
      (∃ n, n < 8 ∧ a.area = areaRule h (if l.kind = 1 then th.regs.give l.goDst 0 0 none else th.regs) ++ List.replicate n 0) ∧
      a.body.length % 64 = 0 ∧ a.header = headerRule s t th l.kind a.homePlace th'.pc ∧
      (canonical th'.pc.toNat = true → th'.pc.extractLsb' 0 2 = 0 → a.pc = th'.pc) ∧ a.pfx th.pfx = th.pfx ∧
      a.filter = th.filter ∧
      (th.away = none → a.home = th.regs ∧ a.homePc = th.pc ∧ a.homePfx = th.pfx ∧ a.homePlace = th.place ∧ a.stack = l.stack ∧
        a.target = none ∧ a.refused = false) ∧
      (∀ x, th.away = some x → a.home = x.home ∧ a.homePlace = x.homePlace) ∧
      ∀ ln x, l2Of s' th.place.core.die ln = some x → x.shared = true → x.dirty = 0) ∧
    (∀ a, th.status = .travelling → th.away = some a →
      (a.refused = true ∨ 2 ≤ a.kind.val → exec (.ladleLanding t) s = .next s) ∧
      (a.refused = false → a.kind.val < 2 →
        (a.target = none → ∃ s' x, exec (.ladleLanding t) s = .next s' ∧ threadOf s' t = some { th with away := some x } ∧
          x = match chooseDie s (rowOfStack a.stack) (ctxIdOf s t) with
            | some d => { a with target := some d }
            | none => { a with refused := true }) ∧
        ∀ d, a.target = some d →
          ((dieOf s d).takes = false ∨ chooseCore s d (ctxIdOf s t) = none → ∃ s', exec (.ladleLanding t) s = .next s' ∧
            threadOf s' t = some { th with away := some { a with refused := true } }) ∧
          ∀ p, (dieOf s d).takes = true → chooseCore s d (ctxIdOf s t) = some p → ∃ s' r,
            exec (.ladleLanding t) s = .next s' ∧ AreaTaken h a.area Regs.zero r ∧ threadOf s' t = some { th with
              status := if (coreOf s p.core).stopped then .stopped .ready else .live .ready
              place := p, regs := r, pc := a.pc, pfx := a.pfx th.pfx, filter := 0, streak := 0, readyAt := 0
              wake := ⟨13, false, false⟩ }) ∧
      (a.refused = false → exec (.ladleRefusal t) s = .next s) ∧
      (a.refused = true → (dieOf s a.homePlace.core.die).lost = true → ∃ s' th', exec (.ladleRefusal t) s = .next s' ∧
        threadOf s' t = some th' ∧ th'.status = .lost ∧ th'.place = a.homePlace) ∧
      (a.refused = true → (dieOf s a.homePlace.core.die).lost = false → th.step = .off → th.inBar = none → th.leaving = none →
        (h.migStrict = true → th.entry = none → ∃ s' th' seen, exec (.ladleRefusal t) s = .next s' ∧ threadOf s' t = some th' ∧
          th'.status = .stopped .ready ∧ th'.place = a.homePlace ∧ th'.regs = a.home ∧ th'.pc = a.homePc ∧ th'.away = none ∧
          th'.recalled = false ∧ th'.streak = 0 ∧
          th'.entry = some ⟨.migRef, a.homePc, 0, a.addr, false, seen⟩ ∧ (coreOf s' a.homePlace.core).stopped = true) ∧
        (h.migStrict = false → a.kind = 1 → ∃ s' th', exec (.ladleRefusal t) s = .next s' ∧ threadOf s' t = some th' ∧
          th'.status = (if (coreOf s a.homePlace.core).stopped then .stopped .ready else .live .ready) ∧
          th'.place = a.homePlace ∧ th'.regs = a.home.give a.goDst 1 0 none ∧ th'.pc = a.homePc + 4 ∧ th'.away = none ∧
          th'.recalled = false ∧ th'.streak = 0 ∧ th'.wake = ⟨14, false, false⟩) ∧
        (h.migStrict = false → a.kind ≠ 1 →
          let c := a.homePlace.core
          let b : Thread := { th with
            status := .live .ready, place := a.homePlace, regs := a.home, pc := a.homePc, away := none, readyAt := 0
            pfx := { a.homePfx with mod := a.homePfx.mod.map fun m => m &&& 0x3E7F }
            wake := ⟨14, false, false⟩, recalled := false, streak := 0 }
          ∃ (s1 s' : State) (th' : Thread), threadOf s1 t = some b ∧ (∀ u, u ≠ t → threadOf s1 u = threadOf s u) ∧
            s1 = { s with threads := s1.threads, focus := ⟨c, Fin.ofNat 4 (a.homePlace.slot.val / 16), [t]⟩ } ∧
            exec (.ladleRefusal t) s = .next s' ∧ threadOf s' t = some th' ∧ th'.place = a.homePlace ∧ th'.away = none ∧
            th'.recalled = false ∧ th'.wake = ⟨14, false, false⟩ ∧ th'.streak = 0 ∧
            let r := fetchAt s1 c (ctxIdOf s t) a.homePc.toNat ((groupOfThread s t).map Group.bindAt)
            let home (x : State) : Prop := s' = testHeld (settleStopped x t c) ((gidOf t).getD 0)
            ∀ w, r.1 = .word w → ∀ x d k v y st s4, (instrOfWord w = .ld x d k v st ∨ instrOfWord w = .store x y k v st) →
              exec (instrOfWord w) r.2 = .next s4 → home s4)) ∧
      (a.kind.val < 2 → exec (.ladleReturn t) s = .next s) ∧
      (2 ≤ a.kind.val → (dieOf s a.homePlace.core.die).lost = true → ∃ s' th', exec (.ladleReturn t) s = .next s' ∧
        threadOf s' t = some th' ∧ th'.status = .lost ∧ th'.place = a.homePlace) ∧
      (2 ≤ a.kind.val → (dieOf s a.homePlace.core.die).lost = false → ∃ s' r, exec (.ladleReturn t) s = .next s' ∧
        AreaTaken h a.area a.home r ∧ threadOf s' t = some { th with
          status := if (coreOf s a.homePlace.core).stopped then .stopped .ready else .live .ready
          place := a.homePlace, regs := r, pc := a.pc, pfx := a.pfx th.pfx, away := none, recalled := false, filter := 0
          streak := 0, readyAt := 0
          wake := ⟨15, false, false⟩ }))

/-! ### Signals and events -/

/-- QPOST acts once for each group: its block faults first, it is Stalled while the thread's accesses are out, it waits for an Absent
line of the block, and it pushes 4, 2, 1 or 3 for a record that is refused, or the number of the record that it has submitted, in bits
63:32. EVSIG adds to its event and SIG raises a
vector, after the release of each thread; CRIT opens and closes a window, and CRIT_BUDGET_EXPIRE ends a budget (R145, R297, R322, R323, R332,
R338, R344 to R346). The model's choices: QPOST answers faulted (2) before full (1) (log 50); and the whole group waits with the thread whose
block stands on an Absent line (log 99). -/
def Obligations.SignalWords : Prop :=
  (∀ (a b : Src) (d : PDst) (st : Stall) (s : State), issuable (.qpost a b d st) s = true →
    let ts := s.focus.threads
    let fs := (electedOf s ts).filterMap fun t => blockFault s t (readSrc s t 0 a).toNat
    let s0 := releaseAll s (ts.map fun t => (t, .sys))
    let r := runElected (qpostOne a b) (electedOf s0 ts) s0
    (fs ≠ [] → ∃ s', exec (.qpost a b d st) s = .next s' ∧ Faulted s s' fs) ∧
    (fs = [] → (∃ t ∈ ts, releaseReady s .sys t = false) ∨ (r.waits = [] ∧ r.held = true) →
      ∃ s', exec (.qpost a b d st) s = .next s' ∧ Held s s') ∧
    (fs = [] → (∀ t ∈ ts, releaseReady s .sys t = true) → r.waits ≠ [] → ∃ s', exec (.qpost a b d st) s = .next s' ∧
      BlocksAwaited s0 s' r.waits) ∧
    (fs = [] → (∀ t ∈ ts, releaseReady s .sys t = true) → r.waits = [] → r.held = false → ∃ s', exec (.qpost a b d st) s = .next s' ∧
      GoesOn st s (modThreads r.state ts fun t th =>
        match r.values.find? fun v => decide (gidOf v.1 = gidOf t) with
        | some (_, some v) => { th with regs := th.regs.give d (BitVec.ofNat 64 v) 0 none }
        | _ => th) s')) ∧
  (∀ (a b : Src) (s : State) (t : ThreadKey), blockFault s t (readSrc s t 0 a).toNat = none →
    let bv := (readSrc s t 1 b).toNat
    let tenant := tenantOfCtx s (ctxIdOf s t)
    let q : QueueId := ⟨tenant, Fin.ofNat 16 bv⟩
    let x := queueOf s q
    let lr := readBlock s t (readSrc s t 0 a).toNat
    (blockAbsent s t (readSrc s t 0 a).toNat = true → qpostOne a b s t = .wait ((readSrc s t 0 a).toNat / 64)) ∧
    (blockAbsent s t (readSrc s t 0 a).toNat = false → blockReady s t (readSrc s t 0 a).toNat = false → qpostOne a b s t = .hold) ∧
    (blockAbsent s t (readSrc s t 0 a).toNat = false → blockReady s t (readSrc s t 0 a).toNat = true →
      (16 ≤ bv ∨ x.enable = false → qpostOne a b s t = .done (some 4) s) ∧
      (bv < 16 → x.enable = true →
        (x.fault ≠ 0 → qpostOne a b s t = .done (some 2) s) ∧
        (x.fault = 0 → 4096 ≤ x.records.length → qpostOne a b s t = .done (some 1) s) ∧
        (x.fault = 0 → x.records.length < 4096 →
          (∀ c s1, testRecord s tenant x.ctx x.nextNum lr = .refused c s1 → ∃ s2, qpostOne a b s t = .done (some 3) s2 ∧
            s2 = { s1 with requests := s2.requests, arrivals := s2.arrivals, dramBanks := s2.dramBanks } ∧ s1.queues = s.queues) ∧
          (∀ l, testRecord s tenant x.ctx x.nextNum lr = .ok l → ∃ s1,
            qpostOne a b s t = .done (some (2 ^ 32 * x.nextNum.toNat)) s1 ∧
            s1 = { s with queues := s1.queues, requests := s1.requests, arrivals := s1.arrivals, dramBanks := s1.dramBanks } ∧
            (queueOf s1 q).nextNum = x.nextNum + 1 ∧
            (queueOf s1 q).records.map (·.num) = x.records.map (·.num) ++ [x.nextNum]))))) ∧
  (∀ (a b : Src) (st : Stall) (s : State), issuable (.evsig a b st) s = true → (∀ t ∈ s.focus.threads, t.isHandler = false) →
    let fs := s.focus.threads.filterMap fun t => evsigFault s t (readSrc s t 0 a).toNat
    (fs ≠ [] → ∃ s', exec (.evsig a b st) s = .next s' ∧ Faulted s s' fs) ∧
    (fs = [] → (∃ t ∈ s.focus.threads, releaseReady s .sys t = false) → ∃ s', exec (.evsig a b st) s = .next s' ∧ Held s s')) ∧
  (∀ (a b : Src) (st : Stall) (s : State), issuable (.evsig a b st) s = true →
    (∀ t ∈ s.focus.threads, evsigFault s t (readSrc s t 0 a).toNat = none) →
    (∀ t ∈ s.focus.threads, releaseReady s .sys t = true) → ∃ s', exec (.evsig a b st) s = .next s' ∧
      GoesOn st s ((sortThreads s s.focus.threads).foldl (fun x t =>
        evsigOne x t (readSrc s t 0 a).toNat (readSrc s t 1 b).toNat) s) s') ∧
  (∀ (s s1 : State) (t : ThreadKey) (va inc : Nat) (x : Xlat), translateFor s t va ⟨true, true, false⟩ = (.ok x, s1) →
    (va % 8 ≠ 0 → evsigFault s t va = some (addrFault s t .align va)) ∧
    (va % 8 = 0 → x.attr.carve = true → evsigFault s t va = some (violFault s t 7 0 va)) ∧
    (va % 8 = 0 → x.attr.carve = false → evsigFault s t va = none) ∧
    ∃ u post, evsigOne s t va inc = eventAdd u post x.loc inc ∧ (∀ y, (post y).mem = y.mem) ∧ u.threads = (markFilter s1 t x).threads ∧
      ∀ ln y, x.attr.remote = false → l2Of u (coreOfThread s t).die ln = some y → y.ctx = ctxIdOf s t → y.dirty = 0) ∧
  (∀ (s : State) (post : State → State) (loc inc : Nat), (∀ y, (post y).mem = y.mem) →
    Added s.mem (eventAdd s post loc inc).mem loc inc) ∧
  (∀ (a : Src) (st : Stall) (s : State), issuable (.sig a st) s = true →
    ((∃ t ∈ s.focus.threads, releaseReady s .sys t = false) → ∃ s', exec (.sig a st) s = .next s' ∧ Held s s') ∧
    ((∀ t ∈ s.focus.threads, releaseReady s .sys t = true) → ∃ s', exec (.sig a st) s = .next s' ∧
      GoesOn st s (s.focus.threads.foldl (fun x t =>
        raiseVector (releaseAct x (coreOfThread s t).die (ctxIdOf s t) .sys) (tenantOfCtx s (ctxIdOf s t))
          ((readSrc s t 0 a).extractLsb' 0 6).toFin) s) s')) ∧
  (∀ (s : State) (t vec : Fin 64), Raised s (raiseVector s t vec) t vec ∧
    raiseVector s t vec = { s with msix := (raiseVector s t vec).msix, notes := (raiseVector s t vec).notes }) ∧
  (∀ (a : Src) (d : PDst) (st : Stall) (s : State), issuable (.crit a d st) s = true →
    ∃ s', exec (.crit a d st) s = .next s' ∧ GoesOn st s ((sortThreads s s.focus.threads).foldl (fun x t =>
      critOne ((readSrc s t 0 a).getLsbD 0) d x t) s) s' ∧ ∀ b, memByte s'.mem b = memByte s.mem b) ∧
  (∀ (s : State) (g : Nat) (h : Fin 16) (l : Fin 32) (th : Thread) (x : Group) (op : Bool) (d : PDst),
    threadOf s (.home g h l) = some th → groupOf s g = some x →
    let n := if op = true ∧ th.critOpen = false ∧ openCount s g = 0 then (if preemptPending s g = true then 0 else x.hdr.crit) else x.bg
    let s' := critOne op d s (.home g h l)
    threadOf s' (.home g h l) = some { th with critOpen := op, regs := th.regs.give d (BitVec.ofNat 64 (n % 65536)) 0 none } ∧
    groupOf s' g = some { x with bg := n } ∧ (∀ u, u ≠ .home g h l → threadOf s' u = threadOf s u)) ∧
  ∀ (g : Nat) (s : State) (x : Group), groupOf s g = some x →
    let runs := x.bg = 1 ∧ x.isResident = true ∧ openCount s g ≠ 0 ∧ (coreOf s x.core).dozing = false ∧ (coreOf s x.core).stopped = false
    (¬ runs → exec (.critBudgetExpire g) s = .next s) ∧
    (runs → ∃ s', exec (.critBudgetExpire g) s = .next s' ∧ groupOf s' g = some { x with bg := 0 } ∧
      s' = { s with groups := s'.groups })

/-! ### The trap handler -/

/-- TRD gives each handler thread the item that its selector names, or 0 for an empty place; TWR writes an item of a Stopped thread;
TRES, TSTOP and TKILL mark it and give their status. A selector of slot 63, or of no item, is a handler fault ILLEGAL; a PC that is no
multiple of 4 is a handler fault ALIGN (R355, R356). The model's choices: a value still owed reads as the former one (log 71); a
must-be-0 bit of a pending MOD or DLN is not shown and is cleared by a write of the prefix state (log 98); which of two threads a
selector names in a shared place (log 88). -/
def Obligations.HandlerReadsAndWrites : Prop :=
  (∀ (a b : Src) (d : PDst) (st : Stall) (s : State) (i : Instr) (r : Res),
    issuable i s = true → (∀ t ∈ s.focus.threads, ∃ l, t = .handler s.focus.core l) →
    let c := s.focus.core
    let v (t : ThreadKey) : Word := readSrc s t 0 a
    let bad := ∃ t ∈ s.focus.threads, selSlot (v t) = 63 ∨ itemOf (selItem (v t)) = none
    let badSlot := ∃ t ∈ s.focus.threads, selSlot (v t) = 63
    let odd := ∃ t ∈ s.focus.threads, (readSrc s t 1 b).extractLsb' 0 2 ≠ 0 ∧
      ∃ k th, writable s (coreOfThread s t) (v t) = some (k, th, .pc)
    (i = .trd a d st → (bad → ∃ s', exec i s = .next s' ∧ HandlerFailed s s' c 1) ∧
      (¬ bad → ∃ s', exec i s = .next s' ∧ OnlyThreadsChange s s' ∧ ThreadsBecome s s' (fun t th =>
        issued (now s) st (th.pc + 4)
          (th.regs.give d (BitVec.ofNat 64 (trdValue s (coreOfThread s t) (v t))) 0 none) th))) ∧
    (i = .twr a b st → (bad → ∃ s', exec i s = .next s' ∧ HandlerFailed s s' c 1) ∧
      (¬ bad → odd → ∃ s', exec i s = .next s' ∧ HandlerFailed s s' c 6) ∧
      (¬ bad → ¬ odd → ∃ s', exec i s = .next s' ∧ (∀ x, memByte s'.mem x = memByte s.mem x) ∧
        GoesOn st s (s.focus.threads.foldl (fun x t =>
          match writable x (coreOfThread s t) (v t) with
          | some (k, th, j) => writeItem x k th j (readSrc s t 1 b)
          | none => x) s) s')) ∧
    ((i = .tres a d st ∧ r = .resume) ∨ (i = .tstop a d st ∧ r = .step) ∨ (i = .tkill a d st ∧ r = .kill) →
      (badSlot → ∃ s', exec i s = .next s' ∧ HandlerFailed s s' c 1) ∧
      (¬ badSlot → ∃ s', exec i s = .next s' ∧ (∀ x, memByte s'.mem x = memByte s.mem x) ∧
        GoesOn st s (s.focus.threads.foldl (fun x t =>
          giveThread (markOne x (coreOfThread s t) (v t) r).2 t d
            (BitVec.ofNat 64 (markOne x (coreOfThread s t) (v t) r).1) 0 none) s) s'))) ∧
  (∀ (s : State) (c : CoreId) (v : Word),
    let code := (v.extractLsb' 16 12).toNat
    let who := selected s c (v.extractLsb' 0 6).toFin (v.extractLsb' 6 5).toFin
    (∀ x, itemOf code = some x → code ≠ 7 → (who = none → trdValue s c v = 0) ∧
      ∀ t th, who = some (t, th) → BitVec.ofNat 64 (trdValue s c v) = itemRule s t th code) ∧
    (code = 7 → ∀ j : Fin 32, (BitVec.ofNat 64 (trdValue s c v)).getLsbD j.val = true ↔
      ∃ t th, selected s c (v.extractLsb' 0 6).toFin j = some (t, th) ∧ th.entry.isSome = true ∧ th.res = .none) ∧
    ((itemOf code).isSome = true ↔ code ≤ 9 ∨ (0x10 ≤ code ∧ code < 0x5C)) ∧
    ∀ r, (who = none → markOne s c v r = (1, s)) ∧
      ∀ t th, who = some (t, th) → threadOf s t = some th →
        ((∀ p, th.status ≠ .stopped p) → markOne s c v r = (2, s)) ∧
        (∀ p, th.status = .stopped p →
          (r ≠ .kill → (∃ e, th.entry = some e ∧ e.cause = .dieLost) → markOne s c v r = (3, s)) ∧
          (r = .kill ∨ (∀ e, th.entry = some e → e.cause ≠ .dieLost) → ∃ s1, markOne s c v r = (0, s1) ∧
            threadOf s1 t = some { th with res := r } ∧ (∀ u, u ≠ t → threadOf s1 u = threadOf s u) ∧
            s1 = { s with threads := s1.threads }))) ∧
  ∀ (s : State) (t : ThreadKey) (th : Thread) (v : Word), threadOf s t = some th →
    threadOf (writeItem s t th .pc v) t = some { th with pc := v } ∧
    threadOf (writeItem s t th .pfx v) t = some { th with pfx := {
      lit := if v.getLsbD 22 then some (v.extractLsb' 0 22) else none
      mod := if v.getLsbD 37 then some (v.extractLsb' 23 14) else none, modBad := false
      dln := if v.getLsbD 54 then some (v.extractLsb' 38 16) else none, dlnBad := false } } ∧
    (∀ k : Fin 16, ∃ r, threadOf (writeItem s t th (.q k) v) t = some { th with regs := r } ∧ r.named = th.regs.named ∧
      (r.qcell k).val = v ∧ (r.qcell k).pend = none ∧ ∀ j, j ≠ k → r.qcell j = th.regs.qcell j) ∧
    (∀ k : Fin 32, (namedReach s t th k = false → writeItem s t th (.n k) v = s) ∧
      (namedReach s t th k = true → ∃ r, threadOf (writeItem s t th (.n k) v) t = some { th with regs := r } ∧
        r.slots = th.regs.slots ∧ r.head = th.regs.head ∧ r.named[k].val = v ∧ r.named[k].pend = none ∧
        ∀ j, j ≠ k → r.named[j] = th.regs.named[j])) ∧
    (∀ w, warpOf s t = some w →
      (∀ k : Fin 16, th.away = none → ∃ w', warpOf (writeItem s t th (.w k) v) t = some w' ∧ w'.w[k].val = v ∧
        w'.w[k].pend = none ∧ w'.k = w.k ∧ ∀ j, j ≠ k → w'.w[j] = w.w[j]) ∧
      (∀ k : Fin 12, th.away = none → ∃ w', warpOf (writeItem s t th (.k k) v) t = some w' ∧ w'.k[k] = v.setWidth 32 ∧
        w'.w = w.w ∧ ∀ j, j ≠ k → w'.k[j] = w.k[j])) ∧
    (th.away.isSome = true → (∀ k, writeItem s t th (.w k) v = s) ∧ ∀ k, writeItem s t th (.k k) v = s) ∧
    ∀ j, j ∈ [Item.state, .detail, .address, .wake, .place, .entryMask, .masks, .entryPc] → writeItem s t th j v = s

/-- TRET, once the handler's accesses are done, releases at system scope and ends the invocation. Where no entry of the core is unseen
and unresolved the core runs again: killed threads have Ended, and every other Stopped thread has its prior state, at its PC; WAKE is 11
for Ready and Stalled. Where one is, the handler starts anew and the core stays stopped. PINV drops the translations of the handler's
context in its range. HANDLER_LIMIT is a handler fault with code 15, and the marks made so far stay (log 105); CX_HANDLER_RESTART, a
write that a port may hold back or Phase ignore, clears Hf and starts the handler again where the core still stands. What a step does
for a thread that another's fault stopped is the model's choice (log 75). (R353, R354, R356, R357, R387, R398.) -/
def Obligations.InvocationsEnd : Prop :=
  (∀ (st : Stall) (s : State), issuable (.tret st) s = true → (∀ t ∈ s.focus.threads, ∃ l, t = .handler s.focus.core l) →
    let c := s.focus.core
    let all := threadsOfWarp s (.handler c)
    let x := (coreOf s c).ctx.getD 0
    let open_ := ∃ e ∈ s.threads, e.2.place.core = c ∧ e.1.isHandler = false ∧ e.2.res = .none ∧
      ∃ y, e.2.entry = some y ∧ y.seen = false
    ((∃ t ∈ all, releaseReady s .sys t = false) → ∃ s', exec (.tret st) s = .next s' ∧ Held s s') ∧
    ((∀ t ∈ all, releaseReady s .sys t = true) → ∃ s', exec (.tret st) s = .next s' ∧
      (∀ a, memByte s'.mem a = memByte (releaseAct s c.die x .sys).mem a) ∧
      (∀ k, k ≠ c → coreOf s' k = coreOf s k) ∧
      (¬ open_ → KeysOnce s →
        coreOf s' c = { coreOf s c with handler := none, stopped := false
                                        issued := Vector.replicate 4 (cycOf s c + 1) } ∧
        (∀ l th, threadOf s (.handler c l) = some th → th.place.core = c →
          threadOf s' (.handler c l) = some { th with status := .ended }) ∧
        ∀ t th p, t.isHandler = false → threadOf s t = some th → th.place.core = c → th.status = .stopped p →
          (killedRule th → ∃ th', threadOf s' t = some th' ∧ th'.status = .ended ∧ th'.entry = none ∧ th'.res = .none) ∧
          (¬ killedRule th → p ≠ .exiting → threadOf s' t = some { th with
            status := .live p, entry := none, res := .none
            step := if th.res = .step then .armed else if th.res = .resume then .off else th.step
            wake := if p = .ready ∨ p = .stalled then ⟨11, false, false⟩ else th.wake })) ∧
      (open_ →
        coreOf s' c = { coreOf s c with handler := some ⟨0⟩, dozing := false } ∧
        (∀ l, threadOf s' (.handler c l) = some (handlerThread (handlerPc s x) c l)) ∧
        ∀ t th p, t.isHandler = false → threadOf s t = some th → th.place.core = c → th.status = .stopped p →
          ∃ th', threadOf s' t = some th' ∧
            if killedRule th then th'.status = .ended
            else th'.status = th.status ∧ th'.pc = th.pc ∧ th'.regs = th.regs ∧ th'.res = th.res ∧
              th'.entry = th.entry.map fun e => { e with seen := true }))) ∧
  (∀ (a b : Src) (st : Stall) (s : State), issuable (.pinv a b st) s = true →
    let drops (e : TlbEntry) : Prop := ∃ t ∈ s.focus.threads, e.ctx = ctxIdOf s t ∧
      pageMeets e (readSrc s t 0 a).toNat (readSrc s t 1 b).toNat = true
    ∃ s', exec (.pinv a b st) s = .next s' ∧
      (∀ d, (dieOf s' d).tlb = (dieOf s d).tlb.filter fun e => decide (¬ drops e)) ∧
      (∀ c, (coreOf s' c).tlb = (coreOf s c).tlb.filter fun e => decide (¬ drops e)) ∧
      ThreadsBecome s s' (fun _ th => issued (now s) st (th.pc + 4) th.regs th) ∧ (∀ x, memByte s'.mem x = memByte s.mem x) ∧
      s' = { s with threads := s'.threads, dies := s'.dies, cores := s'.cores, freeCount := s.freeCount + 1 }) ∧
  (∀ (e : TlbEntry) (a b : Nat), a < 2 ^ 64 → b < 2 ^ 64 →
    let lo := (((BitVec.ofNat 56 (e.vpn * 2 ^ pageBits e.level.val)).signExtend 64 : Word)).toNat
    (pageMeets e a b = true ↔ b = 0 ∨ ∃ k, k < b ∧ lo ≤ (a + k) % 2 ^ 64 ∧ (a + k) % 2 ^ 64 < lo + 2 ^ pageBits e.level.val)) ∧
  (∀ (c : CoreId) (s : State),
    let u := bvf (ctxOf s ((coreOf s c).ctx.getD 0)).live 356 333
    let spent := ∃ h, (coreOf s c).handler = some h ∧ 256 * (if u = 0 then 4096 else u) ≤ h.cycles
    (¬ spent → exec (.handlerLimit c) s = .next s) ∧
    (spent → ∃ s', exec (.handlerLimit c) s = .next s' ∧ HandlerFailed s s' c 15)) ∧
  ∀ (ctx : Fin 2048) (s : State),
    let x := ctxOf s ctx.val
    let c : CoreId := ⟨x.hfDie, x.hfCore⟩
    let stands := (coreOf s c).ctx = some ctx.val ∧ (coreOf s c).stopped = true
    (¬ Managed s → exec (.cxHandlerRestart ctx) s = .next s) ∧
    (Managed s → x.cmd.isSome = true → exec (.cxHandlerRestart ctx) s = .next (managed s)) ∧
    (Managed s → x.cmd = none → x.hf = false ∨ x.destroyed = true → ∃ s', exec (.cxHandlerRestart ctx) s = .next s' ∧
      ctxOf s' ctx.val = { x with cmdErr := 3 } ∧ s' = { managed s with contexts := s'.contexts }) ∧
    (Managed s → x.cmd = none → x.hf = true → x.destroyed = false → ∃ s', exec (.cxHandlerRestart ctx) s = .next s' ∧
      ctxOf s' ctx.val = { x with hf := false, cmdErr := 0 } ∧ (∀ a, memByte s'.mem a = memByte s.mem a) ∧
      (stands → coreOf s' c = { coreOf s c with handler := some ⟨0⟩, dozing := false } ∧
        ∀ l, threadOf s' (.handler c l) = some (handlerThread (handlerPc s ctx.val) c l)) ∧
      (¬ stands → s' = { managed s with contexts := s'.contexts }))

/-! ### Cores, groups and gangs -/

/-- STALL_EXPIRE makes a Stalled thread Ready once its count is spent, its word is fetched and its sources are there; FAIRNESS_TIMER makes
a promised path leader whose count has reached F, and the former leader's count starts at 0; DOZE and CORE_WAKE gate and wake a core under
their conditions, and a wait that falls into a doze keeps a mark of it; INSTRUCTION_FETCH_RETURN translates a thread's program counter
with the Exec right, on every fetch, and brings the word into the instruction cache, through the L2; a ladle takes no word of a SHARED
page that came from home before the latest bind of its group. That a core stays awake while a group on it is recognised, and the reads
that a fetch asks of a stack, are the model's choices (logs 108 and 40). (R25, R75, R84, R98, R182, R320, R408, R426.) -/
def Obligations.CoreEvents : Prop :=
  (∀ (t : ThreadKey) (s : State),
    (threadOf s t = none → exec (.stallExpire t) s = .next s ∧ exec (.instructionFetchReturn t) s = .next s) ∧
    ∀ th, threadOf s t = some th →
      let due := th.status = .live .stalled ∧ th.readyAt ≤ cycOf s th.place.core ∧ th.inBar = none ∧
        ∃ w, nextWord s t th = some w ∧ srcsReady s t (instrShape (instrOfWord w)) = true
      (¬ due → exec (.stallExpire t) s = .next s) ∧
      (due → ∃ s', exec (.stallExpire t) s = .next s' ∧ threadOf s' t = some { th with status := .live .ready } ∧
        (∀ u, u ≠ t → threadOf s' u = threadOf s u) ∧ s' = { s with threads := s'.threads }) ∧
      (th.inPath = false → exec (.instructionFetchReturn t) s = .next s) ∧
      (th.inPath = true → exec (.instructionFetchReturn t) s =
        .next (fetchAt s th.place.core (ctxIdOf s t) th.pc.toNat (if th.away.isSome = true then
          some (((groupOfThread s t).map fun g => g.bindAt).getD 0) else none)).2)) ∧
  (∀ (s s1 : State) (c : CoreId) (ctx va : Nat) (r : XRes) (since : Option Nat),
    translate s c.die (some c) ctx va ⟨false, false, true⟩ = (r, s1) →
    ((∀ x, r ≠ .ok x) → fetchAt s c ctx va since = (.miss r, s1)) ∧
    ∀ x, r = .ok x →
      let serves (n : Nat) : Prop := x.attr.shared = true → ∀ b, since = some b → b < n
      let hit := ∃ w, tget (coreOf s1 c).icache x.loc = some w ∧ serves w.filled
      let stale := ∃ y, l2Of s1 c.die (lineOf x.loc) = some y ∧ ¬ serves y.filled
      (∀ w, tget (coreOf s1 c).icache x.loc = some w → serves w.filled → fetchAt s c ctx va since = (.word w.word, s1)) ∧
      (¬ hit → stale → ∃ s', fetchAt s c ctx va since = (.word (BitVec.ofNat 32 (memNat s.mem x.loc 4)), s') ∧
        tget (coreOf s' c).icache x.loc = some ⟨BitVec.ofNat 32 (memNat s.mem x.loc 4), s.clock⟩ ∧ s'.mem = s.mem) ∧
      (¬ hit → ¬ stale →
        let u := postRequests s1 none c ctx x.attr (readAsks s1 .cache c false x.loc 4 x.attr none)
        let w : IWord := BitVec.ofNat 32 (bytesNat (cacheRead u c false x.loc 4 x.attr ctx none).1)
        ∃ s' n, fetchAt s c ctx va since = (.word w, s') ∧ tget (coreOf s' c).icache x.loc = some ⟨w, n⟩ ∧
          (∀ y, l2Of s1 c.die (lineOf x.loc) = some y → y.usable none = true → n = y.filled) ∧ WrittenBack s s' c.die)) ∧
  (∀ (c : CoreId) (i : Fin 64) (s : State),
    let x := slotOf s c i
    let f := bvf (ctxOf s ((coreOf s c).ctx.getD 0)).live 393 378
    let due (k : PathKey) : Prop := k ∈ slotPaths s c i ∧ x.leader ≠ some k ∧
      (if f = 0 then 2048 else f) ≤ (tget x.counts k).getD 0 ∧ promised s c i k = true
    (x.timed = true ∨ (∀ k, ¬ due k) → exec (.fairnessTimer c i) s = .next s) ∧
    (x.timed = false → (∃ k, due k) → ∃ s' k, exec (.fairnessTimer c i) s = .next s' ∧ due k ∧
      (slotOf s' c i).leader = some k ∧ (slotOf s' c i).timed = true ∧ tget (slotOf s' c i).counts k = none ∧
      (∀ o, x.leader = some o → tget (slotOf s' c i).counts o = some 0) ∧
      (∀ d j, (d, j) ≠ (c, i) → slotOf s' d j = slotOf s d j) ∧ s' = { s with slots := s'.slots })) ∧
  ∀ (c : CoreId) (s : State),
    let wakes := (coreOf s c).dozing = true ∧
      (StartsSoon s c ∨ (∃ e ∈ s.threads, e.2.place.core = c ∧ e.2.isResident = true ∧ (∀ w, e.2.status ≠ .live (.waiting w)) ∧
          e.2.status ≠ .live .exiting) ∨
        ∃ e ∈ s.groups, e.2.core = c ∧ e.2.isResident = true ∧ ∃ x, tget s.gangs e.2.gangKey = some x ∧ x.preempt = true)
    (¬ (DozeDue s c ∨ GateDue s c) → exec (.doze c) s = .next s) ∧
    (DozeDue s c ∨ GateDue s c → ∃ s', exec (.doze c) s = .next s' ∧ coreOf s' c = { coreOf s c with dozing := true } ∧
      (∀ k, k ≠ c → coreOf s' k = coreOf s k) ∧ s' = { s with cores := s'.cores, threads := s'.threads } ∧
      ∀ t, threadOf s' t = (threadOf s t).map fun th => if th.place.core = c ∧ th.isResident = true ∧ th.wait?.isSome = true then
        { th with dozedMark := true } else th) ∧
    (¬ wakes → exec (.coreWake c) s = .next s) ∧
    (wakes → ∃ s', exec (.coreWake c) s = .next s' ∧ coreOf s' c = { coreOf s c with dozing := false } ∧
      (∀ k, k ≠ c → coreOf s' k = coreOf s k) ∧ s' = { s with cores := s'.cores })

/-- PARK_SAVE and COMPACTION_SAVE save a group whose threads wait, once it is drained: its waits go on in the image, and a GROW there is
complete. RELAUNCH finds it a place on a permitted die, and binds it again: its threads have their states back, at their program
counters, and a BWAIT is tested; a place that the core or the mask of the context refuses, or that a pre-emption overtakes, is given up.
PREEMPT_RECOGNISE, outside a critical window, recalls its away threads, and those about to leave, and stops its issue; PREEMPT_SAVE
saves the whole gang. The model's choices: the watches that a save takes out and those it leaves (log 74); a thread that returns to a
stopped core is Stopped (log 87); where a refused gang goes and when its places are chosen (log 46); the bytes of an image (log 47);
what retired groups left on the core goes with the bind (log 107). (R103, R110, R220, R221, R279, R303, R311, R314, R316 to R319, R322,
R324, R362.) -/
def Obligations.GroupsMove : Prop :=
  ∀ (gid : Nat) (s : State) (g : Group), groupOf s gid = some g → KeysOnce s → NoStepDue s →
    let parks := g.phase = .parking ∨ (g.phase = .resident ∧ dozeMode s g.ctx = false ∧ parkThreshold s g.ctx < g.parkCount)
    let compacts := g.isResident = true ∧ allWaiting s gid = true ∧ g.recognised = false
    let stops := g.isResident = true ∧ preemptPending s gid = true ∧ insideWindow s gid g = false ∧ (coreOf s g.core).stopped = false
    (¬ parks → exec (.parkSave gid) s = .next s) ∧
    (parks → ∃ s', exec (.parkSave gid) s = .next s' ∧ ParkGoesOn s s' gid g) ∧
    (¬ compacts → exec (.compactionSave gid) s = .next s) ∧
    (compacts → ∃ s', exec (.compactionSave gid) s = .next s' ∧ ParkGoesOn s s' gid g) ∧
    (allWaiting s gid = true ↔
      (∀ t th, gidOf t = some gid → threadOf s t = some th →
        (th.status = .ended ∧ th.away = none) ∨ ∃ w, th.status = .live (.waiting w)) ∧
      ∃ t th, gidOf t = some gid ∧ threadOf s t = some th ∧ th.isEnded = false) ∧
    (¬ stops → exec (.preemptRecognise gid) s = .next s) ∧
    (stops → ∃ s', exec (.preemptRecognise gid) s = .next s' ∧
      groupOf s' gid = some { g with recognised := true, phase := .resident } ∧
      (∀ t, threadOf s' t = (threadOf s t).map fun th =>
        if gidOf t = some gid ∧ th.recallable = true then { th with recalled := true } else th) ∧
      (∀ th, th.recallable = true ↔ Recallable th) ∧ s' = { s with threads := s'.threads, groups := s'.groups }) ∧
    (∀ k x, k = g.gangKey → tget s.gangs k = some x →
      let saves := x.preempt = true ∧ x.bound = true ∧ (∀ i ∈ x.groups, preemptReady s i = true) ∧ pinsReleased s x.ctx = true
      (¬ saves → exec (.preemptSave k) s = .next s) ∧
      (saves → gid ∈ x.groups → ∃ s', exec (.preemptSave k) s = .next s' ∧
        tget s'.gangs k = some { x with preempt := false, saved := true, bound := false, left := x.die } ∧
        (g.phase = .resident ∨ g.phase = .parkSaved → ∃ g', groupOf s' gid = some g' ∧ g'.phase = .preemptSaved) ∧
        (g.phase = .resident → ∀ t th l, gidOf t = some gid → threadOf s t = some th → th.status = .live l →
          ∃ th', threadOf s' t = some th' ∧ th'.pc = th.pc ∧ th'.pfx = th.pfx ∧
            ((∀ u y n, gidOf u = some gid → threadOf s u = some y → y.status ≠ .live (.waiting (.grow n))) → th'.regs = th.regs) ∧
            match l with
            | .waiting w => if (∃ n, w = .grow n) ∧ dozeMode s x.ctx = false then
                th'.status = .saved .ready ∧ th'.wake.reason = 10
              else th'.status = .saved (.waiting w) ∧ th'.savedMark = true
            | _ => th'.status = .saved .ready ∧ th'.wake = ⟨12, false, true⟩) ∧
        (g.phase = .resident → ∀ id w, tget s.watches id = some w → gidOf w.thread = some gid →
          ∃ w', tget s'.watches id = some w' ∧ w'.saved = true)) ∧
      (∀ d, d ∈ parkDies s gid g ↔ d ∈ diesFor s g.ctx ∧ ((∃ i ∈ x.groups, i ≠ gid ∧ ∃ y, groupOf s i = some y ∧
        (y.isResident = true ∨ y.isPlaced = true)) → d = x.die)) ∧
      (g.phase = .parkSaved →
        (parkReady s gid = false ∨ x.bound = false ∨ x.preempt = true → exec (.relaunch gid) s = .next s) ∧
        (parkReady s gid = true → x.bound = true → x.preempt = false →
          (bestFit s g.ctx (parkDies s gid g) [gid] .returning = none → exec (.relaunch gid) s = .next s) ∧
          (∀ d s1, bestFit s g.ctx (parkDies s gid g) [gid] .returning = some (d, s1) → d ∈ parkDies s gid g ∧
            ∃ s' g', exec (.relaunch gid) s = .next s' ∧ groupOf s' gid = some g' ∧ g'.phase = .returning ∧ g'.core.die = d ∧
              tget s'.gangs k = some { x with die := d } ∧ s'.threads = s.threads ∧ s'.mem = s.mem))) ∧
      ((coreOf s g.core).ctx ≠ some g.ctx → ¬ BindOk s gid g) ∧
      (g.phase = .returning → ¬ BindOk s gid g → x.bound = false → x.started = false →
        ∃ s', exec (.relaunch gid) s = .next s' ∧ HandedBack s s' k x) ∧
      (g.phase = .returning → ¬ BindOk s gid g ∨ (x.bound = true ∧ x.preempt = true) → x.bound = true ∨ x.started = true →
        ∃ s', exec (.relaunch gid) s = .next s' ∧ s' = { s with groups := s'.groups, gangs := s'.gangs } ∧
          tget s'.gangs k = some { x with saved := x.saved || !x.bound } ∧
          (gid ∈ x.groups → groupOf s' gid = some { g with phase := if x.bound then .parkSaved else .preemptSaved })) ∧
      (g.phase = .returning → BindOk s gid g → x.bound = false ∨ x.preempt = false →
        let back (p : Live) : Status := if (coreOf s g.core).stopped then .stopped p else .live p
        ∃ s', exec (.relaunch gid) s = .next s' ∧
          (coreOf s' g.core).dozing = false ∧ (coreOf s' g.core).icache = [] ∧ (coreOf s' g.core).l1 = [] ∧
          (∃ g', groupOf s' gid = some g' ∧ g'.phase = .resident ∧ g'.bindAt = s.clock) ∧
          (x.bound = true → ∀ t th, gidOf t = some gid → threadOf s t = some th → th.status = .ended ∨ th.status = .lost →
            threadOf s' t = some { th with
              place := ⟨g.core, ((warpOf s t).map fun w => w.slot).getD 0, laneOf t⟩, regs := th.regs.relaunched }) ∧
          (x.bound = true → ∀ t th p, gidOf t = some gid → threadOf s t = some th → th.status = .saved p → p ≠ .exiting →
            ((∀ b gen held tag, p ≠ .waiting (.barrier b gen held tag)) → threadOf s' t = some { th with
              status := back p, filter := 0, readyAt := 0, regs := th.regs.relaunched
              place := ⟨g.core, ((warpOf s t).map fun w => w.slot).getD 0, laneOf t⟩ }) ∧
            ∀ off gen held tag, p = .waiting (.barrier (.scratch off) gen held tag) → recallsOut s gid = false →
              ∃ th', threadOf s' t = some th' ∧ th'.pc = th.pc ∧
                if ((barRead s gid (.scratch off)).extractLsb' 160 4).toNat = gen then
                  th'.status = back (.waiting (.barrier (.scratch off) gen false tag))
                else th'.status = back .ready ∧ th'.wake.reason = 5) ∧
          (x.bound = false → (∀ i ∈ x.groups, i = gid ∨ phaseOf s i ≠ .returning) →
            tget s'.gangs k = some { x with bound := true, started := true, boundAt := s.clock, saved := false }) ∧
          (x.bound = false → (∃ i ∈ x.groups, i ≠ gid ∧ phaseOf s i = .returning) →
            ∀ t, (∀ i, gidOf t = some i → phaseOf s i ≠ .retired) → threadOf s' t = threadOf s t)))

/-- GANG_HANDOUT serves the highest level that has a gang which fits; a fresh gang has all its groups placed on one permitted die, and one
relaunched whose context holds carve-out on the die it left goes back there. BIND accepts the record of a placed group, on a permitted die
with the context loaded; with the last one every thread of the gang starts at the entry of its kernel, Stopped on a stopped core; a
refused record sends the gang back. CONTEXT_LOAD loads a context onto a free core, and ends a stop that has outlived its groups.
GROUP_RETIRE frees an ended group, with a tracker entry while work of it is outstanding. Where a launch has waited beyond its bound and
fits on no die, LATENCY_BOUND_EXPIRE asks the fewest victims, in their order, that make it fit on the first die that can be made to fit;
LAUNCH_COMPLETE drains, signals and raises its vector. The model's choices: which cores count for a load (log 45); where a refused gang
goes (log 46); a stop that outlives its groups (log 87); what retired groups left goes with the next bind (log 107); which of several
saved gangs goes first (log 113); the order in which the groups of a gang are placed (log 123). (R76, R311, R315, R316, R321, R325, R340
to R342, R350, R362, R414.) -/
def Obligations.GroupsBound : Prop :=
  (∀ s : State,
    let fits (q : QueueId) (p : Nat) : Prop := ∃ c, choiceOf s q = some (p, c) ∧ handOut s q c ≠ none
    ((∀ q p, p < 12 → ¬ fits q p) → exec .gangHandout s = .next s) ∧
    ((∃ q p, p < 12 ∧ fits q p) → ∃ (q : QueueId) (p : Fin 12) (c : Choice) (s1 : State), choiceOf s q = some (p.val, c) ∧
      handOut s q c = some s1 ∧ exec .gangHandout s = .next (rotate s1 p q) ∧ ∀ r m, p.val < m → m < 12 → ¬ fits r m) ∧
    ∀ (q : QueueId) (l : Launch) (s1 : State), handOut s q (.fresh l) = some s1 →
      (∀ e ∈ s.threads, ∀ i, gidOf e.1 = some i → i < s.seq) →
      s1.threads = s.threads ∧ ∃ x, tget s1.gangs s.seq = some x ∧ x.queue = q ∧ x.launch = l.num ∧ x.bound = false ∧
        x.gang.toNat = (l.back.head?.getD l.handed) % 2 ^ 32 ∧ x.started = false ∧ x.groups.length = l.hdr.gangM1.val + 1 ∧ (ctxOf s l.ctx).dieMask.getLsbD x.die.val = true ∧ (dieOf s x.die).takes = true ∧
        ∀ i ∈ x.groups, ∃ g, groupOf s1 i = some g ∧ g.phase = .queued ∧ g.core.die = x.die ∧ g.hdr = l.hdr ∧ g.ctx = l.ctx) ∧
  (∀ (q : QueueId) (k : Nat) (x : Gang) (s s1 : State), tget s.gangs k = some x →
    (∀ d, d ∈ choiceDies s (.again k x) ↔ d ∈ diesFor s x.ctx ∧ (x.started = true → holdsCarve s x.ctx x.left = true → d = x.left)) ∧
    (handOut s q (.again k x) = some s1 → s1.threads = s.threads ∧ s1.mem = s.mem ∧
      ∃ d ∈ choiceDies s (.again k x), tget s1.gangs k = some { x with die := d } ∧
        ∀ i ∈ x.groups, ∀ g, groupOf s i = some g → ∃ g', groupOf s1 i = some g' ∧ g'.core.die = d ∧
          g'.phase = (if x.started then .returning else .queued))) ∧
  (∀ (gid : Nat) (s : State) (g : Group) (x : Gang), groupOf s gid = some g → tget s.gangs g.gangKey = some x →
    (g.phase ≠ .queued → exec (.bind gid) s = .next s) ∧
    ((coreOf s g.core).ctx ≠ some g.ctx → ¬ BindOk s gid g) ∧
    (g.phase = .queued → ¬ BindOk s gid g → x.started = false →
      ∃ s', exec (.bind gid) s = .next s' ∧ HandedBack s s' g.gangKey x) ∧
    (g.phase = .queued → ¬ BindOk s gid g → x.started = true → ∃ s', exec (.bind gid) s = .next s' ∧ s' = { s with groups := s'.groups, gangs := s'.gangs } ∧
      tget s'.gangs g.gangKey = some { x with bound := false, saved := true } ∧
      ∀ i ∈ x.groups, ∀ y, groupOf s i = some y → groupOf s' i = some { y with
        phase := if y.phase = .queued ∨ y.phase = .returning ∨ (y.phase = .resident ∧ x.bound = false) then .preemptSaved
          else y.phase }) ∧
    (g.phase = .queued → BindOk s gid g → ∃ s', exec (.bind gid) s = .next s' ∧
      groupOf s' gid = some { g with phase := .resident, bindAt := s.clock } ∧
      coreOf s' g.core = { coreOf s g.core with l1 := [], icache := [], dozing := false } ∧
      ((∃ i ∈ x.groups, i ≠ gid ∧ phaseOf s i = .queued) → s'.gangs = s.gangs ∧
        ∀ t, (∀ i, gidOf t = some i → phaseOf s i ≠ .retired) → threadOf s' t = threadOf s t) ∧
      ((∀ i ∈ x.groups, i = gid ∨ phaseOf s i ≠ .queued) →
        tget s'.gangs g.gangKey = some { x with bound := true, started := true, boundAt := s.clock, saved := false } ∧
        ∀ i ∈ x.groups, ∀ y, groupOf s i = some y → y.phase ≠ .retired → ∀ (h : Fin 16) (l : Fin 32), h.val ≤ y.hdr.warpsM1.val →
          threadOf s' (.home i h l) = some { handlerThread (y.hdrVa + 128) y.core l with
            status := if (coreOf s y.core).stopped then .stopped .ready else .live .ready
            place := ⟨y.core, ((tget s.warps (.home i h)).map fun w => w.slot).getD 0, l⟩ }))) ∧
  (∀ (c : CoreId) (ctx : Fin 2048) (s : State),
    let k := coreOf s c
    let x := ctxOf s ctx.val
    let loads := (∀ e ∈ s.groups, e.2.core = c → e.2.isPlaced = true → e.2.ctx = ctx.val) ∧
      (∀ e ∈ s.groups, e.2.core = c → e.2.isResident = false) ∧
      (∀ e ∈ s.threads, e.2.isResident = true → e.2.away.isSome = true → e.2.place.core ≠ c) ∧ k.handler = none ∧
      k.ctx ≠ some ctx.val ∧ x.exists? = true ∧ x.destroyed = false ∧ x.cmd ≠ some .destroy ∧ x.lost = 0 ∧
      x.dieMask.getLsbD c.die.val = true ∧ (dieOf s c.die).takes = true
    (¬ loads → exec (.contextLoad c ctx) s = .next s) ∧
    (loads → ∃ s', exec (.contextLoad c ctx) s = .next s' ∧
      coreOf s' c = { k with ctx := some ctx.val, stopped := false, wanted := false, tlb := [], miss := Vector.replicate 4 0
                             l1 := [], icache := [] } ∧
      (∀ d, d ≠ c → coreOf s' d = coreOf s d) ∧ (∀ e ∈ s'.phases, e.core ≠ c) ∧
      (∀ t, threadOf s' t = (threadOf s t).map fun th => if k.stopped = true ∧ th.place.core = c ∧ th.isEnded = true then
        { th with entry := none, res := .none } else th) ∧
      s' = { s with cores := s'.cores, phases := s'.phases, threads := s'.threads })) ∧
  (∀ (gid : Nat) (s : State) (g : Group), groupOf s gid = some g →
    let done := (g.isResident = true ∨ g.phase = .tracked) ∧ groupEnded s gid = true
    let room := trackerUse s g.core < 16
    (¬ done ∨ (groupBusy s gid = true ∧ (g.phase = .tracked ∨ ¬ room)) → exec (.groupRetire gid) s = .next s) ∧
    (done → groupBusy s gid = true → g.phase ≠ .tracked → room → ∃ s', exec (.groupRetire gid) s = .next s' ∧
      groupOf s' gid = some { g with phase := .tracked } ∧ s'.threads = s.threads) ∧
    (groupEnded s gid = true ↔ (∃ t th, gidOf t = some gid ∧ threadOf s t = some th) ∧
      ∀ t th, gidOf t = some gid → threadOf s t = some th → th.status = .ended ∧ th.away = none) ∧
    (done → groupBusy s gid = false → ∃ s', exec (.groupRetire gid) s = .next s' ∧
      groupOf s' gid = some { g with phase := .retired, bg := 0, recognised := false } ∧
      s'.threads = s.threads ∧ s'.warps = s.warps ∧ s'.mem = s.mem ∧
      ∀ x, tget s.gangs g.gangKey = some x →
        let last := ∀ i ∈ x.groups, i = gid ∨ phaseOf s i = .retired
        (tget s'.gangs g.gangKey = none ↔ last) ∧
        (last → ∀ y, tget s.queues x.queue = some y → tget s'.queues x.queue = some { y with records := y.records.map fun l =>
          if l.num = x.launch ∧ l.ctx = x.ctx then { l with retired := l.retired + 1 } else l }))) ∧
  (∀ (q : QueueId) (s : State), KeysOnce s →
    let x := queueOf s q
    (readyLaunch x = none → exec (.latencyBoundExpire q) s = .next s) ∧
    ∀ l, readyLaunch x = some l →
      let fits (d : Fin 8) (ks : List Nat) : Prop := fitsWithout s q l d ks = true
      let due := x.fault = 0 ∧ x.mark = .open ∧ (∀ d ∈ diesFor s l.ctx, ¬ fits d []) ∧
        ∃ t0 b, l.since = some t0 ∧ levelBound s l.prio = some b ∧ b < s.clock - t0
      (¬ due → exec (.latencyBoundExpire q) s = .next s) ∧
      (due → ∃ vs, VictimsOf s l vs ∧
        let fixable (d : Fin 8) : Prop := ∃ ks, ks <+: victimsOn vs d ∧ fits d ks
        ((∀ v ∈ vs, ¬ fixable v.2.die) → exec (.latencyBoundExpire q) s = .next s) ∧
        ∀ (i : Nat) (v : Nat × Gang) (ks : List Nat), vs[i]? = some v → (∀ (j : Nat) (w : Nat × Gang), j < i → vs[j]? = some w → ¬ fixable w.2.die) →
          ks <+: victimsOn vs v.2.die → fits v.2.die ks → (∀ js, js <+: ks → js ≠ ks → ¬ fits v.2.die js) →
          ∃ s', exec (.latencyBoundExpire q) s = .next s' ∧ s' = { s with gangs := s'.gangs } ∧
            ∀ k, tget s'.gangs k = (tget s.gangs k).map fun y => if k ∈ ks then { y with preempt := true } else y)) ∧
  ∀ (q : QueueId) (n : BitVec 32) (s : State),
    ((∀ l ∈ (queueOf s q).records, l.num ≠ n) → exec (.launchComplete q n) s = .next s) ∧
    ∀ l, (queueOf s q).records.find? (fun l => decide (l.num = n)) = some l →
      let done := (l.closed = true ∨ (l.back = [] ∧ (l.record.extractLsb' 64 32).toNat ≤ l.handed)) ∧
        l.retired + l.back.length = l.handed ∧ l.dead = false
      let u := (List.finRange 8).foldl (fun a d => releaseAct a d l.ctx .sys) s
      (¬ done → exec (.launchComplete q n) s = .next s) ∧
      (done → ∃ s', exec (.launchComplete q n) s = .next s' ∧ (∀ y ∈ (queueOf s' q).records, y.num ≠ n) ∧
        (match l.sigPa with
          | some p => Added u.mem s'.mem p (l.record.extractLsb' 448 64).toNat
          | none => ∀ a, memByte s'.mem a = memByte u.mem a) ∧
        (l.record.getLsbD 25 = true → Raised s s' q.tenant (l.record.extractLsb' 26 6).toFin) ∧
        s'.threads = s.threads)

/-! ### Queues -/

/-- LAUNCH_SUBMIT tests a record in the stages of R332 and accepts it under the next number, counts it as dropped in a full or faulted
queue, or faults the queue; a malformed write is logged. EVENT_WINDOW_WRITE adds to an event; EVENT_POLL reads the waiting events again.
The queue commands answer by R335 to R337; VLOGACK retires log entries; MSIX_VECTOR_UNMASK raises a pending vector. A suspend asks
the bound gangs to leave and takes back those that are handed out. The model's choices: the order of the codes of QCFG and the mark of a
rebound or removed queue (log 36); when an event is read (log 49); a create over a removed queue whose launches have not completed
(log 50); the entry for a header read through a Carve page, the directory in carve-out, and an event address that is no multiple of 8
(log 51); the first Seq and the event that finds the log full (log 89); the port at which a tenant or function 0 writes (log 114).
(R185, R186, R326, R327, R332, R333, R335 to R338, R345, R379, R381, R387, R398.) -/
def Obligations.LaunchQueues : Prop :=
  (∀ (port : Fin 2) (q : QueueId) (off : BitVec 12) (data : List Byte) (s : State),
    let x := queueOf s q
    let i : Instr := .launchSubmit port q off data
    let b := writeSpend s port q.tenant data.length
    let bad := data.length ≠ 64 ∨ off.toNat % 64 ≠ 0 ∨ x.enable = false
    let r : BitVec 512 := BitVec.ofNat 512 (bytesNat data)
    (served s port q.tenant = false → ∃ s', exec i s = .next s' ∧ Noted s s' (.unsupported port none)) ∧
    (served s port q.tenant = true → writePasses s port q.tenant data.length = false → exec i s = .next s) ∧
    (served s port q.tenant = true → writePasses s port q.tenant data.length = true →
      (bad → ∃ s', exec i s = .next s' ∧ Logged b s' q.tenant ⟨3 + port.val, 0, 0, 0, 9, 3, 0x1000 * q.q.val + off.toNat⟩ ∧
        HostNote.nonFatal port ∈ s'.notes ∧ s'.queues = s.queues) ∧
      (¬ bad → x.fault ≠ 0 ∨ 4096 ≤ x.records.length → ∃ s', exec i s = .next s' ∧
        QueueBecomes b s' q { x with dropped := min (x.dropped + 1) 255 }) ∧
      (¬ bad → x.fault = 0 → x.records.length < 4096 →
        (∀ c s1, testRecord b q.tenant x.ctx x.nextNum r = .refused c s1 → ∃ s', exec i s = .next s' ∧
          queueOf s' q = { x with fault := c } ∧
          s' = { s1 with queues := s'.queues, requests := s'.requests, arrivals := s'.arrivals, dramBanks := s'.dramBanks }) ∧
        (∀ l, testRecord b q.tenant x.ctx x.nextNum r = .ok l → ∃ s', exec i s = .next s' ∧
          (queueOf s' q).nextNum = x.nextNum + 1 ∧ (queueOf s' q).records.map (·.num) = x.records.map (·.num) ++ [l.num] ∧
          s' = { b with queues := s'.queues, requests := s'.requests, arrivals := s'.arrivals, dramBanks := s'.dramBanks })))) ∧
  (∀ (s : State) (t : Fin 64) (ctx : Nat) (n : BitVec 32) (r : BitVec 512),
    let test := testRecord s t ctx n r
    let k := (r.extractLsb' 128 64).toNat
    let wait := (r.extractLsb' 256 64).toNat
    let sig := (r.extractLsb' 384 64).toNat
    let groups := (r.extractLsb' 15 5).toNat
    let reads : Need := ⟨true, false, false⟩
    let both : Need := ⟨true, true, false⟩
    let logs (code kind va : Nat) : Prop := ∃ s1, test = .refused code s1 ∧ Logged s s1 t ⟨5, 0, 0, ctx, kind, 0, va⟩ ∧
      s1 = { s with tenants := s1.tenants, msix := s1.msix, notes := s1.notes }
    let eventFails (va : Nat) (need : Need) : Prop := va ≠ 0 →
      (tundishXlat s ctx va need = .carve → logs 1 7 va) ∧ ∀ kind, tundishXlat s ctx va need = .bad kind → logs 1 kind va
    let eventAt (va : Nat) (need : Need) (p : Option Nat) : Prop :=
      (va = 0 ∧ p = none) ∨ (va ≠ 0 ∧ ∃ l, tundishXlat s ctx va need = .ok l ∧ p = some l)
    (recordRule r → test = .refused 1 s) ∧
    (¬ recordRule r → k % 128 ≠ 0 ∨ canonical k = false → test = .refused 2 s) ∧
    (¬ recordRule r → k % 128 = 0 → canonical k = true →
      (tundishXlat s ctx k reads = .carve → logs 2 6 k) ∧
      (∀ kind, tundishXlat s ctx k reads = .bad kind → logs 2 kind k) ∧
      ∀ loc, tundishXlat s ctx k reads = .ok loc →
        let h : BitVec 1024 := BitVec.ofNat 1024 (memNat s.mem loc 128)
        let hd := headerOf h
        let dir := hd.paramDir.toNat + 8 * (n.toNat % 2 ^ hd.paramLog.val)
        let dirAt (p : Option Nat) : Prop := (hd.paramDir = 0 ∧ p = none) ∨
          (hd.paramDir ≠ 0 ∧ ∃ l, tundishXlat s ctx dir ⟨false, true, false⟩ = .ok l ∧ p = some l)
        (HeaderIllegal s ctx h → test = .refused 2 s) ∧
        (¬ HeaderIllegal s ctx h →
          (hd.paramDir ≠ 0 → tundishXlat s ctx dir ⟨false, true, false⟩ = .carve → test = .refused 2 s) ∧
          (∀ kind, hd.paramDir ≠ 0 → tundishXlat s ctx dir ⟨false, true, false⟩ = .bad kind → logs 2 kind dir) ∧
          ∀ pd, dirAt pd →
            (groups ≠ 0 → groups ≠ hd.gangM1.val + 1 → test = .refused 1 s) ∧
            (groups = 0 ∨ groups = hd.gangM1.val + 1 → eventFails wait reads ∧
              ∀ pw, eventAt wait reads pw → eventFails sig both ∧ ∀ ps, eventAt sig both ps →
                test = .ok { num := n, ctx := ctx, record := r, hdr := hd
                             prio := min (r.extractLsb' 20 4).toNat (bvf (tenantOf s t).entry 981 978), dirPa := pd, waitPa := pw
                             sigPa := ps, waitMet := pw.isNone, dirDone := pd.isNone, handed := 0, back := [], retired := 0
                             closed := false, dead := false, since := none }))) ∧
    (∀ h : BitVec 1024, let y := headerOf h
      y.paramDir = h.extractLsb' 128 64 ∧ y.subset = h.extractLsb' 96 32 ∧ y.crit = (h.extractLsb' 80 13).toNat ∧
      y.gangM1.val = (h.extractLsb' 72 4).toNat ∧ y.warpsM1.val = (h.extractLsb' 64 5).toNat ∧
      y.accRows = (h.extractLsb' 48 10).toNat ∧ y.scrUnits = (h.extractLsb' 32 9).toNat ∧
      y.paramLog.val = (h.extractLsb' 17 4).toNat ∧ y.qdepth.val = (h.extractLsb' 15 2).toNat ∧ y.migStrict = h.getLsbD 14 ∧
      y.migrate = h.getLsbD 13 ∧ y.strict = h.getLsbD 12 ∧ y.doze = h.getLsbD 11 ∧ y.promise = h.getLsbD 10 ∧
      y.namedM1.val = (h.extractLsb' 8 2).toNat)) ∧
  (∀ (port : Fin 2) (t : Fin 64) (off : BitVec 12) (data : List Byte) (s : State),
    let va := bytesNat (data.take 8)
    let i : Instr := .eventWindowWrite port t off data
    let b := writeSpend s port t data.length
    let bad := data.length ≠ 16 ∨ off.toNat % 16 ≠ 0
    let logs (ctx kind space addr : Nat) : Prop := ∃ s', exec i s = .next s' ∧
      Logged b s' t ⟨3 + port.val, 0, 0, ctx, kind, space, addr⟩ ∧ s'.mem = s.mem
    (served s port t = false → ∃ s', exec i s = .next s' ∧ Noted s s' (.unsupported port none)) ∧
    (served s port t = true → writePasses s port t data.length = false → exec i s = .next s) ∧
    (served s port t = true → writePasses s port t data.length = true →
      (bad → logs 0 9 3 (0x20000 + off.toNat) ∧ ∀ s', exec i s = .next s' → HostNote.nonFatal port ∈ s'.notes) ∧
      (¬ bad → aperCtx s t = none → logs (bvf (tenantOf s t).entry 977 967) 12 0 va) ∧
      ∀ c, ¬ bad → aperCtx s t = some c →
        (va % 8 ≠ 0 → logs c 9 0 va) ∧
        (va % 8 = 0 → tundishXlat b c va ⟨true, true, false⟩ = .carve → logs c 7 0 va) ∧
        (∀ k, va % 8 = 0 → tundishXlat b c va ⟨true, true, false⟩ = .bad k → logs c k 0 va) ∧
        (∀ loc, va % 8 = 0 → tundishXlat b c va ⟨true, true, false⟩ = .ok loc →
          ∃ s', exec i s = .next s' ∧ Added s.mem s'.mem loc (bytesNat (data.drop 8)) ∧ s'.threads = s.threads))) ∧
  (∀ s : State, (s.clock < s.nextPoll → exec .eventPoll s = .next s) ∧
    (s.nextPoll ≤ s.clock → ∃ s', exec .eventPoll s = .next s' ∧
      s' = { s with queues := s'.queues, nextPoll := s.clock + 16384, requests := s'.requests, arrivals := s'.arrivals,
                    dramBanks := s'.dramBanks } ∧
      ∀ q x, tget s.queues q = some x → tget s'.queues q = some { x with records := pollHead s x.records })) ∧
  (∀ (s : State) (l : Launch) (rest : List Launch),
    let out := l.closed = true ∨ (l.back = [] ∧ (l.record.extractLsb' 64 32).toNat ≤ l.handed)
    pollHead s [] = [] ∧ (out → pollHead s (l :: rest) = l :: pollHead s rest) ∧
    (¬ out → pollHead s (l :: rest) = { l with waitMet := l.waitMet || (match l.waitPa with
      | some p => decide ((l.record.extractLsb' 320 64).toNat ≤ memNat s.mem p 8)
      | none => true) } :: rest)) ∧
  (∀ (q : QueueId) (c : Fin 2048) (s : State),
    let x := queueOf s q
    let busy := queueState s q ≠ 0 ∧ queueState s q ≠ 6
    let off := bvf (tenantOf s q.tenant).entry 1023 1023 = 0
    let answers (i : Instr) (y : Queue) : Prop := ∃ s', exec i s = .next s' ∧ QueueBecomes (managed s) s' q y
    (¬ Managed s → ∀ i ∈ [Instr.queueCreate q c, .queueRebind q c, .queueRemove q], exec i s = .next s) ∧
    (Managed s →
      (x.enable = true → exec (.queueCreate q c) s = .next (managed s)) ∧
      (x.enable = false →
        (x.gone = true → answers (.queueCreate q c) { x with err := 1 }) ∧
        (x.gone = false → off → answers (.queueCreate q c) { x with err := 3 }) ∧
        (x.gone = false → ¬ off → ¬ CtxFor s q c.val → answers (.queueCreate q c) { x with err := 2 }) ∧
        (x.gone = false → ¬ off → CtxFor s q c.val → answers (.queueCreate q c) { Queue.none with enable := true, ctx := c.val }) ∧
        exec (.queueRebind q c) s = .next (managed s) ∧ answers (.queueRemove q) { x with err := 0 }) ∧
      (x.enable = true →
        (x.ctx = c.val → answers (.queueRebind q c) { x with err := 0 }) ∧
        (x.ctx ≠ c.val → busy → answers (.queueRebind q c) { x with err := 1 }) ∧
        (x.ctx ≠ c.val → ¬ busy → off → answers (.queueRebind q c) { x with err := 3 }) ∧
        (x.ctx ≠ c.val → ¬ busy → ¬ off → ¬ CtxFor s q c.val → answers (.queueRebind q c) { x with err := 2 }) ∧
        (x.ctx ≠ c.val → ¬ busy → ¬ off → CtxFor s q c.val → answers (.queueRebind q c)
          { x with ctx := c.val, records := leftRecords x, fault := 0, dropped := 0, err := 0, mark := .open }) ∧
        (busy → answers (.queueRemove q) { x with err := 1 }) ∧
        (¬ busy → off → answers (.queueRemove q) { x with err := 3 }) ∧
        (¬ busy → ¬ off → answers (.queueRemove q) { x with
          enable := false, gone := decide (leftRecords x ≠ []), records := leftRecords x, fault := 0, err := 0, mark := .open })))) ∧
  (∀ (q : QueueId) (s : State),
    let x := queueOf s q
    (Unwindowed s q.tenant → ∀ i ∈ [Instr.queueDrain q, .queueSuspend q, .queueResume q, .queueClear q], exec i s = .next s) ∧
    ∀ b, Windowed s q.tenant b →
      let answers (i : Instr) (y : Queue) : Prop := ∃ s', exec i s = .next s' ∧ QueueBecomes b s' q y
      (x.enable = false → ∀ i ∈ [Instr.queueDrain q, .queueSuspend q, .queueResume q, .queueClear q], exec i s = .next b) ∧
      (x.enable = true →
        (x.mark = .open → answers (.queueDrain q) { x with mark := .draining }) ∧
        (x.mark ≠ .open → exec (.queueDrain q) s = .next b) ∧
        (answers (.queueResume q) { x with mark := .open }) ∧
        (x.fault = 0 → exec (.queueClear q) s = .next b) ∧
        (x.fault ≠ 0 → answers (.queueClear q) { x with
          records := x.records.filter fun l => decide (l.handed ≠ l.back.length) && !l.dead, fault := 0, dropped := 0 }) ∧
        ∃ s', exec (.queueSuspend q) s = .next s' ∧
          queueOf s' q = { x with mark := .suspended, records := (queueOf s' q).records } ∧
          s' = { b with queues := s'.queues, gangs := s'.gangs, groups := s'.groups, threads := s'.threads, warps := s'.warps } ∧
          (KeysOnce s → ∀ k g, tget s.gangs k = some g →
            (g.queue ≠ q → tget s'.gangs k = some g) ∧
            (g.queue = q → g.bound = true → tget s'.gangs k = some { g with preempt := true }) ∧
            (g.queue = q → g.bound = false → g.started = true → tget s'.gangs k = some { g with saved := true } ∧
              ∀ i ∈ g.groups, (∀ j h, tget s.gangs j = some h → j ≠ k → i ∉ h.groups) → ∀ y, groupOf s i = some y →
                groupOf s' i = some { y with
                  phase := if y.phase = .queued ∨ y.phase = .returning ∨ y.phase = .resident then .preemptSaved else y.phase }) ∧
            (g.queue = q → g.bound = false → g.started = false → tget s'.gangs k = none ∧
              (∀ i ∈ g.groups, groupOf s' i = none) ∧
              ∀ l ∈ x.records, l.num = g.launch → l.ctx = g.ctx → l.closed = false →
                ∃ y ∈ (queueOf s' q).records, y.num = l.num ∧ g.gang.toNat ∈ y.back)))) ∧
  (∀ (t : Fin 64) (s : State),
    (windowPort s t = none ↔ ∀ p, served s p t = false) ∧ (∀ p, windowPort s t = some p → served s p t = true) ∧
    ∀ p, served s p t = true ↔ s.boot.phase = .ready ∧ (tenantOf s t).entry.getLsbD 1023 = true ∧ tenantVf s t p ≠ 0) ∧
  (∀ (t : Fin 64) (v : BitVec 64) (s : State),
    let x := tenantOf s t
    let k := min (v.extractLsb' 0 7).toNat x.count
    (Unwindowed s t → exec (.vlogAck t v) s = .next s) ∧
    ∀ b, Windowed s t b → ∃ s', exec (.vlogAck t v) s = .next s' ∧ s' = { b with tenants := s'.tenants } ∧
      (∀ u, u ≠ t → tenantOf s' u = tenantOf s u) ∧
      tenantOf s' t = { x with head := (x.head + k) % 64, count := x.count - k
                               dropped := if v.getLsbD 31 then 0 else x.dropped }) ∧
  (∀ (s : State) (t : Fin 64) (r : LogRec), Logged s (logViolation s t r) t r) ∧
  ∀ (port : Fin 2) (vf vec : Fin 64) (s : State),
    let m := (tget s.msix (port, vf.val)).getD Msix.reset
    (s.boot.phase ≠ .ready → exec (.msixVectorUnmask port vf vec) s = .next s) ∧
    (s.boot.phase = .ready → ∃ s' m', exec (.msixVectorUnmask port vf vec) s = .next s' ∧
      tget s'.msix (port, vf.val) = some m' ∧
      (∀ i : Fin 64, m'.pending.getLsbD i.val = if i = vec then false else m.pending.getLsbD i.val) ∧
      (∀ i : Fin 64, m'.masked.getLsbD i.val = if i = vec then false else m.masked.getLsbD i.val) ∧
      (m.pending.getLsbD vec.val = true → HostNote.irq port vf.val vec ∈ s'.notes) ∧
      s' = { s with msix := s'.msix, notes := s'.notes })

/-! ### Contexts and dies -/

/-- The commands of a context: create tests the descriptor and copies it, destroy ends every thread, withdraws its work and abandons a
command in progress, set die mask pre-empts what stands on the excluded dies and withdraws what is placed there; each is refused with
its CmdErr code; CX_COMMAND_DONE finishes one, and a die that keeps dirty words of a lost context stays touched. A carve-out unit is
assigned to a context whose mask holds its die, zeroed, released while nothing uses it, and set again. Before Phase is ready, or where
the buckets of the port hold it back, a write of function 0 changes nothing. The model's choices: the refusal of a destroy of a context
that does not exist (log 72), and that a released unit clears Ctx (log 76). (R347 to R349, R353, R359, R362, R363, R387, R398, R427.) -/
def Obligations.Contexts : Prop :=
  (∀ (ctx : Fin 2048) (mask : BitVec 8) (s : State),
    let c := ctx.val
    let x := ctxOf s c
    let stands := x.exists? = true ∧ x.destroyed = false
    let creating := ∃ d, x.cmd = some (.create d)
    let out (d : Fin 8) : Prop := mask.getLsbD d.val = false
    let b := managed s
    (¬ Managed s → ∀ i ∈ [Instr.cxCreate ctx, .cxDestroy ctx, .cxSetDieMask ctx mask], exec i s = .next s) ∧
    (Managed s → x.cmd.isSome = true → exec (.cxCreate ctx) s = .next b ∧ exec (.cxSetDieMask ctx mask) s = .next b ∧
      (¬ stands → ¬ creating → exec (.cxDestroy ctx) s = .next b)) ∧
    (Managed s → x.cmd = none → stands ∨ descOk s x.desc = false → ∃ s', exec (.cxCreate ctx) s = .next s' ∧
      CtxBecomes b s' c { x with cmdErr := 3 }) ∧
    (Managed s → x.cmd = none → ¬ stands → descOk s x.desc = true → ∃ s', exec (.cxCreate ctx) s = .next s' ∧
      CtxBecomes b s' c { x with cmd := some (.create x.desc) }) ∧
    (Managed s → x.cmd = none → ¬ stands → ∃ s', exec (.cxDestroy ctx) s = .next s' ∧ CtxBecomes b s' c { x with cmdErr := 3 }) ∧
    (Managed s → stands ∨ creating → ∃ s', exec (.cxDestroy ctx) s = .next s' ∧ (ctxOf s' c).cmd = some .destroy ∧
      (∀ e ∈ s'.groups, e.2.ctx = c → e.2.isPlaced = false) ∧
      (∀ t th, ctxIdOf s t = c → threadOf s t = some th → th.isEnded = false →
        ∃ th', threadOf s' t = some th' ∧ th'.status = .ended) ∧
      (∀ k, (coreOf s k).ctx = some c → (coreOf s' k).stopped = true ∧ (coreOf s' k).handler = none) ∧
      (∀ q l, l ∈ (queueOf s' q).records → l.ctx = c → l.dead = true) ∧ ∀ a, memByte s'.mem a = memByte s.mem a) ∧
    (Managed s → x.cmd = none → ¬ stands ∨ x.lost ≠ 0 → ∃ s', exec (.cxSetDieMask ctx mask) s = .next s' ∧
      CtxBecomes b s' c { x with cmdErr := 3 }) ∧
    (Managed s → x.cmd = none → stands → x.lost = 0 →
      (mask = 0 → ∃ s', exec (.cxSetDieMask ctx mask) s = .next s' ∧ CtxBecomes b s' c { x with cmdErr := 2 }) ∧
      (mask ≠ 0 → (∃ d, out d ∧ holdsCarve s c d = true) → ∃ s', exec (.cxSetDieMask ctx mask) s = .next s' ∧
        CtxBecomes b s' c { x with cmdErr := 1 }) ∧
      (mask ≠ 0 → (∀ d, out d → holdsCarve s c d = false) → ∃ s', exec (.cxSetDieMask ctx mask) s = .next s' ∧
        ctxOf s' c = { x with dieMask := mask, cmd := some (.dieMask mask) } ∧
        s' = { b with contexts := s'.contexts, gangs := s'.gangs, groups := s'.groups, queues := s'.queues, threads := s'.threads,
                      warps := s'.warps } ∧
        ∀ k g, KeysOnce s → tget s.gangs k = some g → g.ctx = c →
          (∀ i y, g.bound = true → (i, y) ∈ s.groups → y.gangKey = k → y.isResident = true → out y.core.die →
            tget s'.gangs k = some { g with preempt := true }) ∧
          (∀ t th y, g.bound = true → threadOf s t = some th → th.isResident = true → th.away.isSome = true →
            out th.place.core.die → groupOfThread s t = some y → y.gangKey = k → tget s'.gangs k = some { g with preempt := true }) ∧
          ∀ i y, i ∈ g.groups → groupOf s i = some y → y.gangKey = k → y.ctx = c → y.isPlaced = true → out y.core.die →
            (∀ y', groupOf s' i = some y' → y'.isPlaced = false) ∧
            (g.bound = true → (∀ j h, tget s.gangs j = some h → j ≠ k → i ∉ h.groups) →
              groupOf s' i = some { y with phase := .parkSaved }) ∧
            (g.bound = false → g.started = false → tget s'.gangs k = none))) ∧
    (x.cmd = none → exec (.cxCommandDone ctx) s = .next s) ∧
    (∀ d, x.cmd = some (.create d) → ∃ s', exec (.cxCommandDone ctx) s = .next s' ∧ CtxBecomes s s' c { Context.none with
      desc := x.desc, live := d, exists? := true, dieMask := d.extractLsb' 256 8,
      touched := x.touched, hfCause := x.hfCause, hfCore := x.hfCore, hfDie := x.hfDie }) ∧
    (x.cmd = some .destroy → ctxQuiet s c = false → exec (.cxCommandDone ctx) s = .next s) ∧
    (x.cmd = some .destroy → ctxQuiet s c = true → ∃ s', exec (.cxCommandDone ctx) s = .next s' ∧
      ctxOf s' c = { x with exists? := true, destroyed := true, cmd := none, cmdErr := 0, handles := [], images := [],
                              touched := (ctxOf s' c).touched } ∧
      (∀ d : Fin 8, (ctxOf s' c).touched.getLsbD d.val = true ↔ ∃ e ∈ (dieOf s' d).l2, e.2.dirty ≠ 0 ∧ e.2.ctx = c) ∧
      (∀ e ∈ s'.groups, e.2.ctx ≠ c) ∧ (∀ e ∈ s'.cores, e.2.ctx ≠ some c) ∧
      (∀ t i g, gidOf t = some i → groupOf s i = some g → g.ctx = c → threadOf s' t = none) ∧
      (∀ d (u : Fin 8), ((dieOf s' d).carve[u]).valid = true → ((dieOf s' d).carve[u]).ctx ≠ c) ∧
      ∀ q y, tget s.queues q = some y → y.enable = true → y.ctx = c → (queueOf s' q).fault = 4) ∧
    (∀ m, x.cmd = some (.dieMask m) →
      let s1 := ((List.finRange 8).filter fun d => !m.getLsbD d.val).foldl (fun a d => drainDie a c d) s
      ((∃ d : Fin 8, m.getLsbD d.val = false ∧ (ctxOf s1 c).touched.getLsbD d.val = true) →
        exec (.cxCommandDone ctx) s = .next s1) ∧
      ((∀ d : Fin 8, m.getLsbD d.val = false → (ctxOf s1 c).touched.getLsbD d.val = false) →
        ∃ s', exec (.cxCommandDone ctx) s = .next s' ∧ CtxBecomes s1 s' c { ctxOf s1 c with cmd := none, cmdErr := 0 }))) ∧
  (∀ (s : State) (d : BitVec 512), descOk s d = true ↔
    1 ≤ (d.extractLsb' 418 16).toNat ∧ ((d.extractLsb' 394 24) = 0 ∨ 1024 ≤ (d.extractLsb' 394 24).toNat) ∧
    ((d.extractLsb' 378 16) = 0 ∨ 64 ≤ (d.extractLsb' 378 16).toNat) ∧ 1 ≤ (d.extractLsb' 357 21).toNat ∧
    (d.extractLsb' 357 21).toNat ≤ 2 ^ 20 ∧ d.extractLsb' 277 2 = 0 ∧ d.extractLsb' 256 8 ≠ 0 ∧ saveAreaOk s d = true) ∧
  ∀ (d u : Fin 8) (ctx : Fin 2048) (s : State),
    let x := (dieOf s d).carve[u]
    let k := ctxOf s ctx.val
    let base := s.boot.latched.toNat * 2 ^ 44 + 3 * 2 ^ 42 + d.val * 2 ^ 37 + u.val * 2 ^ 26
    let unit_ (s' : State) : CarveUnit := (dieOf s' d).carve[u]
    let zeroed (s' : State) : Prop := ∀ a, base ≤ a → a < base + 2 ^ 26 → memByte s'.mem a = 0
    let bad := (dieOf s d).pow = .gated ∨ (dieOf s d).startFail = true ∨ k.exists? = false ∨ k.destroyed = true ∨
      k.dieMask.getLsbD d.val = false
    let b := managed s
    (¬ Managed s → exec (.carveAssign d u ctx) s = .next s ∧ exec (.carveRelease d u) s = .next s) ∧
    (Managed s → x.valid = true → ∃ s', exec (.carveAssign d u ctx) s = .next s' ∧
      unit_ s' = { x with err := if x.ctx = ctx.val then 0 else 1 } ∧ s' = { b with dies := s'.dies }) ∧
    (Managed s → x.valid = false → bad → ∃ s', exec (.carveAssign d u ctx) s = .next s' ∧ unit_ s' = { x with err := 3 } ∧
      s' = { b with dies := s'.dies }) ∧
    (Managed s → x.valid = false → ¬ bad → ∃ s', exec (.carveAssign d u ctx) s = .next s' ∧
      unit_ s' = { valid := true, ctx := ctx.val, err := 0, busy := true } ∧ zeroed s' ∧ s'.threads = s.threads) ∧
    (Managed s → x.valid = false → ∃ s', exec (.carveRelease d u) s = .next s' ∧ unit_ s' = { x with err := 0 } ∧
      s' = { b with dies := s'.dies }) ∧
    (Managed s → x.valid = true → residentOn b x.ctx d = true ∨ unitUsed b x.ctx base = true →
      ∃ s', exec (.carveRelease d u) s = .next s' ∧ unit_ s' = { x with err := 2 } ∧ s' = { b with dies := s'.dies }) ∧
    (Managed s → x.valid = true → residentOn b x.ctx d = false → unitUsed b x.ctx base = false → ∃ s', exec (.carveRelease d u) s = .next s' ∧
      unit_ s' = { valid := false, ctx := 0, err := 0, busy := true } ∧ zeroed s' ∧
      (∀ a, a < base ∨ base + 2 ^ 26 ≤ a → memByte s'.mem a = memByte s.mem a) ∧ s' = { b with dies := s'.dies, mem := s'.mem }) ∧
    (x.busy = false → exec (.carveUnitDone d u) s = .next s) ∧
    (x.busy = true → ∃ s', exec (.carveUnitDone d u) s = .next s' ∧ unit_ s' = { x with busy := false } ∧
      (x.valid = true → (ctxOf s' x.ctx).touched.getLsbD d.val = true) ∧ s' = { s with dies := s'.dies, contexts := s'.contexts })

/-- A request for ON, NT or GATED is ignored while one is in progress, refused with Err 3 by a die that has not started or is lost, with
1 above the highest step, with 2 while a context has touched the die; a step above 24 is granted as the highest that keeps the package
within 5.0 kW. DIE_POWER_DONE completes it; a die that leaves GATED has a zeroed carve-out. DIE_LOSS takes the threads of a die, and
every context that touched it is lost: its queues fault, its cores stop, and its threads have DIELOST; a lost ladle is shown at home,
with what its home lane holds, and a refused one goes home. The model's choices: Err 3 of a lost die and a GATED accepted without a
drain (log 69); what is granted where no step keeps the projection (log 100); the ceiling of a die whose change to GATED is in progress
(log 101); a request while a change is in progress (log 116); the step that DIEPWR shows meanwhile (log 118). (R8 to R10, R304, R359,
R360, R370, R387, R398, R408, R409.) -/
def Obligations.DiesAndPower : Prop :=
  (∀ (d : Fin 8) (req : BitVec 6) (s : State) (w : Instr × PowState × Nat),
    w ∈ [(.dieReqOn d req, .on, 40), (.dieReqNt d req, .nt, 4)] →
    let x := dieOf s d
    let b := managed s
    (¬ Managed s → exec w.1 s = .next s) ∧
    (Managed s → x.change.isSome = true → exec w.1 s = .next b) ∧
    (Managed s → x.change = none → x.startFail = true ∨ x.lost = true →
      ∃ s', exec w.1 s = .next s' ∧ DieBecomes b s' d { x with err := 3 }) ∧
    (Managed s → x.change = none → x.startFail = false → x.lost = false → w.2.2 < req.toNat →
      ∃ s', exec w.1 s = .next s' ∧ DieBecomes b s' d { x with err := 1 }) ∧
    (Managed s → x.change = none → x.startFail = false → x.lost = false → req.toNat ≤ w.2.2 →
      ∃ s' n, exec w.1 s = .next s' ∧ DieBecomes b s' d { x with err := 0, change := some (w.2.1, n) } ∧
        (req.toNat ≤ 24 → n = req.toNat) ∧
        (24 < req.toNat → 24 ≤ n ∧ n ≤ req.toNat ∧ (24 < n → projected s d n ≤ 5000000) ∧
          ∀ k, n < k → k ≤ req.toNat → 5000000 < projected s d k))) ∧
  (∀ (d : Fin 8) (step : Nat) (s : State),
    let ceiling (k : Fin 8) (p : PowState) (n : Nat) : Nat := Config.dieCeiling s.boot.buffer k (powCode p) n
    let share (k : Fin 8) : Nat := if k = d then ceiling d .on step else match (dieOf s k).change with
      | none => ceiling k (dieOf s k).pow (dieOf s k).step
      | some (p, n) => if p = .gated then max (ceiling k (dieOf s k).pow (dieOf s k).step) (ceiling k .gated n) else ceiling k p n
    projected s d step = Config.fixedCeiling s.boot.buffer + ((List.finRange 8).map share).sum) ∧
  (∀ (d : Fin 8) (s : State),
    let x := dieOf s d
    let touched := ∃ e ∈ s.contexts, e.2.touched.getLsbD d.val = true
    let b := managed s
    (¬ Managed s → exec (.dieReqGated d) s = .next s) ∧
    (Managed s → x.change.isSome = true → exec (.dieReqGated d) s = .next b) ∧
    (Managed s → x.change = none → x.startFail = true ∨ x.lost = true →
      ∃ s', exec (.dieReqGated d) s = .next s' ∧ DieBecomes b s' d { x with err := 3 }) ∧
    (Managed s → x.change = none → x.startFail = false → x.lost = false → touched →
      ∃ s', exec (.dieReqGated d) s = .next s' ∧ DieBecomes b s' d { x with err := 2 }) ∧
    (Managed s → x.change = none → x.startFail = false → x.lost = false → ¬ touched →
      ∃ s', exec (.dieReqGated d) s = .next s' ∧ DieBecomes b s' d { x with err := 0, change := some (.gated, x.step) }) ∧
    (x.change = none → exec (.diePowerDone d) s = .next s) ∧
    (∀ n, x.change = some (.gated, n) →
      (touched → ∃ s', exec (.diePowerDone d) s = .next s' ∧ DieBecomes s s' d { x with change := none, err := 2 }) ∧
      (¬ touched → ∃ s', exec (.diePowerDone d) s = .next s' ∧ (dieOf s' d).pow = .gated ∧ (dieOf s' d).change = none ∧
        (dieOf s' d).l2 = [] ∧ (dieOf s' d).tlb = [] ∧ (∀ k : Fin 128, coreOf s' ⟨d, k⟩ = Core.idle) ∧
        (dieOf s' d).cupola = [] ∧ (dieOf s' d).cupolaRuns = false ∧
        (∀ t, (∀ i g, gidOf t = some i → groupOf s i = some g → g.phase ≠ .retired) → threadOf s' t = threadOf s t) ∧
        s' = { s with dies := s'.dies, cores := s'.cores, slots := s'.slots, groups := s'.groups, threads := s'.threads,
                      warps := s'.warps })) ∧
    ∀ p n, x.change = some (p, n) → p ≠ .gated → ∃ s', exec (.diePowerDone d) s = .next s' ∧
      dieOf s' d = { x with change := none, pow := p, step := n } ∧
      let base := s.boot.latched.toNat * 2 ^ 44 + 3 * 2 ^ 42 + d.val * 2 ^ 37
      ∀ a, memByte s'.mem a = if x.pow = .gated ∧ base ≤ a ∧ a < base + 2 ^ 29 then 0 else memByte s.mem a) ∧
  ∀ (d : Fin 8) (s : State),
    let counts (t : ThreadKey) : Prop := t.isHandler = false ∧ ∀ i g, gidOf t = some i → groupOf s i = some g → g.phase ≠ .retired
    ((dieOf s d).lost = true → exec (.dieLoss d) s = .next s) ∧
    ((dieOf s d).lost = false → KeysOnce s → ∃ s', exec (.dieLoss d) s = .next s' ∧ (dieOf s' d).lost = true ∧ (dieOf s' d).l2 = [] ∧
      (∀ u : Fin 8, ((dieOf s' d).carve[u]).valid = false) ∧
      (∀ t th, counts t → threadOf s t = some th → th.isResident = true → th.place.core.die = d →
        ∃ th', threadOf s' t = some th' ∧ th'.status = .lost ∧ th'.away = none ∧ th'.critOpen = false ∧
          ∀ a, th.away = some a → th'.place = a.homePlace ∧ th'.regs = a.home ∧ th'.pc = a.homePc ∧ th'.pfx = a.homePfx) ∧
      (∀ t th a, counts t → threadOf s t = some th → th.status = .travelling → th.away = some a → a.refused = true →
        a.homePlace.core.die ≠ d → ∃ th', threadOf s' t = some th' ∧ th'.status = .travelling) ∧ s'.phases = s.phases ∧
      (let base := s.boot.latched.toNat * 2 ^ 44 + 3 * 2 ^ 42 + d.val * 2 ^ 37
        ∀ a, memByte s'.mem a = if base ≤ a ∧ a < base + 2 ^ 29 then 0 else memByte s.mem a) ∧
      ∀ c x, tget s.contexts c = some x → x.exists? = true → x.destroyed = false → x.touched.getLsbD d.val = true →
        (ctxOf s' c).lost.getLsbD d.val = true ∧
        (∀ q y, tget s.queues q = some y → y.enable = true → y.ctx = c → (queueOf s' q).fault = 3) ∧
        ∀ k, k.die ≠ d → (coreOf s k).ctx = some c → (coreOf s' k).stopped = true ∧
          ∀ t th, counts t → threadOf s t = some th → th.isResident = true → th.place.core = k → th.entry = none →
            ∃ th' e, threadOf s' t = some th' ∧ th'.entry = some e ∧ e.cause = .dieLost)

/-! ### Stacks, links and hosts -/

/-- DRAM_GRANT serves an owed refresh, else the request that R365 chooses among those that no earlier one to its bytes holds back; each
stamp on it that is late becomes a miss, its response carries LOAD to a host that waits for it, and the row predictor learns. The refresh,
interval and miss events keep their counts; an early refresh comes at most once in a fabric cycle. A failed link port carries
nothing until it is trained again; a message of another package acts at its home, travels on by the route table, or meets an error; a
bucket fills at its rate up to its depth. The model's choices: the numbers of the runner ports (log 57); the first refresh, and the
credit of banks that no access has named (log 58); LOAD at the grant (log 70); when links, windows and hosts of other packages act
(log 80); what leaves the package, and a replay (log 85); the class of another package's request (log 115). (R99, R364 to R372, R374,
R386 to R388, R392, R394, R396, R397.) -/
def Obligations.StacksAndLinks : Prop :=
  (∀ (k : Fin 16) (p : Fin 64) (s : State),
    let w := waitingAt s k p
    let l := unheld [] w
    let apart (x r : Request) : Prop := x.pa + x.len ≤ r.pa ∨ r.pa + r.len ≤ x.pa
    (∀ pre r post, w = pre ++ r :: post → (∀ x ∈ pre, apart x r) → r ∈ l) ∧
    (∀ r ∈ l, ∃ pre post, w = pre ++ r :: post ∧ ∀ x ∈ pre, apart x r) ∧
    (∀ b, owedBank s k p = some b → ∃ s', exec (.dramGrant k p) s = .next s' ∧
      0 < (bankAt s k p b).owed ∧ bankAt s' k p b = { bankAt s k p b with owed := (bankAt s k p b).owed - 1 } ∧ s' = { s with dramBanks := s'.dramBanks }) ∧
    (owedBank s k p = none → (chooseRequest s k p = none ↔ l = []) ∧ (l = [] → exec (.dramGrant k p) s = .next s) ∧
      ∀ r, chooseRequest s k p = some r → r ∈ l ∧
        (∀ x ∈ l, x.cls = r.cls → r.deadline ≤ x.deadline ∧ (x.deadline = r.deadline → r.arrived ≤ x.arrived ∧
          (x.arrived = r.arrived → r.port ≤ x.port))) ∧
        (guardOn s k p = true → (∃ x ∈ l, x.cls = 0) → r.cls = 0) ∧
        (guardOn s k p = false ∨ (∀ x ∈ l, x.cls ≠ 0) → ∀ x ∈ l, x.cls ≤ r.cls) ∧
        ∃ s', exec (.dramGrant k p) s = .next s' ∧
          (∀ rest, rest = s.requests.filter (fun x => decide (x.id ≠ r.id)) →
            s'.requests.length = rest.length ∧ ∀ i x, rest[i]? = some x → s'.requests[i]? = some (
              if x.held = true ∧ ((rest.take i).filter fun y => decide (y.stack = x.stack ∧ y.pch = x.pch)).length < 64 then
                { x with held := false, arrived := s.clock
                         deadline := if x.stamped then x.deadline else s.clock + 0xFFFF * 64 } else x)) ∧
          s'.misses = s.misses ++ (if r.stamped = true ∧ r.deadline < s.clock then [⟨r.op, r.core, r.ctx, r.cls⟩] else []) ++
            (r.more.filter fun x => decide (x.deadline < s.clock)).map (fun x => ⟨r.op, x.core, x.ctx, x.cls⟩) ∧
          tget s'.lastC0 (k, p) = (if r.cls = 0 then some s.clock else tget s.lastC0 (k, p)) ∧
          bankAt s' k p r.bank = (bankAt s k p r.bank).access r.bank r.row ∧
          (∀ i x, tget s.hostReads i = some x →
            let part := (r.pa - x.base) / 512
            let load (j : Nat) : Nat := if r.op = some i ∧ j = part then
              max ((tget x.loads j).getD 0) (min 15 ((waitingAt s' k p).length / 4)) else (tget x.loads j).getD 0
            (requestsDone s' i = false → ∃ y, tget s'.hostReads i = some { x with loads := y } ∧ ∀ j, (tget y j).getD 0 = load j) ∧
            (requestsDone s' i = true → tget s'.hostReads i = none ∧ ∀ j, 512 * j < x.data.length →
              HostNote.completion x.port ((x.data.drop (512 * j)).take 512) ((loadRule s x.port x.tenant).map fun _ => load j)
                ∈ s'.notes)) ∧
          s' = { s with requests := s'.requests, lastC0 := s'.lastC0, misses := s'.misses, dramBanks := s'.dramBanks,
                        hostReads := s'.hostReads, notes := s'.notes })) ∧
  (∀ (x : Bank) (bank row : Nat), let y := x.access bank row
    y.lastRow = some row ∧ y.credit = x.credit ∧ y.due = x.due ∧ y.owed = x.owed ∧ y.early = x.early ∧ (x.lastRow = none → y.rows = x.rows) ∧
    ∀ r i, x.lastRow = some r → rowCounter y i = if i = rowIndex bank r then
      (if r = row then min 3 (rowCounter x i + 1) else rowCounter x i - 1) else rowCounter x i) ∧
  (∀ (k : Fin 16) (p : Fin 64) (b : Nat) (s : State),
    let x := bankAt s k p b
    let quiet := (∃ e ∈ s.phases, e.stack = k ∧ ∀ u, e.until? = some u → s.clock < u) ∧ x.credit < 8 ∧ x.early ≠ s.clock + 1 ∧
      ∀ r ∈ s.requests, r.stack = k → r.pch = p → r.bank ≠ b
    (s.clock < x.due → exec (.refreshDue k p b) s = .next s) ∧
    (x.due ≤ s.clock → ∃ s', exec (.refreshDue k p b) s = .next s' ∧ s' = { s with dramBanks := s'.dramBanks } ∧
      bankAt s' k p b = if 0 < x.credit then { x with due := x.due + 6240, credit := x.credit - 1 }
        else { x with due := x.due + 6240, owed := x.owed + 1 }) ∧
    (¬ quiet → exec (.earlyRefresh k p b) s = .next s) ∧
    (quiet → ∃ s', exec (.earlyRefresh k p b) s = .next s' ∧ s' = { s with dramBanks := s'.dramBanks } ∧
      bankAt s' k p b = { x with credit := x.credit + 1, early := s.clock + 1 })) ∧
  (∀ (k : Fin 16) (c : CoreId) (s : State), ∃ s', exec (.phaseExpire k c) s = .next s' ∧ s' = { s with phases := s'.phases } ∧
    ∀ e, e ∈ s'.phases ↔ e ∈ s.phases ∧ ¬ (e.stack = k ∧ e.core = c ∧ ∃ u, e.until? = some u ∧ u ≤ s.clock)) ∧
  (∀ (n : Nat) (s : State), (s.misses.length ≤ n → exec (.missNotice n) s = .next s) ∧
    ∀ x, s.misses[n]? = some x → ∃ s', exec (.missNotice n) s = .next s' ∧ s'.misses = s.misses.eraseIdx n ∧
      s' = { s with misses := s'.misses, cores := s'.cores } ∧
      ((coreOf s x.core).ctx ≠ some x.ctx → s'.cores = s.cores) ∧
      ((coreOf s x.core).ctx = some x.ctx → coreOf s' x.core = { coreOf s x.core with
        miss := (coreOf s x.core).miss.set x.cls (min 0xFFFF ((coreOf s x.core).miss[x.cls] + 1)) })) ∧
  (∀ (link : Nat) (k : Fin 16) (j : Fin 2) (s : State),
    let bit := 2 * k.val + j.val
    exec (.linkReplay link) s = .next s ∧
    (∃ s', exec (.linkFail k j) s = .next s' ∧ s' = { s with linkFail := s'.linkFail, linkDown := s'.linkDown } ∧
      (∀ i, i < 32 → s'.linkFail.getLsbD i = (s.linkFail.getLsbD i || decide (i = bit))) ∧
      ∀ i, i < 32 → s'.linkDown.getLsbD i = (s.linkDown.getLsbD i || decide (i = bit))) ∧
    (∃ s', exec (.linkRetrain k j) s = .next s' ∧ s' = { s with linkDown := s'.linkDown } ∧
      ∀ i, i < 32 → s'.linkDown.getLsbD i = (s.linkDown.getLsbD i && decide (i ≠ bit))) ∧
    ∀ (pa : BitVec 56) (len : Nat) (op : RemoteOp),
      let i : Instr := .offPackageRequest k j pa len op
      let a := pa.toNat
      let n := remoteBytes op len
      let reduces := (∃ r p, op = .landing r p) ∨ ∃ o w p, op = .free o w p
      let errors : Prop := exec i s = .next { s with sent := s.sent ++ [.error k j pa] }
      (s.linkDown.getLsbD bit = true → exec i s = .next s) ∧
      (s.linkDown.getLsbD bit = false →
        (isOwn s a = true → paMode a = 3 ∨ unbacked s a = true → errors) ∧
        (isOwn s a = true → paMode a ≠ 3 → unbacked s a = false → ∃ s', exec i s = .next s' ∧ RemoteEffect s s' k j a len op ∧
          s'.threads = s.threads ∧ ∀ b, 0 < n → a < 64 * b + 64 → 64 * b < a + n → ∃ r ∈ s'.requests,
            r.pa = max a (64 * b) ∧ r.pa + r.len = min (a + n) (64 * b + 64) ∧ r.port = runnerPort k (stackOf r.pa)) ∧
        (∀ p, isOwn s a = false → hostPort s a = some p →
          (remoteWindow s p a = none ∨ reduces → errors) ∧
          ∀ t bus, remoteWindow s p a = some (t, bus) → ¬ reduces →
            let f : Fin 65 := Fin.ofNat 65 (tenantVf s t p)
            let out := decide (op ≠ .read)
            (mayPass s p f out n = false → exec i s = .next s) ∧
            (mayPass s p f out n = true → ∃ s', exec i s = .next s' ∧ RemoteEffect s s' k j (hostKey p bus) len op ∧
              s' = { spend s p f out n with mem := s'.mem, sent := s'.sent })) ∧
        (isOwn s a = false → hostPort s a = none → (routeOf s a = none → errors) ∧
          ∀ st pt, routeOf s a = some (st, pt) → exec i s = .next { s with
            sent := s.sent ++ [.forward st pt pa len op (((tget s.route (paPkg a)).getD 0).getLsbD 6)] }))) ∧
  (∀ (s : State) (p : Fin 2) (a : Nat),
    let inForce (w : BitVec 256) (t : Fin 64) (bus : Nat) : Prop :=
      let lo := (w.extractLsb' 0 44).toNat
      w.getLsbD 255 = true ∧ t.val = (w.extractLsb' 240 6).toNat ∧ tenantVf s t p ≠ 0 ∧ lo ≤ a % 2 ^ 44 ∧
        a % 2 ^ 44 < lo + (w.extractLsb' 64 28).toNat * 65536 ∧ bus = (w.extractLsb' 128 64).toNat + (a % 2 ^ 44 - lo)
    (remoteWindow s p a = none ↔ ∀ i : Fin 16, ∀ t bus, ¬ inForce (portOf s p).windows[i] t bus) ∧
    ∀ t bus, remoteWindow s p a = some (t, bus) → ∃ i : Fin 16, inForce (portOf s p).windows[i] t bus) ∧
  (∀ (s : State) (p : Fin 2) (f : Fin 65) (out : Bool) (n : Nat), f ≠ 64 →
    (mayPass s p f out n = true ↔ BucketPasses (bucketOf s p f) out n ∧ BucketPasses (bucketOf s p 64) out n) ∧
    spend s p f out n = { s with ports := (spend s p f out n).ports } ∧
    (∀ g, bucketOf (spend s p f out n) p g = if g = f ∨ g = 64 then spentRule (bucketOf s p g) out n else bucketOf s p g) ∧
    ∀ r g, r ≠ p → bucketOf (spend s p f out n) r g = bucketOf s r g) ∧
  (∀ s : State, ∃ p, managementPasses s = mayPass s p 0 false 8 ∧
    managed s = { spend s p 0 false 8 with freeCount := s.freeCount + 1 }) ∧
  (∀ (s : State) (p : Fin 2) (t : Fin 64) (n : Nat),
    writePasses s p t n = mayPass s p (Fin.ofNat 65 (tenantVf s t p)) false n ∧
    writeSpend s p t n = spend s p (Fin.ofNat 65 (tenantVf s t p)) false n) ∧
  ∀ (port : Fin 2) (f : Fin 65) (out : Bool) (s : State),
    let b := bucketOf s port f
    let lo := if out then 32 else 0
    let rate := (b.pair.extractLsb' lo 16).toNat
    let depth := 4096 * (b.pair.extractLsb' (lo + 16) 16).toNat
    (rate = 0 → exec (.tokenBucketRefill port f out) s = .next s) ∧
    (rate ≠ 0 → ∃ s', exec (.tokenBucketRefill port f out) s = .next s' ∧ s' = { s with ports := s'.ports } ∧
      bucketOf s' port f = if out then { b with outFill := min depth (b.outFill + rate) }
        else { b with inFill := min depth (b.inFill + rate) })

/-- A host read completes with the bytes at home, in completions of at most 512 bytes; a host write is posted, and its pieces take effect
one after another where their homes accept them, those for one home in order, but for version words; an AtomicOp replaces its operand
and completes with the old value. A read or an AtomicOp waits for the function's posted writes, and a completion for the requests of its
access; a compare-and-swap of a whole version word publishes it. A request of a function out of service, or malformed, is unsupported;
one whose translation or region refuses it is logged and aborted; one without tokens waits. FUNCTION_LEVEL_RESET clears the function's
vectors and buckets. The model's choices: Space 2 of the log entry and the abort of a posted write (log 59); the pieces of a write, and
a request that crosses 4,096 bytes (log 60); a held request comes again (log 61); what a function-level reset clears (log 62); LOAD at
the grant (log 70); the size of BAR2 until the host sets it (log 111); the host's prefixes (log 112). (R184, R364, R368, R378 to R380,
R384 to R388, R390, R391, R394, R398.) -/
def Obligations.HostRequests : Prop :=
  (∀ (port : Fin 2) (t : Fin 64) (off : BitVec 64) (len : Nat) (s : State),
    let f : Fin 65 := Fin.ofNat 65 (tenantVf s t port)
    let i : Instr := .hostRead port t off len
    let bad := Bar2Refuses s port t off.toNat len
    (bad → ∃ s', exec i s = .next s' ∧ Noted s s' (.unsupported port (loadRule s port t))) ∧
    (¬ bad → WritesPending s port t → exec i s = .next s) ∧
    (¬ bad → ¬ WritesPending s port t →
      (∀ k, hostXlat s t off.toNat len ⟨true, false, false⟩ = .inr k →
        ∃ s', exec i s = .next s' ∧ HostFailed s s' port t (loadRule s port t) k off.toNat) ∧
      ∀ x, hostXlat s t off.toNat len ⟨true, false, false⟩ = .inl x →
        (mayPass s port f true len = false → exec i s = .next s) ∧
        (mayPass s port f true len = true → ∃ s', exec i s = .next s' ∧
          HostAnswered s s' port t x len (memBytes s.mem x.loc len) ∧
          s' = { s with notes := s'.notes, ports := s'.ports, requests := s'.requests, arrivals := s'.arrivals, seq := s'.seq,
                        hostReads := s'.hostReads, dramBanks := s'.dramBanks }))) ∧
  (∀ (port : Fin 2) (t : Fin 64) (off : BitVec 64) (data : List Byte) (s : State),
    let n := data.length
    let f : Fin 65 := Fin.ofNat 65 (tenantVf s t port)
    let i : Instr := .hostWrite port t off data
    let bad := Bar2Refuses s port t off.toNat n ∨ 512 < n
    (bad → ∃ s', exec i s = .next s' ∧ Noted s s' (.unsupported port none)) ∧
    (¬ bad → mayPass s port f false n = false → exec i s = .next s) ∧
    (¬ bad → mayPass s port f false n = true →
      (∀ k, hostXlat s t off.toNat n ⟨false, true, false⟩ = .inr k →
        ∃ s', exec i s = .next s' ∧ HostFailed s s' port t none k off.toNat) ∧
      ∀ x, hostXlat s t off.toNat n ⟨false, true, false⟩ = .inl x → ∃ s' ps, exec i s = .next s' ∧
        tget s'.hostWrites s.seq = some { port := port, tenant := t, fn := tenantVf s t port, off := off.toNat, pa := x.pa,
                                          loc := x.loc, remote := x.attr.remote, cls := x.attr.page, ctx := hostCtx s t, pieces := ps } ∧
        (∀ j, j ≠ s.seq → tget s'.hostWrites j = tget s.hostWrites j) ∧ ps.flatMap (fun p => p.2) = data ∧
        (∀ (j : Nat) (p : Nat × List Byte), ps[j]? = some p → 0 < p.2.length ∧ p.1 % 8 + p.2.length ≤ 8 ∧
          p.1 = off.toNat + ((ps.take j).map fun q => q.2.length).sum) ∧
        s' = { s with ports := s'.ports, requests := s'.requests, arrivals := s'.arrivals, dramBanks := s'.dramBanks,
                      seq := s.seq + 1, hostWrites := s'.hostWrites })) ∧
  (∀ (id j : Nat) (s : State) (w : HostWrite) (p : Nat × List Byte), tget s.hostWrites id = some w → w.pieces[j]? = some p →
    let home (v : HostWrite) (q : Nat × List Byte) : Nat :=
      if v.remote = true then 16 + v.loc / 2 ^ 64 else (stackOf (v.pa + (q.1 - v.off))).val
    let first := (∀ q ∈ w.pieces.take j, home w q ≠ home w p) ∧ ∀ e ∈ s.hostWrites, e.1 < id → e.2.port = w.port → e.2.fn = w.fn →
      ∀ q ∈ e.2.pieces, home e.2 q ≠ home w p
    let loc := w.loc + (p.1 - w.off)
    let s' := otherMove (.hostPiece id j) s
    (¬ first → s' = s) ∧
    (first → tget s'.hostWrites id = (if w.pieces.eraseIdx j = [] then none else some { w with pieces := w.pieces.eraseIdx j }) ∧
      (∀ k, k ≠ id → tget s'.hostWrites k = tget s.hostWrites k) ∧ s'.threads = s.threads ∧
      (meetsVersion s (w.pa + (p.1 - w.off)) p.2.length = true →
        Logged s s' w.tenant ⟨3 + w.port.val, 0, 0, w.ctx, 10, 2, p.1⟩ ∧ s'.mem = s.mem) ∧
      (meetsVersion s (w.pa + (p.1 - w.off)) p.2.length = false → ∀ a, memByte s'.mem a =
        if loc ≤ a ∧ a < loc + p.2.length then p.2.getD (a - loc) 0 else memByte s.mem a))) ∧
  (∀ (port : Fin 2) (t : Fin 64) (off : BitVec 64) (op : HostAtomicOp) (x y : BitVec 64) (s : State),
    let n := if op = .fetchAdd32 ∨ op = .swap32 then 4 else 8
    let m := if op = .cas64 then 16 else n
    let f : Fin 65 := Fin.ofNat 65 (tenantVf s t port)
    let i : Instr := .hostAtomic port t off op x y
    let bad := Bar2Refuses s port t off.toNat n ∨ off.toNat % n ≠ 0
    let pass := mayPass s port f false m = true ∧ mayPass s port f true n = true
    (bad → ∃ s', exec i s = .next s' ∧ Noted s s' (.unsupported port (loadRule s port t))) ∧
    (¬ bad → WritesPending s port t ∨ ¬ pass → exec i s = .next s) ∧
    (¬ bad → ¬ WritesPending s port t → pass →
      (∀ k, hostXlat s t off.toNat n ⟨true, true, false⟩ = .inr k →
        ∃ s', exec i s = .next s' ∧ HostFailed s s' port t (loadRule s port t) k off.toNat) ∧
      ∀ p, hostXlat s t off.toNat n ⟨true, true, false⟩ = .inl p →
        let old := memNat s.mem p.loc n
        let refused := meetsVersion s p.pa n = true ∧ ¬ (op = .cas64 ∧ isVersion s p.pa n = true ∧ old = x.toNat)
        (refused → ∃ s', exec i s = .next s' ∧ HostFailed s s' port t (loadRule s port t) 10 off.toNat) ∧
        (¬ refused → ∃ s', exec i s = .next s' ∧ wroteAt s.mem s'.mem p.loc n ((hostOpRule op old x.toNat y.toNat).getD old) ∧
          HostAnswered s s' port t p n (natBytes n old) ∧ s'.threads = s.threads))) ∧
  (∀ (s : State) (t : Fin 64) (pa n : Nat),
    let ver (r : BitVec 256) : Nat := (r.extractLsb' 136 56).toNat
    let meets (r : BitVec 256) : Prop := r.getLsbD 0 = true ∧ pa ≤ (r.extractLsb' 64 64).toNat ∧ 2 * (r.extractLsb' 1 63).toNat < pa + n
    (regionAllows s t pa n = true ↔ ∀ i : Fin 64, meets s.regions[i] → (s.regions[i]).getLsbD (192 + t.val) = true) ∧
    (meetsVersion s pa n = true ↔ ∃ i : Fin 64, (s.regions[i]).getLsbD 0 = true ∧ pa < ver s.regions[i] + 8 ∧ ver s.regions[i] < pa + n) ∧
    (isVersion s pa n = true ↔ n = 8 ∧ ∃ i : Fin 64, (s.regions[i]).getLsbD 0 = true ∧ ver s.regions[i] = pa)) ∧
  ∀ (port : Fin 2) (vf : Fin 64) (s : State),
    (s.boot.phase ≠ .ready → vf ≠ 0 → exec (.functionLevelReset port vf) s = .next s) ∧
    (s.boot.phase = .ready ∨ vf = 0 → ∃ s', exec (.functionLevelReset port vf) s = .next s' ∧
      tget s'.msix (port, vf.val) = none ∧ bucketOf s' port (Fin.ofNat 65 vf.val) = ⟨0, 0, 0⟩ ∧
      (∀ p g, (p, g) ≠ (port, vf.val) → tget s'.msix (p, g) = tget s.msix (p, g)) ∧
      (∀ p g, (p, g) ≠ (port, Fin.ofNat 65 vf.val) → bucketOf s' p g = bucketOf s p g) ∧
      s' = { s with msix := s'.msix, ports := s'.ports })

/-- Boot: POWER_ON opens the boot area; the first claim counts; the owner sets the package number; BOOT_CHECK latches it and the ROM makes
the tests of R403 in their order, and copies a bundle that passes into both base dies; STARTUP halts with its code, or takes the
parameters, loads the images of the tundish and the cupolas and is ready; a failed boot may be tried again. POWER_OFF keeps nothing but
host memory. A report of 480 bytes with the nonce of the port served, and its signature, answers an attestation request. A register
write, which takes 8 bytes of the buckets of function 0, reaches the writable bits of its word. The model's choices: the order of the
halts of STARTUP and the image of the standby (log 66); the moment at which a check ends (log 67); what a package without power keeps
(log 68); which registers a write reaches by another row (log 82); the nonce by port (log 117). (R13, R337, R383, R384, R387, R389, R390,
R396 to R407.) -/
def Obligations.BootAndRegisters : Prop :=
  (∀ s : State,
    let b := s.boot
    (b.powered = true → b.phase ≠ .training → exec .powerOn s = .next s) ∧
    (b.powered = true → b.phase = .training → exec .powerOn s = .next { s with boot := { b with phase := .openP } }) ∧
    (b.powered = false → ∃ s', exec .powerOn s = .next s' ∧ s'.boot = { Boot.reset with phase := .openP } ∧ s'.threads = [] ∧
      ∀ a, memByte s'.mem a = if a < 2 ^ 64 then 0 else memByte s.mem a) ∧
    (∃ s', exec .powerOff s = .next s' ∧ s'.boot = { Boot.reset with powered := false } ∧ s'.threads = [] ∧ s'.contexts = [] ∧
      ∀ a, memByte s'.mem a = if a < 2 ^ 64 then 0 else memByte s.mem a) ∧
    (b.attBusy = false → exec .attestReport s = .next s) ∧
    (b.attBusy = true → exec .attestReport s = .next { s with boot := { b with
      attBusy := false, attDone := true
      report := reportBody s ++ natBytes 4627 (bytesNat (Config.identitySign (digest (reportBody s)))) } }) ∧
    (reportBody s).length = 480 ∧ (reportBody s).take 4 = [0x4C, 0x4D, 0x41, 0x52] ∧
    ((reportBody s).drop 8).take 8 = natBytes 8 Config.fuseId.toNat ∧ ((reportBody s).drop 16).take 64 = natBytes 64 b.attNonce.toNat) ∧
  (∀ (port : Fin 2) (num : BitVec 12) (s : State),
    let b := s.boot
    let owner := b.claimed = true ∧ b.owner = port
    let becomes (i : Instr) (x : Boot) : Prop := exec i s = .next { s with boot := x }
    (b.phase = .openP → b.claimed = false → becomes (.bootClaim port) { b with claimed := true, owner := port }) ∧
    (b.phase ≠ .openP ∨ b.claimed = true → becomes (.bootClaim port) b) ∧
    (owner → b.phase = .failed → becomes (.bootRestart port) { b with phase := .openP, errCode := 0, errUnit := 0 }) ∧
    (¬ (owner ∧ b.phase = .failed) → becomes (.bootRestart port) b) ∧
    (owner → b.phase = .openP → becomes (.pkgnumWrite port num) { b with pkgSet := true, pkgNum := num } ∧
      becomes (.bootCheck port) { b with
        latched := if b.pkgSet then b.pkgNum else 0, phase := .checking }) ∧
    (b.phase ≠ .checking → otherMove .romCheck s = s) ∧
    (b.phase = .checking → otherMove .romCheck s = { s with boot := { b with
      errCode := checkCode b.buffer, errUnit := 0, phase := if checkCode b.buffer = 0 then .starting else .failed
      copies := if checkCode b.buffer = 0 then #v[b.buffer, b.buffer] else b.copies } }) ∧
    (¬ (owner ∧ b.phase = .openP) → becomes (.pkgnumWrite port num) b ∧ becomes (.bootCheck port) b) ∧
    (b.powered = false ∨ (b.attBusy = true ∧ b.attDone = false) → becomes (.attestRequest port) b) ∧
    (b.powered = true → b.attBusy = false ∨ b.attDone = true →
      becomes (.attestRequest port) { b with attBusy := true, attDone := false, attPort := port, attNonce := b.nonces[port] })) ∧
  (∀ b : Memory,
    (headerOk (bundleHeader b) = false → checkCode b = 1) ∧
    (headerOk (bundleHeader b) = true →
      (digest (memBytes b 64 2592) ≠ Config.fusedKeyHash → checkCode b = 2) ∧
      (digest (memBytes b 64 2592) = Config.fusedKeyHash →
        (Config.verifies (memBytes b 64 2592) (memBytes b 2656 4627) (bodyDigest b) = false → checkCode b = 3) ∧
        (Config.verifies (memBytes b 64 2592) (memBytes b 2656 4627) (bodyDigest b) = true →
          (checkCode b = 0 ↔ ∀ e, e < 4096 → let r := bundleRoute b e
            r.extractLsb' 7 24 = 0 ∧ (r.getLsbD 31 = true → r.getLsbD 4 = false)) ∧
          (checkCode b = 0 ∨ checkCode b = 7))))) ∧
  (∀ (o : StartOutcome) (s : State),
    let b := s.boot.copies[s.boot.owner]
    let image (i : Nat) (m : Memory) : Prop := let x := sectionAt (bundleHeader b) i
      ∀ a, memByte m a = if a < x.1 then memByte b (x.2 + a) else 0
    let halts (code unit_ : Nat) : Prop :=
      exec (.startup o) s = .next { s with boot := { s.boot with phase := .halted, errCode := code, errUnit := unit_ } }
    (s.boot.phase ≠ .starting → exec (.startup o) s = .next s) ∧
    (s.boot.phase = .starting → (o.noTundish = true → halts 6 0) ∧
      (o.noTundish = false → (∀ k, o.stackFail = some k → halts 4 k.val) ∧
        (o.stackFail = none → (∀ k, k < 16 → stackRecordOk b k = false → (∀ j, j < k → stackRecordOk b j = true) → halts 5 k) ∧
          ((∀ k, k < 16 → stackRecordOk b k = true) → ∃ s', exec (.startup o) s = .next s' ∧
            s'.boot = { s.boot with phase := .ready, tundish := s'.boot.tundish, tundishRuns := s'.boot.tundishRuns } ∧
            (∀ k : Fin 2, image 3 s'.boot.tundish[k] ∧ s'.boot.tundishRuns[k] = true) ∧
            s'.pools = bundlePools b ∧ s'.linkFail = o.portFail ∧ s'.linkDown = o.portFail ∧ s'.dramBanks = [] ∧
            (∀ k : Fin 16, s'.idleCredit[k] = 0) ∧
            (∀ e, e < 4096 → (tget s'.route e).getD 0 = bundleRoute b e) ∧ s'.mem = s.mem ∧
            ∀ d : Fin 8, (dieOf s' d).startFail = o.dieFail.getLsbD d.val ∧ (dieOf s' d).step = 24 ∧
              ((dieOf s' d).pow = if o.dieFail.getLsbD d.val then .gated else .on) ∧
              ((dieOf s' d).cupolaRuns = !o.dieFail.getLsbD d.val) ∧
              (o.dieFail.getLsbD d.val = false → image 2 (dieOf s' d).cupola)))))) ∧
  ∀ (port : Fin 2) (off : BitVec 24) (v : BitVec 64) (s : State),
    let o := off.toNat
    let i : Instr := .registerWrite port off v
    let b := spend s port 0 false 8
    let boot := 0x200000 ≤ o ∧ (o < 0x300000 ∨ 0x800000 ≤ o)
    (mayPass s port 0 false 8 = false → exec i s = .next s) ∧
    (mayPass s port 0 false 8 = true →
      (o % 8 ≠ 0 ∨ (¬ boot ∧ s.boot.phase ≠ .ready) → exec i s = .next b) ∧
      (o % 8 = 0 → 0x800000 ≤ o →
        let mine := s.boot.phase = .openP ∧ s.boot.claimed = true ∧ s.boot.owner = port
        (¬ mine → exec i s = .next b) ∧
        (mine → ∃ s', exec i s = .next s' ∧ s' = { b with boot := { s.boot with buffer := s'.boot.buffer } } ∧
          wroteAt s.boot.buffer s'.boot.buffer (o - 0x800000) 8 v.toNat)) ∧
      (o % 8 = 0 → 0x200000 ≤ o → o < 0x300000 →
        (o < 0x201000 ∨ 0x201040 ≤ o → exec i s = .next b) ∧
        (0x201000 ≤ o → o < 0x201040 → ∃ s', exec i s = .next s' ∧ s' = { b with boot := { s.boot with nonces := s'.boot.nonces } } ∧
          (∀ p, p ≠ port → s'.boot.nonces[p] = s.boot.nonces[p]) ∧ ∀ j, j < 512 → (s'.boot.nonces[port]).getLsbD j =
            bitAfter (fun _ => true) (o % 0x40 / 8) v ((s.boot.nonces[port]).getLsbD j) j)) ∧
      (o % 8 = 0 → s.boot.phase = .ready →
        (o < 0x40000 → o % 0x80 < 0x40 → ∃ s', exec i s = .next s' ∧
          s' = { b with contexts := s'.contexts } ∧ (∀ c, c ≠ o / 0x80 → ctxOf s' c = ctxOf s c) ∧
          ctxOf s' (o / 0x80) = { ctxOf s (o / 0x80) with desc := (ctxOf s' (o / 0x80)).desc } ∧
          ∀ j, j < 512 → (ctxOf s' (o / 0x80)).desc.getLsbD j =
            bitAfter (fun j => decide (277 ≤ j ∨ (249 ≤ j ∧ j ≤ 263))) (o % 0x40 / 8) v ((ctxOf s (o / 0x80)).desc.getLsbD j) j) ∧
        (o < 0x40000 → 0x40 ≤ o % 0x80 → exec i s = .next b) ∧
        (0x40000 ≤ o → o < 0x42000 → ∃ s', exec i s = .next s' ∧ s' = { b with tenants := s'.tenants } ∧
          let t : Fin 64 := Fin.ofNat 64 ((o - 0x40000) / 0x80)
          (∀ u, u ≠ t → tenantOf s' u = tenantOf s u) ∧
          tenantOf s' t = { tenantOf s t with entry := (tenantOf s' t).entry } ∧ ∀ j, j < 1024 → (tenantOf s' t).entry.getLsbD j =
            bitAfter (fun j => decide (j = 1023 ∨ (967 ≤ j ∧ j ≤ 1013) ∨ j ≤ 511)) (o % 0x80 / 8) v ((tenantOf s t).entry.getLsbD j) j) ∧
        (0x60000 ≤ o → o < 0x60800 → ∃ s', exec i s = .next s' ∧ s' = { b with regions := s'.regions } ∧
          let r : Fin 64 := Fin.ofNat 64 ((o - 0x60000) / 0x20)
          (∀ u, u ≠ r → s'.regions[u] = s.regions[u]) ∧ ∀ j, j < 256 → (s'.regions[r]).getLsbD j =
            bitAfter (fun j => decide (136 ≤ j ∨ j ≤ 127)) (o % 0x20 / 8) v ((s.regions[r]).getLsbD j) j) ∧
        (0x80000 ≤ o → o < 0xA0000 →
          let p : Fin 2 := Fin.ofNat 2 ((o - 0x80000) / 0x10000)
          let u := o % 0x10000
          ∃ s', exec i s = .next s' ∧ s' = { b with ports := s'.ports } ∧ (∀ q, q ≠ p → portOf s' q = portOf b q) ∧
            let x := portOf b p
            let y := portOf s' p
            (u = 0 → y = { x with cfg := y.cfg } ∧ ∀ j, j < 64 → y.cfg.getLsbD j =
              bitAfter (fun j => decide (j = 63 ∨ j ≤ 11)) 0 v (x.cfg.getLsbD j) j) ∧
            (u = 8 → y = { x with loadFb := v }) ∧
            (0x100 ≤ u → u ≤ 0x300 → y = { x with buckets := y.buckets } ∧ ∀ g : Fin 65, bucketOf s' p g =
              if g.val = (u - 0x100) / 8 then { bucketOf b p g with pair := v } else bucketOf b p g) ∧
            (0x1000 ≤ u → u < 0x1200 → y = { x with windows := y.windows } ∧ ∀ w : Fin 16, ∀ j, j < 256 → (y.windows[w]).getLsbD j =
              if w.val = (u - 0x1000) / 0x20 then bitAfter (fun j => decide (j = 255 ∨ (240 ≤ j ∧ j ≤ 245) ∨ (128 ≤ j ∧ j ≤ 191) ∨
                (64 ≤ j ∧ j ≤ 91) ∨ j ≤ 43)) (u / 8 % 4) v ((x.windows[w]).getLsbD j) j else (x.windows[w]).getLsbD j) ∧
            ((0x10 ≤ u ∧ u < 0x100) ∨ (0x308 ≤ u ∧ u < 0x1000) ∨ 0x1200 ≤ u → y = x)) ∧
        (0xA0000 ≤ o → o < 0xA8000 → o % 0x20 = 0 →
          let q : QueueId := ⟨Fin.ofNat 64 ((o - 0xA0000) / 0x200), Fin.ofNat 16 ((o - 0xA0000) / 0x20)⟩
          exec i s = .next (writeQcfg b q (v.getLsbD 63) (v.extractLsb' 0 11).toNat) ∧
          ((queueOf s q).enable = false → v.getLsbD 63 = false → ∃ s', exec i s = .next s' ∧
            QueueBecomes b s' q { queueOf s q with err := 0, ctx := (v.extractLsb' 0 11).toNat })) ∧
        (0xB0000 ≤ o → o < 0xB0060 → ∃ s', exec i s = .next s' ∧ s' = { b with latbnd := s'.latbnd } ∧
          let p : Fin 12 := Fin.ofNat 12 ((o - 0xB0000) / 8)
          (∀ u, u ≠ p → s'.latbnd[u] = s.latbnd[u]) ∧
          ∀ j, j < 64 → (s'.latbnd[p]).getLsbD j = bitAfter (fun j => decide (j = 63 ∨ j ≤ 19)) 0 v ((s.latbnd[p]).getLsbD j) j) ∧
        (0x100000 ≤ o → o < 0x104000 → ∃ s', exec i s = .next s' ∧ s' = { b with route := s'.route } ∧
          let e := (o - 0x100000) / 4
          let kept (j : Nat) : Bool := decide (j = 31 ∨ j ≤ 6)
          (∀ j, j < 32 → ((tget s'.route e).getD 0).getLsbD j = (kept j && v.getLsbD j)) ∧
          (∀ j, j < 32 → ((tget s'.route (e + 1)).getD 0).getLsbD j = (kept j && v.getLsbD (32 + j))) ∧
          ∀ k, k ≠ e → k ≠ e + 1 → tget s'.route k = tget s.route k) ∧
        (o = 0x104000 → exec i s = .next { b with linkFail := s.linkFail &&& ~~~(v.setWidth 32) })))

/-! ### Invariants -/

/-- Every step keeps the memory in its canonical form, the table of threads without a thread twice, and the table of gangs without a gang
twice. -/
def Obligations.StepKeepsMemoryAndThreads : Prop :=
  ∀ s s' : State, Memory.wf s.mem = true ∧ KeysOnce s → step s = .next s' → Memory.wf s'.mem = true ∧ KeysOnce s'

/-- The state after reset has its memory in canonical form, lists nothing in it, and names no thread and no gang twice. -/
def Obligations.ResetHasTheInvariant : Prop :=
  Memory.wf State.reset.mem = true ∧ State.reset.mem = [] ∧ KeysOnce State.reset ∧ NoStepDue State.reset
end

