-- ==== Sys2Proof/Laws/Alu.lean ====
section
/-! SUPPORT. The integer values of a word's low bits and the high halves of R113, as bit vectors. -/

namespace Sys2Proof.Machine

theorem widthBits_pos (w : Width) : 0 < widthBits w := by cases w <;> decide

theorem widthBits_le (w : Width) : widthBits w ≤ 64 := by cases w <;> decide

theorem zval_eq (n : Nat) (x : Word) : zval n x = (x.setWidth n).toNat := by
  simp [zval, BitVec.toNat_setWidth]

theorem sval_eq {n : Nat} (h : 0 < n) (x : Word) : sval n x = (x.setWidth n).toInt := by
  obtain ⟨m, rfl⟩ : ∃ m, n = m + 1 := ⟨n - 1, by omega⟩
  simp only [sval, BitVec.toInt_eq_toNat_cond, BitVec.toNat_setWidth, Nat.add_sub_cancel, pow_succ]
  split <;> split <;> first | rfl | omega

theorem zext_eq {n : Nat} (v : Int) : zext n v = (BitVec.ofInt n v).setWidth 64 := by
  apply BitVec.eq_of_toNat_eq
  simp only [zext, BitVec.toNat_ofNat, BitVec.toNat_setWidth, BitVec.toNat_ofInt]

theorem sext_eq {n : Nat} (h0 : 0 < n) (h : n ≤ 64) (v : Int) : sext n v = (BitVec.ofInt n v).signExtend 64 := by
  rw [sext, sval_eq h0, zext_eq, BitVec.setWidth_setWidth_of_le _ h, BitVec.setWidth_eq]
  rfl

end Sys2Proof.Machine
end

