-- ==== Sys2Proof/Laws/State.lean ====
section
/-! SUPPORT. What each named update of the state leaves alone: one lemma for each update and field. -/

namespace Sys2Proof.Machine

/-! ### setCore -/

@[simp] theorem setCore_agenda (s : State) (c : CoreId) (k : Core) : (setCore s c k).agenda = s.agenda := rfl
@[simp] theorem setCore_moveCount (s : State) (c : CoreId) (k : Core) : (setCore s c k).moveCount = s.moveCount := rfl
@[simp] theorem setCore_freeCount (s : State) (c : CoreId) (k : Core) : (setCore s c k).freeCount = s.freeCount := rfl
@[simp] theorem setCore_focus (s : State) (c : CoreId) (k : Core) : (setCore s c k).focus = s.focus := rfl
@[simp] theorem setCore_seq (s : State) (c : CoreId) (k : Core) : (setCore s c k).seq = s.seq := rfl
@[simp] theorem setCore_clock (s : State) (c : CoreId) (k : Core) : (setCore s c k).clock = s.clock := rfl
@[simp] theorem setCore_mem (s : State) (c : CoreId) (k : Core) : (setCore s c k).mem = s.mem := rfl
@[simp] theorem setCore_pools (s : State) (c : CoreId) (k : Core) : (setCore s c k).pools = s.pools := rfl
@[simp] theorem setCore_boot (s : State) (c : CoreId) (k : Core) : (setCore s c k).boot = s.boot := rfl
@[simp] theorem setCore_dies (s : State) (c : CoreId) (k : Core) : (setCore s c k).dies = s.dies := rfl
@[simp] theorem setCore_slots (s : State) (c : CoreId) (k : Core) : (setCore s c k).slots = s.slots := rfl
@[simp] theorem setCore_groups (s : State) (c : CoreId) (k : Core) : (setCore s c k).groups = s.groups := rfl
@[simp] theorem setCore_warps (s : State) (c : CoreId) (k : Core) : (setCore s c k).warps = s.warps := rfl
@[simp] theorem setCore_threads (s : State) (c : CoreId) (k : Core) : (setCore s c k).threads = s.threads := rfl
@[simp] theorem setCore_ops (s : State) (c : CoreId) (k : Core) : (setCore s c k).ops = s.ops := rfl
@[simp] theorem setCore_banks (s : State) (c : CoreId) (k : Core) : (setCore s c k).banks = s.banks := rfl
@[simp] theorem setCore_watches (s : State) (c : CoreId) (k : Core) : (setCore s c k).watches = s.watches := rfl
@[simp] theorem setCore_homeWatches (s : State) (c : CoreId) (k : Core) : (setCore s c k).homeWatches = s.homeWatches := rfl
@[simp] theorem setCore_engs (s : State) (c : CoreId) (k : Core) : (setCore s c k).engs = s.engs := rfl
@[simp] theorem setCore_packets (s : State) (c : CoreId) (k : Core) : (setCore s c k).packets = s.packets := rfl
@[simp] theorem setCore_endNotes (s : State) (c : CoreId) (k : Core) : (setCore s c k).endNotes = s.endNotes := rfl
@[simp] theorem setCore_contexts (s : State) (c : CoreId) (k : Core) : (setCore s c k).contexts = s.contexts := rfl
@[simp] theorem setCore_tenants (s : State) (c : CoreId) (k : Core) : (setCore s c k).tenants = s.tenants := rfl
@[simp] theorem setCore_queues (s : State) (c : CoreId) (k : Core) : (setCore s c k).queues = s.queues := rfl
@[simp] theorem setCore_gangs (s : State) (c : CoreId) (k : Core) : (setCore s c k).gangs = s.gangs := rfl
@[simp] theorem setCore_latbnd (s : State) (c : CoreId) (k : Core) : (setCore s c k).latbnd = s.latbnd := rfl
@[simp] theorem setCore_rotation (s : State) (c : CoreId) (k : Core) : (setCore s c k).rotation = s.rotation := rfl
@[simp] theorem setCore_nextPoll (s : State) (c : CoreId) (k : Core) : (setCore s c k).nextPoll = s.nextPoll := rfl
@[simp] theorem setCore_requests (s : State) (c : CoreId) (k : Core) : (setCore s c k).requests = s.requests := rfl
@[simp] theorem setCore_lastC0 (s : State) (c : CoreId) (k : Core) : (setCore s c k).lastC0 = s.lastC0 := rfl
@[simp] theorem setCore_dramBanks (s : State) (c : CoreId) (k : Core) : (setCore s c k).dramBanks = s.dramBanks := rfl
@[simp] theorem setCore_phases (s : State) (c : CoreId) (k : Core) : (setCore s c k).phases = s.phases := rfl
@[simp] theorem setCore_misses (s : State) (c : CoreId) (k : Core) : (setCore s c k).misses = s.misses := rfl
@[simp] theorem setCore_ports (s : State) (c : CoreId) (k : Core) : (setCore s c k).ports = s.ports := rfl
@[simp] theorem setCore_regions (s : State) (c : CoreId) (k : Core) : (setCore s c k).regions = s.regions := rfl
@[simp] theorem setCore_route (s : State) (c : CoreId) (k : Core) : (setCore s c k).route = s.route := rfl
@[simp] theorem setCore_linkFail (s : State) (c : CoreId) (k : Core) : (setCore s c k).linkFail = s.linkFail := rfl
@[simp] theorem setCore_arrivals (s : State) (c : CoreId) (k : Core) : (setCore s c k).arrivals = s.arrivals := rfl
@[simp] theorem setCore_idleCredit (s : State) (c : CoreId) (k : Core) : (setCore s c k).idleCredit = s.idleCredit := rfl
@[simp] theorem setCore_farPorts (s : State) (c : CoreId) (k : Core) : (setCore s c k).farPorts = s.farPorts := rfl
@[simp] theorem setCore_hostReads (s : State) (c : CoreId) (k : Core) : (setCore s c k).hostReads = s.hostReads := rfl
@[simp] theorem setCore_hostWrites (s : State) (c : CoreId) (k : Core) : (setCore s c k).hostWrites = s.hostWrites := rfl
@[simp] theorem setCore_linkDown (s : State) (c : CoreId) (k : Core) : (setCore s c k).linkDown = s.linkDown := rfl
@[simp] theorem setCore_msix (s : State) (c : CoreId) (k : Core) : (setCore s c k).msix = s.msix := rfl
@[simp] theorem setCore_notes (s : State) (c : CoreId) (k : Core) : (setCore s c k).notes = s.notes := rfl
@[simp] theorem setCore_sent (s : State) (c : CoreId) (k : Core) : (setCore s c k).sent = s.sent := rfl

/-! ### modCore -/

@[simp] theorem modCore_agenda (s : State) (c : CoreId) (f : Core → Core) : (modCore s c f).agenda = s.agenda := rfl
@[simp] theorem modCore_moveCount (s : State) (c : CoreId) (f : Core → Core) : (modCore s c f).moveCount = s.moveCount := rfl
@[simp] theorem modCore_freeCount (s : State) (c : CoreId) (f : Core → Core) : (modCore s c f).freeCount = s.freeCount := rfl
@[simp] theorem modCore_focus (s : State) (c : CoreId) (f : Core → Core) : (modCore s c f).focus = s.focus := rfl
@[simp] theorem modCore_seq (s : State) (c : CoreId) (f : Core → Core) : (modCore s c f).seq = s.seq := rfl
@[simp] theorem modCore_clock (s : State) (c : CoreId) (f : Core → Core) : (modCore s c f).clock = s.clock := rfl
@[simp] theorem modCore_mem (s : State) (c : CoreId) (f : Core → Core) : (modCore s c f).mem = s.mem := rfl
@[simp] theorem modCore_pools (s : State) (c : CoreId) (f : Core → Core) : (modCore s c f).pools = s.pools := rfl
@[simp] theorem modCore_boot (s : State) (c : CoreId) (f : Core → Core) : (modCore s c f).boot = s.boot := rfl
@[simp] theorem modCore_dies (s : State) (c : CoreId) (f : Core → Core) : (modCore s c f).dies = s.dies := rfl
@[simp] theorem modCore_slots (s : State) (c : CoreId) (f : Core → Core) : (modCore s c f).slots = s.slots := rfl
@[simp] theorem modCore_groups (s : State) (c : CoreId) (f : Core → Core) : (modCore s c f).groups = s.groups := rfl
@[simp] theorem modCore_warps (s : State) (c : CoreId) (f : Core → Core) : (modCore s c f).warps = s.warps := rfl
@[simp] theorem modCore_threads (s : State) (c : CoreId) (f : Core → Core) : (modCore s c f).threads = s.threads := rfl
@[simp] theorem modCore_ops (s : State) (c : CoreId) (f : Core → Core) : (modCore s c f).ops = s.ops := rfl
@[simp] theorem modCore_banks (s : State) (c : CoreId) (f : Core → Core) : (modCore s c f).banks = s.banks := rfl
@[simp] theorem modCore_watches (s : State) (c : CoreId) (f : Core → Core) : (modCore s c f).watches = s.watches := rfl
@[simp] theorem modCore_homeWatches (s : State) (c : CoreId) (f : Core → Core) : (modCore s c f).homeWatches = s.homeWatches := rfl
@[simp] theorem modCore_engs (s : State) (c : CoreId) (f : Core → Core) : (modCore s c f).engs = s.engs := rfl
@[simp] theorem modCore_packets (s : State) (c : CoreId) (f : Core → Core) : (modCore s c f).packets = s.packets := rfl
@[simp] theorem modCore_endNotes (s : State) (c : CoreId) (f : Core → Core) : (modCore s c f).endNotes = s.endNotes := rfl
@[simp] theorem modCore_contexts (s : State) (c : CoreId) (f : Core → Core) : (modCore s c f).contexts = s.contexts := rfl
@[simp] theorem modCore_tenants (s : State) (c : CoreId) (f : Core → Core) : (modCore s c f).tenants = s.tenants := rfl
@[simp] theorem modCore_queues (s : State) (c : CoreId) (f : Core → Core) : (modCore s c f).queues = s.queues := rfl
@[simp] theorem modCore_gangs (s : State) (c : CoreId) (f : Core → Core) : (modCore s c f).gangs = s.gangs := rfl
@[simp] theorem modCore_latbnd (s : State) (c : CoreId) (f : Core → Core) : (modCore s c f).latbnd = s.latbnd := rfl
@[simp] theorem modCore_rotation (s : State) (c : CoreId) (f : Core → Core) : (modCore s c f).rotation = s.rotation := rfl
@[simp] theorem modCore_nextPoll (s : State) (c : CoreId) (f : Core → Core) : (modCore s c f).nextPoll = s.nextPoll := rfl
@[simp] theorem modCore_requests (s : State) (c : CoreId) (f : Core → Core) : (modCore s c f).requests = s.requests := rfl
@[simp] theorem modCore_lastC0 (s : State) (c : CoreId) (f : Core → Core) : (modCore s c f).lastC0 = s.lastC0 := rfl
@[simp] theorem modCore_dramBanks (s : State) (c : CoreId) (f : Core → Core) : (modCore s c f).dramBanks = s.dramBanks := rfl
@[simp] theorem modCore_phases (s : State) (c : CoreId) (f : Core → Core) : (modCore s c f).phases = s.phases := rfl
@[simp] theorem modCore_misses (s : State) (c : CoreId) (f : Core → Core) : (modCore s c f).misses = s.misses := rfl
@[simp] theorem modCore_ports (s : State) (c : CoreId) (f : Core → Core) : (modCore s c f).ports = s.ports := rfl
@[simp] theorem modCore_regions (s : State) (c : CoreId) (f : Core → Core) : (modCore s c f).regions = s.regions := rfl
@[simp] theorem modCore_route (s : State) (c : CoreId) (f : Core → Core) : (modCore s c f).route = s.route := rfl
@[simp] theorem modCore_linkFail (s : State) (c : CoreId) (f : Core → Core) : (modCore s c f).linkFail = s.linkFail := rfl
@[simp] theorem modCore_arrivals (s : State) (c : CoreId) (f : Core → Core) : (modCore s c f).arrivals = s.arrivals := rfl
@[simp] theorem modCore_idleCredit (s : State) (c : CoreId) (f : Core → Core) : (modCore s c f).idleCredit = s.idleCredit := rfl
@[simp] theorem modCore_farPorts (s : State) (c : CoreId) (f : Core → Core) : (modCore s c f).farPorts = s.farPorts := rfl
@[simp] theorem modCore_hostReads (s : State) (c : CoreId) (f : Core → Core) : (modCore s c f).hostReads = s.hostReads := rfl
@[simp] theorem modCore_hostWrites (s : State) (c : CoreId) (f : Core → Core) : (modCore s c f).hostWrites = s.hostWrites := rfl
@[simp] theorem modCore_linkDown (s : State) (c : CoreId) (f : Core → Core) : (modCore s c f).linkDown = s.linkDown := rfl
@[simp] theorem modCore_msix (s : State) (c : CoreId) (f : Core → Core) : (modCore s c f).msix = s.msix := rfl
@[simp] theorem modCore_notes (s : State) (c : CoreId) (f : Core → Core) : (modCore s c f).notes = s.notes := rfl
@[simp] theorem modCore_sent (s : State) (c : CoreId) (f : Core → Core) : (modCore s c f).sent = s.sent := rfl

/-! ### modSlot -/

@[simp] theorem modSlot_agenda (s : State) (c : CoreId) (i : Fin 64) (f : Slot → Slot) : (modSlot s c i f).agenda = s.agenda := rfl
@[simp] theorem modSlot_moveCount (s : State) (c : CoreId) (i : Fin 64) (f : Slot → Slot) : (modSlot s c i f).moveCount = s.moveCount := rfl
@[simp] theorem modSlot_freeCount (s : State) (c : CoreId) (i : Fin 64) (f : Slot → Slot) : (modSlot s c i f).freeCount = s.freeCount := rfl
@[simp] theorem modSlot_focus (s : State) (c : CoreId) (i : Fin 64) (f : Slot → Slot) : (modSlot s c i f).focus = s.focus := rfl
@[simp] theorem modSlot_seq (s : State) (c : CoreId) (i : Fin 64) (f : Slot → Slot) : (modSlot s c i f).seq = s.seq := rfl
@[simp] theorem modSlot_clock (s : State) (c : CoreId) (i : Fin 64) (f : Slot → Slot) : (modSlot s c i f).clock = s.clock := rfl
@[simp] theorem modSlot_mem (s : State) (c : CoreId) (i : Fin 64) (f : Slot → Slot) : (modSlot s c i f).mem = s.mem := rfl
@[simp] theorem modSlot_pools (s : State) (c : CoreId) (i : Fin 64) (f : Slot → Slot) : (modSlot s c i f).pools = s.pools := rfl
@[simp] theorem modSlot_boot (s : State) (c : CoreId) (i : Fin 64) (f : Slot → Slot) : (modSlot s c i f).boot = s.boot := rfl
@[simp] theorem modSlot_dies (s : State) (c : CoreId) (i : Fin 64) (f : Slot → Slot) : (modSlot s c i f).dies = s.dies := rfl
@[simp] theorem modSlot_cores (s : State) (c : CoreId) (i : Fin 64) (f : Slot → Slot) : (modSlot s c i f).cores = s.cores := rfl
@[simp] theorem modSlot_groups (s : State) (c : CoreId) (i : Fin 64) (f : Slot → Slot) : (modSlot s c i f).groups = s.groups := rfl
@[simp] theorem modSlot_warps (s : State) (c : CoreId) (i : Fin 64) (f : Slot → Slot) : (modSlot s c i f).warps = s.warps := rfl
@[simp] theorem modSlot_threads (s : State) (c : CoreId) (i : Fin 64) (f : Slot → Slot) : (modSlot s c i f).threads = s.threads := rfl
@[simp] theorem modSlot_ops (s : State) (c : CoreId) (i : Fin 64) (f : Slot → Slot) : (modSlot s c i f).ops = s.ops := rfl
@[simp] theorem modSlot_banks (s : State) (c : CoreId) (i : Fin 64) (f : Slot → Slot) : (modSlot s c i f).banks = s.banks := rfl
@[simp] theorem modSlot_watches (s : State) (c : CoreId) (i : Fin 64) (f : Slot → Slot) : (modSlot s c i f).watches = s.watches := rfl
@[simp] theorem modSlot_homeWatches (s : State) (c : CoreId) (i : Fin 64) (f : Slot → Slot) : (modSlot s c i f).homeWatches = s.homeWatches := rfl
@[simp] theorem modSlot_engs (s : State) (c : CoreId) (i : Fin 64) (f : Slot → Slot) : (modSlot s c i f).engs = s.engs := rfl
@[simp] theorem modSlot_packets (s : State) (c : CoreId) (i : Fin 64) (f : Slot → Slot) : (modSlot s c i f).packets = s.packets := rfl
@[simp] theorem modSlot_endNotes (s : State) (c : CoreId) (i : Fin 64) (f : Slot → Slot) : (modSlot s c i f).endNotes = s.endNotes := rfl
@[simp] theorem modSlot_contexts (s : State) (c : CoreId) (i : Fin 64) (f : Slot → Slot) : (modSlot s c i f).contexts = s.contexts := rfl
@[simp] theorem modSlot_tenants (s : State) (c : CoreId) (i : Fin 64) (f : Slot → Slot) : (modSlot s c i f).tenants = s.tenants := rfl
@[simp] theorem modSlot_queues (s : State) (c : CoreId) (i : Fin 64) (f : Slot → Slot) : (modSlot s c i f).queues = s.queues := rfl
@[simp] theorem modSlot_gangs (s : State) (c : CoreId) (i : Fin 64) (f : Slot → Slot) : (modSlot s c i f).gangs = s.gangs := rfl
@[simp] theorem modSlot_latbnd (s : State) (c : CoreId) (i : Fin 64) (f : Slot → Slot) : (modSlot s c i f).latbnd = s.latbnd := rfl
@[simp] theorem modSlot_rotation (s : State) (c : CoreId) (i : Fin 64) (f : Slot → Slot) : (modSlot s c i f).rotation = s.rotation := rfl
@[simp] theorem modSlot_nextPoll (s : State) (c : CoreId) (i : Fin 64) (f : Slot → Slot) : (modSlot s c i f).nextPoll = s.nextPoll := rfl
@[simp] theorem modSlot_requests (s : State) (c : CoreId) (i : Fin 64) (f : Slot → Slot) : (modSlot s c i f).requests = s.requests := rfl
@[simp] theorem modSlot_lastC0 (s : State) (c : CoreId) (i : Fin 64) (f : Slot → Slot) : (modSlot s c i f).lastC0 = s.lastC0 := rfl
@[simp] theorem modSlot_dramBanks (s : State) (c : CoreId) (i : Fin 64) (f : Slot → Slot) : (modSlot s c i f).dramBanks = s.dramBanks := rfl
@[simp] theorem modSlot_phases (s : State) (c : CoreId) (i : Fin 64) (f : Slot → Slot) : (modSlot s c i f).phases = s.phases := rfl
@[simp] theorem modSlot_misses (s : State) (c : CoreId) (i : Fin 64) (f : Slot → Slot) : (modSlot s c i f).misses = s.misses := rfl
@[simp] theorem modSlot_ports (s : State) (c : CoreId) (i : Fin 64) (f : Slot → Slot) : (modSlot s c i f).ports = s.ports := rfl
@[simp] theorem modSlot_regions (s : State) (c : CoreId) (i : Fin 64) (f : Slot → Slot) : (modSlot s c i f).regions = s.regions := rfl
@[simp] theorem modSlot_route (s : State) (c : CoreId) (i : Fin 64) (f : Slot → Slot) : (modSlot s c i f).route = s.route := rfl
@[simp] theorem modSlot_linkFail (s : State) (c : CoreId) (i : Fin 64) (f : Slot → Slot) : (modSlot s c i f).linkFail = s.linkFail := rfl
@[simp] theorem modSlot_arrivals (s : State) (c : CoreId) (i : Fin 64) (f : Slot → Slot) : (modSlot s c i f).arrivals = s.arrivals := rfl
@[simp] theorem modSlot_idleCredit (s : State) (c : CoreId) (i : Fin 64) (f : Slot → Slot) : (modSlot s c i f).idleCredit = s.idleCredit := rfl
@[simp] theorem modSlot_farPorts (s : State) (c : CoreId) (i : Fin 64) (f : Slot → Slot) : (modSlot s c i f).farPorts = s.farPorts := rfl
@[simp] theorem modSlot_hostReads (s : State) (c : CoreId) (i : Fin 64) (f : Slot → Slot) : (modSlot s c i f).hostReads = s.hostReads := rfl
@[simp] theorem modSlot_hostWrites (s : State) (c : CoreId) (i : Fin 64) (f : Slot → Slot) : (modSlot s c i f).hostWrites = s.hostWrites := rfl
@[simp] theorem modSlot_linkDown (s : State) (c : CoreId) (i : Fin 64) (f : Slot → Slot) : (modSlot s c i f).linkDown = s.linkDown := rfl
@[simp] theorem modSlot_msix (s : State) (c : CoreId) (i : Fin 64) (f : Slot → Slot) : (modSlot s c i f).msix = s.msix := rfl
@[simp] theorem modSlot_notes (s : State) (c : CoreId) (i : Fin 64) (f : Slot → Slot) : (modSlot s c i f).notes = s.notes := rfl
@[simp] theorem modSlot_sent (s : State) (c : CoreId) (i : Fin 64) (f : Slot → Slot) : (modSlot s c i f).sent = s.sent := rfl

/-! ### modDie -/

@[simp] theorem modDie_agenda (s : State) (d : Fin 8) (f : Die → Die) : (modDie s d f).agenda = s.agenda := rfl
@[simp] theorem modDie_moveCount (s : State) (d : Fin 8) (f : Die → Die) : (modDie s d f).moveCount = s.moveCount := rfl
@[simp] theorem modDie_freeCount (s : State) (d : Fin 8) (f : Die → Die) : (modDie s d f).freeCount = s.freeCount := rfl
@[simp] theorem modDie_focus (s : State) (d : Fin 8) (f : Die → Die) : (modDie s d f).focus = s.focus := rfl
@[simp] theorem modDie_seq (s : State) (d : Fin 8) (f : Die → Die) : (modDie s d f).seq = s.seq := rfl
@[simp] theorem modDie_clock (s : State) (d : Fin 8) (f : Die → Die) : (modDie s d f).clock = s.clock := rfl
@[simp] theorem modDie_mem (s : State) (d : Fin 8) (f : Die → Die) : (modDie s d f).mem = s.mem := rfl
@[simp] theorem modDie_pools (s : State) (d : Fin 8) (f : Die → Die) : (modDie s d f).pools = s.pools := rfl
@[simp] theorem modDie_boot (s : State) (d : Fin 8) (f : Die → Die) : (modDie s d f).boot = s.boot := rfl
@[simp] theorem modDie_cores (s : State) (d : Fin 8) (f : Die → Die) : (modDie s d f).cores = s.cores := rfl
@[simp] theorem modDie_slots (s : State) (d : Fin 8) (f : Die → Die) : (modDie s d f).slots = s.slots := rfl
@[simp] theorem modDie_groups (s : State) (d : Fin 8) (f : Die → Die) : (modDie s d f).groups = s.groups := rfl
@[simp] theorem modDie_warps (s : State) (d : Fin 8) (f : Die → Die) : (modDie s d f).warps = s.warps := rfl
@[simp] theorem modDie_threads (s : State) (d : Fin 8) (f : Die → Die) : (modDie s d f).threads = s.threads := rfl
@[simp] theorem modDie_ops (s : State) (d : Fin 8) (f : Die → Die) : (modDie s d f).ops = s.ops := rfl
@[simp] theorem modDie_banks (s : State) (d : Fin 8) (f : Die → Die) : (modDie s d f).banks = s.banks := rfl
@[simp] theorem modDie_watches (s : State) (d : Fin 8) (f : Die → Die) : (modDie s d f).watches = s.watches := rfl
@[simp] theorem modDie_homeWatches (s : State) (d : Fin 8) (f : Die → Die) : (modDie s d f).homeWatches = s.homeWatches := rfl
@[simp] theorem modDie_engs (s : State) (d : Fin 8) (f : Die → Die) : (modDie s d f).engs = s.engs := rfl
@[simp] theorem modDie_packets (s : State) (d : Fin 8) (f : Die → Die) : (modDie s d f).packets = s.packets := rfl
@[simp] theorem modDie_endNotes (s : State) (d : Fin 8) (f : Die → Die) : (modDie s d f).endNotes = s.endNotes := rfl
@[simp] theorem modDie_contexts (s : State) (d : Fin 8) (f : Die → Die) : (modDie s d f).contexts = s.contexts := rfl
@[simp] theorem modDie_tenants (s : State) (d : Fin 8) (f : Die → Die) : (modDie s d f).tenants = s.tenants := rfl
@[simp] theorem modDie_queues (s : State) (d : Fin 8) (f : Die → Die) : (modDie s d f).queues = s.queues := rfl
@[simp] theorem modDie_gangs (s : State) (d : Fin 8) (f : Die → Die) : (modDie s d f).gangs = s.gangs := rfl
@[simp] theorem modDie_latbnd (s : State) (d : Fin 8) (f : Die → Die) : (modDie s d f).latbnd = s.latbnd := rfl
@[simp] theorem modDie_rotation (s : State) (d : Fin 8) (f : Die → Die) : (modDie s d f).rotation = s.rotation := rfl
@[simp] theorem modDie_nextPoll (s : State) (d : Fin 8) (f : Die → Die) : (modDie s d f).nextPoll = s.nextPoll := rfl
@[simp] theorem modDie_requests (s : State) (d : Fin 8) (f : Die → Die) : (modDie s d f).requests = s.requests := rfl
@[simp] theorem modDie_lastC0 (s : State) (d : Fin 8) (f : Die → Die) : (modDie s d f).lastC0 = s.lastC0 := rfl
@[simp] theorem modDie_dramBanks (s : State) (d : Fin 8) (f : Die → Die) : (modDie s d f).dramBanks = s.dramBanks := rfl
@[simp] theorem modDie_phases (s : State) (d : Fin 8) (f : Die → Die) : (modDie s d f).phases = s.phases := rfl
@[simp] theorem modDie_misses (s : State) (d : Fin 8) (f : Die → Die) : (modDie s d f).misses = s.misses := rfl
@[simp] theorem modDie_ports (s : State) (d : Fin 8) (f : Die → Die) : (modDie s d f).ports = s.ports := rfl
@[simp] theorem modDie_regions (s : State) (d : Fin 8) (f : Die → Die) : (modDie s d f).regions = s.regions := rfl
@[simp] theorem modDie_route (s : State) (d : Fin 8) (f : Die → Die) : (modDie s d f).route = s.route := rfl
@[simp] theorem modDie_linkFail (s : State) (d : Fin 8) (f : Die → Die) : (modDie s d f).linkFail = s.linkFail := rfl
@[simp] theorem modDie_arrivals (s : State) (d : Fin 8) (f : Die → Die) : (modDie s d f).arrivals = s.arrivals := rfl
@[simp] theorem modDie_idleCredit (s : State) (d : Fin 8) (f : Die → Die) : (modDie s d f).idleCredit = s.idleCredit := rfl
@[simp] theorem modDie_farPorts (s : State) (d : Fin 8) (f : Die → Die) : (modDie s d f).farPorts = s.farPorts := rfl
@[simp] theorem modDie_hostReads (s : State) (d : Fin 8) (f : Die → Die) : (modDie s d f).hostReads = s.hostReads := rfl
@[simp] theorem modDie_hostWrites (s : State) (d : Fin 8) (f : Die → Die) : (modDie s d f).hostWrites = s.hostWrites := rfl
@[simp] theorem modDie_linkDown (s : State) (d : Fin 8) (f : Die → Die) : (modDie s d f).linkDown = s.linkDown := rfl
@[simp] theorem modDie_msix (s : State) (d : Fin 8) (f : Die → Die) : (modDie s d f).msix = s.msix := rfl
@[simp] theorem modDie_notes (s : State) (d : Fin 8) (f : Die → Die) : (modDie s d f).notes = s.notes := rfl
@[simp] theorem modDie_sent (s : State) (d : Fin 8) (f : Die → Die) : (modDie s d f).sent = s.sent := rfl

/-! ### modThread -/

@[simp] theorem modThread_agenda (s : State) (t : ThreadKey) (f : Thread → Thread) : (modThread s t f).agenda = s.agenda := rfl
@[simp] theorem modThread_moveCount (s : State) (t : ThreadKey) (f : Thread → Thread) : (modThread s t f).moveCount = s.moveCount := rfl
@[simp] theorem modThread_freeCount (s : State) (t : ThreadKey) (f : Thread → Thread) : (modThread s t f).freeCount = s.freeCount := rfl
@[simp] theorem modThread_focus (s : State) (t : ThreadKey) (f : Thread → Thread) : (modThread s t f).focus = s.focus := rfl
@[simp] theorem modThread_seq (s : State) (t : ThreadKey) (f : Thread → Thread) : (modThread s t f).seq = s.seq := rfl
@[simp] theorem modThread_clock (s : State) (t : ThreadKey) (f : Thread → Thread) : (modThread s t f).clock = s.clock := rfl
@[simp] theorem modThread_mem (s : State) (t : ThreadKey) (f : Thread → Thread) : (modThread s t f).mem = s.mem := rfl
@[simp] theorem modThread_pools (s : State) (t : ThreadKey) (f : Thread → Thread) : (modThread s t f).pools = s.pools := rfl
@[simp] theorem modThread_boot (s : State) (t : ThreadKey) (f : Thread → Thread) : (modThread s t f).boot = s.boot := rfl
@[simp] theorem modThread_dies (s : State) (t : ThreadKey) (f : Thread → Thread) : (modThread s t f).dies = s.dies := rfl
@[simp] theorem modThread_cores (s : State) (t : ThreadKey) (f : Thread → Thread) : (modThread s t f).cores = s.cores := rfl
@[simp] theorem modThread_slots (s : State) (t : ThreadKey) (f : Thread → Thread) : (modThread s t f).slots = s.slots := rfl
@[simp] theorem modThread_groups (s : State) (t : ThreadKey) (f : Thread → Thread) : (modThread s t f).groups = s.groups := rfl
@[simp] theorem modThread_warps (s : State) (t : ThreadKey) (f : Thread → Thread) : (modThread s t f).warps = s.warps := rfl
@[simp] theorem modThread_ops (s : State) (t : ThreadKey) (f : Thread → Thread) : (modThread s t f).ops = s.ops := rfl
@[simp] theorem modThread_banks (s : State) (t : ThreadKey) (f : Thread → Thread) : (modThread s t f).banks = s.banks := rfl
@[simp] theorem modThread_watches (s : State) (t : ThreadKey) (f : Thread → Thread) : (modThread s t f).watches = s.watches := rfl
@[simp] theorem modThread_homeWatches (s : State) (t : ThreadKey) (f : Thread → Thread) : (modThread s t f).homeWatches = s.homeWatches := rfl
@[simp] theorem modThread_engs (s : State) (t : ThreadKey) (f : Thread → Thread) : (modThread s t f).engs = s.engs := rfl
@[simp] theorem modThread_packets (s : State) (t : ThreadKey) (f : Thread → Thread) : (modThread s t f).packets = s.packets := rfl
@[simp] theorem modThread_endNotes (s : State) (t : ThreadKey) (f : Thread → Thread) : (modThread s t f).endNotes = s.endNotes := rfl
@[simp] theorem modThread_contexts (s : State) (t : ThreadKey) (f : Thread → Thread) : (modThread s t f).contexts = s.contexts := rfl
@[simp] theorem modThread_tenants (s : State) (t : ThreadKey) (f : Thread → Thread) : (modThread s t f).tenants = s.tenants := rfl
@[simp] theorem modThread_queues (s : State) (t : ThreadKey) (f : Thread → Thread) : (modThread s t f).queues = s.queues := rfl
@[simp] theorem modThread_gangs (s : State) (t : ThreadKey) (f : Thread → Thread) : (modThread s t f).gangs = s.gangs := rfl
@[simp] theorem modThread_latbnd (s : State) (t : ThreadKey) (f : Thread → Thread) : (modThread s t f).latbnd = s.latbnd := rfl
@[simp] theorem modThread_rotation (s : State) (t : ThreadKey) (f : Thread → Thread) : (modThread s t f).rotation = s.rotation := rfl
@[simp] theorem modThread_nextPoll (s : State) (t : ThreadKey) (f : Thread → Thread) : (modThread s t f).nextPoll = s.nextPoll := rfl
@[simp] theorem modThread_requests (s : State) (t : ThreadKey) (f : Thread → Thread) : (modThread s t f).requests = s.requests := rfl
@[simp] theorem modThread_lastC0 (s : State) (t : ThreadKey) (f : Thread → Thread) : (modThread s t f).lastC0 = s.lastC0 := rfl
@[simp] theorem modThread_dramBanks (s : State) (t : ThreadKey) (f : Thread → Thread) : (modThread s t f).dramBanks = s.dramBanks := rfl
@[simp] theorem modThread_phases (s : State) (t : ThreadKey) (f : Thread → Thread) : (modThread s t f).phases = s.phases := rfl
@[simp] theorem modThread_misses (s : State) (t : ThreadKey) (f : Thread → Thread) : (modThread s t f).misses = s.misses := rfl
@[simp] theorem modThread_ports (s : State) (t : ThreadKey) (f : Thread → Thread) : (modThread s t f).ports = s.ports := rfl
@[simp] theorem modThread_regions (s : State) (t : ThreadKey) (f : Thread → Thread) : (modThread s t f).regions = s.regions := rfl
@[simp] theorem modThread_route (s : State) (t : ThreadKey) (f : Thread → Thread) : (modThread s t f).route = s.route := rfl
@[simp] theorem modThread_linkFail (s : State) (t : ThreadKey) (f : Thread → Thread) : (modThread s t f).linkFail = s.linkFail := rfl
@[simp] theorem modThread_arrivals (s : State) (t : ThreadKey) (f : Thread → Thread) : (modThread s t f).arrivals = s.arrivals := rfl
@[simp] theorem modThread_idleCredit (s : State) (t : ThreadKey) (f : Thread → Thread) : (modThread s t f).idleCredit = s.idleCredit := rfl
@[simp] theorem modThread_farPorts (s : State) (t : ThreadKey) (f : Thread → Thread) : (modThread s t f).farPorts = s.farPorts := rfl
@[simp] theorem modThread_hostReads (s : State) (t : ThreadKey) (f : Thread → Thread) : (modThread s t f).hostReads = s.hostReads := rfl
@[simp] theorem modThread_hostWrites (s : State) (t : ThreadKey) (f : Thread → Thread) : (modThread s t f).hostWrites = s.hostWrites := rfl
@[simp] theorem modThread_linkDown (s : State) (t : ThreadKey) (f : Thread → Thread) : (modThread s t f).linkDown = s.linkDown := rfl
@[simp] theorem modThread_msix (s : State) (t : ThreadKey) (f : Thread → Thread) : (modThread s t f).msix = s.msix := rfl
@[simp] theorem modThread_notes (s : State) (t : ThreadKey) (f : Thread → Thread) : (modThread s t f).notes = s.notes := rfl
@[simp] theorem modThread_sent (s : State) (t : ThreadKey) (f : Thread → Thread) : (modThread s t f).sent = s.sent := rfl

/-! ### modGroup -/

@[simp] theorem modGroup_agenda (s : State) (g : Nat) (f : Group → Group) : (modGroup s g f).agenda = s.agenda := rfl
@[simp] theorem modGroup_moveCount (s : State) (g : Nat) (f : Group → Group) : (modGroup s g f).moveCount = s.moveCount := rfl
@[simp] theorem modGroup_freeCount (s : State) (g : Nat) (f : Group → Group) : (modGroup s g f).freeCount = s.freeCount := rfl
@[simp] theorem modGroup_focus (s : State) (g : Nat) (f : Group → Group) : (modGroup s g f).focus = s.focus := rfl
@[simp] theorem modGroup_seq (s : State) (g : Nat) (f : Group → Group) : (modGroup s g f).seq = s.seq := rfl
@[simp] theorem modGroup_clock (s : State) (g : Nat) (f : Group → Group) : (modGroup s g f).clock = s.clock := rfl
@[simp] theorem modGroup_mem (s : State) (g : Nat) (f : Group → Group) : (modGroup s g f).mem = s.mem := rfl
@[simp] theorem modGroup_pools (s : State) (g : Nat) (f : Group → Group) : (modGroup s g f).pools = s.pools := rfl
@[simp] theorem modGroup_boot (s : State) (g : Nat) (f : Group → Group) : (modGroup s g f).boot = s.boot := rfl
@[simp] theorem modGroup_dies (s : State) (g : Nat) (f : Group → Group) : (modGroup s g f).dies = s.dies := rfl
@[simp] theorem modGroup_cores (s : State) (g : Nat) (f : Group → Group) : (modGroup s g f).cores = s.cores := rfl
@[simp] theorem modGroup_slots (s : State) (g : Nat) (f : Group → Group) : (modGroup s g f).slots = s.slots := rfl
@[simp] theorem modGroup_warps (s : State) (g : Nat) (f : Group → Group) : (modGroup s g f).warps = s.warps := rfl
@[simp] theorem modGroup_threads (s : State) (g : Nat) (f : Group → Group) : (modGroup s g f).threads = s.threads := rfl
@[simp] theorem modGroup_ops (s : State) (g : Nat) (f : Group → Group) : (modGroup s g f).ops = s.ops := rfl
@[simp] theorem modGroup_banks (s : State) (g : Nat) (f : Group → Group) : (modGroup s g f).banks = s.banks := rfl
@[simp] theorem modGroup_watches (s : State) (g : Nat) (f : Group → Group) : (modGroup s g f).watches = s.watches := rfl
@[simp] theorem modGroup_homeWatches (s : State) (g : Nat) (f : Group → Group) : (modGroup s g f).homeWatches = s.homeWatches := rfl
@[simp] theorem modGroup_engs (s : State) (g : Nat) (f : Group → Group) : (modGroup s g f).engs = s.engs := rfl
@[simp] theorem modGroup_packets (s : State) (g : Nat) (f : Group → Group) : (modGroup s g f).packets = s.packets := rfl
@[simp] theorem modGroup_endNotes (s : State) (g : Nat) (f : Group → Group) : (modGroup s g f).endNotes = s.endNotes := rfl
@[simp] theorem modGroup_contexts (s : State) (g : Nat) (f : Group → Group) : (modGroup s g f).contexts = s.contexts := rfl
@[simp] theorem modGroup_tenants (s : State) (g : Nat) (f : Group → Group) : (modGroup s g f).tenants = s.tenants := rfl
@[simp] theorem modGroup_queues (s : State) (g : Nat) (f : Group → Group) : (modGroup s g f).queues = s.queues := rfl
@[simp] theorem modGroup_gangs (s : State) (g : Nat) (f : Group → Group) : (modGroup s g f).gangs = s.gangs := rfl
@[simp] theorem modGroup_latbnd (s : State) (g : Nat) (f : Group → Group) : (modGroup s g f).latbnd = s.latbnd := rfl
@[simp] theorem modGroup_rotation (s : State) (g : Nat) (f : Group → Group) : (modGroup s g f).rotation = s.rotation := rfl
@[simp] theorem modGroup_nextPoll (s : State) (g : Nat) (f : Group → Group) : (modGroup s g f).nextPoll = s.nextPoll := rfl
@[simp] theorem modGroup_requests (s : State) (g : Nat) (f : Group → Group) : (modGroup s g f).requests = s.requests := rfl
@[simp] theorem modGroup_lastC0 (s : State) (g : Nat) (f : Group → Group) : (modGroup s g f).lastC0 = s.lastC0 := rfl
@[simp] theorem modGroup_dramBanks (s : State) (g : Nat) (f : Group → Group) : (modGroup s g f).dramBanks = s.dramBanks := rfl
@[simp] theorem modGroup_phases (s : State) (g : Nat) (f : Group → Group) : (modGroup s g f).phases = s.phases := rfl
@[simp] theorem modGroup_misses (s : State) (g : Nat) (f : Group → Group) : (modGroup s g f).misses = s.misses := rfl
@[simp] theorem modGroup_ports (s : State) (g : Nat) (f : Group → Group) : (modGroup s g f).ports = s.ports := rfl
@[simp] theorem modGroup_regions (s : State) (g : Nat) (f : Group → Group) : (modGroup s g f).regions = s.regions := rfl
@[simp] theorem modGroup_route (s : State) (g : Nat) (f : Group → Group) : (modGroup s g f).route = s.route := rfl
@[simp] theorem modGroup_linkFail (s : State) (g : Nat) (f : Group → Group) : (modGroup s g f).linkFail = s.linkFail := rfl
@[simp] theorem modGroup_arrivals (s : State) (g : Nat) (f : Group → Group) : (modGroup s g f).arrivals = s.arrivals := rfl
@[simp] theorem modGroup_idleCredit (s : State) (g : Nat) (f : Group → Group) : (modGroup s g f).idleCredit = s.idleCredit := rfl
@[simp] theorem modGroup_farPorts (s : State) (g : Nat) (f : Group → Group) : (modGroup s g f).farPorts = s.farPorts := rfl
@[simp] theorem modGroup_hostReads (s : State) (g : Nat) (f : Group → Group) : (modGroup s g f).hostReads = s.hostReads := rfl
@[simp] theorem modGroup_hostWrites (s : State) (g : Nat) (f : Group → Group) : (modGroup s g f).hostWrites = s.hostWrites := rfl
@[simp] theorem modGroup_linkDown (s : State) (g : Nat) (f : Group → Group) : (modGroup s g f).linkDown = s.linkDown := rfl
@[simp] theorem modGroup_msix (s : State) (g : Nat) (f : Group → Group) : (modGroup s g f).msix = s.msix := rfl
@[simp] theorem modGroup_notes (s : State) (g : Nat) (f : Group → Group) : (modGroup s g f).notes = s.notes := rfl
@[simp] theorem modGroup_sent (s : State) (g : Nat) (f : Group → Group) : (modGroup s g f).sent = s.sent := rfl

/-! ### modWarp -/

@[simp] theorem modWarp_agenda (s : State) (w : WarpKey) (f : Warp → Warp) : (modWarp s w f).agenda = s.agenda := rfl
@[simp] theorem modWarp_moveCount (s : State) (w : WarpKey) (f : Warp → Warp) : (modWarp s w f).moveCount = s.moveCount := rfl
@[simp] theorem modWarp_freeCount (s : State) (w : WarpKey) (f : Warp → Warp) : (modWarp s w f).freeCount = s.freeCount := rfl
@[simp] theorem modWarp_focus (s : State) (w : WarpKey) (f : Warp → Warp) : (modWarp s w f).focus = s.focus := rfl
@[simp] theorem modWarp_seq (s : State) (w : WarpKey) (f : Warp → Warp) : (modWarp s w f).seq = s.seq := rfl
@[simp] theorem modWarp_clock (s : State) (w : WarpKey) (f : Warp → Warp) : (modWarp s w f).clock = s.clock := rfl
@[simp] theorem modWarp_mem (s : State) (w : WarpKey) (f : Warp → Warp) : (modWarp s w f).mem = s.mem := rfl
@[simp] theorem modWarp_pools (s : State) (w : WarpKey) (f : Warp → Warp) : (modWarp s w f).pools = s.pools := rfl
@[simp] theorem modWarp_boot (s : State) (w : WarpKey) (f : Warp → Warp) : (modWarp s w f).boot = s.boot := rfl
@[simp] theorem modWarp_dies (s : State) (w : WarpKey) (f : Warp → Warp) : (modWarp s w f).dies = s.dies := rfl
@[simp] theorem modWarp_cores (s : State) (w : WarpKey) (f : Warp → Warp) : (modWarp s w f).cores = s.cores := rfl
@[simp] theorem modWarp_slots (s : State) (w : WarpKey) (f : Warp → Warp) : (modWarp s w f).slots = s.slots := rfl
@[simp] theorem modWarp_groups (s : State) (w : WarpKey) (f : Warp → Warp) : (modWarp s w f).groups = s.groups := rfl
@[simp] theorem modWarp_threads (s : State) (w : WarpKey) (f : Warp → Warp) : (modWarp s w f).threads = s.threads := rfl
@[simp] theorem modWarp_ops (s : State) (w : WarpKey) (f : Warp → Warp) : (modWarp s w f).ops = s.ops := rfl
@[simp] theorem modWarp_banks (s : State) (w : WarpKey) (f : Warp → Warp) : (modWarp s w f).banks = s.banks := rfl
@[simp] theorem modWarp_watches (s : State) (w : WarpKey) (f : Warp → Warp) : (modWarp s w f).watches = s.watches := rfl
@[simp] theorem modWarp_homeWatches (s : State) (w : WarpKey) (f : Warp → Warp) : (modWarp s w f).homeWatches = s.homeWatches := rfl
@[simp] theorem modWarp_engs (s : State) (w : WarpKey) (f : Warp → Warp) : (modWarp s w f).engs = s.engs := rfl
@[simp] theorem modWarp_packets (s : State) (w : WarpKey) (f : Warp → Warp) : (modWarp s w f).packets = s.packets := rfl
@[simp] theorem modWarp_endNotes (s : State) (w : WarpKey) (f : Warp → Warp) : (modWarp s w f).endNotes = s.endNotes := rfl
@[simp] theorem modWarp_contexts (s : State) (w : WarpKey) (f : Warp → Warp) : (modWarp s w f).contexts = s.contexts := rfl
@[simp] theorem modWarp_tenants (s : State) (w : WarpKey) (f : Warp → Warp) : (modWarp s w f).tenants = s.tenants := rfl
@[simp] theorem modWarp_queues (s : State) (w : WarpKey) (f : Warp → Warp) : (modWarp s w f).queues = s.queues := rfl
@[simp] theorem modWarp_gangs (s : State) (w : WarpKey) (f : Warp → Warp) : (modWarp s w f).gangs = s.gangs := rfl
@[simp] theorem modWarp_latbnd (s : State) (w : WarpKey) (f : Warp → Warp) : (modWarp s w f).latbnd = s.latbnd := rfl
@[simp] theorem modWarp_rotation (s : State) (w : WarpKey) (f : Warp → Warp) : (modWarp s w f).rotation = s.rotation := rfl
@[simp] theorem modWarp_nextPoll (s : State) (w : WarpKey) (f : Warp → Warp) : (modWarp s w f).nextPoll = s.nextPoll := rfl
@[simp] theorem modWarp_requests (s : State) (w : WarpKey) (f : Warp → Warp) : (modWarp s w f).requests = s.requests := rfl
@[simp] theorem modWarp_lastC0 (s : State) (w : WarpKey) (f : Warp → Warp) : (modWarp s w f).lastC0 = s.lastC0 := rfl
@[simp] theorem modWarp_dramBanks (s : State) (w : WarpKey) (f : Warp → Warp) : (modWarp s w f).dramBanks = s.dramBanks := rfl
@[simp] theorem modWarp_phases (s : State) (w : WarpKey) (f : Warp → Warp) : (modWarp s w f).phases = s.phases := rfl
@[simp] theorem modWarp_misses (s : State) (w : WarpKey) (f : Warp → Warp) : (modWarp s w f).misses = s.misses := rfl
@[simp] theorem modWarp_ports (s : State) (w : WarpKey) (f : Warp → Warp) : (modWarp s w f).ports = s.ports := rfl
@[simp] theorem modWarp_regions (s : State) (w : WarpKey) (f : Warp → Warp) : (modWarp s w f).regions = s.regions := rfl
@[simp] theorem modWarp_route (s : State) (w : WarpKey) (f : Warp → Warp) : (modWarp s w f).route = s.route := rfl
@[simp] theorem modWarp_linkFail (s : State) (w : WarpKey) (f : Warp → Warp) : (modWarp s w f).linkFail = s.linkFail := rfl
@[simp] theorem modWarp_arrivals (s : State) (w : WarpKey) (f : Warp → Warp) : (modWarp s w f).arrivals = s.arrivals := rfl
@[simp] theorem modWarp_idleCredit (s : State) (w : WarpKey) (f : Warp → Warp) : (modWarp s w f).idleCredit = s.idleCredit := rfl
@[simp] theorem modWarp_farPorts (s : State) (w : WarpKey) (f : Warp → Warp) : (modWarp s w f).farPorts = s.farPorts := rfl
@[simp] theorem modWarp_hostReads (s : State) (w : WarpKey) (f : Warp → Warp) : (modWarp s w f).hostReads = s.hostReads := rfl
@[simp] theorem modWarp_hostWrites (s : State) (w : WarpKey) (f : Warp → Warp) : (modWarp s w f).hostWrites = s.hostWrites := rfl
@[simp] theorem modWarp_linkDown (s : State) (w : WarpKey) (f : Warp → Warp) : (modWarp s w f).linkDown = s.linkDown := rfl
@[simp] theorem modWarp_msix (s : State) (w : WarpKey) (f : Warp → Warp) : (modWarp s w f).msix = s.msix := rfl
@[simp] theorem modWarp_notes (s : State) (w : WarpKey) (f : Warp → Warp) : (modWarp s w f).notes = s.notes := rfl
@[simp] theorem modWarp_sent (s : State) (w : WarpKey) (f : Warp → Warp) : (modWarp s w f).sent = s.sent := rfl

/-! ### modCtx -/

@[simp] theorem modCtx_agenda (s : State) (c : Nat) (f : Context → Context) : (modCtx s c f).agenda = s.agenda := rfl
@[simp] theorem modCtx_moveCount (s : State) (c : Nat) (f : Context → Context) : (modCtx s c f).moveCount = s.moveCount := rfl
@[simp] theorem modCtx_freeCount (s : State) (c : Nat) (f : Context → Context) : (modCtx s c f).freeCount = s.freeCount := rfl
@[simp] theorem modCtx_focus (s : State) (c : Nat) (f : Context → Context) : (modCtx s c f).focus = s.focus := rfl
@[simp] theorem modCtx_seq (s : State) (c : Nat) (f : Context → Context) : (modCtx s c f).seq = s.seq := rfl
@[simp] theorem modCtx_clock (s : State) (c : Nat) (f : Context → Context) : (modCtx s c f).clock = s.clock := rfl
@[simp] theorem modCtx_mem (s : State) (c : Nat) (f : Context → Context) : (modCtx s c f).mem = s.mem := rfl
@[simp] theorem modCtx_pools (s : State) (c : Nat) (f : Context → Context) : (modCtx s c f).pools = s.pools := rfl
@[simp] theorem modCtx_boot (s : State) (c : Nat) (f : Context → Context) : (modCtx s c f).boot = s.boot := rfl
@[simp] theorem modCtx_dies (s : State) (c : Nat) (f : Context → Context) : (modCtx s c f).dies = s.dies := rfl
@[simp] theorem modCtx_cores (s : State) (c : Nat) (f : Context → Context) : (modCtx s c f).cores = s.cores := rfl
@[simp] theorem modCtx_slots (s : State) (c : Nat) (f : Context → Context) : (modCtx s c f).slots = s.slots := rfl
@[simp] theorem modCtx_groups (s : State) (c : Nat) (f : Context → Context) : (modCtx s c f).groups = s.groups := rfl
@[simp] theorem modCtx_warps (s : State) (c : Nat) (f : Context → Context) : (modCtx s c f).warps = s.warps := rfl
@[simp] theorem modCtx_threads (s : State) (c : Nat) (f : Context → Context) : (modCtx s c f).threads = s.threads := rfl
@[simp] theorem modCtx_ops (s : State) (c : Nat) (f : Context → Context) : (modCtx s c f).ops = s.ops := rfl
@[simp] theorem modCtx_banks (s : State) (c : Nat) (f : Context → Context) : (modCtx s c f).banks = s.banks := rfl
@[simp] theorem modCtx_watches (s : State) (c : Nat) (f : Context → Context) : (modCtx s c f).watches = s.watches := rfl
@[simp] theorem modCtx_homeWatches (s : State) (c : Nat) (f : Context → Context) : (modCtx s c f).homeWatches = s.homeWatches := rfl
@[simp] theorem modCtx_engs (s : State) (c : Nat) (f : Context → Context) : (modCtx s c f).engs = s.engs := rfl
@[simp] theorem modCtx_packets (s : State) (c : Nat) (f : Context → Context) : (modCtx s c f).packets = s.packets := rfl
@[simp] theorem modCtx_endNotes (s : State) (c : Nat) (f : Context → Context) : (modCtx s c f).endNotes = s.endNotes := rfl
@[simp] theorem modCtx_tenants (s : State) (c : Nat) (f : Context → Context) : (modCtx s c f).tenants = s.tenants := rfl
@[simp] theorem modCtx_queues (s : State) (c : Nat) (f : Context → Context) : (modCtx s c f).queues = s.queues := rfl
@[simp] theorem modCtx_gangs (s : State) (c : Nat) (f : Context → Context) : (modCtx s c f).gangs = s.gangs := rfl
@[simp] theorem modCtx_latbnd (s : State) (c : Nat) (f : Context → Context) : (modCtx s c f).latbnd = s.latbnd := rfl
@[simp] theorem modCtx_rotation (s : State) (c : Nat) (f : Context → Context) : (modCtx s c f).rotation = s.rotation := rfl
@[simp] theorem modCtx_nextPoll (s : State) (c : Nat) (f : Context → Context) : (modCtx s c f).nextPoll = s.nextPoll := rfl
@[simp] theorem modCtx_requests (s : State) (c : Nat) (f : Context → Context) : (modCtx s c f).requests = s.requests := rfl
@[simp] theorem modCtx_lastC0 (s : State) (c : Nat) (f : Context → Context) : (modCtx s c f).lastC0 = s.lastC0 := rfl
@[simp] theorem modCtx_dramBanks (s : State) (c : Nat) (f : Context → Context) : (modCtx s c f).dramBanks = s.dramBanks := rfl
@[simp] theorem modCtx_phases (s : State) (c : Nat) (f : Context → Context) : (modCtx s c f).phases = s.phases := rfl
@[simp] theorem modCtx_misses (s : State) (c : Nat) (f : Context → Context) : (modCtx s c f).misses = s.misses := rfl
@[simp] theorem modCtx_ports (s : State) (c : Nat) (f : Context → Context) : (modCtx s c f).ports = s.ports := rfl
@[simp] theorem modCtx_regions (s : State) (c : Nat) (f : Context → Context) : (modCtx s c f).regions = s.regions := rfl
@[simp] theorem modCtx_route (s : State) (c : Nat) (f : Context → Context) : (modCtx s c f).route = s.route := rfl
@[simp] theorem modCtx_linkFail (s : State) (c : Nat) (f : Context → Context) : (modCtx s c f).linkFail = s.linkFail := rfl
@[simp] theorem modCtx_arrivals (s : State) (c : Nat) (f : Context → Context) : (modCtx s c f).arrivals = s.arrivals := rfl
@[simp] theorem modCtx_idleCredit (s : State) (c : Nat) (f : Context → Context) : (modCtx s c f).idleCredit = s.idleCredit := rfl
@[simp] theorem modCtx_farPorts (s : State) (c : Nat) (f : Context → Context) : (modCtx s c f).farPorts = s.farPorts := rfl
@[simp] theorem modCtx_hostReads (s : State) (c : Nat) (f : Context → Context) : (modCtx s c f).hostReads = s.hostReads := rfl
@[simp] theorem modCtx_hostWrites (s : State) (c : Nat) (f : Context → Context) : (modCtx s c f).hostWrites = s.hostWrites := rfl
@[simp] theorem modCtx_linkDown (s : State) (c : Nat) (f : Context → Context) : (modCtx s c f).linkDown = s.linkDown := rfl
@[simp] theorem modCtx_msix (s : State) (c : Nat) (f : Context → Context) : (modCtx s c f).msix = s.msix := rfl
@[simp] theorem modCtx_notes (s : State) (c : Nat) (f : Context → Context) : (modCtx s c f).notes = s.notes := rfl
@[simp] theorem modCtx_sent (s : State) (c : Nat) (f : Context → Context) : (modCtx s c f).sent = s.sent := rfl

/-! ### touchDie -/

@[simp] theorem touchDie_agenda (s : State) (c : Nat) (d : Fin 8) : (touchDie s c d).agenda = s.agenda := rfl
@[simp] theorem touchDie_moveCount (s : State) (c : Nat) (d : Fin 8) : (touchDie s c d).moveCount = s.moveCount := rfl
@[simp] theorem touchDie_freeCount (s : State) (c : Nat) (d : Fin 8) : (touchDie s c d).freeCount = s.freeCount := rfl
@[simp] theorem touchDie_focus (s : State) (c : Nat) (d : Fin 8) : (touchDie s c d).focus = s.focus := rfl
@[simp] theorem touchDie_seq (s : State) (c : Nat) (d : Fin 8) : (touchDie s c d).seq = s.seq := rfl
@[simp] theorem touchDie_clock (s : State) (c : Nat) (d : Fin 8) : (touchDie s c d).clock = s.clock := rfl
@[simp] theorem touchDie_mem (s : State) (c : Nat) (d : Fin 8) : (touchDie s c d).mem = s.mem := rfl
@[simp] theorem touchDie_pools (s : State) (c : Nat) (d : Fin 8) : (touchDie s c d).pools = s.pools := rfl
@[simp] theorem touchDie_boot (s : State) (c : Nat) (d : Fin 8) : (touchDie s c d).boot = s.boot := rfl
@[simp] theorem touchDie_dies (s : State) (c : Nat) (d : Fin 8) : (touchDie s c d).dies = s.dies := rfl
@[simp] theorem touchDie_cores (s : State) (c : Nat) (d : Fin 8) : (touchDie s c d).cores = s.cores := rfl
@[simp] theorem touchDie_slots (s : State) (c : Nat) (d : Fin 8) : (touchDie s c d).slots = s.slots := rfl
@[simp] theorem touchDie_groups (s : State) (c : Nat) (d : Fin 8) : (touchDie s c d).groups = s.groups := rfl
@[simp] theorem touchDie_warps (s : State) (c : Nat) (d : Fin 8) : (touchDie s c d).warps = s.warps := rfl
@[simp] theorem touchDie_threads (s : State) (c : Nat) (d : Fin 8) : (touchDie s c d).threads = s.threads := rfl
@[simp] theorem touchDie_ops (s : State) (c : Nat) (d : Fin 8) : (touchDie s c d).ops = s.ops := rfl
@[simp] theorem touchDie_banks (s : State) (c : Nat) (d : Fin 8) : (touchDie s c d).banks = s.banks := rfl
@[simp] theorem touchDie_watches (s : State) (c : Nat) (d : Fin 8) : (touchDie s c d).watches = s.watches := rfl
@[simp] theorem touchDie_homeWatches (s : State) (c : Nat) (d : Fin 8) : (touchDie s c d).homeWatches = s.homeWatches := rfl
@[simp] theorem touchDie_engs (s : State) (c : Nat) (d : Fin 8) : (touchDie s c d).engs = s.engs := rfl
@[simp] theorem touchDie_packets (s : State) (c : Nat) (d : Fin 8) : (touchDie s c d).packets = s.packets := rfl
@[simp] theorem touchDie_endNotes (s : State) (c : Nat) (d : Fin 8) : (touchDie s c d).endNotes = s.endNotes := rfl
@[simp] theorem touchDie_tenants (s : State) (c : Nat) (d : Fin 8) : (touchDie s c d).tenants = s.tenants := rfl
@[simp] theorem touchDie_queues (s : State) (c : Nat) (d : Fin 8) : (touchDie s c d).queues = s.queues := rfl
@[simp] theorem touchDie_gangs (s : State) (c : Nat) (d : Fin 8) : (touchDie s c d).gangs = s.gangs := rfl
@[simp] theorem touchDie_latbnd (s : State) (c : Nat) (d : Fin 8) : (touchDie s c d).latbnd = s.latbnd := rfl
@[simp] theorem touchDie_rotation (s : State) (c : Nat) (d : Fin 8) : (touchDie s c d).rotation = s.rotation := rfl
@[simp] theorem touchDie_nextPoll (s : State) (c : Nat) (d : Fin 8) : (touchDie s c d).nextPoll = s.nextPoll := rfl
@[simp] theorem touchDie_requests (s : State) (c : Nat) (d : Fin 8) : (touchDie s c d).requests = s.requests := rfl
@[simp] theorem touchDie_lastC0 (s : State) (c : Nat) (d : Fin 8) : (touchDie s c d).lastC0 = s.lastC0 := rfl
@[simp] theorem touchDie_dramBanks (s : State) (c : Nat) (d : Fin 8) : (touchDie s c d).dramBanks = s.dramBanks := rfl
@[simp] theorem touchDie_phases (s : State) (c : Nat) (d : Fin 8) : (touchDie s c d).phases = s.phases := rfl
@[simp] theorem touchDie_misses (s : State) (c : Nat) (d : Fin 8) : (touchDie s c d).misses = s.misses := rfl
@[simp] theorem touchDie_ports (s : State) (c : Nat) (d : Fin 8) : (touchDie s c d).ports = s.ports := rfl
@[simp] theorem touchDie_regions (s : State) (c : Nat) (d : Fin 8) : (touchDie s c d).regions = s.regions := rfl
@[simp] theorem touchDie_route (s : State) (c : Nat) (d : Fin 8) : (touchDie s c d).route = s.route := rfl
@[simp] theorem touchDie_linkFail (s : State) (c : Nat) (d : Fin 8) : (touchDie s c d).linkFail = s.linkFail := rfl
@[simp] theorem touchDie_arrivals (s : State) (c : Nat) (d : Fin 8) : (touchDie s c d).arrivals = s.arrivals := rfl
@[simp] theorem touchDie_idleCredit (s : State) (c : Nat) (d : Fin 8) : (touchDie s c d).idleCredit = s.idleCredit := rfl
@[simp] theorem touchDie_farPorts (s : State) (c : Nat) (d : Fin 8) : (touchDie s c d).farPorts = s.farPorts := rfl
@[simp] theorem touchDie_hostReads (s : State) (c : Nat) (d : Fin 8) : (touchDie s c d).hostReads = s.hostReads := rfl
@[simp] theorem touchDie_hostWrites (s : State) (c : Nat) (d : Fin 8) : (touchDie s c d).hostWrites = s.hostWrites := rfl
@[simp] theorem touchDie_linkDown (s : State) (c : Nat) (d : Fin 8) : (touchDie s c d).linkDown = s.linkDown := rfl
@[simp] theorem touchDie_msix (s : State) (c : Nat) (d : Fin 8) : (touchDie s c d).msix = s.msix := rfl
@[simp] theorem touchDie_notes (s : State) (c : Nat) (d : Fin 8) : (touchDie s c d).notes = s.notes := rfl
@[simp] theorem touchDie_sent (s : State) (c : Nat) (d : Fin 8) : (touchDie s c d).sent = s.sent := rfl

/-! ### modTenant -/

@[simp] theorem modTenant_agenda (s : State) (t : Fin 64) (f : Tenant → Tenant) : (modTenant s t f).agenda = s.agenda := rfl
@[simp] theorem modTenant_moveCount (s : State) (t : Fin 64) (f : Tenant → Tenant) : (modTenant s t f).moveCount = s.moveCount := rfl
@[simp] theorem modTenant_freeCount (s : State) (t : Fin 64) (f : Tenant → Tenant) : (modTenant s t f).freeCount = s.freeCount := rfl
@[simp] theorem modTenant_focus (s : State) (t : Fin 64) (f : Tenant → Tenant) : (modTenant s t f).focus = s.focus := rfl
@[simp] theorem modTenant_seq (s : State) (t : Fin 64) (f : Tenant → Tenant) : (modTenant s t f).seq = s.seq := rfl
@[simp] theorem modTenant_clock (s : State) (t : Fin 64) (f : Tenant → Tenant) : (modTenant s t f).clock = s.clock := rfl
@[simp] theorem modTenant_mem (s : State) (t : Fin 64) (f : Tenant → Tenant) : (modTenant s t f).mem = s.mem := rfl
@[simp] theorem modTenant_pools (s : State) (t : Fin 64) (f : Tenant → Tenant) : (modTenant s t f).pools = s.pools := rfl
@[simp] theorem modTenant_boot (s : State) (t : Fin 64) (f : Tenant → Tenant) : (modTenant s t f).boot = s.boot := rfl
@[simp] theorem modTenant_dies (s : State) (t : Fin 64) (f : Tenant → Tenant) : (modTenant s t f).dies = s.dies := rfl
@[simp] theorem modTenant_cores (s : State) (t : Fin 64) (f : Tenant → Tenant) : (modTenant s t f).cores = s.cores := rfl
@[simp] theorem modTenant_slots (s : State) (t : Fin 64) (f : Tenant → Tenant) : (modTenant s t f).slots = s.slots := rfl
@[simp] theorem modTenant_groups (s : State) (t : Fin 64) (f : Tenant → Tenant) : (modTenant s t f).groups = s.groups := rfl
@[simp] theorem modTenant_warps (s : State) (t : Fin 64) (f : Tenant → Tenant) : (modTenant s t f).warps = s.warps := rfl
@[simp] theorem modTenant_threads (s : State) (t : Fin 64) (f : Tenant → Tenant) : (modTenant s t f).threads = s.threads := rfl
@[simp] theorem modTenant_ops (s : State) (t : Fin 64) (f : Tenant → Tenant) : (modTenant s t f).ops = s.ops := rfl
@[simp] theorem modTenant_banks (s : State) (t : Fin 64) (f : Tenant → Tenant) : (modTenant s t f).banks = s.banks := rfl
@[simp] theorem modTenant_watches (s : State) (t : Fin 64) (f : Tenant → Tenant) : (modTenant s t f).watches = s.watches := rfl
@[simp] theorem modTenant_homeWatches (s : State) (t : Fin 64) (f : Tenant → Tenant) : (modTenant s t f).homeWatches = s.homeWatches := rfl
@[simp] theorem modTenant_engs (s : State) (t : Fin 64) (f : Tenant → Tenant) : (modTenant s t f).engs = s.engs := rfl
@[simp] theorem modTenant_packets (s : State) (t : Fin 64) (f : Tenant → Tenant) : (modTenant s t f).packets = s.packets := rfl
@[simp] theorem modTenant_endNotes (s : State) (t : Fin 64) (f : Tenant → Tenant) : (modTenant s t f).endNotes = s.endNotes := rfl
@[simp] theorem modTenant_contexts (s : State) (t : Fin 64) (f : Tenant → Tenant) : (modTenant s t f).contexts = s.contexts := rfl
@[simp] theorem modTenant_queues (s : State) (t : Fin 64) (f : Tenant → Tenant) : (modTenant s t f).queues = s.queues := rfl
@[simp] theorem modTenant_gangs (s : State) (t : Fin 64) (f : Tenant → Tenant) : (modTenant s t f).gangs = s.gangs := rfl
@[simp] theorem modTenant_latbnd (s : State) (t : Fin 64) (f : Tenant → Tenant) : (modTenant s t f).latbnd = s.latbnd := rfl
@[simp] theorem modTenant_rotation (s : State) (t : Fin 64) (f : Tenant → Tenant) : (modTenant s t f).rotation = s.rotation := rfl
@[simp] theorem modTenant_nextPoll (s : State) (t : Fin 64) (f : Tenant → Tenant) : (modTenant s t f).nextPoll = s.nextPoll := rfl
@[simp] theorem modTenant_requests (s : State) (t : Fin 64) (f : Tenant → Tenant) : (modTenant s t f).requests = s.requests := rfl
@[simp] theorem modTenant_lastC0 (s : State) (t : Fin 64) (f : Tenant → Tenant) : (modTenant s t f).lastC0 = s.lastC0 := rfl
@[simp] theorem modTenant_dramBanks (s : State) (t : Fin 64) (f : Tenant → Tenant) : (modTenant s t f).dramBanks = s.dramBanks := rfl
@[simp] theorem modTenant_phases (s : State) (t : Fin 64) (f : Tenant → Tenant) : (modTenant s t f).phases = s.phases := rfl
@[simp] theorem modTenant_misses (s : State) (t : Fin 64) (f : Tenant → Tenant) : (modTenant s t f).misses = s.misses := rfl
@[simp] theorem modTenant_ports (s : State) (t : Fin 64) (f : Tenant → Tenant) : (modTenant s t f).ports = s.ports := rfl
@[simp] theorem modTenant_regions (s : State) (t : Fin 64) (f : Tenant → Tenant) : (modTenant s t f).regions = s.regions := rfl
@[simp] theorem modTenant_route (s : State) (t : Fin 64) (f : Tenant → Tenant) : (modTenant s t f).route = s.route := rfl
@[simp] theorem modTenant_linkFail (s : State) (t : Fin 64) (f : Tenant → Tenant) : (modTenant s t f).linkFail = s.linkFail := rfl
@[simp] theorem modTenant_arrivals (s : State) (t : Fin 64) (f : Tenant → Tenant) : (modTenant s t f).arrivals = s.arrivals := rfl
@[simp] theorem modTenant_idleCredit (s : State) (t : Fin 64) (f : Tenant → Tenant) : (modTenant s t f).idleCredit = s.idleCredit := rfl
@[simp] theorem modTenant_farPorts (s : State) (t : Fin 64) (f : Tenant → Tenant) : (modTenant s t f).farPorts = s.farPorts := rfl
@[simp] theorem modTenant_hostReads (s : State) (t : Fin 64) (f : Tenant → Tenant) : (modTenant s t f).hostReads = s.hostReads := rfl
@[simp] theorem modTenant_hostWrites (s : State) (t : Fin 64) (f : Tenant → Tenant) : (modTenant s t f).hostWrites = s.hostWrites := rfl
@[simp] theorem modTenant_linkDown (s : State) (t : Fin 64) (f : Tenant → Tenant) : (modTenant s t f).linkDown = s.linkDown := rfl
@[simp] theorem modTenant_msix (s : State) (t : Fin 64) (f : Tenant → Tenant) : (modTenant s t f).msix = s.msix := rfl
@[simp] theorem modTenant_notes (s : State) (t : Fin 64) (f : Tenant → Tenant) : (modTenant s t f).notes = s.notes := rfl
@[simp] theorem modTenant_sent (s : State) (t : Fin 64) (f : Tenant → Tenant) : (modTenant s t f).sent = s.sent := rfl

/-! ### modPort -/

@[simp] theorem modPort_agenda (s : State) (p : Fin 2) (f : Port → Port) : (modPort s p f).agenda = s.agenda := rfl
@[simp] theorem modPort_moveCount (s : State) (p : Fin 2) (f : Port → Port) : (modPort s p f).moveCount = s.moveCount := rfl
@[simp] theorem modPort_freeCount (s : State) (p : Fin 2) (f : Port → Port) : (modPort s p f).freeCount = s.freeCount := rfl
@[simp] theorem modPort_focus (s : State) (p : Fin 2) (f : Port → Port) : (modPort s p f).focus = s.focus := rfl
@[simp] theorem modPort_seq (s : State) (p : Fin 2) (f : Port → Port) : (modPort s p f).seq = s.seq := rfl
@[simp] theorem modPort_clock (s : State) (p : Fin 2) (f : Port → Port) : (modPort s p f).clock = s.clock := rfl
@[simp] theorem modPort_mem (s : State) (p : Fin 2) (f : Port → Port) : (modPort s p f).mem = s.mem := rfl
@[simp] theorem modPort_pools (s : State) (p : Fin 2) (f : Port → Port) : (modPort s p f).pools = s.pools := rfl
@[simp] theorem modPort_boot (s : State) (p : Fin 2) (f : Port → Port) : (modPort s p f).boot = s.boot := rfl
@[simp] theorem modPort_dies (s : State) (p : Fin 2) (f : Port → Port) : (modPort s p f).dies = s.dies := rfl
@[simp] theorem modPort_cores (s : State) (p : Fin 2) (f : Port → Port) : (modPort s p f).cores = s.cores := rfl
@[simp] theorem modPort_slots (s : State) (p : Fin 2) (f : Port → Port) : (modPort s p f).slots = s.slots := rfl
@[simp] theorem modPort_groups (s : State) (p : Fin 2) (f : Port → Port) : (modPort s p f).groups = s.groups := rfl
@[simp] theorem modPort_warps (s : State) (p : Fin 2) (f : Port → Port) : (modPort s p f).warps = s.warps := rfl
@[simp] theorem modPort_threads (s : State) (p : Fin 2) (f : Port → Port) : (modPort s p f).threads = s.threads := rfl
@[simp] theorem modPort_ops (s : State) (p : Fin 2) (f : Port → Port) : (modPort s p f).ops = s.ops := rfl
@[simp] theorem modPort_banks (s : State) (p : Fin 2) (f : Port → Port) : (modPort s p f).banks = s.banks := rfl
@[simp] theorem modPort_watches (s : State) (p : Fin 2) (f : Port → Port) : (modPort s p f).watches = s.watches := rfl
@[simp] theorem modPort_homeWatches (s : State) (p : Fin 2) (f : Port → Port) : (modPort s p f).homeWatches = s.homeWatches := rfl
@[simp] theorem modPort_engs (s : State) (p : Fin 2) (f : Port → Port) : (modPort s p f).engs = s.engs := rfl
@[simp] theorem modPort_packets (s : State) (p : Fin 2) (f : Port → Port) : (modPort s p f).packets = s.packets := rfl
@[simp] theorem modPort_endNotes (s : State) (p : Fin 2) (f : Port → Port) : (modPort s p f).endNotes = s.endNotes := rfl
@[simp] theorem modPort_contexts (s : State) (p : Fin 2) (f : Port → Port) : (modPort s p f).contexts = s.contexts := rfl
@[simp] theorem modPort_tenants (s : State) (p : Fin 2) (f : Port → Port) : (modPort s p f).tenants = s.tenants := rfl
@[simp] theorem modPort_queues (s : State) (p : Fin 2) (f : Port → Port) : (modPort s p f).queues = s.queues := rfl
@[simp] theorem modPort_gangs (s : State) (p : Fin 2) (f : Port → Port) : (modPort s p f).gangs = s.gangs := rfl
@[simp] theorem modPort_latbnd (s : State) (p : Fin 2) (f : Port → Port) : (modPort s p f).latbnd = s.latbnd := rfl
@[simp] theorem modPort_rotation (s : State) (p : Fin 2) (f : Port → Port) : (modPort s p f).rotation = s.rotation := rfl
@[simp] theorem modPort_nextPoll (s : State) (p : Fin 2) (f : Port → Port) : (modPort s p f).nextPoll = s.nextPoll := rfl
@[simp] theorem modPort_requests (s : State) (p : Fin 2) (f : Port → Port) : (modPort s p f).requests = s.requests := rfl
@[simp] theorem modPort_lastC0 (s : State) (p : Fin 2) (f : Port → Port) : (modPort s p f).lastC0 = s.lastC0 := rfl
@[simp] theorem modPort_dramBanks (s : State) (p : Fin 2) (f : Port → Port) : (modPort s p f).dramBanks = s.dramBanks := rfl
@[simp] theorem modPort_phases (s : State) (p : Fin 2) (f : Port → Port) : (modPort s p f).phases = s.phases := rfl
@[simp] theorem modPort_misses (s : State) (p : Fin 2) (f : Port → Port) : (modPort s p f).misses = s.misses := rfl
@[simp] theorem modPort_regions (s : State) (p : Fin 2) (f : Port → Port) : (modPort s p f).regions = s.regions := rfl
@[simp] theorem modPort_route (s : State) (p : Fin 2) (f : Port → Port) : (modPort s p f).route = s.route := rfl
@[simp] theorem modPort_linkFail (s : State) (p : Fin 2) (f : Port → Port) : (modPort s p f).linkFail = s.linkFail := rfl
@[simp] theorem modPort_arrivals (s : State) (p : Fin 2) (f : Port → Port) : (modPort s p f).arrivals = s.arrivals := rfl
@[simp] theorem modPort_idleCredit (s : State) (p : Fin 2) (f : Port → Port) : (modPort s p f).idleCredit = s.idleCredit := rfl
@[simp] theorem modPort_farPorts (s : State) (p : Fin 2) (f : Port → Port) : (modPort s p f).farPorts = s.farPorts := rfl
@[simp] theorem modPort_hostReads (s : State) (p : Fin 2) (f : Port → Port) : (modPort s p f).hostReads = s.hostReads := rfl
@[simp] theorem modPort_hostWrites (s : State) (p : Fin 2) (f : Port → Port) : (modPort s p f).hostWrites = s.hostWrites := rfl
@[simp] theorem modPort_linkDown (s : State) (p : Fin 2) (f : Port → Port) : (modPort s p f).linkDown = s.linkDown := rfl
@[simp] theorem modPort_msix (s : State) (p : Fin 2) (f : Port → Port) : (modPort s p f).msix = s.msix := rfl
@[simp] theorem modPort_notes (s : State) (p : Fin 2) (f : Port → Port) : (modPort s p f).notes = s.notes := rfl
@[simp] theorem modPort_sent (s : State) (p : Fin 2) (f : Port → Port) : (modPort s p f).sent = s.sent := rfl

/-! ### giveThread -/

@[simp] theorem giveThread_agenda (s : State) (t : ThreadKey) (d : PDst) (v : Word) (due : Nat) (pend : Option Nat) : (giveThread s t d v due pend).agenda = s.agenda := rfl
@[simp] theorem giveThread_moveCount (s : State) (t : ThreadKey) (d : PDst) (v : Word) (due : Nat) (pend : Option Nat) : (giveThread s t d v due pend).moveCount = s.moveCount := rfl
@[simp] theorem giveThread_freeCount (s : State) (t : ThreadKey) (d : PDst) (v : Word) (due : Nat) (pend : Option Nat) : (giveThread s t d v due pend).freeCount = s.freeCount := rfl
@[simp] theorem giveThread_focus (s : State) (t : ThreadKey) (d : PDst) (v : Word) (due : Nat) (pend : Option Nat) : (giveThread s t d v due pend).focus = s.focus := rfl
@[simp] theorem giveThread_seq (s : State) (t : ThreadKey) (d : PDst) (v : Word) (due : Nat) (pend : Option Nat) : (giveThread s t d v due pend).seq = s.seq := rfl
@[simp] theorem giveThread_clock (s : State) (t : ThreadKey) (d : PDst) (v : Word) (due : Nat) (pend : Option Nat) : (giveThread s t d v due pend).clock = s.clock := rfl
@[simp] theorem giveThread_mem (s : State) (t : ThreadKey) (d : PDst) (v : Word) (due : Nat) (pend : Option Nat) : (giveThread s t d v due pend).mem = s.mem := rfl
@[simp] theorem giveThread_pools (s : State) (t : ThreadKey) (d : PDst) (v : Word) (due : Nat) (pend : Option Nat) : (giveThread s t d v due pend).pools = s.pools := rfl
@[simp] theorem giveThread_boot (s : State) (t : ThreadKey) (d : PDst) (v : Word) (due : Nat) (pend : Option Nat) : (giveThread s t d v due pend).boot = s.boot := rfl
@[simp] theorem giveThread_dies (s : State) (t : ThreadKey) (d : PDst) (v : Word) (due : Nat) (pend : Option Nat) : (giveThread s t d v due pend).dies = s.dies := rfl
@[simp] theorem giveThread_cores (s : State) (t : ThreadKey) (d : PDst) (v : Word) (due : Nat) (pend : Option Nat) : (giveThread s t d v due pend).cores = s.cores := rfl
@[simp] theorem giveThread_slots (s : State) (t : ThreadKey) (d : PDst) (v : Word) (due : Nat) (pend : Option Nat) : (giveThread s t d v due pend).slots = s.slots := rfl
@[simp] theorem giveThread_groups (s : State) (t : ThreadKey) (d : PDst) (v : Word) (due : Nat) (pend : Option Nat) : (giveThread s t d v due pend).groups = s.groups := rfl
@[simp] theorem giveThread_warps (s : State) (t : ThreadKey) (d : PDst) (v : Word) (due : Nat) (pend : Option Nat) : (giveThread s t d v due pend).warps = s.warps := rfl
@[simp] theorem giveThread_ops (s : State) (t : ThreadKey) (d : PDst) (v : Word) (due : Nat) (pend : Option Nat) : (giveThread s t d v due pend).ops = s.ops := rfl
@[simp] theorem giveThread_banks (s : State) (t : ThreadKey) (d : PDst) (v : Word) (due : Nat) (pend : Option Nat) : (giveThread s t d v due pend).banks = s.banks := rfl
@[simp] theorem giveThread_watches (s : State) (t : ThreadKey) (d : PDst) (v : Word) (due : Nat) (pend : Option Nat) : (giveThread s t d v due pend).watches = s.watches := rfl
@[simp] theorem giveThread_homeWatches (s : State) (t : ThreadKey) (d : PDst) (v : Word) (due : Nat) (pend : Option Nat) : (giveThread s t d v due pend).homeWatches = s.homeWatches := rfl
@[simp] theorem giveThread_engs (s : State) (t : ThreadKey) (d : PDst) (v : Word) (due : Nat) (pend : Option Nat) : (giveThread s t d v due pend).engs = s.engs := rfl
@[simp] theorem giveThread_packets (s : State) (t : ThreadKey) (d : PDst) (v : Word) (due : Nat) (pend : Option Nat) : (giveThread s t d v due pend).packets = s.packets := rfl
@[simp] theorem giveThread_endNotes (s : State) (t : ThreadKey) (d : PDst) (v : Word) (due : Nat) (pend : Option Nat) : (giveThread s t d v due pend).endNotes = s.endNotes := rfl
@[simp] theorem giveThread_contexts (s : State) (t : ThreadKey) (d : PDst) (v : Word) (due : Nat) (pend : Option Nat) : (giveThread s t d v due pend).contexts = s.contexts := rfl
@[simp] theorem giveThread_tenants (s : State) (t : ThreadKey) (d : PDst) (v : Word) (due : Nat) (pend : Option Nat) : (giveThread s t d v due pend).tenants = s.tenants := rfl
@[simp] theorem giveThread_queues (s : State) (t : ThreadKey) (d : PDst) (v : Word) (due : Nat) (pend : Option Nat) : (giveThread s t d v due pend).queues = s.queues := rfl
@[simp] theorem giveThread_gangs (s : State) (t : ThreadKey) (d : PDst) (v : Word) (due : Nat) (pend : Option Nat) : (giveThread s t d v due pend).gangs = s.gangs := rfl
@[simp] theorem giveThread_latbnd (s : State) (t : ThreadKey) (d : PDst) (v : Word) (due : Nat) (pend : Option Nat) : (giveThread s t d v due pend).latbnd = s.latbnd := rfl
@[simp] theorem giveThread_rotation (s : State) (t : ThreadKey) (d : PDst) (v : Word) (due : Nat) (pend : Option Nat) : (giveThread s t d v due pend).rotation = s.rotation := rfl
@[simp] theorem giveThread_nextPoll (s : State) (t : ThreadKey) (d : PDst) (v : Word) (due : Nat) (pend : Option Nat) : (giveThread s t d v due pend).nextPoll = s.nextPoll := rfl
@[simp] theorem giveThread_requests (s : State) (t : ThreadKey) (d : PDst) (v : Word) (due : Nat) (pend : Option Nat) : (giveThread s t d v due pend).requests = s.requests := rfl
@[simp] theorem giveThread_lastC0 (s : State) (t : ThreadKey) (d : PDst) (v : Word) (due : Nat) (pend : Option Nat) : (giveThread s t d v due pend).lastC0 = s.lastC0 := rfl
@[simp] theorem giveThread_dramBanks (s : State) (t : ThreadKey) (d : PDst) (v : Word) (due : Nat) (pend : Option Nat) : (giveThread s t d v due pend).dramBanks = s.dramBanks := rfl
@[simp] theorem giveThread_phases (s : State) (t : ThreadKey) (d : PDst) (v : Word) (due : Nat) (pend : Option Nat) : (giveThread s t d v due pend).phases = s.phases := rfl
@[simp] theorem giveThread_misses (s : State) (t : ThreadKey) (d : PDst) (v : Word) (due : Nat) (pend : Option Nat) : (giveThread s t d v due pend).misses = s.misses := rfl
@[simp] theorem giveThread_ports (s : State) (t : ThreadKey) (d : PDst) (v : Word) (due : Nat) (pend : Option Nat) : (giveThread s t d v due pend).ports = s.ports := rfl
@[simp] theorem giveThread_regions (s : State) (t : ThreadKey) (d : PDst) (v : Word) (due : Nat) (pend : Option Nat) : (giveThread s t d v due pend).regions = s.regions := rfl
@[simp] theorem giveThread_route (s : State) (t : ThreadKey) (d : PDst) (v : Word) (due : Nat) (pend : Option Nat) : (giveThread s t d v due pend).route = s.route := rfl
@[simp] theorem giveThread_linkFail (s : State) (t : ThreadKey) (d : PDst) (v : Word) (due : Nat) (pend : Option Nat) : (giveThread s t d v due pend).linkFail = s.linkFail := rfl
@[simp] theorem giveThread_arrivals (s : State) (t : ThreadKey) (d : PDst) (v : Word) (due : Nat) (pend : Option Nat) : (giveThread s t d v due pend).arrivals = s.arrivals := rfl
@[simp] theorem giveThread_idleCredit (s : State) (t : ThreadKey) (d : PDst) (v : Word) (due : Nat) (pend : Option Nat) : (giveThread s t d v due pend).idleCredit = s.idleCredit := rfl
@[simp] theorem giveThread_farPorts (s : State) (t : ThreadKey) (d : PDst) (v : Word) (due : Nat) (pend : Option Nat) : (giveThread s t d v due pend).farPorts = s.farPorts := rfl
@[simp] theorem giveThread_hostReads (s : State) (t : ThreadKey) (d : PDst) (v : Word) (due : Nat) (pend : Option Nat) : (giveThread s t d v due pend).hostReads = s.hostReads := rfl
@[simp] theorem giveThread_hostWrites (s : State) (t : ThreadKey) (d : PDst) (v : Word) (due : Nat) (pend : Option Nat) : (giveThread s t d v due pend).hostWrites = s.hostWrites := rfl
@[simp] theorem giveThread_linkDown (s : State) (t : ThreadKey) (d : PDst) (v : Word) (due : Nat) (pend : Option Nat) : (giveThread s t d v due pend).linkDown = s.linkDown := rfl
@[simp] theorem giveThread_msix (s : State) (t : ThreadKey) (d : PDst) (v : Word) (due : Nat) (pend : Option Nat) : (giveThread s t d v due pend).msix = s.msix := rfl
@[simp] theorem giveThread_notes (s : State) (t : ThreadKey) (d : PDst) (v : Word) (due : Nat) (pend : Option Nat) : (giveThread s t d v due pend).notes = s.notes := rfl
@[simp] theorem giveThread_sent (s : State) (t : ThreadKey) (d : PDst) (v : Word) (due : Nat) (pend : Option Nat) : (giveThread s t d v due pend).sent = s.sent := rfl

/-! ### putUni -/

@[simp] theorem putUni_agenda (s : State) (w : WarpKey) (i : Fin 16) (v : Word) (due : Nat) : (putUni s w i v due).agenda = s.agenda := rfl
@[simp] theorem putUni_moveCount (s : State) (w : WarpKey) (i : Fin 16) (v : Word) (due : Nat) : (putUni s w i v due).moveCount = s.moveCount := rfl
@[simp] theorem putUni_freeCount (s : State) (w : WarpKey) (i : Fin 16) (v : Word) (due : Nat) : (putUni s w i v due).freeCount = s.freeCount := rfl
@[simp] theorem putUni_focus (s : State) (w : WarpKey) (i : Fin 16) (v : Word) (due : Nat) : (putUni s w i v due).focus = s.focus := rfl
@[simp] theorem putUni_seq (s : State) (w : WarpKey) (i : Fin 16) (v : Word) (due : Nat) : (putUni s w i v due).seq = s.seq := rfl
@[simp] theorem putUni_clock (s : State) (w : WarpKey) (i : Fin 16) (v : Word) (due : Nat) : (putUni s w i v due).clock = s.clock := rfl
@[simp] theorem putUni_mem (s : State) (w : WarpKey) (i : Fin 16) (v : Word) (due : Nat) : (putUni s w i v due).mem = s.mem := rfl
@[simp] theorem putUni_pools (s : State) (w : WarpKey) (i : Fin 16) (v : Word) (due : Nat) : (putUni s w i v due).pools = s.pools := rfl
@[simp] theorem putUni_boot (s : State) (w : WarpKey) (i : Fin 16) (v : Word) (due : Nat) : (putUni s w i v due).boot = s.boot := rfl
@[simp] theorem putUni_dies (s : State) (w : WarpKey) (i : Fin 16) (v : Word) (due : Nat) : (putUni s w i v due).dies = s.dies := rfl
@[simp] theorem putUni_cores (s : State) (w : WarpKey) (i : Fin 16) (v : Word) (due : Nat) : (putUni s w i v due).cores = s.cores := rfl
@[simp] theorem putUni_slots (s : State) (w : WarpKey) (i : Fin 16) (v : Word) (due : Nat) : (putUni s w i v due).slots = s.slots := rfl
@[simp] theorem putUni_groups (s : State) (w : WarpKey) (i : Fin 16) (v : Word) (due : Nat) : (putUni s w i v due).groups = s.groups := rfl
@[simp] theorem putUni_threads (s : State) (w : WarpKey) (i : Fin 16) (v : Word) (due : Nat) : (putUni s w i v due).threads = s.threads := rfl
@[simp] theorem putUni_ops (s : State) (w : WarpKey) (i : Fin 16) (v : Word) (due : Nat) : (putUni s w i v due).ops = s.ops := rfl
@[simp] theorem putUni_banks (s : State) (w : WarpKey) (i : Fin 16) (v : Word) (due : Nat) : (putUni s w i v due).banks = s.banks := rfl
@[simp] theorem putUni_watches (s : State) (w : WarpKey) (i : Fin 16) (v : Word) (due : Nat) : (putUni s w i v due).watches = s.watches := rfl
@[simp] theorem putUni_homeWatches (s : State) (w : WarpKey) (i : Fin 16) (v : Word) (due : Nat) : (putUni s w i v due).homeWatches = s.homeWatches := rfl
@[simp] theorem putUni_engs (s : State) (w : WarpKey) (i : Fin 16) (v : Word) (due : Nat) : (putUni s w i v due).engs = s.engs := rfl
@[simp] theorem putUni_packets (s : State) (w : WarpKey) (i : Fin 16) (v : Word) (due : Nat) : (putUni s w i v due).packets = s.packets := rfl
@[simp] theorem putUni_endNotes (s : State) (w : WarpKey) (i : Fin 16) (v : Word) (due : Nat) : (putUni s w i v due).endNotes = s.endNotes := rfl
@[simp] theorem putUni_contexts (s : State) (w : WarpKey) (i : Fin 16) (v : Word) (due : Nat) : (putUni s w i v due).contexts = s.contexts := rfl
@[simp] theorem putUni_tenants (s : State) (w : WarpKey) (i : Fin 16) (v : Word) (due : Nat) : (putUni s w i v due).tenants = s.tenants := rfl
@[simp] theorem putUni_queues (s : State) (w : WarpKey) (i : Fin 16) (v : Word) (due : Nat) : (putUni s w i v due).queues = s.queues := rfl
@[simp] theorem putUni_gangs (s : State) (w : WarpKey) (i : Fin 16) (v : Word) (due : Nat) : (putUni s w i v due).gangs = s.gangs := rfl
@[simp] theorem putUni_latbnd (s : State) (w : WarpKey) (i : Fin 16) (v : Word) (due : Nat) : (putUni s w i v due).latbnd = s.latbnd := rfl
@[simp] theorem putUni_rotation (s : State) (w : WarpKey) (i : Fin 16) (v : Word) (due : Nat) : (putUni s w i v due).rotation = s.rotation := rfl
@[simp] theorem putUni_nextPoll (s : State) (w : WarpKey) (i : Fin 16) (v : Word) (due : Nat) : (putUni s w i v due).nextPoll = s.nextPoll := rfl
@[simp] theorem putUni_requests (s : State) (w : WarpKey) (i : Fin 16) (v : Word) (due : Nat) : (putUni s w i v due).requests = s.requests := rfl
@[simp] theorem putUni_lastC0 (s : State) (w : WarpKey) (i : Fin 16) (v : Word) (due : Nat) : (putUni s w i v due).lastC0 = s.lastC0 := rfl
@[simp] theorem putUni_dramBanks (s : State) (w : WarpKey) (i : Fin 16) (v : Word) (due : Nat) : (putUni s w i v due).dramBanks = s.dramBanks := rfl
@[simp] theorem putUni_phases (s : State) (w : WarpKey) (i : Fin 16) (v : Word) (due : Nat) : (putUni s w i v due).phases = s.phases := rfl
@[simp] theorem putUni_misses (s : State) (w : WarpKey) (i : Fin 16) (v : Word) (due : Nat) : (putUni s w i v due).misses = s.misses := rfl
@[simp] theorem putUni_ports (s : State) (w : WarpKey) (i : Fin 16) (v : Word) (due : Nat) : (putUni s w i v due).ports = s.ports := rfl
@[simp] theorem putUni_regions (s : State) (w : WarpKey) (i : Fin 16) (v : Word) (due : Nat) : (putUni s w i v due).regions = s.regions := rfl
@[simp] theorem putUni_route (s : State) (w : WarpKey) (i : Fin 16) (v : Word) (due : Nat) : (putUni s w i v due).route = s.route := rfl
@[simp] theorem putUni_linkFail (s : State) (w : WarpKey) (i : Fin 16) (v : Word) (due : Nat) : (putUni s w i v due).linkFail = s.linkFail := rfl
@[simp] theorem putUni_arrivals (s : State) (w : WarpKey) (i : Fin 16) (v : Word) (due : Nat) : (putUni s w i v due).arrivals = s.arrivals := rfl
@[simp] theorem putUni_idleCredit (s : State) (w : WarpKey) (i : Fin 16) (v : Word) (due : Nat) : (putUni s w i v due).idleCredit = s.idleCredit := rfl
@[simp] theorem putUni_farPorts (s : State) (w : WarpKey) (i : Fin 16) (v : Word) (due : Nat) : (putUni s w i v due).farPorts = s.farPorts := rfl
@[simp] theorem putUni_hostReads (s : State) (w : WarpKey) (i : Fin 16) (v : Word) (due : Nat) : (putUni s w i v due).hostReads = s.hostReads := rfl
@[simp] theorem putUni_hostWrites (s : State) (w : WarpKey) (i : Fin 16) (v : Word) (due : Nat) : (putUni s w i v due).hostWrites = s.hostWrites := rfl
@[simp] theorem putUni_linkDown (s : State) (w : WarpKey) (i : Fin 16) (v : Word) (due : Nat) : (putUni s w i v due).linkDown = s.linkDown := rfl
@[simp] theorem putUni_msix (s : State) (w : WarpKey) (i : Fin 16) (v : Word) (due : Nat) : (putUni s w i v due).msix = s.msix := rfl
@[simp] theorem putUni_notes (s : State) (w : WarpKey) (i : Fin 16) (v : Word) (due : Nat) : (putUni s w i v due).notes = s.notes := rfl
@[simp] theorem putUni_sent (s : State) (w : WarpKey) (i : Fin 16) (v : Word) (due : Nat) : (putUni s w i v due).sent = s.sent := rfl

/-! ### deliverTo -/

@[simp] theorem deliverTo_agenda (s : State) (t : ThreadKey) (tag : Nat) (v : Word) : (deliverTo s t tag v).agenda = s.agenda := rfl
@[simp] theorem deliverTo_moveCount (s : State) (t : ThreadKey) (tag : Nat) (v : Word) : (deliverTo s t tag v).moveCount = s.moveCount := rfl
@[simp] theorem deliverTo_freeCount (s : State) (t : ThreadKey) (tag : Nat) (v : Word) : (deliverTo s t tag v).freeCount = s.freeCount := rfl
@[simp] theorem deliverTo_focus (s : State) (t : ThreadKey) (tag : Nat) (v : Word) : (deliverTo s t tag v).focus = s.focus := rfl
@[simp] theorem deliverTo_seq (s : State) (t : ThreadKey) (tag : Nat) (v : Word) : (deliverTo s t tag v).seq = s.seq := rfl
@[simp] theorem deliverTo_clock (s : State) (t : ThreadKey) (tag : Nat) (v : Word) : (deliverTo s t tag v).clock = s.clock := rfl
@[simp] theorem deliverTo_mem (s : State) (t : ThreadKey) (tag : Nat) (v : Word) : (deliverTo s t tag v).mem = s.mem := rfl
@[simp] theorem deliverTo_pools (s : State) (t : ThreadKey) (tag : Nat) (v : Word) : (deliverTo s t tag v).pools = s.pools := rfl
@[simp] theorem deliverTo_boot (s : State) (t : ThreadKey) (tag : Nat) (v : Word) : (deliverTo s t tag v).boot = s.boot := rfl
@[simp] theorem deliverTo_dies (s : State) (t : ThreadKey) (tag : Nat) (v : Word) : (deliverTo s t tag v).dies = s.dies := rfl
@[simp] theorem deliverTo_cores (s : State) (t : ThreadKey) (tag : Nat) (v : Word) : (deliverTo s t tag v).cores = s.cores := rfl
@[simp] theorem deliverTo_slots (s : State) (t : ThreadKey) (tag : Nat) (v : Word) : (deliverTo s t tag v).slots = s.slots := rfl
@[simp] theorem deliverTo_groups (s : State) (t : ThreadKey) (tag : Nat) (v : Word) : (deliverTo s t tag v).groups = s.groups := rfl
@[simp] theorem deliverTo_warps (s : State) (t : ThreadKey) (tag : Nat) (v : Word) : (deliverTo s t tag v).warps = s.warps := rfl
@[simp] theorem deliverTo_ops (s : State) (t : ThreadKey) (tag : Nat) (v : Word) : (deliverTo s t tag v).ops = s.ops := rfl
@[simp] theorem deliverTo_banks (s : State) (t : ThreadKey) (tag : Nat) (v : Word) : (deliverTo s t tag v).banks = s.banks := rfl
@[simp] theorem deliverTo_watches (s : State) (t : ThreadKey) (tag : Nat) (v : Word) : (deliverTo s t tag v).watches = s.watches := rfl
@[simp] theorem deliverTo_homeWatches (s : State) (t : ThreadKey) (tag : Nat) (v : Word) : (deliverTo s t tag v).homeWatches = s.homeWatches := rfl
@[simp] theorem deliverTo_engs (s : State) (t : ThreadKey) (tag : Nat) (v : Word) : (deliverTo s t tag v).engs = s.engs := rfl
@[simp] theorem deliverTo_packets (s : State) (t : ThreadKey) (tag : Nat) (v : Word) : (deliverTo s t tag v).packets = s.packets := rfl
@[simp] theorem deliverTo_endNotes (s : State) (t : ThreadKey) (tag : Nat) (v : Word) : (deliverTo s t tag v).endNotes = s.endNotes := rfl
@[simp] theorem deliverTo_contexts (s : State) (t : ThreadKey) (tag : Nat) (v : Word) : (deliverTo s t tag v).contexts = s.contexts := rfl
@[simp] theorem deliverTo_tenants (s : State) (t : ThreadKey) (tag : Nat) (v : Word) : (deliverTo s t tag v).tenants = s.tenants := rfl
@[simp] theorem deliverTo_queues (s : State) (t : ThreadKey) (tag : Nat) (v : Word) : (deliverTo s t tag v).queues = s.queues := rfl
@[simp] theorem deliverTo_gangs (s : State) (t : ThreadKey) (tag : Nat) (v : Word) : (deliverTo s t tag v).gangs = s.gangs := rfl
@[simp] theorem deliverTo_latbnd (s : State) (t : ThreadKey) (tag : Nat) (v : Word) : (deliverTo s t tag v).latbnd = s.latbnd := rfl
@[simp] theorem deliverTo_rotation (s : State) (t : ThreadKey) (tag : Nat) (v : Word) : (deliverTo s t tag v).rotation = s.rotation := rfl
@[simp] theorem deliverTo_nextPoll (s : State) (t : ThreadKey) (tag : Nat) (v : Word) : (deliverTo s t tag v).nextPoll = s.nextPoll := rfl
@[simp] theorem deliverTo_requests (s : State) (t : ThreadKey) (tag : Nat) (v : Word) : (deliverTo s t tag v).requests = s.requests := rfl
@[simp] theorem deliverTo_lastC0 (s : State) (t : ThreadKey) (tag : Nat) (v : Word) : (deliverTo s t tag v).lastC0 = s.lastC0 := rfl
@[simp] theorem deliverTo_dramBanks (s : State) (t : ThreadKey) (tag : Nat) (v : Word) : (deliverTo s t tag v).dramBanks = s.dramBanks := rfl
@[simp] theorem deliverTo_phases (s : State) (t : ThreadKey) (tag : Nat) (v : Word) : (deliverTo s t tag v).phases = s.phases := rfl
@[simp] theorem deliverTo_misses (s : State) (t : ThreadKey) (tag : Nat) (v : Word) : (deliverTo s t tag v).misses = s.misses := rfl
@[simp] theorem deliverTo_ports (s : State) (t : ThreadKey) (tag : Nat) (v : Word) : (deliverTo s t tag v).ports = s.ports := rfl
@[simp] theorem deliverTo_regions (s : State) (t : ThreadKey) (tag : Nat) (v : Word) : (deliverTo s t tag v).regions = s.regions := rfl
@[simp] theorem deliverTo_route (s : State) (t : ThreadKey) (tag : Nat) (v : Word) : (deliverTo s t tag v).route = s.route := rfl
@[simp] theorem deliverTo_linkFail (s : State) (t : ThreadKey) (tag : Nat) (v : Word) : (deliverTo s t tag v).linkFail = s.linkFail := rfl
@[simp] theorem deliverTo_arrivals (s : State) (t : ThreadKey) (tag : Nat) (v : Word) : (deliverTo s t tag v).arrivals = s.arrivals := rfl
@[simp] theorem deliverTo_idleCredit (s : State) (t : ThreadKey) (tag : Nat) (v : Word) : (deliverTo s t tag v).idleCredit = s.idleCredit := rfl
@[simp] theorem deliverTo_farPorts (s : State) (t : ThreadKey) (tag : Nat) (v : Word) : (deliverTo s t tag v).farPorts = s.farPorts := rfl
@[simp] theorem deliverTo_hostReads (s : State) (t : ThreadKey) (tag : Nat) (v : Word) : (deliverTo s t tag v).hostReads = s.hostReads := rfl
@[simp] theorem deliverTo_hostWrites (s : State) (t : ThreadKey) (tag : Nat) (v : Word) : (deliverTo s t tag v).hostWrites = s.hostWrites := rfl
@[simp] theorem deliverTo_linkDown (s : State) (t : ThreadKey) (tag : Nat) (v : Word) : (deliverTo s t tag v).linkDown = s.linkDown := rfl
@[simp] theorem deliverTo_msix (s : State) (t : ThreadKey) (tag : Nat) (v : Word) : (deliverTo s t tag v).msix = s.msix := rfl
@[simp] theorem deliverTo_notes (s : State) (t : ThreadKey) (tag : Nat) (v : Word) : (deliverTo s t tag v).notes = s.notes := rfl
@[simp] theorem deliverTo_sent (s : State) (t : ThreadKey) (tag : Nat) (v : Word) : (deliverTo s t tag v).sent = s.sent := rfl

/-! ### stopThreads -/

@[simp] theorem stopThreads_agenda (s : State) (c : CoreId) : (stopThreads s c).agenda = s.agenda := rfl
@[simp] theorem stopThreads_moveCount (s : State) (c : CoreId) : (stopThreads s c).moveCount = s.moveCount := rfl
@[simp] theorem stopThreads_freeCount (s : State) (c : CoreId) : (stopThreads s c).freeCount = s.freeCount := rfl
@[simp] theorem stopThreads_focus (s : State) (c : CoreId) : (stopThreads s c).focus = s.focus := rfl
@[simp] theorem stopThreads_seq (s : State) (c : CoreId) : (stopThreads s c).seq = s.seq := rfl
@[simp] theorem stopThreads_clock (s : State) (c : CoreId) : (stopThreads s c).clock = s.clock := rfl
@[simp] theorem stopThreads_mem (s : State) (c : CoreId) : (stopThreads s c).mem = s.mem := rfl
@[simp] theorem stopThreads_pools (s : State) (c : CoreId) : (stopThreads s c).pools = s.pools := rfl
@[simp] theorem stopThreads_boot (s : State) (c : CoreId) : (stopThreads s c).boot = s.boot := rfl
@[simp] theorem stopThreads_dies (s : State) (c : CoreId) : (stopThreads s c).dies = s.dies := rfl
@[simp] theorem stopThreads_cores (s : State) (c : CoreId) : (stopThreads s c).cores = s.cores := rfl
@[simp] theorem stopThreads_slots (s : State) (c : CoreId) : (stopThreads s c).slots = s.slots := rfl
@[simp] theorem stopThreads_groups (s : State) (c : CoreId) : (stopThreads s c).groups = s.groups := rfl
@[simp] theorem stopThreads_warps (s : State) (c : CoreId) : (stopThreads s c).warps = s.warps := rfl
@[simp] theorem stopThreads_ops (s : State) (c : CoreId) : (stopThreads s c).ops = s.ops := rfl
@[simp] theorem stopThreads_banks (s : State) (c : CoreId) : (stopThreads s c).banks = s.banks := rfl
@[simp] theorem stopThreads_watches (s : State) (c : CoreId) : (stopThreads s c).watches = s.watches := rfl
@[simp] theorem stopThreads_homeWatches (s : State) (c : CoreId) : (stopThreads s c).homeWatches = s.homeWatches := rfl
@[simp] theorem stopThreads_engs (s : State) (c : CoreId) : (stopThreads s c).engs = s.engs := rfl
@[simp] theorem stopThreads_packets (s : State) (c : CoreId) : (stopThreads s c).packets = s.packets := rfl
@[simp] theorem stopThreads_endNotes (s : State) (c : CoreId) : (stopThreads s c).endNotes = s.endNotes := rfl
@[simp] theorem stopThreads_contexts (s : State) (c : CoreId) : (stopThreads s c).contexts = s.contexts := rfl
@[simp] theorem stopThreads_tenants (s : State) (c : CoreId) : (stopThreads s c).tenants = s.tenants := rfl
@[simp] theorem stopThreads_queues (s : State) (c : CoreId) : (stopThreads s c).queues = s.queues := rfl
@[simp] theorem stopThreads_gangs (s : State) (c : CoreId) : (stopThreads s c).gangs = s.gangs := rfl
@[simp] theorem stopThreads_latbnd (s : State) (c : CoreId) : (stopThreads s c).latbnd = s.latbnd := rfl
@[simp] theorem stopThreads_rotation (s : State) (c : CoreId) : (stopThreads s c).rotation = s.rotation := rfl
@[simp] theorem stopThreads_nextPoll (s : State) (c : CoreId) : (stopThreads s c).nextPoll = s.nextPoll := rfl
@[simp] theorem stopThreads_requests (s : State) (c : CoreId) : (stopThreads s c).requests = s.requests := rfl
@[simp] theorem stopThreads_lastC0 (s : State) (c : CoreId) : (stopThreads s c).lastC0 = s.lastC0 := rfl
@[simp] theorem stopThreads_dramBanks (s : State) (c : CoreId) : (stopThreads s c).dramBanks = s.dramBanks := rfl
@[simp] theorem stopThreads_phases (s : State) (c : CoreId) : (stopThreads s c).phases = s.phases := rfl
@[simp] theorem stopThreads_misses (s : State) (c : CoreId) : (stopThreads s c).misses = s.misses := rfl
@[simp] theorem stopThreads_ports (s : State) (c : CoreId) : (stopThreads s c).ports = s.ports := rfl
@[simp] theorem stopThreads_regions (s : State) (c : CoreId) : (stopThreads s c).regions = s.regions := rfl
@[simp] theorem stopThreads_route (s : State) (c : CoreId) : (stopThreads s c).route = s.route := rfl
@[simp] theorem stopThreads_linkFail (s : State) (c : CoreId) : (stopThreads s c).linkFail = s.linkFail := rfl
@[simp] theorem stopThreads_arrivals (s : State) (c : CoreId) : (stopThreads s c).arrivals = s.arrivals := rfl
@[simp] theorem stopThreads_idleCredit (s : State) (c : CoreId) : (stopThreads s c).idleCredit = s.idleCredit := rfl
@[simp] theorem stopThreads_farPorts (s : State) (c : CoreId) : (stopThreads s c).farPorts = s.farPorts := rfl
@[simp] theorem stopThreads_hostReads (s : State) (c : CoreId) : (stopThreads s c).hostReads = s.hostReads := rfl
@[simp] theorem stopThreads_hostWrites (s : State) (c : CoreId) : (stopThreads s c).hostWrites = s.hostWrites := rfl
@[simp] theorem stopThreads_linkDown (s : State) (c : CoreId) : (stopThreads s c).linkDown = s.linkDown := rfl
@[simp] theorem stopThreads_msix (s : State) (c : CoreId) : (stopThreads s c).msix = s.msix := rfl
@[simp] theorem stopThreads_notes (s : State) (c : CoreId) : (stopThreads s c).notes = s.notes := rfl
@[simp] theorem stopThreads_sent (s : State) (c : CoreId) : (stopThreads s c).sent = s.sent := rfl

/-! ### bumpFree -/

@[simp] theorem bumpFree_agenda (s : State) : (bumpFree s).agenda = s.agenda := rfl
@[simp] theorem bumpFree_moveCount (s : State) : (bumpFree s).moveCount = s.moveCount := rfl
@[simp] theorem bumpFree_focus (s : State) : (bumpFree s).focus = s.focus := rfl
@[simp] theorem bumpFree_seq (s : State) : (bumpFree s).seq = s.seq := rfl
@[simp] theorem bumpFree_clock (s : State) : (bumpFree s).clock = s.clock := rfl
@[simp] theorem bumpFree_mem (s : State) : (bumpFree s).mem = s.mem := rfl
@[simp] theorem bumpFree_pools (s : State) : (bumpFree s).pools = s.pools := rfl
@[simp] theorem bumpFree_boot (s : State) : (bumpFree s).boot = s.boot := rfl
@[simp] theorem bumpFree_dies (s : State) : (bumpFree s).dies = s.dies := rfl
@[simp] theorem bumpFree_cores (s : State) : (bumpFree s).cores = s.cores := rfl
@[simp] theorem bumpFree_slots (s : State) : (bumpFree s).slots = s.slots := rfl
@[simp] theorem bumpFree_groups (s : State) : (bumpFree s).groups = s.groups := rfl
@[simp] theorem bumpFree_warps (s : State) : (bumpFree s).warps = s.warps := rfl
@[simp] theorem bumpFree_threads (s : State) : (bumpFree s).threads = s.threads := rfl
@[simp] theorem bumpFree_ops (s : State) : (bumpFree s).ops = s.ops := rfl
@[simp] theorem bumpFree_banks (s : State) : (bumpFree s).banks = s.banks := rfl
@[simp] theorem bumpFree_watches (s : State) : (bumpFree s).watches = s.watches := rfl
@[simp] theorem bumpFree_homeWatches (s : State) : (bumpFree s).homeWatches = s.homeWatches := rfl
@[simp] theorem bumpFree_engs (s : State) : (bumpFree s).engs = s.engs := rfl
@[simp] theorem bumpFree_packets (s : State) : (bumpFree s).packets = s.packets := rfl
@[simp] theorem bumpFree_endNotes (s : State) : (bumpFree s).endNotes = s.endNotes := rfl
@[simp] theorem bumpFree_contexts (s : State) : (bumpFree s).contexts = s.contexts := rfl
@[simp] theorem bumpFree_tenants (s : State) : (bumpFree s).tenants = s.tenants := rfl
@[simp] theorem bumpFree_queues (s : State) : (bumpFree s).queues = s.queues := rfl
@[simp] theorem bumpFree_gangs (s : State) : (bumpFree s).gangs = s.gangs := rfl
@[simp] theorem bumpFree_latbnd (s : State) : (bumpFree s).latbnd = s.latbnd := rfl
@[simp] theorem bumpFree_rotation (s : State) : (bumpFree s).rotation = s.rotation := rfl
@[simp] theorem bumpFree_nextPoll (s : State) : (bumpFree s).nextPoll = s.nextPoll := rfl
@[simp] theorem bumpFree_requests (s : State) : (bumpFree s).requests = s.requests := rfl
@[simp] theorem bumpFree_lastC0 (s : State) : (bumpFree s).lastC0 = s.lastC0 := rfl
@[simp] theorem bumpFree_dramBanks (s : State) : (bumpFree s).dramBanks = s.dramBanks := rfl
@[simp] theorem bumpFree_phases (s : State) : (bumpFree s).phases = s.phases := rfl
@[simp] theorem bumpFree_misses (s : State) : (bumpFree s).misses = s.misses := rfl
@[simp] theorem bumpFree_ports (s : State) : (bumpFree s).ports = s.ports := rfl
@[simp] theorem bumpFree_regions (s : State) : (bumpFree s).regions = s.regions := rfl
@[simp] theorem bumpFree_route (s : State) : (bumpFree s).route = s.route := rfl
@[simp] theorem bumpFree_linkFail (s : State) : (bumpFree s).linkFail = s.linkFail := rfl
@[simp] theorem bumpFree_arrivals (s : State) : (bumpFree s).arrivals = s.arrivals := rfl
@[simp] theorem bumpFree_idleCredit (s : State) : (bumpFree s).idleCredit = s.idleCredit := rfl
@[simp] theorem bumpFree_farPorts (s : State) : (bumpFree s).farPorts = s.farPorts := rfl
@[simp] theorem bumpFree_hostReads (s : State) : (bumpFree s).hostReads = s.hostReads := rfl
@[simp] theorem bumpFree_hostWrites (s : State) : (bumpFree s).hostWrites = s.hostWrites := rfl
@[simp] theorem bumpFree_linkDown (s : State) : (bumpFree s).linkDown = s.linkDown := rfl
@[simp] theorem bumpFree_msix (s : State) : (bumpFree s).msix = s.msix := rfl
@[simp] theorem bumpFree_notes (s : State) : (bumpFree s).notes = s.notes := rfl
@[simp] theorem bumpFree_sent (s : State) : (bumpFree s).sent = s.sent := rfl

/-! ### setBank -/

@[simp] theorem setBank_agenda (s : State) (k : Fin 16) (p : Fin 64) (b : Nat) (x : Bank) : (setBank s k p b x).agenda = s.agenda := rfl
@[simp] theorem setBank_moveCount (s : State) (k : Fin 16) (p : Fin 64) (b : Nat) (x : Bank) : (setBank s k p b x).moveCount = s.moveCount := rfl
@[simp] theorem setBank_freeCount (s : State) (k : Fin 16) (p : Fin 64) (b : Nat) (x : Bank) : (setBank s k p b x).freeCount = s.freeCount := rfl
@[simp] theorem setBank_focus (s : State) (k : Fin 16) (p : Fin 64) (b : Nat) (x : Bank) : (setBank s k p b x).focus = s.focus := rfl
@[simp] theorem setBank_seq (s : State) (k : Fin 16) (p : Fin 64) (b : Nat) (x : Bank) : (setBank s k p b x).seq = s.seq := rfl
@[simp] theorem setBank_clock (s : State) (k : Fin 16) (p : Fin 64) (b : Nat) (x : Bank) : (setBank s k p b x).clock = s.clock := rfl
@[simp] theorem setBank_mem (s : State) (k : Fin 16) (p : Fin 64) (b : Nat) (x : Bank) : (setBank s k p b x).mem = s.mem := rfl
@[simp] theorem setBank_pools (s : State) (k : Fin 16) (p : Fin 64) (b : Nat) (x : Bank) : (setBank s k p b x).pools = s.pools := rfl
@[simp] theorem setBank_boot (s : State) (k : Fin 16) (p : Fin 64) (b : Nat) (x : Bank) : (setBank s k p b x).boot = s.boot := rfl
@[simp] theorem setBank_dies (s : State) (k : Fin 16) (p : Fin 64) (b : Nat) (x : Bank) : (setBank s k p b x).dies = s.dies := rfl
@[simp] theorem setBank_cores (s : State) (k : Fin 16) (p : Fin 64) (b : Nat) (x : Bank) : (setBank s k p b x).cores = s.cores := rfl
@[simp] theorem setBank_slots (s : State) (k : Fin 16) (p : Fin 64) (b : Nat) (x : Bank) : (setBank s k p b x).slots = s.slots := rfl
@[simp] theorem setBank_groups (s : State) (k : Fin 16) (p : Fin 64) (b : Nat) (x : Bank) : (setBank s k p b x).groups = s.groups := rfl
@[simp] theorem setBank_warps (s : State) (k : Fin 16) (p : Fin 64) (b : Nat) (x : Bank) : (setBank s k p b x).warps = s.warps := rfl
@[simp] theorem setBank_threads (s : State) (k : Fin 16) (p : Fin 64) (b : Nat) (x : Bank) : (setBank s k p b x).threads = s.threads := rfl
@[simp] theorem setBank_ops (s : State) (k : Fin 16) (p : Fin 64) (b : Nat) (x : Bank) : (setBank s k p b x).ops = s.ops := rfl
@[simp] theorem setBank_banks (s : State) (k : Fin 16) (p : Fin 64) (b : Nat) (x : Bank) : (setBank s k p b x).banks = s.banks := rfl
@[simp] theorem setBank_watches (s : State) (k : Fin 16) (p : Fin 64) (b : Nat) (x : Bank) : (setBank s k p b x).watches = s.watches := rfl
@[simp] theorem setBank_homeWatches (s : State) (k : Fin 16) (p : Fin 64) (b : Nat) (x : Bank) : (setBank s k p b x).homeWatches = s.homeWatches := rfl
@[simp] theorem setBank_engs (s : State) (k : Fin 16) (p : Fin 64) (b : Nat) (x : Bank) : (setBank s k p b x).engs = s.engs := rfl
@[simp] theorem setBank_packets (s : State) (k : Fin 16) (p : Fin 64) (b : Nat) (x : Bank) : (setBank s k p b x).packets = s.packets := rfl
@[simp] theorem setBank_endNotes (s : State) (k : Fin 16) (p : Fin 64) (b : Nat) (x : Bank) : (setBank s k p b x).endNotes = s.endNotes := rfl
@[simp] theorem setBank_contexts (s : State) (k : Fin 16) (p : Fin 64) (b : Nat) (x : Bank) : (setBank s k p b x).contexts = s.contexts := rfl
@[simp] theorem setBank_tenants (s : State) (k : Fin 16) (p : Fin 64) (b : Nat) (x : Bank) : (setBank s k p b x).tenants = s.tenants := rfl
@[simp] theorem setBank_queues (s : State) (k : Fin 16) (p : Fin 64) (b : Nat) (x : Bank) : (setBank s k p b x).queues = s.queues := rfl
@[simp] theorem setBank_gangs (s : State) (k : Fin 16) (p : Fin 64) (b : Nat) (x : Bank) : (setBank s k p b x).gangs = s.gangs := rfl
@[simp] theorem setBank_latbnd (s : State) (k : Fin 16) (p : Fin 64) (b : Nat) (x : Bank) : (setBank s k p b x).latbnd = s.latbnd := rfl
@[simp] theorem setBank_rotation (s : State) (k : Fin 16) (p : Fin 64) (b : Nat) (x : Bank) : (setBank s k p b x).rotation = s.rotation := rfl
@[simp] theorem setBank_nextPoll (s : State) (k : Fin 16) (p : Fin 64) (b : Nat) (x : Bank) : (setBank s k p b x).nextPoll = s.nextPoll := rfl
@[simp] theorem setBank_requests (s : State) (k : Fin 16) (p : Fin 64) (b : Nat) (x : Bank) : (setBank s k p b x).requests = s.requests := rfl
@[simp] theorem setBank_arrivals (s : State) (k : Fin 16) (p : Fin 64) (b : Nat) (x : Bank) : (setBank s k p b x).arrivals = s.arrivals := rfl
@[simp] theorem setBank_lastC0 (s : State) (k : Fin 16) (p : Fin 64) (b : Nat) (x : Bank) : (setBank s k p b x).lastC0 = s.lastC0 := rfl
@[simp] theorem setBank_idleCredit (s : State) (k : Fin 16) (p : Fin 64) (b : Nat) (x : Bank) : (setBank s k p b x).idleCredit = s.idleCredit := rfl
@[simp] theorem setBank_phases (s : State) (k : Fin 16) (p : Fin 64) (b : Nat) (x : Bank) : (setBank s k p b x).phases = s.phases := rfl
@[simp] theorem setBank_misses (s : State) (k : Fin 16) (p : Fin 64) (b : Nat) (x : Bank) : (setBank s k p b x).misses = s.misses := rfl
@[simp] theorem setBank_hostReads (s : State) (k : Fin 16) (p : Fin 64) (b : Nat) (x : Bank) : (setBank s k p b x).hostReads = s.hostReads := rfl
@[simp] theorem setBank_hostWrites (s : State) (k : Fin 16) (p : Fin 64) (b : Nat) (x : Bank) : (setBank s k p b x).hostWrites = s.hostWrites := rfl
@[simp] theorem setBank_ports (s : State) (k : Fin 16) (p : Fin 64) (b : Nat) (x : Bank) : (setBank s k p b x).ports = s.ports := rfl
@[simp] theorem setBank_farPorts (s : State) (k : Fin 16) (p : Fin 64) (b : Nat) (x : Bank) : (setBank s k p b x).farPorts = s.farPorts := rfl
@[simp] theorem setBank_regions (s : State) (k : Fin 16) (p : Fin 64) (b : Nat) (x : Bank) : (setBank s k p b x).regions = s.regions := rfl
@[simp] theorem setBank_route (s : State) (k : Fin 16) (p : Fin 64) (b : Nat) (x : Bank) : (setBank s k p b x).route = s.route := rfl
@[simp] theorem setBank_linkFail (s : State) (k : Fin 16) (p : Fin 64) (b : Nat) (x : Bank) : (setBank s k p b x).linkFail = s.linkFail := rfl
@[simp] theorem setBank_linkDown (s : State) (k : Fin 16) (p : Fin 64) (b : Nat) (x : Bank) : (setBank s k p b x).linkDown = s.linkDown := rfl
@[simp] theorem setBank_msix (s : State) (k : Fin 16) (p : Fin 64) (b : Nat) (x : Bank) : (setBank s k p b x).msix = s.msix := rfl
@[simp] theorem setBank_notes (s : State) (k : Fin 16) (p : Fin 64) (b : Nat) (x : Bank) : (setBank s k p b x).notes = s.notes := rfl
@[simp] theorem setBank_sent (s : State) (k : Fin 16) (p : Fin 64) (b : Nat) (x : Bank) : (setBank s k p b x).sent = s.sent := rfl

/-! ### modEng -/

@[simp] theorem modEng_agenda (s : State) (id : Nat) (f : Eng → Eng) : (modEng s id f).agenda = s.agenda := rfl
@[simp] theorem modEng_moveCount (s : State) (id : Nat) (f : Eng → Eng) : (modEng s id f).moveCount = s.moveCount := rfl
@[simp] theorem modEng_freeCount (s : State) (id : Nat) (f : Eng → Eng) : (modEng s id f).freeCount = s.freeCount := rfl
@[simp] theorem modEng_focus (s : State) (id : Nat) (f : Eng → Eng) : (modEng s id f).focus = s.focus := rfl
@[simp] theorem modEng_seq (s : State) (id : Nat) (f : Eng → Eng) : (modEng s id f).seq = s.seq := rfl
@[simp] theorem modEng_clock (s : State) (id : Nat) (f : Eng → Eng) : (modEng s id f).clock = s.clock := rfl
@[simp] theorem modEng_mem (s : State) (id : Nat) (f : Eng → Eng) : (modEng s id f).mem = s.mem := rfl
@[simp] theorem modEng_pools (s : State) (id : Nat) (f : Eng → Eng) : (modEng s id f).pools = s.pools := rfl
@[simp] theorem modEng_boot (s : State) (id : Nat) (f : Eng → Eng) : (modEng s id f).boot = s.boot := rfl
@[simp] theorem modEng_dies (s : State) (id : Nat) (f : Eng → Eng) : (modEng s id f).dies = s.dies := rfl
@[simp] theorem modEng_cores (s : State) (id : Nat) (f : Eng → Eng) : (modEng s id f).cores = s.cores := rfl
@[simp] theorem modEng_slots (s : State) (id : Nat) (f : Eng → Eng) : (modEng s id f).slots = s.slots := rfl
@[simp] theorem modEng_groups (s : State) (id : Nat) (f : Eng → Eng) : (modEng s id f).groups = s.groups := rfl
@[simp] theorem modEng_warps (s : State) (id : Nat) (f : Eng → Eng) : (modEng s id f).warps = s.warps := rfl
@[simp] theorem modEng_threads (s : State) (id : Nat) (f : Eng → Eng) : (modEng s id f).threads = s.threads := rfl
@[simp] theorem modEng_ops (s : State) (id : Nat) (f : Eng → Eng) : (modEng s id f).ops = s.ops := rfl
@[simp] theorem modEng_banks (s : State) (id : Nat) (f : Eng → Eng) : (modEng s id f).banks = s.banks := rfl
@[simp] theorem modEng_watches (s : State) (id : Nat) (f : Eng → Eng) : (modEng s id f).watches = s.watches := rfl
@[simp] theorem modEng_homeWatches (s : State) (id : Nat) (f : Eng → Eng) : (modEng s id f).homeWatches = s.homeWatches := rfl
@[simp] theorem modEng_packets (s : State) (id : Nat) (f : Eng → Eng) : (modEng s id f).packets = s.packets := rfl
@[simp] theorem modEng_endNotes (s : State) (id : Nat) (f : Eng → Eng) : (modEng s id f).endNotes = s.endNotes := rfl
@[simp] theorem modEng_contexts (s : State) (id : Nat) (f : Eng → Eng) : (modEng s id f).contexts = s.contexts := rfl
@[simp] theorem modEng_tenants (s : State) (id : Nat) (f : Eng → Eng) : (modEng s id f).tenants = s.tenants := rfl
@[simp] theorem modEng_queues (s : State) (id : Nat) (f : Eng → Eng) : (modEng s id f).queues = s.queues := rfl
@[simp] theorem modEng_gangs (s : State) (id : Nat) (f : Eng → Eng) : (modEng s id f).gangs = s.gangs := rfl
@[simp] theorem modEng_latbnd (s : State) (id : Nat) (f : Eng → Eng) : (modEng s id f).latbnd = s.latbnd := rfl
@[simp] theorem modEng_rotation (s : State) (id : Nat) (f : Eng → Eng) : (modEng s id f).rotation = s.rotation := rfl
@[simp] theorem modEng_nextPoll (s : State) (id : Nat) (f : Eng → Eng) : (modEng s id f).nextPoll = s.nextPoll := rfl
@[simp] theorem modEng_requests (s : State) (id : Nat) (f : Eng → Eng) : (modEng s id f).requests = s.requests := rfl
@[simp] theorem modEng_arrivals (s : State) (id : Nat) (f : Eng → Eng) : (modEng s id f).arrivals = s.arrivals := rfl
@[simp] theorem modEng_lastC0 (s : State) (id : Nat) (f : Eng → Eng) : (modEng s id f).lastC0 = s.lastC0 := rfl
@[simp] theorem modEng_dramBanks (s : State) (id : Nat) (f : Eng → Eng) : (modEng s id f).dramBanks = s.dramBanks := rfl
@[simp] theorem modEng_idleCredit (s : State) (id : Nat) (f : Eng → Eng) : (modEng s id f).idleCredit = s.idleCredit := rfl
@[simp] theorem modEng_phases (s : State) (id : Nat) (f : Eng → Eng) : (modEng s id f).phases = s.phases := rfl
@[simp] theorem modEng_misses (s : State) (id : Nat) (f : Eng → Eng) : (modEng s id f).misses = s.misses := rfl
@[simp] theorem modEng_hostReads (s : State) (id : Nat) (f : Eng → Eng) : (modEng s id f).hostReads = s.hostReads := rfl
@[simp] theorem modEng_hostWrites (s : State) (id : Nat) (f : Eng → Eng) : (modEng s id f).hostWrites = s.hostWrites := rfl
@[simp] theorem modEng_ports (s : State) (id : Nat) (f : Eng → Eng) : (modEng s id f).ports = s.ports := rfl
@[simp] theorem modEng_farPorts (s : State) (id : Nat) (f : Eng → Eng) : (modEng s id f).farPorts = s.farPorts := rfl
@[simp] theorem modEng_regions (s : State) (id : Nat) (f : Eng → Eng) : (modEng s id f).regions = s.regions := rfl
@[simp] theorem modEng_route (s : State) (id : Nat) (f : Eng → Eng) : (modEng s id f).route = s.route := rfl
@[simp] theorem modEng_linkFail (s : State) (id : Nat) (f : Eng → Eng) : (modEng s id f).linkFail = s.linkFail := rfl
@[simp] theorem modEng_linkDown (s : State) (id : Nat) (f : Eng → Eng) : (modEng s id f).linkDown = s.linkDown := rfl
@[simp] theorem modEng_msix (s : State) (id : Nat) (f : Eng → Eng) : (modEng s id f).msix = s.msix := rfl
@[simp] theorem modEng_notes (s : State) (id : Nat) (f : Eng → Eng) : (modEng s id f).notes = s.notes := rfl
@[simp] theorem modEng_sent (s : State) (id : Nat) (f : Eng → Eng) : (modEng s id f).sent = s.sent := rfl

/-! ### modQueue -/

@[simp] theorem modQueue_agenda (s : State) (q : QueueId) (f : Queue → Queue) : (modQueue s q f).agenda = s.agenda := rfl
@[simp] theorem modQueue_moveCount (s : State) (q : QueueId) (f : Queue → Queue) : (modQueue s q f).moveCount = s.moveCount := rfl
@[simp] theorem modQueue_freeCount (s : State) (q : QueueId) (f : Queue → Queue) : (modQueue s q f).freeCount = s.freeCount := rfl
@[simp] theorem modQueue_focus (s : State) (q : QueueId) (f : Queue → Queue) : (modQueue s q f).focus = s.focus := rfl
@[simp] theorem modQueue_seq (s : State) (q : QueueId) (f : Queue → Queue) : (modQueue s q f).seq = s.seq := rfl
@[simp] theorem modQueue_clock (s : State) (q : QueueId) (f : Queue → Queue) : (modQueue s q f).clock = s.clock := rfl
@[simp] theorem modQueue_mem (s : State) (q : QueueId) (f : Queue → Queue) : (modQueue s q f).mem = s.mem := rfl
@[simp] theorem modQueue_pools (s : State) (q : QueueId) (f : Queue → Queue) : (modQueue s q f).pools = s.pools := rfl
@[simp] theorem modQueue_boot (s : State) (q : QueueId) (f : Queue → Queue) : (modQueue s q f).boot = s.boot := rfl
@[simp] theorem modQueue_dies (s : State) (q : QueueId) (f : Queue → Queue) : (modQueue s q f).dies = s.dies := rfl
@[simp] theorem modQueue_cores (s : State) (q : QueueId) (f : Queue → Queue) : (modQueue s q f).cores = s.cores := rfl
@[simp] theorem modQueue_slots (s : State) (q : QueueId) (f : Queue → Queue) : (modQueue s q f).slots = s.slots := rfl
@[simp] theorem modQueue_groups (s : State) (q : QueueId) (f : Queue → Queue) : (modQueue s q f).groups = s.groups := rfl
@[simp] theorem modQueue_warps (s : State) (q : QueueId) (f : Queue → Queue) : (modQueue s q f).warps = s.warps := rfl
@[simp] theorem modQueue_threads (s : State) (q : QueueId) (f : Queue → Queue) : (modQueue s q f).threads = s.threads := rfl
@[simp] theorem modQueue_ops (s : State) (q : QueueId) (f : Queue → Queue) : (modQueue s q f).ops = s.ops := rfl
@[simp] theorem modQueue_banks (s : State) (q : QueueId) (f : Queue → Queue) : (modQueue s q f).banks = s.banks := rfl
@[simp] theorem modQueue_watches (s : State) (q : QueueId) (f : Queue → Queue) : (modQueue s q f).watches = s.watches := rfl
@[simp] theorem modQueue_homeWatches (s : State) (q : QueueId) (f : Queue → Queue) : (modQueue s q f).homeWatches = s.homeWatches := rfl
@[simp] theorem modQueue_engs (s : State) (q : QueueId) (f : Queue → Queue) : (modQueue s q f).engs = s.engs := rfl
@[simp] theorem modQueue_packets (s : State) (q : QueueId) (f : Queue → Queue) : (modQueue s q f).packets = s.packets := rfl
@[simp] theorem modQueue_endNotes (s : State) (q : QueueId) (f : Queue → Queue) : (modQueue s q f).endNotes = s.endNotes := rfl
@[simp] theorem modQueue_contexts (s : State) (q : QueueId) (f : Queue → Queue) : (modQueue s q f).contexts = s.contexts := rfl
@[simp] theorem modQueue_tenants (s : State) (q : QueueId) (f : Queue → Queue) : (modQueue s q f).tenants = s.tenants := rfl
@[simp] theorem modQueue_gangs (s : State) (q : QueueId) (f : Queue → Queue) : (modQueue s q f).gangs = s.gangs := rfl
@[simp] theorem modQueue_latbnd (s : State) (q : QueueId) (f : Queue → Queue) : (modQueue s q f).latbnd = s.latbnd := rfl
@[simp] theorem modQueue_rotation (s : State) (q : QueueId) (f : Queue → Queue) : (modQueue s q f).rotation = s.rotation := rfl
@[simp] theorem modQueue_nextPoll (s : State) (q : QueueId) (f : Queue → Queue) : (modQueue s q f).nextPoll = s.nextPoll := rfl
@[simp] theorem modQueue_requests (s : State) (q : QueueId) (f : Queue → Queue) : (modQueue s q f).requests = s.requests := rfl
@[simp] theorem modQueue_arrivals (s : State) (q : QueueId) (f : Queue → Queue) : (modQueue s q f).arrivals = s.arrivals := rfl
@[simp] theorem modQueue_lastC0 (s : State) (q : QueueId) (f : Queue → Queue) : (modQueue s q f).lastC0 = s.lastC0 := rfl
@[simp] theorem modQueue_dramBanks (s : State) (q : QueueId) (f : Queue → Queue) : (modQueue s q f).dramBanks = s.dramBanks := rfl
@[simp] theorem modQueue_idleCredit (s : State) (q : QueueId) (f : Queue → Queue) : (modQueue s q f).idleCredit = s.idleCredit := rfl
@[simp] theorem modQueue_phases (s : State) (q : QueueId) (f : Queue → Queue) : (modQueue s q f).phases = s.phases := rfl
@[simp] theorem modQueue_misses (s : State) (q : QueueId) (f : Queue → Queue) : (modQueue s q f).misses = s.misses := rfl
@[simp] theorem modQueue_hostReads (s : State) (q : QueueId) (f : Queue → Queue) : (modQueue s q f).hostReads = s.hostReads := rfl
@[simp] theorem modQueue_hostWrites (s : State) (q : QueueId) (f : Queue → Queue) : (modQueue s q f).hostWrites = s.hostWrites := rfl
@[simp] theorem modQueue_ports (s : State) (q : QueueId) (f : Queue → Queue) : (modQueue s q f).ports = s.ports := rfl
@[simp] theorem modQueue_farPorts (s : State) (q : QueueId) (f : Queue → Queue) : (modQueue s q f).farPorts = s.farPorts := rfl
@[simp] theorem modQueue_regions (s : State) (q : QueueId) (f : Queue → Queue) : (modQueue s q f).regions = s.regions := rfl
@[simp] theorem modQueue_route (s : State) (q : QueueId) (f : Queue → Queue) : (modQueue s q f).route = s.route := rfl
@[simp] theorem modQueue_linkFail (s : State) (q : QueueId) (f : Queue → Queue) : (modQueue s q f).linkFail = s.linkFail := rfl
@[simp] theorem modQueue_linkDown (s : State) (q : QueueId) (f : Queue → Queue) : (modQueue s q f).linkDown = s.linkDown := rfl
@[simp] theorem modQueue_msix (s : State) (q : QueueId) (f : Queue → Queue) : (modQueue s q f).msix = s.msix := rfl
@[simp] theorem modQueue_notes (s : State) (q : QueueId) (f : Queue → Queue) : (modQueue s q f).notes = s.notes := rfl
@[simp] theorem modQueue_sent (s : State) (q : QueueId) (f : Queue → Queue) : (modQueue s q f).sent = s.sent := rfl

/-! ### modGang -/

@[simp] theorem modGang_agenda (s : State) (k : Nat) (f : Gang → Gang) : (modGang s k f).agenda = s.agenda := rfl
@[simp] theorem modGang_moveCount (s : State) (k : Nat) (f : Gang → Gang) : (modGang s k f).moveCount = s.moveCount := rfl
@[simp] theorem modGang_freeCount (s : State) (k : Nat) (f : Gang → Gang) : (modGang s k f).freeCount = s.freeCount := rfl
@[simp] theorem modGang_focus (s : State) (k : Nat) (f : Gang → Gang) : (modGang s k f).focus = s.focus := rfl
@[simp] theorem modGang_seq (s : State) (k : Nat) (f : Gang → Gang) : (modGang s k f).seq = s.seq := rfl
@[simp] theorem modGang_clock (s : State) (k : Nat) (f : Gang → Gang) : (modGang s k f).clock = s.clock := rfl
@[simp] theorem modGang_mem (s : State) (k : Nat) (f : Gang → Gang) : (modGang s k f).mem = s.mem := rfl
@[simp] theorem modGang_pools (s : State) (k : Nat) (f : Gang → Gang) : (modGang s k f).pools = s.pools := rfl
@[simp] theorem modGang_boot (s : State) (k : Nat) (f : Gang → Gang) : (modGang s k f).boot = s.boot := rfl
@[simp] theorem modGang_dies (s : State) (k : Nat) (f : Gang → Gang) : (modGang s k f).dies = s.dies := rfl
@[simp] theorem modGang_cores (s : State) (k : Nat) (f : Gang → Gang) : (modGang s k f).cores = s.cores := rfl
@[simp] theorem modGang_slots (s : State) (k : Nat) (f : Gang → Gang) : (modGang s k f).slots = s.slots := rfl
@[simp] theorem modGang_groups (s : State) (k : Nat) (f : Gang → Gang) : (modGang s k f).groups = s.groups := rfl
@[simp] theorem modGang_warps (s : State) (k : Nat) (f : Gang → Gang) : (modGang s k f).warps = s.warps := rfl
@[simp] theorem modGang_threads (s : State) (k : Nat) (f : Gang → Gang) : (modGang s k f).threads = s.threads := rfl
@[simp] theorem modGang_ops (s : State) (k : Nat) (f : Gang → Gang) : (modGang s k f).ops = s.ops := rfl
@[simp] theorem modGang_banks (s : State) (k : Nat) (f : Gang → Gang) : (modGang s k f).banks = s.banks := rfl
@[simp] theorem modGang_watches (s : State) (k : Nat) (f : Gang → Gang) : (modGang s k f).watches = s.watches := rfl
@[simp] theorem modGang_homeWatches (s : State) (k : Nat) (f : Gang → Gang) : (modGang s k f).homeWatches = s.homeWatches := rfl
@[simp] theorem modGang_engs (s : State) (k : Nat) (f : Gang → Gang) : (modGang s k f).engs = s.engs := rfl
@[simp] theorem modGang_packets (s : State) (k : Nat) (f : Gang → Gang) : (modGang s k f).packets = s.packets := rfl
@[simp] theorem modGang_endNotes (s : State) (k : Nat) (f : Gang → Gang) : (modGang s k f).endNotes = s.endNotes := rfl
@[simp] theorem modGang_contexts (s : State) (k : Nat) (f : Gang → Gang) : (modGang s k f).contexts = s.contexts := rfl
@[simp] theorem modGang_tenants (s : State) (k : Nat) (f : Gang → Gang) : (modGang s k f).tenants = s.tenants := rfl
@[simp] theorem modGang_queues (s : State) (k : Nat) (f : Gang → Gang) : (modGang s k f).queues = s.queues := rfl
@[simp] theorem modGang_latbnd (s : State) (k : Nat) (f : Gang → Gang) : (modGang s k f).latbnd = s.latbnd := rfl
@[simp] theorem modGang_rotation (s : State) (k : Nat) (f : Gang → Gang) : (modGang s k f).rotation = s.rotation := rfl
@[simp] theorem modGang_nextPoll (s : State) (k : Nat) (f : Gang → Gang) : (modGang s k f).nextPoll = s.nextPoll := rfl
@[simp] theorem modGang_requests (s : State) (k : Nat) (f : Gang → Gang) : (modGang s k f).requests = s.requests := rfl
@[simp] theorem modGang_arrivals (s : State) (k : Nat) (f : Gang → Gang) : (modGang s k f).arrivals = s.arrivals := rfl
@[simp] theorem modGang_lastC0 (s : State) (k : Nat) (f : Gang → Gang) : (modGang s k f).lastC0 = s.lastC0 := rfl
@[simp] theorem modGang_dramBanks (s : State) (k : Nat) (f : Gang → Gang) : (modGang s k f).dramBanks = s.dramBanks := rfl
@[simp] theorem modGang_idleCredit (s : State) (k : Nat) (f : Gang → Gang) : (modGang s k f).idleCredit = s.idleCredit := rfl
@[simp] theorem modGang_phases (s : State) (k : Nat) (f : Gang → Gang) : (modGang s k f).phases = s.phases := rfl
@[simp] theorem modGang_misses (s : State) (k : Nat) (f : Gang → Gang) : (modGang s k f).misses = s.misses := rfl
@[simp] theorem modGang_hostReads (s : State) (k : Nat) (f : Gang → Gang) : (modGang s k f).hostReads = s.hostReads := rfl
@[simp] theorem modGang_hostWrites (s : State) (k : Nat) (f : Gang → Gang) : (modGang s k f).hostWrites = s.hostWrites := rfl
@[simp] theorem modGang_ports (s : State) (k : Nat) (f : Gang → Gang) : (modGang s k f).ports = s.ports := rfl
@[simp] theorem modGang_farPorts (s : State) (k : Nat) (f : Gang → Gang) : (modGang s k f).farPorts = s.farPorts := rfl
@[simp] theorem modGang_regions (s : State) (k : Nat) (f : Gang → Gang) : (modGang s k f).regions = s.regions := rfl
@[simp] theorem modGang_route (s : State) (k : Nat) (f : Gang → Gang) : (modGang s k f).route = s.route := rfl
@[simp] theorem modGang_linkFail (s : State) (k : Nat) (f : Gang → Gang) : (modGang s k f).linkFail = s.linkFail := rfl
@[simp] theorem modGang_linkDown (s : State) (k : Nat) (f : Gang → Gang) : (modGang s k f).linkDown = s.linkDown := rfl
@[simp] theorem modGang_msix (s : State) (k : Nat) (f : Gang → Gang) : (modGang s k f).msix = s.msix := rfl
@[simp] theorem modGang_notes (s : State) (k : Nat) (f : Gang → Gang) : (modGang s k f).notes = s.notes := rfl
@[simp] theorem modGang_sent (s : State) (k : Nat) (f : Gang → Gang) : (modGang s k f).sent = s.sent := rfl

end Sys2Proof.Machine
end

