-- ==== Sys2Proof/Laws/Table.lean ====
section
/-! SUPPORT. The laws of tables and of byte memory: a read after a write, and the canonical form that every memory
operation keeps. -/

namespace Sys2Proof.Machine

/-! ### Tables -/

section Tables

variable {K V : Type} [DecidableEq K]

@[simp] theorem tget_nil (k : K) : tget ([] : Tab K V) k = none := rfl

theorem tget_tset (t : Tab K V) (k j : K) (v : V) : tget (tset t k v) j = if k = j then some v else tget t j := by
  induction t with
  | nil => simp [tset, tget]
  | cons e t ih =>
    obtain ⟨a, b⟩ := e
    by_cases h : a = k
    · subst h; by_cases h2 : a = j <;> simp [tset, tget, h2]
    · by_cases h2 : a = j
      · subst h2; simp [tset, tget, h, Ne.symm h]
      · simp [tset, tget, h, h2, ih]

@[simp] theorem tget_tset_self (t : Tab K V) (k : K) (v : V) : tget (tset t k v) k = some v := by simp [tget_tset]

theorem tget_tset_ne (t : Tab K V) {k j : K} (v : V) (h : k ≠ j) : tget (tset t k v) j = tget t j := by
  simp [tget_tset, h]

theorem tget_tdel (t : Tab K V) (k j : K) : tget (tdel t k) j = if k = j then none else tget t j := by
  induction t with
  | nil => simp [tdel, tget]
  | cons e t ih =>
    obtain ⟨a, b⟩ := e
    by_cases h : a = k
    · subst h
      by_cases h2 : a = j
      · subst h2; simpa [tdel] using ih
      · simpa [tdel, tget, h2] using ih
    · by_cases h2 : a = j
      · subst h2; simp [tdel, tget, h, Ne.symm h]
      · simp [tdel, tget, h, h2, ih]

/-- Setting the value that a key has changes nothing. -/
theorem tset_same (t : Tab K V) {k : K} {v : V} (h : tget t k = some v) : tset t k v = t := by
  induction t with
  | nil => simp at h
  | cons e t ih =>
    obtain ⟨a, b⟩ := e
    by_cases hk : a = k
    · subst hk; simp [tget] at h; simp [tset, h]
    · simp [tget, hk] at h; simp [tset, hk, ih h]

theorem tget_tmod (t : Tab K V) (k j : K) (f : V → V) :
    tget (tmod t k f) j = if k = j then (tget t k).map f else tget t j := by
  unfold tmod
  cases h : tget t k with
  | none => by_cases h2 : k = j
            · subst h2; simp [h]
            · simp [h2]
  | some v => simp [tget_tset]

@[simp] theorem tget_tmod_self (t : Tab K V) (k : K) (f : V → V) : tget (tmod t k f) k = (tget t k).map f := by
  simp [tget_tmod]

theorem tget_tmod_ne (t : Tab K V) {k j : K} (f : V → V) (h : k ≠ j) : tget (tmod t k f) j = tget t j := by
  simp [tget_tmod, h]

/-- A change that changes nothing. -/
theorem tmod_same (t : Tab K V) (k : K) (f : V → V) (h : ∀ v, tget t k = some v → f v = v) : tmod t k f = t := by
  unfold tmod
  cases e : tget t k with
  | none => rfl
  | some v => simp [h v e, tset_same t e]

end Tables

/-- What a fold leaves alone. -/
theorem foldl_keeps {α β γ : Type} (p : α → γ) (f : α → β → α) (h : ∀ a b, p (f a b) = p a) (l : List β) (a : α) :
    p (l.foldl f a) = p a := by
  induction l generalizing a with
  | nil => rfl
  | cons b l ih => simp [ih, h]

/-- What a fold keeps true. -/
theorem foldl_holds {α β : Type} (P : α → Prop) (f : α → β → α) (h : ∀ a b, P a → P (f a b)) (l : List β) (a : α)
    (ha : P a) : P (l.foldl f a) := by
  induction l generalizing a with
  | nil => exact ha
  | cons b l ih => exact ih _ (h _ _ ha)

/-- What a fold keeps true, where the elements of the list matter. -/
theorem foldl_holds_mem {α β : Type} (P : α → Prop) (f : α → β → α) (l : List β) (h : ∀ a, ∀ b ∈ l, P a → P (f a b))
    (a : α) (ha : P a) : P (l.foldl f a) := by
  induction l generalizing a with
  | nil => exact ha
  | cons b l ih =>
    exact ih (fun a c hc => h a c (List.mem_cons_of_mem _ hc)) _ (h _ _ List.mem_cons_self ha)

/-! ### Reading and writing bytes -/

@[simp] theorem memByte_nil (a : Nat) : memByte [] a = 0 := rfl

/-- Below the first listed address memory reads 0. -/
theorem memByte_below {m : Memory} {lo a : Nat} (h : Memory.wfFrom lo m = true) (ha : a < lo) : memByte m a = 0 := by
  induction m generalizing lo with
  | nil => rfl
  | cons c m ih =>
    obtain ⟨x, b⟩ := c
    simp only [Memory.wfFrom, Bool.and_eq_true, decide_eq_true_eq] at h
    have hx : x ≠ a := by omega
    simp only [memByte, hx, if_false]
    exact ih h.2 (by omega)

theorem wfFrom_mono {m : Memory} {lo lo' : Nat} (h : Memory.wfFrom lo m = true) (hl : lo' ≤ lo) :
    Memory.wfFrom lo' m = true := by
  cases m with
  | nil => rfl
  | cons c m =>
    obtain ⟨x, b⟩ := c
    simp only [Memory.wfFrom, Bool.and_eq_true, decide_eq_true_eq] at h ⊢
    exact ⟨⟨by omega, h.1.2⟩, h.2⟩

/-- What a filter by address leaves. -/
theorem memByte_filter (m : Memory) (p : Nat → Bool) (x : Nat) :
    memByte (m.filter fun c => p c.1) x = if p x then memByte m x else 0 := by
  induction m with
  | nil => simp [memByte]
  | cons c m ih =>
    obtain ⟨y, b⟩ := c
    by_cases hp : p y = true
    · rw [List.filter_cons_of_pos (by simpa using hp)]
      by_cases hx : y = x
      · subst hx; simp [memByte, hp]
      · simp only [memByte, hx, if_false]; exact ih
    · rw [List.filter_cons_of_neg (by simpa using hp), ih]
      by_cases hx : y = x
      · subst hx; simp [hp]
      · simp only [memByte, hx, if_false]

/-- What the removal of one address leaves. -/
theorem memByte_without (m : Memory) (a x : Nat) :
    memByte (m.filter fun c => decide (c.1 ≠ a)) x = if x = a then 0 else memByte m x := by
  have h := memByte_filter m (fun y => decide (y ≠ a)) x
  by_cases hx : x = a
  · simpa [hx] using h
  · simpa [hx] using h

/-- A read after a write of one byte, in every memory. -/
theorem memByte_memSet (m : Memory) (a x : Nat) (b : Byte) :
    memByte (memSet m a b) x = if x = a then b else memByte m x := by
  induction m with
  | nil =>
    by_cases hb : b = 0#8 <;> by_cases hx : x = a
    · simp [memSet, hb, hx]
    · simp [memSet, hb]
    · simp [memSet, hb, hx, memByte]
    · simp [memSet, hb, hx, memByte, Ne.symm hx]
  | cons c m ih =>
    obtain ⟨y, b'⟩ := c
    by_cases h1 : a < y
    · by_cases hb : b = 0#8
      · have e : memSet ((y, b') :: m) a b = ((y, b') :: m).filter (fun c => decide (c.1 ≠ a)) := by simp [memSet, h1, hb]
        rw [e, memByte_without, hb]; rfl
      · by_cases hx : x = a
        · simp [memSet, h1, hb, hx, memByte]
        · simp [memSet, h1, hb, hx, memByte, Ne.symm hx]
    · by_cases h2 : y = a
      · subst h2
        by_cases hb : b = 0#8
        · have e : memSet ((y, b') :: m) y b = m.filter (fun c => decide (c.1 ≠ y)) := by simp [memSet, hb]
          rw [e, memByte_without, hb]
          by_cases hx : x = y
          · simp [hx]
          · simp [hx, memByte, Ne.symm hx]
        · by_cases hx : x = y
          · simp [memSet, hb, hx, memByte]
          · simp [memSet, hb, hx, memByte, Ne.symm hx]
      · have e : memSet ((y, b') :: m) a b = (y, b') :: memSet m a b := by simp [memSet, h1, h2]
        rw [e]
        by_cases hx : y = x
        · subst hx; simp [memByte, h2]
        · simp only [memByte, hx, if_false]; exact ih

theorem wfFrom_filter {m : Memory} {lo : Nat} (h : Memory.wfFrom lo m = true) (p : Host.Cell → Bool) :
    Memory.wfFrom lo (m.filter p) = true := by
  induction m generalizing lo with
  | nil => rfl
  | cons c m ih =>
    obtain ⟨y, b⟩ := c
    simp only [Memory.wfFrom, Bool.and_eq_true, decide_eq_true_eq] at h
    by_cases hp : p (y, b) = true
    · rw [List.filter_cons_of_pos hp]
      simp only [Memory.wfFrom, Bool.and_eq_true, decide_eq_true_eq]
      exact ⟨h.1, ih h.2⟩
    · rw [List.filter_cons_of_neg hp]
      exact wfFrom_mono (ih h.2) (by omega)

/-- A write of one byte keeps the canonical form. -/
theorem wfFrom_memSet {m : Memory} {lo : Nat} (h : Memory.wfFrom lo m = true) (a : Nat) (b : Byte) (ha : lo ≤ a) :
    Memory.wfFrom lo (memSet m a b) = true := by
  induction m generalizing lo with
  | nil =>
    by_cases hb : b = 0#8
    · simp [memSet, hb, Memory.wfFrom]
    · simp [memSet, hb, Memory.wfFrom, ha]
  | cons c m ih =>
    obtain ⟨y, b'⟩ := c
    have h0 := h
    simp only [Memory.wfFrom, Bool.and_eq_true, decide_eq_true_eq] at h
    by_cases h1 : a < y
    · by_cases hb : b = 0#8
      · have e : memSet ((y, b') :: m) a b = ((y, b') :: m).filter (fun c => decide (c.1 ≠ a)) := by simp [memSet, h1, hb]
        rw [e]; exact wfFrom_filter h0 _
      · have e : memSet ((y, b') :: m) a b = (a, b) :: (y, b') :: m := by simp [memSet, h1, hb]
        rw [e]
        simp only [Memory.wfFrom, Bool.and_eq_true, decide_eq_true_eq]
        exact ⟨⟨ha, by simpa using hb⟩, ⟨by omega, h.1.2⟩, h.2⟩
    · by_cases h2 : y = a
      · subst h2
        by_cases hb : b = 0#8
        · have e : memSet ((y, b') :: m) y b = m.filter (fun c => decide (c.1 ≠ y)) := by simp [memSet, hb]
          rw [e]; exact wfFrom_mono (wfFrom_filter h.2 _) (by omega)
        · have e : memSet ((y, b') :: m) y b = (y, b) :: m := by simp [memSet, hb]
          rw [e]
          simp only [Memory.wfFrom, Bool.and_eq_true, decide_eq_true_eq]
          exact ⟨⟨ha, by simpa using hb⟩, h.2⟩
      · have e : memSet ((y, b') :: m) a b = (y, b') :: memSet m a b := by simp [memSet, h1, h2]
        rw [e]
        simp only [Memory.wfFrom, Bool.and_eq_true, decide_eq_true_eq]
        exact ⟨⟨h.1.1, h.1.2⟩, ih h.2 (by omega)⟩

theorem wf_memSet {m : Memory} (h : m.wf = true) (a : Nat) (b : Byte) : (memSet m a b).wf = true :=
  wfFrom_memSet h a b (Nat.zero_le _)

theorem wf_memPut {m : Memory} (h : m.wf = true) (a n v : Nat) : (memPut m a n v).wf = true := by
  induction n generalizing m a v with
  | zero => exact h
  | succ n ih => exact ih (wf_memSet h _ _) _ _

theorem wf_memPutBytes {m : Memory} (h : m.wf = true) (a : Nat) (l : List Byte) : (memPutBytes m a l).wf = true := by
  induction l generalizing m a with
  | nil => exact h
  | cons b l ih => exact ih (wf_memSet h _ _) _

theorem wf_filter {m : Memory} (h : m.wf = true) (p : Host.Cell → Bool) : Memory.wf (m.filter p) = true :=
  wfFrom_filter h p

theorem wf_memClear {m : Memory} (h : m.wf = true) (a n : Nat) : (memClear m a n).wf = true := wf_filter h _

theorem wfFrom_append {m m' : Memory} {lo k : Nat} (h : Memory.wfFrom lo m = true) (hm : ∀ c ∈ m, c.1 < k)
    (h' : Memory.wfFrom k m' = true) (hl : lo ≤ k) : Memory.wfFrom lo (m ++ m') = true := by
  induction m generalizing lo with
  | nil => exact wfFrom_mono h' hl
  | cons c m ih =>
    obtain ⟨x, b⟩ := c
    simp only [Memory.wfFrom, Bool.and_eq_true, decide_eq_true_eq, List.cons_append] at h ⊢
    have := hm (x, b) (by simp)
    exact ⟨h.1, ih h.2 (fun c hc => hm c (by simp [hc])) this⟩

theorem wfFrom_above {m : Memory} {lo k : Nat} (h : Memory.wfFrom lo m = true) :
    Memory.wfFrom k (m.filter fun c => decide (k ≤ c.1)) = true := by
  induction m generalizing lo with
  | nil => rfl
  | cons c m ih =>
    obtain ⟨x, b⟩ := c
    simp only [Memory.wfFrom, Bool.and_eq_true, decide_eq_true_eq] at h
    by_cases hx : k ≤ x
    · rw [List.filter_cons_of_pos (by simpa using hx)]
      simp only [Memory.wfFrom, Bool.and_eq_true, decide_eq_true_eq]
      exact ⟨⟨hx, h.1.2⟩, wfFrom_filter h.2 _⟩
    · rw [List.filter_cons_of_neg (by simpa using hx)]
      exact ih h.2

theorem wfFrom_fill (f : Nat → Byte) (a n i : Nat) :
    Memory.wfFrom (a + i) ((rangeFrom (a + i) n).filterMap fun k => if f k = 0 then none else some (k, f k)) = true := by
  induction n generalizing i with
  | zero => rfl
  | succ n ih =>
    have e : rangeFrom (a + i) (n + 1) = (a + i) :: rangeFrom (a + (i + 1)) n := by
      simp only [rangeFrom, List.range_succ_eq_map, List.map_cons, List.map_map, Nat.add_zero]
      congr 1
      apply List.map_congr_left
      intro x _
      simp only [Function.comp]; omega
    rw [e, List.filterMap_cons]
    by_cases h : f (a + i) = 0
    · simp only [h, if_true]
      exact wfFrom_mono (ih (i + 1)) (by omega)
    · simp only [h, if_false, Memory.wfFrom, Bool.and_eq_true, decide_eq_true_eq]
      exact ⟨⟨Nat.le_refl _, by simpa using h⟩, ih (i + 1)⟩

theorem wf_memFill {m : Memory} (h : m.wf = true) (a n : Nat) (f : Nat → Byte) : (memFill m a n f).wf = true := by
  unfold memFill
  rw [List.append_assoc]
  refine wfFrom_append (k := a) (wfFrom_filter h _) (fun c hc => ?_) ?_ (Nat.zero_le _)
  · simpa using (List.mem_filter.mp hc).2
  · refine wfFrom_append (k := a + n) (wfFrom_fill f a n 0) (fun c hc => ?_) (wfFrom_above h) (by omega)
    obtain ⟨k, hk, e⟩ := List.mem_filterMap.mp hc
    simp only [rangeFrom, List.mem_map, List.mem_range] at hk
    split at e
    · cases e
    · cases e; obtain ⟨j, hj, rfl⟩ := hk; simp; omega

theorem memByte_append (m m' : Memory) (x : Nat) :
    memByte (m ++ m') x = if x ∈ m.map (·.1) then memByte m x else memByte m' x := by
  induction m with
  | nil => simp
  | cons c m ih =>
    obtain ⟨y, b⟩ := c
    by_cases hx : y = x
    · simp [memByte, hx]
    · have : x ≠ y := fun e => hx e.symm
      simp only [List.cons_append, memByte, hx, if_false, ih, List.map_cons, List.mem_cons, this, false_or]

theorem memByte_absent {m : Memory} {x : Nat} (h : x ∉ m.map (·.1)) : memByte m x = 0 := by
  induction m with
  | nil => rfl
  | cons c m ih =>
    obtain ⟨y, b⟩ := c
    simp only [List.map_cons, List.mem_cons, not_or] at h
    simp [memByte, Ne.symm h.1, ih h.2]

/-- A filled range reads as it was given, and the bytes beside it stay. -/
theorem memByte_memFill (m : Memory) (a n x : Nat) (f : Nat → Byte) :
    memByte (memFill m a n f) x = if a ≤ x ∧ x < a + n then f x else memByte m x := by
  have mid : ∀ k, k ∈ (((rangeFrom a n).filterMap fun k => if f k = 0 then none else some (k, f k)) : Memory).map (·.1) ↔
      (a ≤ k ∧ k < a + n) ∧ f k ≠ 0 := by
    intro k
    simp only [List.mem_map, List.mem_filterMap, rangeFrom, List.mem_range]
    constructor
    · rintro ⟨c, ⟨j, ⟨i, hi, rfl⟩, e⟩, rfl⟩
      split at e
      · cases e
      · cases e; exact ⟨⟨by simp, by simp; omega⟩, by assumption⟩
    · rintro ⟨⟨h1, h2⟩, h3⟩
      exact ⟨(k, f k), ⟨k, ⟨k - a, by omega, by omega⟩, if_neg h3⟩, rfl⟩
  have midv : ∀ l : List Nat, ∀ k, k ∈ ((l.filterMap fun k => if f k = 0 then none else some (k, f k)) : Memory).map (·.1) →
      memByte (l.filterMap fun k => if f k = 0 then none else some (k, f k)) k = f k := by
    intro l k
    induction l with
    | nil => simp
    | cons j l ih =>
      rw [List.filterMap_cons]
      by_cases h : f j = 0
      · simp only [h, if_true]; exact ih
      · simp only [h, if_false, List.map_cons, List.mem_cons, memByte]
        by_cases hj : j = k
        · simp [hj]
        · simp only [hj, if_false]
          rintro (e | e)
          · exact absurd e.symm hj
          · exact ih e
  unfold memFill
  rw [List.append_assoc, memByte_append, memByte_append, memByte_filter m (fun y => decide (y < a)), memByte_filter m (fun y => decide (a + n ≤ y))]
  by_cases hx : a ≤ x ∧ x < a + n
  · have n1 : x ∉ (m.filter fun c => decide (c.1 < a)).map (·.1) := by
      intro h
      obtain ⟨c, hc, rfl⟩ := List.mem_map.mp h
      have := (List.mem_filter.mp hc).2
      simp at this; omega
    rw [if_neg n1, if_pos hx]
    by_cases hf : f x = 0
    · rw [if_neg (by rw [mid]; simp [hf])]
      have : ¬ a + n ≤ x := by omega
      simp [this, hf]
    · rw [if_pos (by rw [mid]; exact ⟨hx, hf⟩)]
      exact midv _ _ (by rw [mid]; exact ⟨hx, hf⟩)
  · rw [if_neg hx]
    by_cases h1 : x < a
    · by_cases hm : x ∈ (m.filter fun c => decide (c.1 < a)).map (·.1)
      · rw [if_pos hm]; simp [h1]
      · rw [if_neg hm, if_neg (by rw [mid]; exact fun h => hx h.1)]
        have : ¬ a + n ≤ x := by omega
        simp only [this, decide_false, Bool.false_eq_true, if_false]
        symm
        apply memByte_absent
        intro h
        obtain ⟨c, hc, rfl⟩ := List.mem_map.mp h
        exact hm (List.mem_map.mpr ⟨c, List.mem_filter.mpr ⟨hc, by simpa using h1⟩, rfl⟩)
    · have n1 : x ∉ (m.filter fun c => decide (c.1 < a)).map (·.1) := by
        intro h
        obtain ⟨c, hc, rfl⟩ := List.mem_map.mp h
        have := (List.mem_filter.mp hc).2
        simp at this; omega
      rw [if_neg n1, if_neg (by rw [mid]; exact fun h => hx h.1)]
      have : a + n ≤ x := by omega
      simp [this]

/-- A cleared range reads 0, and the bytes beside it stay. -/
theorem memByte_memClear (m : Memory) (a n x : Nat) :
    memByte (memClear m a n) x = if a ≤ x ∧ x < a + n then 0 else memByte m x := by
  induction m with
  | nil => simp [memClear]
  | cons c m ih =>
    obtain ⟨y, b⟩ := c
    unfold memClear at ih ⊢
    by_cases hp : (decide (y < a) || decide (a + n ≤ y)) = true
    · rw [List.filter_cons_of_pos (by simpa using hp)]
      by_cases hx : y = x
      · subst hx
        simp only [Bool.or_eq_true, decide_eq_true_eq] at hp
        have : ¬ (a ≤ y ∧ y < a + n) := by omega
        simp [memByte, this]
      · simp only [memByte, hx, if_false]; exact ih
    · rw [List.filter_cons_of_neg (by simpa using hp)]
      simp only [Bool.or_eq_true, decide_eq_true_eq, not_or, Nat.not_lt, Nat.not_le] at hp
      rw [ih]
      by_cases hx : y = x
      · subst hx; simp [hp.1, hp.2]
      · simp only [memByte, hx, if_false]

/-- The bytes of a number written, and the bytes beside them. -/
theorem memByte_memPut (m : Memory) (a n v x : Nat) :
    memByte (memPut m a n v) x =
      if a ≤ x ∧ x < a + n then BitVec.ofNat 8 (v / 256 ^ (x - a)) else memByte m x := by
  induction n generalizing m a v with
  | zero => rw [if_neg (by omega)]; rfl
  | succ n ih =>
    rw [memPut, ih, memByte_memSet]
    by_cases h1 : a + 1 ≤ x ∧ x < a + 1 + n
    · have h2 : a ≤ x ∧ x < a + (n + 1) := by omega
      have h3 : x - a = (x - (a + 1)) + 1 := by omega
      rw [if_pos h1, if_pos h2, h3, Nat.pow_succ, Nat.mul_comm, ← Nat.div_div_eq_div_mul]
    · rw [if_neg h1]
      by_cases h2 : x = a
      · subst h2
        have : x ≤ x ∧ x < x + (n + 1) := by omega
        simp
      · have : ¬ (a ≤ x ∧ x < a + (n + 1)) := by omega
        simp [h2, this]

/-- The bytes of a list written, and the bytes beside them. -/
theorem memByte_memPutBytes (m : Memory) (a : Nat) (l : List Byte) (x : Nat) :
    memByte (memPutBytes m a l) x = if a ≤ x ∧ x < a + l.length then l.getD (x - a) 0 else memByte m x := by
  induction l generalizing m a with
  | nil => rw [if_neg (by simp)]; rfl
  | cons b l ih =>
    rw [memPutBytes, ih, memByte_memSet]
    by_cases h1 : a + 1 ≤ x ∧ x < a + 1 + l.length
    · have h2 : a ≤ x ∧ x < a + (b :: l).length := by simp; omega
      have h3 : x - a = (x - (a + 1)) + 1 := by omega
      rw [if_pos h1, if_pos h2, h3]; simp
    · rw [if_neg h1]
      by_cases h2 : x = a
      · subst h2; simp
      · have : ¬ (a ≤ x ∧ x < a + (b :: l).length) := by simp; omega
        rw [if_neg this, if_neg h2]

theorem memPutBytes_natBytes (m : Memory) (a n v : Nat) : memPutBytes m a (natBytes n v) = memPut m a n v := by
  induction n generalizing m a v with
  | zero => rfl
  | succ n ih => exact ih _ _ _

@[simp] theorem natBytes_length (n v : Nat) : (natBytes n v).length = n := by
  induction n generalizing v with
  | zero => rfl
  | succ n ih => simp [natBytes, ih]

theorem bytesNat_natBytes (n v : Nat) : bytesNat (natBytes n v) = v % 256 ^ n := by
  induction n generalizing v with
  | zero => simp [natBytes, bytesNat, Nat.mod_one]
  | succ n ih =>
    rw [natBytes, bytesNat, ih, Nat.pow_succ, Nat.mul_comm, Nat.mul_comm (256 ^ n), Nat.mod_mul]
    simp [BitVec.toNat_ofNat, Nat.mul_comm]

end Sys2Proof.Machine
end

