-- ==== Sys2Proof/Laws/Issue.lean ====
section
/-! SUPPORT. What issue does: a group that may issue a word has the word's own effect; results go where their destinations
send them; and a thread that has issued goes on. -/

namespace Sys2Proof.Machine

/-! ### Threads -/

theorem threadOf_modThread (s : State) (t u : ThreadKey) (f : Thread → Thread) :
    threadOf (modThread s t f) u = if t = u then (threadOf s t).map f else threadOf s u := by
  simp [threadOf, modThread, tget_tmod]

@[simp] theorem threadOf_modThread_self (s : State) (t : ThreadKey) (f : Thread → Thread) :
    threadOf (modThread s t f) t = (threadOf s t).map f := by simp [threadOf_modThread]

theorem threadOf_modThread_ne (s : State) {t u : ThreadKey} (f : Thread → Thread) (h : t ≠ u) :
    threadOf (modThread s t f) u = threadOf s u := by simp [threadOf_modThread, h]

/-- A change that changes nothing leaves the state. -/
theorem modThread_same (s : State) (t : ThreadKey) (f : Thread → Thread)
    (h : ∀ th, threadOf s t = some th → f th = th) : modThread s t f = s := by
  unfold modThread; rw [tmod_same _ _ _ h]

/-- One change for each thread of a list without repetition. -/
theorem threadOf_foldl (ts : List ThreadKey) (hn : ts.Nodup) (F : ThreadKey → Thread → Thread) (s : State) (u : ThreadKey) :
    threadOf (ts.foldl (fun a t => modThread a t (F t)) s) u =
      if u ∈ ts then (threadOf s u).map (F u) else threadOf s u := by
  induction ts generalizing s with
  | nil => simp
  | cons t ts ih =>
    have ht := (List.nodup_cons.mp hn)
    rw [List.foldl_cons, ih ht.2]
    by_cases hu : u = t
    · subst hu; simp [ht.1]
    · by_cases hm : u ∈ ts <;> simp [hm, hu, threadOf_modThread_ne _ _ (Ne.symm hu)]

/-- A fold of changes of threads leaves the rest of the state. -/
theorem foldl_modThread_rest (ts : List ThreadKey) (F : ThreadKey → Thread → Thread) (s : State) :
    ts.foldl (fun a t => modThread a t (F t)) s =
      { s with threads := (ts.foldl (fun a t => modThread a t (F t)) s).threads } := by
  induction ts generalizing s with
  | nil => rfl
  | cons t ts ih => rw [List.foldl_cons, ih]; rfl

theorem foldl_modThread_focus (ts : List ThreadKey) (F : ThreadKey → Thread → Thread) (s : State) :
    (ts.foldl (fun a t => modThread a t (F t)) s).focus = s.focus := by rw [foldl_modThread_rest]

/-! ### The checks -/

section Issuable

variable {i : Instr} {s : State}

theorem issuable_nonempty (h : issuable i s = true) : s.focus.threads ≠ [] := by
  simp only [issuable, Bool.and_eq_true, Bool.not_eq_true', List.isEmpty_eq_false_iff] at h
  exact h.1.1

theorem issuable_nodup (h : issuable i s = true) : s.focus.threads.Nodup := by
  simp only [issuable, Bool.and_eq_true, decide_eq_true_eq] at h
  exact h.1.2

/-- What holds of each thread of the group. -/
theorem issuable_thread (h : issuable i s = true) {t : ThreadKey} (ht : t ∈ s.focus.threads) :
    (∃ th, threadOf s t = some th ∧ th.status = .live .ready ∧ th.step = .off) ∧
    ((instrShape i).carry = true → isAway s t = false) ∧ srcsReady s t (instrShape i) = true ∧
    issueCause s t (instrShape i) = none := by
  simp only [issuable, Bool.and_eq_true, List.all_eq_true] at h
  have h1 := h.2 t ht
  obtain ⟨⟨⟨h2, h3⟩, h4⟩, h5⟩ := h1
  refine ⟨?_, ?_, h4, by simpa using h5⟩
  · cases e : threadOf s t with
    | none => simp [e] at h2
    | some th => simp [e] at h2; exact ⟨th, rfl, h2.1, h2.2⟩
  · intro hc; simpa [hc] using h3

end Issuable

@[simp] theorem startCarry_nil (s : State) : startCarry s [] = s := rfl

/-- A group that may issue a word reaches the word's own effect with its whole group. -/
theorem issue_acts {i : Instr} {s : State} (act : List ThreadKey → State → Act) (h : issuable i s = true) :
    issue i act s =
      match act s.focus.threads s with
      | .hold => .next (stallThreads s s.focus.threads)
      | .faults fs => .next (bumpFree (takeFaults (faultWalks s s.focus.core fs) s.focus.core fs))
      | .done s1 next => .next (bumpFree (stepStops (retireAll s1 (instrShape i) next) (next.map (·.1)))) := by
  have hne := issuable_nonempty h
  have hth := fun t (ht : t ∈ s.focus.threads) => issuable_thread h ht
  have haway : (if (instrShape i).carry then s.focus.threads.filter (isAway s) else []) = [] := by
    split
    · rename_i hc
      exact List.filter_eq_nil_iff.mpr fun t ht => by simp [(hth t ht).2.1 hc]
    · rfl
  have hts : (if (instrShape i).carry then s.focus.threads.filter (fun t => !isAway s t) else s.focus.threads) =
      s.focus.threads := by
    split
    · rename_i hc
      exact List.filter_eq_self.mpr fun t ht => by simp [(hth t ht).2.1 hc]
    · rfl
  have hready : s.focus.threads.any (fun t => !srcsReady s t (instrShape i)) = false := by
    simpa [List.any_eq_false] using fun t ht => (hth t ht).2.2.1
  have hcause : issueFaults s (instrShape i) s.focus.threads = [] := by
    simp only [issueFaults, List.filterMap_eq_nil_iff]
    intro t ht
    simp [(hth t ht).2.2.2]
  unfold issue
  cases hf : s.focus.threads with
  | nil => exact absurd hf hne
  | cons t ts =>
    simp only [hf] at haway hts hready hcause ⊢
    simp only [haway, hts, startCarry_nil, hready, hcause, Bool.false_eq_true, if_false] <;>
      cases act (t :: ts) s <;> rfl

/-- Where no thread is being stepped, nothing stops behind the word (R356). -/
theorem stepStops_off (s : State) (ts : List ThreadKey) (h : ∀ t ∈ ts, ∀ th, threadOf s t = some th → th.step = .off) :
    stepStops s ts = s := by
  have h1 : (ts.filter fun t => ((threadOf s t).map (·.stepStops)).getD false) = [] := by
    refine List.filter_eq_nil_iff.mpr fun t ht => ?_
    cases e : threadOf s t with
    | none => simp
    | some th => simp [Thread.stepStops, h t ht th e]
  have h2 : ∀ (l : List ThreadKey) (s : State), (∀ t ∈ l, ∀ th, threadOf s t = some th → th.step = .off) →
      modThreads s l (fun _ th =>
        if th.step = .armed then { th with step := if th.stepStops ∨ th.isEnded then .off else .counted } else th) = s := by
    intro l
    induction l with
    | nil => intro s _; rfl
    | cons t l ih =>
      intro s hs
      have e : modThread s t (fun th =>
          if th.step = .armed then { th with step := if th.stepStops ∨ th.isEnded then .off else .counted } else th) = s :=
        modThread_same _ _ _ fun th hth => by simp [hs t List.mem_cons_self th hth]
      simp only [modThreads, List.foldl_cons] at ih ⊢
      rw [e]
      exact ih s fun u hu => hs u (List.mem_cons_of_mem _ hu)
  unfold stepStops
  simp only [h1, h2 ts s h, if_true]

/-! ### Going on -/

theorem retireAll_eq (s : State) (sh : Shape) (next : List (ThreadKey × Word)) :
    retireAll s sh next = next.foldl (fun a e => modThread a e.1 (retireThread sh (now s) e.2)) s := rfl

/-- The threads after `advance`. -/
theorem threadOf_retire (s0 s : State) (sh : Shape) (ts : List ThreadKey) (hn : ts.Nodup) (u : ThreadKey) :
    threadOf (retireAll s sh (advance s0 ts)) u =
      if u ∈ ts then (threadOf s u).map (retireThread sh (now s) (pcOf s0 u + 4)) else threadOf s u := by
  have : retireAll s sh (advance s0 ts) =
      ts.foldl (fun a t => modThread a t (retireThread sh (now s) (pcOf s0 t + 4))) s := by
    simp [retireAll_eq, advance, List.foldl_map]
  rw [this, threadOf_foldl ts hn]

theorem retireAll_rest (s : State) (sh : Shape) (next : List (ThreadKey × Word)) :
    retireAll s sh next = { s with threads := (retireAll s sh next).threads } := by
  rw [retireAll_eq]
  generalize now s = c
  induction next generalizing s with
  | nil => rfl
  | cons e l ih => rw [List.foldl_cons, ih]; rfl

@[simp] theorem retireThread_step (sh : Shape) (c : Nat) (n : Word) (th : Thread) :
    (retireThread sh c n th).step = th.step := rfl

@[simp] theorem advance_keys (s : State) (ts : List ThreadKey) : (advance s ts).map (·.1) = ts := by
  simp [advance, Function.comp_def]

/-- A Ready thread goes on. -/
theorem retireThread_ready (sh : Shape) (hh : sh.hint = false) (c : Nat) (n : Word) (th : Thread)
    (h : th.status = .live .ready) : retireThread sh c n th = issued c sh.st n th.regs th := by
  simp [retireThread, issued, hh, h]

/-! ### Results -/

/-- The queue after a push (R20), and the named registers. -/
theorem regs_push (r : Regs) (v : Word) (due : Nat) (pend : Option Nat) :
    (r.push v due pend).qcell 0 = ⟨v, (r.qcell 15).held, due, pend⟩ ∧
    (∀ k : Fin 16, k ≠ 15 → (r.push v due pend).qcell (k + 1) = r.qcell k) ∧
    (r.push v due pend).named = r.named := by
  have e : r.head + (15 : Fin 16) = r.head - 1 := by
    have : ∀ h : Fin 16, h + 15 = h - 1 := by decide
    exact this _
  refine ⟨?_, ?_, rfl⟩
  · have e0 : r.head - 1 + (0 : Fin 16) = r.head - 1 := by simp
    simp [Regs.qcell, Regs.qslot, Regs.push, RCell.next, e, e0]
  · intro k hk
    have e1 : r.head - 1 + (k + 1) = r.head + k := by
      have : ∀ h k : Fin 16, h - 1 + (k + 1) = h + k := by decide
      exact this _ _
    have e2 : r.head - 1 ≠ r.head + k := by
      have : ∀ h k : Fin 16, k ≠ 15 → h - 1 ≠ h + k := by decide
      exact this _ _ hk
    simp only [Regs.qcell, Regs.qslot, Regs.push, e1]
    exact Vector.getElem_set_ne _ _ (fun x => e2 (Fin.ext x))

/-- A result goes where its destination sends it (R21). -/
theorem regs_give (r : Regs) (d : PDst) (v : Word) (due : Nat) (pend : Option Nat) :
    Gave r (r.give d v due pend) d v due pend := by
  have hp := regs_push r v due pend
  cases d with
  | push => exact ⟨hp.1, hp.2.1, hp.2.2⟩
  | named i =>
    refine ⟨hp.1, hp.2.1, ?_, ?_⟩
    · simp [Regs.give, Regs.put, Regs.push, RCell.next]
    · intro j hj
      simp only [Regs.give, Regs.put, Regs.push]
      exact Vector.getElem_set_ne _ _ (fun x => hj (Fin.ext x.symm))

end Sys2Proof.Machine
end

