-- ==== Sys2Proof/Laws/Except.lean ====
section
/-! SUPPORT. What taking an exception does, for threads of home and guest slots. -/

namespace Sys2Proof.Machine

/-- A change of the values of a table that keeps its keys. -/
theorem tget_map {K V : Type} [DecidableEq K] (t : Tab K V) (g : K × V → K × V) (f : K → V → V)
    (h : ∀ k v, g (k, v) = (k, f k v)) (k : K) : tget (t.map g) k = (tget t k).map (f k) := by
  induction t with
  | nil => rfl
  | cons e t ih =>
    obtain ⟨k', v⟩ := e
    simp only [List.map_cons, h, tget]
    by_cases hk : k' = k
    · subst hk; simp
    · simp [hk, ih]

/-- Logging changes tenants, vectors and notes only. -/
theorem logViolation_rest (s : State) (t : Fin 64) (r : LogRec) :
    logViolation s t r = { s with
      tenants := (logViolation s t r).tenants, msix := (logViolation s t r).msix, notes := (logViolation s t r).notes } := by
  have h1 : ∀ (s : State) p f v, raiseMsix s p f v =
      { s with msix := (raiseMsix s p f v).msix, notes := (raiseMsix s p f v).notes } := by
    intro s p f v; unfold raiseMsix; dsimp only; split <;> rfl
  have h2 : ∀ (s : State) t v, raiseVector s t v =
      { s with msix := (raiseVector s t v).msix, notes := (raiseVector s t v).notes } := by
    intro s t v; unfold raiseVector; dsimp only
    split <;> split
    · rfl
    · rw [h1]
    · rw [h1]
    · rw [h1, h1 s]
  unfold logViolation; dsimp only
  rw [h2]; rfl

theorem logFaults_rest (fs : List FaultRec) (s : State) :
    logFaults s fs = { s with
      tenants := (logFaults s fs).tenants, msix := (logFaults s fs).msix, notes := (logFaults s fs).notes } := by
  unfold logFaults
  induction fs generalizing s with
  | nil => rfl
  | cons f fs ih =>
    rw [List.foldl_cons]
    cases f.log with
    | none => exact ih s
    | some r => dsimp only; rw [ih, logViolation_rest]

/-! ### The walks of faults (R364) -/

theorem postAt_rest (s : State) (port : Nat) (op : Option Nat) (c : CoreId) (ctx : Nat) (cls : Fin 4) (dl : Option Nat)
    (more : List Stamp) (pa len : Nat) : postAt s port op c ctx cls dl more pa len = { s with
      requests := (postAt s port op c ctx cls dl more pa len).requests
      arrivals := s.arrivals + 1
      dramBanks := (postAt s port op c ctx cls dl more pa len).dramBanks } := rfl

/-- What changes the controllers only does so in a row, too. -/
theorem foldl_controllers_rest {α : Type} (F : State → α → State) (h : ∀ a x, F a x = { a with
      requests := (F a x).requests, arrivals := (F a x).arrivals, dramBanks := (F a x).dramBanks }) (l : List α) (s : State) :
    l.foldl F s = { s with
      requests := (l.foldl F s).requests, arrivals := (l.foldl F s).arrivals, dramBanks := (l.foldl F s).dramBanks } := by
  induction l generalizing s with
  | nil => rfl
  | cons x l ih => rw [List.foldl_cons, ih, h]

theorem postPlain_rest (l : List (Nat × Nat)) (d : Fin 8) (ctx : Nat) (cls : Fin 4) (s : State) :
    postPlain s d ctx cls l = { s with
      requests := (postPlain s d ctx cls l).requests
      arrivals := (postPlain s d ctx cls l).arrivals
      dramBanks := (postPlain s d ctx cls l).dramBanks } :=
  foldl_controllers_rest _ (fun _ _ => postAt_rest ..) l s

/-- Posting the reads of walks changes the controllers only. -/
theorem faultWalks_rest (fs : List FaultRec) (c : CoreId) (s : State) :
    faultWalks s c fs = { s with
      requests := (faultWalks s c fs).requests
      arrivals := (faultWalks s c fs).arrivals
      dramBanks := (faultWalks s c fs).dramBanks } := by
  refine foldl_controllers_rest _ (fun a f => ?_) fs s
  dsimp only
  split
  · exact postPlain_rest ..
  · rfl

/-- Faults that no walk has found post nothing. -/
theorem faultWalks_none (fs : List FaultRec) (c : CoreId) (s : State) (h : ∀ f ∈ fs, f.walked = false) : faultWalks s c fs = s := by
  unfold faultWalks
  have key : ∀ (l : List FaultRec) (a : State), (∀ f ∈ l, f.walked = false) → l.foldl (fun a f =>
      let x := ctxIdOf s f.thread
      let va := f.addr.toNat
      if f.walked && (tlbFind (coreOf s c).tlb x va).isNone && (tlbFind (dieOf s c.die).tlb x va).isNone then
        postPlain a c.die x 2 (walkAsks s x va)
      else a) a = a := by
    intro l
    induction l with
    | nil => intro a _; rfl
    | cons f l ih =>
      intro a hl
      rw [List.foldl_cons, hl f List.mem_cons_self]
      exact ih a fun g hg => hl g (List.mem_cons_of_mem _ hg)
  exact key fs s h

/-- One entry. -/
theorem threadOf_addEntry (s : State) (f : FaultRec) (t : ThreadKey) :
    threadOf (addEntry s f) t = if f.thread = t then (threadOf s t).map (fun th =>
      { th with
        pc := if firstFault th ∧ f.cause = .trap then f.pc else th.pc
        res := if firstFault th then .none else th.res
        entry := entryAfter false (some f) th }) else threadOf s t := by
  unfold addEntry
  rw [threadOf_modThread]
  split
  · rename_i hf; subst hf
    cases threadOf s f.thread with
    | none => rfl
    | some th =>
      simp only [Option.map_some, Thread.openEntry]
      cases h : th.entry <;> cases hr : th.res <;> simp [entryAfter, firstFault, h, hr]
  · rfl

theorem addEntry_rest (s : State) (f : FaultRec) : addEntry s f = { s with threads := (addEntry s f).threads } := rfl

theorem foldl_addEntry_rest (fs : List FaultRec) (s : State) :
    fs.foldl addEntry s = { s with threads := (fs.foldl addEntry s).threads } := by
  induction fs generalizing s with
  | nil => rfl
  | cons f fs ih => rw [List.foldl_cons, ih]; rfl

theorem threadOf_entries (fs : List FaultRec) (hn : (fs.map (·.thread)).Nodup) (s : State) (t : ThreadKey) :
    threadOf (fs.foldl addEntry s) t = (threadOf s t).map (fun th =>
      { th with
        pc := match fs.find? (fun f => f.thread = t) with
          | some f => if firstFault th ∧ f.cause = .trap then f.pc else th.pc
          | none => th.pc
        res := if (fs.find? fun f => f.thread = t).isSome ∧ firstFault th then .none else th.res
        entry := entryAfter false (fs.find? fun f => f.thread = t) th }) := by
  induction fs generalizing s with
  | nil =>
    cases h : threadOf s t with
    | none => simpa using h
    | some th => simp only [List.foldl_nil, h, Option.map_some, List.find?_nil, entryAfter]; rfl
  | cons f fs ih =>
    have hh := List.nodup_cons.mp (show (f.thread :: fs.map (·.thread)).Nodup from hn)
    rw [List.foldl_cons, ih hh.2, threadOf_addEntry]
    by_cases h : f.thread = t
    · have : fs.find? (fun g => decide (g.thread = t)) = none := by
        rw [List.find?_eq_none]; intro g hg
        simp only [decide_eq_true_eq]
        intro e; exact hh.1 (by rw [h, ← e]; exact List.mem_map_of_mem hg)
      rw [this]
      cases threadOf s t with
      | none => simp [h]
      | some th => simp [h, entryAfter]
    · simp [h]

theorem threadOf_stopThreads (s : State) (c : CoreId) (t : ThreadKey) :
    threadOf (stopThreads s c) t = (threadOf s t).map (fun th =>
      { th with status := match th.status with
          | .live l => if th.place.core = c ∧ t.isHandler = false then .stopped l else .live l
          | x => x }) := by
  refine tget_map s.threads _ (fun k th => { th with status := match th.status with
    | .live l => if th.place.core = c ∧ k.isHandler = false then .stopped l else .live l
    | x => x }) ?_ t
  intro k th
  obtain ⟨st⟩ := th
  cases st
  case live l =>
    dsimp only
    by_cases h : (‹Place›).core = c ∧ k.isHandler = false
    · simp only [if_pos h]
    · simp only [if_neg h]
  all_goals rfl

/-- The handler's threads after an invocation starts, and the others with their entries seen. -/
theorem tget_handlers (ls : List (Fin 32)) (hn : ls.Nodup) (ths : Tab ThreadKey Thread) (c : CoreId) (f : Fin 32 → Thread)
    (t : ThreadKey) :
    tget (ls.foldl (fun x l => tset x (ThreadKey.handler c l) (f l)) ths) t =
      match t with
      | .handler k l => if k = c ∧ l ∈ ls then some (f l) else tget ths t
      | .home _ _ _ => tget ths t := by
  induction ls generalizing ths with
  | nil => cases t <;> simp
  | cons l ls ih =>
    have hh := List.nodup_cons.mp hn
    rw [List.foldl_cons, ih hh.2]
    cases t with
    | home g h j => simp [tget_tset]
    | handler k j =>
      by_cases hk : k = c
      · subst hk
        by_cases hj : j = l
        · subst hj; simp [hh.1]
        · by_cases hm : j ∈ ls
          · simp [hm]
          · simp [hm, hj, tget_tset, Ne.symm hj]
      · simp [hk, tget_tset, Ne.symm hk]

/-- A fold that sets bits: bit i is set exactly where some element names it. -/
theorem foldl_bits {α : Type} (l : List α) (p : α → Bool) (slot : α → Fin 64) (m : Word) (i : Fin 64) :
    (l.foldl (fun (m : Word) e => if p e = true then m ||| (1 <<< (slot e).val) else m) m).getLsbD i.val = true ↔
      m.getLsbD i.val = true ∨ ∃ e ∈ l, p e = true ∧ slot e = i := by
  induction l generalizing m with
  | nil => simp
  | cons e l ih =>
    rw [List.foldl_cons, ih]
    have hi := i.isLt
    by_cases hp : p e = true
    · have hb : (1 <<< (slot e).val : Word).getLsbD i.val = decide (slot e = i) := by
        have : (1 <<< (slot e).val : Word) = BitVec.twoPow 64 (slot e).val := by
          apply BitVec.eq_of_toNat_eq; simp [BitVec.toNat_twoPow, Nat.shiftLeft_eq]
        rw [this, BitVec.getLsbD_twoPow]
        have : (slot e).val < 64 := (slot e).isLt
        simp [this, Fin.ext_iff]
      simp only [hp, if_true, BitVec.getLsbD_or, hb, Bool.or_eq_true, decide_eq_true_eq, List.mem_cons, exists_eq_or_imp]
      tauto
    · simp [hp]

theorem mem_tset_ne {K V : Type} [DecidableEq K] (t : Tab K V) (k : K) (v : V) (e : K × V) (h : e.1 ≠ k) :
    e ∈ tset t k v ↔ e ∈ t := by
  induction t with
  | nil => simp only [tset, List.mem_singleton, List.not_mem_nil, iff_false]; rintro rfl; exact h rfl
  | cons x t ih =>
    obtain ⟨k', v'⟩ := x
    simp only [tset]
    by_cases hk : k' = k
    · subst hk
      simp only [if_true, List.mem_cons]
      constructor
      · rintro (rfl | h1)
        · exact absurd rfl h
        · exact .inr h1
      · rintro (rfl | h1)
        · exact absurd rfl h
        · exact .inr h1
    · simp [hk, ih]

theorem mem_handlers (ls : List (Fin 32)) (ths : Tab ThreadKey Thread) (c : CoreId) (f : Fin 32 → Thread)
    (e : ThreadKey × Thread) (h : e.1.isHandler = false) :
    e ∈ ls.foldl (fun x l => tset x (ThreadKey.handler c l) (f l)) ths ↔ e ∈ ths := by
  induction ls generalizing ths with
  | nil => rfl
  | cons l ls ih =>
    rw [List.foldl_cons, ih, mem_tset_ne]
    rintro h1; rw [h1] at h; simp [ThreadKey.isHandler] at h

theorem entrySlots_bits (s : State) (c : CoreId) (i : Fin 64) : (entrySlots s c).getLsbD i.val = true ↔
    ∃ e ∈ s.threads, e.1.isHandler = false ∧ e.2.place.core = c ∧ e.2.place.slot = i ∧ e.2.entry.isSome = true ∧
      e.2.res = .none := by
  have hf := foldl_bits s.threads (fun e => decide (e.1.isHandler = false ∧ e.2.place.core = c ∧ e.2.entry.isSome = true ∧
    e.2.res = .none)) (fun e => e.2.place.slot) 0 i
  have h0 : ((0 : Word).getLsbD i.val = true) ↔ False := by simp
  simp only [decide_eq_true_eq, h0, false_or] at hf
  unfold entrySlots
  rw [hf]
  constructor
  · rintro ⟨e, he, ⟨h1, h2, h3, h4⟩, h5⟩; exact ⟨e, he, h1, h2, h5, h3, h4⟩
  · rintro ⟨e, he, h1, h2, h5, h3, h4⟩; exact ⟨e, he, ⟨h1, h2, h3, h4⟩, h5⟩

theorem invokeHandler_rest (s : State) (c : CoreId) : invokeHandler s c = { s with
    threads := (invokeHandler s c).threads, warps := (invokeHandler s c).warps
    cores := (invokeHandler s c).cores, slots := (invokeHandler s c).slots } := by
  simp only [invokeHandler, modSlot, modCore, setCore]

/-- The slots that w0 names are those with an unresolved entry when the invocation has started (R353). -/
theorem invoke_bits (s : State) (c : CoreId) (i : Fin 64) : (entrySlots s c).getLsbD i.val = true ↔
    ∃ e ∈ (invokeHandler s c).threads, e.1.isHandler = false ∧ e.2.place.core = c ∧ e.2.place.slot = i ∧
      e.2.entry.isSome = true ∧ e.2.res = .none := by
  rw [entrySlots_bits]
  have hthreads : (invokeHandler s c).threads = (List.finRange 32).foldl (fun x l => tset x (ThreadKey.handler c l)
      (handlerThread (handlerPc s ((coreOf s c).ctx.getD 0)) c l)) (s.threads.map fun e =>
        if e.2.place.core = c ∧ e.1.isHandler = false then
          (e.1, { e.2 with entry := e.2.entry.map fun x => { x with seen := true } }) else e) := by
    simp only [invokeHandler, modSlot, modCore, setCore]
  rw [hthreads]
  constructor
  · rintro ⟨e, he, h1, h2, h5, h3, h4⟩
    refine ⟨(e.1, { e.2 with entry := e.2.entry.map fun x => { x with seen := true } }), ?_, h1, h2, h5, ?_, h4⟩
    · refine (mem_handlers _ _ _ _ _ ?_).mpr ?_
      · exact h1
      refine List.mem_map.mpr ⟨e, he, ?_⟩
      rw [if_pos ⟨h2, h1⟩]
    · simpa using h3
  · rintro ⟨e, he, h1, h2, h5, h3, h4⟩
    rw [mem_handlers _ _ _ _ _ h1] at he
    obtain ⟨x, hx, rfl⟩ := List.mem_map.mp he
    by_cases hp : x.2.place.core = c ∧ x.1.isHandler = false
    · rw [if_pos hp] at h1 h2 h3 h4 h5
      exact ⟨x, hx, hp.2, hp.1, h5, by simpa using h3, h4⟩
    · rw [if_neg hp] at h1 h2
      exact absurd ⟨h2, h1⟩ hp

/-- Taking faults of home threads and ladles (R351 to R353). -/
theorem takeFaults_trapped (s : State) (c : CoreId) (fs : List FaultRec) (hh : ∀ f ∈ fs, f.thread.isHandler = false)
    (hn : (fs.map (·.thread)).Nodup) : Trapped (logFaults s fs) (takeFaults s c fs) c fs := by
  have hfind : fs.find? (·.thread.isHandler) = none := by
    rw [List.find?_eq_none]; intro f hf; simp [hh f hf]
  unfold takeFaults
  simp only [hfind]
  generalize logFaults s fs = s0
  -- the threads once stopped and entered
  have hth : ∀ t, threadOf (fs.foldl addEntry (stopThreads s0 c)) t = (threadOf s0 t).map (fun th =>
      { th with
        status := match th.status with
          | .live l => if th.place.core = c ∧ t.isHandler = false then .stopped l else .live l
          | x => x
        pc := match fs.find? (fun f => f.thread = t) with
          | some f => if firstFault th ∧ f.cause = .trap then f.pc else th.pc
          | none => th.pc
        res := if (fs.find? fun f => f.thread = t).isSome ∧ firstFault th then .none else th.res
        entry := entryAfter false (fs.find? fun f => f.thread = t) th }) := by
    intro t
    rw [threadOf_entries fs hn, threadOf_stopThreads, Option.map_map]; rfl
  have hrest : fs.foldl addEntry (stopThreads s0 c) =
      { s0 with threads := (fs.foldl addEntry (stopThreads s0 c)).threads } := by
    rw [foldl_addEntry_rest]; rfl
  have hfh : ∀ k l, fs.find? (fun f => decide (f.thread = .handler k l)) = none := by
    intro k l; rw [List.find?_eq_none]; intro f hf; simp only [decide_eq_true_eq]
    intro e; have := hh f hf; rw [e] at this; simp [ThreadKey.isHandler] at this
  generalize fs.foldl addEntry (stopThreads s0 c) = s2 at hth hrest
  have hcore : ∀ k, coreOf s2 k = coreOf s0 k := by intro k; rw [hrest]; rfl
  have hcoreS : coreOf (modCore s2 c fun k => { k with stopped := true }) c = { coreOf s0 c with stopped := true } := by
    rw [← hcore c]; simp [coreOf, modCore, setCore]
  have hcoreN : ∀ k, k ≠ c → coreOf (modCore s2 c fun k => { k with stopped := true }) k = coreOf s0 k := by
    intro k hk; rw [← hcore k]; simp only [coreOf, modCore, setCore, tget_tset, if_neg (Ne.symm hk)]
  by_cases hst : (coreOf s0 c).stopped = true ∨ (coreOf s0 c).handler.isSome = true
  · have hs : (!(coreOf s0 c).stopped && (coreOf s0 c).handler.isNone) = false := by
      revert hst
      cases (coreOf s0 c).stopped <;> cases (coreOf s0 c).handler <;> simp
    rw [if_pos (by rw [hcoreS]; exact hst)]
    refine ⟨?_, hcoreN, ?_, ?_, ?_, ?_, ?_, ?_, ?_⟩
    · rw [hcoreS, hs]; rfl
    · intro t ht
      show threadOf s2 t = _
      rw [hth t, hs]
      cases threadOf s0 t with
      | none => rfl
      | some th => simp only [Option.map_some, trappedThread, ht, and_true, Bool.false_and] <;> rfl
    · intro k l
      show threadOf s2 _ = _
      rw [hth, hs, hfh]
      cases threadOf s0 (.handler k l) with
      | none => simp
      | some th =>
        simp only [Option.map_some, entryAfter, Bool.false_eq_true, false_and, if_false, ThreadKey.isHandler, Bool.true_eq_false,
          and_false]
        obtain ⟨st⟩ := th; cases st <;> rfl
    · intro w _; show tget s2.warps w = _; rw [hrest]
    · intro k i _; show slotOf s2 k i = _; rw [hrest]; rfl
    · intro h; rw [hs] at h; exact absurd h (by decide)
    · intro a; show memByte s2.mem a = _; rw [hrest]
    · rw [hrest]; rfl
  · have hs : (!(coreOf s0 c).stopped && (coreOf s0 c).handler.isNone) = true := by
      revert hst
      cases (coreOf s0 c).stopped <;> cases (coreOf s0 c).handler <;> simp
    rw [if_neg (by rw [hcoreS]; exact hst)]
    have hctx : ∀ k, ctxOf (modCore s2 c fun k => { k with stopped := true }) k = ctxOf s0 k := by
      intro k; rw [hrest]; rfl
    generalize hs3 : modCore s2 c (fun k => { k with stopped := true }) = s3 at hcoreS hcoreN hctx
    have hth3 : s3.threads = s2.threads := by rw [← hs3]; rfl
    have hrest3 : s3 = { s0 with threads := s3.threads, cores := s3.cores } := by
      rw [← hs3, hrest]; rfl
    have hhp : handlerPc s3 ((coreOf s3 c).ctx.getD 0) = handlerPc s0 ((coreOf s0 c).ctx.getD 0) := by
      unfold handlerPc; rw [hctx, hcoreS]
    have hseen : ∀ t, tget (s3.threads.map fun e => if e.2.place.core = c ∧ e.1.isHandler = false then
        (e.1, { e.2 with entry := e.2.entry.map fun x => { x with seen := true } }) else e) t =
        (threadOf s2 t).map fun th => if th.place.core = c ∧ t.isHandler = false then
          { th with entry := th.entry.map fun x => { x with seen := true } } else th := by
      intro t
      rw [hth3]
      refine tget_map s2.threads _ (fun k th => if th.place.core = c ∧ k.isHandler = false then
          { th with entry := th.entry.map fun x => { x with seen := true } } else th) ?_ t
      intro k v; dsimp only; split <;> rfl
    have hthr : ∀ t, threadOf (invokeHandler s3 c) t = match t with
        | .handler k l => if k = c then some (handlerThread (handlerPc s0 ((coreOf s0 c).ctx.getD 0)) c l)
            else threadOf s2 (.handler k l)
        | .home g h l => (threadOf s2 (.home g h l)).map fun th => if th.place.core = c then
          { th with entry := th.entry.map fun x => { x with seen := true } } else th := by
      intro t
      show tget (invokeHandler s3 c).threads t = _
      unfold invokeHandler
      dsimp only [modSlot, modCore, setCore]
      rw [tget_handlers _ (List.nodup_finRange 32), hhp]
      cases t with
      | home g h l => rw [hseen]; simp [ThreadKey.isHandler]
      | handler k l =>
        by_cases hk : k = c
        · simp [hk]
        · simp only [hk, false_and, if_false]; rw [hseen]; simp [ThreadKey.isHandler]
    refine ⟨?_, ?_, ?_, ?_, ?_, ?_, ?_, ?_, ?_⟩
    · rw [hs]
      have : coreOf (invokeHandler s3 c) c = { coreOf s3 c with handler := some ⟨0⟩, dozing := false } := by
        simp only [invokeHandler, coreOf, modSlot, modCore, setCore, tget_tset, if_true, Option.getD_some]
      rw [this, hcoreS]; rfl
    · intro k hk
      rw [← hcoreN k hk]
      simp only [invokeHandler, coreOf, modSlot, modCore, setCore, tget_tset, if_neg (Ne.symm hk)]
    · intro t ht
      rw [hthr, hs]
      cases t with
      | handler k l => simp [ThreadKey.isHandler] at ht
      | home g h l =>
        dsimp only
        rw [hth]
        cases threadOf s0 (.home g h l) with
        | none => rfl
        | some th =>
          simp only [Option.map_some, trappedThread, ThreadKey.isHandler, and_true, Bool.true_and]
          by_cases hp : th.place.core = c
          · simp only [hp, if_true, decide_true, entryAfter, Bool.false_eq_true, if_false] <;> rfl
          · simp only [hp, if_false, decide_false, entryAfter, Bool.false_eq_true] <;> rfl
    · intro k l
      rw [hthr, hs]
      by_cases hk : k = c
      · simp [hk]
      · simp only [hk, if_false, and_false]
        rw [hth, hfh]
        cases threadOf s0 (.handler k l) with
        | none => simp
        | some th =>
          simp only [Option.map_some, entryAfter, Bool.false_eq_true, if_false, ThreadKey.isHandler, Bool.true_eq_false,
            and_false]
          obtain ⟨st⟩ := th; cases st <;> rfl
    · intro w hw
      show tget (tset _ _ _) w = _
      rw [tget_tset, if_neg (Ne.symm hw)]
      show tget s3.warps w = _
      rw [hrest3]
    · intro k i hki
      show slotOf (modSlot _ c 63 _) k i = _
      simp only [slotOf, modSlot, tget_tset, if_neg (Ne.symm hki)]
      show (tget s3.slots (k, i)).getD _ = _
      rw [hrest3]
    · intro _
      refine ⟨_, (show tget (tset _ _ _) (WarpKey.handler c) = _ by rw [tget_tset, if_pos rfl]), rfl, ?_, ?_⟩
      · intro i hi
        have : (0 : Nat) ≠ i.val := fun e => hi (Fin.ext e.symm)
        simp [Vector.getElem_set_ne, this]
      · intro i
        exact invoke_bits s3 c i
    · intro a; show memByte s3.mem a = _; rw [hrest3]
    · have hf : (invokeHandler s3 c).freeCount = s0.freeCount := by rw [invokeHandler_rest]; rw [hrest3]
      refine (invokeHandler_rest s3 c).trans ?_
      rw [hf]
      generalize (invokeHandler s3 c).threads = a1
      generalize (invokeHandler s3 c).warps = a2
      generalize (invokeHandler s3 c).cores = a3
      generalize (invokeHandler s3 c).slots = a4
      rw [hrest3]

end Sys2Proof.Machine
end

