-- ==== Sys2Proof/Laws/Group.lean ====
section
/-! SUPPORT. The order in which the groups of a gang are placed leaves no group out and takes none twice. -/

namespace Sys2Proof.Machine

theorem insertAt_perm (x : Nat) (l : List Nat) (i : Nat) : (insertAt x l i).Perm (x :: l) := by
  induction l generalizing i with
  | nil => exact .refl _
  | cons y l ih =>
    cases i with
    | zero => exact .refl _
    | succ n => exact ((ih n).cons y).trans (.swap x y l)

theorem placeOrder_perm (s : State) (l : List Nat) : (placeOrder s l).Perm l := by
  induction l with
  | nil => exact .refl _
  | cons i l ih => exact (insertAt_perm i _ _).trans (ih.cons i)

/-- A gang is placed by placing its groups one after another, in some order. -/
theorem placeGroups?_some {d : Fin 8} {ph : Phase} {gids : List Nat} {s t : State} (h : placeGroups? d ph gids s = some t) :
    ∃ l u, l.Perm gids ∧ placeAll? d ph l s = some u ∧ t = { u with freeCount := u.freeCount + 1 } := by
  unfold placeGroups? at h
  split at h
  · next s1 e => exact ⟨_, s1, placeOrder_perm s gids, e, (Option.some.inj h).symm⟩
  · cases e : placeAll? d ph gids s with
    | none => rw [e] at h; exact nomatch h
    | some u => rw [e] at h; exact ⟨gids, u, .refl _, e, (Option.some.inj h).symm⟩

end Sys2Proof.Machine
end

