-- ==== Sys2Proof/Laws/PerInstr.lean ====
section
/-! SUPPORT. One lemma for each constructor of Instr: the major opcode of its word is the one that spec/opcode_table.json fixes in bits
31:26, with every operand at every value, and an event has no word (R17, R18). -/

namespace Sys2Proof.Laws

open Sys2Proof

/-- Bits 31:26 of the words of an instruction, as spec/opcode_table.json fixes them; an event has none. -/
def Major.code : Instr → Option Nat
  | .hintNop _ _ _ => some 0
  | .hintYield _ _ => some 0
  | .hintDead _ _ => some 0
  | .hintPref _ _ => some 0
  | .hintMod _ _ => some 0
  | .hintDln _ _ => some 0
  | .hintPhase _ _ => some 0
  | .lit _ _ => some 1
  | .illegalWord w => some (w.toNat / 67108864)
  | .iadd _ _ _ _ _ _ => some 2
  | .isub _ _ _ _ _ _ => some 3
  | .imul _ _ _ _ _ => some 4
  | .imulhS _ _ _ _ _ => some 4
  | .imulhU _ _ _ _ _ => some 4
  | .imin _ _ _ _ _ _ => some 5
  | .imax _ _ _ _ _ _ => some 5
  | .iabs _ _ _ _ => some 5
  | .andW _ _ _ _ => some 6
  | .orW _ _ _ _ => some 6
  | .xorW _ _ _ _ => some 6
  | .andn _ _ _ _ => some 6
  | .shl _ _ _ _ _ => some 7
  | .shr _ _ _ _ _ => some 7
  | .sar _ _ _ _ _ => some 7
  | .rot _ _ _ _ _ => some 7
  | .popc _ _ _ _ => some 8
  | .clz _ _ _ _ => some 8
  | .brev _ _ _ _ => some 8
  | .bfe _ _ _ _ _ => some 8
  | .icmp _ _ _ _ _ _ => some 9
  | .lea _ _ _ _ _ => some 10
  | .mov _ _ _ => some 11
  | .smov _ _ _ => some 11
  | .shfl _ _ _ _ => some 11
  | .grow _ _ => some 12
  | .growTry _ _ _ => some 12
  | .shrink _ _ => some 12
  | .imad _ _ _ _ _ _ => some 13
  | .bfi _ _ _ _ _ _ => some 14
  | .sel _ _ _ _ _ => some 15
  | .iaddi _ _ _ _ => some 16
  | .andi _ _ _ _ => some 17
  | .ori _ _ _ _ => some 18
  | .xori _ _ _ _ => some 19
  | .shli _ _ _ _ => some 20
  | .shri _ _ _ _ => some 21
  | .sari _ _ _ _ => some 22
  | .movi _ _ _ => some 23
  | .fadd _ _ _ _ _ _ _ => some 24
  | .fsub _ _ _ _ _ _ _ => some 24
  | .fmul _ _ _ _ _ _ _ => some 25
  | .fmin _ _ _ _ => some 26
  | .fmax _ _ _ _ => some 26
  | .fcmp _ _ _ _ _ => some 27
  | .frcp _ _ _ => some 28
  | .frsq _ _ _ => some 28
  | .fexp2 _ _ _ => some 28
  | .flog2 _ _ _ => some 28
  | .fsin _ _ _ => some 28
  | .fcos _ _ _ => some 28
  | .ftanh _ _ _ => some 28
  | .fcvt _ _ _ _ _ _ => some 29
  | .hadd2 _ _ _ _ _ => some 30
  | .hmul2 _ _ _ _ _ => some 30
  | .hmax2 _ _ _ _ _ => some 30
  | .ffma _ _ _ _ _ _ _ => some 31
  | .hfma2 _ _ _ _ _ _ _ => some 32
  | .bra _ _ => some 33
  | .bnz _ _ _ => some 34
  | .bz _ _ _ => some 35
  | .call _ _ => some 36
  | .jmpr _ _ => some 37
  | .ret _ _ => some 37
  | .join _ _ => some 38
  | .leave _ _ => some 38
  | .waitk _ _ => some 38
  | .voteAll _ _ _ _ => some 38
  | .voteAny _ _ _ _ => some 38
  | .voteBal _ _ _ _ => some 38
  | .voteCnt _ _ _ _ => some 38
  | .exit _ => some 39
  | .tail _ => some 39
  | .trap _ _ => some 40
  | .brk _ => some 40
  | .srd _ _ _ => some 40
  | .lds _ _ _ _ _ => some 41
  | .sts _ _ _ _ _ => some 42
  | .ld _ _ _ _ _ => some 43
  | .store _ _ _ _ _ => some 44
  | .cvec _ _ _ _ _ => some 45
  | .cred _ _ _ _ => some 46
  | .credStat _ _ => some 46
  | .csmx _ _ _ _ => some 47
  | .ccvt _ _ _ => some 48
  | .cqnt _ _ _ => some 48
  | .catom _ _ _ _ _ => some 49
  | .ccas _ _ _ _ => some 50
  | .cwait _ => some 51
  | .cfence _ => some 51
  | .atom _ _ _ _ _ _ => some 52
  | .acas _ _ _ _ _ => some 53
  | .fence _ _ _ => some 54
  | .waita _ _ _ _ => some 55
  | .copy _ _ _ _ => some 56
  | .gath _ _ _ _ => some 56
  | .scat _ _ _ _ => some 56
  | .stkred _ _ _ _ => some 56
  | .stkcvt _ _ _ _ => some 56
  | .cpwait _ _ _ => some 56
  | .seal _ _ _ _ => some 57
  | .shape _ _ _ _ => some 57
  | .mxld _ _ _ _ => some 57
  | .mxmm _ _ _ _ => some 57
  | .mxsp _ _ _ _ => some 57
  | .oprdy _ => some 57
  | .mxwait _ _ _ => some 57
  | .acz _ _ _ _ => some 57
  | .acld _ _ _ _ => some 57
  | .acst _ _ _ _ => some 57
  | .binit _ _ _ => some 58
  | .barr _ _ _ => some 58
  | .barrx _ _ _ _ => some 58
  | .bwait _ _ _ _ => some 58
  | .bxin _ _ _ => some 58
  | .bxout _ _ _ => some 58
  | .go _ _ _ => some 59
  | .homeW _ => some 59
  | .whereW _ _ _ => some 59
  | .qpost _ _ _ _ => some 60
  | .evsig _ _ _ => some 60
  | .sig _ _ => some 60
  | .crit _ _ _ => some 60
  | .mhint _ _ _ _ => some 61
  | .tret _ => some 62
  | .trd _ _ _ => some 62
  | .twr _ _ _ => some 62
  | .tres _ _ _ => some 62
  | .tstop _ _ _ => some 62
  | .tkill _ _ _ => some 62
  | .pinv _ _ _ => some 62
  | _ => none

/-- The word of the instruction has the major opcode of its row. -/
def Major.Statement (i : Instr) : Prop := (encode i).map (fun w => w.toNat / 67108864) = Major.code i

theorem major_srcCode (a : Src) : srcCode a < 64 := by cases a <;> simp only [srcCode] <;> omega
theorem major_pdstCode (d : PDst) : pdstCode d < 64 := by cases d <;> simp only [pdstCode] <;> omega
theorem major_dstCode (d : Dst) : dstCode d < 64 := by
  cases d with
  | thread p => exact major_pdstCode p
  | uni i => simp only [dstCode]; omega
theorem major_bit (b : Bool) : bit b < 2 := by cases b <;> decide

theorem major_widthBit (n : Width) : widthBit n < 2 := by cases n <;> decide
theorem major_satCode (m : SatMode) : satCode m < 3 := by cases m <;> decide
theorem major_relCode (r : ICmpRel) : relCode r < 6 := by cases r <;> decide
theorem major_frelCode (r : FCmpRel) : frelCode r < 7 := by cases r <;> decide
theorem major_cvecOpCode (x : CvecOp) : cvecOpCode x < 5 := by cases x <;> decide
theorem major_credOpCode (x : CredOp) : credOpCode x < 3 := by cases x <;> decide
theorem major_atomOpCode (x : AtomOp) : atomOpCode x < 8 := by cases x <;> decide
theorem major_scopeCode (x : Scope) : scopeCode x < 4 := by cases x <;> decide
theorem major_fenceKindCode (x : FenceKind) : fenceKindCode x < 3 := by cases x <;> decide
theorem major_memWCode (x : MemW) : memWCode x < 8 := by cases x <;> decide
theorem major_rndCode (x : RndCode) : rndCode x < 8 := by cases x <;> decide
theorem major_specialCode (x : Special) : specialCode x < 16 := by cases x <;> decide
theorem major_ffmtCode (x : FFmt) : ffmtCode x < 5 := by cases x <;> decide
theorem major_cvtDstCode (x : CvtDst) : cvtDstCode x < 8 := by
  cases x with
  | float f => have := major_ffmtCode f; simp only [cvtDstCode]; omega
  | _ => decide
theorem major_cvtSrcCode (x : CvtSrc) : cvtSrcCode x < 16 := by
  cases x with
  | float f => have := major_ffmtCode f; simp only [cvtSrcCode]; omega
  | _ => decide

theorem major_ofNat {x op : Nat} (h : op < 64) (h1 : op * 67108864 ≤ x) (h2 : x < (op + 1) * 67108864) :
    (BitVec.ofNat 32 x).toNat / 67108864 = op := by
  rw [BitVec.toNat_ofNat, Nat.mod_eq_of_lt (by omega)]
  omega

theorem major_encA (op a b d fn w : Nat) (st : Stall) (h : op < 64) (ha : a < 64) (hb : b < 64) (hd : d < 64) (hf : fn < 16)
    (hw : w < 2) : (BitVec.ofNat 32 (encA op a b d fn w st)).toNat / 67108864 = op :=
  major_ofNat h (by simp only [encA]; omega) (by have := st.isLt; simp only [encA]; omega)

theorem major_encI (op a d : Nat) (i : BitVec 10) (w : Nat) (st : Stall) (h : op < 64) (ha : a < 64) (hd : d < 64) (hw : w < 2) :
    (BitVec.ofNat 32 (encI op a d i w st)).toNat / 67108864 = op :=
  major_ofNat h (by simp only [encI]; omega) (by have := st.isLt; have := i.isLt; simp only [encI]; omega)

theorem major_encM (op a d w : Nat) (i : BitVec 8) (st : Stall) (h : op < 64) (ha : a < 64) (hd : d < 64) (hw : w < 8) :
    (BitVec.ofNat 32 (encM op a d w i st)).toNat / 67108864 = op :=
  major_ofNat h (by simp only [encM]; omega) (by have := st.isLt; have := i.isLt; simp only [encM]; omega)

theorem major_encB (op a : Nat) (i : BitVec 17) (st : Stall) (h : op < 64) (ha : a < 64) :
    (BitVec.ofNat 32 (encB op a i st)).toNat / 67108864 = op :=
  major_ofNat h (by simp only [encB]; omega) (by have := st.isLt; have := i.isLt; simp only [encB]; omega)

theorem major_encH (k : Nat) (p : BitVec 19) (st : Stall) (h : k < 16) :
    (BitVec.ofNat 32 (encH k p st)).toNat / 67108864 = 0 :=
  major_ofNat (by omega) (by omega) (by have := st.isLt; have := p.isLt; simp only [encH]; omega)

theorem major_lit (v : BitVec 22) (st : Stall) : (BitVec.ofNat 32 (67108864 + v.toNat * 16 + st.val)).toNat / 67108864 = 1 :=
  major_ofNat (by omega) (by omega) (by have := st.isLt; have := v.isLt; omega)


theorem Major.hintNop : ∀ k p st, Major.Statement (.hintNop k p st) :=
  fun _ _ _ => congrArg some (major_encH _ _ _ (by omega))
theorem Major.hintYield : ∀ p st, Major.Statement (.hintYield p st) :=
  fun _ _ => congrArg some (major_encH _ _ _ (by decide))
theorem Major.hintDead : ∀ p st, Major.Statement (.hintDead p st) :=
  fun _ _ => congrArg some (major_encH _ _ _ (by decide))
theorem Major.hintPref : ∀ p st, Major.Statement (.hintPref p st) :=
  fun _ _ => congrArg some (major_encH _ _ _ (by decide))
theorem Major.hintMod : ∀ p st, Major.Statement (.hintMod p st) :=
  fun _ _ => congrArg some (major_encH _ _ _ (by decide))
theorem Major.hintDln : ∀ p st, Major.Statement (.hintDln p st) :=
  fun _ _ => congrArg some (major_encH _ _ _ (by decide))
theorem Major.hintPhase : ∀ p st, Major.Statement (.hintPhase p st) :=
  fun _ _ => congrArg some (major_encH _ _ _ (by decide))
theorem Major.lit : ∀ v st, Major.Statement (.lit v st) :=
  fun _ _ => congrArg some (major_lit _ _)
theorem Major.illegalWord : ∀ w, Major.Statement (.illegalWord w) := fun w => congrArg (fun x => some (x / 67108864))     (by have := w.isLt; rw [BitVec.toNat_ofNat]; exact Nat.mod_eq_of_lt (by omega))
theorem Major.iadd : ∀ n m a b d st, Major.Statement (.iadd n m a b d st) :=
  fun n m a b d _ => congrArg some (major_encA _ _ _ _ _ _ _ (by decide) (major_srcCode a) (major_srcCode b) (major_dstCode d) (by have := major_widthBit n; have := major_satCode m; omega) (major_bit _))
theorem Major.isub : ∀ n m a b d st, Major.Statement (.isub n m a b d st) :=
  fun n m a b d _ => congrArg some (major_encA _ _ _ _ _ _ _ (by decide) (major_srcCode a) (major_srcCode b) (major_dstCode d) (by have := major_widthBit n; have := major_satCode m; omega) (major_bit _))
theorem Major.imul : ∀ n a b d st, Major.Statement (.imul n a b d st) :=
  fun n a b d _ => congrArg some (major_encA _ _ _ _ _ _ _ (by decide) (major_srcCode a) (major_srcCode b) (major_dstCode d) (by have := major_widthBit n; omega) (major_bit _))
theorem Major.imulhS : ∀ n a b d st, Major.Statement (.imulhS n a b d st) :=
  fun n a b d _ => congrArg some (major_encA _ _ _ _ _ _ _ (by decide) (major_srcCode a) (major_srcCode b) (major_dstCode d) (by have := major_widthBit n; omega) (major_bit _))
theorem Major.imulhU : ∀ n a b d st, Major.Statement (.imulhU n a b d st) :=
  fun n a b d _ => congrArg some (major_encA _ _ _ _ _ _ _ (by decide) (major_srcCode a) (major_srcCode b) (major_dstCode d) (by have := major_widthBit n; omega) (major_bit _))
theorem Major.imin : ∀ n u a b d st, Major.Statement (.imin n u a b d st) :=
  fun n u a b d _ => congrArg some (major_encA _ _ _ _ _ _ _ (by decide) (major_srcCode a) (major_srcCode b) (major_dstCode d) (by have := major_widthBit n; have := major_bit u; omega) (major_bit _))
theorem Major.imax : ∀ n u a b d st, Major.Statement (.imax n u a b d st) :=
  fun n u a b d _ => congrArg some (major_encA _ _ _ _ _ _ _ (by decide) (major_srcCode a) (major_srcCode b) (major_dstCode d) (by have := major_widthBit n; have := major_bit u; omega) (major_bit _))
theorem Major.iabs : ∀ n a d st, Major.Statement (.iabs n a d st) :=
  fun n a d _ => congrArg some (major_encA _ _ _ _ _ _ _ (by decide) (major_srcCode a) (by decide) (major_dstCode d) (by have := major_widthBit n; omega) (major_bit _))
theorem Major.andW : ∀ a b d st, Major.Statement (.andW a b d st) :=
  fun a b d _ => congrArg some (major_encA _ _ _ _ _ _ _ (by decide) (major_srcCode a) (major_srcCode b) (major_dstCode d) (by decide) (major_bit _))
theorem Major.orW : ∀ a b d st, Major.Statement (.orW a b d st) :=
  fun a b d _ => congrArg some (major_encA _ _ _ _ _ _ _ (by decide) (major_srcCode a) (major_srcCode b) (major_dstCode d) (by decide) (major_bit _))
theorem Major.xorW : ∀ a b d st, Major.Statement (.xorW a b d st) :=
  fun a b d _ => congrArg some (major_encA _ _ _ _ _ _ _ (by decide) (major_srcCode a) (major_srcCode b) (major_dstCode d) (by decide) (major_bit _))
theorem Major.andn : ∀ a b d st, Major.Statement (.andn a b d st) :=
  fun a b d _ => congrArg some (major_encA _ _ _ _ _ _ _ (by decide) (major_srcCode a) (major_srcCode b) (major_dstCode d) (by decide) (major_bit _))
theorem Major.shl : ∀ n a b d st, Major.Statement (.shl n a b d st) :=
  fun n a b d _ => congrArg some (major_encA _ _ _ _ _ _ _ (by decide) (major_srcCode a) (major_srcCode b) (major_dstCode d) (by have := major_widthBit n; omega) (major_bit _))
theorem Major.shr : ∀ n a b d st, Major.Statement (.shr n a b d st) :=
  fun n a b d _ => congrArg some (major_encA _ _ _ _ _ _ _ (by decide) (major_srcCode a) (major_srcCode b) (major_dstCode d) (by have := major_widthBit n; omega) (major_bit _))
theorem Major.sar : ∀ n a b d st, Major.Statement (.sar n a b d st) :=
  fun n a b d _ => congrArg some (major_encA _ _ _ _ _ _ _ (by decide) (major_srcCode a) (major_srcCode b) (major_dstCode d) (by have := major_widthBit n; omega) (major_bit _))
theorem Major.rot : ∀ n a b d st, Major.Statement (.rot n a b d st) :=
  fun n a b d _ => congrArg some (major_encA _ _ _ _ _ _ _ (by decide) (major_srcCode a) (major_srcCode b) (major_dstCode d) (by have := major_widthBit n; omega) (major_bit _))
theorem Major.popc : ∀ n a d st, Major.Statement (.popc n a d st) :=
  fun n a d _ => congrArg some (major_encA _ _ _ _ _ _ _ (by decide) (major_srcCode a) (by decide) (major_dstCode d) (by have := major_widthBit n; omega) (major_bit _))
theorem Major.clz : ∀ n a d st, Major.Statement (.clz n a d st) :=
  fun n a d _ => congrArg some (major_encA _ _ _ _ _ _ _ (by decide) (major_srcCode a) (by decide) (major_dstCode d) (by have := major_widthBit n; omega) (major_bit _))
theorem Major.brev : ∀ n a d st, Major.Statement (.brev n a d st) :=
  fun n a d _ => congrArg some (major_encA _ _ _ _ _ _ _ (by decide) (major_srcCode a) (by decide) (major_dstCode d) (by have := major_widthBit n; omega) (major_bit _))
theorem Major.bfe : ∀ n a b d st, Major.Statement (.bfe n a b d st) :=
  fun n a b d _ => congrArg some (major_encA _ _ _ _ _ _ _ (by decide) (major_srcCode a) (major_srcCode b) (major_dstCode d) (by have := major_widthBit n; omega) (major_bit _))
theorem Major.icmp : ∀ n r a b d st, Major.Statement (.icmp n r a b d st) :=
  fun n r a b d _ => congrArg some (major_encA _ _ _ _ _ _ _ (by decide) (major_srcCode a) (major_srcCode b) (major_dstCode d) (by have := major_widthBit n; have := major_relCode r; omega) (major_bit _))
theorem Major.lea : ∀ sh a b d st, Major.Statement (.lea sh a b d st) :=
  fun _ a b d _ => congrArg some (major_encA _ _ _ _ _ _ _ (by decide) (major_srcCode a) (major_srcCode b) (major_dstCode d) (by omega) (major_bit _))
theorem Major.mov : ∀ a d st, Major.Statement (.mov a d st) :=
  fun a d _ => congrArg some (major_encA _ _ _ _ _ _ _ (by decide) (major_srcCode a) (by decide) (major_dstCode d) (by decide) (major_bit _))
theorem Major.smov : ∀ a d st, Major.Statement (.smov a d st) :=
  fun a _ _ => congrArg some (major_encA _ _ _ _ _ _ _ (by decide) (major_srcCode a) (by decide) (by omega) (by decide) (by decide))
theorem Major.shfl : ∀ a b d st, Major.Statement (.shfl a b d st) :=
  fun _ b d _ => congrArg some (major_encA _ _ _ _ _ _ _ (by decide) (by omega) (major_srcCode b) (major_pdstCode d) (by decide) (by decide))
theorem Major.grow : ∀ t st, Major.Statement (.grow t st) :=
  fun _ _ => congrArg some (major_encA _ _ _ _ _ _ _ (by decide) (by omega) (by decide) (by decide) (by decide) (by decide))
theorem Major.growTry : ∀ t d st, Major.Statement (.growTry t d st) :=
  fun _ d _ => congrArg some (major_encA _ _ _ _ _ _ _ (by decide) (by omega) (by decide) (major_pdstCode d) (by decide) (by decide))
theorem Major.shrink : ∀ t st, Major.Statement (.shrink t st) :=
  fun _ _ => congrArg some (major_encA _ _ _ _ _ _ _ (by decide) (by omega) (by decide) (by decide) (by decide) (by decide))
theorem Major.imad : ∀ n a b c u st, Major.Statement (.imad n a b c u st) :=
  fun n a b c _ _ => congrArg some (major_encA _ _ _ _ _ _ _ (by decide) (major_srcCode a) (major_srcCode b) (major_srcCode c) (by have := major_widthBit n; omega) (major_bit _))
theorem Major.bfi : ∀ n a b c u st, Major.Statement (.bfi n a b c u st) :=
  fun n a b c _ _ => congrArg some (major_encA _ _ _ _ _ _ _ (by decide) (major_srcCode a) (major_srcCode b) (major_srcCode c) (by have := major_widthBit n; omega) (major_bit _))
theorem Major.sel : ∀ a b c u st, Major.Statement (.sel a b c u st) :=
  fun a b c _ _ => congrArg some (major_encA _ _ _ _ _ _ _ (by decide) (major_srcCode a) (major_srcCode b) (major_srcCode c) (by decide) (major_bit _))
theorem Major.iaddi : ∀ a d i st, Major.Statement (.iaddi a d i st) :=
  fun a d _ _ => congrArg some (major_encI _ _ _ _ _ _ (by decide) (major_srcCode a) (major_dstCode d) (major_bit _))
theorem Major.andi : ∀ a d i st, Major.Statement (.andi a d i st) :=
  fun a d _ _ => congrArg some (major_encI _ _ _ _ _ _ (by decide) (major_srcCode a) (major_dstCode d) (major_bit _))
theorem Major.ori : ∀ a d i st, Major.Statement (.ori a d i st) :=
  fun a d _ _ => congrArg some (major_encI _ _ _ _ _ _ (by decide) (major_srcCode a) (major_dstCode d) (major_bit _))
theorem Major.xori : ∀ a d i st, Major.Statement (.xori a d i st) :=
  fun a d _ _ => congrArg some (major_encI _ _ _ _ _ _ (by decide) (major_srcCode a) (major_dstCode d) (major_bit _))
theorem Major.shli : ∀ a d i st, Major.Statement (.shli a d i st) :=
  fun a d _ _ => congrArg some (major_encI _ _ _ _ _ _ (by decide) (major_srcCode a) (major_dstCode d) (major_bit _))
theorem Major.shri : ∀ a d i st, Major.Statement (.shri a d i st) :=
  fun a d _ _ => congrArg some (major_encI _ _ _ _ _ _ (by decide) (major_srcCode a) (major_dstCode d) (major_bit _))
theorem Major.sari : ∀ a d i st, Major.Statement (.sari a d i st) :=
  fun a d _ _ => congrArg some (major_encI _ _ _ _ _ _ (by decide) (major_srcCode a) (major_dstCode d) (major_bit _))
theorem Major.movi : ∀ d i st, Major.Statement (.movi d i st) :=
  fun d _ _ => congrArg some (major_encI _ _ _ _ _ _ (by decide) (by decide) (major_dstCode d) (major_bit _))
theorem Major.fadd : ∀ na aa ab a b d st, Major.Statement (.fadd na aa ab a b d st) :=
  fun na aa ab a b d _ => congrArg some (major_encA _ _ _ _ _ _ _ (by decide) (major_srcCode a) (major_srcCode b) (major_dstCode d) (by have := major_bit ab; have := major_bit aa; have := major_bit na; omega) (major_bit _))
theorem Major.fsub : ∀ na aa ab a b d st, Major.Statement (.fsub na aa ab a b d st) :=
  fun na aa ab a b d _ => congrArg some (major_encA _ _ _ _ _ _ _ (by decide) (major_srcCode a) (major_srcCode b) (major_dstCode d) (by have := major_bit ab; have := major_bit aa; have := major_bit na; omega) (major_bit _))
theorem Major.fmul : ∀ n aa ab a b d st, Major.Statement (.fmul n aa ab a b d st) :=
  fun n aa ab a b d _ => congrArg some (major_encA _ _ _ _ _ _ _ (by decide) (major_srcCode a) (major_srcCode b) (major_dstCode d) (by have := major_bit ab; have := major_bit aa; have := major_bit n; omega) (major_bit _))
theorem Major.fmin : ∀ a b d st, Major.Statement (.fmin a b d st) :=
  fun a b d _ => congrArg some (major_encA _ _ _ _ _ _ _ (by decide) (major_srcCode a) (major_srcCode b) (major_dstCode d) (by decide) (major_bit _))
theorem Major.fmax : ∀ a b d st, Major.Statement (.fmax a b d st) :=
  fun a b d _ => congrArg some (major_encA _ _ _ _ _ _ _ (by decide) (major_srcCode a) (major_srcCode b) (major_dstCode d) (by decide) (major_bit _))
theorem Major.fcmp : ∀ r a b d st, Major.Statement (.fcmp r a b d st) :=
  fun r a b d _ => congrArg some (major_encA _ _ _ _ _ _ _ (by decide) (major_srcCode a) (major_srcCode b) (major_dstCode d) (by have := major_frelCode r; omega) (major_bit _))
theorem Major.frcp : ∀ a d st, Major.Statement (.frcp a d st) :=
  fun a d _ => congrArg some (major_encA _ _ _ _ _ _ _ (by decide) (major_srcCode a) (by decide) (major_pdstCode d) (by decide) (by decide))
theorem Major.frsq : ∀ a d st, Major.Statement (.frsq a d st) :=
  fun a d _ => congrArg some (major_encA _ _ _ _ _ _ _ (by decide) (major_srcCode a) (by decide) (major_pdstCode d) (by decide) (by decide))
theorem Major.fexp2 : ∀ a d st, Major.Statement (.fexp2 a d st) :=
  fun a d _ => congrArg some (major_encA _ _ _ _ _ _ _ (by decide) (major_srcCode a) (by decide) (major_pdstCode d) (by decide) (by decide))
theorem Major.flog2 : ∀ a d st, Major.Statement (.flog2 a d st) :=
  fun a d _ => congrArg some (major_encA _ _ _ _ _ _ _ (by decide) (major_srcCode a) (by decide) (major_pdstCode d) (by decide) (by decide))
theorem Major.fsin : ∀ a d st, Major.Statement (.fsin a d st) :=
  fun a d _ => congrArg some (major_encA _ _ _ _ _ _ _ (by decide) (major_srcCode a) (by decide) (major_pdstCode d) (by decide) (by decide))
theorem Major.fcos : ∀ a d st, Major.Statement (.fcos a d st) :=
  fun a d _ => congrArg some (major_encA _ _ _ _ _ _ _ (by decide) (major_srcCode a) (by decide) (major_pdstCode d) (by decide) (by decide))
theorem Major.ftanh : ∀ a d st, Major.Statement (.ftanh a d st) :=
  fun a d _ => congrArg some (major_encA _ _ _ _ _ _ _ (by decide) (major_srcCode a) (by decide) (major_pdstCode d) (by decide) (by decide))
theorem Major.fcvt : ∀ s t r a d st, Major.Statement (.fcvt s t r a d st) :=
  fun s t r a d _ => congrArg some (major_encA _ _ _ _ _ _ _ (by decide) (major_srcCode a) (by have := major_cvtDstCode t; have := major_rndCode r; omega) (major_dstCode d) (by have := major_cvtSrcCode s; omega) (major_bit _))
theorem Major.hadd2 : ∀ h a b d st, Major.Statement (.hadd2 h a b d st) :=
  fun h a b d _ => congrArg some (major_encA _ _ _ _ _ _ _ (by decide) (major_srcCode a) (major_srcCode b) (major_pdstCode d) (by have := major_bit h; omega) (by decide))
theorem Major.hmul2 : ∀ h a b d st, Major.Statement (.hmul2 h a b d st) :=
  fun h a b d _ => congrArg some (major_encA _ _ _ _ _ _ _ (by decide) (major_srcCode a) (major_srcCode b) (major_pdstCode d) (by have := major_bit h; omega) (by decide))
theorem Major.hmax2 : ∀ h a b d st, Major.Statement (.hmax2 h a b d st) :=
  fun h a b d _ => congrArg some (major_encA _ _ _ _ _ _ _ (by decide) (major_srcCode a) (major_srcCode b) (major_pdstCode d) (by have := major_bit h; omega) (by decide))
theorem Major.ffma : ∀ n nc a b c u st, Major.Statement (.ffma n nc a b c u st) :=
  fun n nc a b c _ _ => congrArg some (major_encA _ _ _ _ _ _ _ (by decide) (major_srcCode a) (major_srcCode b) (major_srcCode c) (by have := major_bit nc; have := major_bit n; omega) (major_bit _))
theorem Major.hfma2 : ∀ h n nc a b c st, Major.Statement (.hfma2 h n nc a b c st) :=
  fun h n nc a b c _ => congrArg some (major_encA _ _ _ _ _ _ _ (by decide) (major_srcCode a) (major_srcCode b) (major_srcCode c) (by have := major_bit h; have := major_bit nc; have := major_bit n; omega) (major_bit _))
theorem Major.bra : ∀ p st, Major.Statement (.bra p st) :=
  fun _ _ => congrArg some (major_encB _ _ _ _ (by decide) (by decide))
theorem Major.bnz : ∀ a p st, Major.Statement (.bnz a p st) :=
  fun a _ _ => congrArg some (major_encB _ _ _ _ (by decide) (major_srcCode a))
theorem Major.bz : ∀ a p st, Major.Statement (.bz a p st) :=
  fun a _ _ => congrArg some (major_encB _ _ _ _ (by decide) (major_srcCode a))
theorem Major.call : ∀ p st, Major.Statement (.call p st) :=
  fun _ _ => congrArg some (major_encB _ _ _ _ (by decide) (by decide))
theorem Major.jmpr : ∀ a st, Major.Statement (.jmpr a st) :=
  fun a _ => congrArg some (major_encA _ _ _ _ _ _ _ (by decide) (major_srcCode a) (by decide) (by decide) (by decide) (by decide))
theorem Major.ret : ∀ a st, Major.Statement (.ret a st) :=
  fun a _ => congrArg some (major_encA _ _ _ _ _ _ _ (by decide) (major_srcCode a) (by decide) (by decide) (by decide) (by decide))
theorem Major.join : ∀ k st, Major.Statement (.join k st) :=
  fun _ _ => congrArg some (major_encA _ _ _ _ _ _ _ (by decide) (by decide) (by omega) (by decide) (by decide) (by decide))
theorem Major.leave : ∀ k st, Major.Statement (.leave k st) :=
  fun _ _ => congrArg some (major_encA _ _ _ _ _ _ _ (by decide) (by decide) (by omega) (by decide) (by decide) (by decide))
theorem Major.waitk : ∀ k st, Major.Statement (.waitk k st) :=
  fun _ _ => congrArg some (major_encA _ _ _ _ _ _ _ (by decide) (by decide) (by omega) (by decide) (by decide) (by decide))
theorem Major.voteAll : ∀ a k d st, Major.Statement (.voteAll a k d st) :=
  fun a _ d _ => congrArg some (major_encA _ _ _ _ _ _ _ (by decide) (major_srcCode a) (by omega) (major_pdstCode d) (by decide) (by decide))
theorem Major.voteAny : ∀ a k d st, Major.Statement (.voteAny a k d st) :=
  fun a _ d _ => congrArg some (major_encA _ _ _ _ _ _ _ (by decide) (major_srcCode a) (by omega) (major_pdstCode d) (by decide) (by decide))
theorem Major.voteBal : ∀ a k d st, Major.Statement (.voteBal a k d st) :=
  fun a _ d _ => congrArg some (major_encA _ _ _ _ _ _ _ (by decide) (major_srcCode a) (by omega) (major_pdstCode d) (by decide) (by decide))
theorem Major.voteCnt : ∀ a k d st, Major.Statement (.voteCnt a k d st) :=
  fun a _ d _ => congrArg some (major_encA _ _ _ _ _ _ _ (by decide) (major_srcCode a) (by omega) (major_pdstCode d) (by decide) (by decide))
theorem Major.exit : ∀ st, Major.Statement (.exit st) :=
  fun _ => congrArg some (major_encA _ _ _ _ _ _ _ (by decide) (by decide) (by decide) (by decide) (by decide) (by decide))
theorem Major.tail : ∀ st, Major.Statement (.tail st) :=
  fun _ => congrArg some (major_encA _ _ _ _ _ _ _ (by decide) (by decide) (by decide) (by decide) (by decide) (by decide))
theorem Major.trap : ∀ n st, Major.Statement (.trap n st) :=
  fun _ _ => congrArg some (major_encA _ _ _ _ _ _ _ (by decide) (by decide) (by omega) (by decide) (by decide) (by decide))
theorem Major.brk : ∀ st, Major.Statement (.brk st) :=
  fun _ => congrArg some (major_encA _ _ _ _ _ _ _ (by decide) (by decide) (by decide) (by decide) (by decide) (by decide))
theorem Major.srd : ∀ sp d st, Major.Statement (.srd sp d st) :=
  fun sp d _ => congrArg some (major_encA _ _ _ _ _ _ _ (by decide) (by decide) (by have := major_specialCode sp; omega) (major_pdstCode d) (by decide) (by decide))
theorem Major.lds : ∀ a d w o st, Major.Statement (.lds a d w o st) :=
  fun a d w _ _ => congrArg some (major_encM _ _ _ _ _ _ (by decide) (major_srcCode a) (major_pdstCode d) (by have := major_memWCode w; omega))
theorem Major.sts : ∀ a d w o st, Major.Statement (.sts a d w o st) :=
  fun a d w _ _ => congrArg some (major_encM _ _ _ _ _ _ (by decide) (major_srcCode a) (major_srcCode d) (by have := major_memWCode w; omega))
theorem Major.ld : ∀ a d w o st, Major.Statement (.ld a d w o st) :=
  fun a d w _ _ => congrArg some (major_encM _ _ _ _ _ _ (by decide) (major_srcCode a) (major_pdstCode d) (by have := major_memWCode w; omega))
theorem Major.store : ∀ a d w o st, Major.Statement (.store a d w o st) :=
  fun a d w _ _ => congrArg some (major_encM _ _ _ _ _ _ (by decide) (major_srcCode a) (major_srcCode d) (by have := major_memWCode w; omega))
theorem Major.cvec : ∀ op l a b st, Major.Statement (.cvec op l a b st) :=
  fun op l a b _ => congrArg some (major_encA _ _ _ _ _ _ _ (by decide) (major_srcCode a) (major_srcCode b) (by decide) (by have := major_bit l; have := major_cvecOpCode op; omega) (by decide))
theorem Major.cred : ∀ op a d st, Major.Statement (.cred op a d st) :=
  fun op a d _ => congrArg some (major_encA _ _ _ _ _ _ _ (by decide) (major_srcCode a) (by decide) (major_pdstCode d) (by have := major_credOpCode op; omega) (by decide))
theorem Major.credStat : ∀ d st, Major.Statement (.credStat d st) :=
  fun d _ => congrArg some (major_encA _ _ _ _ _ _ _ (by decide) (by decide) (by decide) (major_pdstCode d) (by decide) (by decide))
theorem Major.csmx : ∀ a b d st, Major.Statement (.csmx a b d st) :=
  fun a b d _ => congrArg some (major_encA _ _ _ _ _ _ _ (by decide) (major_srcCode a) (major_srcCode b) (major_pdstCode d) (by decide) (by decide))
theorem Major.ccvt : ∀ a b st, Major.Statement (.ccvt a b st) :=
  fun a b _ => congrArg some (major_encA _ _ _ _ _ _ _ (by decide) (major_srcCode a) (major_srcCode b) (by decide) (by decide) (by decide))
theorem Major.cqnt : ∀ a b st, Major.Statement (.cqnt a b st) :=
  fun a b _ => congrArg some (major_encA _ _ _ _ _ _ _ (by decide) (major_srcCode a) (major_srcCode b) (by decide) (by decide) (by decide))
theorem Major.catom : ∀ op a b d st, Major.Statement (.catom op a b d st) :=
  fun op a b d _ => congrArg some (major_encA _ _ _ _ _ _ _ (by decide) (major_srcCode a) (major_srcCode b) (major_pdstCode d) (by have := major_atomOpCode op; omega) (by decide))
theorem Major.ccas : ∀ a b c st, Major.Statement (.ccas a b c st) :=
  fun a b c _ => congrArg some (major_encA _ _ _ _ _ _ _ (by decide) (major_srcCode a) (major_srcCode b) (major_srcCode c) (by decide) (major_bit _))
theorem Major.cwait : ∀ st, Major.Statement (.cwait st) :=
  fun _ => congrArg some (major_encA _ _ _ _ _ _ _ (by decide) (by decide) (by decide) (by decide) (by decide) (by decide))
theorem Major.cfence : ∀ st, Major.Statement (.cfence st) :=
  fun _ => congrArg some (major_encA _ _ _ _ _ _ _ (by decide) (by decide) (by decide) (by decide) (by decide) (by decide))
theorem Major.atom : ∀ n op a b d st, Major.Statement (.atom n op a b d st) :=
  fun n op a b d _ => congrArg some (major_encA _ _ _ _ _ _ _ (by decide) (major_srcCode a) (major_srcCode b) (major_pdstCode d) (by have := major_widthBit n; have := major_atomOpCode op; omega) (by decide))
theorem Major.acas : ∀ n a b c st, Major.Statement (.acas n a b c st) :=
  fun n a b c _ => congrArg some (major_encA _ _ _ _ _ _ _ (by decide) (major_srcCode a) (major_srcCode b) (major_srcCode c) (by have := major_widthBit n; omega) (major_bit _))
theorem Major.fence : ∀ sc k st, Major.Statement (.fence sc k st) :=
  fun sc k _ => congrArg some (major_encA _ _ _ _ _ _ _ (by decide) (by decide) (by decide) (by decide) (by have := major_scopeCode sc; have := major_fenceKindCode k; omega) (by decide))
theorem Major.waita : ∀ a b c st, Major.Statement (.waita a b c st) :=
  fun a b c _ => congrArg some (major_encA _ _ _ _ _ _ _ (by decide) (major_srcCode a) (major_srcCode b) (major_srcCode c) (by decide) (major_bit _))
theorem Major.copy : ∀ a b d st, Major.Statement (.copy a b d st) :=
  fun a b d _ => congrArg some (major_encA _ _ _ _ _ _ _ (by decide) (major_srcCode a) (major_srcCode b) (major_pdstCode d) (by decide) (by decide))
theorem Major.gath : ∀ a b d st, Major.Statement (.gath a b d st) :=
  fun a b d _ => congrArg some (major_encA _ _ _ _ _ _ _ (by decide) (major_srcCode a) (major_srcCode b) (major_pdstCode d) (by decide) (by decide))
theorem Major.scat : ∀ a b d st, Major.Statement (.scat a b d st) :=
  fun a b d _ => congrArg some (major_encA _ _ _ _ _ _ _ (by decide) (major_srcCode a) (major_srcCode b) (major_pdstCode d) (by decide) (by decide))
theorem Major.stkred : ∀ a b d st, Major.Statement (.stkred a b d st) :=
  fun a b d _ => congrArg some (major_encA _ _ _ _ _ _ _ (by decide) (major_srcCode a) (major_srcCode b) (major_pdstCode d) (by decide) (by decide))
theorem Major.stkcvt : ∀ a b d st, Major.Statement (.stkcvt a b d st) :=
  fun a b d _ => congrArg some (major_encA _ _ _ _ _ _ _ (by decide) (major_srcCode a) (major_srcCode b) (major_pdstCode d) (by decide) (by decide))
theorem Major.cpwait : ∀ a d st, Major.Statement (.cpwait a d st) :=
  fun a d _ => congrArg some (major_encA _ _ _ _ _ _ _ (by decide) (major_srcCode a) (by decide) (major_pdstCode d) (by decide) (by decide))
theorem Major.seal : ∀ a b d st, Major.Statement (.seal a b d st) :=
  fun a b d _ => congrArg some (major_encA _ _ _ _ _ _ _ (by decide) (major_srcCode a) (major_srcCode b) (major_pdstCode d) (by decide) (by decide))
theorem Major.shape : ∀ a b d st, Major.Statement (.shape a b d st) :=
  fun a b d _ => congrArg some (major_encA _ _ _ _ _ _ _ (by decide) (major_srcCode a) (major_srcCode b) (major_pdstCode d) (by decide) (by decide))
theorem Major.mxld : ∀ a b d st, Major.Statement (.mxld a b d st) :=
  fun a b d _ => congrArg some (major_encA _ _ _ _ _ _ _ (by decide) (major_srcCode a) (major_srcCode b) (major_pdstCode d) (by decide) (by decide))
theorem Major.mxmm : ∀ a b d st, Major.Statement (.mxmm a b d st) :=
  fun a b d _ => congrArg some (major_encA _ _ _ _ _ _ _ (by decide) (major_srcCode a) (major_srcCode b) (major_pdstCode d) (by decide) (by decide))
theorem Major.mxsp : ∀ a b sel st, Major.Statement (.mxsp a b sel st) :=
  fun a b _ _ => congrArg some (major_encA _ _ _ _ _ _ _ (by decide) (major_srcCode a) (major_srcCode b) (by omega) (by decide) (by decide))
theorem Major.oprdy : ∀ st, Major.Statement (.oprdy st) :=
  fun _ => congrArg some (major_encA _ _ _ _ _ _ _ (by decide) (by decide) (by decide) (by decide) (by decide) (by decide))
theorem Major.mxwait : ∀ a d st, Major.Statement (.mxwait a d st) :=
  fun a d _ => congrArg some (major_encA _ _ _ _ _ _ _ (by decide) (major_srcCode a) (by decide) (major_pdstCode d) (by decide) (by decide))
theorem Major.acz : ∀ a b d st, Major.Statement (.acz a b d st) :=
  fun a b d _ => congrArg some (major_encA _ _ _ _ _ _ _ (by decide) (major_srcCode a) (major_srcCode b) (major_pdstCode d) (by decide) (by decide))
theorem Major.acld : ∀ a b d st, Major.Statement (.acld a b d st) :=
  fun a b d _ => congrArg some (major_encA _ _ _ _ _ _ _ (by decide) (major_srcCode a) (major_srcCode b) (major_pdstCode d) (by decide) (by decide))
theorem Major.acst : ∀ a b d st, Major.Statement (.acst a b d st) :=
  fun a b d _ => congrArg some (major_encA _ _ _ _ _ _ _ (by decide) (major_srcCode a) (major_srcCode b) (major_pdstCode d) (by decide) (by decide))
theorem Major.binit : ∀ a b st, Major.Statement (.binit a b st) :=
  fun a b _ => congrArg some (major_encA _ _ _ _ _ _ _ (by decide) (major_srcCode a) (major_srcCode b) (by decide) (by decide) (by decide))
theorem Major.barr : ∀ a d st, Major.Statement (.barr a d st) :=
  fun a d _ => congrArg some (major_encA _ _ _ _ _ _ _ (by decide) (major_srcCode a) (by decide) (major_pdstCode d) (by decide) (by decide))
theorem Major.barrx : ∀ a b d st, Major.Statement (.barrx a b d st) :=
  fun a b d _ => congrArg some (major_encA _ _ _ _ _ _ _ (by decide) (major_srcCode a) (major_srcCode b) (major_pdstCode d) (by decide) (by decide))
theorem Major.bwait : ∀ a b d st, Major.Statement (.bwait a b d st) :=
  fun a b d _ => congrArg some (major_encA _ _ _ _ _ _ _ (by decide) (major_srcCode a) (major_srcCode b) (major_pdstCode d) (by decide) (by decide))
theorem Major.bxin : ∀ a b st, Major.Statement (.bxin a b st) :=
  fun a b _ => congrArg some (major_encA _ _ _ _ _ _ _ (by decide) (major_srcCode a) (major_srcCode b) (by decide) (by decide) (by decide))
theorem Major.bxout : ∀ a b st, Major.Statement (.bxout a b st) :=
  fun a b _ => congrArg some (major_encA _ _ _ _ _ _ _ (by decide) (major_srcCode a) (major_srcCode b) (by decide) (by decide) (by decide))
theorem Major.go : ∀ a d st, Major.Statement (.go a d st) :=
  fun a d _ => congrArg some (major_encA _ _ _ _ _ _ _ (by decide) (major_srcCode a) (by decide) (major_pdstCode d) (by decide) (by decide))
theorem Major.homeW : ∀ st, Major.Statement (.homeW st) :=
  fun _ => congrArg some (major_encA _ _ _ _ _ _ _ (by decide) (by decide) (by decide) (by decide) (by decide) (by decide))
theorem Major.whereW : ∀ a d st, Major.Statement (.whereW a d st) :=
  fun a d _ => congrArg some (major_encA _ _ _ _ _ _ _ (by decide) (major_srcCode a) (by decide) (major_pdstCode d) (by decide) (by decide))
theorem Major.qpost : ∀ a b d st, Major.Statement (.qpost a b d st) :=
  fun a b d _ => congrArg some (major_encA _ _ _ _ _ _ _ (by decide) (major_srcCode a) (major_srcCode b) (major_pdstCode d) (by decide) (by decide))
theorem Major.evsig : ∀ a b st, Major.Statement (.evsig a b st) :=
  fun a b _ => congrArg some (major_encA _ _ _ _ _ _ _ (by decide) (major_srcCode a) (major_srcCode b) (by decide) (by decide) (by decide))
theorem Major.sig : ∀ a st, Major.Statement (.sig a st) :=
  fun a _ => congrArg some (major_encA _ _ _ _ _ _ _ (by decide) (major_srcCode a) (by decide) (by decide) (by decide) (by decide))
theorem Major.crit : ∀ a d st, Major.Statement (.crit a d st) :=
  fun a d _ => congrArg some (major_encA _ _ _ _ _ _ _ (by decide) (major_srcCode a) (by decide) (major_pdstCode d) (by decide) (by decide))
theorem Major.mhint : ∀ a b d st, Major.Statement (.mhint a b d st) :=
  fun a b d _ => congrArg some (major_encA _ _ _ _ _ _ _ (by decide) (major_srcCode a) (major_srcCode b) (major_pdstCode d) (by decide) (by decide))
theorem Major.tret : ∀ st, Major.Statement (.tret st) :=
  fun _ => congrArg some (major_encA _ _ _ _ _ _ _ (by decide) (by decide) (by decide) (by decide) (by decide) (by decide))
theorem Major.trd : ∀ a d st, Major.Statement (.trd a d st) :=
  fun a d _ => congrArg some (major_encA _ _ _ _ _ _ _ (by decide) (major_srcCode a) (by decide) (major_pdstCode d) (by decide) (by decide))
theorem Major.twr : ∀ a b st, Major.Statement (.twr a b st) :=
  fun a b _ => congrArg some (major_encA _ _ _ _ _ _ _ (by decide) (major_srcCode a) (major_srcCode b) (by decide) (by decide) (by decide))
theorem Major.tres : ∀ a d st, Major.Statement (.tres a d st) :=
  fun a d _ => congrArg some (major_encA _ _ _ _ _ _ _ (by decide) (major_srcCode a) (by decide) (major_pdstCode d) (by decide) (by decide))
theorem Major.tstop : ∀ a d st, Major.Statement (.tstop a d st) :=
  fun a d _ => congrArg some (major_encA _ _ _ _ _ _ _ (by decide) (major_srcCode a) (by decide) (major_pdstCode d) (by decide) (by decide))
theorem Major.tkill : ∀ a d st, Major.Statement (.tkill a d st) :=
  fun a d _ => congrArg some (major_encA _ _ _ _ _ _ _ (by decide) (major_srcCode a) (by decide) (major_pdstCode d) (by decide) (by decide))
theorem Major.pinv : ∀ a b st, Major.Statement (.pinv a b st) :=
  fun a b _ => congrArg some (major_encA _ _ _ _ _ _ _ (by decide) (major_srcCode a) (major_srcCode b) (by decide) (by decide) (by decide))
theorem Major.stallExpire : ∀ t, Major.Statement (.stallExpire t) := fun _ => rfl
theorem Major.resultReturn : ∀ op, Major.Statement (.resultReturn op) := fun _ => rfl
theorem Major.fairnessTimer : ∀ c slot, Major.Statement (.fairnessTimer c slot) := fun _ _ => rfl
theorem Major.maskRelease : ∀ gid hwarp k, Major.Statement (.maskRelease gid hwarp k) := fun _ _ _ => rfl
theorem Major.growGrant : ∀ gid hwarp, Major.Statement (.growGrant gid hwarp) := fun _ _ => rfl
theorem Major.bankServe : ∀ c bank, Major.Statement (.bankServe c bank) := fun _ _ => rfl
theorem Major.linePresent : ∀ op line, Major.Statement (.linePresent op line) := fun _ _ => rfl
theorem Major.storeDrain : ∀ c slot, Major.Statement (.storeDrain c slot) := fun _ _ => rfl
theorem Major.l2Eviction : ∀ d line, Major.Statement (.l2Eviction d line) := fun _ _ => rfl
theorem Major.watchDeadline : ∀ watch, Major.Statement (.watchDeadline watch) := fun _ => rfl
theorem Major.watchWake : ∀ d slice, Major.Statement (.watchWake d slice) := fun _ _ => rfl
theorem Major.transferFlight : ∀ op, Major.Statement (.transferFlight op) := fun _ => rfl
theorem Major.transferDone : ∀ op, Major.Statement (.transferDone op) := fun _ => rfl
theorem Major.transferFault : ∀ op, Major.Statement (.transferFault op) := fun _ => rfl
theorem Major.engineDecrement : ∀ op inB outB, Major.Statement (.engineDecrement op inB outB) := fun _ _ _ => rfl
theorem Major.tileFlight : ∀ op, Major.Statement (.tileFlight op) := fun _ => rfl
theorem Major.tileDone : ∀ op, Major.Statement (.tileDone op) := fun _ => rfl
theorem Major.tileFault : ∀ op, Major.Statement (.tileFault op) := fun _ => rfl
theorem Major.stackLanding : ∀ packet, Major.Statement (.stackLanding packet) := fun _ => rfl
theorem Major.runnerMerge : ∀ p1 p2, Major.Statement (.runnerMerge p1 p2) := fun _ _ => rfl
theorem Major.ladleDeparture : ∀ t, Major.Statement (.ladleDeparture t) := fun _ => rfl
theorem Major.ladleLanding : ∀ t, Major.Statement (.ladleLanding t) := fun _ => rfl
theorem Major.ladleRefusal : ∀ t, Major.Statement (.ladleRefusal t) := fun _ => rfl
theorem Major.ladleReturn : ∀ t, Major.Statement (.ladleReturn t) := fun _ => rfl
theorem Major.recall : ∀ t, Major.Statement (.recall t) := fun _ => rfl
theorem Major.endNotice : ∀ t, Major.Statement (.endNotice t) := fun _ => rfl
theorem Major.guestReport : ∀ d, Major.Statement (.guestReport d) := fun _ => rfl
theorem Major.parkSave : ∀ gid, Major.Statement (.parkSave gid) := fun _ => rfl
theorem Major.compactionSave : ∀ gid, Major.Statement (.compactionSave gid) := fun _ => rfl
theorem Major.relaunch : ∀ gid, Major.Statement (.relaunch gid) := fun _ => rfl
theorem Major.doze : ∀ c, Major.Statement (.doze c) := fun _ => rfl
theorem Major.coreWake : ∀ c, Major.Statement (.coreWake c) := fun _ => rfl
theorem Major.critBudgetExpire : ∀ gid, Major.Statement (.critBudgetExpire gid) := fun _ => rfl
theorem Major.preemptRecognise : ∀ gid, Major.Statement (.preemptRecognise gid) := fun _ => rfl
theorem Major.preemptSave : ∀ gang, Major.Statement (.preemptSave gang) := fun _ => rfl
theorem Major.bind : ∀ gid, Major.Statement (.bind gid) := fun _ => rfl
theorem Major.contextLoad : ∀ c ctx, Major.Statement (.contextLoad c ctx) := fun _ _ => rfl
theorem Major.groupRetire : ∀ gid, Major.Statement (.groupRetire gid) := fun _ => rfl
theorem Major.gangHandout : Major.Statement .gangHandout := rfl
theorem Major.latencyBoundExpire : ∀ q, Major.Statement (.latencyBoundExpire q) := fun _ => rfl
theorem Major.launchComplete : ∀ q launch, Major.Statement (.launchComplete q launch) := fun _ _ => rfl
theorem Major.eventPoll : Major.Statement .eventPoll := rfl
theorem Major.launchSubmit : ∀ port q off data, Major.Statement (.launchSubmit port q off data) := fun _ _ _ _ => rfl
theorem Major.eventWindowWrite : ∀ port tenant off data, Major.Statement (.eventWindowWrite port tenant off data) :=
  fun _ _ _ _ => rfl
theorem Major.queueDrain : ∀ q, Major.Statement (.queueDrain q) := fun _ => rfl
theorem Major.queueSuspend : ∀ q, Major.Statement (.queueSuspend q) := fun _ => rfl
theorem Major.queueResume : ∀ q, Major.Statement (.queueResume q) := fun _ => rfl
theorem Major.queueClear : ∀ q, Major.Statement (.queueClear q) := fun _ => rfl
theorem Major.queueCreate : ∀ q ctx, Major.Statement (.queueCreate q ctx) := fun _ _ => rfl
theorem Major.queueRebind : ∀ q ctx, Major.Statement (.queueRebind q ctx) := fun _ _ => rfl
theorem Major.queueRemove : ∀ q, Major.Statement (.queueRemove q) := fun _ => rfl
theorem Major.vlogAck : ∀ tenant value, Major.Statement (.vlogAck tenant value) := fun _ _ => rfl
theorem Major.cxCreate : ∀ ctx, Major.Statement (.cxCreate ctx) := fun _ => rfl
theorem Major.cxDestroy : ∀ ctx, Major.Statement (.cxDestroy ctx) := fun _ => rfl
theorem Major.cxSetDieMask : ∀ ctx mask, Major.Statement (.cxSetDieMask ctx mask) := fun _ _ => rfl
theorem Major.cxHandlerRestart : ∀ ctx, Major.Statement (.cxHandlerRestart ctx) := fun _ => rfl
theorem Major.cxCommandDone : ∀ ctx, Major.Statement (.cxCommandDone ctx) := fun _ => rfl
theorem Major.handlerLimit : ∀ c, Major.Statement (.handlerLimit c) := fun _ => rfl
theorem Major.dieLoss : ∀ d, Major.Statement (.dieLoss d) := fun _ => rfl
theorem Major.carveAssign : ∀ d u ctx, Major.Statement (.carveAssign d u ctx) := fun _ _ _ => rfl
theorem Major.carveRelease : ∀ d u, Major.Statement (.carveRelease d u) := fun _ _ => rfl
theorem Major.dieReqOn : ∀ d req, Major.Statement (.dieReqOn d req) := fun _ _ => rfl
theorem Major.dieReqNt : ∀ d req, Major.Statement (.dieReqNt d req) := fun _ _ => rfl
theorem Major.dieReqGated : ∀ d, Major.Statement (.dieReqGated d) := fun _ => rfl
theorem Major.diePowerDone : ∀ d, Major.Statement (.diePowerDone d) := fun _ => rfl
theorem Major.dramGrant : ∀ stack pch, Major.Statement (.dramGrant stack pch) := fun _ _ => rfl
theorem Major.refreshDue : ∀ stack pch bank, Major.Statement (.refreshDue stack pch bank) := fun _ _ _ => rfl
theorem Major.earlyRefresh : ∀ stack pch bank, Major.Statement (.earlyRefresh stack pch bank) := fun _ _ _ => rfl
theorem Major.phaseExpire : ∀ stack c, Major.Statement (.phaseExpire stack c) := fun _ _ => rfl
theorem Major.missNotice : ∀ n, Major.Statement (.missNotice n) := fun _ => rfl
theorem Major.hostRead : ∀ port tenant off len, Major.Statement (.hostRead port tenant off len) := fun _ _ _ _ => rfl
theorem Major.hostWrite : ∀ port tenant off data, Major.Statement (.hostWrite port tenant off data) :=
  fun _ _ _ _ => rfl
theorem Major.hostAtomic : ∀ port tenant off op x y, Major.Statement (.hostAtomic port tenant off op x y) :=
  fun _ _ _ _ _ _ => rfl
theorem Major.functionLevelReset : ∀ port vf, Major.Statement (.functionLevelReset port vf) := fun _ _ => rfl
theorem Major.linkReplay : ∀ link, Major.Statement (.linkReplay link) := fun _ => rfl
theorem Major.linkFail : ∀ stack k, Major.Statement (.linkFail stack k) := fun _ _ => rfl
theorem Major.linkRetrain : ∀ stack k, Major.Statement (.linkRetrain stack k) := fun _ _ => rfl
theorem Major.powerOn : Major.Statement .powerOn := rfl
theorem Major.bootClaim : ∀ port, Major.Statement (.bootClaim port) := fun _ => rfl
theorem Major.bootCheck : ∀ port, Major.Statement (.bootCheck port) := fun _ => rfl
theorem Major.bootRestart : ∀ port, Major.Statement (.bootRestart port) := fun _ => rfl
theorem Major.pkgnumWrite : ∀ port num, Major.Statement (.pkgnumWrite port num) := fun _ _ => rfl
theorem Major.startup : ∀ o, Major.Statement (.startup o) := fun _ => rfl
theorem Major.attestRequest : ∀ port, Major.Statement (.attestRequest port) := fun _ => rfl
theorem Major.attestReport : Major.Statement .attestReport := rfl
theorem Major.registerWrite : ∀ port off value, Major.Statement (.registerWrite port off value) := fun _ _ _ => rfl
theorem Major.instructionFetchReturn : ∀ t, Major.Statement (.instructionFetchReturn t) := fun _ => rfl
theorem Major.carveUnitDone : ∀ d u, Major.Statement (.carveUnitDone d u) := fun _ _ => rfl
theorem Major.offPackageRequest : ∀ stack k pa len op, Major.Statement (.offPackageRequest stack k pa len op) :=
  fun _ _ _ _ _ => rfl
theorem Major.tokenBucketRefill : ∀ port fn out, Major.Statement (.tokenBucketRefill port fn out) := fun _ _ _ => rfl
theorem Major.powerOff : Major.Statement .powerOff := rfl
theorem Major.msixVectorUnmask : ∀ port vf vec, Major.Statement (.msixVectorUnmask port vf vec) := fun _ _ _ => rfl

end Sys2Proof.Laws
end

