-- ==== Sys2Proof/Laws/Reg.lean ====
section
/-! SUPPORT. What every register word does: its result in each thread's registers or in each home warp's, and nothing else. -/

namespace Sys2Proof.Machine

theorem threadOf_bumpFree (s : State) (t : ThreadKey) : threadOf (bumpFree s) t = threadOf s t := rfl

/-- The fold of one change for each warp of a list without repetition. -/
theorem warp_foldl (ws : List WarpKey) (hn : ws.Nodup) (F : WarpKey → Warp → Warp) (s : State) (w : WarpKey) :
    tget (ws.foldl (fun a x => modWarp a x (F x)) s).warps w =
      if w ∈ ws then (tget s.warps w).map (F w) else tget s.warps w := by
  induction ws generalizing s with
  | nil => simp
  | cons x ws ih =>
    have hx := List.nodup_cons.mp hn
    rw [List.foldl_cons, ih hx.2]
    by_cases hw : w = x
    · subst hw; simp [hx.1, modWarp]
    · by_cases hm : w ∈ ws <;> simp [hm, hw, modWarp, tget_tmod_ne _ _ (Ne.symm hw)]

theorem mem_dedup {α : Type} [DecidableEq α] (l : List α) (x : α) : x ∈ dedup l ↔ x ∈ l := by
  induction l with
  | nil => simp [dedup]
  | cons y l ih =>
    simp only [dedup, List.mem_cons, List.mem_filter, ih]
    by_cases h : x = y <;> simp [h]

theorem nodup_dedup {α : Type} [DecidableEq α] (l : List α) : (dedup l).Nodup := by
  induction l with
  | nil => simp [dedup]
  | cons y l ih => exact List.nodup_cons.mpr ⟨by simp, ih.filter _⟩

/-- A fold of changes of warps leaves the rest of the state. -/
theorem foldl_modWarp_rest (ws : List WarpKey) (F : WarpKey → Warp → Warp) (s : State) :
    ws.foldl (fun a t => modWarp a t (F t)) s =
      { s with warps := (ws.foldl (fun a t => modWarp a t (F t)) s).warps } := by
  induction ws generalizing s with
  | nil => rfl
  | cons t ws ih => rw [List.foldl_cons, ih]; rfl

/-- What follows the effect of a word whose threads all go on at the next word, where the effect keeps them Ready and
unstepped. -/
theorem done_advance {i : Instr} {s s1 : State} (h : issuable i s = true) (hh : (instrShape i).hint = false)
    (hnow : now s1 = now s)
    (hth : ∀ t ∈ s.focus.threads, ∀ th, threadOf s t = some th → ∃ r, threadOf s1 t = some { th with regs := r }) :
    (∀ t ∈ s.focus.threads, ∀ th, threadOf s t = some th → ∃ r, threadOf s1 t = some { th with regs := r } ∧
      threadOf (bumpFree (stepStops (retireAll s1 (instrShape i) (advance s s.focus.threads))
        ((advance s s.focus.threads).map (·.1)))) t = some (issued (now s) (instrShape i).st (th.pc + 4) r th)) ∧
    (∀ t, t ∉ s.focus.threads → threadOf (bumpFree (stepStops (retireAll s1 (instrShape i) (advance s s.focus.threads))
        ((advance s s.focus.threads).map (·.1)))) t = threadOf s1 t) ∧
    (∃ ths, bumpFree (stepStops (retireAll s1 (instrShape i) (advance s s.focus.threads))
        ((advance s s.focus.threads).map (·.1))) = { s1 with threads := ths, freeCount := s1.freeCount + 1 }) := by
  have hn := issuable_nodup h
  have hr : ∀ u, threadOf (retireAll s1 (instrShape i) (advance s s.focus.threads)) u =
      if u ∈ s.focus.threads then (threadOf s1 u).map (retireThread (instrShape i) (now s1) (pcOf s u + 4))
      else threadOf s1 u := threadOf_retire s s1 _ _ hn
  have hoff : stepStops (retireAll s1 (instrShape i) (advance s s.focus.threads))
      ((advance s s.focus.threads).map (·.1)) = retireAll s1 (instrShape i) (advance s s.focus.threads) := by
    apply stepStops_off
    intro t ht th' e
    rw [advance_keys] at ht
    obtain ⟨⟨th, e0, _, hst⟩, _⟩ := issuable_thread h ht
    obtain ⟨r, e1⟩ := hth t ht th e0
    rw [hr t, if_pos ht, e1] at e
    simp at e
    rw [← e]; exact hst
  rw [hoff]
  refine ⟨?_, ?_, ?_⟩
  · intro t ht th e0
    obtain ⟨r, e1⟩ := hth t ht th e0
    obtain ⟨⟨th2, e2, hrdy, _⟩, _⟩ := issuable_thread h ht
    have e3 : th2 = th := by rw [e0] at e2; exact (Option.some.inj e2).symm
    rw [e3] at hrdy
    refine ⟨r, e1, ?_⟩
    rw [threadOf_bumpFree, hr t, if_pos ht, e1, hnow]
    have : pcOf s t = th.pc := by simp [pcOf, e0]
    simp only [Option.map_some, this]
    rw [retireThread_ready (instrShape i) hh (now s) (th.pc + 4) { th with regs := r } hrdy]
    rfl
  · intro t ht
    rw [threadOf_bumpFree, hr t, if_neg ht]
  · refine ⟨(retireAll s1 (instrShape i) (advance s s.focus.threads)).threads, ?_⟩
    rw [retireAll_rest]; rfl

/-- A register word of a group that may issue it. -/
theorem regWord_done {i : Instr} {s : State} (h : issuable i s = true) (hh : (instrShape i).hint = false) (lat : Nat)
    (d : Dst) (srcs : List Src) (f : Pfx → List Word → Word) :
    ∃ s', regWord i lat d srcs f s = .next s' ∧
      RegDone s s' (instrShape i).st lat d (fun t => f (pfxOf s t) (readAll s t 0 srcs))
        (fun w => f (((s.focus.threads.head?).map (pfxOf s)).getD Pfx.empty) (readUnis s w 0 srcs)) := by
  have hn := issuable_nodup h
  have e0 : regWord i lat d srcs f s = .next (bumpFree (stepStops (retireAll (giveResults s s.focus.threads lat d srcs f)
      (instrShape i) (advance s s.focus.threads)) ((advance s s.focus.threads).map (·.1)))) := by
    rw [regWord, issue_acts _ h]
  cases d with
  | thread p =>
    have eg : giveResults s s.focus.threads lat (.thread p) srcs f = s.focus.threads.foldl (fun a t => modThread a t
        (fun th => { th with regs := th.regs.give p (f (pfxOf s t) (readAll s t 0 srcs)) (now s + lat) none })) s := rfl
    have hg : ∀ u, threadOf (giveResults s s.focus.threads lat (.thread p) srcs f) u =
        if u ∈ s.focus.threads then (threadOf s u).map (fun th =>
          { th with regs := th.regs.give p (f (pfxOf s u) (readAll s u 0 srcs)) (now s + lat) none })
        else threadOf s u := by
      intro u; rw [eg]
      exact threadOf_foldl _ hn (fun t th =>
        { th with regs := th.regs.give p (f (pfxOf s t) (readAll s t 0 srcs)) (now s + lat) none }) s u
    have hrest := foldl_modThread_rest s.focus.threads (fun t th =>
        { th with regs := th.regs.give p (f (pfxOf s t) (readAll s t 0 srcs)) (now s + lat) none }) s
    rw [← eg] at hrest
    have hd := done_advance (s1 := giveResults s s.focus.threads lat (.thread p) srcs f) h hh (by rw [hrest]; rfl)
      (fun t ht th e => ⟨_, by rw [hg t, if_pos ht, e]; rfl⟩)
    refine ⟨_, e0, ?_, ?_, ?_, ?_, ?_⟩
    · intro t ht th e
      obtain ⟨r, e1, e2⟩ := hd.1 t ht th e
      refine ⟨r, e2, ?_⟩
      rw [hg t, if_pos ht, e] at e1
      simp only [Option.map_some, Option.some.injEq] at e1
      have : r = th.regs.give p (f (pfxOf s t) (readAll s t 0 srcs)) (now s + lat) none := by
        have := congrArg Thread.regs e1; exact this.symm
      rw [this]; exact regs_give _ _ _ _ _
    · obtain ⟨ths, e1⟩ := hd.2.2
      rw [e1, hrest]
    · intro t ht; rw [hd.2.1 t ht, hg t, if_neg ht]
    · obtain ⟨ths, e1⟩ := hd.2.2
      intro a; rw [e1, hrest]
    · obtain ⟨ths, e1⟩ := hd.2.2
      rw [e1, hrest]
  | uni k =>
    have eg : giveResults s s.focus.threads lat (.uni k) srcs f = (warpsOf s.focus.threads).foldl (fun a w => modWarp a w
        (fun x => { x with w := x.w.set k ⟨f (((s.focus.threads.head?).map (pfxOf s)).getD Pfx.empty)
          (readUnis s w 0 srcs), x.w[k].held, now s + lat, none⟩ })) s := rfl
    have hrest := foldl_modWarp_rest (warpsOf s.focus.threads) (fun w x =>
        { x with w := x.w.set k ⟨f (((s.focus.threads.head?).map (pfxOf s)).getD Pfx.empty)
          (readUnis s w 0 srcs), x.w[k].held, now s + lat, none⟩ }) s
    rw [← eg] at hrest
    have ht0 : ∀ t, threadOf (giveResults s s.focus.threads lat (.uni k) srcs f) t = threadOf s t := by
      intro t; rw [hrest]; rfl
    have hd := done_advance (s1 := giveResults s s.focus.threads lat (.uni k) srcs f) h hh (by rw [hrest]; rfl)
      (fun t ht th e => ⟨th.regs, by rw [ht0 t, e]⟩)
    refine ⟨_, e0, ?_, ?_, ?_, ?_, ?_⟩
    · intro t ht th e
      obtain ⟨r, e1, e2⟩ := hd.1 t ht th e
      refine ⟨r, e2, ?_⟩
      rw [ht0 t, e] at e1
      simp only [Option.some.injEq] at e1
      exact (congrArg Thread.regs e1).symm
    · intro w
      obtain ⟨ths, e1⟩ := hd.2.2
      rw [e1]
      show tget (giveResults s s.focus.threads lat (.uni k) srcs f).warps w = _
      rw [eg]
      refine (warp_foldl (warpsOf s.focus.threads) (nodup_dedup _) (fun w x =>
        { x with w := x.w.set k ⟨f (((s.focus.threads.head?).map (pfxOf s)).getD Pfx.empty)
          (readUnis s w 0 srcs), x.w[k].held, now s + lat, none⟩ }) s w).trans ?_
      simp only [warpsOf, mem_dedup]
    · intro t ht; rw [hd.2.1 t ht, ht0]
    · obtain ⟨ths, e1⟩ := hd.2.2
      intro a; rw [e1, hrest]
    · obtain ⟨ths, e1⟩ := hd.2.2
      rw [e1, hrest]

end Sys2Proof.Machine
end

