-- ==== Sys2Proof/Machine/Regs.lean ====
section
/-! DEFINITION. What the registers of the windows read as (spec/19_link.md R381, R383, R389; spec/16_queue.md R336, R337;
spec/17_context.md R348, R363; spec/20_startup.md R398 to R400, R407, R408; spec/07_page.md R185, R186). -/

namespace Sys2Proof.Machine

/-- Word k of a register of several words. -/
def getWord {n : Nat} (r : BitVec n) (k : Nat) : BitVec 64 := BitVec.ofNat 64 (r.toNat / 2 ^ (64 * k))

def flag (b : Bool) : Nat := if b then 1 else 0

/-- CXSTAT (R348). -/
def cxstat (s : State) (c : Nat) : Nat :=
  let x := ctxOf s c
  x.lost.toNat * 2 ^ 40 + x.touched.toNat * 2 ^ 32 + x.hfCause * 2 ^ 24 + x.hfCore.val * 2 ^ 17 + x.hfDie.val * 2 ^ 14 +
    flag x.hf * 2 ^ 13 + x.cmdErr.val * 2 ^ 10 + flag x.cmd.isSome * 2 ^ 9 + ctxState s c

/-- QCFG (R337). -/
def qcfg (s : State) (q : QueueId) : Nat :=
  let x := queueOf s q
  flag x.enable * 2 ^ 63 + x.err.val * 2 ^ 58 + x.ctx

/-- CARVEU (R363). -/
def carveu (s : State) (d u : Fin 8) : Nat :=
  let x := (dieOf s d).carve[u]
  flag x.valid * 2 ^ 63 + x.err.val * 2 ^ 12 + flag x.busy * 2 ^ 11 + x.ctx

/-- DIEPWR (R408). While a change is in progress, CurStep shows the clock that stood before it: the manual does not say from when it
shows the clock granted (DESIGN CHOICE, unsafe: notes/assumptions/118.md). -/
def diepwr (s : State) (d : Fin 8) : Nat :=
  let x := dieOf s d
  flag x.startFail * 2 ^ 32 + x.err.val * 2 ^ 30 + flag x.change.isSome * 2 ^ 29 + curState s d * 2 ^ 27 + x.step * 2 ^ 21

/-- VLOGSTAT (R186). -/
def vlogstat (s : State) (t : Fin 64) : Nat :=
  let x := tenantOf s t
  x.dropped * 2 ^ 16 + x.count * 2 ^ 8 + x.head

/-- Phase (R398). -/
def phaseCode : BootPhase → Nat
  | .training => 0
  | .openP => 1
  | .checking => 2
  | .starting => 3
  | .ready => 4
  | .failed => 5
  | .halted => 6

/-- BOOTSTAT, PKGNUM and ATTCTL (R398, R400, R407). -/
def bootstat (b : Boot) : Nat :=
  b.errUnit * 2 ^ 16 + b.errCode * 2 ^ 8 + b.owner.val * 16 + flag b.claimed * 8 + phaseCode b.phase

def pkgnumReg (b : Boot) : Nat := flag b.pkgSet * 2 ^ 12 + b.pkgNum.toNat

def attctl (b : Boot) : Nat := flag b.attBusy + 2 * flag b.attDone

/-- Eight bytes of a list. -/
def listWord (l : List Byte) (o : Nat) : Nat := bytesNat ((l.drop o).take 8)

/-- The boot area (R398), as a port reads it: the public key is readable from Phase starting onward (R406). -/
def readBootArea (s : State) (port : Fin 2) (o : Nat) : Nat :=
  let b := s.boot
  if o = 0x20_0000 then bootstat b
  else if o = 0x20_0010 then pkgnumReg b
  else if 0x20_1000 ≤ o ∧ o < 0x20_1040 then (getWord b.nonces[port] (o % 0x40 / 8)).toNat
  else if o = 0x20_1040 then attctl b
  else if 0x20_2000 ≤ o ∧ o < 0x20_2000 + 2592 then
    if b.phase = .starting ∨ b.phase = .ready ∨ b.phase = .halted then listWord Config.identityKey (o - 0x20_2000) else 0
  else if 0x20_4000 ≤ o ∧ o < 0x20_4000 + 5107 then listWord b.report (o - 0x20_4000)
  else if 0x80_0000 ≤ o then memNat b.buffer (o - 0x80_0000) 8
  else 0

/-- A port page (R389). -/
def readPortPage (s : State) (p : Fin 2) (o : Nat) : Nat :=
  let x := portOf s p
  if o = 0 then x.cfg.toNat
  else if o = 8 then x.loadFb.toNat
  else if 0x100 ≤ o ∧ o ≤ 0x300 then (bucketOf s p (Fin.ofNat 65 ((o - 0x100) / 8))).pair.toNat
  else if 0x1000 ≤ o ∧ o < 0x1200 then
    (getWord (x.windows[Fin.ofNat 16 ((o - 0x1000) / 0x20)]) (o / 8 % 4)).toNat
  else 0

/-- Two route entries (R396). -/
def readRoute (s : State) (o : Nat) : Nat :=
  let e (i : Nat) : Nat := ((tget s.route i).getD 0).toNat
  e (o / 4) + e (o / 4 + 1) * 2 ^ 32

/-- The management window (R383), 8 aligned bytes at an offset, as a port reads it: until Phase is ready only the boot area. -/
def readManagement (s : State) (port : Fin 2) (o : Nat) : Nat :=
  if 0x20_0000 ≤ o ∧ (o < 0x30_0000 ∨ 0x80_0000 ≤ o) then readBootArea s port o
  else if s.boot.phase ≠ .ready then 0
  else if o < 0x4_0000 then
    if o % 0x80 < 0x40 then (getWord (ctxOf s (o / 0x80)).desc (o % 0x40 / 8)).toNat
    else if o % 0x80 = 0x40 then cxstat s (o / 0x80) else 0
  else if o < 0x4_2000 then (getWord (tenantOf s (Fin.ofNat 64 ((o - 0x4_0000) / 0x80))).entry (o % 0x80 / 8)).toNat
  else if 0x6_0000 ≤ o ∧ o < 0x6_0800 then
    (getWord (s.regions[Fin.ofNat 64 ((o - 0x6_0000) / 0x20)]) (o % 0x20 / 8)).toNat
  else if 0x8_0000 ≤ o ∧ o < 0xA_0000 then readPortPage s (Fin.ofNat 2 ((o - 0x8_0000) / 0x1_0000)) (o % 0x1_0000)
  else if 0xA_0000 ≤ o ∧ o < 0xA_8000 then
    if o % 0x20 = 0 then qcfg s ⟨Fin.ofNat 64 ((o - 0xA_0000) / 0x200), Fin.ofNat 16 ((o - 0xA_0000) / 0x20)⟩ else 0
  else if 0xB_0000 ≤ o ∧ o < 0xB_0060 then (s.latbnd[Fin.ofNat 12 ((o - 0xB_0000) / 8)]).toNat
  else if 0x10_0000 ≤ o ∧ o < 0x10_4000 then readRoute s (o - 0x10_0000)
  else if o = 0x10_4000 then s.linkFail.toNat
  else if 0x30_0000 ≤ o ∧ o < 0x30_0200 then
    if o % 0x40 = 0 then diepwr s (Fin.ofNat 8 ((o - 0x30_0000) / 0x40)) else 0
  else if 0x31_0000 ≤ o ∧ o < 0x31_0200 then
    carveu s (Fin.ofNat 8 ((o - 0x31_0000) / 0x40)) (Fin.ofNat 8 (o % 0x40 / 8))
  else 0

/-- A tenant register window (R381), 8 aligned bytes at an offset. -/
def readTenantWindow (s : State) (t : Fin 64) (o : Nat) : Nat :=
  if 0x1_0000 ≤ o ∧ o < 0x2_0000 ∧ o % 0x1000 = 0 then
    let q : QueueId := ⟨t, Fin.ofNat 16 ((o - 0x1_0000) / 0x1000)⟩
    if (queueOf s q).enable then qstat s q else 0
  else if 0x2_1000 ≤ o ∧ o < 0x2_1400 then
    (getWord ((tget (tenantOf s t).vlog ((o - 0x2_1000) / 16)).getD 0) (o / 8 % 2)).toNat
  else if o = 0x2_1400 then vlogstat s t
  else 0

end Sys2Proof.Machine
end

