-- ==== Sys2Proof/Tests/Slice0.lean ====
section
/-! SUPPORT. Tests: words written out from the encoding tables decode to their instructions, ill-formed terms are refused, the
hypotheses of every statement are met, and single steps whose results the manual or a hand calculation gives. -/

set_option maxRecDepth 100000
set_option exponentiation.threshold 1200

namespace Sys2Proof.Tests

open Sys2Proof Sys2Proof.Machine

/-! ### Decoding (R17 to R43 and the encoding tables of the families) -/

/-- Every word of a list decodes to the instruction beside it. -/
def decodesAll (l : List (Nat × Instr)) : Bool :=
  l.all fun p => match decode (BitVec.ofNat 32 p.1) with
    | .ok i => decide (i = p.2)
    | .error _ => false

/-- No word of a list decodes. -/
def decodesNone (l : List Nat) : Bool :=
  l.all fun w => match decode (BitVec.ofNat 32 w) with
    | .ok _ => false
    | .error _ => true

theorem test_decodeHints : decodesAll [
   (0x00155555, .hintNop 0 0x2AAAA 5),
   (0x0060000B, .hintYield 0x40001 3),
   (0x00AFFFF9, .hintDead 0x5FFFF 1),
   (0x00D5C008, .hintPref 0x2B801 0),
   (0x01334F02, .hintMod 0x669E0 2),
   (0x0144000F, .hintDln 0x8001 7),
   (0x01A091A0, .hintPhase 0x41234 0),
   (0x06000036, .lit 0x200003 6)] = true := by decide

theorem test_decodeIntegers : decodesAll [
   (0x0AF3D067, .iadd .w64 .us (.n 31) (.q 15) (.thread (.named 0)) 7),
   (0x0EF3D067, .isub .w64 .us (.n 31) (.q 15) (.thread (.named 0)) 7),
   (0x0BFC3318, .iadd .w32 .ss (.w 15) (.w 0) (.uni 3) 0),
   (0x10148041, .imul .w64 (.q 1) (.n 2) (.thread .push) 1),
   (0x10148051, .imulhS .w64 (.q 1) (.n 2) (.thread .push) 1),
   (0x10148061, .imulhU .w64 (.q 1) (.n 2) (.thread .push) 1),
   (0x1C148041, .shl .w64 (.q 1) (.n 2) (.thread .push) 1),
   (0x1C148051, .shr .w64 (.q 1) (.n 2) (.thread .push) 1),
   (0x1C148061, .sar .w64 (.q 1) (.n 2) (.thread .push) 1),
   (0x1C148071, .rot .w64 (.q 1) (.n 2) (.thread .push) 1),
   (0x20148071, .bfe .w64 (.q 1) (.n 2) (.thread .push) 1),
   (0x157619C2, .imin .w64 true (.n 7) (.n 8) (.thread (.named 9)) 2),
   (0x157619D2, .imax .w64 true (.n 7) (.n 8) (.thread (.named 9)) 2),
   (0x15761940, .imin .w32 true (.n 7) (.n 8) (.thread (.named 9)) 0),
   (0x157019A2, .iabs .w64 (.n 7) (.thread (.named 9)) 2),
   (0x1B1CB40B, .andW (.w 1) (.w 2) (.uni 4) 3),
   (0x1B1CB41B, .orW (.w 1) (.w 2) (.uni 4) 3),
   (0x1B1CB42B, .xorW (.w 1) (.w 2) (.uni 4) 3),
   (0x1B1CB43B, .andn (.w 1) (.w 2) (.uni 4) 3),
   (0x20901C44, .popc .w64 (.q 9) (.thread (.named 12)) 4),
   (0x20901C54, .clz .w64 (.q 9) (.thread (.named 12)) 4),
   (0x20901C64, .brev .w64 (.q 9) (.thread (.named 12)) 4),
   (0x25100080, .icmp .w64 .eq (.n 1) (.q 0) (.thread .push) 0),
   (0x25100090, .icmp .w64 .ne (.n 1) (.q 0) (.thread .push) 0)] = true := by decide

theorem test_decodeIntegers2 : decodesAll [
   (0x251000A0, .icmp .w64 .lt (.n 1) (.q 0) (.thread .push) 0),
   (0x251000B0, .icmp .w64 .le (.n 1) (.q 0) (.thread .push) 0),
   (0x251000C0, .icmp .w64 .ltu (.n 1) (.q 0) (.thread .push) 0),
   (0x251000D0, .icmp .w64 .leu (.n 1) (.q 0) (.thread .push) 0),
   (0x291493F0, .lea 15 (.n 1) (.n 2) (.thread (.named 3)) 0)] = true := by decide

theorem test_decodeMoves : decodesAll [
   (0x2F60370D, .mov (.w 6) (.uni 7) 5),
   (0x2D403910, .smov (.n 4) 9 0),
   (0x2EE09321, .shfl 30 (.q 2) (.named 3) 1),
   (0x30800000, .grow 0 0),
   (0x31000000, .grow 1 0),
   (0x31800000, .grow 2 0),
   (0x32000000, .grow 3 0),
   (0x32001112, .growTry 3 (.named 1) 2),
   (0x30800020, .shrink 0 0),
   (0x35148340, .imad .w64 (.n 1) (.n 2) (.q 3) false 0),
   (0x39148340, .bfi .w64 (.n 1) (.n 2) (.q 3) false 0),
   (0x3F1CB30F, .sel (.w 1) (.w 2) (.w 3) true 7),
   (0x40486016, .iaddi (.q 4) (.thread (.named 17)) 0x201 6),
   (0x44486016, .andi (.q 4) (.thread (.named 17)) 0x201 6),
   (0x48486016, .ori (.q 4) (.thread (.named 17)) 0x201 6),
   (0x4C486016, .xori (.q 4) (.thread (.named 17)) 0x201 6),
   (0x50486016, .shli (.q 4) (.thread (.named 17)) 0x201 6),
   (0x54486016, .shri (.q 4) (.thread (.named 17)) 0x201 6),
   (0x58486016, .sari (.q 4) (.thread (.named 17)) 0x201 6),
   (0x5C0EFFF8, .movi (.uni 11) 0x3FF 0)] = true := by decide

theorem test_decodeFloats : decodesAll [
   (0x61149320, .fadd true false false (.n 1) (.n 2) (.thread (.named 3)) 0),
   (0x61149340, .fadd false true false (.n 1) (.n 2) (.thread (.named 3)) 0),
   (0x61149380, .fadd false false true (.n 1) (.n 2) (.thread (.named 3)) 0),
   (0x61149330, .fsub true false false (.n 1) (.n 2) (.thread (.named 3)) 0),
   (0x61149350, .fsub false true false (.n 1) (.n 2) (.thread (.named 3)) 0),
   (0x61149390, .fsub false false true (.n 1) (.n 2) (.thread (.named 3)) 0),
   (0x65149310, .fmul true false false (.n 1) (.n 2) (.thread (.named 3)) 0),
   (0x65149320, .fmul false true false (.n 1) (.n 2) (.thread (.named 3)) 0),
   (0x65149340, .fmul false false true (.n 1) (.n 2) (.thread (.named 3)) 0),
   (0x6B1CB309, .fmin (.w 1) (.w 2) (.uni 3) 1),
   (0x6B1CB319, .fmax (.w 1) (.w 2) (.uni 3) 1),
   (0x6D100000, .fcmp .eq (.n 1) (.q 0) (.thread .push) 0),
   (0x6D100010, .fcmp .ne (.n 1) (.q 0) (.thread .push) 0),
   (0x6D100020, .fcmp .lt (.n 1) (.q 0) (.thread .push) 0),
   (0x6D100030, .fcmp .le (.n 1) (.q 0) (.thread .push) 0),
   (0x6D100040, .fcmp .gt (.n 1) (.q 0) (.thread .push) 0),
   (0x6D100050, .fcmp .ge (.n 1) (.q 0) (.thread .push) 0),
   (0x6D100060, .fcmp .un (.n 1) (.q 0) (.thread .push) 0),
   (0x71D01E03, .frcp (.n 13) (.named 14) 3),
   (0x71D01E13, .frsq (.n 13) (.named 14) 3),
   (0x71D01E23, .fexp2 (.n 13) (.named 14) 3),
   (0x71D01E33, .flog2 (.n 13) (.named 14) 3),
   (0x71D01E43, .fsin (.n 13) (.named 14) 3),
   (0x71D01E53, .fcos (.n 13) (.named 14) 3)] = true := by decide

theorem test_decodeFloats2 : decodesAll [
   (0x71D01E63, .ftanh (.n 13) (.named 14) 3),
   (0x79149340, .hadd2 true (.n 1) (.n 2) (.named 3) 0),
   (0x79149350, .hmul2 true (.n 1) (.n 2) (.named 3) 0),
   (0x79149360, .hmax2 true (.n 1) (.n 2) (.named 3) 0),
   (0x7D149310, .ffma true false (.n 1) (.n 2) (.n 3) false 0),
   (0x81148360, .hfma2 true false true (.n 1) (.n 2) (.q 3) 0)] = true := by decide

theorem test_decodeConverts : decodesAll [
   (0x75105200, .fcvt (.float .fp32) (.float .fp32) .rz (.n 1) (.thread (.named 2)) 0),
   (0x75105210, .fcvt (.float .bf16) (.float .fp32) .rz (.n 1) (.thread (.named 2)) 0),
   (0x75105220, .fcvt (.float .fp16) (.float .fp32) .rz (.n 1) (.thread (.named 2)) 0),
   (0x75105230, .fcvt (.float .e4m3) (.float .fp32) .rz (.n 1) (.thread (.named 2)) 0),
   (0x75105240, .fcvt (.float .e5m2) (.float .fp32) .rz (.n 1) (.thread (.named 2)) 0),
   (0x75105280, .fcvt (.s8) (.float .fp32) .rz (.n 1) (.thread (.named 2)) 0),
   (0x75105290, .fcvt (.s16) (.float .fp32) .rz (.n 1) (.thread (.named 2)) 0),
   (0x751052A0, .fcvt (.s32) (.float .fp32) .rz (.n 1) (.thread (.named 2)) 0),
   (0x751052B0, .fcvt (.s64) (.float .fp32) .rz (.n 1) (.thread (.named 2)) 0),
   (0x751052C0, .fcvt (.z8) (.float .fp32) .rz (.n 1) (.thread (.named 2)) 0),
   (0x751052D0, .fcvt (.z16) (.float .fp32) .rz (.n 1) (.thread (.named 2)) 0),
   (0x751052E0, .fcvt (.z32) (.float .fp32) .rz (.n 1) (.thread (.named 2)) 0),
   (0x751052F0, .fcvt (.z64) (.float .fp32) .rz (.n 1) (.thread (.named 2)) 0),
   (0x75121200, .fcvt (.float .fp32) (.float .bf16) .rne (.n 1) (.thread (.named 2)) 0),
   (0x75141200, .fcvt (.float .fp32) (.float .fp16) .rne (.n 1) (.thread (.named 2)) 0),
   (0x75161200, .fcvt (.float .fp32) (.float .e4m3) .rne (.n 1) (.thread (.named 2)) 0),
   (0x75181200, .fcvt (.float .fp32) (.float .e5m2) .rne (.n 1) (.thread (.named 2)) 0),
   (0x751A1200, .fcvt (.float .fp32) (.s32) .rne (.n 1) (.thread (.named 2)) 0),
   (0x751C1200, .fcvt (.float .fp32) (.z32) .rne (.n 1) (.thread (.named 2)) 0),
   (0x751E1200, .fcvt (.float .fp32) (.s64) .rne (.n 1) (.thread (.named 2)) 0),
   (0x75161200, .fcvt (.float .fp32) (.float .e4m3) .rne (.n 1) (.thread (.named 2)) 0),
   (0x75165200, .fcvt (.float .fp32) (.float .e4m3) .rz (.n 1) (.thread (.named 2)) 0),
   (0x75169200, .fcvt (.float .fp32) (.float .e4m3) .rd (.n 1) (.thread (.named 2)) 0),
   (0x7516D200, .fcvt (.float .fp32) (.float .e4m3) .ru (.n 1) (.thread (.named 2)) 0)] = true := by decide

theorem test_decodeConverts2 : decodesAll [
   (0x75171200, .fcvt (.float .fp32) (.float .e4m3) .sr (.n 1) (.thread (.named 2)) 0),
   (0x75175200, .fcvt (.float .fp32) (.float .e4m3) .rneT (.n 1) (.thread (.named 2)) 0),
   (0x75179200, .fcvt (.float .fp32) (.float .e4m3) .rzT (.n 1) (.thread (.named 2)) 0),
   (0x7517D200, .fcvt (.float .fp32) (.float .e4m3) .srT (.n 1) (.thread (.named 2)) 0)] = true := by decide

theorem test_decodeControl : decodesAll [
   (0x84080009, .bra 0x10001 1),
   (0x90080009, .call 0x10001 1),
   (0x8A47FFF9, .bnz (.n 20) 0x0FFFF 1),
   (0x8E47FFF9, .bz (.n 20) 0x0FFFF 1),
   (0x94700000, .jmpr (.q 7) 0),
   (0x94700010, .ret (.q 7) 0),
   (0x9802C002, .join 11 2),
   (0x9802C012, .leave 11 2),
   (0x9802C022, .waitk 11 2),
   (0x99215330, .voteAll (.n 2) 5 (.named 3) 0),
   (0x99215340, .voteAny (.n 2) 5 (.named 3) 0),
   (0x99215350, .voteBal (.n 2) 5 (.named 3) 0),
   (0x99215360, .voteCnt (.n 2) 5 (.named 3) 0),
   (0x9C000004, .exit 4),
   (0x9C000014, .tail 4),
   (0xA0000014, .brk 4),
   (0xA0084000, .trap 33 0)] = true := by decide

theorem test_decodeSpecials : decodesAll [
   (0xA0001320, .srd .tid (.named 3) 0),
   (0xA0005320, .srd .lane (.named 3) 0),
   (0xA0009320, .srd .hwarp (.named 3) 0),
   (0xA000D320, .srd .group (.named 3) 0),
   (0xA0011320, .srd .gang (.named 3) 0),
   (0xA0015320, .srd .launch (.named 3) 0),
   (0xA0019320, .srd .core (.named 3) 0),
   (0xA001D320, .srd .die (.named 3) 0),
   (0xA0021320, .srd .slot (.named 3) 0),
   (0xA0025320, .srd .place (.named 3) 0),
   (0xA0029320, .srd .ctx (.named 3) 0),
   (0xA002D320, .srd .tenant (.named 3) 0),
   (0xA0031320, .srd .pkg (.named 3) 0),
   (0xA0035320, .srd .clock (.named 3) 0),
   (0xA0039320, .srd .wake (.named 3) 0),
   (0xA003D320, .srd .misscnt (.named 3) 0)] = true := by decide

theorem test_decodeMemory : decodesAll [
   (0xA5148408, .lds (.n 1) (.named 2) .z8 0x81 0),
   (0xAD148408, .ld (.n 1) (.named 2) .z8 0x81 0),
   (0xA5148C08, .lds (.n 1) (.named 2) .z16 0x81 0),
   (0xAD148C08, .ld (.n 1) (.named 2) .z16 0x81 0),
   (0xA5149408, .lds (.n 1) (.named 2) .z32 0x81 0),
   (0xAD149408, .ld (.n 1) (.named 2) .z32 0x81 0),
   (0xA5149C08, .lds (.n 1) (.named 2) .x64 0x81 0),
   (0xAD149C08, .ld (.n 1) (.named 2) .x64 0x81 0),
   (0xA514A408, .lds (.n 1) (.named 2) .s8 0x81 0),
   (0xAD14A408, .ld (.n 1) (.named 2) .s8 0x81 0),
   (0xA514AC08, .lds (.n 1) (.named 2) .s16 0x81 0),
   (0xAD14AC08, .ld (.n 1) (.named 2) .s16 0x81 0),
   (0xA514B408, .lds (.n 1) (.named 2) .s32 0x81 0),
   (0xAD14B408, .ld (.n 1) (.named 2) .s32 0x81 0),
   (0xA514BC08, .lds (.n 1) (.named 2) .x128 0x81 0),
   (0xA91C87FB, .sts (.n 1) (.w 2) .z8 0xFF 3),
   (0xB11C87FB, .store (.n 1) (.w 2) .z8 0xFF 3),
   (0xA91C8FFB, .sts (.n 1) (.w 2) .z16 0xFF 3),
   (0xB11C8FFB, .store (.n 1) (.w 2) .z16 0xFF 3),
   (0xA91C97FB, .sts (.n 1) (.w 2) .z32 0xFF 3),
   (0xB11C97FB, .store (.n 1) (.w 2) .z32 0xFF 3),
   (0xA91C9FFB, .sts (.n 1) (.w 2) .x64 0xFF 3),
   (0xB11C9FFB, .store (.n 1) (.w 2) .x64 0xFF 3),
   (0xD1149380, .atom .w64 .add (.n 1) (.n 2) (.named 3) 0)] = true := by decide

theorem test_decodeMemory2 : decodesAll [
   (0xD1149310, .atom .w32 .fadd (.n 1) (.n 2) (.named 3) 0),
   (0xD11493A0, .atom .w64 .min (.n 1) (.n 2) (.named 3) 0),
   (0xD11493B0, .atom .w64 .max (.n 1) (.n 2) (.named 3) 0),
   (0xD11493C0, .atom .w64 .and (.n 1) (.n 2) (.named 3) 0),
   (0xD11493D0, .atom .w64 .or (.n 1) (.n 2) (.named 3) 0),
   (0xD11493E0, .atom .w64 .xor (.n 1) (.n 2) (.named 3) 0),
   (0xD11493F0, .atom .w64 .exch (.n 1) (.n 2) (.named 3) 0),
   (0xD5149310, .acas .w64 (.n 1) (.n 2) (.n 3) 0),
   (0xD8000000, .fence .core .acq 0),
   (0xD8000050, .fence .die .rel 0),
   (0xD80000A0, .fence .pkg .ar 0),
   (0xD80000C0, .fence .sys .acq 0),
   (0xDD148300, .waita (.n 1) (.n 2) (.q 3) 0)] = true := by decide

theorem test_decodeScratch : decodesAll [
   (0xB5148000, .cvec .add false (.n 1) (.n 2) 0),
   (0xB5148010, .cvec .mul false (.n 1) (.n 2) 0),
   (0xB5148020, .cvec .fma false (.n 1) (.n 2) 0),
   (0xB5148030, .cvec .max false (.n 1) (.n 2) 0),
   (0xB5148040, .cvec .min false (.n 1) (.n 2) 0),
   (0xB5148050, .cvec .add true (.n 1) (.n 2) 0),
   (0xB5148060, .cvec .mul true (.n 1) (.n 2) 0),
   (0xB5148070, .cvec .fma true (.n 1) (.n 2) 0),
   (0xB5148080, .cvec .max true (.n 1) (.n 2) 0),
   (0xB5148090, .cvec .min true (.n 1) (.n 2) 0),
   (0xB9101200, .cred .sum (.n 1) (.named 2) 0),
   (0xB9101210, .cred .max (.n 1) (.named 2) 0),
   (0xB9101220, .cred .min (.n 1) (.named 2) 0),
   (0xB8001231, .credStat (.named 2) 1),
   (0xBD149300, .csmx (.n 1) (.n 2) (.named 3) 0),
   (0xC1148000, .ccvt (.n 1) (.n 2) 0),
   (0xC1148010, .cqnt (.n 1) (.n 2) 0),
   (0xC5149300, .catom .add (.n 1) (.n 2) (.named 3) 0),
   (0xC5149310, .catom .fadd (.n 1) (.n 2) (.named 3) 0),
   (0xC5149320, .catom .min (.n 1) (.n 2) (.named 3) 0),
   (0xC5149330, .catom .max (.n 1) (.n 2) (.named 3) 0),
   (0xC5149340, .catom .and (.n 1) (.n 2) (.named 3) 0),
   (0xC5149350, .catom .or (.n 1) (.n 2) (.named 3) 0),
   (0xC5149360, .catom .xor (.n 1) (.n 2) (.named 3) 0)] = true := by decide

theorem test_decodeScratch2 : decodesAll [
   (0xC5149370, .catom .exch (.n 1) (.n 2) (.named 3) 0),
   (0xC9148300, .ccas (.n 1) (.n 2) (.q 3) 0),
   (0xCC000007, .cwait 7),
   (0xCC000017, .cfence 7)] = true := by decide

theorem test_decodeEngines : decodesAll [
   (0xE1109302, .copy (.n 1) (.q 2) (.named 3) 2),
   (0xE1109312, .gath (.n 1) (.q 2) (.named 3) 2),
   (0xE1109322, .scat (.n 1) (.q 2) (.named 3) 2),
   (0xE1109332, .stkred (.n 1) (.q 2) (.named 3) 2),
   (0xE1109342, .stkcvt (.n 1) (.q 2) (.named 3) 2),
   (0xE5109302, .seal (.n 1) (.q 2) (.named 3) 2),
   (0xE5109312, .shape (.n 1) (.q 2) (.named 3) 2),
   (0xE5109322, .mxld (.n 1) (.q 2) (.named 3) 2),
   (0xE5109332, .mxmm (.n 1) (.q 2) (.named 3) 2),
   (0xE5109372, .acz (.n 1) (.q 2) (.named 3) 2),
   (0xE5109382, .acld (.n 1) (.q 2) (.named 3) 2),
   (0xE5109392, .acst (.n 1) (.q 2) (.named 3) 2),
   (0xE9109322, .barrx (.n 1) (.q 2) (.named 3) 2),
   (0xE9109332, .bwait (.n 1) (.q 2) (.named 3) 2),
   (0xF1109302, .qpost (.n 1) (.q 2) (.named 3) 2),
   (0xF5109302, .mhint (.n 1) (.q 2) (.named 3) 2),
   (0xE1100050, .cpwait (.n 1) .push 0),
   (0xE5100060, .mxwait (.n 1) .push 0),
   (0xE9100010, .barr (.n 1) .push 0),
   (0xED100000, .go (.n 1) .push 0),
   (0xED100020, .whereW (.n 1) .push 0),
   (0xF1100030, .crit (.n 1) .push 0),
   (0xF9100010, .trd (.n 1) .push 0),
   (0xF9100030, .tres (.n 1) .push 0)] = true := by decide

theorem test_decodeEngines2 : decodesAll [
   (0xF9100040, .tstop (.n 1) .push 0),
   (0xF9100050, .tkill (.n 1) .push 0),
   (0xE9108001, .binit (.n 1) (.q 2) 1),
   (0xE9108041, .bxin (.n 1) (.q 2) 1),
   (0xE9108051, .bxout (.n 1) (.q 2) 1),
   (0xF1108011, .evsig (.n 1) (.q 2) 1),
   (0xF9108021, .twr (.n 1) (.q 2) 1),
   (0xF9108061, .pinv (.n 1) (.q 2) 1),
   (0xE5108540, .mxsp (.n 1) (.q 2) 5 0),
   (0xF1100020, .sig (.n 1) 0),
   (0xE4000056, .oprdy 6),
   (0xEC000016, .homeW 6),
   (0xF8000006, .tret 6)] = true := by decide

/-- Major 0x3F; a set bit in a field that EXIT does not use; W = 1 with a queue source, and with a destination that is no w code;
a queue code as a destination; the 128-bit width on LD and a signed one on ST; FENCE kind 3, and an unused bit of FENCE; ICMP
relation 6; a destination of SMOV that is no w code; mask 12; the unassigned IADD form (R17, R18, R21 to R24, R87, R118, R124,
R209). -/
theorem test_rejects : decodesNone
    [0xFC000000, 0x9C000008, 0x080C3008, 0x0B0C1008, 0x09044500, 0xAD043800, 0xB1042000, 0xD8000070, 0x250440E0, 0xDA000000, 0x2D001010, 0x98030000, 0x09044030] = true := by decide

/-! ### Ill-formed terms (R18 to R24, R31, R42, R378, R381) -/

theorem test_illFormed_nopKind : Instr.wf (.hintNop 3 0 0) = false := by decide
theorem test_illFormed_uniSource : Instr.wf (.iadd .w64 .wrap (.w 0) (.n 1) (.uni 2) 0) = false := by decide
theorem test_illFormed_uniFormatF : Instr.wf (.imad .w64 (.w 0) (.w 1) (.q 0) true 0) = false := by decide
theorem test_illFormed_toggle : Instr.wf (.fcvt (.float .fp32) (.float .bf16) .rneT (.n 0) (.thread .push) 0) = false := by decide
theorem test_illFormed_toggleInteger : Instr.wf (.fcvt (.float .fp32) .s32 .rzT (.n 0) (.thread .push) 0) = false := by decide
theorem test_illFormed_convert : Instr.wf (.fcvt .s32 .s32 .rne (.n 0) (.thread .push) 0) = false := by decide
theorem test_illFormed_wideLds : Instr.wf (.lds (.n 0) (.named 31) .x128 0 0) = false := by decide
theorem test_illFormed_wideLd : Instr.wf (.ld (.n 0) (.named 1) .x128 0 0) = false := by decide
theorem test_illFormed_signedStore : Instr.wf (.store (.n 0) (.n 1) .s8 0 0) = false := by decide
theorem test_illFormed_sts : Instr.wf (.sts (.n 0) (.n 1) .x128 0 0) = false := by decide
theorem test_illFormed_submit : Instr.wf (.launchSubmit 0 ⟨0, 0⟩ 0xFFF [0, 0]) = false := by decide
theorem test_illFormed_eventWrite : Instr.wf (.eventWindowWrite 0 0 0 []) = false := by decide
theorem test_illFormed_read : Instr.wf (.hostRead 0 0 0 4097) = false := by decide
theorem test_illFormed_readNothing : Instr.wf (.hostRead 0 0 0 0) = false := by decide
theorem test_illFormed_write : Instr.wf (.hostWrite 0 0 0 (List.replicate 513 0)) = false := by decide

/-! ### Small states -/

def core0 : CoreId := ⟨0, 0⟩
def lane0 : ThreadKey := .home 0 0 0
def warp0 : WarpKey := .home 0 0

/-- The loaded thread of notes/assumptions/5.md is to issue the word at 0x80. -/
def ran (w : Nat) : State := { State.reset.withFetchWord 32 w with agenda := [] }

/-- It is the issue group. -/
def issuing : State := { ran 0x9C000000 with focus := ⟨core0, 0, [lane0]⟩ }

/-- The same with values in named registers. -/
def withRegs (l : List (Fin 32 × Word)) (s : State) : State :=
  modThread s lane0 fun th => { th with
    regs := l.foldl (fun r x => { r with named := r.named.set x.1 ⟨x.2, x.2, 0, none⟩ }) th.regs }

/-- A running invocation of the trap handler of core 0, which its lane 0 issues for; the loaded thread is Stopped with an entry. -/
def handling : State :=
  { issuing with
    focus := ⟨core0, 0, [.handler core0 0]⟩
    cores := [(core0, { Core.idle with ctx := some 0, stopped := true, handler := some ⟨0⟩ })]
    warps := tset issuing.warps (.handler core0) ⟨Vector.replicate 16 RCell.zero, Vector.replicate 12 0, 8, 0, 63, 0⟩
    threads := [(lane0, { loadedThread with status := .stopped .ready, entry := some ⟨.brk, 0x80, 0, 0, false, true⟩ }),
      (.handler core0 0, handlerThread 0x80 core0 0)] }

/-- Every word of a list may be issued. -/
def mayAll (s : State) (l : List Instr) : Bool := l.all fun i => issuable i s

/-! ### The hypotheses of the statements -/

theorem test_witness_DecodeOfEncode :
    (∀ x, Instr.exit 0 ≠ .illegalWord x) ∧ Instr.wf (.exit 0) = true ∧ encode (.exit 0) = some 0x9C000000#32 := by
  refine ⟨?_, by decide, by decide⟩
  intro x h
  cases h

theorem test_witness_EncodeOfDecode : decode 0x9C000000#32 = .ok (.exit 0) := by rfl

theorem test_witness_StepRunsTheDecodedWord :
    (∃ k slots, formGroup exec (wakeLeaders (ran 0x9C000000) core0 0) core0 0 = some (k, [lane0], slots)) ∧
    mayIssue (ran 0x9C000000) core0 0 = true ∧ mayIssue (modDie (ran 0) 0 fun d => { d with lost := true }) core0 0 = false ∧
    (match (fetchAt (ran 0x9C000000) core0 0 0x80 none).1 with | .word w => decode w = .ok (.exit 0) | _ => False) ∧
    (match (fetchAt (ran 0) core0 0 (2 ^ 46) none).1 with | .word _ => false | .miss _ => true) = true ∧
    formGroup exec State.reset core0 0 = none ∧ formGroup exec (ran 0) core0 1 = none := by
  refine ⟨⟨_, _, by rfl⟩, by decide, by decide, by rfl, by decide, by decide, by decide⟩

theorem test_witness_StepPerformsTheMove :
    ({ State.reset with agenda := [.event .eventPoll] } : State).agenda = .event .eventPoll :: [] ∧ encode .eventPoll = none ∧
    ({ State.reset with agenda := [.tick] } : State).agenda = .tick :: [] ∧ State.reset.agenda = [] := by decide

theorem test_witness_NoStepStops :
    issuing.focus.threads ≠ [] ∧ encode .gangHandout = none ∧ (encode (.exit 0)).isSome = true ∧ State.reset.focus.threads = [] := by
  decide

theorem test_witness_SumsAndProducts : mayAll issuing
    [.iadd .w32 .ss (.n 31) (.q 15) (.thread (.named 0)) 7, .isub .w64 .us (.w 1) (.w 2) (.uni 3) 0,
      .imin .w32 true (.n 1) (.n 2) (.thread .push) 0, .imax .w64 false (.n 1) (.n 2) (.thread (.named 31)) 1,
      .iabs .w32 (.q 0) (.thread .push) 0, .imul .w64 (.n 1) (.n 2) (.thread .push) 0,
      .imulhS .w64 (.n 1) (.n 2) (.thread .push) 0, .imulhU .w32 (.n 1) (.n 2) (.thread .push) 0,
      .imad .w64 (.n 1) (.n 2) (.q 3) false 0, .imad .w64 (.w 1) (.w 2) (.w 3) true 0] = true := by decide

theorem test_witness_ShiftsAndFields : mayAll issuing
    [.shl .w32 (.n 1) (.n 2) (.thread .push) 0, .shr .w64 (.n 1) (.n 2) (.thread (.named 3)) 0,
      .sar .w32 (.w 1) (.w 2) (.uni 15) 7, .rot .w64 (.n 1) (.q 0) (.thread .push) 0, .popc .w32 (.n 1) (.thread .push) 0,
      .clz .w64 (.n 1) (.thread .push) 0, .brev .w64 (.n 1) (.thread .push) 0, .bfe .w64 (.n 1) (.n 2) (.thread .push) 0,
      .bfi .w64 (.n 1) (.n 2) (.n 3) false 0] = true := by decide

theorem test_witness_LogicMovesAndImmediates : mayAll issuing
    [.andW (.n 1) (.n 2) (.thread .push) 0, .orW (.w 1) (.w 2) (.uni 0) 0, .xorW (.n 1) (.n 2) (.thread .push) 0,
      .andn (.n 1) (.n 2) (.thread .push) 0, .lea 15 (.n 1) (.n 2) (.thread .push) 0,
      .icmp .w32 .leu (.n 1) (.n 2) (.thread .push) 0, .sel (.n 1) (.n 2) (.n 3) false 0, .mov (.w 0) (.thread (.named 5)) 0,
      .iaddi (.n 1) (.thread .push) 0x3FF 0, .andi (.n 1) (.thread .push) 0x3FF 0, .ori (.n 1) (.thread .push) 0 0,
      .xori (.n 1) (.thread .push) 1 0, .shli (.n 1) (.thread .push) 63 0, .shri (.n 1) (.thread .push) 64 0,
      .sari (.n 1) (.thread .push) 63 0, .movi (.uni 7) 0x200 0] = true := by decide

theorem test_witness_FloatWords : mayAll issuing
    [.fadd true false true (.n 1) (.n 2) (.thread .push) 0, .fsub false true false (.n 1) (.n 2) (.thread .push) 0,
      .fmul true true true (.w 1) (.w 2) (.uni 3) 0, .ffma true true (.n 1) (.n 2) (.n 3) false 0,
      .fmin (.n 1) (.n 2) (.thread .push) 0, .fmax (.n 1) (.n 2) (.thread .push) 0, .fcmp .un (.n 1) (.n 2) (.thread .push) 0,
      .hadd2 true (.n 1) (.n 2) (.named 3) 0, .hmul2 false (.n 1) (.n 2) .push 0, .hmax2 true (.n 1) (.n 2) .push 0,
      .hfma2 true true false (.n 1) (.n 2) (.n 3) 0, .fcvt (.float .fp32) (.float .e4m3) .srT (.n 1) (.thread .push) 0,
      .fcvt .s64 (.float .fp32) .rd (.n 1) (.thread .push) 0] = true ∧
    RndCode.isSr .rd = false ∧ RndCode.isSr .srT = true := by decide

theorem test_witness_FunctionUnit : mayAll issuing
    [.frcp (.n 1) .push 0, .frsq (.n 1) (.named 2) 0, .fexp2 (.q 1) .push 0, .flog2 (.n 1) .push 0, .fsin (.n 1) .push 0,
      .fcos (.n 1) .push 0, .ftanh (.n 1) .push 0] = true ∧
    fp32 0x7FC00001 = .nan ∧ fp32 0xFF800000 = .inf true ∧ fp32 0x40800000 = .fin false (2 ^ 23) (-21) ∧
    ((2 ^ 23 : Nat) = 2 ^ 23 ∧ (23 + (-21) : Int) = 2 * 1) ∧ fp32 0x80000000 = .fin true 0 (-149) := by decide

theorem test_witness_HintWords : mayAll issuing
    [.hintNop 15 0 0, .hintYield 0 0, .hintDead 0x7FFFF 0, .hintMod 0 0, .hintMod 0x1F 0, .hintDln 0xFFFF 0, .hintDln 0x10000 0,
      .hintPhase 0x40001 0, .hintPhase 0x10000 0, .lit 0x3FFFFF 0] = true ∧
    (∀ t ∈ issuing.focus.threads, ((threadOf issuing t).map pathKeyOf) = some ⟨0x80, Pfx.empty⟩) := by decide

theorem test_witness_ControlTransfers :
    let ok := withRegs [(1, 0x007FFFFFFFFFFFFC), (2, 0xFF80000000000000)] issuing
    let bad := withRegs [(1, 0x0080000000000000), (2, 0x102)] issuing
    mayAll ok [.bra 0x10000 0, .bnz (.n 1) 0xFFFF 0, .bz (.n 1) 1 0, .call 0 7, .jmpr (.n 1) 0, .ret (.n 2) 0] = true ∧
    jumpable (readSrc ok lane0 0 (.n 1)) = true ∧ jumpable (readSrc ok lane0 0 (.n 2)) = true ∧
    mayAll bad [.jmpr (.n 1) 0, .ret (.n 2) 0] = true ∧ (∀ t ∈ bad.focus.threads, t.isHandler = false) ∧
    jumpable (readSrc bad lane0 0 (.n 1)) = false ∧ jumpable (readSrc bad lane0 0 (.n 2)) = false := by decide

theorem test_witness_ExceptionEntry :
    (∀ t ∈ issuing.focus.threads, t.isHandler = false) ∧ mayAll issuing [.trap 0 0, .trap 63 7, .brk 0] = true ∧
    issuing.focus.threads ≠ [] ∧ issuing.focus.threads.Nodup := by decide

/-- The loaded thread with a prefix state. -/
def withPfx (p : Pfx) (s : State) : State := modThread s lane0 fun th => { th with pfx := p }

/-- A home word of each cause of R45: a handler word, a pending literal before EXIT, a MOD that ADD does not take, a register
beyond the count. -/
theorem test_witness_ChecksBeforeEffect :
    let small := { issuing with warps := tset issuing.warps warp0 ⟨Vector.replicate 16 RCell.zero, Vector.replicate 12 0, 8, 0, 0, 0⟩ }
    (encode (.tret 0)).isSome = true ∧ issuing.focus.threads.Nodup ∧ isAway issuing lane0 = false ∧
    srcsReady issuing lane0 (instrShape (.tret 0)) = true ∧ issueCause issuing lane0 (instrShape (.tret 0)) = some .priv ∧
    issueCause (withPfx { Pfx.empty with lit := some 0 } issuing) lane0 (instrShape (.exit 0)) = some .litSeq ∧
    issueCause (withPfx { Pfx.empty with mod := some 0 } issuing) lane0 (instrShape (.mov (.n 1) (.thread .push) 0)) = some .illegal ∧
    issueCause small lane0 (instrShape (.mov (.n 8) (.thread .push) 0)) = some .regRange ∧
    issueCause small lane0 (instrShape (.mov (.n 7) (.thread .push) 0)) = none := by decide

theorem test_witness_HandlerFaults :
    issuable (.brk 0) handling = true ∧ handling.focus.core = core0 ∧
    (∀ t ∈ handling.focus.threads, (∃ l, t = .handler core0 l) ∧ isAway handling t = false ∧
      srcsReady handling t (instrShape (.join 0 0)) = true ∧ srcsReady handling t (instrShape (.trap 1 0)) = true) ∧
    (instrShape (.join 0 0)).noHandler = true ∧ (encode (.join 0 0)).isSome = true := by decide

theorem test_witness_TranslationChecks :
    isOwn issuing 0x10000 = true ∧ paMode 0x10000 ≠ 3 ∧ unbacked issuing 0x10000 = false ∧
    isOwn issuing (2 ^ 44) = false ∧ paMode (3 * 2 ^ 42) = 3 ∧ unbacked issuing (2 ^ 40) = true ∧
    pteValid 0x12001 = true ∧ malformed issuing 3 0x12001 = false ∧ pteLeaf 0x12001 = false ∧ malformed issuing 0 0x12001 = true ∧
    malformed issuing 2 0x7B = false ∧ pteLeaf 0x7B = true ∧
    (match checkLeaf issuing (some 0) 0 0x80 ⟨true, false, false⟩ 2 0x7B with
      | .ok x => decide (x.pa = 0x80 ∧ x.loc = 0x80)
      | _ => false) = true ∧
    isOwn issuing 0x80 = true ∧ inWindow issuing 0 0x80 0 = true := by decide

/-- Unit 0 of D0 belongs to context c. -/
def unitOwned (c : Nat) (s : State) : State := modDie s 0 fun d => { d with carve := d.carve.set 0 ⟨true, c, 0, false⟩ }

/-- Window 0 of tenant 0 takes in the whole of DRAM. -/
def allWindow (s : State) : State :=
  { s with tenants := tset s.tenants 0 { tenantOf s 0 with entry := BitVec.ofNat 1024 (2 ^ 63 + (2 ^ 30 - 1) * 2 ^ 32 + 2 ^ 1002) } }

/-- The port of host number 1 is port 0, where tenant 0 has a function and the window of 64 KiB at 2^44 that leads to bus address 0x5000. -/
def hostState : State :=
  { allWindow issuing with
    ports := State.reset.ports.set 0 { State.reset.ports[0] with
      cfg := BitVec.ofNat 64 (2 ^ 63 + 1)
      windows := State.reset.ports[0].windows.set 0 (BitVec.ofNat 256 (2 ^ 255 + 0x5000 * 2 ^ 128 + 2 ^ 64)) } }

/-- A leaf that each clause of the order of R180 meets: rights 4 to 6; carve-out of this die, of another, of another context, not
assigned; DRAM inside and outside the windows, and beyond the pools; host memory with and without a window. -/
theorem test_witness_TranslationChecks_leaf :
    let rw : Need := ⟨true, true, false⟩
    let code (s : State) (need : Need) (level : Fin 4) (e : BitVec 64) : Nat := match checkLeaf s (some 0) 0 0x80 need level e with
      | .ok x => 100 + x.loc
      | .page => 99
      | .viol k => k
    let carve : BitVec 64 := BitVec.ofNat 64 (3 * 2 ^ 42 + 0x237)
    let host : BitVec 64 := BitVec.ofNat 64 (2 ^ 44 + 0x30)
    canonical (2 ^ 55) = false ∧ canonical (2 ^ 55 - 1) = true ∧
    (translate issuing 0 (some core0) 0 (2 ^ 55) rw).1 = .viol 3 ∧
    [code issuing rw 2 0x6B, code issuing rw 2 0x4B, code issuing rw 2 0x5B, code issuing ⟨false, true, false⟩ 2 0x4B,
      code issuing ⟨true, true, true⟩ 2 0x3B, code issuing ⟨true, false, true⟩ 2 0x3B] = [0, 0, 1, 1, 2, 2] ∧
    code (unitOwned 0 issuing) rw 1 carve = 100 + (3 * 2 ^ 42 + 0x80) ∧ code (unitOwned 5 issuing) rw 1 carve = 6 ∧
    code (unitOwned 0 issuing) rw 1 (carve + BitVec.ofNat 64 (2 ^ 37)) = 6 ∧ code issuing rw 1 carve = 7 ∧
    code { issuing with tenants := [] } rw 2 0x7B = 5 ∧ code (allWindow issuing) rw 2 0x7B = 100 + 0x80 ∧
    code (allWindow issuing) rw 0 (BitVec.ofNat 64 (2 ^ 41 + 0x33)) = 7 ∧
    isOwn hostState (2 ^ 44) = false ∧ hostPort hostState (2 ^ 44 + 0x80) = some 0 ∧ tenantOfCtx hostState 0 = 0 ∧
    hostAddr hostState 0 0 (2 ^ 44 + 0x80) = some (2 ^ 64 + 0x5080) ∧ hostAddr hostState 0 0 (2 ^ 44 + 0x10000) = none ∧
    malformed hostState 3 (BitVec.ofNat 64 (2 ^ 44 + 0x2001)) = false ∧ malformed issuing 3 (BitVec.ofNat 64 (2 ^ 44 + 0x2001)) = true ∧
    walkFrom hostState 0x80 3 (2 ^ 44 + 0x2000) = .viol 7 ∧
    code hostState rw 0 host = 100 + (2 ^ 64 + 0x5080) ∧ code hostState rw 1 (host + BitVec.ofNat 64 (2 ^ 26)) = 5 := by decide

/-- A planned access of the loaded thread: no acquire is outstanding, and R203 finds no fault. -/
def planned (s : State) (size : Nat) (need : Need) (atomic : Bool) (va : Nat) : Bool :=
  !acqPending s lane0 && (planAll s size need atomic (fun _ => va) s.focus.threads).1.isEmpty

/-- MOD with an order and a scope (R36). -/
def ordered (order scope : Nat) : Pfx := { Pfx.empty with mod := some (BitVec.ofNat 14 (scope * 2 ^ 11 + order * 2 ^ 9)) }

def memState : State := withRegs [(1, 0x2000), (2, 7), (3, 9)] issuing

theorem test_witness_LoadIssues :
    issuable (.ld (.n 1) (.named 4) .s32 0x80 0) memState = true ∧
    planned memState 4 ⟨true, false, false⟩ false (memAddr memState lane0 (.n 1) 0x80 .s32) = true ∧
    memAddr memState lane0 (.n 1) 0x80 .s32 = 0x2000 - 512 ∧
    issuable (.ld (.n 1) .push .x64 0 0) (withPfx (ordered 1 6) memState) = true := by decide

theorem test_witness_StoreIssues :
    let rel := withPfx (ordered 2 7) memState
    issuable (.store (.n 1) (.n 2) .x64 0x7F 0) memState = true ∧
    planned memState 8 ⟨false, true, false⟩ false (memAddr memState lane0 (.n 1) 0x7F .x64) = true ∧
    issuable (.store (.n 1) (.n 2) .z8 0 0) rel = true ∧ releaseReady rel .sys lane0 = true := by decide

theorem test_witness_AtomicsIssue :
    let acq := withPfx (ordered 3 0) memState
    let nr := withPfx { Pfx.empty with mod := some 0x40 } memState
    mayAll memState [.atom .w64 .exch (.n 1) (.n 2) (.named 5) 0, .acas .w32 (.n 1) (.n 2) (.n 3) 0] = true ∧
    mayAll acq [.atom .w32 .fadd (.n 1) (.n 2) .push 0] = true ∧ mayAll nr [.atom .w64 .add (.n 1) (.n 2) .push 0] = true ∧
    planned memState 8 ⟨true, true, false⟩ true 0x2000 = true ∧ planned acq 4 ⟨true, true, false⟩ true 0x2000 = true ∧
    releaseReady acq .die lane0 = true := by decide

/-- A request of operation 1 for 8 bytes of a pseudo-channel, of class 1, with deadline 90. -/
def request0 : Request := ⟨1, some 1, 0, 0, 0, 0, 0x40, 8, 1, 90, true, 0, false, 0, core0, 0, []⟩

def plainAttr : Attr := ⟨false, false, false, false, 0, 0, 1, 1, none, 0⟩
def carveAttr : Attr := { plainAttr with carve := true }

/-- An operation outstanding for the loaded thread. -/
def withOp (b : OpBody) (s : State) : State := { s with ops := [(5, ⟨core0, warp0, [lane0], false, b⟩)], seq := 6 }

theorem test_witness_AtomicsTakeEffect :
    let s := withOp (.atomic false 8 .add [⟨lane0, 0x2000, 7, 0, some 5, carveAttr, .cache⟩] none) memState
    atomReady s 5 [⟨lane0, 0x2000, 7, 0, some 5, carveAttr, .cache⟩] none = true ∧ requestsDone s 5 = true ∧
    readAsks s .cache core0 false 0x2000 8 carveAttr none = [] ∧ (tget s.ops 5).isSome = true ∧
    atomReady { s with ops := (3, ⟨core0, warp0, [lane0], false, .load lane0 0x2000 8 false 3 .cache plainAttr none true⟩) :: s.ops }
      5 [⟨lane0, 0x2000, 7, 0, some 5, carveAttr, .cache⟩] none = false := by decide

theorem test_witness_LoadReturns :
    let s := withOp (.load lane0 0x2000 8 false 5 .cache plainAttr none true) memState
    (tget s.ops 5).isSome = true ∧ loadReady s 5 lane0 0x2000 .cache none = true ∧ requestsDone s 5 = true ∧
    (s.threads.map (·.1)).Nodup ∧ (s.gangs.map (·.1)).Nodup ∧ (∀ e ∈ s.threads, e.2.step ≠ .counted) ∧
    ((threadOf s lane0).map (·.wait?)) = some none ∧
    requestsDone { s with requests := [{ request0 with op := some 5 }] } 5 = false ∧
    readAsks s .cache core0 true 0x2000 8 plainAttr none ≠ [] ∧ readAsks s .cache core0 true 0x2000 8 carveAttr none = [] ∧
    loadReady { s with ops := (3, ⟨core0, warp0, [lane0], false, .load lane0 0x2000 8 false 3 .cache plainAttr (some .die) true⟩) :: s.ops }
      5 lane0 0x2000 .cache none = false := by decide

def queued (a : Attr) : Store := ⟨4, 4, lane0, 0x2000, [1, 2], .cache, a, false, false⟩
def lineOfPage (dirty : BitVec 32) (shared : Bool) (pins : List Nat) : L2Line :=
  ⟨List.replicate 128 3, dirty, shared, 0, false, 0, pins, [], 0, 1, 0⟩
def withLine (x : L2Line) (s : State) : State := modDie s 0 fun d => { d with l2 := [(64, x)] }

theorem test_witness_WritesReachHome :
    let s := modSlot memState core0 0 fun x => { x with storeq := [queued carveAttr] }
    let held := { s with ops := [(3, ⟨core0, warp0, [lane0], false, .load lane0 0x2000 8 false 3 .cache plainAttr none true⟩)] }
    drainReady s (queued carveAttr) = true ∧ requestsDone s 4 = true ∧
    requestsDone { s with requests := [{ request0 with op := some 4 }] } 4 = false ∧ writeAsks s .cache core0 0x2000 2 carveAttr false none = [] ∧
    writeAsks s .cache core0 0x2000 2 plainAttr false none ≠ [] ∧ drainReady held (queued carveAttr) = false ∧
    (slotOf s core0 0).storeq = [queued carveAttr] ∧ (slotOf memState core0 0).storeq = [] ∧
    ((l2Of (withLine (lineOfPage 1 false []) memState) 0 64).map fun x => decide (x.pins = [] ∧ x.data.length = 128)) = some true ∧
    ((l2Of (withLine (lineOfPage 1 false [9]) memState) 0 64).map fun x => decide (x.pins ≠ [])) = some true ∧
    l2Of memState 0 64 = none := by decide

/-- Accesses beyond the package: open, without tokens, and over a route that has failed; a line whose slice holds one of a lower rank;
a thread once in its table. -/
theorem test_witness_AccessesBeyond :
    let dry := setBucket hostState 0 1 ⟨0x0001000100010001, 7, 7⟩
    let two (r : Nat) : State := modDie memState 0 fun d => { d with l2 := [(64, { lineOfPage 0 false [] with rank := 1 }), (131, { lineOfPage 0 false [] with rank := r })] }
    let lower (s : State) : Bool := (dieOf s 0).l2.any fun e => e.2.pins == [] && decide (sliceOf (e.1 * 128) = sliceOf (64 * 128)) && decide (e.2.rank < 1)
    linkUp memState 0x2000 = true ∧ devicePasses memState 0 0x2000 true 8 = true ∧ linkUp memState (farKey 2 0x5000) = false ∧
    linkUp { memState with route := [(2, 0x80000023)] } (farKey 2 0x5000) = true ∧ keyPort (2 ^ 64 + 0x5080) = some 0 ∧
    linkUp hostState (2 ^ 64 + 0x5080) = true ∧ devicePasses hostState 0 (2 ^ 64 + 0x5080) true 8 = true ∧
    devicePasses dry 0 (2 ^ 64 + 0x5080) true 7 = true ∧ devicePasses dry 0 (2 ^ 64 + 0x5080) true 8 = false ∧
    drainReady memState (queued plainAttr) = true ∧ lower (two 0) = true ∧ lower (two 1) = false ∧ memState.packets = [] := by decide

theorem test_witness_LoadAfterStore :
    ([1, 2] : List Byte) ≠ [] ∧ 126 % 128 + ([1, 2] : List Byte).length ≤ 128 ∧
    LineWhole (withLine (lineOfPage 1 true []) memState) core0 64 := by
  refine ⟨by decide, by decide, ?_, ?_⟩
  · intro d h
    exact nomatch (show none = some d from h)
  · intro x h
    have hx : some (lineOfPage 1 true []) = some x := h
    cases hx
    decide

theorem test_witness_FencesAndReleases :
    let s := withLine (lineOfPage 1 true []) memState
    let busy := withOp (.load lane0 0x2000 8 false 5 .cache plainAttr none true) memState
    mayAll s [.fence .core .acq 0, .fence .sys .ar 7, .fence .pkg .rel 0] = true ∧
    (∀ t ∈ s.focus.threads, fenceReady s .sys .ar t = true) ∧ fenceReady busy .die .acq lane0 = false ∧
    ((l2Of (releaseAct s 0 0 .pkg) 0 64).map (·.shared)) = some true ∧
    ((l2Of (acquireAct (withLine (lineOfPage 1 true [9]) memState) core0 .pkg) 0 64).map (·.shared)) = some true := by decide

def watch0 : Watch := ⟨lane0, 0, 0, 0x2000, false, 0, some 0, none, plainAttr, 5, true, false⟩

theorem test_witness_WatchedWords :
    let s := modThread { memState with watches := [(5, watch0)] } lane0 fun th => { th with status := .live (.waiting (.word 5)) }
    issuable (.waita (.n 1) (.n 0) (.n 2) 0) memState = true ∧ memPending memState lane0 = false ∧
    storePending memState lane0 = false ∧ planned memState 8 ⟨true, false, false⟩ false 0x2000 = true ∧
    (waitRead memState lane0 core0 0x2000 plainAttr none).1 = readSrc memState lane0 1 (.n 0) ∧
    (waitRead memState lane0 core0 0x2000 plainAttr none).1 ≠ readSrc memState lane0 1 (.n 2) ∧
    tget s.watches 5 = some watch0 ∧ (watch0.deadline = some 0 ∧ 0 ≤ s.clock ∧ watch0.saved = false) ∧
    ((threadOf s lane0).map fun th => decide (th.status = .live (.waiting (.word 5)) ∧ th.step ≠ .counted)) = some true := by decide

theorem test_witness_MemoryHints :
    let s := withRegs [(1, 0x20000), (2, 0x10000), (3, 0xFFFF)] issuing
    issuable (.hintPref 0x22000 0) s = true ∧ ((srcCell s lane0 (codeSrc 17)).pend) = none ∧
    issuable (.mhint (.n 1) (.n 2) (.named 4) 0) s = true ∧ mhintFault s lane0 0x20000 0x10000 = none ∧
    (mhintFault s lane0 0x20000 0xFFFF).isSome = true ∧
    (match walk s 0 0x20000 with | .leaf l _ e => (match checkLeaf s (some 0) 0 0x20000 ⟨false, true, false⟩ l e with
      | .ok _ => true | _ => false) | _ => false) = true ∧
    (match walk s 0 (2 ^ 46) with | .leaf _ _ _ => false | _ => true) = true := by decide

/-! Warps. -/

/-- The group and the home warp of the loaded thread with changes. -/
def withGroup (f : Group → Group) (s : State) : State := modGroup s 0 f
def withWarp (f : Warp → Warp) (s : State) : State := modWarp s warp0 f
def withStatus (x : Status) (s : State) : State := modThread s lane0 fun th => { th with status := x }

theorem test_witness_LanesAndSpecialRegisters : mayAll issuing
    ([.smov (.n 31) 15 0, .shfl 31 (.n 1) .push 0] ++
      ([.tid, .lane, .hwarp, .group, .gang, .launch, .core, .die, .slot, .place, .ctx, .tenant, .pkg, .clock, .wake, .misscnt].map
        fun x => .srd x (.named 2) 7)) = true ∧
    (∀ j, (laneNamed issuing (laneThread lane0 j) 31).landed (now issuing) = true) := by decide

theorem test_witness_RegisterBlocks :
    let small := withWarp (fun w => { w with count := 8 }) issuing
    let full := withWarp (fun w => { w with base := 47, count := 8 }) issuing
    let waits := { withStatus (.live (.waiting (.grow 32))) small with focus := ⟨core0, 0, []⟩ }
    let owed := modThread issuing lane0 fun th => { th with regs := th.regs.put 8 0 1 none }
    mayAll issuing [.grow 3 0, .growTry 0 (.named 1) 0, .shrink 0 7, .shrink 3 0] = true ∧
    growStatus issuing warp0 32 = 0 ∧ growStatus small warp0 32 = 0 ∧ growStatus full warp0 16 = 2 ∧
    shrinksSubset (withGroup (fun g => { g with hdr := { g.hdr with migrate := true, subset := 0x100 } }) issuing) lane0 8 = true ∧
    shrinksSubset issuing lane0 8 = false ∧ (issuing.threads.map (·.1)).Nodup ∧ (issuing.gangs.map (·.1)).Nodup ∧
    ((threadOf owed lane0).map fun th => (th.regs.named[8]).landed (now owed)) = some false ∧
    growTargets waits warp0 = [32] ∧ lowerGrant waits warp0 = false ∧ growStatus waits warp0 32 = 0 ∧
    ((groupOf waits 0).map (·.isResident)) = some true ∧ (∀ e ∈ waits.threads, e.2.step ≠ .counted) ∧
    growTargets issuing warp0 = [] := by decide

theorem test_witness_MasksAndVotes :
    let member := withWarp (fun w => { w with k := w.k.set 0 1 }) issuing
    let waits := withStatus (.live (.waiting (.mask 0 (some (.all, true)) 9))) member
    mayAll issuing [.join 11 0, .leave 0 0, .waitk 0 0, .voteAll (.n 1) 0 .push 0, .voteAny (.n 1) 0 .push 0,
      .voteBal (.n 1) 0 (.named 31) 0, .voteCnt (.q 0) 11 .push 0] = true ∧
    (waits.threads.map (·.1)).Nodup ∧ (waits.gangs.map (·.1)).Nodup ∧ ((threadOf waits lane0).bind fun th => maskWait th 0) = some (some (.all, true), 9) ∧
    maskDue (noteMasks waits warp0) warp0 0 = true ∧ maskDue waits warp0 0 = false ∧ (tget waits.warps warp0).isSome = true ∧
    (∀ l, maskBit waits warp0 0 l = true → l = 0) ∧ maskReady waits warp0 0 = true ∧ maskReady member warp0 0 = false ∧
    (∀ e ∈ waits.threads, e.2.step ≠ .counted) := by decide

theorem test_witness_ThreadsEnd :
    mayAll issuing [.exit 0, .tail 7] = true ∧ storesOutstanding issuing lane0 = false ∧
    storesOutstanding (modSlot issuing core0 0 fun x => { x with storeq := [queued plainAttr] }) lane0 = true := by decide

/-! The scratchpad: the group has 2048 bytes. -/

def bankState : State := withRegs [(1, 2040), (2, 64), (3, 0x20), (4, 0)] issuing

theorem test_witness_ScratchpadWords : mayAll bankState
    [.lds (.n 1) (.named 30) .x128 0 0, .sts (.n 1) (.n 2) .x64 0 0, .catom .fadd (.n 2) (.n 1) .push 0, .ccas (.n 2) (.n 1) (.n 5) 0,
      .cvec .fma true (.n 4) (.n 4) 0, .cred .sum (.n 4) (.named 5) 0, .csmx (.n 4) (.n 4) .push 0, .ccvt (.n 4) (.n 4) 0,
      .cqnt (.n 4) (.n 4) 0] = true ∧
    (offsetRule bankState lane0 2040 8 0 0).isRight = true ∧ (offsetRule bankState lane0 2041 1 0 0).isRight = true ∧
    (offsetRule bankState lane0 2048 8 0 0).isLeft = true ∧ (offsetRule bankState lane0 2044 8 0 0).isLeft = true ∧
    (linesRule bankState lane0 [31] 0 0).isRight = true ∧ (linesRule bankState lane0 [32] 0 0).isLeft = true ∧
    (linesRule bankState lane0 [0, 1] 0 0).isLeft = true ∧
    bankRoom bankState (formEntries bankState true (.sts 8) [⟨[31], ⟨lane0, 2040, 64, 0, 0⟩⟩]) = true ∧
    countedWords bankState warp0 < 8 := by decide

def entry0 (b : BankBody) : BankEntry := ⟨7, core0, 0, 0, 0, 0, [0], [⟨lane0, 0, 0, 0, 5⟩], b⟩

theorem test_witness_ScratchpadEffects :
    (entry0 (.lds 8 true)).body = .lds 8 true ∧ (entry0 .csmx).lanes = [⟨lane0, 0, 0, 0, 5⟩] ∧
    ffmtOf ((0x0100 : Word).extractLsb' 8 3).toNat = some .bf16 ∧ ffmtOf ((0x0020 : Word).extractLsb' 3 3).toNat = some .e5m2 := by
  decide

def rec0 : BitVec 512 := BitVec.ofNat 512 (0x40 + 2 ^ 128 + 2 ^ 444)
/-- A COPY of two single-precision numbers within the scratchpad. -/
def copy0 : Eng :=
  { Eng.blank 0 core0 lane0 0x84 .copy with token := 1, src := rec0, dst := BitVec.ofNat 512 (0x80 + 2 ^ 128 + 2 ^ 444) }

theorem test_witness_BankService :
    let s := { issuing with banks := [entry0 (.sts 8)] }
    let r := withOp (.returns 0 [(lane0, 5, 1)]) issuing
    let c := { issuing with engs := [(3, { copy0 with state := .flight, cleared := [2], landed := [0, 1] })] }
    eligibleEntries s core0 0 ≠ [] ∧ eligibleEntries issuing core0 0 = [] ∧ (∀ e ∈ s.threads, e.2.step ≠ .counted) ∧
    (tget r.ops 5).isSome = true ∧ ((threadOf r lane0).map fun th => decide (th.away = none ∧ th.wait? = none)) = some true ∧
    ((tget c.engs 3).map fun e => decide (2 ∈ e.cleared ∧ unitsLeft e = [] ∧ usesIdx e.kind = false)) = some true ∧
    mayAll issuing [.credStat (.named 1) 0, .cwait 0, .cfence 0] = true ∧ crucibleOut issuing warp0 = [] ∧
    crucibleOut { r with ops := r.ops.map fun e => (e.1, { e.2 with crucible := true }) } warp0 = [5] ∧
    bankPending issuing lane0 = false ∧ bankPending s lane0 = true := by decide

/-! Barriers: an object of the loaded group at offset 0x20. -/

/-- Expected 2, Pending `p`, generation `g`, overrun count `v`. -/
def object (p g v : Nat) : BitVec 256 := BitVec.ofNat 256 (p * 2 ^ 128 + 2 * 2 ^ 144 + g * 2 ^ 160 + v * 2 ^ 168)
def withObject (o : BitVec 256) (s : State) : State := withGroup (fun g => { g with scratch := memPut g.scratch 0x20 32 o.toNat }) s
def barState : State := withObject (object 2 0 0) (withRegs [(1, 0x20), (2, 0), (3, 2016), (4, 2048)] issuing)

/-- Unit 0 of D0 belongs to the context, and a 64 MiB page at 2^36 leads to it. -/
def carveState : State :=
  let s := withRegs [(1, 2 ^ 36 + 1)] issuing
  modDie { s with mem := memPut (memPut s.mem 0x12008 8 0x14001) 0x14000 8 (3 * 2 ^ 42 + 0x237) } 0 fun d =>
    { d with carve := d.carve.set 0 ⟨true, 0, 0, false⟩ }

theorem test_witness_BarrierWords_fault :
    let q := barReqs carveState .barr (fun _ => 2 ^ 36 + 1) (fun _ => 0) [lane0]
    q.1 = [] ∧ q.2.1.any (carveBehind carveState) = false ∧ barRoom carveState q.2.1 = true ∧
    arrivalReady carveState .barr lane0 = true ∧ countedWords carveState warp0 < 8 ∧
    (barCarves (barEnter { q.2.2 with seq := q.2.2.seq + 3 } .barr (some .push) q.2.2.seq [warp0] q.2.1) .barr (some .push) q.2.2.seq q.2.1
      (carveObjs q.2.1)).1 ≠ [] := by decide

theorem test_witness_BarrierWords :
    let all : List Instr := [.binit (.n 1) (.n 2) 0, .barr (.n 1) .push 0, .barrx (.n 1) (.n 2) (.named 5) 0,
      .bwait (.n 1) (.n 2) .push 7, .bxin (.n 1) (.n 2) 0, .bxout (.n 3) (.n 2) 0]
    mayAll barState all = true ∧ (∀ t ∈ barState.focus.threads, arrivalReady barState .barr t = true) ∧
    (barRequest barState lane0 .barr 0x20 0).isRight = true ∧ (barRequest barState lane0 .barr 2016 0).isRight = true ∧
    (barRequest barState lane0 .barr 2048 0).isLeft = true ∧ (barRequest barState lane0 .binit 0x20 0x10000).isLeft = true ∧
    barRoom barState [⟨lane0, .scratch 0x20, 0⟩] = true ∧
    arrivalReady { barState with banks := [entry0 (.sts 8)] } .barr lane0 = false := by decide

theorem test_witness_BarrierService :
    let lane : Lane := ⟨lane0, 0x20, 0, 0, 9⟩
    let e (op : BarOp) : BankEntry := ⟨9, core0, 0, 0, 0, 0, [0], [lane], .bar op⟩
    let s (op : BarOp) (o : BitVec 256) := modThread (withStatus (.live .stalled) { withObject o barState with banks := [e op] }) lane0
      fun th => { th with inBar := some (9, th.regs) }
    let waits := withStatus (.live (.waiting (.barrier (.scratch 0x20) 0 false 9))) barState
    pickEntry (s .barr (object 2 0 0)) core0 0 = some (e .barr, false) ∧
    ((barRun .barr (tagOf (s .barr (object 2 0 0)) (.scratch 0x20)) [⟨lane0, 0, 9⟩] (object 2 0 0)).2.map (·.2)) =
      [.done (object 1 0 0) (some 0)] ∧
    ((barRun .barr (tagOf (s .barr (object 0 0 2)) (.scratch 0x20)) [⟨lane0, 0, 9⟩] (object 0 0 2)).2.map (·.2)) = [.bovr 3] ∧
    ((threadOf (s .barr (object 0 0 2)) lane0).map fun th => decide (th.entry = none ∧ th.inBar.isSome = true ∧
      th.status = .live .stalled ∧ th.place.core = core0)) = some true ∧
    recallsOut waits 0 = false ∧
    ((threadOf waits lane0).map (·.status)) = some (.live (.waiting (.barrier (.scratch 0x20) 0 false 9))) := by decide

/-! Transfers. The context has 16 handles; handle 1 of entry 0 names `rec0`. -/

def withContext (f : Context → Context) (s : State) : State := { s with contexts := tset s.contexts 0 (f (ctxOf s 0)) }
def withHandles (l : List (BitVec 512)) (s : State) : State :=
  withContext (fun x => { x with
    live := x.live ||| BitVec.ofNat 512 (16 * 2 ^ 357), handles := l.zipIdx.map fun r => (r.2, ⟨1, some r.1⟩) }) s
def withBlock (a : Nat) (b : Nat) (s : State) : State := withGroup (fun g => { g with scratch := memPut g.scratch a 64 b }) s

/-- COPY of entry 0 to entry 1, its block at 0x100. -/
def xferState : State :=
  withBlock 0x100 (1 + 4097 * 2 ^ 32) (withHandles [rec0, copy0.dst] (withRegs [(1, 0x100), (2, 0), (3, 2048), (4, 0x20)] issuing))

theorem test_witness_TransferWords :
    let other (k : EngKind) (n : Nat) : Bool := xferIllegal k (BitVec.ofNat 512 n)
    mayAll xferState [.copy (.n 1) (.n 2) .push 0, .gath (.n 1) (.n 2) .push 0, .scat (.n 1) (.n 2) .push 0,
      .stkred (.n 1) (.n 2) .push 0, .stkcvt (.n 1) (.n 2) (.named 5) 0, .cpwait (.n 2) .push 0] = true ∧
    electedOf xferState xferState.focus.threads = [lane0] ∧ blockReady xferState lane0 0x100 = true ∧
    readBlock xferState lane0 0x100 = BitVec.ofNat 512 (1 + 4097 * 2 ^ 32) ∧
    xferBlockFault xferState lane0 .copy (readBlock xferState lane0 0x100) = none ∧
    xferBar xferState lane0 (readBlock xferState lane0 0x100) = .inr none ∧
    handleRecord xferState 0 1 = some rec0 ∧ handleRecord xferState 0 4097 = some copy0.dst ∧ handleRecord xferState 0 2 = none ∧
    xferAdmits .copy (readBlock xferState lane0 0x100) rec0 copy0.dst = true ∧
    xferAdmits .stkcvt (readBlock xferState lane0 0x100) rec0 copy0.dst = false ∧
    tableRoom xferState core0 = true ∧ releaseReady xferState .die lane0 = true ∧ scratchSize xferState lane0 = 2048 ∧
    tokenReady { withOp (.load lane0 0x2000 8 false 5 .cache plainAttr none true) xferState with
      engs := [(2, { copy0 with scope := .pkg })] } lane0 1 = false ∧
    ((({ xferState with engs := [(2, { copy0 with poison := true })] } : State).engs.find? fun o =>
      o.2.state == .pending && o.2.poison).map (·.1)) = some 2 ∧
    other .copy (2 ^ 214) = true ∧ other .gath 0 = true ∧ other .gath (2 ^ 210) = false ∧
    blockAbsent { xferState with engs := [(2, { copy0 with cleared := [4] })] } lane0 0x100 = true ∧
    blockAbsent xferState lane0 0x100 = false ∧
    blockReady { xferState with banks := [{ entry0 (.sts 8) with bank := 4, lines := [4] }] } lane0 0x100 = false ∧
    tokenReady xferState lane0 1 = true ∧ bankPending xferState lane0 = false ∧ ¬ 5 ≤ xRnd (readBlock xferState lane0 0x100) ∧
    xRnd (BitVec.ofNat 512 (5 * 2 ^ 214)) = 5 ∧
    nrPending xferState lane0 = false ∧ tokenOp { xferState with engs := [(2, copy0)] } 0 1 = some 2 ∧
    tokenEnd (withGroup (fun g => { g with statuses := [(4, ⟨16, .die, false⟩)] }) xferState) 0 4 = some ⟨16, .die, false⟩ := by
  decide

/-- What an elected word answers: the cause and the address of a fault, or 100 for what is not one. -/
def electedCode (x : Elected) : Nat × Nat :=
  match x with
  | .fault f => (match f.cause with | .illegal => 1 | .align => 6 | .page => 7 | .viol => 8 | .handle => 9 | _ => 99, f.addr.toNat)
  | .hold => (100, 0)
  | .wait n => (101, n)
  | .done _ _ => (102, 0)

/-- The checks of R243 in their order, at the ends of their ranges: the barrier and the index list at the allocation, one unit inside
it, and in carve-out. -/
theorem test_witness_TransferWords_block :
    let at_ (k : EngKind) (blk : Nat) (s : State) : Nat × Nat := electedCode (xferOne k (.n 1) (.n 2) (withBlock 0x100 blk s) lane0)
    let handles : Nat := 1 + 4097 * 2 ^ 32
    let bar (a : Nat) : Nat := handles + a * 2 ^ 64 + 2 ^ 208
    let carve (a : Nat) : Nat := handles + a * 2 ^ 64 + 2 * 2 ^ 208
    let idx (a n : Nat) : Nat := handles + a * 2 ^ 128 + n * 2 ^ 192 + 2 ^ 210
    let c := { (unitOwned 0 xferState) with
      mem := memPut (memPut xferState.mem 0x12008 8 0x14001) 0x14000 8 (3 * 2 ^ 42 + 0x237) }
    [at_ .copy (handles + 2 ^ 64) xferState, at_ .copy (handles + 2 ^ 129) xferState, at_ .copy (bar 2048) xferState,
      at_ .copy (bar 2016) xferState, at_ .gath (idx 2044 1) xferState, at_ .gath (idx 2044 0) xferState, at_ .gath (idx 2048 0) xferState,
      at_ .copy (carve (2 ^ 55)) c, at_ .copy (carve 0x2000) c, at_ .copy (carve (2 ^ 36)) c, at_ .copy (carve (2 ^ 36)) xferState,
      at_ .copy (2 + 4097 * 2 ^ 32) xferState] =
      [(6, 1), (6, 2), (8, 2048), (102, 0), (8, 2048), (9, 0), (8, 2048), (8, 2 ^ 55), (1, 0), (102, 0), (7, 2 ^ 36), (9, 0)] := by decide

theorem test_witness_TransfersRun :
    let s (e : Eng) : State := { withBlock 0x40 0x0000000200000001 issuing with engs := [(3, e)] }
    let fl := { copy0 with state := .flight }
    let far := { fl with src := BitVec.ofNat 512 (2048 + 2 ^ 128 + 2 ^ 444) }
    copy0.kind.isTile = false ∧ (groupOf (s copy0) 0).isSome = true ∧ gidOf copy0.thread = some copy0.gid ∧
    engClear (s copy0) 3 copy0 = true ∧ earlierDispatch (s copy0) 3 copy0 = false ∧ copy0.poison = false ∧
    engClear { s copy0 with engs := (2, copy0) :: (s copy0).engs } 3 { copy0 with in0 := some 2 } = false ∧
    xferFault (s fl) fl = none ∧ requestsDone (s fl) 3 = true ∧
    requestsDone { s fl with requests := [{ request0 with op := some 3 }] } 3 = false ∧ (s fl).threads.all (fun e => e.2.step != .counted) = true ∧
    barHeld { s fl with engs := (2, { copy0 with cleared := [1] }) :: (s fl).engs } { fl with bar := some (.scratch 0x40) } (· != 3) = true ∧
    barHeld (s fl) { fl with bar := some (.scratch 0x40) } (· != 3) = false ∧
    unitSrc { fl with kind := .gath, idx := some [5] } 0 = none ∧ copy0.named = true ∧ finalLanded fl 1 = true ∧ 1 ∉ fl.landed ∧
    unitValue { fl with buf := [(1, 2)] } 1 = some 2 ∧
    ((tget (moveAll (s fl) 3 fl).engs 3).map unitsLeft) = some [] ∧
    xferFault (s far) far = some (2048, .viol 8 1) ∧
    unitSrc fl 1 = some 0x44 ∧ engRead (s fl) 3 fl (srcLoc (s fl) fl 0x44) 4 = some 2 ∧ unitDst fl 1 = some 0x84 ∧
    dstLoc (s fl) fl 0x84 = .scr 0x84 := by decide

def packet0 : Packet :=
  { op := some 3, threads := [], stack := 0, pa := 0x2000, red := some 2, atom := none, values := [5], counts := [(3, 0)], redWin := true
    cls := 1, deadline := none, core := core0, ctx := 0, more := [], sent := [(0, 1)], applied := false }

theorem test_witness_PacketsAndCounts :
    let fl := { copy0 with state := .flight, landed := [0], buf := [(0, 1)], bar := some (.scratch 0x20) }
    let s := { issuing with engs := [(3, fl)], packets := [(8, packet0), (9, { packet0 with stack := 1, counts := [(3, 1)] })] }
    fl.inDone + 4 ≤ (countable fl).1 ∧ fl.outDone + 4 ≤ (countable fl).2 ∧ 4 % unitBytes fl.dst = 0 ∧ 4 % unitBytes fl.src = 0 ∧
    ¬ (fl.inDone + 8 ≤ (countable fl).1) ∧ packetFirst s 8 packet0 8 = false ∧ packetFirst s 9 { packet0 with stack := 1 } 9 = false ∧
    packetFirst { s with packets := [(7, { packet0 with sent := [(0, 0)] }), (8, packet0)] } 8 packet0 8 = true ∧ issuing.packets = [] ∧
    packetBefore 7 { packet0 with sent := [(0, 0)] } 8 packet0 = true ∧ packetBefore 7 { packet0 with sent := [(1, 0)] } 8 packet0 = false ∧ sendReady s 8 { packet0 with sent := [] } = true ∧
    packetFirst { s with packets := [(8, packet0), (9, packet0)] } 8 packet0 9 = false ∧
    packetFirst { s with packets := [(8, packet0), (9, packet0)] } 9 packet0 8 = false ∧ barHeld s fl (fun _ => true) = false ∧
    barHeld s { fl with bar := some (.scratch 0x80), cleared := [2] } (fun _ => true) = false ∧
    requestsDone s 8 = true ∧ mergeable packet0 packet0 = true ∧ mergeable packet0 { packet0 with pa := 0x2004 } = false := by decide

/-! Tiles. -/

def acz0 : Eng := { Eng.blank 0 core0 lane0 0x84 .acz with token := 1, shape := (8, 16), rows := (2, 1) }
/-- ACLD of row 0 of a region of one row, 128 FP32, at 0x400. -/
def accRec : BitVec 512 := BitVec.ofNat 512 (0x400 + 127 * 2 ^ 128 + 512 * 2 ^ 224 + 2 ^ 444 + 2 ^ 446 + 3 * 2 ^ 450)
def tileState : State :=
  withGroup (fun g => { g with shape := (8, 16) })
    (withBlock 0x100 (1 + 2 ^ 89) (withHandles [accRec] (withRegs [(1, 0x100), (2, 0), (3, 15), (4, 1), (5, 2)] issuing)))

theorem test_witness_TileWords :
    let blk := readBlock tileState lane0 0x100
    mayAll tileState [.seal (.n 1) (.n 2) .push 0, .shape (.n 1) (.n 2) .push 0, .mxld (.n 1) (.n 2) .push 0,
      .mxmm (.n 1) (.n 2) .push 0, .mxsp (.n 1) (.n 2) 7 0, .acld (.n 1) (.n 2) .push 0, .acst (.n 1) (.n 2) (.named 9) 0,
      .acz (.n 3) (.n 4) .push 0, .oprdy 0, .mxwait (.n 2) .push 0] = true ∧
    blockReady tileState lane0 0x100 = true ∧ tileIllegal tileState lane0 .acld blk = false ∧
    tileIllegal tileState lane0 .mxmm blk = true ∧ handleRecord tileState 0 (tHnd blk) = some accRec ∧
    tileAdmits tileState lane0 .acld blk accRec = true ∧ tileAdmits tileState lane0 .mxld blk accRec = false ∧
    tileScrBad tileState lane0 accRec = none ∧ tableRoom tileState core0 = true ∧
    (shapeOf tileState lane0).2 = 16 ∧ ¬ (16 < 15 + 1) ∧ 16 < 15 + 2 ∧
    sealReason accRec = 0 ∧ sealReason rec0 = 0 ∧ freeEntry tileState 0 16 0 = some 1 ∧ freeEntry issuing 0 (handleCount issuing 0) 0 = none ∧
    handleRecord tileState 0 7 = none ∧ groupWritesDone tileState 0 6 = true ∧
    groupWritesDone { tileState with banks := [entry0 (.sts 8)] } 0 8 = false ∧
    groupWritesDone { tileState with banks := [entry0 (.sts 8)] } 0 7 = true ∧ oprdyReady tileState lane0 = true ∧
    oprdyReady { tileState with banks := [entry0 (.sts 8)], seq := 8 } lane0 = false ∧ acqPending tileState lane0 = false ∧
    acqPending (withOp (.load lane0 0x2000 8 false 5 .cache plainAttr (some .die) true) tileState) lane0 = true ∧
    blockAbsent { tileState with engs := [(2, { copy0 with cleared := [4] })] } lane0 0x100 = true ∧
    ((warpOf tileState lane0).map Warp.count) = some 32 ∧ warpLanded tileState lane0 0 = true ∧
    tokenOp { tileState with engs := [(2, acz0)] } 0 1 = some 2 := by decide

/-- SEAL: a bad operand, a misaligned and an outside record, a retire of a handle and of none, a record that waits; MXSP with an index
register at and below the count; the conditions of R254 at their ends. -/
theorem test_witness_TileWords_seal :
    let s (a b : Word) (x : State) : State := withRegs [(1, a), (2, b)] x
    let at_ (a b : Word) (x : State) : Nat × Nat := electedCode (sealOne (.n 1) (.n 2) (s a b x) lane0)
    let mxsp (n : Nat) : Nat × Nat := electedCode (tileOne .mxsp (.n 1) (.n 2) 0
      (withGroup (fun g => { g with ws := g.ws.set 0 { g.ws[0] with history := some (0, 3) } })
        (withWarp (fun w => { w with count := 8 }) (withBlock 0x100 (1 + n * 2 ^ 101) tileState))) lane0)
    let poisoned (k : Nat) : State := { tileState with engs := [(2, acz0), (k, { acz0 with poison := true })] }
    let img (n : Nat) : Nat := sealReason (BitVec.ofNat 512 n)
    [at_ 0x100 (2 ^ 33) tileState, at_ 1 (2 ^ 32) tileState, at_ 0x120 0 tileState, at_ 2048 0 tileState, at_ 0 (2 ^ 32 + 1) tileState,
      at_ 0 (2 ^ 32 + 2) tileState, at_ 0x100 0 tileState,
      at_ 0x100 0 { tileState with engs := [(2, { copy0 with cleared := [4] })] },
      at_ 0x100 0 { tileState with banks := [{ entry0 (.sts 8) with bank := 4, lines := [4] }] }] =
      [(1, 0), (1, 0), (6, 0x120), (8, 2048), (102, 0), (102, 0), (102, 0), (101, 4), (100, 0)] ∧
    (mxsp 8).1 = 99 ∧ (mxsp 7).1 = 9 ∧ claimsClear (poisoned 3) 3 acz0 = false ∧
    ((poisoned 3).engs.find? fun o => o.2.state == .pending && o.2.poison && claimsClear (poisoned 3) o.1 o.2) = none ∧
    ((poisoned 1).engs.find? fun o => o.2.state == .pending && o.2.poison && claimsClear (poisoned 1) o.1 o.2).isSome = true ∧
    [img (2 ^ 453), img (9 * 2 ^ 440), img (1 + 2 ^ 444), img (2 ^ 55 - 4 + 2 ^ 128), img (2 ^ 55 - 4), img 0x40] = [1, 2, 3, 4, 0, 0] := by decide

/-- A word of a SHARED page that came from home before, and after, the bind of a ladle's group; an object on an Absent line; an operand
behind a host port without tokens. -/
theorem test_witness_Fetches_and_operands :
    let x : Xlat := ⟨0, 2 ^ 64 + 0x5080, { plainAttr with remote := true }⟩
    freshFor (some 5) true 5 = false ∧ freshFor (some 5) true 6 = true ∧ freshFor (some 5) false 0 = true ∧ freshFor none true 0 = true ∧
    lineAbsent { issuing with engs := [(2, { copy0 with cleared := [1] })] } 0 1 = true ∧ lineAbsent issuing 0 1 = false ∧
    (engTakes hostState acz0 false [(.mem x, 8)]).isSome = true ∧
    (engTakes (setBucket hostState 0 1 ⟨0x0001000100010001, 7, 7⟩) acz0 false [(.mem x, 8)]).isNone = true := by decide

theorem test_witness_TilesRun :
    let s (e : Eng) : State := { tileState with engs := [(3, e)] }
    let fl := { acz0 with state := .flight }
    let far := { fl with kind := .acld, src := BitVec.ofNat 512 (2048 + 127 * 2 ^ 128 + 2 ^ 444 + 2 ^ 446 + 3 * 2 ^ 450), block := 2 ^ 89 }
    acz0.kind.isTile = true ∧ engClear (s acz0) 3 acz0 = true ∧ earlierDispatch (s acz0) 3 acz0 = false ∧ acz0.poison = false ∧
    gidOf acz0.thread = some acz0.gid ∧ tileBad (s fl) fl = none ∧ tileLinesReady (s fl) fl = true ∧
    (tileBad (s far) far).isSome = true ∧ rowTainted (s fl) fl 0 = false ∧ earlierArray (s fl) fl = false ∧
    earlierArray { s fl with engs := [(2, { fl with dispatched := 1 }), (3, { fl with dispatched := 2 })] } { fl with dispatched := 2 } = true ∧
    pinsOfCore (s fl) core0 + (tileLines (s fl) fl).length ≤ 512 ∧
    pinsOfCore (modDie (s fl) 0 fun d => { d with l2 := (List.range 512).map fun n => (n, lineOfPage 0 false [3]) }) core0 = 512 := by decide

/-! Ladles. -/

/-- The group may migrate n4 and a queue of 4; the die reports 96 guest places. -/
def ladleState : State :=
  modDie (withGroup (fun g => { g with hdr := { g.hdr with migrate := true, subset := 0x10 } }) issuing) 0 fun d =>
    { d with reports := [(0, (0, 96))] }

def away0 (k : Fin 4) (tgt : Option (Fin 8)) (refused : Bool) : Away :=
  { home := Regs.zero, homePc := 0x80, homePfx := Pfx.empty, homePlace := ⟨core0, 0, 0⟩, kind := k, stack := 0, target := tgt
    header := 0, body := [], goDst := .named 4, addr := 0x2000, refused := refused }
def travels (a : Away) (s : State) : State := modThread s lane0 fun th => { th with status := .travelling, away := some a }

/-- A carried word and its away thread; REGRANGE of SHFL, of a code outside the subset and of a w code; an armed step, one after a word
that waits, and one that goes on. -/
theorem test_witness_ChecksBeforeEffect_away :
    let away := modThread ladleState lane0 fun th => { th with away := some (away0 1 none false) }
    let armed := modThread issuing lane0 fun th => { th with step := .armed }
    let waits := modThread issuing lane0 fun th => { th with step := .counted, status := .live (.waiting (.grow 16)) }
    let cause (i : Instr) : Option Cause := issueCause away lane0 (instrShape i)
    isAway away lane0 = true ∧ issuesFor (.join 0 0) away = [] ∧ issuesFor (.shfl 0 (.n 1) .push 0) away = [lane0] ∧
    cause (.shfl 0 (.n 4) .push 0) = some .regRange ∧ cause (.growTry 0 .push 0) = some .regRange ∧
    cause (.mov (.n 5) (.thread .push) 0) = some .regRange ∧ cause (.mov (.w 0) (.thread .push) 0) = some .regRange ∧
    cause (.mov (.n 4) (.thread .push) 0) = none ∧ srcsReady away lane0 (instrShape (.shfl 0 (.n 4) .push 0)) = true ∧
    issuesFor (.brk 0) issuing = [lane0] ∧
    ((threadOf armed lane0).map stepDue) = some true ∧ ((threadOf issuing lane0).map stepDue) = some false ∧
    ((threadOf waits lane0).map fun th => decide (th.status = .live (.waiting (.grow 16)) ∧ th.step = .counted)) = some true ∧
    issueCause armed lane0 (instrShape (.hintNop 0 0 0)) = none ∧ issueCause armed lane0 (instrShape (.lit 0 0)) = none ∧
    ((threadOf armed lane0).map (·.status)) = some (.live .ready) := by decide

theorem test_witness_LadleWordsAndService :
    let called := modThread ladleState lane0 fun th => { th with away := some (away0 0 none false), recalled := true }
    let over_ := { withStatus .ended (modThread ladleState lane0 fun th => { th with away := some (away0 0 none false) }) with
      endNotes := [⟨lane0⟩] }
    mayAll ladleState [.go (.n 1) (.named 4) 0, .whereW (.n 1) .push 0, .homeW 3] = true ∧
    (placeAll ladleState (fun _ => 0x2000) [lane0]).1 = [] ∧
    (placeAll { ladleState with mem := [] } (fun _ => 0x2000) [lane0]).1 ≠ [] ∧
    eligibleDie ladleState 0 0 = true ∧ chooseDie ladleState 0 0 = some 0 ∧ chooseDie ladleState 1 0 = none ∧
    ((threadOf called lane0).map fun th => decide (th.recalled = true ∧ th.away.isSome = true ∧ th.leaving = none ∧
      th.status = .live .ready)) = some true ∧
    (⟨lane0⟩ : EndNote) ∈ over_.endNotes ∧ (∀ e ∈ over_.threads, e.2.step ≠ .counted) := by decide

theorem test_witness_LadlesMove :
    let leaves := modThread ladleState lane0 fun th => { th with leaving := some ⟨1, 0, .named 4, 0x2000, 9⟩ }
    let s (a : Away) := travels a ladleState
    let lost := modDie (s (away0 2 none false)) 0 fun d => { d with lost := true }
    ((threadOf leaves lane0).map fun th => decide (th.leaving.isSome = true) && departReady leaves lane0 th) = some true ∧
    ((threadOf (s (away0 0 (some 0) false)) lane0).map fun th => decide (th.status = .travelling ∧ th.step = .off ∧ th.inBar = none ∧
      th.leaving = none ∧ th.entry = none)) = some true ∧
    (dieOf (s (away0 0 (some 0) false)) 0).takes = true ∧ (chooseCore (s (away0 0 (some 0) false)) 0 0).isSome = true ∧
    chooseCore (s (away0 0 (some 1) false)) 1 0 = none ∧ departFirst leaves lane0 ⟨1, 0, .named 4, 0x2000, 9⟩ = true ∧
    departFirst { leaves with threads := leaves.threads ++ [(.home 0 0 1, { loadedThread with
      place := ⟨core0, 0, 1⟩, leaving := some ⟨1, 0, .named 4, 0x2000, 9⟩ })] } (.home 0 0 1) ⟨1, 0, .named 4, 0x2000, 9⟩ = false ∧
    ((groupOfThread (withGroup (fun g => { g with hdr := { g.hdr with migStrict := true } }) (s (away0 0 none true))) lane0).map
      (·.hdr.migStrict)) = some true ∧
    (dieOf lost 0).lost = true ∧ (dieOf (s (away0 1 none true)) 0).lost = false ∧
    ((groupOfThread (s (away0 1 none true)) lane0).map (·.hdr.migStrict)) = some false ∧
    (let back := { travels { away0 0 none true with homePc := 0x80 } { ladleState with mem := memPut ladleState.mem 0x80 4 0xAD149408 } with
       focus := ⟨core0, 0, [lane0]⟩ }
     (match (fetchAt back core0 0 0x80 none).1 with
       | .word w => decide (instrOfWord w = .ld (.n 1) (.named 2) .z32 0x81 0)
       | .miss _ => false) = true) := by decide

/-! Signals, events and the trap handler. -/

/-- Queue 0 of tenant 0 is enabled for context 0; a kernel header of version 1 stands at 0x3000 and a launch record of one gang
at 0x100 of the scratchpad. -/
def launchBits : Nat := 1 + 2 ^ 64 + 0x3000 * 2 ^ 128
def queueState0 : State :=
  let s := withBlock 0x100 launchBits (withRegs [(1, 0x100), (2, 0), (3, 0x2000), (4, 16)] issuing)
  { s with
    mem := memPut s.mem 0x3000 1 1
    contexts := tset s.contexts 0 { ctxOf s 0 with live := (ctxOf s 0).live ||| BitVec.ofNat 512 (4 * 2 ^ 418) }
    queues := [(⟨0, 0⟩, { Queue.none with enable := true })] }

theorem test_witness_SignalWords :
    let s := queueState0
    let open1 := modThread (withGroup (fun g => { g with bg := 1 }) s) lane0 fun th => { th with critOpen := true }
    mayAll s [.qpost (.n 1) (.n 2) (.named 5) 0, .evsig (.n 3) (.n 4) 0, .sig (.n 4) 0, .crit (.n 4) .push 0] = true ∧
    blockFault s lane0 0x100 = none ∧ blockReady s lane0 0x100 = true ∧ (queueOf s ⟨0, 0⟩).enable = true ∧
    (match testRecord s 0 0 0 (readBlock s lane0 0x100) with | .ok _ => true | .refused _ _ => false) = true ∧
    (match testRecord s 0 0 0 0 with | .ok _ => false | .refused _ _ => true) = true ∧
    (runElected (qpostOne (.n 1) (.n 2)) (electedOf s [lane0]) { s with engs := [(2, { copy0 with cleared := [4] })] }).waits ≠ [] ∧
    (runElected (qpostOne (.n 1) (.n 2)) (electedOf s [lane0]) s).waits = [] ∧
    (runElected (qpostOne (.n 1) (.n 2)) (electedOf s [lane0]) s).held = false ∧
    (runElected (qpostOne (.n 1) (.n 2)) (electedOf s [lane0]) { s with banks := [{ entry0 (.sts 8) with bank := 4, lines := [4] }] }).held = true ∧
    evsigFault s lane0 0x2000 = none ∧ (evsigFault s lane0 0x2004).isSome = true ∧ releaseReady s .sys lane0 = true ∧
    releaseReady (modSlot s core0 0 fun x => { x with storeq := [queued plainAttr] }) .sys lane0 = false ∧
    ((groupOf open1 0).map fun g => decide (g.bg = 1 ∧ g.isResident = true)) = some true ∧ openCount open1 0 = 1 ∧
    (coreOf open1 core0).dozing = false ∧ (coreOf open1 core0).stopped = false := by decide

theorem test_witness_HandlerReadsAndWrites :
    let sel (item lane slot : Nat) : Word := BitVec.ofNat 64 (item * 2 ^ 16 + lane * 64 + slot)
    mayAll handling [.trd (.n 1) (.named 2) 0, .twr (.n 1) (.n 2) 0, .tres (.n 1) .push 0, .tstop (.n 1) .push 0,
      .tkill (.n 1) .push 0] = true ∧
    (∀ t ∈ handling.focus.threads, ∃ l, t = .handler handling.focus.core l) ∧
    (itemOf (selItem (sel 9 0 0))).isSome = true ∧ itemOf (selItem (sel 10 0 0)) = none ∧
    (itemOf (selItem (sel 0x5B 0 0))).isSome = true ∧ itemOf (selItem (sel 0x5C 0 0)) = none ∧ selSlot (sel 0 0 63) = 63 ∧
    ((selected handling core0 0 0).map (·.1)) = some lane0 ∧ (selected handling core0 1 0).isNone = true ∧
    ((writable handling core0 (sel 1 0 0)).map (·.1)) = some lane0 ∧
    ((threadOf handling lane0).map fun th => namedReach handling lane0 th 31) = some true := by decide

theorem test_witness_InvocationsEnd :
    let c := core0
    let again := { handling with threads := [(lane0, { loadedThread with status := .stopped .ready, entry := some ⟨.brk, 0x80, 0, 0, false, false⟩ }),
      (.handler core0 0, handlerThread 0x80 core0 0)] }
    let failed := withContext (fun x => { x with hf := true }) handling
    mayAll handling [.tret 0, .pinv (.n 1) (.n 2) 0] = true ∧
    (∀ t ∈ threadsOfWarp handling (.handler c), releaseReady handling .sys t = true) ∧ (handling.threads.map (·.1)).Nodup ∧ (handling.gangs.map (·.1)).Nodup ∧
    (handling.threads.all fun e => ((e.2.entry).map (·.seen)).getD true) = true ∧
    ((threadOf again lane0).bind (·.entry)).map (·.seen) = some false ∧
    (coreOf handling c).handler = some ⟨0⟩ ∧
    ((coreOf { handling with cores := [(core0, { coreOf handling core0 with handler := some ⟨1048576⟩ })] } core0).handler) =
      some ⟨256 * 4096⟩ ∧
    (ctxOf failed 0).hf = true ∧ (ctxOf failed 0).destroyed = false ∧ (coreOf failed core0).ctx = some 0 ∧
    (coreOf failed core0).stopped = true := by decide

/-! Cores, groups and gangs. -/

def gang0 : Gang :=
  { queue := ⟨0, 0⟩, launch := 0, gang := 0, ctx := 0, prio := 0, die := 0, left := 0, groups := [0], boundAt := 0, bound := true, started := true, preempt := false
    saved := false, retired := false }
def withGang (f : Gang → Gang) (s : State) : State := { s with gangs := [(0, f gang0)] }

theorem test_witness_CoreEvents :
    let stalled := withStatus (.live .stalled) issuing
    let k : PathKey := ⟨0x80, Pfx.empty⟩
    let due := modSlot issuing core0 0 fun x => { x with leader := some ⟨0x200, Pfx.empty⟩, counts := [(k, 2048)] }
    let dozes := withContext (fun x => { x with live := x.live ||| BitVec.ofNat 512 (2 ^ 249) }) (withStatus (.live (.waiting (.grow 32))) issuing)
    ((threadOf stalled lane0).map fun th => decide (th.status = .live .stalled ∧ th.readyAt ≤ cycOf stalled core0)) = some true ∧
    tget (coreOf stalled core0).icache 0x80 = none ∧
    (let ready := modCore stalled core0 fun c => { c with icache := [(0x80, ⟨0x9C000000, 0⟩)] }
     ((threadOf ready lane0).map (nextReady ready lane0)) = some true ∧ ((threadOf ready lane0).bind (nextWord ready lane0)) = some 0x9C000000) ∧
    (match (translate issuing 0 (some core0) 0 0x80 ⟨false, false, true⟩).1 with | .ok x => decide (x.loc = 0x80) | _ => false) = true ∧ ((threadOf issuing lane0).map (·.inPath)) = some true ∧
    overdue due core0 0 = [k] ∧ (slotOf due core0 0).timed = false ∧ promised due core0 0 k = true ∧
    overdue (modSlot due core0 0 fun x => { x with counts := [(k, 2047)] }) core0 0 = [] ∧
    mayDoze dozes core0 = true ∧ mayDoze issuing core0 = false ∧ noThreads State.reset core0 = true ∧
    (coreOf (modCore issuing core0 fun c => { c with dozing := true }) core0).dozing = true ∧ noThreads issuing core0 = false ∧
    coreIdle issuing core0 = false := by decide

theorem test_witness_GroupsMove :
    let waits := withGang id (withStatus (.live (.waiting (.grow 16))) (withGroup (fun g => { g with phase := .parking }) issuing))
    let busy := withOp (.load lane0 0x2000 8 false 5 .cache plainAttr none true) waits
    let asked := withGang (fun x => { x with preempt := true }) issuing
    let ready := withGroup (fun g => { g with recognised := true }) asked
    let parked := withGang id (withStatus (.saved .ready) (withGroup (fun g => { g with phase := .parkSaved }) issuing))
    let returning := withGroup (fun g => { g with phase := .returning }) parked
    (issuing.threads.map (·.1)).Nodup ∧ (issuing.gangs.map (·.1)).Nodup ∧ (issuing.threads.all fun e => e.2.step != .counted) = true ∧
    allWaiting waits 0 = true ∧ allWaiting issuing 0 = false ∧
    ((groupOf waits 0).map fun g => drained waits g 0) = some true ∧ ((groupOf busy 0).map fun g => drained busy g 0) = some false ∧
    ((groupOf asked 0).map fun g => g.isResident && preemptPending asked 0 && !insideWindow asked 0 g) = some true ∧
    preemptReady ready 0 = true ∧ pinsReleased ready 0 = true ∧ preemptReady asked 0 = false ∧
    parkReady parked 0 = true ∧ parkReady waits 0 = false ∧
    ((groupOf parked 0).map fun g => (bestFit parked 0 (parkDies parked 0 g) [0] .returning).isSome) = some true ∧
    (dieOf returning 0).takes = true ∧ (coreOf returning core0).ctx = some 0 ∧ (ctxOf returning 0).dieMask.getLsbD 0 = true ∧
    ((groupOf returning 0).map fun g => recordOk returning 0 g) = some true ∧
    ((groupOf returning 0).map fun g => recordOk (withWarp (fun w => { w with base := 47 }) returning) 0 g) = some false := by decide

/-- What a bind is refused for: a core that holds another context, a mask that leaves out the die, a record that overlaps. -/
theorem test_witness_GroupsMove_refused :
    let s := withGang (fun x => { x with saved := true, bound := false }) (withGroup (fun g => { g with phase := .returning })
      (withStatus (.saved .ready) issuing))
    let ok (s : State) : Bool := (dieOf s 0).takes && (ctxOf s 0).dieMask.getLsbD 0 && ((groupOf s 0).map fun g => recordOk s 0 g).getD false
    let leaves (k : Fin 4) : Option Bool :=
      (threadOf (modThread issuing lane0 fun th => { th with leaving := some ⟨k, 0, .push, 0, 0⟩ }) lane0).map (·.recallable)
    ok s = true ∧ ok (modCore s core0 fun c => { c with ctx := some 1 }) = false ∧
    ok (withContext (fun x => { x with dieMask := 2 }) s) = false ∧ ok (modDie s 0 fun d => { d with lost := true }) = false ∧
    ((tget s.gangs 0).map fun x => decide (x.bound = false ∧ x.started = true ∧ x.groups = [0])) = some true ∧
    (leaves 0, leaves 1, leaves 2, leaves 3) = (some true, some true, some false, some false) ∧
    ((threadOf issuing lane0).map (·.recallable)) = some false ∧
    (parkDies s 0 ((groupOf s 0).getD loadedGroup)) = [0] := by decide

def launch0 : Launch :=
  { num := 0, ctx := 0, record := BitVec.ofNat 512 launchBits, hdr := { Header.zero with namedM1 := 0 }, prio := 0, dirPa := none
    waitPa := none, sigPa := none, waitMet := true, dirDone := true, handed := 0, back := [], retired := 0, closed := false, dead := false
    since := none }
def withLaunch (l : Launch) (s : State) : State := { s with queues := [(⟨0, 0⟩, { Queue.none with enable := true, records := [l] })] }

theorem test_witness_GroupsBound :
    let s := { withLaunch launch0 queueState0 with threads := [], groups := [], warps := [], seq := 3 }
    let placed := withGang (fun x => { x with bound := false }) (withGroup (fun g => { g with phase := .queued }) { issuing with threads := [] })
    let ended := withStatus .ended issuing
    let idle := { s with cores := [] }
    let done := { launch0 with handed := 1, retired := 1 }
    ((choiceOf s ⟨0, 0⟩).map fun c => decide (c.1 = 0) && (handOut s ⟨0, 0⟩ c.2).isSome) = some true ∧
    (handOut s ⟨0, 0⟩ (.fresh launch0)).isSome = true ∧ (choiceOf State.reset ⟨0, 0⟩).isNone = true ∧
    ((groupOf placed 0).map fun g => recordOk placed 0 g && (dieOf placed 0).takes) = some true ∧
    (coreOf placed core0).ctx = some 0 ∧ (ctxOf placed 0).dieMask.getLsbD 0 = true ∧ trackerUse ended core0 < 16 ∧
    (canLoad idle core0 = true ∧ (coreOf idle core0).ctx ≠ some 0 ∧ (ctxOf idle 0).exists? = true ∧ (ctxOf idle 0).lost = 0 ∧
      (ctxOf idle 0).dieMask.getLsbD 0 = true) ∧
    groupEnded ended 0 = true ∧ groupBusy ended 0 = false ∧ groupBusy (withOp (.load lane0 0x2000 8 false 5 .cache plainAttr none true) ended) 0 = true ∧
    groupEnded issuing 0 = false ∧
    (readyLaunch (queueOf s ⟨0, 0⟩)).isSome = true ∧ levelBound s 0 = none ∧ levelBound s 11 = some (1600 * 50) ∧
    ((queueOf s ⟨0, 0⟩).records.find? fun l => decide (l.num = 0)) = some launch0 ∧ launch0.done = false ∧ done.done = true ∧
    (s.threads.map (·.1)).Nodup ∧ (s.gangs.map (·.1)).Nodup := by decide

def overdueLaunch : Launch := { launch0 with prio := 1, since := some 0, hdr := { launch0.hdr with scrUnits := 1 } }

/-- A launch of level 1 has waited beyond its bound of 1 µs; a gang of level 0 holds the scratchpad of the one core that its context may
use. -/
def overdueState : State :=
  withGang id (withGroup (fun g => { g with hdr := { g.hdr with scrUnits := 256 } })
    { withLaunch overdueLaunch queueState0 with
      clock := 1601, seq := 3, latbnd := State.reset.latbnd.set 1 (BitVec.ofNat 64 (2 ^ 63 + 1))
      cores := (List.finRange 128).map fun k => (⟨0, k⟩, if k = 0 then coreOf issuing core0 else { Core.idle with ctx := some 1, handler := some ⟨0⟩ }) })

theorem test_witness_GroupsBound_overdue :
    let s := overdueState
    let l := overdueLaunch
    ((readyLaunch (queueOf s ⟨0, 0⟩)).map fun x => decide (x = l)) = some true ∧ (queueOf s ⟨0, 0⟩).fault = 0 ∧
    (queueOf s ⟨0, 0⟩).mark = .open ∧ diesFor s 0 = [0] ∧ fitsWithout s ⟨0, 0⟩ l 0 [] = false ∧ fitsWithout s ⟨0, 0⟩ l 0 [0] = true ∧
    levelBound s 1 = some 1600 ∧ 1600 < s.clock - 0 ∧ ¬ (1600 < 1600 - 0) ∧
    ((tget s.gangs 0).map fun x => decide (x.bound = true ∧ x.preempt = false ∧ x.prio < 1)) = some true ∧
    (s.threads.map (·.1)).Nodup ∧ (s.gangs.map (·.1)).Nodup := by decide

/-- R342: the victim is asked to leave. -/
theorem test_latencyBound : ((match exec (.latencyBoundExpire ⟨0, 0⟩) overdueState with
    | .next t => (tget t.gangs 0).map (·.preempt)
    | _ => none)) = some true := by decide

/-- Function 0 writes while Phase is ready and the buckets are open, whichever port it uses. -/
theorem test_managed : Managed issuing ∧ managementPasses State.reset = true ∧ ¬ Managed State.reset := by
  refine ⟨⟨by decide, ?_⟩, ?_, fun h => absurd h.1 (by decide)⟩ <;>
    (unfold managementPasses managementPort; split <;> decide)

/-- Tenant 0 has virtual function 1 of port 0. -/
def withVf (s : State) : State :=
  { s with tenants := tset s.tenants 0 { tenantOf s 0 with entry := (tenantOf s 0).entry ||| BitVec.ofNat 1024 (2 ^ 1002) } }

theorem test_witness_LaunchQueues :
    let s := withVf queueState0
    let q : QueueId := ⟨0, 0⟩
    let r : BitVec 512 := BitVec.ofNat 512 launchBits
    let data := natBytes 64 launchBits
    onPort s 0 0 = true ∧ onPort State.reset 0 0 = false ∧ data.length = 64 ∧ (queueOf s q).enable = true ∧ (queueOf s q).fault = 0 ∧
    (match testRecord s 0 0 0 r with | .ok _ => true | _ => false) = true ∧ recordBad r = false ∧
    (match testRecord s 0 0 0 (r + 0x40#512 <<< 128) with | .ok _ => false | _ => true) = true ∧
    aperCtx s 0 = some 0 ∧ aperCtx State.reset 0 = none ∧
    (match tundishXlat s 0 0x2000 ⟨true, true, false⟩ with | .ok l => decide (l = 0x2000) | _ => false) = true ∧
    (match tundishXlat s 0 (2 ^ 50) ⟨true, true, false⟩ with | .bad _ => true | _ => false) = true ∧
    s.nextPoll ≤ s.clock ∧ queueState s q = 0 ∧ queueState (withLaunch launch0 s) q = 1 ∧
    (queueOf s ⟨0, 1⟩).enable = false ∧ bvf (tenantOf s 0).entry 1023 1023 = 1 ∧ bvf (tenantOf s 1).entry 1023 1023 = 0 ∧
    ((ctxOf s 0).exists? = true ∧ (ctxOf s 0).destroyed = false ∧ tenantOfCtx s 0 = 0) ∧ tenantOfCtx s 0 ≠ 1 ∧
    (Msix.reset.masked.getLsbD 63 = true) := by decide

/-- The later tests of R332, each by its code: a kernel that is misaligned, not canonical, not mapped, in carve-out; a header of another
version; a parameter directory that is not mapped, and in carve-out; another number of groups; events that are not mapped, and in carve-out. -/
theorem test_witness_LaunchQueues_record :
    let hdr (n : Nat) (s : State) : State := { s with mem := memPut s.mem 0x3000 128 n }
    let s := { (unitOwned 0 queueState0) with mem := memPut (memPut queueState0.mem 0x12008 8 0x14001) 0x14000 8 (3 * 2 ^ 42 + 0x237) }
    let code (s : State) (r : Nat) : Nat := match testRecord s 0 0 0 (BitVec.ofNat 512 r) with
      | .ok _ => 100
      | .refused c _ => c
    let kernel (a : Nat) : Nat := 1 + 2 ^ 64 + a * 2 ^ 128
    [tundishXlat s 0 (2 ^ 36) ⟨true, false, false⟩, tundishXlat s 0 (2 ^ 46) ⟨true, false, false⟩] = [.carve, .bad 11] ∧
    [code s 0, code s (kernel 0x3040), code s (kernel (2 ^ 55)), code s (kernel (2 ^ 46)), code s (kernel (2 ^ 36)), code s (kernel 0x3080),
      code (hdr (1 + 2 ^ 46 * 2 ^ 128) s) (kernel 0x3000), code (hdr (1 + 2 ^ 36 * 2 ^ 128) s) (kernel 0x3000),
      code s (kernel 0x3000 + 2 * 2 ^ 15), code s (kernel 0x3000 + 2 ^ 46 * 2 ^ 256), code s (kernel 0x3000 + 2 ^ 36 * 2 ^ 256),
      code s (kernel 0x3000 + 2 ^ 46 * 2 ^ 384), code s (kernel 0x3000 + 2 ^ 36 * 2 ^ 384)] = [1, 2, 2, 2, 2, 2, 2, 2, 1, 1, 1, 1, 1] ∧
    [code (hdr (1 + 0x2000 * 2 ^ 128) s) (kernel 0x3000 + 2 ^ 15 + 0x2000 * 2 ^ 256 + 0x2008 * 2 ^ 384), code s (kernel 0x3000)] = [100, 100] := by
  decide

/-- One port serves the tenant, so that its window writes come in there; where none does they change nothing. -/
theorem test_witness_LaunchQueues_window :
    let s := withVf queueState0
    windowPort s 0 = some 0 ∧ writePasses s 0 0 8 = true ∧ windowPort queueState0 0 = none ∧ served s 0 0 = true ∧
    writePasses (setBucket s 0 1 ⟨0x0001000100010001, 7, 7⟩) 0 0 8 = false ∧
    (let g := withGang (fun x => { x with bound := false, started := false }) (withLaunch { launch0 with handed := 1 } s)
     ((tget g.gangs 0).map fun x => decide (x.queue = ⟨0, 0⟩)) = some true ∧
     (match exec (.queueSuspend ⟨0, 0⟩) g with
      | .next t => decide ((tget t.gangs 0).isNone ∧ (queueOf t ⟨0, 0⟩).records.map (·.back) = [[0]])
      | _ => false) = true) := by decide

/-! Contexts, dies, stacks, hosts and boot. -/

/-- A descriptor of tenant 0: die mask 1, one handle, one image slot at frame 0. -/
def desc0 : BitVec 512 := BitVec.ofNat 512 (2 ^ 256 + 2 ^ 357 + 2 ^ 418)

theorem test_witness_Contexts :
    let s := withContext (fun x => { x with desc := desc0 }) issuing
    let none1 := { s with contexts := tset s.contexts 1 { Context.none with desc := desc0 } }
    let carved := modDie s 0 fun d => { d with carve := d.carve.set 0 ⟨true, 0, 0, true⟩ }
    let cmd (c : CxCmd) : State := withContext (fun x => { x with cmd := some c }) s
    descOk s desc0 = true ∧ descOk s (desc0 + 1023#512 <<< 394) = false ∧ descOk s (desc0 + 1024#512 <<< 394) = true ∧
    descOk s (desc0 + 63#512 <<< 378) = false ∧ descOk s (desc0 + 64#512 <<< 378) = true ∧
    (ctxOf none1 1).cmd = none ∧ (ctxOf none1 1).exists? = false ∧ (ctxOf s 0).exists? = true ∧ (ctxOf s 0).lost = 0 ∧
    holdsCarve carved 0 0 = true ∧ holdsCarve s 0 0 = false ∧ ctxQuiet (cmd .destroy) 0 = true ∧
    ctxQuiet (withOp (.returns 1 []) (cmd .destroy)) 0 = false ∧ (ctxOf (cmd (.dieMask 1)) 0).cmd = some (.dieMask 1) ∧
    (ctxOf (cmd (.create desc0)) 0).cmd = some (.create desc0) ∧
    (ctxOf s 0).dieMask.getLsbD 0 = true ∧ (ctxOf s 0).dieMask.getLsbD 1 = false ∧
    residentOn carved 0 0 = true ∧ unitUsed carved 0 (3 * 2 ^ 42) = false ∧
    residentOn { carved with groups := [], threads := [], cores := [] } 0 0 = false := by decide

theorem test_witness_DiesAndPower :
    let gated := modDie State.reset 0 fun d => { d with change := some (.gated, 24) }
    (dieOf State.reset 0).change = none ∧ (dieOf State.reset 0).startFail = false ∧ (dieOf State.reset 0).lost = false ∧
    ¬ (40 < (40 : BitVec 6).toNat) ∧ 40 < (41 : BitVec 6).toNat ∧ ¬ (4 < (4 : BitVec 6).toNat) ∧ 4 < (5 : BitVec 6).toNat ∧ (24 : BitVec 6).toNat ≤ 24 ∧ 24 < (25 : BitVec 6).toNat ∧
    ((threadOf (travels (away0 1 none true) issuing) lane0).map fun th => decide (th.status = .travelling) &&
      (th.away.map fun a => decide (a.refused = true ∧ a.homePlace.core.die ≠ 1)).getD false) = some true ∧
    (dieOf gated 0).change = some (.gated, 24) ∧ State.reset.contexts = [] ∧
    (touchDie issuing 0 0).contexts.any (fun e => e.2.touched.getLsbD 0) = true ∧ lane0.isHandler = false ∧
    ((touchDie issuing 0 0).threads.map (·.1)).Nodup ∧ ((touchDie issuing 0 0).gangs.map (·.1)).Nodup ∧
    ((threadOf issuing lane0).map fun th => th.isResident) = some true := by decide

theorem test_witness_StacksAndLinks :
    let s := { issuing with requests := [request0, { request0 with id := 2, cls := 0 }], clock := 100 }
    let owed := setBank s 0 0 3 { Bank.fresh 0 0 with owed := 1 }
    chooseRequest s 0 0 = some request0 ∧ chooseRequest State.reset 0 0 = none ∧ guardOn s 0 0 = true ∧
    unheld [] (waitingAt s 0 0) = [request0] ∧ (bankAt s 0 0 0).early ≠ s.clock + 1 ∧
    (let h := { s with hostReads := [(1, ⟨0, 0, 0x40, [7], []⟩)], requests := [request0] }
     requestsDone h 1 = false ∧ requestsDone (grantOne h request0) 1 = false ∧
       requestsDone (grantOne h { request0 with stamped := false }) 1 = true) ∧ owedBank owed 0 0 = some 3 ∧ owedBank s 0 0 = none ∧
    ((Bank.fresh 0 0).access 0 5).lastRow = some 5 ∧ s.clock < (bankAt s 0 0 0).due ∧
    (bankAt { s with clock := 6240 } 0 0 0).due ≤ ({ s with clock := 6240 } : State).clock ∧
    inPhase { s with phases := [⟨0, core0, some 101⟩] } 0 = true ∧ inPhase { s with phases := [⟨0, core0, some 100⟩] } 0 = false ∧
    (bankAt s 0 0 1).credit < 8 ∧ (waitingAt s 0 0).all (fun r => r.bank != 1) = true ∧
    ({ s with misses := [⟨some 1, core0, 0, 2⟩] } : State).misses[0]? = some ⟨some 1, core0, 0, 2⟩ ∧ (coreOf s core0).ctx = some 0 ∧
    s.linkDown.getLsbD 31 = false ∧ (isOwn s 0x2000 = true ∧ paMode 0x2000 ≠ 3 ∧ unbacked s 0x2000 = false) ∧
    (isOwn s (2 ^ 45) = false ∧ hostPort s (2 ^ 45) = none ∧ routeOf s (2 ^ 45) = none) ∧
    routeOf { s with route := [(2, 0x80000023)] } (2 ^ 45) = some (3, 1) ∧
    routeOf { s with route := [(2, 0x80000023)], linkDown := 0x80 } (2 ^ 45) = none ∧
    (isOwn s (3 * 2 ^ 42) = true ∧ paMode (3 * 2 ^ 42) = 3) ∧ unbacked s (2 ^ 40) = true ∧
    (hostPort hostState (2 ^ 44 + 8) = some 0 ∧ remoteWindow hostState 0 (2 ^ 44 + 8) = some (0, 0x5008) ∧
      remoteWindow hostState 0 (2 ^ 44 + 0x10000) = none ∧ remoteBytes (.landing 1 5) 64 = 2 ∧ remoteBytes .read 64 = 64) ∧
    (mayPass hostState 0 1 true 64 = true ∧ mayPass (setBucket hostState 0 1 ⟨0x0001000100010001, 8, 8⟩) 0 1 true 64 = false ∧
      mayPass (setBucket hostState 0 64 ⟨0x0001000100010001, 8, 8⟩) 0 1 true 64 = false) ∧
    ((bankAt s 0 0 2).early ≠ s.clock + 1 ∧ (s.requests.all fun r => r.bank != 2) = true) ∧
    (unheld [] (waitingAt { s with requests := [request0, { request0 with id := 2, pa := 0x44 }] } 0 0)).map (·.id) = [1] ∧
    (unheld [] (waitingAt { s with requests := [request0, { request0 with id := 2, pa := 0x48 }] } 0 0)).map (·.id) = [1, 2] ∧
    ((bucketOf s 0 5).pair.extractLsb' 0 16).toNat = 0 ∧
    ((bucketOf (setBucket s 0 5 ⟨0x00020001, 0, 0⟩) 0 5).pair.extractLsb' 0 16).toNat = 1 := by decide

theorem test_witness_HostRequests :
    let reg : BitVec 256 := BitVec.ofNat 256 (1 + 0x2000 + 0x2FFF * 2 ^ 64 + 0x2FF8 * 2 ^ 136 + (2 ^ 64 - 1) * 2 ^ 192)
    let s := { withVf issuing with regions := issuing.regions.set 0 reg }
    let other := { s with regions := s.regions.set 0 (reg &&& BitVec.ofNat 256 (2 ^ 192 - 1)) }
    let slow := setBucket s 0 (Fin.ofNat 65 (tenantVf s 0 0)) ⟨0x0001000100010001, 8, 8⟩
    let at_ (s : State) (off len : Nat) : Option Nat := match hostXlat s 0 off len ⟨true, true, false⟩ with
      | .inl x => some x.loc
      | .inr _ => none
    served s 0 0 = true ∧ served State.reset 0 0 = false ∧ ¬ (4096 < 0xFC0 % 4096 + 64) ∧ 4096 < 0xFC1 % 4096 + 64 ∧
    mayPass s 0 (Fin.ofNat 65 (tenantVf s 0 0)) true 64 = true ∧ mayPass slow 0 (Fin.ofNat 65 (tenantVf s 0 0)) true 8 = true ∧
    mayPass slow 0 (Fin.ofNat 65 (tenantVf s 0 0)) true 9 = false ∧
    at_ s 0x2FF8 8 = some 0x2FF8 ∧ at_ other 0x2FF8 8 = none ∧ at_ other 0x3000 8 = some 0x3000 ∧
    meetsVersion s 0x2FF7 1 = false ∧ meetsVersion s 0x2FF7 2 = true ∧ meetsVersion s 0x3000 1 = false ∧
    (match hostXlat s 0 0x2FF8 8 ⟨true, false, false⟩ with | .inl x => !x.attr.remote | .inr _ => false) = true ∧
    requestsDone s s.seq = true ∧
    isVersion s 0x2FF8 8 = true ∧ isVersion s 0x2FF8 4 = false ∧
    ((tget (portOf s 0).bar2 (Fin.ofNat 64 (tenantVf s 0 0))).getD 40 = 40 ∧ ¬ ((2 : Nat) ^ 40 < 2 ^ 40 - 8 + 8) ∧ (2 : Nat) ^ 40 < 2 ^ 40 - 7 + 8) ∧
    (tenantVf s 0 0 = 1 ∧ s.hostWrites = []) := by decide

/-- A posted write of 16 bytes from 0x2004 on waits in pieces that each lie in one aligned 8 bytes; a read waits behind them; pieces of
one home go in order. -/
theorem test_witness_HostRequests_pieces :
    let s := withVf issuing
    (match exec (.hostWrite 0 0 0x2004 (List.replicate 16 7)) s with
      | .next t => decide (((tget t.hostWrites s.seq).map fun w => w.pieces.map fun p => (p.1, p.2.length)) = some [(0x2004, 4), (0x2008, 8), (0x2010, 4)] ∧
        (t.hostWrites.any fun e => e.2.port == 0 && e.2.fn == tenantVf t 0 0) = true ∧
        memByte t.mem 0x2004 = memByte s.mem 0x2004 ∧ memByte (otherMove (.hostPiece s.seq 0) t).mem 0x2004 = 7 ∧
        ((tget (otherMove (.hostPiece s.seq 1) t).hostWrites s.seq).map fun w => w.pieces.length) = some 3 ∧
        ((tget (otherMove (.hostPiece s.seq 0) t).hostWrites s.seq).map fun w => w.pieces.length) = some 2)
      | _ => false) = true := by decide

/-- The header is that of a bundle with its four sections one behind the other (R402). -/
theorem test_witness_BootAndRegisters :
    let openS := { State.reset with boot := { Boot.reset with phase := .openP, claimed := true, owner := 1 } }
    let starts := { State.reset with boot := { Boot.reset with phase := .starting, buffer := [] } }
    State.reset.boot.powered = true ∧ State.reset.boot.phase = .training ∧ openS.boot.phase = .openP ∧
    (openS.boot.claimed = true ∧ openS.boot.owner = 1) ∧
    ({ openS with boot := { openS.boot with phase := .failed } } : State).boot.phase = .failed ∧ openS.boot.attBusy = false ∧
    headerOk 0 = false ∧ headerOk (BitVec.ofNat 512 0x40000002000000040000000240000000040000064000000004000006440000064800000000146424d4c) = true ∧ starts.boot.phase = .starting ∧
    (0x800000 % 8 = 0 ∧ 0x800000 ≤ (0x800000 : BitVec 24).toNat ∧ ¬ (0x800000 ≤ (0x7FFFF8 : BitVec 24).toNat)) ∧
    issuing.boot.phase = .ready ∧ (0x3FFF8 % 0x80 = 0x78 ∧ ¬ (0x3FFF8 % 0x80 < 0x40)) ∧ (0x3FFB8 % 0x80 < 0x40) ∧
    mayPass issuing 0 0 false 8 = true ∧ mayPass (setBucket issuing 0 0 ⟨0x0001000100010001, 7, 8⟩) 0 0 false 8 = false ∧
    ({ openS with boot := { openS.boot with phase := .checking } } : State).boot.phase = .checking := by decide

/-- The state after a register write through port 0. -/
def written (off : BitVec 24) (v : BitVec 64) : State :=
  match exec (.registerWrite 0 off v) issuing with
  | .next t => t
  | _ => issuing

/-- The ends of each range of register offsets, and the word each reaches. -/
theorem test_witness_BootAndRegisters_offsets :
    let one : BitVec 64 := 0xFFFFFFFFFFFFFFFF
    let same (off : BitVec 24) : Bool := decide ((written off one).contexts = issuing.contexts ∧ (written off one).tenants = issuing.tenants ∧
      (written off one).regions = issuing.regions ∧ (written off one).ports = issuing.ports ∧ (written off one).latbnd = issuing.latbnd ∧
      (written off one).route = issuing.route ∧ (written off one).queues = issuing.queues)
    (bvf (ctxOf (written 0x3FF80 one) 2047).desc 263 249, bvf (ctxOf (written 0x3FFB8 one) 2047).desc 511 448) = (0, 2 ^ 64 - 1) ∧
    (bvf (tenantOf (written 0x40000 one) 0).entry 63 0, bvf (tenantOf (written 0x41FF8 one) 63).entry 1023 1023,
      bvf (tenantOf (written 0x41FF8 one) 63).entry 1022 1014) = (2 ^ 64 - 1, 1, 0) ∧ same 0x42000 = true ∧ same 0x3FFF8 = true ∧
    (bvf (written 0x60000 one).regions[0] 63 0, bvf (written 0x607F8 one).regions[63] 255 192) = (2 ^ 64 - 1, 2 ^ 64 - 1) ∧
    same 0x60800 = true ∧ (bvf (portOf (written 0x80000 one) 0).cfg 63 0) = 2 ^ 63 + 4095 ∧
    (bvf (portOf (written 0x90008 one) 1).loadFb 63 0) = 2 ^ 64 - 1 ∧ (bvf (bucketOf (written 0x90300 one) 1 64).pair 63 0) = 2 ^ 64 - 1 ∧
    same 0x90308 = true ∧ (bvf (portOf (written 0x91000 one) 1).windows[0] 255 0) = 2 ^ 44 - 1 ∧
    (bvf (portOf (written 0x911F8 one) 1).windows[15] 255 192) = 2 ^ 63 + 63 * 2 ^ 48 ∧ same 0x91200 = true := by decide

theorem test_witness_BootAndRegisters_offsets2 :
    let one : BitVec 64 := 0xFFFFFFFFFFFFFFFF
    (queueOf (written 0xA0000 0x7FF) ⟨0, 0⟩).ctx = 0x7FF ∧ (queueOf (written 0xA7FE0 one) ⟨63, 15⟩).err ≠ 0 ∧
    (bvf (written 0xB0000 one).latbnd[0] 63 0, bvf (written 0xB0058 one).latbnd[11] 63 0) = (2 ^ 63 + 2 ^ 20 - 1, 2 ^ 63 + 2 ^ 20 - 1) ∧
    (written 0xB0060 one).latbnd = issuing.latbnd ∧
    (((written 0x100000 one).route.map fun e => (e.1, e.2.toNat)) = [(0, 2 ^ 31 + 127), (1, 2 ^ 31 + 127)]) ∧
    (((written 0x103FF8 one).route.map fun e => (e.1, e.2.toNat)) = [(4094, 2 ^ 31 + 127), (4095, 2 ^ 31 + 127)]) ∧
    (written 0x104008 one).route = issuing.route ∧
    (match exec (.registerWrite 0 0x104000 1) { issuing with linkFail := 3 } with | .next t => t.linkFail.toNat | _ => 0) = 2 ∧
    (bvf (written 0x201000 one).boot.nonces[0] 63 0, bvf (written 0x201038 one).boot.nonces[0] 511 448) = (2 ^ 64 - 1, 2 ^ 64 - 1) ∧
    (written 0x201040 one).boot = issuing.boot ∧ (written 0x800000 one).boot = issuing.boot := by decide

theorem test_witness_ExactArithmetic :
    (FVal.fin false 3 (-1)).rat? = some (3 / 2) ∧ (FVal.fin true 3 (-1)).rat? = some (-3 / 2) := by
  constructor <;> norm_num [FVal.rat?]

theorem test_witness_RoundingToNearest :
    (0x3F80 : Nat) < 2 ^ FFmt.bf16.width ∧ fdecode .bf16 0x3F80 = .fin false 128 (-7) ∧ roundRne .bf16 (.fin false 257 (-8)) = 0x3F80 := by
  decide

theorem test_witness_StepKeepsMemoryAndThreads :
    Memory.wf issuing.mem = true ∧ (issuing.threads.map (·.1)).Nodup ∧ (issuing.gangs.map (·.1)).Nodup ∧
    (match step (State.reset.withFetchWord 32 0x9C000000) with | .next _ => true | _ => false) = true := by decide

/-! ### Single steps: results that the manual states, or a hand calculation from its rules -/

/-- The value of q0 of the issuing thread after an instruction. -/
def q0After (i : Instr) (s : State) : Option Nat :=
  match exec i s with
  | .next t => (threadOf t lane0).map fun th => (th.regs.qcell 0).val.toNat
  | _ => none

/-- The value of a named register of the issuing thread after an instruction. -/
def nAfter (r : Fin 32) (i : Instr) (s : State) : Option Nat :=
  match exec i s with
  | .next t => (threadOf t lane0).map fun th => (th.regs.named.get r).val.toNat
  | _ => none

/-- The pc of the issuing thread after an instruction. -/
def pcAfter (i : Instr) (s : State) : Option Nat :=
  match exec i s with
  | .next t => (threadOf t lane0).map fun th => th.pc.toNat
  | _ => none

/-- The status of the issuing thread after an instruction. -/
def statusAfter (i : Instr) (s : State) : Option Status :=
  match exec i s with
  | .next t => (threadOf t lane0).map (·.status)
  | _ => none

/-- The cause and the cause's operand of the issuing thread's pending entry after an instruction. -/
def causeAfter (i : Instr) (s : State) : Option Cause :=
  match exec i s with
  | .next t => (threadOf t lane0).bind fun th => th.entry.map (·.cause)
  | _ => none

/-- n4, n5 and n6 of the issuing thread. -/
def with456 (a b c : Word) : State := withRegs [(4, a), (5, b), (6, c)] issuing

/-! Integer words: the kernel `sat` of the manual's worked example on integers, and corners of R118 to R127. -/
theorem test_sat : q0After (.iadd .w32 .ss (.n 4) (.n 5) (.thread .push) 0) (with456 0x7FFFFFD0 100 0) = some 0x7FFFFFFF := by decide
theorem test_wrap : q0After (.iadd .w32 .wrap (.n 4) (.n 5) (.thread .push) 0) (with456 0x7FFFFFD0 100 0) = some 0x80000034 := by
  decide
theorem test_sar : q0After (.sar .w32 (.n 4) (.n 5) (.thread .push) 0) (with456 0x80000034 4 0) = some 0xFFFFFFFFF8000003 := by decide
theorem test_icmpSigned : q0After (.icmp .w32 .lt (.n 4) (.n 5) (.thread .push) 0) (with456 0xF8000003 0x7FFFFFFF 0) = some 1 := by
  decide
theorem test_icmpUnsigned : q0After (.icmp .w32 .ltu (.n 4) (.n 5) (.thread .push) 0) (with456 0xF8000003 0x7FFFFFFF 0) = some 0 := by
  decide
theorem test_isubUnsignedSaturates : q0After (.isub .w64 .us (.n 4) (.n 5) (.thread .push) 0) (with456 1 2 0) = some 0 := by decide
theorem test_imulhSigned : q0After (.imulhS .w64 (.n 4) (.n 5) (.thread .push) 0) (with456 0xFFFFFFFFFFFFFFFF 1 0) =
    some 0xFFFFFFFFFFFFFFFF := by decide
theorem test_imulhUnsigned : q0After (.imulhU .w64 (.n 4) (.n 5) (.thread .push) 0) (with456 0xFFFFFFFFFFFFFFFF 2 0) = some 1 := by
  decide
theorem test_clzZero : q0After (.clz .w32 (.n 4) (.thread .push) 0) (with456 0 0 0) = some 32 := by decide
theorem test_namedDestination : nAfter 7 (.iadd .w32 .ss (.n 4) (.n 5) (.thread (.named 7)) 0) (with456 0x7FFFFFD0 100 0) =
    some 0x7FFFFFFF := by decide
theorem test_sourceIsDestination : nAfter 4 (.isub .w64 .wrap (.n 5) (.n 4) (.thread (.named 4)) 0) (with456 3 10 0) = some 7 := by
  decide
theorem test_movi : q0After (.movi (.thread .push) 0x3FF 0) issuing = some 0xFFFFFFFFFFFFFFFF := by decide
theorem test_advance : pcAfter (.mov (.n 4) (.thread .push) 0) issuing = some 0x84 := by decide

/-! Float words: the kernel `fma` of the manual's worked example, the zeros of R131 and R133, and the conversions of R59 to R61. -/
theorem test_fused : q0After (.ffma false false (.n 4) (.n 4) (.n 5) false 0) (with456 0x3F800800 0xBF801000 0) = some 0x33800000 := by
  decide
theorem test_product : q0After (.fmul false false false (.n 4) (.n 4) (.thread .push) 0) (with456 0x3F800800 0 0) = some 0x3F801000 := by
  decide
theorem test_fsubZeros : q0After (.fsub false false false (.n 4) (.n 5) (.thread .push) 0) issuing = some 0 := by decide
theorem test_fsubNegatedZeros : q0After (.fsub true false false (.n 4) (.n 5) (.thread .push) 0) issuing = some 0x80000000 := by decide
theorem test_ffmaZero : q0After (.ffma false false (.n 4) (.n 5) (.n 6) false 0) (with456 0 0xC0A00000 0x80000000) = some 0x80000000 := by
  decide
theorem test_fminZeros : q0After (.fmin (.n 4) (.n 5) (.thread .push) 0) (with456 0 0x80000000 0) = some 0x80000000 := by decide
theorem test_fcmpZeros : q0After (.fcmp .eq (.n 4) (.n 5) (.thread .push) 0) (with456 0 0x80000000 0) = some 1 := by decide
theorem test_cancel : q0After (.fadd false false false (.n 4) (.n 5) (.thread .push) 0) (with456 0x3F801000 0xFFFFFFFFBF801000 0) =
    some 0 := by decide
theorem test_half : q0After (.fcvt (.float .fp32) (.float .fp16) .rne (.n 4) (.thread .push) 0) (with456 0x33800000 0 0) = some 1 := by
  decide
theorem test_e4m3Tie : q0After (.fcvt (.float .fp32) (.float .e4m3) .rne (.n 4) (.thread .push) 0) (with456 0x43E80000 0 0) =
    some 0x7E := by decide
theorem test_e4m3Nosat : q0After (.fcvt (.float .fp32) (.float .e4m3) .rneT (.n 4) (.thread .push) 0) (with456 0x43FA0000 0 0) =
    some 0x7F := by decide
theorem test_landingTie : q0After (.fadd false false false (.n 4) (.n 5) (.thread .push) 0) (with456 0x4B800000 0x3F800000 0) =
    some 0x4B800000 := by decide


theorem test_bfi : nAfter 6 (.bfi .w32 (.n 4) (.n 5) (.n 6) false 0) (with456 0xAB 0xFFFFFFFF 0x0808) = some 0xFFFFABFF := by decide
theorem test_imad : nAfter 6 (.imad .w32 (.n 4) (.n 5) (.n 6) false 0) (with456 0xFFFFFFFF 2 3) = some 1 := by decide
theorem test_selQueue : q0After (.sel (.n 4) (.n 5) (.q 0) false 0) (with456 7 9 0) = some 9 := by decide
theorem test_shri : q0After (.shri (.n 4) (.thread .push) 64 0) (with456 5 0 0) = some 5 := by decide
theorem test_hadd2 : q0After (.hadd2 true (.n 4) (.n 5) .push 0) (with456 0x7BFF3C00 0x7BFF3C00 0) = some 0x7C004000 := by decide
theorem test_frcpZero : q0After (.frcp (.n 4) .push 0) (with456 0x80000000 0 0) = some 0xFF800000 := by decide
theorem test_frsqFour : q0After (.frsq (.n 4) .push 0) (with456 0x40800000 0 0) = some 0x3F000000 := by decide
theorem test_fexp2 : q0After (.fexp2 (.n 4) .push 0) (with456 0xC0400000 0 0) = some 0x3E000000 := by decide

/-! Control transfers, masks and threads (R86 to R89, R104 to R112). -/
theorem test_bra : pcAfter (.bra (-3) 0) issuing = some 0x78 := by decide
theorem test_call : q0After (.call 2 0) issuing = some 0x84 := by decide
theorem test_join : ((match exec (.join 3 0) issuing with | .next t => (tget t.warps warp0).map (fun w => (w.k[3]).toNat) | _ => none)) =
    some 1 := by decide
theorem test_lane : q0After (.srd .lane .push 0) issuing = some 0 := by decide
theorem test_slot : q0After (.srd .slot .push 0) issuing = some 0 := by decide

/-! Faults (R351): the cause of the entry, the state, and the pc, which stays at the word. -/
theorem test_trap : causeAfter (.trap 5 0) issuing = some .trap := by decide
theorem test_trapStops : statusAfter (.trap 5 0) issuing = some (.stopped .ready) := by decide
theorem test_brk : causeAfter (.brk 0) issuing = some .brk := by decide
theorem test_tretOutside : causeAfter (.tret 0) issuing = some .priv := by decide
theorem test_loadMisaligned : causeAfter (.ld (.n 4) .push .x64 0 0) (with456 0x1004 0 0) = some .align := by decide
theorem test_loadUnmapped : causeAfter (.ld (.n 4) .push .x64 0 0) (with456 0x10000000000 0 0) = some .page := by decide
theorem test_loadNotCanonical : causeAfter (.ld (.n 4) .push .x64 0 0) (with456 0x0100000000000000 0 0) = some .viol := by decide
theorem test_scratchBound : causeAfter (.sts (.n 4) (.n 5) .z32 0 0) (with456 2048 1 0) = some .viol := by decide
theorem test_pcOfFault : (pcAfter (.brk 0) issuing, pcAfter (.trap 5 0) issuing) = (some 0x80, some 0x84) := by decide

/-- One step from reset with a word placed: EXIT ends the thread that the step fetches it for. -/
theorem test_stepExit : (match step (State.reset.withFetchWord 32 0x9C000000) with
    | .next t => (threadOf t lane0).map (·.status)
    | _ => none) = some .ended := by decide

/-- The word after the LIT of the kernel `sat`, with the prefix that the LIT leaves (R29). -/
theorem test_litMovi : nAfter 4 (.movi (.thread (.named 4)) 0x3D0 0) (modThread issuing lane0 fun th =>
      { th with pfx := { th.pfx with lit := some 0x1FFFFF } }) = some 0x7FFFFFD0 := by decide

/-- One step: an unassigned major takes ILLEGAL. -/
theorem test_stepIllegal : (match step (State.reset.withFetchWord 32 0xFC000000) with
    | .next t => (threadOf t lane0).bind fun th => th.entry.map (·.cause)
    | _ => none) = some .illegal := by decide

end Sys2Proof.Tests
end

section
/-! SUPPORT. The exact arithmetic of floating-point values is that of the rationals (R55, R129, R134, R135). -/

namespace Sys2Proof.Machine

/-! ### Finite values as rationals -/

/-- (-1)^neg * m * 2^e. -/
def finRat (neg : Bool) (m : Nat) (e : Int) : ℚ := (if neg then -1 else 1) * m * 2 ^ e

@[simp] theorem rat?_fin (neg : Bool) (m : Nat) (e : Int) : (FVal.fin neg m e).rat? = some (finRat neg m e) := rfl
@[simp] theorem rat?_inf (neg : Bool) : (FVal.inf neg).rat? = none := rfl
@[simp] theorem rat?_nan : FVal.nan.rat? = none := rfl

@[simp] theorem finRat_zero (neg : Bool) (e : Int) : finRat neg 0 e = 0 := by simp [finRat]

theorem finRat_false (m : Nat) (e : Int) : finRat false m e = m * 2 ^ e := by simp [finRat]

theorem finRat_not (neg : Bool) (m : Nat) (e : Int) : finRat (!neg) m e = -finRat neg m e := by
  cases neg <;> simp [finRat]

theorem finRat_false_nonneg (m : Nat) (e : Int) : 0 ≤ finRat false m e := by
  rw [finRat_false]; positivity

theorem abs_finRat (neg : Bool) (m : Nat) (e : Int) : |finRat neg m e| = finRat false m e := by
  cases neg with
  | false => exact abs_of_nonneg (finRat_false_nonneg m e)
  | true =>
    have h : finRat true m e = -finRat false m e := finRat_not false m e
    rw [h, abs_neg, abs_of_nonneg (finRat_false_nonneg m e)]

@[simp] theorem finRat_eq_zero {neg : Bool} {m : Nat} {e : Int} : finRat neg m e = 0 ↔ m = 0 := by
  have h : (2 : ℚ) ^ e ≠ 0 := zpow_ne_zero e two_ne_zero
  cases neg <;> simp [finRat, h]

theorem finRat_mul (s t : Bool) (m n : Nat) (e f : Int) :
    finRat (s != t) (m * n) (e + f) = finRat s m e * finRat t n f := by
  cases s <;> cases t <;> simp [finRat, zpow_add₀ (two_ne_zero (α := ℚ))] <;> ring

/-- An integer with its sign apart. -/
theorem finRat_int (v : Int) (q : Int) : finRat (decide (v < 0)) v.natAbs q = v * 2 ^ q := by
  rcases lt_or_ge v 0 with h | h
  · have e : (v.natAbs : ℚ) = -v := by rw [Nat.cast_natAbs, abs_of_neg h]; push_cast; rfl
    simp [finRat, h, e]
  · have e : (v.natAbs : ℚ) = v := by rw [Nat.cast_natAbs, abs_of_nonneg h]
    simp [finRat, not_lt.mpr h, e]

theorem exists_fin_of_rat? {x : FVal} {p : ℚ} (h : x.rat? = some p) : ∃ s m e, x = .fin s m e ∧ finRat s m e = p := by
  cases x with
  | fin s m e => exact ⟨s, m, e, rfl, Option.some.inj h⟩
  | nan => cases h
  | inf s => cases h

/-- The multiple of 2^q is the value. -/
theorem dyInt_mul_zpow (s : Bool) (m : Nat) {e q : Int} (h : q ≤ e) : (dyInt s m e q : ℚ) * 2 ^ q = finRat s m e := by
  have hp : (2 : ℚ) ^ (e - q).toNat * 2 ^ q = 2 ^ e := by
    rw [← zpow_natCast, Int.toNat_of_nonneg (by omega), ← zpow_add₀ two_ne_zero, sub_add_cancel]
  cases s <;> simp [dyInt, finRat, mul_assoc, hp]

/-! ### The operations -/

theorem rat?_negate (s : Bool) (m : Nat) (e : Int) : ((FVal.fin s m e).negate).rat? = some (-finRat s m e) :=
  congrArg some (finRat_not s m e)

theorem rat?_abs (s : Bool) (m : Nat) (e : Int) : ((FVal.fin s m e).abs).rat? = some |finRat s m e| :=
  congrArg some (abs_finRat s m e).symm

theorem rat?_mul (s t : Bool) (m n : Nat) (e f : Int) :
    ((FVal.fin s m e).mul (.fin t n f)).rat? = some (finRat s m e * finRat t n f) :=
  congrArg some (finRat_mul s t m n e f)

/-- The sum of the two multiples of the common unit. -/
theorem dyInt_add_mul_zpow (s t : Bool) (m n : Nat) (e f : Int) :
    ((dyInt s m e (min e f) + dyInt t n f (min e f) : Int) : ℚ) * 2 ^ min e f = finRat s m e + finRat t n f := by
  push_cast
  rw [add_mul, dyInt_mul_zpow s m (min_le_left e f), dyInt_mul_zpow t n (min_le_right e f)]

theorem dyInt_add_eq_zero_iff (s t : Bool) (m n : Nat) (e f : Int) :
    dyInt s m e (min e f) + dyInt t n f (min e f) = 0 ↔ finRat s m e + finRat t n f = 0 := by
  rw [← dyInt_add_mul_zpow s t m n e f, mul_eq_zero, Int.cast_eq_zero]
  exact ⟨Or.inl, fun h => h.resolve_right (zpow_ne_zero _ two_ne_zero)⟩

/-- A sum that is exactly zero, and one that is not. -/
theorem add_fin (s t : Bool) (m n : Nat) (e f : Int) : (FVal.fin s m e).add (.fin t n f) =
    if finRat s m e + finRat t n f = 0 then .fin (if m = 0 ∧ n = 0 then s && t else false) 0 (min e f)
    else .fin (decide (dyInt s m e (min e f) + dyInt t n f (min e f) < 0))
      (dyInt s m e (min e f) + dyInt t n f (min e f)).natAbs (min e f) := by
  simp only [← dyInt_add_eq_zero_iff]; rfl

theorem rat?_add (s t : Bool) (m n : Nat) (e f : Int) :
    ((FVal.fin s m e).add (.fin t n f)).rat? = some (finRat s m e + finRat t n f) := by
  rw [add_fin]
  split
  next h => rw [rat?_fin, finRat_zero, h]
  next => rw [rat?_fin, finRat_int, dyInt_add_mul_zpow]

theorem neg?_add_of_zero (s t : Bool) (m n : Nat) (e f : Int) (h : finRat s m e + finRat t n f = 0) :
    ((FVal.fin s m e).add (.fin t n f)).neg? = true ↔ finRat s m e = 0 ∧ s = true ∧ t = true := by
  have hn : m = 0 → n = 0 := by rintro rfl; simpa using h
  rw [add_fin, if_pos h, finRat_eq_zero]
  by_cases hm : m = 0
  · simp [FVal.neg?, hm, hn hm]
  · simp [FVal.neg?, hm]

/-! ### The order (R134, R135) -/

theorem lt_fin (s t : Bool) (m n : Nat) (e f : Int) :
    (FVal.fin s m e).lt (.fin t n f) = true ↔ finRat s m e < finRat t n f := by
  rw [← dyInt_mul_zpow s m (min_le_left e f), ← dyInt_mul_zpow t n (min_le_right e f),
    mul_lt_mul_iff_left₀ (zpow_pos two_pos _), Int.cast_lt]
  exact decide_eq_true_iff

theorem fval_lt_asymm {x y : FVal} (h : x.lt y = true) : y.lt x = false := by
  cases x with
  | nan => cases h
  | inf s => cases y with
    | nan => cases h
    | inf t => revert h; cases s <;> cases t <;> decide
    | fin t n f => exact congrArg (!·) h
  | fin s m e => cases y with
    | nan => cases h
    | inf t => exact (Bool.not_eq_true' t).mp h
    | fin t n f => exact Bool.eq_false_iff.mpr fun h' => ((lt_fin ..).mp h).asymm ((lt_fin ..).mp h')

theorem isNan_iff {x : FVal} : x.isNan = true ↔ x = .nan := by cases x <;> simp [FVal.isNan]

theorem isZero_iff {x : FVal} : x.isZero = true ↔ x.rat? = some 0 := by
  cases x with
  | fin s m e => cases m <;> simp [FVal.isZero]
  | nan => simp [FVal.isZero]
  | inf s => simp [FVal.isZero]

/-- Equal values have no order. -/
theorem lt_of_rat?_eq {x y : FVal} {p : ℚ} (hx : x.rat? = some p) (hy : y.rat? = some p) : x.lt y = false := by
  obtain ⟨s, m, e, rfl, hp⟩ := exists_fin_of_rat? hx
  obtain ⟨t, n, f, rfl, hq⟩ := exists_fin_of_rat? hy
  exact Bool.eq_false_iff.mpr fun h => absurd ((lt_fin ..).mp h) (by rw [hp, hq]; exact lt_irrefl p)

/-- Beside two zeros the order with -0 below +0 is the order of the values. -/
theorem ltZ_of_rat?_ne_zero {x y : FVal} (h : ¬ (x.rat? = some 0 ∧ y.rat? = some 0)) : x.ltZ y = x.lt y := by
  rw [FVal.ltZ, if_neg]
  simpa [isZero_iff] using h

theorem ltZ_of_zeros {x y : FVal} (hx : x.rat? = some 0) (hy : y.rat? = some 0) : x.ltZ y = (x.neg? && !y.neg?) := by
  rw [FVal.ltZ, isZero_iff.mpr hx, isZero_iff.mpr hy]; rfl

theorem ltZ_of_lt {x y : FVal} (h : x.lt y = true) : x.ltZ y = true ∧ y.ltZ x = false := by
  have hz : ¬ (x.rat? = some 0 ∧ y.rat? = some 0) := fun ⟨hx, hy⟩ => by simp [lt_of_rat?_eq hx hy] at h
  exact ⟨(ltZ_of_rat?_ne_zero hz).trans h, (ltZ_of_rat?_ne_zero (hz ∘ And.symm)).trans (fval_lt_asymm h)⟩

theorem min_of_not_nan {x y : FVal} (hx : x ≠ .nan) (hy : y ≠ .nan) : x.min y = if y.ltZ x then y else x := by
  rw [FVal.min, if_neg]; simp [isNan_iff, hx, hy]

theorem max_of_not_nan {x y : FVal} (hx : x ≠ .nan) (hy : y ≠ .nan) : x.max y = if x.ltZ y then y else x := by
  rw [FVal.max, if_neg]; simp [isNan_iff, hx, hy]

/-- NaN gives NaN, and is unordered. -/
theorem nan_rules {x y : FVal} (h : x = .nan ∨ y = .nan) :
    x.min y = .nan ∧ x.max y = .nan ∧ ∀ r, fcmpHolds r x y = (r == .ne || r == .un) := by
  have hn : (x.isNan || y.isNan) = true := by simpa [isNan_iff] using h
  refine ⟨if_pos hn, if_pos hn, fun r => ?_⟩
  cases r <;> simp [fcmpHolds, hn]

/-- Of two equal values, with -0 below +0. -/
theorem min_max_of_rat?_eq {x y : FVal} {p : ℚ} (hx : x.rat? = some p) (hy : y.rat? = some p) :
    (x.min y).rat? = some p ∧ (x.max y).rat? = some p ∧
      (p = 0 → (x.min y).neg? = (x.neg? || y.neg?) ∧ (x.max y).neg? = (x.neg? && y.neg?)) := by
  have nx : x ≠ .nan := fun e => by simp [e] at hx
  have ny : y ≠ .nan := fun e => by simp [e] at hy
  rw [min_of_not_nan nx ny, max_of_not_nan nx ny]
  refine ⟨by split <;> assumption, by split <;> assumption, fun h0 => ?_⟩
  subst h0
  rw [ltZ_of_zeros hx hy, ltZ_of_zeros hy hx]
  cases ex : x.neg? <;> cases ey : y.neg? <;> simp [ex, ey]

theorem fcmpHolds_of_not_nan {x y : FVal} (hx : x ≠ .nan) (hy : y ≠ .nan) :
    fcmpHolds .eq x y = (!x.lt y && !y.lt x) ∧ fcmpHolds .ne x y = (x.lt y || y.lt x) ∧ fcmpHolds .lt x y = x.lt y ∧
    fcmpHolds .le x y = !y.lt x ∧ fcmpHolds .gt x y = y.lt x ∧ fcmpHolds .ge x y = !x.lt y ∧ fcmpHolds .un x y = false := by
  have hn : (x.isNan || y.isNan) = false := by simpa [Bool.eq_false_iff, isNan_iff] using ⟨hx, hy⟩
  simp [fcmpHolds, hn]

/-- The lesser and the greater of two values that are not NaN, and the comparisons. -/
theorem min_max_rules {x y : FVal} (nx : x ≠ .nan) (ny : y ≠ .nan) :
    (x.lt y = true → x.min y = x ∧ x.max y = y) ∧ (y.lt x = true → x.min y = y ∧ x.max y = x) ∧
    (∀ s, x = .inf s → y = .inf s → x.min y = .inf s ∧ x.max y = .inf s) := by
  rw [min_of_not_nan nx ny, max_of_not_nan nx ny]
  refine ⟨fun h => ?_, fun h => ?_, fun s ex ey => ?_⟩
  · obtain ⟨h1, h2⟩ := ltZ_of_lt h
    simp [h1, h2]
  · obtain ⟨h1, h2⟩ := ltZ_of_lt h
    simp [h1, h2]
  · simp [ex, ey]

/-- Settles O13: on finite values each operation is that of the rationals; the rest is by the cases of NaN, infinities and zeros. -/
theorem exactArithmetic : Obligations.ExactArithmetic := by
  unfold Obligations.ExactArithmetic
  refine ⟨fun x y p q hx hy => ?_, fun s t => rfl, fun s t e => ⟨rfl, rfl⟩, fun x y p q hx hy h => ?_,
    fun s t m e => ⟨rfl, rfl, rfl⟩, fun x y => ⟨nan_rules, fun nx ny => ?_⟩⟩
  · obtain ⟨s, m, e, rfl, rfl⟩ := exists_fin_of_rat? hx
    obtain ⟨t, n, f, rfl, rfl⟩ := exists_fin_of_rat? hy
    exact ⟨rat?_add .., rat?_mul .., rat?_negate .., rat?_abs .., lt_fin ..⟩
  · obtain ⟨s, m, e, rfl, rfl⟩ := exists_fin_of_rat? hx
    obtain ⟨t, n, f, rfl, rfl⟩ := exists_fin_of_rat? hy
    exact neg?_add_of_zero s t m n e f h
  · obtain ⟨hlt, hgt, hinf⟩ := min_max_rules nx ny
    exact ⟨hlt, hgt, fun p => min_max_of_rat?_eq, hinf, fcmpHolds_of_not_nan nx ny⟩

end Sys2Proof.Machine
end

section
/-! SUPPORT. The codes of a format in their order, and where an exact value lies among them (R50, R57). -/

namespace Sys2Proof.Machine

/-! ### The value of a code without its sign -/

/-- The significand and the exponent of a code without its sign, as if the exponent range had no upper end. -/
def magSig (f : FFmt) (c : Nat) : Nat := if c / 2 ^ f.fbits = 0 then c % 2 ^ f.fbits else 2 ^ f.fbits + c % 2 ^ f.fbits

def magExp (f : FFmt) (c : Nat) : Int := if c / 2 ^ f.fbits = 0 then f.emin else f.emin + (c / 2 ^ f.fbits : Nat) - 1

def magRat (f : FFmt) (c : Nat) : ℚ := magSig f c * 2 ^ magExp f c

theorem finRat_mag (f : FFmt) (neg : Bool) (c : Nat) :
    finRat neg (magSig f c) (magExp f c) = (if neg then -1 else 1) * magRat f c := mul_assoc ..

theorem magRat_nonneg (f : FFmt) (c : Nat) : 0 ≤ magRat f c := by unfold magRat; positivity

@[simp] theorem magRat_zero (f : FFmt) : magRat f 0 = 0 := by simp [magRat, magSig]

/-- In the binade k the codes count multiples of its step; its end is the start of the next binade. -/
theorem magRat_block (f : FFmt) (k M : Nat) (hM : M ≤ 2 ^ (f.fbits + 1)) (hk : k ≠ 0 → 2 ^ f.fbits ≤ M) :
    magRat f (k * 2 ^ f.fbits + M) = M * 2 ^ (f.emin + k) := by
  have hB : 0 < 2 ^ f.fbits := Nat.two_pow_pos _
  rw [pow_succ] at hM
  obtain h | ⟨x, hx, rfl⟩ | rfl : M < 2 ^ f.fbits ∨ (∃ x, x < 2 ^ f.fbits ∧ M = 2 ^ f.fbits + x) ∨ M = 2 ^ f.fbits * 2 := by
    by_cases h1 : M < 2 ^ f.fbits
    · exact .inl h1
    · by_cases h2 : M = 2 ^ f.fbits * 2
      · exact .inr (.inr h2)
      · exact .inr (.inl ⟨M - 2 ^ f.fbits, by omega, by omega⟩)
  · obtain rfl : k = 0 := by by_contra h0; have := hk h0; omega
    simp [magRat, magSig, magExp, Nat.div_eq_of_lt h, Nat.mod_eq_of_lt h]
  · have hc : k * 2 ^ f.fbits + (2 ^ f.fbits + x) = 2 ^ f.fbits * (k + 1) + x := by ring
    have hd : (2 ^ f.fbits * (k + 1) + x) / 2 ^ f.fbits = k + 1 := by
      rw [Nat.mul_add_div hB, Nat.div_eq_of_lt hx, Nat.add_zero]
    have hm : (2 ^ f.fbits * (k + 1) + x) % 2 ^ f.fbits = x := by rw [Nat.mul_add_mod, Nat.mod_eq_of_lt hx]
    simp [hc, magRat, magSig, magExp, hd, hm, ← add_assoc]
  · have hc : k * 2 ^ f.fbits + 2 ^ f.fbits * 2 = 2 ^ f.fbits * (k + 2) := by ring
    have hd : 2 ^ f.fbits * (k + 2) / 2 ^ f.fbits = k + 2 := Nat.mul_div_cancel_left _ hB
    have he : f.emin + ((k + 2 : Nat) : Int) - 1 = f.emin + k + 1 := by push_cast; ring
    rw [hc, magRat, magSig, magExp, hd, if_neg (by omega), if_neg (by omega), he, Nat.mul_mod_right, zpow_add_one₀ two_ne_zero]
    push_cast
    ring

/-- Every code stands in a binade. -/
theorem exists_block (f : FFmt) (c : Nat) :
    ∃ k M, M < 2 ^ (f.fbits + 1) ∧ (k ≠ 0 → 2 ^ f.fbits ≤ M) ∧ c = k * 2 ^ f.fbits + M := by
  have hB : 0 < 2 ^ f.fbits := Nat.two_pow_pos _
  have hr := Nat.mod_lt c hB
  have hc := Nat.div_add_mod c (2 ^ f.fbits)
  rw [pow_succ]
  cases hk : c / 2 ^ f.fbits with
  | zero => exact ⟨0, c % 2 ^ f.fbits, by omega, by simp, by rw [hk] at hc; omega⟩
  | succ k => exact ⟨k, 2 ^ f.fbits + c % 2 ^ f.fbits, by omega, fun _ => by omega, by rw [hk] at hc; linarith⟩

theorem magRat_strictMono (f : FFmt) : StrictMono (magRat f) := by
  refine strictMono_nat_of_lt_succ fun c => ?_
  obtain ⟨k, M, hM, hk, rfl⟩ := exists_block f c
  rw [add_assoc, magRat_block f k M hM.le hk, magRat_block f k (M + 1) hM fun h => (hk h).trans (Nat.le_succ M)]
  exact mul_lt_mul_of_pos_right (by push_cast; linarith) (zpow_pos two_pos _)

theorem fmtMax_eq (f : FFmt) : fmtMax f = magRat f f.maxCode := by
  cases f <;> norm_num [fmtMax, magRat, magSig, magExp, FFmt.maxCode, FFmt.fbits, FFmt.emin, FFmt.bias]

/-- The code behind the largest one stands a step further. -/
theorem magRat_maxCode_succ (f : FFmt) : magRat f (f.maxCode + 1) = fmtMax f + 2 * halfStep f := by
  cases f <;> norm_num [fmtMax, halfStep, magRat, magSig, magExp, FFmt.maxCode, FFmt.fbits, FFmt.emin, FFmt.bias]

/-! ### Codes with their sign -/

theorem width_pred (f : FFmt) : f.width - 1 = f.ebits + f.fbits := rfl

theorem maxCode_lt_nanCode (f : FFmt) : f.maxCode < f.nanCode := by cases f <;> decide

theorem nanCode_lt (f : FFmt) : f.nanCode < 2 ^ (f.width - 1) := by cases f <;> decide

theorem infCode_lt (f : FFmt) : f.infCode < 2 ^ (f.width - 1) := by cases f <;> decide

theorem fsigned_of_le {f : FFmt} {c : Nat} (h : c ≤ f.maxCode) (neg : Bool) :
    fsigned f neg c = (if neg then 2 ^ (f.width - 1) else 0) + c := by
  have := maxCode_lt_nanCode f
  cases neg <;> simp [fsigned, show c ≠ f.nanCode by omega]

/-- The sign is worth an even number. -/
theorem fsigned_mod_two (f : FFmt) (neg : Bool) (c : Nat) : fsigned f neg c % 2 = c % 2 := by
  have h : 2 ^ (f.width - 1) % 2 = 0 := by cases f <;> rfl
  unfold fsigned
  split <;> omega

/-- The fields of a code. -/
theorem code_fields (f : FFmt) (neg : Bool) {c : Nat} (h : c < 2 ^ (f.width - 1)) :
    let x := (if neg then 2 ^ (f.width - 1) else 0) + c
    x < 2 ^ f.width ∧ (x / 2 ^ (f.width - 1) == 1) = neg ∧ x / 2 ^ f.fbits % 2 ^ f.ebits = c / 2 ^ f.fbits ∧
      x % 2 ^ f.fbits = c % 2 ^ f.fbits := by
  cases f <;> cases neg <;>
    simp only [FFmt.width, FFmt.ebits, FFmt.fbits, if_true, if_false, Bool.false_eq_true] at * <;>
    norm_num at * <;> omega

/-- Up to the largest finite code, and beyond it. -/
theorem maxCode_fields (f : FFmt) {c : Nat} (h : c < 2 ^ (f.width - 1)) : c ≤ f.maxCode ↔
    ¬ (c / 2 ^ f.fbits = 2 ^ f.ebits - 1 ∧ f ≠ .e4m3) ∧ ¬ (f = .e4m3 ∧ c % 128 = 127) := by
  cases f <;> simp [FFmt.width, FFmt.ebits, FFmt.fbits, FFmt.maxCode] at * <;> omega

theorem fdecode_mod (f : FFmt) (x : Nat) : fdecode f (x % 2 ^ f.width) = fdecode f x := by
  simp [fdecode]

/-- A code whose magnitude is finite. -/
theorem fdecode_fsigned {f : FFmt} {c : Nat} (h : c ≤ f.maxCode) (neg : Bool) :
    fdecode f (fsigned f neg c) = .fin neg (magSig f c) (magExp f c) := by
  have hc := h.trans_lt ((maxCode_lt_nanCode f).trans (nanCode_lt f))
  obtain ⟨hlt, hs, he, hm⟩ := code_fields f neg hc
  obtain ⟨h1, h2⟩ := (maxCode_fields f hc).mp h
  have h2' : ¬ (f = .e4m3 ∧ ((if neg then 2 ^ (f.width - 1) else 0) + c) % 128 = 127) := by
    rintro ⟨rfl, e⟩
    refine h2 ⟨rfl, ?_⟩
    revert e; cases neg <;> simp [FFmt.width, FFmt.ebits, FFmt.fbits]
  rw [fsigned_of_le h, fdecode]
  simp only [Nat.mod_eq_of_lt hlt, hs, he, hm, if_neg h1, if_neg h2', magSig, magExp]
  split <;> rfl

/-- A code beyond the finite ones. -/
theorem rat?_fdecode_beyond {f : FFmt} {c : Nat} (h : f.maxCode < c) (hc : c < 2 ^ (f.width - 1)) (neg : Bool) :
    (fdecode f ((if neg then 2 ^ (f.width - 1) else 0) + c)).rat? = none := by
  obtain ⟨hlt, hs, he, hm⟩ := code_fields f neg hc
  have hx : (c / 2 ^ f.fbits = 2 ^ f.ebits - 1 ∧ f ≠ .e4m3) ∨
      (f = .e4m3 ∧ ((if neg then 2 ^ (f.width - 1) else 0) + c) % 128 = 127) := by
    by_contra hn
    rw [not_or] at hn
    refine absurd ((maxCode_fields f hc).mpr ⟨hn.1, ?_⟩) (not_le.mpr h)
    rintro ⟨rfl, e⟩
    refine hn.2 ⟨rfl, ?_⟩
    cases neg <;> simp [FFmt.width, FFmt.ebits, FFmt.fbits] <;> omega
  rw [fdecode]
  simp only [Nat.mod_eq_of_lt hlt, hs, he, hm]
  rcases hx with hx | hx
  · rw [if_pos hx]; split <;> rfl
  · rw [if_neg fun hn => hn.2 hx.1, if_pos hx]; rfl

/-- Every code is a magnitude with a sign. -/
theorem exists_magnitude (f : FFmt) {c : Nat} (h : c < 2 ^ f.width) :
    ∃ (neg : Bool) (c' : Nat), c' < 2 ^ (f.width - 1) ∧ c = (if neg then 2 ^ (f.width - 1) else 0) + c' := by
  have hw : 2 ^ f.width = 2 ^ (f.width - 1) * 2 := pow_succ ..
  by_cases hc : c < 2 ^ (f.width - 1)
  · exact ⟨false, c, hc, by simp⟩
  · exact ⟨true, c - 2 ^ (f.width - 1), by omega, by rw [if_pos rfl]; omega⟩

/-- The codes that decode to a finite value. -/
theorem fin_of_fdecode {f : FFmt} {c : Nat} {x : ℚ} (hc : c < 2 ^ f.width) (h : (fdecode f c).rat? = some x) :
    ∃ neg c', c' ≤ f.maxCode ∧ c = fsigned f neg c' := by
  obtain ⟨neg, c', hc', rfl⟩ := exists_magnitude f hc
  by_cases hm : c' ≤ f.maxCode
  · exact ⟨neg, c', hm, (fsigned_of_le hm neg).symm⟩
  · rw [rat?_fdecode_beyond (not_le.mp hm) hc'] at h; cases h

theorem rat?_fdecode_fsigned {f : FFmt} {c : Nat} (h : c ≤ f.maxCode) (neg : Bool) :
    (fdecode f (fsigned f neg c)).rat? = some ((if neg then -1 else 1) * magRat f c) := by
  rw [fdecode_fsigned h, rat?_fin, finRat_mag]

theorem rat?_fdecode_fsigned_beyond {f : FFmt} {c : Nat} (h : f.maxCode < c) (hc : c < 2 ^ (f.width - 1)) (neg : Bool) :
    (fdecode f (fsigned f neg c)).rat? = none := by
  unfold fsigned
  split
  next hn => simpa [hn.1] using rat?_fdecode_beyond h hc true
  next => simpa using rat?_fdecode_beyond h hc false

/-! ### The values of a format -/

/-- A value that some code has. -/
def FmtVal (f : FFmt) (u : ℚ) : Prop := ∃ c, (fdecode f c).rat? = some u

theorem fmtVal_mag {f : FFmt} {c : Nat} (h : c ≤ f.maxCode) : FmtVal f (magRat f c) :=
  ⟨_, by simpa using rat?_fdecode_fsigned h false⟩

theorem fmtVal_iff {f : FFmt} {u : ℚ} : FmtVal f u ↔ ∃ (neg : Bool) (c : Nat), c ≤ f.maxCode ∧ u = (if neg then -1 else 1) * magRat f c := by
  constructor
  · rintro ⟨c, h⟩
    rw [← fdecode_mod] at h
    obtain ⟨neg, c', hc, e⟩ := fin_of_fdecode (Nat.mod_lt c (Nat.two_pow_pos _)) h
    rw [e, rat?_fdecode_fsigned hc] at h
    exact ⟨neg, c', hc, (Option.some.inj h).symm⟩
  · rintro ⟨neg, c, hc, rfl⟩
    exact ⟨_, rat?_fdecode_fsigned hc neg⟩

theorem FmtVal.neg {f : FFmt} {u : ℚ} (h : FmtVal f u) : FmtVal f (-u) := by
  obtain ⟨neg, c, hc, rfl⟩ := fmtVal_iff.mp h
  exact fmtVal_iff.mpr ⟨!neg, c, hc, by cases neg <;> simp⟩

theorem FmtVal.exists_code {f : FFmt} {u : ℚ} (h : FmtVal f u) (h0 : 0 ≤ u) : ∃ c, c ≤ f.maxCode ∧ u = magRat f c := by
  obtain ⟨neg, c, hc, rfl⟩ := fmtVal_iff.mp h
  have := magRat_nonneg f c
  cases neg with
  | false => exact ⟨c, hc, by simp⟩
  | true => exact ⟨c, hc, by simp at *; linarith⟩

theorem FmtVal.abs {f : FFmt} {u : ℚ} (h : FmtVal f u) : FmtVal f |u| := by
  rcases abs_choice u with e | e <;> rw [e]
  · exact h
  · exact h.neg

end Sys2Proof.Machine
end

section
/-! SUPPORT. Where an exact value lies among the codes of a format, and the code that each mode of rounding picks (R57 to R60). -/

namespace Sys2Proof.Machine

/-! ### The neighbours of a value -/

/-- The magnitude a lies rem/div of a step above the code lo. -/
structure Between (f : FFmt) (a : ℚ) (lo rem div : Nat) : Prop where
  rem_lt : rem < div
  value : a = magRat f lo + rem / div * (magRat f (lo + 1) - magRat f lo)

/-- A value of a binade, in units of its step. -/
theorem between_of_block (f : FFmt) {k M rem div : Nat} (hM : M < 2 ^ (f.fbits + 1)) (hk : k ≠ 0 → 2 ^ f.fbits ≤ M)
    (h : rem < div) : Between f ((M + rem / div) * 2 ^ (f.emin + k)) (k * 2 ^ f.fbits + M) rem div := by
  refine ⟨h, ?_⟩
  rw [add_assoc (k * 2 ^ f.fbits), magRat_block f k M hM.le hk, magRat_block f k (M + 1) hM fun h => (hk h).trans (Nat.le_succ M)]
  push_cast
  ring

/-- The neighbours are computed right (R57). -/
theorem fneighbour_between (f : FFmt) {m : Nat} (hm : m ≠ 0) (e : Int) :
    Between f (m * 2 ^ e) (fneighbour f m e).1 (fneighbour f m e).2.1 (fneighbour f m e).2.2 := by
  have hlo : 2 ^ m.log2 ≤ m := Nat.log2_self_le hm
  have hhi : m < 2 ^ (m.log2 + 1) := Nat.lt_log2_self
  unfold fneighbour
  generalize hq : max ((m.log2 : Int) + e - f.fbits) f.emin = q
  have hk : f.emin + ((q - f.emin).toNat : Nat) = q := by omega
  simp only
  split
  next hqe =>
    have hv : (m : ℚ) * 2 ^ e = (((m * 2 ^ (e - q).toNat : Nat) : ℚ) + ((0 : Nat) : ℚ) / ((1 : Nat) : ℚ)) *
        2 ^ (f.emin + ((q - f.emin).toNat : Nat)) := by
      rw [hk, Nat.cast_zero, zero_div, add_zero]
      push_cast
      rw [mul_assoc, ← zpow_natCast, Int.toNat_of_nonneg (by omega), ← zpow_add₀ two_ne_zero, sub_add_cancel]
    rw [hv]
    refine between_of_block f ?_ (fun h0 => ?_) Nat.one_pos
    · calc m * 2 ^ (e - q).toNat < 2 ^ (m.log2 + 1) * 2 ^ (e - q).toNat := Nat.mul_lt_mul_of_pos_right hhi (Nat.two_pow_pos _)
        _ = 2 ^ (m.log2 + 1 + (e - q).toNat) := (pow_add ..).symm
        _ ≤ 2 ^ (f.fbits + 1) := Nat.pow_le_pow_right two_pos (by omega)
    · calc 2 ^ f.fbits = 2 ^ m.log2 * 2 ^ (e - q).toNat := by rw [← pow_add]; congr 1; omega
        _ ≤ m * 2 ^ (e - q).toNat := Nat.mul_le_mul_right _ hlo
  next hqe =>
    have hd : 0 < 2 ^ (q - e).toNat := Nat.two_pow_pos _
    have hv : (m : ℚ) * 2 ^ e = (((m / 2 ^ (q - e).toNat : Nat) : ℚ) + ((m % 2 ^ (q - e).toNat : Nat) : ℚ) /
        ((2 ^ (q - e).toNat : Nat) : ℚ)) * 2 ^ (f.emin + ((q - f.emin).toNat : Nat)) := by
      have hz : (2 : ℚ) ^ q = ((2 ^ (q - e).toNat : Nat) : ℚ) * 2 ^ e := by
        push_cast
        rw [← zpow_natCast, Int.toNat_of_nonneg (by omega), ← zpow_add₀ two_ne_zero, sub_add_cancel]
      have hc : ((2 ^ (q - e).toNat : Nat) : ℚ) ≠ 0 := Nat.cast_ne_zero.mpr hd.ne'
      have hmd : (m : ℚ) = ((2 ^ (q - e).toNat : Nat) : ℚ) * ((m / 2 ^ (q - e).toNat : Nat) : ℚ) +
          ((m % 2 ^ (q - e).toNat : Nat) : ℚ) := by exact_mod_cast (Nat.div_add_mod m (2 ^ (q - e).toNat)).symm
      rw [hk, hz, ← mul_assoc, add_mul, div_mul_cancel₀ _ hc, mul_comm ((m / 2 ^ (q - e).toNat : Nat) : ℚ), ← hmd]
    rw [hv]
    refine between_of_block f ?_ (fun h0 => ?_) (Nat.mod_lt _ hd)
    · rw [Nat.div_lt_iff_lt_mul hd]
      calc m < 2 ^ (m.log2 + 1) := hhi
        _ ≤ 2 ^ (f.fbits + 1 + (q - e).toNat) := Nat.pow_le_pow_right two_pos (by omega)
        _ = 2 ^ (f.fbits + 1) * 2 ^ (q - e).toNat := pow_add ..
    · rw [Nat.le_div_iff_mul_le hd]
      calc 2 ^ f.fbits * 2 ^ (q - e).toNat = 2 ^ m.log2 := by rw [← pow_add]; congr 1; omega
        _ ≤ m := hlo

/-! ### What the neighbours say of the order -/

section Order

variable {f : FFmt} {a : ℚ} {lo rem div : Nat}

/-- The code at or next above the value. -/
def upCode (lo rem : Nat) : Nat := if rem = 0 then lo else lo + 1

theorem magRat_lt_succ (f : FFmt) (c : Nat) : magRat f c < magRat f (c + 1) := magRat_strictMono f (Nat.lt_succ_self c)

variable (h : Between f a lo rem div)
include h

theorem Between.div_pos : (0 : ℚ) < div := Nat.cast_pos.mpr (by have := h.rem_lt; omega)

/-- The distances to the neighbours share the step as rem and div - rem do. -/
theorem Between.dist_lo : (a - magRat f lo) * div = rem * (magRat f (lo + 1) - magRat f lo) := by
  have hd := h.div_pos.ne'
  rw [h.value]
  field_simp
  ring

theorem Between.dist_hi : (magRat f (lo + 1) - a) * div = (div - rem) * (magRat f (lo + 1) - magRat f lo) := by
  linear_combination -h.dist_lo

theorem Between.lo_le : magRat f lo ≤ a := by
  have h1 := h.dist_lo
  have h2 : (0 : ℚ) ≤ rem * (magRat f (lo + 1) - magRat f lo) :=
    mul_nonneg (Nat.cast_nonneg _) (sub_nonneg.mpr (magRat_lt_succ f lo).le)
  rw [← h1] at h2
  exact sub_nonneg.mp (nonneg_of_mul_nonneg_left h2 h.div_pos)

theorem Between.lt_hi : a < magRat f (lo + 1) := by
  have h2 : (0 : ℚ) < (div - rem) * (magRat f (lo + 1) - magRat f lo) :=
    mul_pos (sub_pos.mpr (Nat.cast_lt.mpr h.rem_lt)) (sub_pos.mpr (magRat_lt_succ f lo))
  rw [← h.dist_hi] at h2
  exact sub_pos.mp (pos_of_mul_pos_left h2 h.div_pos.le)

theorem Between.nonneg : 0 ≤ a := (magRat_nonneg f lo).trans h.lo_le

theorem Between.eq_lo_iff : a = magRat f lo ↔ rem = 0 := by
  rw [← sub_eq_zero, ← mul_eq_zero_iff_right h.div_pos.ne', h.dist_lo, mul_eq_zero, Nat.cast_eq_zero]
  exact or_iff_left (sub_pos.mpr (magRat_lt_succ f lo)).ne'

/-- The distances compare as twice the remainder and the divisor do. -/
theorem Between.dist_lt_iff : a - magRat f lo < magRat f (lo + 1) - a ↔ 2 * rem < div := by
  have hg := sub_pos.mpr (magRat_lt_succ f lo)
  rw [← mul_lt_mul_iff_left₀ h.div_pos, h.dist_lo, h.dist_hi, mul_lt_mul_iff_left₀ hg, lt_sub_iff_add_lt, ← two_mul]
  exact_mod_cast Iff.rfl

theorem Between.dist_eq_iff : a - magRat f lo = magRat f (lo + 1) - a ↔ 2 * rem = div := by
  have hg := sub_pos.mpr (magRat_lt_succ f lo)
  rw [← mul_left_inj' h.div_pos.ne', h.dist_lo, h.dist_hi, mul_left_inj' hg.ne', eq_sub_iff_add_eq, ← two_mul]
  exact_mod_cast Iff.rfl

theorem Between.code_le_iff {c : Nat} : magRat f c ≤ a ↔ c ≤ lo := by
  refine ⟨fun hc => ?_, fun hc => ((magRat_strictMono f).monotone hc).trans h.lo_le⟩
  exact Nat.lt_succ_iff.mp ((magRat_strictMono f).lt_iff_lt.mp (hc.trans_lt h.lt_hi))

theorem Between.le_code_iff {c : Nat} : a ≤ magRat f c ↔ upCode lo rem ≤ c := by
  unfold upCode
  split
  next h0 => rw [h.eq_lo_iff.mpr h0, (magRat_strictMono f).le_iff_le]
  next h0 =>
    refine ⟨fun hc => ?_, fun hc => h.lt_hi.le.trans ((magRat_strictMono f).monotone hc)⟩
    have hlt : magRat f lo < a := lt_of_le_of_ne h.lo_le fun e => h0 (h.eq_lo_iff.mp e.symm)
    exact (magRat_strictMono f).lt_iff_lt.mp (hlt.trans_le hc)

theorem Between.eq_code_iff {c : Nat} : a = magRat f c ↔ rem = 0 ∧ lo = c := by
  constructor
  · intro e
    have h1 := h.code_le_iff.mp e.ge
    have h2 := h.le_code_iff.mp e.le
    unfold upCode at h2
    split at h2
    next h0 => exact ⟨h0, by omega⟩
    next => omega
  · rintro ⟨h0, rfl⟩
    exact h.eq_lo_iff.mpr h0

theorem Between.max_lt_iff : fmtMax f < a ↔ f.maxCode < upCode lo rem := by
  rw [fmtMax_eq, ← not_le, h.le_code_iff, not_le]

end Order

/-! ### The codes that the modes pick -/

/-- The code without its sign that `fround` gives to a value between its neighbours. -/
def roundMag (f : FFmt) (r : Rnd) (t neg : Bool) (lo rem div : Nat) : Nat :=
  let c := if fup r neg lo rem div then lo + 1 else lo
  let ovf := match r with
    | .sr _ => decide (f.maxCode < lo) || (decide (lo = f.maxCode) && rem != 0)
    | _ => decide (f.maxCode < c)
  if ovf then fovfCode f r t neg else c

theorem fround_fin (f : FFmt) (r : Rnd) (t neg : Bool) {m : Nat} (hm : m ≠ 0) (e : Int) : fround f r t (.fin neg m e) =
    fsigned f neg (roundMag f r t neg (fneighbour f m e).1 (fneighbour f m e).2.1 (fneighbour f m e).2.2) := by
  unfold fround
  exact if_neg hm

theorem fround_zero (f : FFmt) (r : Rnd) (t neg : Bool) (e : Int) : fround f r t (.fin neg 0 e) = fsigned f neg 0 := rfl

/-- A representable value keeps its code in every mode. -/
theorem roundMag_exact (f : FFmt) (r : Rnd) (t neg : Bool) {lo : Nat} (h : lo ≤ f.maxCode) (div : Nat) :
    roundMag f r t neg lo 0 div = lo := by
  cases r <;> simp [roundMag, fup, not_lt.mpr h]

/-- The modes that go toward zero, and those that go away from it. -/
theorem fup_down {r : Rnd} {neg : Bool} (h : r = .rz ∨ (r = .rd ∧ neg = false) ∨ (r = .ru ∧ neg = true)) (lo rem div : Nat) :
    fup r neg lo rem div = false := by
  rcases h with rfl | ⟨rfl, rfl⟩ | ⟨rfl, rfl⟩ <;> simp [fup]

theorem fup_up {r : Rnd} {neg : Bool} (h : (r = .rd ∧ neg = true) ∨ (r = .ru ∧ neg = false)) (lo rem div : Nat) :
    (if fup r neg lo rem div then lo + 1 else lo) = upCode lo rem := by
  rcases h with ⟨rfl, rfl⟩ | ⟨rfl, rfl⟩ <;> by_cases h0 : rem = 0 <;> simp [fup, upCode, h0]

/-- The modes that go toward zero give the code at or next below, or the largest. -/
theorem roundMag_down {f : FFmt} {r : Rnd} {neg : Bool} (h : r = .rz ∨ (r = .rd ∧ neg = false) ∨ (r = .ru ∧ neg = true))
    (t : Bool) (lo rem div : Nat) : roundMag f r t neg lo rem div = min lo f.maxCode := by
  simp only [roundMag, fup_down h]
  rcases h with rfl | ⟨rfl, rfl⟩ | ⟨rfl, rfl⟩ <;> simp [fovfCode] <;> split <;> omega

/-- The modes that go away from zero give the code at or next above, or the target. -/
theorem roundMag_up {f : FFmt} {r : Rnd} {neg : Bool} (h : (r = .rd ∧ neg = true) ∨ (r = .ru ∧ neg = false))
    (t : Bool) (lo rem div : Nat) :
    roundMag f r t neg lo rem div = if f.maxCode < upCode lo rem then fovfTarget f t else upCode lo rem := by
  simp only [roundMag, fup_up h]
  rcases h with ⟨rfl, rfl⟩ | ⟨rfl, rfl⟩ <;> simp [fovfCode]

/-- Stochastic rounding overflows where it has no neighbour above. -/
theorem roundMag_sr (f : FFmt) (rnd : Nat) (t neg : Bool) (lo rem div : Nat) : roundMag f (.sr rnd) t neg lo rem div =
    if f.maxCode < upCode lo rem then fovfTarget f t else if fup (.sr rnd) neg lo rem div then lo + 1 else lo := by
  have h : (decide (f.maxCode < lo) || (decide (lo = f.maxCode) && rem != 0)) = true ↔ f.maxCode < upCode lo rem := by
    unfold upCode
    split <;> simp [*]
    omega
  simp only [roundMag, fovfCode, h]

/-- The nearer neighbour, of two equally near the even one (R57). -/
def nearCode (lo rem div : Nat) : Nat := if div < 2 * rem ∨ (2 * rem = div ∧ lo % 2 = 1) then lo + 1 else lo

theorem fup_rne (neg : Bool) {lo rem div : Nat} (h : rem < div) :
    fup .rne neg lo rem div = true ↔ div < 2 * rem ∨ (2 * rem = div ∧ lo % 2 = 1) := by
  unfold fup
  split <;> simp
  omega

theorem roundMag_rne (f : FFmt) (t neg : Bool) {lo rem div : Nat} (h : rem < div) : roundMag f .rne t neg lo rem div =
    if f.maxCode < nearCode lo rem div then fovfTarget f t else nearCode lo rem div := by
  have hc : (if fup .rne neg lo rem div = true then lo + 1 else lo) = nearCode lo rem div := if_congr (fup_rne neg h) rfl rfl
  simp only [roundMag, fovfCode, hc, decide_eq_true_eq]

section Nearest

variable {f : FFmt} {a : ℚ} {lo rem div : Nat} (h : Between f a lo rem div)
include h

/-- No code is nearer, and one that is as near stands beside an even choice. -/
theorem Between.near_le (c : Nat) : |magRat f (nearCode lo rem div) - a| ≤ |magRat f c - a| ∧
    (|magRat f (nearCode lo rem div) - a| = |magRat f c - a| → c ≠ nearCode lo rem div → nearCode lo rem div % 2 = 0) := by
  have below {x : Nat} (hx : x ≤ lo) : |magRat f x - a| = a - magRat f x := by
    rw [abs_sub_comm, abs_of_nonneg (sub_nonneg.mpr (h.code_le_iff.mpr hx))]
  have above {x : Nat} (hx : lo + 1 ≤ x) : |magRat f x - a| = magRat f x - a :=
    abs_of_nonneg (sub_nonneg.mpr (h.lt_hi.le.trans ((magRat_strictMono f).monotone hx)))
  have hlt := h.dist_lt_iff
  have heq := h.dist_eq_iff
  have mono {x y : Nat} (hxy : x < y) := magRat_strictMono f hxy
  have key {x : Nat} (hx : x ≤ lo) : magRat f x ≤ magRat f lo := (magRat_strictMono f).monotone hx
  have key' {x : Nat} (hx : lo + 1 ≤ x) : magRat f (lo + 1) ≤ magRat f x := (magRat_strictMono f).monotone hx
  unfold nearCode
  split
  next hup =>
    have hge : magRat f (lo + 1) - a ≤ a - magRat f lo := by rw [← not_lt, hlt]; omega
    rw [above le_rfl]
    rcases Nat.lt_or_ge lo c with hc | hc
    · rw [above hc]
      refine ⟨sub_le_sub_right (key' hc) a, fun e hne => ?_⟩
      have := mono (show lo + 1 < c by omega)
      linarith
    · rw [below hc]
      refine ⟨by linarith [key hc], fun e _ => ?_⟩
      have := heq.mp (by linarith [key hc])
      omega
  next hup =>
    have hle : a - magRat f lo ≤ magRat f (lo + 1) - a := by
      rcases Nat.lt_or_ge (2 * rem) div with h2 | h2
      · exact (hlt.mpr h2).le
      · exact (heq.mpr (by omega)).le
    rw [below le_rfl]
    rcases Nat.lt_or_ge lo c with hc | hc
    · rw [above hc]
      refine ⟨by linarith [key' hc], fun e _ => ?_⟩
      have := heq.mp (by linarith [key' hc])
      omega
    · rw [below hc]
      refine ⟨sub_le_sub_left (key hc) a, fun e hne => ?_⟩
      have := mono (show c < lo by omega)
      linarith

/-- To nearest a value overflows from half a step beyond the largest one (R59). -/
theorem Between.max_lt_near_iff : f.maxCode < nearCode lo rem div ↔ Overflows f .rne a := by
  have hh : 0 < halfStep f := by cases f <;> norm_num [halfStep]
  have hodd : f.maxCode % 2 = 1 ↔ f ≠ .e4m3 := by cases f <;> decide
  have hM := fmtMax_eq f
  have hM2 := magRat_maxCode_succ f
  rw [Overflows, abs_of_nonneg h.nonneg]
  unfold nearCode
  rcases lt_trichotomy lo f.maxCode with hl | rfl | hl
  · have := (magRat_strictMono f).monotone (show lo + 1 ≤ f.maxCode from hl)
    have := h.lt_hi
    refine iff_of_false (by split <;> omega) ?_
    rintro (hov | ⟨hov, -⟩) <;> linarith
  · have hlt : a < fmtMax f + halfStep f ↔ 2 * rem < div := by
      rw [← h.dist_lt_iff, hM2, ← hM]; constructor <;> intro <;> linarith
    have heq : a = fmtMax f + halfStep f ↔ 2 * rem = div := by
      rw [← h.dist_eq_iff, hM2, ← hM]; constructor <;> intro <;> linarith
    have hgt : fmtMax f + halfStep f < a ↔ div < 2 * rem := by
      rw [lt_iff_le_and_ne, ← not_lt, hlt, ne_comm, Ne, heq]; omega
    rw [hgt, heq, ← hodd]
    split <;> omega
  · have := (magRat_strictMono f).monotone (show f.maxCode + 1 ≤ lo from hl)
    have := h.lo_le
    exact iff_of_true (by split <;> omega) (.inl (by linarith))

end Nearest

/-! ### Stochastic rounding (R58) -/

theorem floor_frac (rem div : Nat) : ⌊(rem : ℚ) / div * 2 ^ 32⌋ = ((rem * 2 ^ 32 / div : Nat) : ℤ) := by
  have e : (rem : ℚ) / div * 2 ^ 32 = ((rem * 2 ^ 32 : Nat) : ℚ) / div := by push_cast; ring
  rw [e, Rat.floor_natCast_div_natCast, Int.natCast_div]

theorem fup_sr (rnd : Nat) (neg : Bool) (lo rem div : Nat) :
    fup (.sr rnd) neg lo rem div = true ↔ ((rnd % 2 ^ 32 : Nat) : ℤ) < ⌊(rem : ℚ) / div * 2 ^ 32⌋ := by
  rw [floor_frac, Nat.cast_lt, fup]
  split
  next h0 => simp [h0]
  next => exact decide_eq_true_iff

end Sys2Proof.Machine
end

section
/-! SUPPORT. Rounding by the modes: the nearest value or the neighbour that the mode names (R57 to R60). -/

namespace Sys2Proof.Machine

/-- A finite value stands between neighbours, and every mode picks its code by them. -/
theorem exists_between (f : FFmt) (neg : Bool) (m : Nat) (e : Int) : ∃ lo rem div, Between f (finRat false m e) lo rem div ∧
    ∀ r t, fround f r t (.fin neg m e) = fsigned f neg (roundMag f r t neg lo rem div) := by
  by_cases hm : m = 0
  · subst hm
    refine ⟨0, 0, 1, ⟨Nat.one_pos, by simp⟩, fun r t => ?_⟩
    rw [roundMag_exact f r t neg (Nat.zero_le _), fround_zero]
  · exact ⟨_, _, _, by rw [finRat_false]; exact fneighbour_between f hm e, fun r t => fround_fin f r t neg hm e⟩

/-- A code of a finite value, rounded in any mode, gives that code again (R53). -/
theorem fround_fdecode {f : FFmt} {c : Nat} (hc : c < 2 ^ f.width) {neg : Bool} {m : Nat} {e : Int}
    (h : fdecode f c = .fin neg m e) (r : Rnd) (t : Bool) : fround f r t (fdecode f c) = c := by
  obtain ⟨s, c', hc', rfl⟩ := fin_of_fdecode hc (by rw [h]; rfl)
  obtain ⟨lo, rem, div, hb, hr⟩ := exists_between f s (magSig f c') (magExp f c')
  obtain ⟨rfl, rfl⟩ := (hb.eq_code_iff (c := c')).mp (by rw [finRat_mag]; simp)
  rw [fdecode_fsigned hc', hr, roundMag_exact f r t s hc']

/-! ### The neighbours among the values -/

section Values

variable {f : FFmt} {a : ℚ} {lo rem div : Nat} (h : Between f a lo rem div)
include h

/-- The greatest value not above a magnitude. -/
theorem Between.down_le : magRat f (min lo f.maxCode) ≤ a := h.code_le_iff.mpr (min_le_left ..)

theorem Between.le_down {u : ℚ} (hu : FmtVal f u) (ha : u ≤ a) : u ≤ magRat f (min lo f.maxCode) := by
  rcases le_or_gt 0 u with h0 | h0
  · obtain ⟨c, hc, rfl⟩ := hu.exists_code h0
    exact (magRat_strictMono f).monotone (le_min (h.code_le_iff.mp ha) hc)
  · exact h0.le.trans (magRat_nonneg ..)

/-- The least value not below a magnitude. -/
theorem Between.le_up : a ≤ magRat f (upCode lo rem) := h.le_code_iff.mpr le_rfl

theorem Between.up_le {u : ℚ} (hu : FmtVal f u) (ha : a ≤ u) : magRat f (upCode lo rem) ≤ u := by
  obtain ⟨c, -, rfl⟩ := hu.exists_code (h.nonneg.trans ha)
  exact (magRat_strictMono f).monotone (h.le_code_iff.mp ha)

theorem Between.up_le_max (ha : a ≤ fmtMax f) : upCode lo rem ≤ f.maxCode :=
  not_lt.mp fun hn => absurd (h.max_lt_iff.mpr hn) (not_lt.mpr ha)

/-- No value is nearer than the nearer neighbour, nor, where the neighbour is too large, than the largest value. -/
theorem Between.nearest {u : ℚ} (hu : FmtVal f u) :
    |magRat f (nearCode lo rem div) - a| ≤ |u - a| ∧
    (|magRat f (nearCode lo rem div) - a| = |u - a| → u ≠ magRat f (nearCode lo rem div) → nearCode lo rem div % 2 = 0) := by
  rcases le_or_gt 0 u with h0 | h0
  · obtain ⟨c, -, rfl⟩ := hu.exists_code h0
    obtain ⟨hle, heq⟩ := h.near_le c
    exact ⟨hle, fun e hne => heq e fun hc => hne (by rw [hc])⟩
  · have hz : |magRat f (nearCode lo rem div) - a| < |u - a| := by
      refine (h.near_le 0).1.trans_lt ?_
      have := h.nonneg
      rw [magRat_zero, zero_sub, abs_neg, abs_of_nonneg this, abs_sub_comm, abs_of_pos] <;> linarith
    exact ⟨hz.le, fun e => absurd e hz.ne⟩

theorem Between.max_nearest (hm : f.maxCode < nearCode lo rem div) {u : ℚ} (hu : FmtVal f u) :
    |magRat f f.maxCode - a| ≤ |u - a| := by
  have hlo : f.maxCode ≤ lo := by unfold nearCode at hm; split at hm <;> omega
  have hu' := h.le_down hu
  rw [min_eq_right hlo] at hu'
  have hma : magRat f f.maxCode ≤ a := h.code_le_iff.mpr hlo
  rw [abs_sub_comm, abs_of_nonneg (sub_nonneg.mpr hma)]
  rcases le_or_gt u a with ha | ha
  · rw [abs_sub_comm, abs_of_nonneg (sub_nonneg.mpr ha)]
    exact sub_le_sub_left (hu' ha) a
  · obtain ⟨c, hc, rfl⟩ := hu.exists_code (h.nonneg.trans ha.le)
    exact absurd ((magRat_strictMono f).monotone hc) (not_le.mpr (hma.trans_lt ha))

end Values

/-! ### The modes -/

section Modes

variable (f : FFmt) (t neg : Bool) (m : Nat) (e : Int)

/-- The value of a rounded finite value, from its code without its sign. -/
theorem rat?_of_fround {r : Rnd} {c k : Nat} (hr : fround f r t (.fin neg m e) = fsigned f neg k) (hk : k = c)
    (hc : c ≤ f.maxCode) : (fdecode f (fround f r t (.fin neg m e))).rat? = some ((if neg then -1 else 1) * magRat f c) := by
  rw [hr, hk, rat?_fdecode_fsigned hc]

theorem finRat_eq : finRat neg m e = (if neg then -1 else 1) * finRat false m e := by
  cases neg
  · simp
  · simpa using finRat_not false m e

/-- RZ gives the greatest magnitude not beyond the value's (R57, R59). -/
theorem fround_rz : ∃ v, (fdecode f (fround f .rz t (.fin neg m e))).rat? = some v ∧ |v| ≤ |finRat neg m e| ∧
    0 ≤ v * finRat neg m e ∧ ∀ u, FmtVal f u → |u| ≤ |finRat neg m e| → 0 ≤ u * finRat neg m e → |u| ≤ |v| := by
  obtain ⟨lo, rem, div, hb, hr⟩ := exists_between f neg m e
  have hv := magRat_nonneg f (min lo f.maxCode)
  refine ⟨_, rat?_of_fround f t neg m e (hr .rz t) (roundMag_down (.inl rfl) ..) (min_le_right ..), ?_⟩
  have habs : |(if neg then -1 else 1) * magRat f (min lo f.maxCode)| = magRat f (min lo f.maxCode) := by
    cases neg <;> simp [abs_of_nonneg hv]
  rw [habs, abs_finRat]
  refine ⟨hb.down_le, ?_, fun u hu ha _ => hb.le_down hu.abs ha⟩
  rw [finRat_eq]
  have := mul_nonneg hv hb.nonneg
  cases neg <;> simpa using this

/-- RD gives the greatest value not above (R57). -/
theorem fround_rd (hp : -fmtMax f ≤ finRat neg m e) : ∃ v, (fdecode f (fround f .rd t (.fin neg m e))).rat? = some v ∧
    v ≤ finRat neg m e ∧ ∀ u, FmtVal f u → u ≤ finRat neg m e → u ≤ v := by
  obtain ⟨lo, rem, div, hb, hr⟩ := exists_between f neg m e
  rw [finRat_eq] at hp ⊢
  cases neg with
  | false =>
    refine ⟨_, rat?_of_fround f t _ m e (hr .rd t) (roundMag_down (.inr (.inl ⟨rfl, rfl⟩)) ..) (min_le_right ..), ?_⟩
    simpa using ⟨hb.down_le, fun u hu => hb.le_down hu⟩
  | true =>
    have hmax := hb.up_le_max (by simpa using hp)
    refine ⟨_, rat?_of_fround f t _ m e (hr .rd t) ((roundMag_up (.inl ⟨rfl, rfl⟩) ..).trans (if_neg (not_lt.mpr hmax))) hmax, ?_⟩
    simpa using ⟨hb.le_up, fun u hu ha => le_neg.mp (hb.up_le hu.neg (le_neg.mp ha))⟩

/-- RU gives the least value not below (R57). -/
theorem fround_ru (hp : finRat neg m e ≤ fmtMax f) : ∃ v, (fdecode f (fround f .ru t (.fin neg m e))).rat? = some v ∧
    finRat neg m e ≤ v ∧ ∀ u, FmtVal f u → finRat neg m e ≤ u → v ≤ u := by
  obtain ⟨lo, rem, div, hb, hr⟩ := exists_between f neg m e
  rw [finRat_eq] at hp ⊢
  cases neg with
  | false =>
    have hmax := hb.up_le_max (by simpa using hp)
    refine ⟨_, rat?_of_fround f t _ m e (hr .ru t) ((roundMag_up (.inr ⟨rfl, rfl⟩) ..).trans (if_neg (not_lt.mpr hmax))) hmax, ?_⟩
    simpa using ⟨hb.le_up, fun u hu => hb.up_le hu⟩
  | true =>
    refine ⟨_, rat?_of_fround f t _ m e (hr .ru t) (roundMag_down (.inr (.inr ⟨rfl, rfl⟩)) ..) (min_le_right ..), ?_⟩
    simpa using ⟨hb.down_le, fun u hu ha => neg_le.mp (hb.le_down hu.neg (neg_le.mp ha))⟩

/-- RNE gives a value where the value does not overflow (R59). -/
theorem fround_rne (hp : ¬ Overflows f .rne (finRat neg m e)) :
    ∃ v, (fdecode f (fround f .rne t (.fin neg m e))).rat? = some v := by
  obtain ⟨lo, rem, div, hb, hr⟩ := exists_between f neg m e
  have hn : ¬ f.maxCode < nearCode lo rem div := by
    rw [hb.max_lt_near_iff]
    simpa only [Overflows, abs_finRat, abs_of_nonneg hb.nonneg] using hp
  exact ⟨_, rat?_of_fround f t neg m e (hr .rne t) ((roundMag_rne f t neg hb.rem_lt).trans (if_neg hn)) (not_lt.mp hn)⟩

end Modes

/-! ### Stochastic rounding (R58) -/

/-- The neighbours of a positive value are those by which it is rounded. -/
theorem Between.neighbours {f : FFmt} {a : ℚ} {lo rem div : Nat} (h : Between f a lo rem div) {l u : ℚ}
    (hn : Neighbours (FmtVal f) a l u) : lo + 1 ≤ f.maxCode ∧ l = magRat f lo ∧ u = magRat f (lo + 1) := by
  obtain ⟨hl, hu, hla, hau, hls, hus, hno⟩ := hn
  have ha : 0 < a := lt_of_le_of_ne h.nonneg fun e => by simp [← e] at hus
  have hl0 : 0 ≤ l := nonneg_of_mul_nonneg_left hls ha
  have hu0 : 0 < u := pos_of_mul_pos_left hus ha.le
  rw [abs_of_pos ha, abs_of_nonneg hl0] at hla
  rw [abs_of_pos ha, abs_of_pos hu0] at hau
  obtain ⟨i, -, rfl⟩ := hl.exists_code hl0
  obtain ⟨j, hj, rfl⟩ := hu.exists_code hu0.le
  have hi : i ≤ lo := h.code_le_iff.mp hla.le
  have hlo : lo < j := not_le.mp fun hle => absurd (h.code_le_iff.mpr hle) (not_le.mpr hau)
  have between {c : Nat} (hc : c ≤ f.maxCode) : ¬ (i < c ∧ c < j) := by
    have := hno _ (fmtVal_mag hc) (mul_nonneg (magRat_nonneg f c) ha.le)
    simpa only [abs_of_nonneg (magRat_nonneg f _), (magRat_strictMono f).lt_iff_lt] using this
  have h1 := between (c := lo) (by omega)
  have h2 := between (c := lo + 1) (by omega)
  exact ⟨by omega, congrArg _ (by omega), congrArg _ (by omega)⟩

theorem Between.stochastic_eq {f : FFmt} {a : ℚ} {lo rem div : Nat} (h : Between f a lo rem div) (rnd : Nat) (neg : Bool) :
    stochastic (rnd % 2 ^ 32) a (magRat f lo) (magRat f (lo + 1)) =
      magRat f (if fup (.sr rnd) neg lo rem div then lo + 1 else lo) := by
  have hg := sub_pos.mpr (magRat_lt_succ f lo)
  have hq : (a - magRat f lo) / (magRat f (lo + 1) - magRat f lo) = rem / div := by
    rw [div_eq_div_iff hg.ne' h.div_pos.ne', h.dist_lo]
  simp only [stochastic, abs_of_nonneg h.nonneg, abs_of_nonneg (magRat_nonneg f _), hq, fup_sr]
  split <;> rfl

theorem Neighbours.neg {f : FFmt} {y l u : ℚ} (h : Neighbours (FmtVal f) y l u) : Neighbours (FmtVal f) (-y) (-l) (-u) := by
  obtain ⟨hl, hu, hly, hyu, hls, hus, hno⟩ := h
  refine ⟨hl.neg, hu.neg, by simpa, by simpa, by simpa, by simpa, fun v hv hs => ?_⟩
  simpa using hno (-v) hv.neg (by simpa using hs)

theorem stochastic_neg (rnd : Nat) (y l u : ℚ) : stochastic rnd (-y) (-l) (-u) = -stochastic rnd y l u := by
  simp only [stochastic, abs_neg]
  split <;> rfl

/-- SR gives one of the two neighbours, by the random word (R58). -/
theorem fround_sr (f : FFmt) (t neg : Bool) (m : Nat) (e : Int) (rnd : Nat) {l u : ℚ}
    (hn : Neighbours (FmtVal f) (finRat neg m e) l u) :
    (fdecode f (fround f (.sr rnd) t (.fin neg m e))).rat? = some (stochastic (rnd % 2 ^ 32) (finRat neg m e) l u) := by
  obtain ⟨lo, rem, div, hb, hr⟩ := exists_between f neg m e
  rw [finRat_eq] at hn ⊢
  obtain ⟨hmax, hl, hu⟩ := hb.neighbours (l := (if neg then -1 else 1) * l) (u := (if neg then -1 else 1) * u) (by
    cases neg with
    | false => simpa using hn
    | true => simpa using hn.neg)
  have hup : ¬ f.maxCode < upCode lo rem := by unfold upCode; split <;> omega
  rw [rat?_of_fround f t neg m e (hr ..) ((roundMag_sr ..).trans (if_neg hup)) (by split <;> omega), ← hb.stochastic_eq, ← hl, ← hu]
  cases neg with
  | false => simp
  | true => simp [← stochastic_neg]

/-! ### Overflow (R59) -/

theorem overflows_abs (f : FFmt) (r : Rnd) (p : ℚ) : Overflows f r |p| ↔ Overflows f r p := by
  simp only [Overflows, abs_abs]

theorem fmtMax_pos (f : FFmt) : 0 < fmtMax f := by cases f <;> norm_num [fmtMax]

/-- What overflows is beyond the largest value. -/
theorem max_lt_of_overflows {f : FFmt} {r : Rnd} {p : ℚ} (h : Overflows f r p) : fmtMax f < |p| := by
  cases r with
  | rne =>
    have hh : 0 < halfStep f := by cases f <;> norm_num [halfStep]
    rcases h with h | ⟨h, -⟩ <;> linarith
  | _ => exact h

/-- An overflowing magnitude gets the code that the mode and the sign name. -/
theorem Between.roundMag_overflow {f : FFmt} {a : ℚ} {lo rem div : Nat} (h : Between f a lo rem div) {r : Rnd}
    (ho : Overflows f r a) (t neg : Bool) : roundMag f r t neg lo rem div = fovfCode f r t neg := by
  have hup := h.max_lt_iff.mp (by simpa [abs_of_nonneg h.nonneg] using max_lt_of_overflows ho)
  have hlo : min lo f.maxCode = f.maxCode := by unfold upCode at hup; split at hup <;> omega
  cases r with
  | rne => rw [roundMag_rne f t neg h.rem_lt, if_pos (h.max_lt_near_iff.mpr ho)]; rfl
  | sr rnd => rw [roundMag_sr, if_pos hup]; rfl
  | rz => rw [roundMag_down (.inl rfl), hlo]; rfl
  | rd =>
    cases neg with
    | false => rw [roundMag_down (.inr (.inl ⟨rfl, rfl⟩)), hlo]; rfl
    | true => rw [roundMag_up (.inl ⟨rfl, rfl⟩), if_pos hup]; rfl
  | ru =>
    cases neg with
    | false => rw [roundMag_up (.inr ⟨rfl, rfl⟩), if_pos hup]; rfl
    | true => rw [roundMag_down (.inr (.inr ⟨rfl, rfl⟩)), hlo]; rfl

theorem maxRuleCode_eq (f : FFmt) : maxRuleCode f = f.maxCode := by cases f <;> rfl

theorem nanRuleCode_eq (f : FFmt) : nanRuleCode f = f.nanCode := by cases f <;> rfl

theorem targetCode_eq (f : FFmt) (t : Bool) : targetCode f t = fovfTarget f t := by cases f <;> rfl

theorem withSign_eq (f : FFmt) (neg : Bool) (c : Nat) : withSign f neg c = fsigned f neg c := by
  rw [withSign, nanRuleCode_eq, fsigned]

theorem finRat_neg_iff {neg : Bool} {m : Nat} {e : Int} (h : finRat neg m e ≠ 0) : finRat neg m e < 0 ↔ neg = true := by
  have h0 := finRat_false_nonneg m e
  rw [finRat_eq] at h ⊢
  cases neg with
  | false => simpa using h0
  | true => simpa using lt_of_le_of_ne h0 (by simpa [eq_comm] using h)

theorem fround_overflow (f : FFmt) (t neg : Bool) (m : Nat) (e : Int) (r : Rnd) (ho : Overflows f r (finRat neg m e)) :
    fround f r t (.fin neg m e) = withSign f (decide (finRat neg m e < 0)) (fovfCode f r t (decide (finRat neg m e < 0))) := by
  obtain ⟨lo, rem, div, hb, hr⟩ := exists_between f neg m e
  have h0 : finRat neg m e ≠ 0 := abs_pos.mp ((fmtMax_pos f).trans (max_lt_of_overflows ho))
  have hs : decide (finRat neg m e < 0) = neg := by rw [Bool.eq_iff_iff, decide_eq_true_iff, finRat_neg_iff h0]
  rw [hs, hr, hb.roundMag_overflow (by rwa [← abs_finRat neg, overflows_abs]), withSign_eq]

/-! ### To nearest (R57) -/

/-- The target of E4M3, which is finite, is its largest value; the others have none that is finite. -/
theorem fovfTarget_nosat (f : FFmt) : (f = .e4m3 ∧ fovfTarget f false = f.maxCode ∧ f.maxCode % 2 = 0) ∨
    (f.maxCode < fovfTarget f false ∧ fovfTarget f false < 2 ^ (f.width - 1)) := by
  cases f <;> decide

/-- A finite result of rounding to nearest even is a nearest value, of two the one with the even code. -/
theorem roundRne_nearest (f : FFmt) (neg : Bool) (m : Nat) (e : Int) {v u : ℚ}
    (hv : (fdecode f (roundRne f (.fin neg m e))).rat? = some v) (hu : FmtVal f u) :
    |v - finRat neg m e| ≤ |u - finRat neg m e| ∧
      (|v - finRat neg m e| = |u - finRat neg m e| → u ≠ v → roundRne f (.fin neg m e) % 2 = 0) := by
  obtain ⟨lo, rem, div, hb, hr⟩ := exists_between f neg m e
  have hk := hr .rne false
  rw [roundMag_rne f false neg hb.rem_lt] at hk
  have hsu : FmtVal f ((if neg then -1 else 1) * u) := by
    cases neg
    · simpa using hu
    · simpa using hu.neg
  have dist (x : ℚ) : |(if neg then -1 else 1) * x - finRat neg m e| = |x - finRat false m e| := by
    rw [finRat_eq]
    cases neg
    · simp
    · simpa [abs_sub_comm, sub_eq_add_neg, add_comm] using abs_sub_comm (finRat false m e) x
  have dist' : |u - finRat neg m e| = |(if neg then -1 else 1) * u - finRat false m e| := by
    rw [← dist]; cases neg <;> simp
  have hne (x : ℚ) : u ≠ (if neg then -1 else 1) * x → (if neg then -1 else 1) * u ≠ x := by
    cases neg
    · simp
    · simpa using fun h h' => h (by rw [← h', neg_neg])
  rw [roundRne, hk] at hv ⊢
  rw [fsigned_mod_two]
  split at hv
  next hmax =>
    rw [if_pos hmax]
    rcases fovfTarget_nosat f with ⟨-, ht, heven⟩ | ⟨h1, h2⟩
    · rw [ht] at hv ⊢
      rw [rat?_fdecode_fsigned le_rfl] at hv
      obtain rfl := Option.some.inj hv
      rw [dist, dist']
      exact ⟨hb.max_nearest hmax hsu, fun _ _ => heven⟩
    · rw [rat?_fdecode_fsigned_beyond h1 h2] at hv; cases hv
  next hmax =>
    rw [if_neg hmax]
    rw [rat?_fdecode_fsigned (not_lt.mp hmax)] at hv
    obtain rfl := Option.some.inj hv
    rw [dist, dist']
    obtain ⟨h1, h2⟩ := hb.nearest hsu
    exact ⟨h1, fun he hn => h2 he (hne _ hn)⟩

end Sys2Proof.Machine
end

section
/-! SUPPORT. Rounding to an integer and FCVT (R42, R61, R139). -/

namespace Sys2Proof.Machine

/-! ### Rounding to an integer (R61) -/

/-- The magnitude of a finite value as a whole number and a part of 1, by which `fint` rounds it. -/
theorem exists_whole (neg : Bool) (m : Nat) (e : Int) : ∃ w rem div : Nat, rem < div ∧ finRat false m e = w + (rem : ℚ) / div ∧
    ∀ r, fint r neg m e = (if neg then -1 else 1) * ((if fup r neg w rem div then w + 1 else w : Nat) : Int) := by
  have hs (k : Nat) : (if neg then -(k : Int) else k) = (if neg then -1 else 1) * (k : Int) := by cases neg <;> simp
  rw [finRat_false]
  by_cases he : 0 ≤ e
  · refine ⟨m * 2 ^ e.toNat, 0, 1, Nat.one_pos, ?_, fun r => ?_⟩
    · push_cast
      rw [zero_div, add_zero, ← zpow_natCast, Int.toNat_of_nonneg he]
    · rw [fint, if_pos he, hs]; simp [fup]
  · have hd : 0 < 2 ^ (-e).toNat := Nat.two_pow_pos _
    refine ⟨m / 2 ^ (-e).toNat, m % 2 ^ (-e).toNat, 2 ^ (-e).toNat, Nat.mod_lt _ hd, ?_, fun r => ?_⟩
    · have hc : ((2 ^ (-e).toNat : Nat) : ℚ) ≠ 0 := Nat.cast_ne_zero.mpr hd.ne'
      have hmd : ((2 ^ (-e).toNat : Nat) : ℚ) * ((m / 2 ^ (-e).toNat : Nat) : ℚ) + ((m % 2 ^ (-e).toNat : Nat) : ℚ) = m := by
        exact_mod_cast Nat.div_add_mod m (2 ^ (-e).toNat)
      have he' : (2 : ℚ) ^ e = (((2 ^ (-e).toNat : Nat) : ℚ))⁻¹ := by
        push_cast
        rw [← zpow_natCast, Int.toNat_of_nonneg (by omega), zpow_neg, inv_inv]
      rw [he', ← div_eq_mul_inv, div_eq_iff hc, add_mul, div_mul_cancel₀ _ hc, mul_comm, hmd]
    · rw [fint, if_neg he, hs]

section Whole

variable {w rem div : Nat} (h : rem < div)
include h

theorem frac_lt_one : (rem : ℚ) / div < 1 := by
  rw [div_lt_one (by exact_mod_cast (Nat.zero_le rem).trans_lt h)]
  exact_mod_cast h

theorem frac_eq_zero_iff : (rem : ℚ) / div = 0 ↔ rem = 0 := by
  have : (div : ℚ) ≠ 0 := Nat.cast_ne_zero.mpr (by omega)
  simp [this]

theorem half_le_frac_iff : 1 / 2 ≤ (rem : ℚ) / div ↔ div ≤ 2 * rem := by
  have : (0 : ℚ) < div := Nat.cast_pos.mpr (by omega)
  rw [div_le_div_iff₀ two_pos this, one_mul, mul_comm]
  exact_mod_cast Iff.rfl

theorem frac_le_half_iff : (rem : ℚ) / div ≤ 1 / 2 ↔ 2 * rem ≤ div := by
  have : (0 : ℚ) < div := Nat.cast_pos.mpr (by omega)
  rw [div_le_div_iff₀ this two_pos, one_mul, mul_comm]
  exact_mod_cast Iff.rfl

theorem floor_whole : ⌊(w : ℚ) + rem / div⌋ = w := by
  rw [Int.floor_natCast_add, Int.floor_eq_zero_iff.mpr ⟨by positivity, frac_lt_one h⟩, add_zero]

theorem ceil_whole : ⌈(w : ℚ) + rem / div⌉ = if rem = 0 then w else w + 1 := by
  rw [Int.ceil_natCast_add]
  split
  next h0 => simp [h0]
  next h0 =>
    have hpos : (0 : ℚ) < rem / div := lt_of_le_of_ne (by positivity) fun e => h0 ((frac_eq_zero_iff h).mp e.symm)
    rw [Int.ceil_eq_iff (z := 1) |>.mpr ⟨by simpa using hpos, by simpa using (frac_lt_one h).le⟩, Nat.cast_succ]

/-- To the nearer integer, of two equally near the even one. -/
theorem fup_rne_whole (neg : Bool) : |(((if fup .rne neg w rem div then w + 1 else w : Nat) : ℤ) : ℚ) - (w + (rem : ℚ) / div)| ≤ 1 / 2 ∧
    (|(((if fup .rne neg w rem div then w + 1 else w : Nat) : ℤ) : ℚ) - (w + (rem : ℚ) / div)| = 1 / 2 →
      (if fup .rne neg w rem div then w + 1 else w) % 2 = 0) := by
  have h0 : (0 : ℚ) ≤ rem / div := by positivity
  have h1 := frac_lt_one h
  have hle := frac_le_half_iff h
  have hge := half_le_frac_iff h
  by_cases hup : fup .rne neg w rem div = true
  · have hd : |(((w + 1 : Nat) : ℤ) : ℚ) - (w + (rem : ℚ) / div)| = 1 - rem / div := by
      rw [abs_of_nonneg] <;> push_cast <;> linarith
    rw [if_pos hup, hd]
    rw [fup_rne neg h] at hup
    refine ⟨by linarith [hge.mpr (by omega)], fun e => ?_⟩
    have := hle.mp (by linarith)
    omega
  · have hd : |((w : ℤ) : ℚ) - (w + (rem : ℚ) / div)| = rem / div := by
      rw [abs_sub_comm, abs_of_nonneg] <;> push_cast <;> linarith
    rw [if_neg hup, hd]
    rw [fup_rne neg h] at hup
    refine ⟨hle.mpr (by omega), fun e => ?_⟩
    have := hge.mp e.ge
    omega

end Whole

/-- `fint` rounds to an integer as each mode says (R57, R58, R61). -/
theorem intRounded_fint (r : Rnd) (neg : Bool) (m : Nat) (e : Int) : IntRounded r (finRat neg m e) (fint r neg m e) := by
  obtain ⟨w, rem, div, h, ha, hi⟩ := exists_whole neg m e
  have ha0 := finRat_false_nonneg m e
  have hfl : ⌊finRat false m e⌋ = w := ha ▸ floor_whole h
  have hce : ⌈finRat false m e⌉ = upCode w rem := by rw [ha, ceil_whole h, upCode]
  have hz : 0 ≤ -finRat false m e → finRat false m e = 0 ∧ w = 0 := fun hn => by
    have h0 : finRat false m e = 0 := le_antisymm (neg_nonneg.mp hn) ha0
    exact ⟨h0, by simpa [h0, eq_comm] using hfl⟩
  rw [finRat_eq, hi]
  cases r with
  | rne =>
    obtain ⟨h1, h2⟩ := fup_rne_whole (w := w) h neg
    rw [← ha] at h1 h2
    generalize (if fup .rne neg w rem div then w + 1 else w) = x at h1 h2 ⊢
    cases neg with
    | false =>
      rw [if_neg Bool.false_ne_true, if_neg Bool.false_ne_true, one_mul, one_mul, IntRounded]
      exact ⟨h1, fun e => by have := h2 e; omega⟩
    | true =>
      have hd : |((-1 * (x : ℤ) : ℤ) : ℚ) - -1 * finRat false m e| = |((x : ℤ) : ℚ) - finRat false m e| := by
        rw [abs_sub_comm]; push_cast; ring_nf
      rw [if_pos rfl, if_pos rfl, IntRounded, hd]
      exact ⟨h1, fun e => by have := h2 e; omega⟩
  | rz =>
    rw [fup_down (.inl rfl), IntRounded]
    cases neg with
    | false => simp [ha0, hfl]
    | true =>
      by_cases hn : 0 ≤ -finRat false m e
      · obtain ⟨h0, rfl⟩ := hz hn
        simp [h0]
      · simp only [if_true, neg_one_mul, if_neg hn, Int.ceil_neg, hfl]; rfl
  | rd =>
    cases neg with
    | false => rw [fup_down (.inr (.inl ⟨rfl, rfl⟩))]; simp [IntRounded, hfl]
    | true => rw [fup_up (.inl ⟨rfl, rfl⟩)]; simp [IntRounded, Int.floor_neg, hce]
  | ru =>
    cases neg with
    | false => rw [fup_up (.inr ⟨rfl, rfl⟩)]; simp [IntRounded, hce]
    | true => rw [fup_down (.inr (.inr ⟨rfl, rfl⟩))]; simp [IntRounded, Int.ceil_neg, hfl]
  | sr rnd =>
    have habs : |(if neg then -1 else 1) * finRat false m e| = finRat false m e := by
      rw [← finRat_eq, abs_finRat]
    have hx : ((if fup (.sr rnd) neg w rem div then w + 1 else w : Nat) : ℤ) =
        w + if ((rnd % 2 ^ 32 : Nat) : ℤ) < ⌊(rem : ℚ) / div * 2 ^ 32⌋ then 1 else 0 := by
      simp only [fup_sr]; split <;> simp
    have hfr : finRat false m e - (w : ℤ) = (rem : ℚ) / div := by rw [ha]; push_cast; ring
    rw [IntRounded, habs, hfl, hfr, ← hx]
    cases neg with
    | false => simp [ha0]
    | true =>
      rw [if_pos rfl, if_pos rfl, neg_one_mul (finRat false m e)]
      by_cases hn : 0 ≤ -finRat false m e
      · obtain ⟨h0, rfl⟩ := hz hn
        have hr : rem = 0 := (frac_eq_zero_iff h).mp (by rw [← hfr, h0]; simp)
        simp [hr, fup]
      · rw [if_neg hn]

/-! ### FCVT (R42, R139) -/

theorem rndMode_eq (c : RndCode) (rnd : Nat) : rndMode c rnd = (modeRule c rnd, togglesRule c) := by cases c <;> rfl

theorem aluFcvt_float (src : CvtSrc) (f : FFmt) (c : RndCode) (x : Word) (rnd : Nat) : aluFcvt src (.float f) c x rnd =
    BitVec.ofNat 64 (fround f (modeRule c rnd) (togglesRule c) (cvtDecode src x)) := by
  rw [aluFcvt, rndMode_eq]

/-- The conversion to an integer saturates the rounded value, and gives 0 for NaN (R61). -/
theorem fToInt_rule (r : Rnd) (lo hi : ℤ) (v : FVal) : (v = .nan → fToInt r lo hi v = 0) ∧
    (∀ neg, v = .inf neg → fToInt r lo hi v = if neg then lo else hi) ∧
    ∀ p, v.rat? = some p → ∃ j, IntRounded r p j ∧ fToInt r lo hi v = within lo hi j := by
  refine ⟨fun h => by rw [h]; rfl, fun neg h => by rw [h]; rfl, fun p h => ?_⟩
  obtain ⟨s, m, e, rfl, rfl⟩ := exists_fin_of_rat? h
  exact ⟨_, intRounded_fint r s m e, rfl⟩

theorem aluFcvt_s32 (src : CvtSrc) (c : RndCode) (x : Word) (rnd : Nat) : aluFcvt src .s32 c x rnd =
    (BitVec.ofInt 32 (fToInt (modeRule c rnd) (-2 ^ 31) (2 ^ 31 - 1) (cvtDecode src x))).signExtend 64 := by
  rw [← sext_eq (by decide) (by decide), aluFcvt, rndMode_eq]

theorem aluFcvt_z32 (src : CvtSrc) (c : RndCode) (x : Word) (rnd : Nat) : aluFcvt src .z32 c x rnd =
    (BitVec.ofInt 32 (fToInt (modeRule c rnd) 0 (2 ^ 32 - 1) (cvtDecode src x))).setWidth 64 := by
  rw [← zext_eq, aluFcvt, rndMode_eq]

theorem aluFcvt_s64 (src : CvtSrc) (c : RndCode) (x : Word) (rnd : Nat) : aluFcvt src .s64 c x rnd =
    BitVec.ofInt 64 (fToInt (modeRule c rnd) (-2 ^ 63) (2 ^ 63 - 1) (cvtDecode src x)) := by
  rw [aluFcvt, rndMode_eq]

/-- The integer sources of FCVT (R139). -/
def CvtInt (src : CvtSrc) (x : Word) (n : ℤ) : Prop :=
  (src = .s8 ∧ n = (x.setWidth 8).toInt) ∨ (src = .s16 ∧ n = (x.setWidth 16).toInt) ∨
  (src = .s32 ∧ n = (x.setWidth 32).toInt) ∨ (src = .s64 ∧ n = x.toInt) ∨ (src = .z8 ∧ n = (x.setWidth 8).toNat) ∨
  (src = .z16 ∧ n = (x.setWidth 16).toNat) ∨ (src = .z32 ∧ n = (x.setWidth 32).toNat) ∨ (src = .z64 ∧ n = x.toNat)

theorem cvtDecode_int {src : CvtSrc} {x : Word} {n : ℤ} (h : CvtInt src x n) :
    cvtDecode src x = .fin (decide (n < 0)) n.natAbs 0 := by
  rcases h with ⟨rfl, rfl⟩ | ⟨rfl, rfl⟩ | ⟨rfl, rfl⟩ | ⟨rfl, rfl⟩ | ⟨rfl, rfl⟩ | ⟨rfl, rfl⟩ | ⟨rfl, rfl⟩ | ⟨rfl, rfl⟩ <;>
    simp [cvtDecode, sval_eq, zval_eq]

theorem cvtDecode_int_rule {src : CvtSrc} {x : Word} {n : ℤ} (h : CvtInt src x n) :
    (cvtDecode src x).rat? = some (n : ℚ) ∧ (cvtDecode src x).neg? = decide (n < 0) := by
  rw [cvtDecode_int h, rat?_fin, finRat_int]
  simp [FVal.neg?]

/-! ### The statement -/

/-- Settles O14: a value stands between two neighbouring codes, of which every mode picks one by the remainder. -/
theorem roundingToNearest : Obligations.RoundingToNearest := by
  unfold Obligations.RoundingToNearest
  refine fun f => ⟨fun r t c neg m e hc h => fround_fdecode hc h r t, fun x p v hx hv c u hu => ?_, fun t x p hx => ?_,
    fun r t neg e => ⟨?_, ?_, ?_⟩, fun src c x rnd => ⟨aluFcvt_float .., ⟨_, fToInt_rule .., aluFcvt_s32 ..⟩,
      ⟨_, fToInt_rule .., aluFcvt_z32 ..⟩, ⟨_, fToInt_rule .., aluFcvt_s64 ..⟩, fun n => cvtDecode_int_rule, ?_⟩⟩
  · obtain ⟨neg, m, e, rfl, rfl⟩ := exists_fin_of_rat? hx
    exact roundRne_nearest f neg m e hv ⟨c, hu⟩
  · obtain ⟨neg, m, e, rfl, rfl⟩ := exists_fin_of_rat? hx
    refine ⟨fround_rz f t neg m e, fround_rd f t neg m e, fround_ru f t neg m e, fround_rne f t neg m e,
      fun rnd l h => fround_sr f t neg m e rnd, fun r ho => (fround_overflow f t neg m e r ho).trans (congrArg _ ?_)⟩
    cases r <;> simp [fovfCode, maxRuleCode_eq, targetCode_eq]
  · exact (nanRuleCode_eq f).symm
  · rw [withSign_eq, targetCode_eq]; rfl
  · rw [withSign_eq]; rfl
  · rintro g rfl; rfl

end Sys2Proof.Machine
end

section
/-! SUPPORT. A barrier object by its fields: its test and its decrement are those of the rules (R276, R278, R284). -/

namespace Sys2Proof.Machine

/-! ### Fields of a word -/

/-- The bits of a number written in three sections. -/
theorem testBit_sections (A F B lo w i : Nat) (hF : F < 2 ^ w) (hB : B < 2 ^ lo) :
    (2 ^ lo * (2 ^ w * A + F) + B).testBit i =
      if i < lo then B.testBit i else if i < lo + w then F.testBit (i - lo) else A.testBit (i - lo - w) := by
  rw [Nat.testBit_two_pow_mul_add _ hB]
  by_cases h1 : i < lo
  · simp [h1]
  · simp [h1, Nat.testBit_two_pow_mul_add _ hF, show (i - lo < w) = (i < lo + w) from propext (by omega)]

/-- The bits of a word with a field replaced. -/
theorem getLsbD_bvput {n : Nat} (x : BitVec n) {hi lo : Nat} (h : lo ≤ hi) (v i : Nat) :
    (bvput x hi lo v).getLsbD i = (decide (i < n) && if lo ≤ i ∧ i ≤ hi then v.testBit (i - lo) else x.getLsbD i) := by
  obtain ⟨w, hw⟩ : ∃ w, w = hi + 1 - lo := ⟨_, rfl⟩
  have hB : x.toNat % 2 ^ lo < 2 ^ lo := Nat.mod_lt _ (Nat.two_pow_pos _)
  have hF (y : Nat) : y % 2 ^ w < 2 ^ w := Nat.mod_lt _ (Nat.two_pow_pos _)
  have hx : 2 ^ lo * (2 ^ w * (x.toNat / 2 ^ lo / 2 ^ w) + x.toNat / 2 ^ lo % 2 ^ w) + x.toNat % 2 ^ lo = x.toNat := by
    rw [Nat.div_add_mod, Nat.div_add_mod]
  have hp : x.toNat - x.toNat / 2 ^ lo % 2 ^ w * 2 ^ lo + v % 2 ^ w * 2 ^ lo =
      2 ^ lo * (2 ^ w * (x.toNat / 2 ^ lo / 2 ^ w) + v % 2 ^ w) + x.toNat % 2 ^ lo := by
    have hle : x.toNat / 2 ^ lo % 2 ^ w * 2 ^ lo ≤ x.toNat :=
      (Nat.mul_le_mul_right _ (Nat.mod_le _ _)).trans (Nat.div_mul_le_self _ _)
    zify [hle]
    zify at hx
    linear_combination -hx
  have hxi := testBit_sections (x.toNat / 2 ^ lo / 2 ^ w) _ _ lo w i (hF (x.toNat / 2 ^ lo)) hB
  rw [hx] at hxi
  rw [bvput, bvf, ← hw, BitVec.getLsbD_ofNat, hp, testBit_sections _ _ _ _ _ _ (hF v) hB, ← BitVec.testBit_toNat x, hxi]
  by_cases h1 : i < lo
  · simp [h1, show ¬ lo ≤ i by omega]
  · by_cases h2 : i < lo + w
    · simp [h1, h2, show lo ≤ i by omega, show i ≤ hi by omega, Nat.testBit_mod_two_pow, show i - lo < w by omega]
    · simp [h1, h2, show ¬ i ≤ hi by omega]

/-- A field beside the one replaced, and the one replaced. -/
theorem extractLsb'_bvput_ne {n : Nat} (x : BitVec n) {hi lo s l : Nat} (h : lo ≤ hi) (hd : s + l ≤ lo ∨ hi < s) (v : Nat) :
    (bvput x hi lo v).extractLsb' s l = x.extractLsb' s l := by
  refine BitVec.eq_of_getLsbD_eq fun i hi => ?_
  rw [BitVec.getLsbD_extractLsb', BitVec.getLsbD_extractLsb', getLsbD_bvput x h, if_neg (by omega)]
  by_cases hn : s + i < n
  · simp [hn]
  · simp [hn, BitVec.getLsbD_of_ge x (s + i) (by omega)]

theorem extractLsb'_bvput_same {n : Nat} (x : BitVec n) {hi lo l : Nat} (h : hi < n) (hl : hi + 1 = lo + l) (h0 : 0 < l) (v : Nat) :
    (bvput x hi lo v).extractLsb' lo l = BitVec.ofNat l v := by
  refine BitVec.eq_of_getLsbD_eq fun i hi => ?_
  rw [BitVec.getLsbD_extractLsb', getLsbD_bvput x (by omega), if_pos (by omega), BitVec.getLsbD_ofNat, Nat.add_sub_cancel_left,
    decide_eq_true (show lo + i < n by omega), Bool.true_and]

theorem bvf_eq {n : Nat} (x : BitVec n) {hi lo l : Nat} (h : hi + 1 = lo + l) : bvf x hi lo = (x.extractLsb' lo l).toNat := by
  rw [bvf, h, Nat.add_sub_cancel_left, BitVec.extractLsb'_toNat, Nat.shiftRight_eq_div_pow]

/-- A section of the upper part of a concatenation. -/
theorem skip_low {v w s l : Nat} {a : BitVec v} {b : BitVec w} {c : BitVec l} (h : a.extractLsb' s l = c) :
    (a ++ b).extractLsb' (s + w) l = c := by
  rw [BitVec.extractLsb'_append_eq_of_le (Nat.le_add_left w s), Nat.add_sub_cancel, h]

theorem ofBool_getElem {n : Nat} (x : BitVec n) {k : Nat} (h : k < n) : BitVec.ofBool x[k] = x.extractLsb' k 1 := by
  refine BitVec.eq_of_getLsbD_eq fun i hi => ?_
  obtain rfl : i = 0 := by omega
  simp [h]

/-- Two words that agree in sections that cover them are the same. -/
theorem eq_of_sections {n : Nat} {x y : BitVec n} (l : List (Nat × Nat)) (hc : ∀ k < n, ∃ p ∈ l, p.1 ≤ k ∧ k < p.1 + p.2)
    (h : ∀ p ∈ l, x.extractLsb' p.1 p.2 = y.extractLsb' p.1 p.2) : x = y := by
  refine BitVec.eq_of_getLsbD_eq fun k hk => ?_
  obtain ⟨p, hp, h1, h2⟩ := hc k hk
  have e := congrArg (fun z => z.getLsbD (k - p.1)) (h p hp)
  simpa [show k - p.1 < p.2 by omega, show p.1 + (k - p.1) = k by omega] using e

/-! ### The fields of an object (R276) -/

/-- First bit and length of the fields of an object, and of what stands between them. -/
def barFields : List (Nat × Nat) :=
  [(0, 56), (56, 8), (64, 56), (120, 8), (128, 16), (144, 16), (160, 4), (164, 1), (165, 3), (168, 8), (176, 80)]

theorem barFields_cover : ∀ k < 256, ∃ p ∈ barFields, p.1 ≤ k ∧ k < p.1 + p.2 := by
  simp only [barFields, List.exists_mem_cons_iff, List.not_mem_nil, false_and, exists_false, or_false]
  omega

section BarWith

variable (o : BitVec 256) (ovr : BitVec 8) (carry : Bool) (gen : BitVec 4) (pending : BitVec 16) (ins outs : BitVec 56)

@[simp] theorem barWith_outs : (barWith o ovr carry gen pending ins outs).extractLsb' 0 56 = outs :=
  BitVec.extractLsb'_append_eq_right

@[simp] theorem barWith_gapLow : (barWith o ovr carry gen pending ins outs).extractLsb' 56 8 = o.extractLsb' 56 8 :=
  skip_low BitVec.extractLsb'_append_eq_right

@[simp] theorem barWith_ins : (barWith o ovr carry gen pending ins outs).extractLsb' 64 56 = ins :=
  skip_low <| skip_low BitVec.extractLsb'_append_eq_right

@[simp] theorem barWith_gapHigh : (barWith o ovr carry gen pending ins outs).extractLsb' 120 8 = o.extractLsb' 120 8 :=
  skip_low <| skip_low <| skip_low BitVec.extractLsb'_append_eq_right

@[simp] theorem barWith_pending : (barWith o ovr carry gen pending ins outs).extractLsb' 128 16 = pending :=
  skip_low <| skip_low <| skip_low <| skip_low BitVec.extractLsb'_append_eq_right

@[simp] theorem barWith_expected : (barWith o ovr carry gen pending ins outs).extractLsb' 144 16 = o.extractLsb' 144 16 :=
  skip_low <| skip_low <| skip_low <| skip_low <| skip_low BitVec.extractLsb'_append_eq_right

@[simp] theorem barWith_gen : (barWith o ovr carry gen pending ins outs).extractLsb' 160 4 = gen :=
  skip_low <| skip_low <| skip_low <| skip_low <| skip_low <| skip_low BitVec.extractLsb'_append_eq_right

@[simp] theorem barWith_carry :
    (barWith o ovr carry gen pending ins outs).extractLsb' 164 1 = BitVec.ofBool (carry || o.getLsbD 164) :=
  skip_low <| skip_low <| skip_low <| skip_low <| skip_low <| skip_low <| skip_low BitVec.extractLsb'_append_eq_right

@[simp] theorem barWith_scope : (barWith o ovr carry gen pending ins outs).extractLsb' 165 3 = o.extractLsb' 165 3 :=
  skip_low <| skip_low <| skip_low <| skip_low <| skip_low <| skip_low <| skip_low <| skip_low
    BitVec.extractLsb'_append_eq_right

@[simp] theorem barWith_ovr : (barWith o ovr carry gen pending ins outs).extractLsb' 168 8 = ovr :=
  skip_low <| skip_low <| skip_low <| skip_low <| skip_low <| skip_low <| skip_low <| skip_low <| skip_low
    BitVec.extractLsb'_append_eq_right

@[simp] theorem barWith_tag : (barWith o ovr carry gen pending ins outs).extractLsb' 176 80 = o.extractLsb' 176 80 :=
  skip_low <| skip_low <| skip_low <| skip_low <| skip_low <| skip_low <| skip_low <| skip_low <| skip_low
    BitVec.extractLsb'_append_eq_left

end BarWith

/-- What determines an object with fields replaced. -/
theorem eq_barWith {x o : BitVec 256} {ovr : BitVec 8} {gen : BitVec 4} {pending : BitVec 16} {ins outs : BitVec 56}
    (houts : x.extractLsb' 0 56 = outs) (hins : x.extractLsb' 64 56 = ins) (hpending : x.extractLsb' 128 16 = pending)
    (hgen : x.extractLsb' 160 4 = gen) (hovr : x.extractLsb' 168 8 = ovr)
    (hrest : ∀ p ∈ [(56, 8), (120, 8), (144, 16), (164, 1), (165, 3), (176, 80)], x.extractLsb' p.1 p.2 = o.extractLsb' p.1 p.2) :
    x = barWith o ovr false gen pending ins outs := by
  refine eq_of_sections barFields barFields_cover ?_
  simp only [List.forall_mem_cons, List.not_mem_nil, false_imp_iff, implies_true, and_true] at hrest
  simpa [barFields, ofBool_getElem, houts, hins, hpending, hgen, hovr] using hrest

/-! ### Phases (R278) -/

theorem barComplete_eq (o : BitVec 256) : barComplete o = barWith o 0 false (o.extractLsb' 160 4 + 1)
    (o.extractLsb' 144 16 - (o.extractLsb' 168 8).setWidth 16) (o.extractLsb' 64 56) (o.extractLsb' 0 56) := by
  unfold barComplete
  refine eq_barWith ?_ ?_ ?_ ?_ ?_ ?_
  · simp [extractLsb'_bvput_ne]
  · simp [extractLsb'_bvput_ne]
  · rw [extractLsb'_bvput_ne _ (by decide) (by decide), extractLsb'_bvput_same _ (by decide) (by decide) (by decide),
      barExpected, barOvrCount, bvf_eq o (l := 16) rfl, bvf_eq o (l := 8) rfl]
    refine BitVec.eq_of_toNat_eq ?_
    have := (o.extractLsb' 168 8).isLt
    simp only [BitVec.toNat_ofNat, BitVec.toNat_sub, BitVec.toNat_setWidth]
    omega
  · rw [extractLsb'_bvput_ne _ (by decide) (by decide), extractLsb'_bvput_ne _ (by decide) (by decide),
      extractLsb'_bvput_same _ (by decide) (by decide) (by decide), barGen, bvf_eq o (l := 4) rfl]
    refine BitVec.eq_of_toNat_eq ?_
    simp only [BitVec.toNat_ofNat, BitVec.toNat_add]
    rfl
  · exact extractLsb'_bvput_same _ (by decide) (by decide) (by decide) 0
  · simp [extractLsb'_bvput_ne]

/-- Replacing fields twice. -/
theorem barWith_barWith (o : BitVec 256) (ovr ovr' : BitVec 8) (gen gen' : BitVec 4) (p p' : BitVec 16) (ins ins' outs outs' : BitVec 56) :
    barWith (barWith o ovr false gen p ins outs) ovr' false gen' p' ins' outs' = barWith o ovr' false gen' p' ins' outs' := by
  refine eq_barWith (by simp) (by simp) (by simp) (by simp) (by simp) ?_
  simp [ofBool_getElem]

theorem barTest_eq (o : BitVec 256) : barTest o = testRule o := by
  have hz {l : Nat} (x : BitVec l) : x.toNat = 0 ↔ x = 0 := by
    rw [← BitVec.toNat_inj]; rfl
  have hc : (barPending o = 0 ∧ barIn o = 0 ∧ barOut o = 0) ↔
      o.extractLsb' 128 16 = 0 ∧ o.extractLsb' 64 56 = 0 ∧ o.extractLsb' 0 56 = 0 := by
    rw [barPending, barIn, barOut, bvf_eq o (l := 16) rfl, bvf_eq o (l := 56) rfl, bvf_eq o (l := 56) rfl, hz, hz, hz]
  unfold barTest testRule
  rw [if_congr hc rfl rfl]
  split
  next h =>
    obtain ⟨-, h2, h3⟩ := h
    have ho : barComplete o = barWith o 0 false (o.extractLsb' 160 4 + 1)
        (o.extractLsb' 144 16 - (o.extractLsb' 168 8).setWidth 16) 0 0 := by rw [barComplete_eq, h2, h3]
    have ho' : barComplete (barComplete o) = barWith o 0 false (o.extractLsb' 160 4 + 2) (o.extractLsb' 144 16) 0 0 := by
      rw [barComplete_eq (barComplete o), ho, barWith_barWith]
      simp [BitVec.add_assoc]
    have hif : (barPending (barComplete o) = 0 ∧ 0 < barExpected (barComplete o)) ↔
        o.extractLsb' 144 16 - (o.extractLsb' 168 8).setWidth 16 = 0 ∧ o.extractLsb' 144 16 ≠ 0 := by
      rw [barPending, barExpected, bvf_eq _ (l := 16) rfl, bvf_eq _ (l := 16) rfl, Nat.pos_iff_ne_zero, Ne, hz, hz, ho,
        barWith_pending, barWith_expected]
    simp only [ho']
    rw [if_congr hif rfl ho]
  next => rfl

/-! ### The decrement (R247, R284) -/

theorem counts_eq (o : BitVec 256) (a b : Nat) : bvput (bvput o 119 64 a) 55 0 b =
    barWith o (o.extractLsb' 168 8) false (o.extractLsb' 160 4) (o.extractLsb' 128 16) (BitVec.ofNat 56 a) (BitVec.ofNat 56 b) := by
  refine eq_barWith ?_ ?_ ?_ ?_ ?_ ?_
  · exact extractLsb'_bvput_same _ (by decide) (by decide) (by decide) b
  · rw [extractLsb'_bvput_ne _ (by decide) (by decide), extractLsb'_bvput_same _ (by decide) (by decide) (by decide)]
  all_goals simp [extractLsb'_bvput_ne]

/-- An object with its scope and its flag Xf replaced (R276). -/
def barScoped (o : BitVec 256) (xs : BitVec 2) (xf : Bool) : BitVec 256 :=
  o.extractLsb' 168 88 ++ xs ++ BitVec.ofBool (xf || o.getLsbD 165) ++ o.extractLsb' 0 165

theorem barScoped_low (o : BitVec 256) (xs : BitVec 2) (xf : Bool) : (barScoped o xs xf).extractLsb' 0 165 = o.extractLsb' 0 165 :=
  BitVec.extractLsb'_append_eq_right

theorem barScoped_xf (o : BitVec 256) (xs : BitVec 2) (xf : Bool) :
    (barScoped o xs xf).extractLsb' 165 1 = BitVec.ofBool (xf || o.getLsbD 165) :=
  skip_low BitVec.extractLsb'_append_eq_right

theorem barScoped_scope (o : BitVec 256) (xs : BitVec 2) (xf : Bool) : (barScoped o xs xf).extractLsb' 166 2 = xs :=
  skip_low <| skip_low BitVec.extractLsb'_append_eq_right

theorem barScoped_high (o : BitVec 256) (xs : BitVec 2) (xf : Bool) : (barScoped o xs xf).extractLsb' 168 88 = o.extractLsb' 168 88 :=
  skip_low <| skip_low BitVec.extractLsb'_append_eq_left

theorem bvput_scope (o : BitVec 256) (xs : BitVec 2) (xf : Bool) :
    (if xf then bvput (bvput o 167 166 xs.toNat) 165 165 1 else bvput o 167 166 xs.toNat) = barScoped o xs xf := by
  refine eq_of_sections [(0, 165), (165, 1), (166, 2), (168, 88)] ?_ ?_
  · simp only [List.exists_mem_cons_iff, List.not_mem_nil, false_and, exists_false, or_false]
    omega
  · simp only [List.forall_mem_cons, List.not_mem_nil, false_imp_iff, implies_true, and_true, barScoped_low, barScoped_xf, barScoped_scope,
      barScoped_high]
    cases xf with
    | false => simp [extractLsb'_bvput_ne, ofBool_getElem, extractLsb'_bvput_same]
    | true => simp [extractLsb'_bvput_ne, extractLsb'_bvput_same]

/-- A field outside the scope and Xf stays. -/
theorem barScoped_field (o : BitVec 256) (xs : BitVec 2) (xf : Bool) {s l : Nat} (h : s + l ≤ 165 ∨ 168 ≤ s) :
    (barScoped o xs xf).extractLsb' s l = o.extractLsb' s l := by
  rw [← bvput_scope]
  cases xf with
  | false => exact extractLsb'_bvput_ne _ (by decide) (by omega) _
  | true => exact (extractLsb'_bvput_ne _ (by decide) (by omega) _).trans (extractLsb'_bvput_ne _ (by decide) (by omega) _)

/-- The wider of the scope of an object and of an operation (R276). -/
def widerScope (x : BitVec 2) (sc : Scope) : BitVec 2 :=
  let wide : BitVec 2 := match sc with | .core => 0 | .die => 1 | .pkg => 2 | .sys => 3
  if x.ult wide then wide else x

theorem widerScope_toNat (x : BitVec 2) (sc : Scope) : (widerScope x sc).toNat = max x.toNat (scopeNum sc) := by
  revert x; cases sc <;> decide

/-- A count of 56 bits falls. -/
theorem ofNat_count_sub (x : BitVec 56) (i : Nat) :
    BitVec.ofNat 56 ((x.toNat + 2 ^ 56 - i % 2 ^ 56) % 2 ^ 56) = x - BitVec.ofNat 56 i := by
  refine BitVec.eq_of_toNat_eq ?_
  have := x.isLt
  simp only [BitVec.toNat_ofNat, BitVec.toNat_sub]
  omega

theorem barDecrement_eq (o : BitVec 256) (i j : Nat) (sc : Scope) (xf : Bool) :
    barDecrement o i j sc xf = decrementRule o i j sc xf := by
  have hx : max (bvf o 167 166) (scopeNum sc) = (widerScope (o.extractLsb' 166 2) sc).toNat := by
    rw [widerScope_toNat, bvf_eq o (l := 2) rfl]
  have hc (y : BitVec 256) (a b : Nat) : bvput (bvput y 119 64 ((barIn y + 2 ^ 56 - a % 2 ^ 56) % 2 ^ 56)) 55 0
      ((barOut y + 2 ^ 56 - b % 2 ^ 56) % 2 ^ 56) = barWith y (y.extractLsb' 168 8) false (y.extractLsb' 160 4) (y.extractLsb' 128 16)
        (y.extractLsb' 64 56 - BitVec.ofNat 56 a) (y.extractLsb' 0 56 - BitVec.ofNat 56 b) := by
    rw [counts_eq, barIn, barOut, bvf_eq y (l := 56) rfl, bvf_eq y (l := 56) rfl, ofNat_count_sub, ofNat_count_sub]
  simp only [barDecrement, hx, bvput_scope, hc, barTest_eq]
  simp only [barScoped_field _ _ _ (show 168 + 8 ≤ 165 ∨ 168 ≤ 168 by decide), barScoped_field _ _ _ (show 160 + 4 ≤ 165 ∨ 168 ≤ 160 by decide),
    barScoped_field _ _ _ (show 128 + 16 ≤ 165 ∨ 168 ≤ 128 by decide), barScoped_field _ _ _ (show 64 + 56 ≤ 165 ∨ 168 ≤ 64 by decide),
    barScoped_field _ _ _ (show 0 + 56 ≤ 165 ∨ 168 ≤ 0 by decide)]
  rfl

end Sys2Proof.Machine
end

section
/-! SUPPORT. What the acts of threads leave: the engines, the packets, the memory and the scratchpads. -/

namespace Sys2Proof.Machine

/-- Engines, packets, memory and scratchpads stay. -/
structure StoreKept (s s' : State) : Prop where
  engs : s'.engs = s.engs
  packets : s'.packets = s.packets
  mem : s'.mem = s.mem
  scratch : ∀ g, (groupOf s' g).map (·.scratch) = (groupOf s g).map (·.scratch)

namespace StoreKept

theorem refl (s : State) : StoreKept s s := ⟨rfl, rfl, rfl, fun _ => rfl⟩

theorem trans {s s' s'' : State} (h : StoreKept s s') (h' : StoreKept s' s'') : StoreKept s s'' :=
  ⟨h'.engs.trans h.engs, h'.packets.trans h.packets, h'.mem.trans h.mem, fun g => (h'.scratch g).trans (h.scratch g)⟩

theorem foldl {α : Type} {F : State → α → State} (h : ∀ a x, StoreKept a (F a x)) (l : List α) (s : State) :
    StoreKept s (l.foldl F s) := by
  induction l generalizing s with
  | nil => exact refl s
  | cons x l ih => exact (h s x).trans (ih _)

/-- An act that leaves the groups. -/
theorem of_groups {s s' : State} (engs : s'.engs = s.engs) (packets : s'.packets = s.packets) (mem : s'.mem = s.mem)
    (groups : s'.groups = s.groups) : StoreKept s s' := ⟨engs, packets, mem, fun g => by rw [groupOf, groupOf, groups]⟩

end StoreKept

theorem modThread_kept (s : State) (t : ThreadKey) (f : Thread → Thread) : StoreKept s (modThread s t f) := .of_groups rfl rfl rfl rfl

theorem modGroup_kept (s : State) (g : Nat) (f : Group → Group) (h : ∀ x, (f x).scratch = x.scratch) : StoreKept s (modGroup s g f) := by
  refine ⟨rfl, rfl, rfl, fun k => ?_⟩
  rw [groupOf, groupOf, modGroup, tget_tmod]
  split
  next e => subst e; cases tget s.groups g <;> simp [h]
  next => rfl

/-! ### Exceptions (R351 to R353) -/

theorem raiseMsix_kept (s : State) (p : Fin 2) (f : Nat) (v : Fin 64) : StoreKept s (raiseMsix s p f v) := by
  unfold raiseMsix
  dsimp only
  split <;> exact .of_groups rfl rfl rfl rfl

theorem raiseVector_kept (s : State) (t v : Fin 64) : StoreKept s (raiseVector s t v) := by
  have h0 : StoreKept s (if tenantVf s t 0 = 0 then s else raiseMsix s 0 (tenantVf s t 0) v) := by
    split
    · exact .refl s
    · exact raiseMsix_kept ..
  unfold raiseVector
  dsimp only
  split
  · exact h0
  · exact h0.trans (raiseMsix_kept ..)

theorem logFaults_kept (s : State) (fs : List FaultRec) : StoreKept s (logFaults s fs) := by
  rw [logFaults_rest]
  exact .of_groups rfl rfl rfl rfl

theorem handlerFault_kept (s : State) (c : CoreId) (n : Nat) : StoreKept s (handlerFault s c n) :=
  (StoreKept.of_groups rfl rfl rfl rfl : StoreKept s (modCtx (endHandler s c) _ _)).trans (raiseVector_kept ..)

theorem takeFaults_kept (s : State) (c : CoreId) (fs : List FaultRec) : StoreKept s (takeFaults s c fs) := by
  have hlog := logFaults_kept s fs
  have hstop : StoreKept s (modCore (fs.foldl addEntry (stopThreads (logFaults s fs) c)) c fun k => { k with stopped := true }) := by
    rw [foldl_addEntry_rest]
    exact hlog.trans (.of_groups rfl rfl rfl rfl)
  unfold takeFaults
  dsimp only
  split
  · exact hlog.trans (handlerFault_kept ..)
  · split
    · exact hstop
    · exact hstop.trans (.of_groups rfl rfl rfl rfl)

/-! ### Waking and ending (R93, R100) -/

theorem resetPark_kept (s : State) (g : Nat) : StoreKept s (resetPark s g) := modGroup_kept s g _ fun _ => rfl

theorem wakeThread_kept (s : State) (t : ThreadKey) (r : Nat) : StoreKept s (wakeThread s t r) := by
  unfold wakeThread
  extract_lets x
  have hx : StoreKept s x := by
    unfold x
    split
    · exact resetPark_kept ..
    · exact .refl s
  clear_value x
  have hm (f : Thread → Thread) : StoreKept s (modThread x t f) := hx.trans (modThread_kept ..)
  have hf (f : Thread → Thread) (c : CoreId) (fs : List FaultRec) : StoreKept s (takeFaults (modThread x t f) c fs) :=
    (hm f).trans (takeFaults_kept ..)
  split
  next => exact hx
  next th _ =>
    extract_lets th1
    split
    next => split; exacts [hf .., hm ..]
    next => split; exacts [hf .., hm ..]
    next => exact hm _
    next => exact hx

theorem deliverTo_kept (s : State) (t : ThreadKey) (tag : Nat) (v : Word) : StoreKept s (deliverTo s t tag v) := modThread_kept ..

theorem endThread_kept (s : State) (t : ThreadKey) : StoreKept s (endThread s t) := by
  have hw (th : Thread) : StoreKept s (dropWait s th) := by
    unfold dropWait
    split <;> exact .of_groups rfl rfl rfl rfl
  unfold endThread
  split
  next => exact .refl s
  next th _ =>
    extract_lets x th'
    split
    · exact (hw th).trans (.of_groups rfl rfl rfl rfl)
    · exact (hw th).trans (.of_groups rfl rfl rfl rfl)

/-! ### What accepted accesses end (R94, R167, R249) -/

theorem finishExits_kept (s : State) : StoreKept s (finishExits s) := by
  refine .foldl (fun a e => ?_) _ s
  split
  · exact endThread_kept ..
  · exact .refl a

theorem settleCrucible_kept (s : State) : StoreKept s (settleCrucible s) := .foldl (fun _ _ => wakeThread_kept ..) _ s

theorem settleToken0_kept (s : State) : StoreKept s (settleToken0 s) := by
  refine .foldl (fun a t => ?_) _ s
  split
  · exact (deliverTo_kept ..).trans (wakeThread_kept ..)
  · exact .refl a

theorem settleAccess_kept (s : State) : StoreKept s (settleAccess s) :=
  (finishExits_kept s).trans ((settleCrucible_kept _).trans (settleToken0_kept _))

end Sys2Proof.Machine
end

section
/-! SUPPORT. What the caches and the packets leave, and how packets land (R191 to R194, R219, R372, R394). -/

namespace Sys2Proof.Machine

/-! ### The rest of the state -/

/-- A state with the memory system of another: memory, caches, watches, packets, requests and what the engines watch. -/
def withMemory (s x : State) : State :=
  { s with
    mem := x.mem, packets := x.packets, engs := x.engs, dies := x.dies, cores := x.cores, watches := x.watches
    homeWatches := x.homeWatches, requests := x.requests, arrivals := x.arrivals, dramBanks := x.dramBanks }

/-- An engine without the addresses that programs have written under it (R271). -/
def Eng.untainted (e : Eng) : Eng := { e with taintPa := [] }

/-- An act of the memory system: only it changes, and of the engines only what they watch. -/
structure MemoryAct (s s' : State) : Prop where
  rest : s' = withMemory s s'
  engs : ∀ op, (tget s'.engs op).map Eng.untainted = (tget s.engs op).map Eng.untainted

namespace MemoryAct

theorem refl (s : State) : MemoryAct s s := ⟨rfl, fun _ => rfl⟩

theorem trans {s s' s'' : State} (h : MemoryAct s s') (h' : MemoryAct s' s'') : MemoryAct s s'' := by
  refine ⟨?_, fun op => (h'.engs op).trans (h.engs op)⟩
  rw [h'.rest, h.rest]
  rfl

theorem foldl {α : Type} {F : State → α → State} (h : ∀ a x, MemoryAct a (F a x)) (l : List α) (s : State) :
    MemoryAct s (l.foldl F s) := by
  induction l generalizing s with
  | nil => exact refl s
  | cons x l ih => exact (h s x).trans (ih _)

/-- An act that leaves the engines. -/
theorem of_engs {s s' : State} (rest : s' = withMemory s s') (engs : s'.engs = s.engs) : MemoryAct s s' :=
  ⟨rest, fun op => by rw [engs]⟩

variable {s s' : State} (h : MemoryAct s s')
include h

theorem groups : s'.groups = s.groups := by rw [h.rest]; rfl
theorem seq : s'.seq = s.seq := by rw [h.rest]; rfl

end MemoryAct

theorem modCore_act (s : State) (c : CoreId) (f : Core → Core) : MemoryAct s (modCore s c f) := .of_engs rfl rfl

/-! ### Caches and watches -/

/-- An act on the caches and the watches of the dies: only they change. -/
def CacheAct (s s' : State) : Prop := s' = { s with dies := s'.dies, watches := s'.watches, homeWatches := s'.homeWatches }

namespace CacheAct

theorem refl (s : State) : CacheAct s s := rfl

theorem trans {s s' s'' : State} (h : CacheAct s s') (h' : CacheAct s' s'') : CacheAct s s'' := by
  unfold CacheAct at *
  rw [h', h]

theorem foldl {α : Type} {F : State → α → State} (h : ∀ a x, CacheAct a (F a x)) (l : List α) (s : State) :
    CacheAct s (l.foldl F s) := by
  induction l generalizing s with
  | nil => exact refl s
  | cons x l ih => exact (h s x).trans (ih _)

variable {s s' : State} (h : CacheAct s s')
include h

theorem act : MemoryAct s s' := by
  refine .of_engs ?_ ?_
  · rw [h]; rfl
  · rw [h]

theorem engs : s'.engs = s.engs := by rw [h]
theorem packets : s'.packets = s.packets := by rw [h]
theorem mem : s'.mem = s.mem := by rw [h]
theorem requests : s'.requests = s.requests := by rw [h]

end CacheAct

theorem modDie_act (s : State) (d : Fin 8) (f : Die → Die) : CacheAct s (modDie s d f) := rfl

theorem hitWatches_act (s : State) (d : Fin 8) (ln : Nat) (b : Bool) : CacheAct s (hitWatches s d ln b) := rfl

theorem l2Drop_act (s : State) (d : Fin 8) (ln : Nat) : CacheAct s (l2Drop s d ln) := by
  unfold l2Drop
  split
  · exact .refl s
  · split <;> exact modDie_act ..

theorem markAbsent_act (s : State) (d : Fin 8) (ln : Nat) : CacheAct s (markAbsent s d ln) := by
  unfold markAbsent
  split
  · exact .refl s
  · split
    · exact l2Drop_act ..
    · exact modDie_act ..

theorem homeTouched_act (s : State) (ln : Nat) : CacheAct s (homeTouched s ln) :=
  (CacheAct.foldl (fun _ _ => (hitWatches_act ..).trans (markAbsent_act ..)) _ s).trans rfl

/-- Behind the write itself only caches and watches change. -/
theorem homeWrite_act (s : State) (loc : Nat) (l : List Byte) :
    CacheAct { s with mem := memPutBytes s.mem loc l } (homeWrite s loc l) := .foldl homeTouched_act _ _

/-! ### The memory system -/

theorem taintMem_act (s : State) (id loc n : Nat) : MemoryAct s (taintMem s id loc n) := by
  refine ⟨rfl, fun op => ?_⟩
  rw [taintMem, tget_map s.engs _ (fun k e => if k < id ∧ (e.state = .pending ∨ e.state = .flight) then
    { e with taintPa := e.taintPa ++ rangeFrom loc n } else e)]
  · cases tget s.engs op with
    | none => rfl
    | some e => simp only [Option.map_some]; split <;> rfl
  · intro k v; dsimp only; split <;> rfl

theorem landPacket_act (s : State) (id : Nat) (k : Packet) : MemoryAct s (landPacket s id k) := by
  unfold landPacket
  extract_lets n v s1 s2
  let s0 : State := { s with packets := tset s.packets id { k with applied := true } }
  have h0 : MemoryAct s { s0 with mem := memPutBytes s0.mem k.pa (natBytes n v.toNat) } := .of_engs rfl rfl
  have h1 : MemoryAct s s1 := h0.trans (homeWrite_act s0 k.pa (natBytes n v.toNat)).act
  have h2 : MemoryAct s s2 := by
    unfold s2
    split
    · exact h1.trans (taintMem_act ..)
    · exact h1
  exact h2.trans (.of_engs rfl rfl)

theorem landOrdered_act (n : Nat) (s : State) (id : Nat) : MemoryAct s (landOrdered n s id) := by
  induction n generalizing s id with
  | zero => exact .refl s
  | succ n ih =>
    unfold landOrdered
    split
    next => exact .refl s
    next k _ =>
      extract_lets s1
      have h1 : MemoryAct s s1 := .foldl ih _ s
      split
      · split
        · exact h1
        · exact h1.trans (landPacket_act ..)
      · exact h1

theorem behindPackets_act (s : State) (d : Fin 8) (k : Fin 16) : MemoryAct s (behindPackets s d k) :=
  .foldl (landOrdered_act _) _ s

theorem writeBack_act (s : State) (d : Fin 8) (ln : Nat) : MemoryAct s (writeBack s d ln) := by
  unfold writeBack
  split
  next => exact .refl s
  next x _ =>
    split
    · exact .refl s
    · extract_lets s0 s1
      have h1 : MemoryAct s s1 := (behindPackets_act s d _).trans (.of_engs rfl rfl)
      refine (h1.trans ?_).trans (homeTouched_act ..).act
      rw [postPlain_rest]
      exact .of_engs rfl rfl

theorem evictLine_act (s : State) (d : Fin 8) (ln : Nat) : MemoryAct s (evictLine s d ln) :=
  (writeBack_act ..).trans (l2Drop_act ..).act

theorem writeBackAll_act (s : State) (d : Fin 8) (p : Nat → L2Line → Bool) : MemoryAct s (writeBackAll s d p) :=
  .foldl (fun _ _ => writeBack_act ..) _ s

theorem epochAdvance_act (s : State) (d : Fin 8) : MemoryAct s (epochAdvance s d) := by
  unfold epochAdvance
  extract_lets s1 s2
  have h1 : MemoryAct s s1 := writeBackAll_act ..
  have h2 : MemoryAct s1 s2 := .foldl (fun _ _ => (l2Drop_act ..).act) _ s1
  exact (h1.trans h2).trans (modDie_act ..).act

theorem clearL1_act (s : State) (c : CoreId) : MemoryAct s (clearL1 s c) := modCore_act ..

theorem acquireAct_act (s : State) (c : CoreId) (sc : Scope) : MemoryAct s (acquireAct s c sc) := by
  unfold acquireAct
  split
  · exact .refl s
  · exact clearL1_act ..
  · exact (clearL1_act ..).trans (epochAdvance_act ..)
  · exact (clearL1_act ..).trans (epochAdvance_act ..)

theorem homePrepare_act (s : State) (c : CoreId) (l : List Nat) : MemoryAct s (homePrepare s c l) :=
  .foldl (fun _ _ => (evictLine_act ..).trans (modCore_act ..)) l s

/-! ### Landing -/

/-- A packet that has landed. -/
def landed (x : Packet) : Packet := { x with applied := true }

@[simp] theorem landed_landed (x : Packet) : landed (landed x) = landed x := rfl

theorem landed_of_applied {x : Packet} (h : x.applied = true) : landed x = x := by
  obtain ⟨⟩ := x
  cases h
  rfl

/-- Packets land: each stays or lands, and memory changes under them only (R372). -/
structure Lands (s s' : State) : Prop where
  packets : ∀ {p x}, tget s.packets p = some x → tget s'.packets p = some x ∨ tget s'.packets p = some (landed x)
  waiting : ∀ e ∈ s'.packets, e.2.applied = false → e ∈ s.packets
  mem : ∀ a, memByte s'.mem a = memByte s.mem a ∨ UnderPacket s a

namespace Lands

theorem refl (s : State) : Lands s s := ⟨.inl, fun _ he _ => he, fun _ => .inl rfl⟩

theorem trans {s s' s'' : State} (h : Lands s s') (h' : Lands s' s'') : Lands s s'' := by
  refine ⟨fun hx => ?_, fun e he ha => h.waiting e (h'.waiting e he ha) ha, fun a => ?_⟩
  · rcases h.packets hx with hx' | hx'
    · exact h'.packets hx'
    · exact .inr ((h'.packets hx').elim id id)
  · rcases h'.mem a with hm | ⟨k, hk, ha, hr⟩
    · rw [hm]; exact h.mem a
    · exact .inr ⟨k, h.waiting k hk ha, ha, hr⟩

theorem foldl {α : Type} {F : State → α → State} (h : ∀ a x, Lands a (F a x)) (l : List α) (s : State) :
    Lands s (l.foldl F s) := by
  induction l generalizing s with
  | nil => exact refl s
  | cons x l ih => exact (h s x).trans (ih _)

end Lands

theorem mem_of_tget {K V : Type} [DecidableEq K] {t : Tab K V} {k : K} {v : V} (h : tget t k = some v) : (k, v) ∈ t := by
  induction t with
  | nil => cases h
  | cons e t ih =>
    unfold tget at h
    split at h
    next hk => cases h; rw [← hk]; exact List.mem_cons_self
    next => exact List.mem_cons_of_mem _ (ih h)

theorem eq_or_mem_of_mem_tset {K V : Type} [DecidableEq K] {t : Tab K V} {k : K} {v : V} {e : K × V} (h : e ∈ tset t k v) :
    e = (k, v) ∨ e ∈ t := by
  induction t with
  | nil => exact .inl (List.mem_singleton.mp h)
  | cons x t ih =>
    unfold tset at h
    split at h
    · rcases List.mem_cons.mp h with h | h
      · exact .inl h
      · exact .inr (List.mem_cons_of_mem _ h)
    · rcases List.mem_cons.mp h with h | h
      · exact .inr (h ▸ List.mem_cons_self)
      · exact (ih h).imp_right (List.mem_cons_of_mem _)

/-- One packet lands: it is marked, its bytes are written, and its request arrives (R364, R372). -/
theorem landPacket_effect (s : State) (id : Nat) (k : Packet) :
    (landPacket s id k).packets = tset s.packets id (landed k) ∧
    (landPacket s id k).mem = memPutBytes s.mem k.pa (natBytes (packetBytes k)
      (packetValue k (BitVec.ofNat 64 (memNat s.mem k.pa (packetBytes k)))).toNat) ∧
    ∃ q, (landPacket s id k).requests = s.requests ++ [q] ∧ q.op = some id ∧ q.pa = k.pa ∧ q.len = packetBytes k ∧ q.cls = k.cls := by
  unfold landPacket
  extract_lets n v s1 s2
  have h1 := homeWrite_act { s with packets := tset s.packets id { k with applied := true } } k.pa (natBytes n v.toNat)
  have h2 : s2.packets = s1.packets ∧ s2.mem = s1.mem ∧ s2.requests = s1.requests := by
    unfold s2
    split <;> exact ⟨rfl, rfl, rfl⟩
  obtain ⟨hp, hm, hr⟩ := h2
  refine ⟨hp.trans h1.packets, hm.trans h1.mem, _, congrArg (· ++ [_]) (hr.trans h1.requests), rfl, rfl, rfl, rfl⟩

theorem landPacket_lands {s : State} {id : Nat} {k : Packet} (hk : tget s.packets id = some k) (ha : k.applied = false) :
    Lands s (landPacket s id k) := by
  obtain ⟨hp, hm, -⟩ := landPacket_effect s id k
  refine ⟨fun {p x} hx => ?_, fun e he hea => ?_, fun a => ?_⟩
  · rw [hp, tget_tset]
    split
    next h => subst h; rw [hk] at hx; cases hx; exact .inr rfl
    next => exact .inl hx
  · rw [hp] at he
    rcases eq_or_mem_of_mem_tset he with rfl | he
    · cases hea
    · exact he
  · rw [hm, memByte_memPutBytes, natBytes_length]
    split
    next h => exact .inr ⟨_, mem_of_tget hk, ha, h⟩
    next => exact .inl rfl

theorem landOrdered_lands (n : Nat) (s : State) (id : Nat) : Lands s (landOrdered n s id) := by
  induction n generalizing s id with
  | zero => exact .refl s
  | succ n ih =>
    unfold landOrdered
    split
    next => exact .refl s
    next k _ =>
      extract_lets s1
      have h1 : Lands s s1 := .foldl ih _ s
      split
      next x hx =>
        split
        next => exact h1
        next ha => exact h1.trans (landPacket_lands hx (Bool.eq_false_iff.mpr ha))
      next => exact h1

/-- A packet named lands. -/
theorem landOrdered_self {n : Nat} {s : State} {id : Nat} {k : Packet} (hk : tget s.packets id = some k) :
    tget (landOrdered (n + 1) s id).packets id = some (landed k) := by
  unfold landOrdered
  split
  next h => rw [hk] at h; cases h
  next k' hk' =>
    extract_lets s1
    have h1 : Lands s s1 := .foldl (landOrdered_lands n) _ s
    rcases h1.packets hk with hx | hx
    · simp only [hx]
      split
      next ha => rw [hx, landed_of_applied ha]
      next => rw [(landPacket_effect s1 id k).1, tget_tset_self]
    · simp only [hx, landed, if_true]

theorem behindPackets_lands (s : State) (d : Fin 8) (k : Fin 16) : Lands s (behindPackets s d k) :=
  .foldl (landOrdered_lands _) _ s

/-- Landing one packet after another lands each that is named. -/
theorem foldl_landOrdered_mem {n : Nat} {l : List Nat} {p : Nat} (hp : p ∈ l) {s : State} {x : Packet} (hx : tget s.packets p = some x) :
    tget (l.foldl (landOrdered (n + 1)) s).packets p = some (landed x) := by
  obtain ⟨l1, l2, rfl⟩ := List.append_of_mem hp
  rw [List.foldl_append, List.foldl_cons]
  have h2 : tget (landOrdered (n + 1) (l1.foldl (landOrdered (n + 1)) s) p).packets p = some (landed x) := by
    rcases (Lands.foldl (landOrdered_lands (n + 1)) l1 s).packets hx with h | h
    · exact landOrdered_self h
    · exact landOrdered_self h (k := landed x)
  exact ((Lands.foldl (landOrdered_lands (n + 1)) l2 _).packets h2).elim id id

/-- The packets that a die has sent to a home land before its read or write-back there (R394). -/
theorem behindPackets_landed {s : State} {d : Fin 8} {k : Fin 16} {p : Nat} {x : Packet} (hx : tget s.packets p = some x)
    (hk : x.stack = k) (hd : ∃ y ∈ x.sent, y.1 = d) : tget (behindPackets s d k).packets p = some (landed x) := by
  by_cases ha : x.applied = true
  · rcases (behindPackets_lands s d k).packets hx with h | h
    · rw [h, landed_of_applied ha]
    · exact h
  · obtain ⟨n, hn⟩ : ∃ n, s.packets.length = n + 1 :=
      Nat.exists_eq_succ_of_ne_zero (List.length_pos_of_mem (mem_of_tget hx)).ne'
    rw [behindPackets, hn]
    refine foldl_landOrdered_mem ?_ hx
    refine List.mem_map.mpr ⟨(p, x), List.mem_filter.mpr ⟨mem_of_tget hx, ?_⟩, rfl⟩
    simpa [ha, hk] using hd

theorem behindPackets_nothing {s : State} {d : Fin 8} (h : NothingSent s d) (k : Fin 16) : behindPackets s d k = s := by
  have hnil : (tkeys s.packets fun _ x => !x.applied && x.stack == k && x.sent.any fun y => y.1 == d) = [] := by
    rw [tkeys, List.map_eq_nil_iff, List.filter_eq_nil_iff]
    intro e he hp
    simp only [Bool.and_eq_true, Bool.not_eq_true', List.any_eq_true, beq_iff_eq] at hp
    obtain ⟨⟨ha, -⟩, y, hy, hyd⟩ := hp
    exact h e he ha y hy hyd
  rw [behindPackets, hnil]
  rfl

/-! ### Write-backs (R191) -/

/-- Dirty words of a line go home: another byte stays. -/
theorem memByte_putDirty (m : Memory) (ln : Nat) (x : L2Line) (a : Nat) : memByte (putDirty m ln x) a = memByte m a ∨
    (a / 128 = ln ∧ x.dirty.getLsbD (a % 128 / 4) = true ∧ memByte (putDirty m ln x) a = x.data.getD (a % 128) 0) := by
  unfold putDirty
  refine List.foldlRecOn (motive := fun m' => memByte m' a = memByte m a ∨
    (a / 128 = ln ∧ x.dirty.getLsbD (a % 128 / 4) = true ∧ memByte m' a = x.data.getD (a % 128) 0))
    (List.range 32) _ (.inl rfl) fun m' ih i hi => ?_
  split
  next hd =>
    rw [memByte_memPutBytes]
    split
    next h =>
      have hlen : ((x.data.drop (4 * i)).take 4).length ≤ 4 := List.length_take_le ..
      have hi' := List.mem_range.mp hi
      refine .inr ⟨by omega, ?_, ?_⟩
      · rwa [show a % 128 / 4 = i by omega]
      · rw [show a - (ln * 128 + 4 * i) = a % 128 - 4 * i by omega]
        simp only [List.getD_eq_getElem?_getD]
        rw [List.getElem?_take_of_lt (by omega), List.getElem?_drop, show 4 * i + (a % 128 - 4 * i) = a % 128 by omega]
    next => exact ih
  next => exact ih

theorem writeBack_mem (s : State) (d : Fin 8) (ln : Nat) (a : Nat) : memByte (writeBack s d ln).mem a = memByte s.mem a ∨
    UnderPacket s a ∨ ∃ x, l2Of s d (a / 128) = some x ∧ x.dirty.getLsbD (a % 128 / 4) = true ∧
      memByte (writeBack s d ln).mem a = x.data.getD (a % 128) 0 := by
  unfold writeBack
  split
  next => exact .inl rfl
  next x hx =>
    split
    · exact .inl rfl
    · extract_lets s0 s1
      have hm : (homeTouched (postPlain s1 d x.ctx x.cls (fillAsks (ln * 128))) ln).mem = putDirty s0.mem ln x := by
        rw [(homeTouched_act ..).mem, postPlain_rest]
        rfl
      rw [hm]
      rcases memByte_putDirty s0.mem ln x a with h | ⟨hln, hd, h⟩
      · rw [h]
        exact ((behindPackets_lands s d _).mem a).imp_right .inl
      · exact .inr (.inr ⟨x, by rw [hln, hx], hd, h⟩)

theorem evictLine_writtenBack (s : State) (d : Fin 8) (ln : Nat) : WrittenBack s (evictLine s d ln) d := by
  intro a
  rw [evictLine, (l2Drop_act ..).mem]
  exact writeBack_mem s d ln a

end Sys2Proof.Machine
end

section
/-! SUPPORT. A decrement of a barrier object, and what the test of its waiters leaves (R247, R279, R284). -/

namespace Sys2Proof.Machine

/-! ### What the test of waiters leaves -/

/-- The engines stay but for what they watch, and the scratchpads stay. -/
structure EngineKept (s s' : State) : Prop where
  engs : ∀ op, (tget s'.engs op).map Eng.untainted = (tget s.engs op).map Eng.untainted
  scratch : ∀ g, (groupOf s' g).map (·.scratch) = (groupOf s g).map (·.scratch)

namespace EngineKept

theorem refl (s : State) : EngineKept s s := ⟨fun _ => rfl, fun _ => rfl⟩

theorem trans {s s' s'' : State} (h : EngineKept s s') (h' : EngineKept s' s'') : EngineKept s s'' :=
  ⟨fun op => (h'.engs op).trans (h.engs op), fun g => (h'.scratch g).trans (h.scratch g)⟩

theorem foldl {α : Type} {F : State → α → State} (h : ∀ a x, EngineKept a (F a x)) (l : List α) (s : State) :
    EngineKept s (l.foldl F s) := by
  induction l generalizing s with
  | nil => exact refl s
  | cons x l ih => exact (h s x).trans (ih _)

end EngineKept

theorem StoreKept.engineKept {s s' : State} (h : StoreKept s s') : EngineKept s s' := ⟨fun op => by rw [h.engs], h.scratch⟩

theorem MemoryAct.engineKept {s s' : State} (h : MemoryAct s s') : EngineKept s s' :=
  ⟨h.engs, fun g => by rw [groupOf, groupOf, h.groups]⟩

theorem barDeliver_kept (s : State) (t : ThreadKey) (tag : Nat) (v : Word) : StoreKept s (barDeliver s t tag v) := by
  unfold barDeliver
  split
  · exact .of_groups rfl rfl rfl rfl
  · exact deliverTo_kept ..

theorem barReturn_kept (s : State) (t : ThreadKey) (b : BarObj) (o : BitVec 256) (tag : Nat) : EngineKept s (barReturn s t b o tag) :=
  (barDeliver_kept ..).engineKept.trans ((acquireAct_act ..).engineKept.trans (wakeThread_kept ..).engineKept)

theorem testWaiter_kept (s : State) (t : ThreadKey) : EngineKept s (testWaiter s t) := by
  unfold testWaiter
  split
  next b gen held tag _ =>
    extract_lets gid o
    split
    · split
      · exact (modThread_kept ..).engineKept
      · exact .refl s
    · split
      · exact (modThread_kept ..).engineKept
      · exact barReturn_kept ..
  next => exact .refl s

theorem queueSaved_kept (s : State) (b : BarObj) : EngineKept s (queueSaved s b) := by
  unfold queueSaved
  split
  · exact .refl s
  next pa =>
    refine ⟨fun _ => rfl, fun g => ?_⟩
    rw [groupOf, groupOf, tget_map s.groups _ (fun k x => if x.phase = .parkSaved ∧
      ((tget x.gens pa).map fun n => n != barGen (barRead s k (.carve pa))) = some true then { x with queued := true } else x)]
    · cases tget s.groups g with
      | none => rfl
      | some x => simp only [Option.map_some]; split <;> rfl
    · intro k v
      dsimp only
      split <;> rfl

theorem testWaiters_kept (s : State) (gid : Nat) (b : BarObj) : EngineKept s (testWaiters s gid b) :=
  (EngineKept.foldl testWaiter_kept _ s).trans (queueSaved_kept ..)

/-! ### The object in memory -/

/-- A number is read back as it was written. -/
theorem memNat_memPut (m : Memory) (a n v : Nat) : memNat (memPut m a n v) a n = v % 256 ^ n := by
  have low (m : Memory) (a b n v : Nat) (h : b < a) : memByte (memPut m a n v) b = memByte m b := by
    rw [memByte_memPut, if_neg (by omega)]
  induction n generalizing m a v with
  | zero => simp [memNat, Nat.mod_one]
  | succ n ih =>
    rw [memNat, memPut, low _ _ _ _ _ (Nat.lt_succ_self a), memByte_memSet, if_pos rfl, ih, BitVec.toNat_ofNat,
      (Nat.pow_succ' : 256 ^ (n + 1) = 256 * 256 ^ n)]
    exact Nat.mod_mul.symm

theorem barRead_congr {s s' : State} {gid off : Nat} (h : (groupOf s' gid).map (·.scratch) = (groupOf s gid).map (·.scratch)) :
    barRead s' gid (.scratch off) = barRead s gid (.scratch off) := by
  have e (x : State) : barRead x gid (.scratch off) =
      BitVec.ofNat 256 ((((groupOf x gid).map (·.scratch)).map fun m => memNat m off 32).getD 0) := by
    rw [Option.map_map]; rfl
  rw [e, e, h]

/-- An object in scratchpad is read back as it was written. -/
theorem barRead_barWrite {s : State} {gid off : Nat} {g : Group} (hg : groupOf s gid = some g) (o : BitVec 256) :
    barRead (barWrite s gid (.scratch off) o) gid (.scratch off) = o := by
  have hg' : groupOf (barWrite s gid (.scratch off) o) gid = some { g with scratch := memPut g.scratch off 32 o.toNat } := by
    rw [groupOf, barWrite, modGroup, tget_tmod_self, ← groupOf, hg]
    rfl
  rw [barRead, hg', Option.map_some, Option.getD_some, memNat_memPut, show 256 ^ 32 = 2 ^ 256 by norm_num, Nat.mod_eq_of_lt o.isLt,
    BitVec.ofNat_toNat, BitVec.setWidth_eq]

theorem barWrite_engs (s : State) (gid : Nat) (b : BarObj) (o : BitVec 256) : (barWrite s gid b o).engs = s.engs := by
  cases b with
  | scratch off => rfl
  | carve pa => exact (hitWatches_act ..).engs

/-! ### The decrement -/

theorem barDecrease_eq (s : State) (gid : Nat) (b : BarObj) (i j : Nat) (sc : Scope) (xf : Bool) : barDecrease s gid b i j sc xf =
    testWaiters (barWrite s gid b (decrementRule (barRead s gid b) i j sc xf)) gid b := by
  rw [barDecrease, barDecrement_eq]

theorem barDecrease_engs (s : State) (gid : Nat) (b : BarObj) (i j : Nat) (sc : Scope) (xf : Bool) (op : Nat) :
    (tget (barDecrease s gid b i j sc xf).engs op).map Eng.untainted = (tget s.engs op).map Eng.untainted := by
  rw [barDecrease, (testWaiters_kept ..).engs, barWrite_engs]

theorem barRead_barDecrease {s : State} {gid off : Nat} {g : Group} (hg : groupOf s gid = some g) (i j : Nat) (sc : Scope) (xf : Bool) :
    barRead (barDecrease s gid (.scratch off) i j sc xf) gid (.scratch off) =
      decrementRule (barRead s gid (.scratch off)) i j sc xf := by
  rw [barDecrease_eq, barRead_congr ((testWaiters_kept ..).scratch gid), barRead_barWrite hg]

/-- A decrement on an Absent line stands out (R145, R247). -/
theorem payDue_absent {gid : Nat} {s : State} {x : BarDue} {g : Group} (hg : groupOf s gid = some g)
    (h : lineAbsent s gid (x.off / 64) = true) : groupOf (payDue gid s x) gid = some { g with dues := g.dues ++ [x] } := by
  rw [payDue, if_pos h, groupOf, modGroup, tget_tmod_self, ← groupOf, hg]
  rfl

theorem payDue_present {gid : Nat} {s : State} {x : BarDue} (h : lineAbsent s gid (x.off / 64) = false) :
    payDue gid s x = barDecrease s gid (.scratch x.off) x.inB x.outB x.scope x.xf := by
  rw [payDue, h, if_neg Bool.false_ne_true]

/-! ### ENGINE_DECREMENT (R247, R284) -/

/-- A test of all entries does not see a change that it does not test. -/
theorem any_tset {K V : Type} [DecidableEq K] {p : K × V → Bool} {k : K} {v w : V} (hp : p (k, w) = p (k, v)) {t : Tab K V}
    (h : tget t k = some v) : (tset t k w).any p = t.any p := by
  induction t with
  | nil => cases h
  | cons e t ih =>
    unfold tget at h
    unfold tset
    split at h
    next hk => cases h; rw [if_pos hk, List.any_cons, List.any_cons, hp, ← hk]
    next hk => rw [if_neg hk, List.any_cons, List.any_cons, ih h]

theorem any_tmod {K V : Type} [DecidableEq K] {p : K × V → Bool} {k : K} {f : V → V} (h : ∀ v, p (k, f v) = p (k, v)) (t : Tab K V) :
    (tmod t k f).any p = t.any p := by
  unfold tmod
  split
  next hv => exact any_tset (h _) hv
  next => rfl

/-- The lines stay Absent, or Present, while units are counted. -/
theorem lineAbsent_modEng (s : State) (op gid line : Nat) (f : Eng → Eng) (h : ∀ x, (f x).gid = x.gid ∧ (f x).cleared = x.cleared) :
    lineAbsent (modEng s op f) gid line = lineAbsent s gid line :=
  any_tmod (fun v => by rw [(h v).1, (h v).2]) s.engs

theorem barHeld_scratch {s : State} {e : Eng} {off : Nat} (h : e.bar = some (.scratch off)) :
    barHeld s e (fun _ => true) = lineAbsent s e.gid (off / 64) := by
  unfold barHeld
  rw [h]
  simp only [Bool.true_and]
  rfl

theorem countBar_eq {s : State} {e : Eng} {b : BarObj} (h : e.bar = some b) (hheld : barHeld s e (fun _ => true) = false) {i j : Nat}
    (hij : i ≠ 0 ∨ j ≠ 0) : countBar s e i j false = barDecrease s e.gid b i j e.scope false := by
  have h0 : ¬ (i = 0 ∧ j = 0 ∧ false = false) := by omega
  unfold countBar
  rw [h]
  refine (if_neg h0).trans ?_
  cases b with
  | scratch off => exact payDue_present (x := ⟨off, i, j, e.scope, false⟩) (barHeld_scratch h ▸ hheld)
  | carve pa => rfl

end Sys2Proof.Machine
end

section
/-! SUPPORT. ENGINE_DECREMENT, and the decrements that stand out (R145, R247, R284). -/

namespace Sys2Proof.Machine

/-- A grouping of units may be counted now (R247). -/
def DecrementDue (s : State) (e : Eng) (i j : Nat) : Prop :=
  e.kind.isTile = false ∧ e.state = .flight ∧ e.inDone + i ≤ (countable e).1 ∧ e.outDone + j ≤ (countable e).2 ∧
    i % unitBytes e.dst = 0 ∧ j % unitBytes e.src = 0 ∧ barHeld s e (fun _ => true) = false

/-- The counts of a transfer advance. -/
def counted (s : State) (op i j : Nat) : State := modEng s op fun x => { x with inDone := x.inDone + i, outDone := x.outDone + j }

theorem exec_engineDecrement {s : State} {op : Nat} {e : Eng} (he : tget s.engs op = some e) (i j : Nat) :
    (DecrementDue s e i j → exec (.engineDecrement op i j) s = .next (countBar (counted s op i j) e i j false)) ∧
    (¬ DecrementDue s e i j → exec (.engineDecrement op i j) s = .next s) := by
  have hx : exec (.engineDecrement op i j) s = execEngineDecrement op i j s := rfl
  have hd : DecrementDue s e i j ↔ ¬ (e.kind.isTile || e.state != .flight || e.inDone + i > (countable e).1 ||
      e.outDone + j > (countable e).2 || i % unitBytes e.dst != 0 || j % unitBytes e.src != 0 || barHeld s e (fun _ => true)) = true := by
    simp [DecrementDue, and_assoc]
  rw [hx, hd, not_not]
  unfold execEngineDecrement
  rw [he]
  exact ⟨fun h => if_neg h, fun h => if_pos h⟩

theorem barHeld_iff {s : State} {e : Eng} {off : Nat} (h : e.bar = some (.scratch off)) :
    barHeld s e (fun _ => true) = true ↔ ∃ o ∈ s.engs, o.2.gid = e.gid ∧ off / 64 ∈ o.2.cleared := by
  rw [barHeld_scratch h]
  simp [lineAbsent]

/-- Counting leaves whether the object is held. -/
theorem barHeld_counted (s : State) (op i j : Nat) (e : Eng) :
    barHeld (counted s op i j) e (fun _ => true) = barHeld s e (fun _ => true) := by
  cases h : e.bar with
  | none => unfold barHeld; rw [h]
  | some b =>
    cases b with
    | scratch off => rw [barHeld_scratch h, barHeld_scratch h]; exact lineAbsent_modEng _ _ _ _ _ fun _ => ⟨rfl, rfl⟩
    | carve pa => unfold barHeld; rw [h]

theorem countBar_engs (s : State) (e : Eng) (i j : Nat) (op : Nat) (h : barHeld s e (fun _ => true) = false) :
    (tget (countBar s e i j false).engs op).map Eng.untainted = (tget s.engs op).map Eng.untainted := by
  cases hb : e.bar with
  | none => unfold countBar; rw [hb]
  | some b =>
    by_cases hij : i ≠ 0 ∨ j ≠ 0
    · rw [countBar_eq hb h hij, barDecrease_engs]
    · have h0 : i = 0 ∧ j = 0 ∧ false = false := by simpa using hij
      unfold countBar
      rw [hb]
      exact congrArg (fun x : State => (tget x.engs op).map Eng.untainted) (if_pos h0)

/-- The transfer counts what was counted, and keeps what has landed and been read. -/
theorem countBar_self {s : State} {op : Nat} {e : Eng} (he : tget s.engs op = some e) (i j : Nat)
    (h : barHeld s e (fun _ => true) = false) : ∃ e', tget (countBar (counted s op i j) e i j false).engs op = some e' ∧
      e'.inDone = e.inDone + i ∧ e'.outDone = e.outDone + j ∧ e'.landed = e.landed ∧ e'.buf = e.buf := by
  have hk := countBar_engs (counted s op i j) e i j op ((barHeld_counted ..).trans h)
  rw [counted, modEng, tget_tmod_self, he] at hk
  obtain ⟨e', he', hu⟩ := Option.map_eq_some_iff.mp hk
  exact ⟨e', he', (congrArg Eng.inDone hu :), (congrArg Eng.outDone hu :),
    (congrArg Eng.landed hu :), (congrArg Eng.buf hu :)⟩

theorem barRead_counted (s : State) (op i j gid : Nat) (b : BarObj) : barRead (counted s op i j) gid b = barRead s gid b := by
  cases b <;> rfl

/-- What a decrement does to the object of its transfer. -/
theorem countBar_bar {s : State} {op : Nat} {e : Eng} {i j : Nat} (h : barHeld s e (fun _ => true) = false) {b : BarObj}
    (hb : e.bar = some b) (hij : i ≠ 0 ∨ j ≠ 0) : countBar (counted s op i j) e i j false =
      testWaiters (barWrite (counted s op i j) e.gid b (decrementRule (barRead s e.gid b) i j e.scope false)) e.gid b := by
  rw [countBar_eq hb ((barHeld_counted ..).trans h) hij, barDecrease_eq, barRead_counted]

theorem barRead_countBar {s : State} {op : Nat} {e : Eng} {i j : Nat} (h : barHeld s e (fun _ => true) = false) {off : Nat} {g : Group}
    (hb : e.bar = some (.scratch off)) (hij : i ≠ 0 ∨ j ≠ 0) (hg : groupOf s e.gid = some g) :
    barRead (countBar (counted s op i j) e i j false) e.gid (.scratch off) =
      decrementRule (barRead s e.gid (.scratch off)) i j e.scope false := by
  have hg' : groupOf (counted s op i j) e.gid = some g := hg
  rw [countBar_eq hb ((barHeld_counted ..).trans h) hij, barRead_barDecrease hg', barRead_counted]

end Sys2Proof.Machine
end

section
/-! SUPPORT. STACK_LANDING: a packet leaves its die, lands and is complete; landing values; the order of packets (R72, R201, R215, R233, R372
to R374, R394). -/

namespace Sys2Proof.Machine

/-! ### A packet is complete (R372, R374) -/

/-- Units of an engine have landed. -/
def tellSource (t : Tab Nat Eng) (c : Nat × Nat) : Tab Nat Eng := tmod t c.1 fun e => { e with landed := c.2 :: e.landed }

theorem foldl_modEng_rest (l : List (Nat × Nat)) (s : State) :
    l.foldl (fun a c => modEng a c.1 fun e => { e with landed := c.2 :: e.landed }) s = { s with engs := l.foldl tellSource s.engs } := by
  induction l generalizing s with
  | nil => rfl
  | cons c l ih => rw [List.foldl_cons, ih]; rfl

/-- What an engine is told stays told, and it is told each of its units. -/
theorem foldl_tellSource (l : List (Nat × Nat)) {t : Tab Nat Eng} {k : Nat} {e : Eng} (he : tget t k = some e) :
    ∃ e', tget (l.foldl tellSource t) k = some e' ∧ e.landed ⊆ e'.landed ∧ ∀ n, (k, n) ∈ l → n ∈ e'.landed := by
  induction l generalizing t e with
  | nil => exact ⟨e, he, fun _ h => h, fun n hn => absurd hn List.not_mem_nil⟩
  | cons c l ih =>
    by_cases hc : c.1 = k
    · have h1 : tget (tellSource t c) k = some { e with landed := c.2 :: e.landed } := by
        rw [tellSource, ← hc, tget_tmod_self, hc, he]
        rfl
      obtain ⟨e', he', hsub, hall⟩ := ih h1
      refine ⟨e', he', fun n hn => hsub (List.mem_cons_of_mem _ hn), fun n hn => ?_⟩
      rcases List.mem_cons.mp hn with rfl | hn
      · exact hsub List.mem_cons_self
      · exact hall n hn
    · have h1 : tget (tellSource t c) k = some e := by rw [tellSource, tget_tmod_ne _ _ hc, he]
      obtain ⟨e', he', hsub, hall⟩ := ih h1
      refine ⟨e', he', hsub, fun n hn => ?_⟩
      rcases List.mem_cons.mp hn with rfl | hn
      · exact absurd rfl hc
      · exact hall n hn

theorem packetDone_kept (s : State) (id : Nat) (k : Packet) :
    StoreKept { s with packets := tdel s.packets id, engs := k.counts.foldl tellSource s.engs } (packetDone s id k) := by
  rw [packetDone, foldl_modEng_rest]
  exact settleAccess_kept _

/-! ### A packet leaves its die (R201) -/

theorem homePrepare_line (s : State) (c : CoreId) (ln : Nat) :
    WrittenBack s (homePrepare s c [ln]) c.die ∧ tget (coreOf (homePrepare s c [ln]) c).l1 ln = none := by
  refine ⟨evictLine_writtenBack s c.die ln, ?_⟩
  rw [homePrepare, List.foldl_cons, List.foldl_nil, coreOf, modCore, setCore, tget_tset_self, Option.getD_some, tget_tdel, if_pos rfl]

/-! ### The cases of STACK_LANDING -/

theorem exec_stackLanding {s : State} {p : Nat} {k : Packet} (hk : tget s.packets p = some k) : exec (.stackLanding p) s =
    if k.applied then (if requestsDone s p then .next (packetDone s p k) else .next s)
    else if k.sent.isEmpty then (if sendReady s p k then .next (sendOff s p k) else .next s)
    else if packetFirst s p k p then .next s
    else .next (landPacket s p k) := by
  have hx : exec (.stackLanding p) s = execStackLanding p s := rfl
  rw [hx, execStackLanding, hk]

section Cases

variable {s : State} {p : Nat} {k : Packet} (hk : tget s.packets p = some k)
include hk

theorem stackLanding_waits (ha : k.applied = true) (h : requestsDone s p = false) : exec (.stackLanding p) s = .next s := by
  simp [exec_stackLanding hk, ha, h]

theorem stackLanding_done (ha : k.applied = true) (h : requestsDone s p = true) :
    exec (.stackLanding p) s = .next (packetDone s p k) := by
  simp [exec_stackLanding hk, ha, h]

theorem stackLanding_held (ha : k.applied = false) (hs : k.sent = []) (h : sendReady s p k = false) :
    exec (.stackLanding p) s = .next s := by
  simp [exec_stackLanding hk, ha, hs, h]

theorem stackLanding_sends (ha : k.applied = false) (hs : k.sent = []) (h : sendReady s p k = true) :
    exec (.stackLanding p) s = .next (sendOff s p k) := by
  simp [exec_stackLanding hk, ha, hs, h]

theorem stackLanding_behind (ha : k.applied = false) (hs : k.sent ≠ []) (h : packetFirst s p k p = true) :
    exec (.stackLanding p) s = .next s := by
  simp [exec_stackLanding hk, ha, hs, h]

theorem stackLanding_lands (ha : k.applied = false) (hs : k.sent ≠ []) (h : packetFirst s p k p = false) :
    exec (.stackLanding p) s = .next (landPacket s p k) := by
  simp [exec_stackLanding hk, ha, hs, h]

end Cases

/-! ### Landing values (R72) -/

theorem redLand_eq (r : Fin 4) (d p : Word) : redLand r d p = landRule r d p := by
  match r with
  | 0 => rfl
  | 1 => rfl
  | 2 =>
    refine (zext_eq _).trans (congrArg (BitVec.setWidth 64) (BitVec.eq_of_toNat_eq ?_))
    simp only [BitVec.toNat_ofInt, BitVec.toNat_add, BitVec.toNat_setWidth]
    omega
  | 3 => rfl

/-! ### The order of packets (R215, R233, R394) -/

theorem packetBefore_iff (i j : Nat) (a b : Packet) : packetBefore i a j b = true ↔
    (i < j ∧ a.pa / 128 = b.pa / 128 ∧ ∃ t ∈ a.threads, t ∈ b.threads) ∨
    (a.stack = b.stack ∧ ∃ x ∈ a.sent, ∃ y ∈ b.sent, x.1 = y.1 ∧ x.2 < y.2) := by
  simp only [packetBefore, lineOf, Bool.or_eq_true, Bool.and_eq_true, decide_eq_true_eq, beq_iff_eq, List.any_eq_true,
    List.contains_iff_mem, and_assoc]

theorem packetFirst_iff (s : State) (p skip : Nat) (k : Packet) : packetFirst s p k skip = true ↔
    ∃ e ∈ s.packets, e.1 ≠ p ∧ e.1 ≠ skip ∧ e.2.applied = false ∧ packetBefore e.1 e.2 p k = true := by
  simp only [packetFirst, List.any_eq_true, Bool.and_eq_true, bne_iff_ne, Bool.not_eq_true', and_assoc]

/-! ### RUNNER_MERGE (R73, R373, R374) -/

theorem mergeable_iff (a b : Packet) : mergeable a b = true ↔ a.sent ≠ [] ∧ b.sent ≠ [] ∧ a.applied = false ∧ b.applied = false ∧
    a.redWin = true ∧ b.redWin = true ∧ a.pa = b.pa ∧ (a.op.isSome ↔ b.op.isSome) ∧ a.red = b.red ∧ a.atom = b.atom ∧
    ∀ n, a.atom ≠ some (.exch, n) := by
  have hop : a.op.isSome = b.op.isSome ↔ (a.op.isSome ↔ b.op.isSome) := Bool.eq_iff_iff
  unfold mergeable
  cases h : a.atom with
  | none => simp only [Bool.and_eq_true, Bool.not_eq_true', beq_iff_eq, List.isEmpty_eq_false_iff, hop, and_assoc, reduceCtorEq, not_false_iff,
      implies_true, ne_eq]
  | some x =>
    obtain ⟨op, n⟩ := x
    simp [and_assoc]

/-- The packet that two merge into (R373, R374). -/
def merged (a b : Packet) : Packet :=
  { a with
    values := combined a (a.values ++ b.values), counts := a.counts ++ b.counts, threads := a.threads ++ b.threads
    sent := a.sent ++ b.sent, more := a.more ++ stampOf b ++ b.more }

/-- What keeps two packets apart (R233, R373). -/
def Apart (s : State) (p1 p2 : Nat) (a b : Packet) : Prop :=
  mergeable a b = false ∨ packetFirst s p1 a p2 = true ∨ packetFirst s p2 b p1 = true

section Merge

variable {s : State} {p1 p2 : Nat} {a b : Packet} (ha : tget s.packets p1 = some a) (hb : tget s.packets p2 = some b)
include ha hb

theorem exec_runnerMerge : exec (.runnerMerge p1 p2) s =
    if !mergeable a b || packetFirst s p1 a p2 || packetFirst s p2 b p1 then .next s
    else if p1 = p2 then .next { s with packets := tset s.packets p1 { a with values := combined a a.values } }
    else .next { s with packets := tset (tdel (tdel s.packets p1) p2) (min p1 p2) (merged a b) } := by
  have hx : exec (.runnerMerge p1 p2) s = execRunnerMerge p1 p2 s := rfl
  rw [hx, execRunnerMerge, ha, hb]
  rfl

theorem runnerMerge_stops (h : Apart s p1 p2 a b) : exec (.runnerMerge p1 p2) s = .next s := by
  rw [exec_runnerMerge ha hb, if_pos (by simpa [Apart, or_assoc] using h)]

theorem runnerMerge_one (h : ¬ Apart s p1 p2 a b) (hp : p1 = p2) : exec (.runnerMerge p1 p2) s =
    .next { s with packets := tset s.packets p1 { a with values := combined a a.values } } := by
  rw [exec_runnerMerge ha hb, if_neg (by simpa [Apart, or_assoc] using h), if_pos hp]

theorem runnerMerge_two (h : ¬ Apart s p1 p2 a b) (hp : p1 ≠ p2) : exec (.runnerMerge p1 p2) s =
    .next { s with packets := tset (tdel (tdel s.packets p1) p2) (min p1 p2) (merged a b) } := by
  rw [exec_runnerMerge ha hb, if_neg (by simpa [Apart, or_assoc] using h), if_neg hp]

end Merge

/-- Where the packets stand after a merge. -/
theorem tget_merge {t : Tab Nat Packet} {p1 p2 : Nat} (hp : p1 ≠ p2) (k : Packet) :
    let t' := tset (tdel (tdel t p1) p2) (min p1 p2) k
    tget t' (max p1 p2) = none ∧ tget t' (min p1 p2) = some k ∧ ∀ n, n ≠ p1 → n ≠ p2 → tget t' n = tget t n := by
  refine ⟨?_, tget_tset_self .., fun n h1 h2 => ?_⟩
  · rw [tget_tset_ne _ _ (by omega), tget_tdel, tget_tdel]
    rcases max_choice p1 p2 with h | h <;> simp [h]
  · rw [tget_tset_ne _ _ (by omega), tget_tdel, if_neg h2.symm, tget_tdel, if_neg h1.symm]

end Sys2Proof.Machine
end

section
/-! PROOFS. Engine decrements, packet landings and runner merges. -/

namespace Sys2Proof.Machine

/-- A landed packet that is complete goes, and its sources are told (R372, R374). -/
theorem packetDone_spec (s : State) (p : Nat) (k : Packet) : tget (packetDone s p k).packets p = none ∧
    (∀ a, memByte (packetDone s p k).mem a = memByte s.mem a) ∧
    ∀ c ∈ k.counts, ∀ e, tget s.engs c.1 = some e → ∃ e', tget (packetDone s p k).engs c.1 = some e' ∧ c.2 ∈ e'.landed := by
  have h := packetDone_kept s p k
  refine ⟨?_, fun a => by rw [h.mem], fun c hc e he => ?_⟩
  · rw [h.packets, tget_tdel, if_pos rfl]
  · obtain ⟨e', he', -, htold⟩ := foldl_tellSource k.counts he
    exact ⟨e', by rw [h.engs, he'], htold c.2 hc⟩

/-- A packet that leaves its die takes the next place in the order of sending, and its line goes home (R201, R394). -/
theorem sendOff_spec (s : State) (p : Nat) (k : Packet) :
    tget (sendOff s p k).packets p = some { k with sent := [(k.core.die, s.seq)] } ∧ (sendOff s p k).seq = s.seq + 1 ∧
    WrittenBack s (sendOff s p k) k.core.die ∧ tget (coreOf (sendOff s p k) k.core).l1 (k.pa / 128) = none := by
  obtain ⟨hmem, hline⟩ := homePrepare_line s k.core (k.pa / 128)
  have hseq := (homePrepare_act s k.core [k.pa / 128]).seq
  refine ⟨(tget_tset_self ..).trans ?_, congrArg (· + 1) hseq, hmem, hline⟩
  rw [lineOf, hseq]

/-- What landing makes of memory and of the requests (R364, R372). -/
theorem landPacket_spec (s : State) (p : Nat) (k : Packet) : tget (landPacket s p k).packets p = some { k with applied := true } ∧
    (∃ q, (landPacket s p k).requests = s.requests ++ [q] ∧ q.op = some p ∧ q.pa = k.pa ∧ q.len = packetBytes k ∧ q.cls = k.cls) ∧
    ∀ a, memByte (landPacket s p k).mem a = if k.pa ≤ a ∧ a < k.pa + packetBytes k then
      (natBytes (packetBytes k) (packetValue k (BitVec.ofNat 64 (memNat s.mem k.pa (packetBytes k)))).toNat).getD (a - k.pa) 0
      else memByte s.mem a := by
  obtain ⟨hp, hm, hq⟩ := landPacket_effect s p k
  refine ⟨?_, hq, fun a => ?_⟩
  · rw [hp, tget_tset_self, landed]
  · rw [hm, memByte_memPutBytes, natBytes_length]

theorem mem_stampOf {b : Packet} {d : Nat} (h : b.deadline = some d) : ⟨b.core, b.ctx, b.cls, d⟩ ∈ stampOf b := by
  rw [stampOf, h]
  exact List.mem_singleton.mpr rfl

/-- The stamps of the packets that merge, and that of the second, stay (R374). -/
theorem merged_more (a b : Packet) : (∀ d, b.deadline = some d → ⟨b.core, b.ctx, b.cls, d⟩ ∈ (merged a b).more) ∧
    ∀ x ∈ a.more ++ b.more, x ∈ (merged a b).more := by
  refine ⟨fun d hd => ?_, fun x hx => ?_⟩
  · exact List.mem_append_left _ (List.mem_append_right _ (mem_stampOf hd))
  · rcases List.mem_append.mp hx with h | h
    · exact List.mem_append_left _ (List.mem_append_left _ h)
    · exact List.mem_append_right _ h

/-- Settles O42: each instruction by its cases; a decrement through `countBar`, whose test of waiters keeps engines and scratchpads; a landing
through `landPacket_effect` and `Lands`; a merge by the tables of packets. -/
theorem packetsAndCounts : Obligations.PacketsAndCounts := by
  unfold Obligations.PacketsAndCounts
  refine ⟨fun op i j s e he => ?_, fun gid s x g hg => ?_, fun p s k hk => ?_, redLand_eq,
    ⟨packetBefore_iff, packetFirst_iff, fun s d k => ?_⟩, mergeable_iff, fun p1 p2 s a b ha hb => ?_⟩
  · obtain ⟨hdue, hwait⟩ := exec_engineDecrement he i j
    refine ⟨hwait, fun off hb => barHeld_iff hb, fun h _ => ⟨_, hdue h, ?_⟩⟩
    obtain ⟨-, -, -, -, -, -, hheld⟩ := h
    exact ⟨countBar_self he i j hheld, fun b hb hij => countBar_bar hheld hb hij, fun off g hb hij hg => barRead_countBar hheld hb hij hg⟩
  · exact ⟨fun h => ⟨_, payDue_absent hg h, rfl, rfl⟩, fun h => by rw [payDue_present h, barRead_barDecrease hg]⟩
  · refine ⟨stackLanding_waits hk, fun ha h _ => ⟨_, stackLanding_done hk ha h, packetDone_spec s p k⟩, stackLanding_held hk,
      fun ha hs h => ⟨_, s.seq, stackLanding_sends hk ha hs h, le_rfl, sendOff_spec s p k⟩, stackLanding_behind hk,
      fun ha hs h => ⟨_, stackLanding_lands hk ha hs h, landPacket_spec s p k⟩⟩
  · exact ⟨fun h => behindPackets_nothing h k, (behindPackets_lands s d k).mem,
      fun p x hx hk hd => ⟨_, behindPackets_landed hx hk hd, rfl⟩⟩
  · refine ⟨runnerMerge_stops ha hb, fun h hp => ⟨_, runnerMerge_one ha hb h hp, ?_, ?_, rfl⟩,
      fun h hp => ⟨_, runnerMerge_two ha hb h hp, ?_, ?_, ?_, rfl⟩⟩
    · exact tget_tset_self ..
    · exact fun n hn => tget_tset_ne _ _ hn.symm
    all_goals obtain ⟨hmax, hmin, hrest⟩ := tget_merge (t := s.packets) hp (merged a b)
    · exact hmax
    · exact ⟨_, hmin, rfl, rfl, rfl, rfl, rfl, rfl, rfl, merged_more a b⟩
    · exact hrest

end Sys2Proof.Machine
end

section
/-! SUPPORT. What the outcome of a word leaves: it has its effect, its threads fault, or they are held (R25, R29, R32, R75, R351). -/

namespace Sys2Proof.Machine

section Outcomes

variable {i : Instr} {s : State} {act : List ThreadKey → State → Act}

/-- The threads of a list go on, each at the program counter that it is given. -/
theorem threadOf_retireAll (s : State) (sh : Shape) {ts : List ThreadKey} (hn : ts.Nodup) (n : ThreadKey → Word) (t : ThreadKey) :
    threadOf (retireAll s sh (ts.map fun t => (t, n t))) t =
      if t ∈ ts then (threadOf s t).map (retireThread sh (now s) (n t)) else threadOf s t := by
  rw [retireAll_eq, List.foldl_map]
  exact threadOf_foldl ts hn (fun t => retireThread sh (now s) (n t)) s t

/-- A word that has its effect: its threads go on, nothing else follows. -/
theorem issue_done (h : issuable i s = true) {s1 : State} {n : ThreadKey → Word}
    (hact : act s.focus.threads s = .done s1 (s.focus.threads.map fun t => (t, n t)))
    (hoff : ∀ t ∈ s.focus.threads, ∀ th, threadOf s1 t = some th → th.step = .off) :
    ∃ s', issue i act s = .next s' ∧
      (∀ t, threadOf s' t = if t ∈ s.focus.threads then (threadOf s1 t).map (retireThread (instrShape i) (now s1) (n t))
        else threadOf s1 t) ∧
      s' = { s1 with threads := s'.threads, freeCount := s1.freeCount + 1 } := by
  have hget := threadOf_retireAll s1 (instrShape i) (issuable_nodup h) n
  have hstops : stepStops (retireAll s1 (instrShape i) (s.focus.threads.map fun t => (t, n t))) s.focus.threads =
      retireAll s1 (instrShape i) (s.focus.threads.map fun t => (t, n t)) := by
    refine stepStops_off _ _ fun t ht th hth => ?_
    rw [hget, if_pos ht, Option.map_eq_some_iff] at hth
    obtain ⟨x, hx, rfl⟩ := hth
    exact hoff t ht x hx
  have he := issue_acts act h
  simp only [hact, List.map_map, Function.comp_def, List.map_id', hstops] at he
  exact ⟨_, he, hget, by rw [retireAll_rest]; rfl⟩

/-- A word whose threads fault, none of them a handler's (R351). -/
theorem issue_faults (h : issuable i s = true) {fs : List FaultRec} (hact : act s.focus.threads s = .faults fs)
    (hh : ∀ f ∈ fs, f.thread.isHandler = false) (hn : (fs.map (·.thread)).Nodup) :
    ∃ s', issue i act s = .next s' ∧ Faulted s s' fs := by
  have he := issue_acts act h
  simp only [hact] at he
  obtain ⟨hcore, hcores, hth, hhan, hw, hslot, hstart, hmem, hrest⟩ :=
    takeFaults_trapped (faultWalks s s.focus.core fs) s.focus.core fs hh hn
  exact ⟨_, he, hcore, hcores, hth, hhan, hw, hslot, hstart, hmem, by rw [bumpFree, hrest]⟩

/-- A word that its unit holds (R75). -/
theorem issue_hold (h : issuable i s = true) (hact : act s.focus.threads s = .hold) :
    ∃ s', issue i act s = .next s' ∧ Held s s' := by
  have he := issue_acts act h
  simp only [hact] at he
  refine ⟨_, he, fun t => ?_, foldl_modThread_rest _ _ s⟩
  rw [stallThreads, modThreads, threadOf_foldl _ (issuable_nodup h)]
  split
  · congr 1
    funext th
    split <;> simp_all
  · rfl

/-- The faults of a group name no thread twice. -/
theorem nodup_faults {ts : List ThreadKey} (hn : ts.Nodup) {F : ThreadKey → Option FaultRec}
    (hF : ∀ t f, F t = some f → f.thread = t) : ((ts.filterMap F).map (·.thread)).Nodup := by
  have hsub : ((ts.filterMap F).map (·.thread)).Sublist ts := by
    rw [List.map_filterMap]
    induction ts with
    | nil => exact .slnil
    | cons t ts ih =>
      have ih := ih (List.nodup_cons.mp hn).2
      cases e : F t with
      | none => simpa [e] using ih.cons t
      | some f => simpa [e, hF t f e] using ih.cons_cons t
  exact hsub.nodup hn

/-- A word that changes its threads only (`g`): they go on where it sends them. -/
theorem issue_threads (h : issuable i s = true) (hhint : (instrShape i).hint = false) {s1 : State} {n : ThreadKey → Word}
    (hact : act s.focus.threads s = .done s1 (s.focus.threads.map fun t => (t, n t))) (r : ThreadKey → Thread → Regs)
    (hth : ∀ t, threadOf s1 t = if t ∈ s.focus.threads then (threadOf s t).map fun th => { th with regs := r t th }
      else threadOf s t)
    (hrest : s1 = { s with threads := s1.threads, warps := s1.warps }) :
    ∃ s', issue i act s = .next s' ∧
      ThreadsBecome s s' (fun t th => issued (now s) (instrShape i).st (n t) (r t th) th) ∧
      s' = { s1 with threads := s'.threads, freeCount := s1.freeCount + 1 } := by
  have hready {t : ThreadKey} (ht : t ∈ s.focus.threads) {th : Thread} (e : threadOf s t = some th) :
      th.status = .live .ready ∧ th.step = .off := by
    obtain ⟨⟨x, hx, hr, ho⟩, -⟩ := issuable_thread h ht
    obtain rfl : x = th := Option.some.inj (hx.symm.trans e)
    exact ⟨hr, ho⟩
  have hnow : now s1 = now s := by rw [hrest]; rfl
  obtain ⟨s', he, hget, hs'⟩ := issue_done h hact fun t ht th hx => by
    rw [hth, if_pos ht, Option.map_eq_some_iff] at hx
    obtain ⟨x, hx, rfl⟩ := hx
    exact (hready ht hx).2
  refine ⟨s', he, fun t => ?_, hs'⟩
  rw [hget, hth, hnow]
  split
  next ht =>
    rw [Option.map_map]
    refine Option.map_congr fun x hx => ?_
    exact retireThread_ready _ hhint _ _ { x with regs := r t x } (hready ht hx).1
  · rfl

/-- A word that changes the registers of its threads only. -/
theorem issue_onlyThreads (h : issuable i s = true) (hhint : (instrShape i).hint = false) {s1 : State} {n : ThreadKey → Word}
    (hact : act s.focus.threads s = .done s1 (s.focus.threads.map fun t => (t, n t))) (r : ThreadKey → Thread → Regs)
    (hth : ∀ t, threadOf s1 t = if t ∈ s.focus.threads then (threadOf s t).map fun th => { th with regs := r t th }
      else threadOf s t)
    (hrest : s1 = { s with threads := s1.threads }) :
    ∃ s', issue i act s = .next s' ∧
      ThreadsBecome s s' (fun t th => issued (now s) (instrShape i).st (n t) (r t th) th) ∧ OnlyThreadsChange s s' := by
  obtain ⟨s', he, hbec, hs'⟩ := issue_threads h hhint hact r hth (by rw [hrest])
  rw [hrest] at hs'
  exact ⟨s', he, hbec, fun a => by rw [hs'], hs'⟩

/-! ### Sending threads on, and giving them results (R20, R21, R25) -/

/-- A word that only sends its threads on. -/
theorem exec_sends {i : Instr} {s : State} {act : List ThreadKey → State → Act} (h : issuable i s = true)
    (hhint : (instrShape i).hint = false) {n : ThreadKey → Word}
    (hact : act s.focus.threads s = .done s (s.focus.threads.map fun t => (t, n t))) :
    ∃ s', issue i act s = .next s' ∧
      ThreadsBecome s s' (fun t th => issued (now s) (instrShape i).st (n t) th.regs th) ∧ OnlyThreadsChange s s' :=
  issue_onlyThreads h hhint hact (fun _ th => th.regs) (fun t => by split <;> simp) rfl

/-- The threads become the same where two rules agree on the threads that there are. -/
theorem ThreadsBecome.congr {s s' : State} {f g : ThreadKey → Thread → Thread} (h : ThreadsBecome s s' f)
    (hfg : ∀ t th, threadOf s t = some th → f t th = g t th) : ThreadsBecome s s' g := by
  intro t
  rw [h t]
  split
  · exact Option.map_congr (hfg t)
  · rfl

theorem pcOf_eq {s : State} {t : ThreadKey} {th : Thread} (h : threadOf s t = some th) : pcOf s t = th.pc := by
  rw [pcOf, h]; rfl

/-- Each thread's result goes to its registers, and no other thread changes. -/
theorem threadOf_give {s : State} {ts : List ThreadKey} (hn : ts.Nodup) (d : PDst) (v : ThreadKey → Word) (due : Nat)
    (pend : Option Nat) (t : ThreadKey) :
    threadOf (ts.foldl (fun x t => giveThread x t d (v t) due pend) s) t =
      if t ∈ ts then (threadOf s t).map fun th => { th with regs := th.regs.give d (v t) due pend } else threadOf s t :=
  threadOf_foldl ts hn (fun t th => { th with regs := th.regs.give d (v t) due pend }) s t

theorem foldl_give_rest (s : State) (ts : List ThreadKey) (d : PDst) (v : ThreadKey → Word) (due : Nat) (pend : Option Nat) :
    ts.foldl (fun x t => giveThread x t d (v t) due pend) s =
      { s with threads := (ts.foldl (fun x t => giveThread x t d (v t) due pend) s).threads } :=
  foldl_modThread_rest ts (fun t th => { th with regs := th.regs.give d (v t) due pend }) s

/-- A word that gives each of its threads a result and sends it on. -/
theorem exec_gives {i : Instr} {s : State} {act : List ThreadKey → State → Act} (h : issuable i s = true)
    (hhint : (instrShape i).hint = false) {d : PDst} {v : ThreadKey → Word} {due : Nat} {n : ThreadKey → Word}
    (hact : act s.focus.threads s = .done (s.focus.threads.foldl (fun x t => giveThread x t d (v t) due none) s)
      (s.focus.threads.map fun t => (t, n t))) :
    ∃ s', issue i act s = .next s' ∧
      ThreadsBecome s s' (fun t th => issued (now s) (instrShape i).st (n t) (th.regs.give d (v t) due none) th) ∧
      OnlyThreadsChange s s' :=
  issue_onlyThreads h hhint hact (fun t th => th.regs.give d (v t) due none)
    (threadOf_give (issuable_nodup h) d v due none) (foldl_give_rest ..)

end Outcomes

end Sys2Proof.Machine
end

section
/-! PROOFS. A package that leaves reset. -/

namespace Sys2Proof.Machine

theorem dieOf_reset (d : Fin 8) : dieOf State.reset d = Die.reset := Vector.getElem_replicate _
theorem tenantOf_reset (t : Fin 64) : tenantOf State.reset t = Tenant.reset := rfl
theorem portOf_reset (p : Fin 2) : portOf State.reset p = Port.reset := Vector.getElem_replicate _

theorem resetDie_carve (u : Fin 8) : Die.reset.carve[u] = ⟨false, 0, 0, false⟩ := Vector.getElem_replicate _

theorem resetPort_windows (w : Fin 16) : Port.reset.windows[w] = 0 := Vector.getElem_replicate _

theorem reset_regions (r : Fin 64) : State.reset.regions[r] = 0 := Vector.getElem_replicate _

/-- The entry of a tenant, by its fields (R384). -/
theorem resetTenant_fields : bvf Tenant.reset.entry 1001 996 = 63 ∧ bvf Tenant.reset.entry 995 990 = 62 ∧
    bvf Tenant.reset.entry 989 982 = 1 ∧ bvf Tenant.reset.entry 1023 1023 = 0 := by
  simp only [bvf, Tenant.reset, BitVec.toNat_ofNat]
  decide +kernel

/-- The bounds of R337, by level. -/
theorem reset_latbnd : ∀ k : Fin 12, State.reset.latbnd[k] =
    if 9 ≤ k.val then 2 ^ 63 + 50 else if 6 ≤ k.val then 2 ^ 63 + 500 else (0 : BitVec 64) := by
  decide +kernel

/-- Settles O4, field by field. -/
theorem resetState : Obligations.ResetState := by
  unfold Obligations.ResetState
  obtain ⟨hctx, hviol, hweight, hen⟩ := resetTenant_fields
  refine ⟨rfl, rfl, rfl, rfl, rfl, rfl, rfl, rfl, rfl, fun d => ?_, reset_latbnd,
    fun t => ⟨hctx, hviol, hweight, hen, rfl, rfl, rfl, rfl⟩, fun p => ?_, reset_regions, rfl, rfl, rfl, rfl, rfl, rfl, rfl⟩
  · rw [dieOf_reset]
    exact ⟨rfl, rfl, rfl, rfl, rfl, rfl, fun u => by rw [resetDie_carve]; exact ⟨rfl, rfl, rfl⟩⟩
  · rw [portOf_reset]
    exact ⟨rfl, rfl, resetPort_windows⟩

end Sys2Proof.Machine
end

section
/-! PROOFS. Branches, CALL, JMPR and RET (R91, R92). -/

namespace Sys2Proof.Machine

/-! ### Targets -/

/-- The target of a format B word is the displacement in words behind the next word (R17, R91). -/
theorem branchTarget_eq (pc : Word) (disp : BitVec 17) : branchTarget pc disp = branchRule pc disp := by
  have hs : sext 17 (disp.toNat : Nat) = disp.signExtend 64 := by
    rw [sext_eq (by decide) (by decide), BitVec.ofInt_natCast, BitVec.ofNat_toNat, BitVec.setWidth_eq]
  rw [branchTarget, branchRule, hs, BitVec.shiftLeft_eq_mul_twoPow, BitVec.mul_comm]
  rfl

/-- The two low bits of a target are its remainder by 4. -/
theorem lowBits_eq_zero (v : Word) : v.extractLsb 1 0 = 0 ↔ v.toNat % 4 = 0 := by
  rw [← BitVec.toNat_inj, BitVec.extractLsb_toNat]
  simp

theorem jumpable_iff (v : Word) : jumpable v = true ↔ v.toNat % 4 = 0 ∧ canonical v.toNat = true := by
  rw [jumpable, Bool.and_eq_true, beq_iff_eq, lowBits_eq_zero]

/-! ### JMPR and RET -/

theorem jumpFaults_eq (s : State) (ts : List ThreadKey) (a : Src) : jumpFaults s ts a = ts.filterMap fun t =>
    let v := readSrc s t 0 a
    if v.extractLsb 1 0 ≠ 0 then some (addrFault s t .align v.toNat)
    else if canonical v.toNat then none
    else some (violFault s t 3 0 v.toNat) := by
  unfold jumpFaults
  congr 1
  funext t
  simp only [ne_eq, lowBits_eq_zero, Bool.not_eq_true']
  by_cases hc : canonical (readSrc s t 0 a).toNat = true <;> simp [hc]

theorem jumpFaults_thread {s : State} {a : Src} {t : ThreadKey} {f : FaultRec}
    (h : (let v := (readSrc s t 0 a).toNat
      if v % 4 ≠ 0 then some (addrFault s t .align v)
      else if !canonical v then some (violFault s t 3 0 v) else none) = some f) : f.thread = t := by
  dsimp only at h
  split_ifs at h <;> cases h <;> rfl

theorem jumpFaults_eq_nil_iff (s : State) (ts : List ThreadKey) (a : Src) :
    jumpFaults s ts a = [] ↔ ∀ t ∈ ts, jumpable (readSrc s t 0 a) = true := by
  rw [jumpFaults, List.filterMap_eq_nil_iff]
  refine forall₂_congr fun t _ => ?_
  rw [jumpable_iff]
  by_cases h4 : (readSrc s t 0 a).toNat % 4 = 0 <;> simp [h4]

/-- Where every thread has a target that it may jump to, the threads go there. -/
theorem jumpWord_goes {i : Instr} {s : State} {a : Src} (h : issuable i s = true) (hhint : (instrShape i).hint = false)
    (hj : ∀ t ∈ s.focus.threads, jumpable (readSrc s t 0 a) = true) :
    ∃ s', jumpWord i a s = .next s' ∧
      ThreadsBecome s s' (fun t th => issued (now s) (instrShape i).st (readSrc s t 0 a) th.regs th) ∧ OnlyThreadsChange s s' :=
  exec_sends h hhint (by simp only [(jumpFaults_eq_nil_iff s _ a).mpr hj])

/-- Where some thread has not, the threads with a bad target fault. -/
theorem jumpWord_faults {i : Instr} {s : State} {a : Src} (h : issuable i s = true)
    (hh : ∀ t ∈ s.focus.threads, t.isHandler = false) (hj : ∃ t ∈ s.focus.threads, jumpable (readSrc s t 0 a) = false) :
    ∃ s', jumpWord i a s = .next s' ∧ Faulted s s' (jumpFaults s s.focus.threads a) := by
  refine issue_faults h ?_ ?_ (nodup_faults (issuable_nodup h) fun _ _ => jumpFaults_thread)
  · obtain ⟨t, ht, hb⟩ := hj
    cases e : jumpFaults s s.focus.threads a with
    | nil => simp [(jumpFaults_eq_nil_iff ..).mp e t ht] at hb
    | cons f fs => rfl
  · intro f hf
    obtain ⟨t, ht, e⟩ := List.mem_filterMap.mp hf
    rw [jumpFaults_thread e]
    exact hh t ht

/-- Settles O16: the branches and CALL through `exec_sends` and `exec_gives`; JMPR and RET by whether a thread has a bad target. -/
theorem controlTransfers : Obligations.ControlTransfers := by
  unfold Obligations.ControlTransfers
  refine ⟨fun a disp st => ⟨fun s h => ?_, fun s h => ?_, fun s h => ?_, fun s h => ?_, fun i hi s h hj => ?_⟩,
    fun a st i hi s h hh hj => ?_⟩
  · obtain ⟨s', he, hb, ho⟩ := exec_sends (act := fun ts s => .done s (ts.map fun t => (t, branchTarget (pcOf s t) disp))) h rfl rfl
    exact ⟨s', he, hb.congr fun t th e => by rw [pcOf_eq e, branchTarget_eq]; rfl, ho⟩
  · obtain ⟨s', he, hb, ho⟩ := exec_sends (act := fun ts s => .done s (ts.map fun t =>
      (t, if readSrc s t 0 a ≠ 0 then branchTarget (pcOf s t) disp else pcOf s t + 4))) h rfl rfl
    exact ⟨s', he, hb.congr fun t th e => by rw [pcOf_eq e, branchTarget_eq]; rfl, ho⟩
  · obtain ⟨s', he, hb, ho⟩ := exec_sends (act := fun ts s => .done s (ts.map fun t =>
      (t, if readSrc s t 0 a = 0 then branchTarget (pcOf s t) disp else pcOf s t + 4))) h rfl rfl
    exact ⟨s', he, hb.congr fun t th e => by rw [pcOf_eq e, branchTarget_eq]; rfl, ho⟩
  · obtain ⟨s', he, hb, ho⟩ := exec_gives (d := .push) (v := fun t => pcOf s t + 4) (due := now s + 2)
      (n := fun t => branchTarget (pcOf s t) disp) h rfl (act := fun ts s =>
        .done (ts.foldl (fun x t => giveThread x t .push (pcOf s t + 4) (cycOf s s.focus.core + latShort) none) s)
          (ts.map fun t => (t, branchTarget (pcOf s t) disp))) rfl
    exact ⟨s', he, hb.congr fun t th e => by rw [pcOf_eq e, branchTarget_eq]; rfl, ho⟩
  · rcases hi with rfl | rfl <;> exact jumpWord_goes h rfl hj
  · rw [← jumpFaults_eq]
    rcases hi with rfl | rfl <;> exact jumpWord_faults h hh hj

end Sys2Proof.Machine
end

section
/-! SUPPORT. Sorting by insertion: the same elements, none before one that precedes it. -/

namespace Sys2Proof.Machine

variable {α : Type} {lt : α → α → Bool}

theorem insertBy_perm (lt : α → α → Bool) (x : α) (l : List α) : (insertBy lt x l).Perm (x :: l) := by
  induction l with
  | nil => exact .refl _
  | cons y l ih =>
    rw [insertBy]
    split
    · exact (ih.cons y).trans (.swap x y l)
    · exact .refl _

theorem sortBy_perm (lt : α → α → Bool) (l : List α) : (sortBy lt l).Perm l := by
  induction l with
  | nil => exact .refl _
  | cons x l ih => exact (insertBy_perm lt x _).trans (ih.cons x)

@[simp] theorem mem_sortBy {x : α} {l : List α} : x ∈ sortBy lt l ↔ x ∈ l := (sortBy_perm lt l).mem_iff

/-- Insertion keeps a list sorted by an order in which `¬ lt b a` is transitive. -/
theorem insertBy_sorted (hasymm : ∀ a b, lt a b = true → lt b a = false)
    (htrans : ∀ a b c, lt b a = false → lt c b = false → lt c a = false) (x : α) {l : List α}
    (h : l.Pairwise fun a b => lt b a = false) : (insertBy lt x l).Pairwise fun a b => lt b a = false := by
  induction l with
  | nil => exact .cons (fun _ h => nomatch h) .nil
  | cons y l ih =>
    obtain ⟨hy, hl⟩ := List.pairwise_cons.mp h
    rw [insertBy]
    split
    next hyx =>
      refine .cons (fun z hz => ?_) (ih hl)
      rcases List.mem_cons.mp ((insertBy_perm lt x l).mem_iff.mp hz) with rfl | hz
      · exact hasymm _ _ hyx
      · exact hy z hz
    next hyx =>
      have hyx : lt y x = false := Bool.eq_false_iff.mpr hyx
      exact .cons (List.forall_mem_cons.mpr ⟨hyx, fun z hz => htrans _ _ _ hyx (hy z hz)⟩) h

theorem sortBy_sorted (hasymm : ∀ a b, lt a b = true → lt b a = false)
    (htrans : ∀ a b c, lt b a = false → lt c b = false → lt c a = false) (l : List α) :
    (sortBy lt l).Pairwise fun a b => lt b a = false := by
  induction l with
  | nil => exact .nil
  | cons x l ih => exact insertBy_sorted hasymm htrans x ih

end Sys2Proof.Machine
end

section
/-! PROOFS. SMOV, SHFL and SRD (R96 to R99, R115, R116). -/

namespace Sys2Proof.Machine

/-! ### SMOV -/

/-- A thread is named by its warp and its lane. -/
theorem thread_ext {t u : ThreadKey} (hw : warpKeyOf t = warpKeyOf u) (hl : laneOf t = laneOf u) : t = u := by
  cases t <;> cases u <;> simp_all [warpKeyOf, laneOf]

/-- The thread of a warp whose lane no other lies below. -/
theorem lowestLane_eq {ts : List ThreadKey} {t : ThreadKey} (ht : t ∈ ts)
    (hmin : ∀ u ∈ ts, warpKeyOf u = warpKeyOf t → laneOf t ≤ laneOf u) : lowestLane (warpKeyOf t) ts = some t := by
  have hs := sortBy_sorted (lt := fun a b => decide (laneOf a < laneOf b)) (by simp; omega) (by simp; omega)
    (ts.filter fun u => warpKeyOf u = warpKeyOf t)
  have hm {u : ThreadKey} : u ∈ sortBy (fun a b => decide (laneOf a < laneOf b)) (ts.filter fun u => warpKeyOf u = warpKeyOf t) ↔
      u ∈ ts ∧ warpKeyOf u = warpKeyOf t := by simp
  unfold lowestLane
  cases e : sortBy (fun a b => decide (laneOf a < laneOf b)) (ts.filter fun u => warpKeyOf u = warpKeyOf t) with
  | nil => exact absurd (hm.mpr ⟨ht, rfl⟩) (by simp [e])
  | cons m l =>
    rw [e] at hs hm
    obtain ⟨hmem, hw⟩ := hm.mp List.mem_cons_self
    have hle : laneOf m ≤ laneOf t := by
      rcases List.mem_cons.mp (hm.mpr ⟨ht, rfl⟩) with rfl | hl
      · exact le_rfl
      · simpa using (List.pairwise_cons.mp hs).1 t hl
    rw [List.head?_cons, thread_ext hw (le_antisymm hle (hmin m hmem hw))]

/-- What SMOV makes of a home warp. -/
def smovWarp (s : State) (ts : List ThreadKey) (a : Src) (d : Fin 16) (w : WarpKey) (x : Warp) : Warp :=
  match lowestLane w ts with
  | some j => { x with w := x.w.set d (x.w[d].next (readSrc s j 0 a) (now s + 2) none) }
  | none => x

theorem smov_fold (s : State) (ts : List ThreadKey) (a : Src) (d : Fin 16) :
    (warpsOf ts).foldl (fun x w =>
      match lowestLane w ts with
      | some j => putUni x w d (readSrc s j 0 a) (cycOf s s.focus.core + latShort)
      | none => x) s = (warpsOf ts).foldl (fun x w => modWarp x w (smovWarp s ts a d w)) s := by
  congr 1
  funext x w
  unfold smovWarp
  split
  · rfl
  · rw [modWarp, tmod_same _ _ _ fun _ _ => rfl]

/-- SMOV has its effect on the home warps of its group, and its threads go on (R115). -/
theorem execSmov_done {a : Src} {d : Fin 16} {st : Stall} {s : State} (h : issuable (.smov a d st) s = true) :
    ∃ s', execSmov a d st s = .next s' ∧ OnlyThreads s s' ∧
      ThreadsBecome s s' (fun _ th => issued (now s) st (th.pc + 4) th.regs th) ∧
      ∀ w, tget s'.warps w = if w ∈ s.focus.threads.map warpKeyOf then
        (tget s.warps w).map (smovWarp s s.focus.threads a d w) else tget s.warps w := by
  have hrest := foldl_modWarp_rest (warpsOf s.focus.threads) (smovWarp s s.focus.threads a d) s
  obtain ⟨s', he, hb, hs'⟩ := issue_threads h rfl (n := fun t => pcOf s t + 4) (act := fun ts s =>
      .done ((warpsOf ts).foldl (fun x w =>
        match lowestLane w ts with
        | some j => putUni x w d (readSrc s j 0 a) (cycOf s s.focus.core + latShort)
        | none => x) s)
      (advance s ts)) (congrArg (fun x => Act.done x _) (smov_fold s s.focus.threads a d)) (fun _ th => th.regs)
      (fun t => by rw [hrest]; split <;> simp [threadOf]) (by rw [hrest])
  have hb := hb.congr (g := fun _ th => issued (now s) st (th.pc + 4) th.regs th) fun t th e => by rw [pcOf_eq e]; rfl
  refine ⟨s', he, ⟨fun t ht => by rw [hb, if_neg ht], fun x => ?_, ?_⟩, hb, fun w => ?_⟩
  · rw [hs', hrest]
  · rw [hs', hrest]
  · rw [hs']
    refine (warp_foldl _ (nodup_dedup _) (smovWarp s s.focus.threads a d) s w).trans ?_
    simp only [mem_dedup]

/-! ### SHFL -/

/-- What SHFL does for its group. -/
def shflAct (a : Fin 32) (b : Src) (d : PDst) (ts : List ThreadKey) (s : State) : Act :=
  if ts.all fun t => (List.finRange 32).all fun j => (laneNamed s (laneThread t j) a).landed (cycOf s s.focus.core) then
    .done (ts.foldl (fun x t =>
        giveThread x t d (laneNamed s (laneThread t (Fin.ofNat 32 (readSrc s t 0 b).toNat)) a).val 0 none) s)
      (advance s ts)
  else .hold

theorem execShfl_eq (a : Fin 32) (b : Src) (d : PDst) (st : Stall) (s : State) :
    execShfl a b d st s = issue (.shfl a b d st) (shflAct a b d) s := rfl

theorem laneOfWord (x : Word) : Fin.ofNat 32 x.toNat = (x.extractLsb' 0 5).toFin := by
  refine Fin.ext ?_
  simp

/-! ### SRD -/

/-- A concatenation as a sum. -/
theorem toNat_append_add {v w : Nat} (x : BitVec v) (y : BitVec w) : (x ++ y).toNat = x.toNat * 2 ^ w + y.toNat := by
  rw [BitVec.toNat_append, ← Nat.shiftLeft_add_eq_or_of_lt y.isLt, Nat.shiftLeft_eq]

/-- PLACE by the fields of its layout (R97). -/
theorem placeBits_toNat (th : Thread) : placeBits th = (0#32 ++ BitVec.ofBool th.away.isSome ++ 0#7 ++
    BitVec.ofNat 6 th.place.slot.val ++ BitVec.ofNat 7 th.place.core.core.val ++ BitVec.ofNat 3 th.place.core.die.val ++ 0#3 ++
    BitVec.ofNat 5 th.place.lane.val : BitVec 64).toNat := by
  have haway : (if th.away.isSome then 2 ^ 31 else 0) = th.away.isSome.toNat * 2 ^ 31 := by cases th.away.isSome <;> rfl
  have hslot : th.place.slot.val % 2 ^ 6 = th.place.slot.val := Nat.mod_eq_of_lt th.place.slot.isLt
  have hcore : th.place.core.core.val % 2 ^ 7 = th.place.core.core.val := Nat.mod_eq_of_lt th.place.core.core.isLt
  have hdie : th.place.core.die.val % 2 ^ 3 = th.place.core.die.val := Nat.mod_eq_of_lt th.place.core.die.isLt
  have hlane : th.place.lane.val % 2 ^ 5 = th.place.lane.val := Nat.mod_eq_of_lt th.place.lane.isLt
  simp only [toNat_append_add, BitVec.toNat_ofNat, BitVec.toNat_ofBool]
  rw [hslot, hcore, hdie, hlane, placeBits, haway]
  ring

/-- Four fields of 16 bits. -/
theorem sum_fields (f : Fin 4 → Nat) : ((List.finRange 4).map fun i => f i * 2 ^ (16 * i.val)).sum =
    f 0 + f 1 * 2 ^ 16 + f 2 * 2 ^ 32 + f 3 * 2 ^ 48 := by
  rw [← Fin.sum_univ_def, Fin.sum_univ_four, Fin.val_zero, mul_zero, pow_zero, mul_one]
  congr 1

theorem missBits_eq (k : Core) : missBits k = ((List.finRange 4).map fun i => k.miss[i] * 2 ^ (16 * i.val)).sum := by
  rw [sum_fields]
  rfl

theorem wake_eq (t : ThreadKey) (th : Thread) :
    BitVec.ofNat 64 (if t.isHandler then 0 else wakeBits th.wake) = if t.isHandler then 0 else wakeRule th := by
  split
  · rfl
  · rw [wakeBits, wakeRule]
    congr 1
    omega

/-- A special register reads as its rule has it (R96 to R99). -/
theorem specialValue_eq (s : State) (t : ThreadKey) (th : Thread) (sp : Special) :
    BitVec.ofNat 64 (specialValue s t th sp) = specialRule s t th sp := by
  have hword (f : Group → BitVec 32) (g : Option Group) :
      BitVec.ofNat 64 ((g.map fun x => (f x).toNat).getD 0) = ((g.map f).getD 0).setWidth 64 := by
    cases g with
    | none => rfl
    | some x => exact BitVec.ofNat_toNat 64 (f x)
  cases sp with
  | gang => exact hword Group.gang _
  | launch => exact hword Group.launch _
  | place => exact (congrArg (BitVec.ofNat 64) (placeBits_toNat th)).trans (BitVec.ofNat_toNat 64 _)
  | wake => exact wake_eq t th
  | misscnt => exact congrArg _ (missBits_eq _)
  | pkg => exact BitVec.ofNat_toNat 64 _
  | _ => rfl

/-- SRD gives each thread its special register. -/
theorem srd_fold {s : State} {ts : List ThreadKey} (hts : ∀ t ∈ ts, ∃ th, threadOf s t = some th) (sp : Special) (d : PDst) :
    ts.foldl (fun x t => match threadOf s t with
      | none => x
      | some th => giveThread x t d (BitVec.ofNat 64 (specialValue s t th sp)) (cycOf s s.focus.core + latShort) none) s =
    ts.foldl (fun x t => giveThread x t d (((threadOf s t).map fun th => specialRule s t th sp).getD 0) (now s + 2) none) s := by
  refine List.foldl_ext _ _ _ fun x t ht => ?_
  obtain ⟨th, e⟩ := hts t ht
  simp only [e, Option.map_some, Option.getD_some, ← specialValue_eq]
  rfl

/-- Settles O31: SMOV by the thread of lowest lane of each warp; SHFL by whether the copies have landed; SRD by the fields of each register. -/
theorem lanesAndSpecialRegisters : Obligations.LanesAndSpecialRegisters := by
  unfold Obligations.LanesAndSpecialRegisters
  refine ⟨fun a d st s h => ?_, fun a b d st s h => ⟨fun hl => ?_, fun hl => ?_⟩, fun sp d st s h => ?_⟩
  · obtain ⟨s', he, ho, hb, hw⟩ := execSmov_done h
    refine ⟨s', he, ho, hb, fun t ht hmin => ?_, fun w hw' => ?_⟩
    · rw [hw, if_pos (List.mem_map_of_mem ht)]
      unfold smovWarp
      rw [lowestLane_eq ht hmin]
      rfl
    · rw [hw, if_neg (by simpa using hw')]
  · obtain ⟨s', he, hb, ho⟩ := exec_gives h rfl (d := d) (due := 0) (n := fun t => pcOf s t + 4)
      (v := fun t => (laneNamed s (laneThread t (Fin.ofNat 32 (readSrc s t 0 b).toNat)) a).val) (act := shflAct a b d)
      (if_pos (by simpa [now] using hl))
    exact ⟨s', he, ho, hb.congr fun t th e => by rw [pcOf_eq e, laneOfWord]; rfl⟩
  · exact issue_hold (act := shflAct a b d) h (if_neg (by simpa [now] using hl))
  · obtain ⟨s', he, hb, ho⟩ := exec_gives h rfl (d := d) (due := now s + 2) (n := fun t => pcOf s t + 4)
      (v := fun t => ((threadOf s t).map fun th => specialRule s t th sp).getD 0) (act := fun ts s =>
        .done (ts.foldl (fun x t => match threadOf s t with
          | none => x
          | some th => giveThread x t d (BitVec.ofNat 64 (specialValue s t th sp)) (cycOf s s.focus.core + latShort) none) s)
        (advance s ts)) (congrArg (fun x => Act.done x _) (srd_fold (fun t ht => (issuable_thread h ht).1.imp fun _ h => h.1) sp d))
    exact ⟨s', he, ho, hb.congr fun t th e => by rw [pcOf_eq e]; simp only [e]; rfl⟩

end Sys2Proof.Machine
end

section
/-! PROOFS. TAIL and EXIT (R76, R86, R93, R302). -/

namespace Sys2Proof.Machine

/-! ### Mask bits -/

/-- The bit of a word with a single bit set. -/
theorem getLsbD_one_shiftLeft {n : Nat} (i j : Nat) : (1#n <<< i).getLsbD j = (decide (j < n) && decide (j = i)) := by
  rw [BitVec.getLsbD_shiftLeft, BitVec.getLsbD_one]
  by_cases hj : j < n
  · by_cases h : j < i
    · simp [h, show j ≠ i by omega]
    · simp [h, hj, show j - i = 0 ↔ j = i by omega, show 0 < n by omega]
  · simp [hj]

/-- A thread's bits are cleared, and no other (R86). -/
theorem maskBit_clearMaskBits (s : State) (t : ThreadKey) (w : WarpKey) (k : Fin 12) (l : Fin 32) :
    maskBit (clearMaskBits s t) w k l = (maskBit s w k l && !decide (w = warpKeyOf t ∧ l = laneOf t)) := by
  unfold maskBit maskOfWarp clearMaskBits modWarp
  rw [tget_tmod]
  split
  next h =>
    subst h
    cases tget s.warps (warpKeyOf t) with
    | none => simp
    | some x =>
      simp only [Option.map_some, Option.getD_some, Fin.getElem_fin, Vector.getElem_mapIdx, BitVec.getLsbD_and, BitVec.getLsbD_not,
        getLsbD_one_shiftLeft, l.isLt, decide_true, Bool.true_and, true_and, Fin.ext_iff]
  next h => simp [Ne.symm h]

/-! ### One thread -/

/-- A thread that has ended (R93): at home it keeps its registers, away its home lane's stand. -/
def endedThread (th : Thread) : Thread :=
  { th with status := .ended, pfx := Pfx.empty, regs := (th.away.map (·.home)).getD th.regs, critOpen := false, step := .off
            inBar := none, leaving := none, recalled := false }

/-- A Ready thread ends: its mask bits clear at home, and a notice goes home where it is away (R93, R302). -/
theorem endThread_ready {s : State} {t : ThreadKey} {th : Thread} (h : threadOf s t = some th) (hr : th.status = .live .ready) :
    endThread s t = if th.away.isSome then { modThread s t (fun _ => endedThread th) with endNotes := s.endNotes ++ [⟨t⟩] }
      else clearMaskBits (modThread s t fun _ => endedThread th) t := by
  have hdrop : dropWait s th = s := by rw [dropWait, hr]
  simp only [endThread, h, hdrop, endedThread]
  cases th.away <;> rfl

/-- The thread after EXIT or TAIL, where `waits` says that EXIT waits for its stores (R93). -/
def leftThread (waits : Bool) (th : Thread) : Thread := if waits then { th with status := .live .exiting } else endedThread th

/-- What EXIT and TAIL do with one thread. -/
def leaveOne (waits : ThreadKey → Bool) (a : State) (t : ThreadKey) : State :=
  if waits t then modThread a t fun th => { th with status := .live .exiting } else endThread a t

/-! ### The issue group -/

/-- The threads of a list have ended or are Exiting, and nothing else has happened since `s`. -/
structure HaveLeft (waits : ThreadKey → Bool) (s : State) (gone : List ThreadKey) (a : State) : Prop where
  rest : a = { s with threads := a.threads, warps := a.warps, endNotes := a.endNotes }
  threads : ∀ t, threadOf a t = if t ∈ gone then (threadOf s t).map (leftThread (waits t)) else threadOf s t
  bits : ∀ t ∈ gone, waits t = false → ∀ th, threadOf s t = some th → th.away = none →
    ∀ k, maskBit a (warpKeyOf t) k (laneOf t) = false
  notes : ∀ t ∈ gone, waits t = false → ∀ th, threadOf s t = some th → th.away.isSome = true → ⟨t⟩ ∈ a.endNotes

theorem HaveLeft.nil (waits : ThreadKey → Bool) (s : State) : HaveLeft waits s [] s :=
  ⟨rfl, by simp, by simp, by simp⟩

theorem HaveLeft.cons {waits : ThreadKey → Bool} {s a : State} {gone : List ThreadKey} (h : HaveLeft waits s gone a)
    {t : ThreadKey} (ht : t ∉ gone) {th : Thread} (hth : threadOf s t = some th) (hr : th.status = .live .ready) :
    HaveLeft waits s (t :: gone) (leaveOne waits a t) := by
  have hat : threadOf a t = some th := by rw [h.threads, if_neg ht, hth]
  have hthreads {f : Thread → Thread} (hf : f th = leftThread (waits t) th) (u : ThreadKey) :
      threadOf (modThread a t f) u = if u ∈ t :: gone then (threadOf s u).map (leftThread (waits u)) else threadOf s u := by
    rw [threadOf_modThread, hat, Option.map_some, hf, h.threads]
    by_cases hu : t = u
    · subst hu; simp [hth]
    · simp [hu, Ne.symm hu]
  have hsome {u : ThreadKey} {x : Thread} (hx : threadOf s u = some x) (hu : u = t) : x = th :=
    Option.some.inj (hx.symm.trans (hu ▸ hth))
  unfold leaveOne
  split
  next hw =>
    have hleft : leftThread (waits t) th = { th with status := .live .exiting } := if_pos hw
    refine ⟨by rw [modThread, h.rest], hthreads hleft.symm, fun u hu hnw x hx hax k => ?_, fun u hu hnw x hx hax => ?_⟩
    all_goals
      have hug : u ∈ gone := (List.mem_cons.mp hu).resolve_left fun e => by simp [e, hw] at hnw
    · exact h.bits u hug hnw x hx hax k
    · exact h.notes u hug hnw x hx hax
  next hw =>
    have hleft : leftThread (waits t) th = endedThread th := if_neg hw
    rw [endThread_ready hat hr]
    split
    next haway =>
      refine ⟨by rw [modThread, h.rest], hthreads hleft.symm, fun u hu hnw x hx hax k => ?_, fun u hu hnw x hx hax => ?_⟩
      · have hug : u ∈ gone := (List.mem_cons.mp hu).resolve_left fun e => by simp [hsome hx e ▸ hax] at haway
        exact h.bits u hug hnw x hx hax k
      · rcases List.mem_cons.mp hu with rfl | hug
        · exact List.mem_append_right _ (List.mem_singleton.mpr rfl)
        · exact List.mem_append_left _ (h.notes u hug hnw x hx hax)
    next haway =>
      refine ⟨by rw [clearMaskBits, modWarp, modThread, h.rest], hthreads hleft.symm, fun u hu hnw x hx hax k => ?_,
        fun u hu hnw x hx hax => ?_⟩
      · rw [maskBit_clearMaskBits]
        rcases List.mem_cons.mp hu with rfl | hug
        · simp
        · exact Bool.and_eq_false_imp.mpr fun hb => absurd ((h.bits u hug hnw x hx hax k).symm.trans hb) Bool.false_ne_true
      · have hug : u ∈ gone := (List.mem_cons.mp hu).resolve_left fun e => haway (hsome hx e ▸ hax)
        exact h.notes u hug hnw x hx hax

/-- Ready threads, none of them twice, leave one after another. -/
theorem haveLeft_foldl {waits : ThreadKey → Bool} {s : State} (ts : List ThreadKey) :
    ∀ {gone : List ThreadKey} {a : State}, HaveLeft waits s gone a → ts.Nodup → (∀ t ∈ ts, t ∉ gone) →
      (∀ t ∈ ts, ∃ th, threadOf s t = some th ∧ th.status = .live .ready) →
      HaveLeft waits s (ts.reverse ++ gone) (ts.foldl (leaveOne waits) a) := by
  induction ts with
  | nil => exact fun h _ _ _ => h
  | cons t ts ih =>
    intro gone a h hn hgone hready
    obtain ⟨htn, hn⟩ := List.nodup_cons.mp hn
    obtain ⟨th, hth, hr⟩ := hready t List.mem_cons_self
    have h1 := h.cons (hgone t List.mem_cons_self) hth hr
    have h2 := ih h1 hn (fun u hu hm => by
      rcases List.mem_cons.mp hm with rfl | hm
      · exact htn hu
      · exact hgone u (List.mem_cons_of_mem _ hu) hm) fun u hu => hready u (List.mem_cons_of_mem _ hu)
    rwa [List.reverse_cons, List.append_assoc]

/-- A word whose threads end, or are Exiting where they wait for their stores. -/
theorem issue_leaves {i : Instr} {s : State} {act : List ThreadKey → State → Act} (h : issuable i s = true)
    (waits : ThreadKey → Bool)
    (hact : act s.focus.threads s = .done (s.focus.threads.foldl (leaveOne waits) s) (advance s s.focus.threads)) :
    ∃ s', issue i act s = .next s' ∧ (∀ a, memByte s'.mem a = memByte s.mem a) ∧
      s' = { s with threads := s'.threads, warps := s'.warps, endNotes := s'.endNotes, freeCount := s.freeCount + 1 } ∧
      (∀ t, t ∉ s.focus.threads → threadOf s' t = threadOf s t) ∧
      ∀ t ∈ s.focus.threads, ∀ th, threadOf s t = some th → ∃ th', threadOf s' t = some th' ∧
        if waits t then th'.status = .live .exiting ∧ th'.regs = th.regs
        else th'.status = .ended ∧ th'.critOpen = false ∧
          (th.away = none → ∀ k, maskBit s' (warpKeyOf t) k (laneOf t) = false) ∧
          (∀ x, th.away = some x → th'.regs = x.home ∧ ⟨t⟩ ∈ s'.endNotes) := by
  have hready (t : ThreadKey) (ht : t ∈ s.focus.threads) : ∃ th, threadOf s t = some th ∧ th.status = .live .ready ∧ th.step = .off :=
    (issuable_thread h ht).1
  have hleft := haveLeft_foldl s.focus.threads (.nil waits s) (issuable_nodup h) (fun _ _ => List.not_mem_nil)
    fun t ht => (hready t ht).imp fun _ hx => ⟨hx.1, hx.2.1⟩
  rw [List.append_nil] at hleft
  have hth (t : ThreadKey) : threadOf (s.focus.threads.foldl (leaveOne waits) s) t =
      if t ∈ s.focus.threads then (threadOf s t).map (leftThread (waits t)) else threadOf s t := by
    simpa using hleft.threads t
  obtain ⟨s', he, hget, hs'⟩ := issue_done h hact fun t ht x hx => by
    obtain ⟨th, e, -, hoff⟩ := hready t ht
    rw [hth, if_pos ht, e] at hx
    obtain rfl := Option.some.inj hx
    unfold leftThread
    split
    · exact hoff
    · rfl
  have hmask (w : WarpKey) (k : Fin 12) (l : Fin 32) : maskBit s' w k l = maskBit (s.focus.threads.foldl (leaveOne waits) s) w k l := by
    rw [hs']; rfl
  have hnotes : s'.endNotes = (s.focus.threads.foldl (leaveOne waits) s).endNotes := by rw [hs']
  refine ⟨s', he, fun a => by rw [hs', hleft.rest], by rw [hs', hleft.rest], fun t ht => ?_, fun t ht th e => ?_⟩
  · rw [hget, if_neg ht, hth, if_neg ht]
  · refine ⟨_, by rw [hget, if_pos ht, hth, if_pos ht, e]; rfl, ?_⟩
    have hgone := List.mem_reverse.mpr ht
    cases hw : waits t with
    | true => exact ⟨rfl, rfl⟩
    | false =>
      refine ⟨rfl, rfl, fun ha k => ?_, fun x ha => ⟨?_, ?_⟩⟩
      · rw [hmask]
        exact hleft.bits t hgone hw th e ha k
      · simp [retireThread, leftThread, endedThread, ha]
      · rw [hnotes]
        exact hleft.notes t hgone hw th e (by rw [ha]; rfl)

/-- Settles O34: EXIT leaves the threads with stores Exiting, TAIL none. -/
theorem threadsEnd : Obligations.ThreadsEnd := by
  unfold Obligations.ThreadsEnd
  intro st s i hi h
  rcases hi with rfl | rfl
  · simp only [true_and]
    exact issue_leaves h (storesOutstanding s) (act := fun ts s => .done (ts.foldl (leaveOne (storesOutstanding s)) s) (advance s ts)) rfl
  · simp only [reduceCtorEq, false_and, if_false]
    exact issue_leaves h (fun _ => false) (act := fun ts s => .done (ts.foldl (leaveOne fun _ => false) s) (advance s ts)) rfl

end Sys2Proof.Machine
end

section
/-! SUPPORT. Tables whose keys stand once, and the end of a wait (R98, R100). -/

namespace Sys2Proof.Machine

/-! ### Tables whose keys stand once -/

section Tables

variable {K V : Type} [DecidableEq K]

theorem tget_of_mem {t : Tab K V} (h : (t.map (·.1)).Nodup) {k : K} {v : V} (hm : (k, v) ∈ t) : tget t k = some v := by
  induction t with
  | nil => cases hm
  | cons e t ih =>
    obtain ⟨k', v'⟩ := e
    obtain ⟨hn, ht⟩ := List.nodup_cons.mp h
    rcases List.mem_cons.mp hm with he | hm
    · cases he; simp [tget]
    · have hne : k' ≠ k := fun e => hn (e ▸ List.mem_map_of_mem (f := (·.1)) hm)
      rw [tget, if_neg hne, ih ht hm]

theorem mem_iff_tget {t : Tab K V} (h : (t.map (·.1)).Nodup) {k : K} {v : V} : (k, v) ∈ t ↔ tget t k = some v :=
  ⟨tget_of_mem h, mem_of_tget⟩

/-- A key stands in the table that has a value. -/
theorem mem_keys_iff {t : Tab K V} {k : K} : k ∈ t.map (·.1) ↔ tget t k ≠ none := by
  induction t with
  | nil => simp
  | cons e t ih =>
    obtain ⟨k', v'⟩ := e
    rw [List.map_cons, List.mem_cons, ih, tget]
    split
    next h => simp [h]
    next h => simp [Ne.symm h]

theorem tmod_tmod (t : Tab K V) (k : K) (f g : V → V) : tmod (tmod t k f) k g = tmod t k fun v => g (f v) := by
  have hset (v v' : V) : tset (tset t k v) k v' = tset t k v' := by
    induction t with
    | nil => simp [tset]
    | cons e t ih =>
      obtain ⟨k', w⟩ := e
      rw [tset, tset]
      split
      next h => simp [tset]
      next h => rw [tset, if_neg h, ih]
  unfold tmod
  cases e : tget t k with
  | none => simp [e]
  | some v => simp [hset]

omit [DecidableEq K] in
theorem nodup_tkeys {t : Tab K V} (h : (t.map (·.1)).Nodup) (p : K → V → Bool) : (tkeys t p).Nodup :=
  ((List.filter_sublist).map _).nodup h

theorem mem_tkeys_iff {t : Tab K V} (h : (t.map (·.1)).Nodup) {p : K → V → Bool} {k : K} :
    k ∈ tkeys t p ↔ ∃ v, tget t k = some v ∧ p k v = true := by
  simp only [tkeys, List.mem_map, List.mem_filter, Prod.exists, exists_and_right, exists_eq_right]
  exact exists_congr fun v => and_congr_left fun _ => mem_iff_tget h

end Tables

theorem modThread_modThread (s : State) (t : ThreadKey) (f g : Thread → Thread) :
    modThread (modThread s t f) t g = modThread s t fun th => g (f th) := by
  rw [modThread, modThread, tmod_tmod]; rfl

/-- A change by what the thread is. -/
theorem modThread_const {s : State} {t : ThreadKey} {th : Thread} (h : threadOf s t = some th) (f : Thread → Thread) :
    (modThread s t fun _ => f th) = modThread s t f := by
  have h' : tget s.threads t = some th := h
  simp only [modThread, tmod, h']

/-- A fold that changes each thread of a list once, and keeps the rest of the state within `P`. -/
theorem foldl_perThread {s0 s : State} {F : State → ThreadKey → State} {G : ThreadKey → Thread → Thread} {P : State → Prop} {ts : List ThreadKey}
    (hn : ts.Nodup) (hP : P s) (hs : ∀ u ∈ ts, threadOf s u = threadOf s0 u)
    (h : ∀ a, ∀ t ∈ ts, P a → threadOf a t = threadOf s0 t →
      P (F a t) ∧ ∀ u, threadOf (F a t) u = if t = u then (threadOf a t).map (G t) else threadOf a u) :
    P (ts.foldl F s) ∧ ∀ u, threadOf (ts.foldl F s) u = if u ∈ ts then (threadOf s u).map (G u) else threadOf s u := by
  induction ts generalizing s with
  | nil => exact ⟨hP, by simp⟩
  | cons t ts ih =>
    obtain ⟨ht, hn⟩ := List.nodup_cons.mp hn
    obtain ⟨hP1, hth⟩ := h s t List.mem_cons_self hP (hs t List.mem_cons_self)
    have hother {u : ThreadKey} (hu : u ∈ ts) : threadOf (F s t) u = threadOf s u := by
      rw [hth, if_neg fun e : t = u => ht (e ▸ hu)]
    obtain ⟨hP2, hth2⟩ := ih hn hP1 (fun u hu => (hother hu).trans (hs u (List.mem_cons_of_mem _ hu)))
      fun a u hu => h a u (List.mem_cons_of_mem _ hu)
    refine ⟨hP2, fun u => ?_⟩
    rw [List.foldl_cons, hth2]
    by_cases hu : u ∈ ts
    · rw [if_pos hu, if_pos (List.mem_cons_of_mem _ hu), hother hu]
    · rw [if_neg hu, hth]
      by_cases he : t = u
      · subst he; rw [if_pos rfl, if_pos List.mem_cons_self]
      · rw [if_neg he, if_neg (by simp [hu, Ne.symm he])]

/-! ### The end of a wait -/

/-- A thread whose wait ends: it is Ready, or has Ready recorded while it is Stopped or Saved (R98, R100). -/
def wokenThread (reason : Nat) (th : Thread) : Thread :=
  match th.status with
  | .live (.waiting _) | .stopped (.waiting _) | .saved (.waiting _) =>
    { th with status := th.status.setLive .ready, wake := wakeAs th reason, savedMark := false, dozedMark := false }
  | _ => th

/-- The save of a thread's group is abandoned when the thread wakes (R317, R318). -/
def unparked (s : State) (t : ThreadKey) : State :=
  match gidOf t with
  | some g => resetPark s g
  | none => s

theorem threadOf_unparked (s : State) (t u : ThreadKey) : threadOf (unparked s t) u = threadOf s u := by
  unfold unparked
  split <;> rfl

theorem unparked_rest (s : State) (t : ThreadKey) : unparked s t = { s with groups := (unparked s t).groups } := by
  unfold unparked
  split <;> rfl

/-- A wait ends that no step stops behind (R100, R356). -/
theorem wakeThread_eq {s : State} {t : ThreadKey} (h : ∀ th, threadOf s t = some th → th.step ≠ .counted) (reason : Nat) :
    wakeThread s t reason = modThread (unparked s t) t (wokenThread reason) := by
  unfold wakeThread
  extract_lets x
  have hx : x = unparked s t := rfl
  clear_value x
  subst hx
  cases e : threadOf (unparked s t) t with
  | none => exact (modThread_same _ _ _ (by simp [e])).symm
  | some th =>
    have hc : th.step ≠ .counted := h th (by rw [← threadOf_unparked s t, e])
    rw [← modThread_const e (wokenThread reason)]
    simp only [hc, if_false, wokenThread]
    cases hst : th.status with
    | live l => cases l <;> simp [Status.setLive, modThread_same, e]
    | stopped l => cases l <;> simp [Status.setLive, modThread_same, e]
    | saved l => cases l <;> simp [Status.setLive, modThread_same, e]
    | _ => simp [modThread_same, e]

theorem threadOf_wakeThread {s : State} {t : ThreadKey} (h : ∀ th, threadOf s t = some th → th.step ≠ .counted) (reason : Nat)
    (u : ThreadKey) :
    threadOf (wakeThread s t reason) u = if t = u then (threadOf s t).map (wokenThread reason) else threadOf s u := by
  rw [wakeThread_eq h, threadOf_modThread, threadOf_unparked, threadOf_unparked]

theorem wakeThread_rest {s : State} {t : ThreadKey} (h : ∀ th, threadOf s t = some th → th.step ≠ .counted) (reason : Nat) :
    wakeThread s t reason = { s with
      threads := (wakeThread s t reason).threads, groups := (wakeThread s t reason).groups } := by
  rw [wakeThread_eq h, modThread, unparked_rest]

end Sys2Proof.Machine
end

section
/-! PROOFS. JOIN, LEAVE, WAITK, VOTE and MASK_RELEASE (R86 to R90, R300). -/

namespace Sys2Proof.Machine

/-! ### JOIN and LEAVE -/

/-- A state in which only warps have changed. -/
theorem foldl_setMaskBit_rest (ts : List ThreadKey) (k : Fin 12) (v : Bool) (s : State) :
    ts.foldl (fun a t => setMaskBit a t k v) s = { s with warps := (ts.foldl (fun a t => setMaskBit a t k v) s).warps } :=
  foldl_holds (fun a => a = { s with warps := a.warps }) _ (fun a t h => by rw [setMaskBit, modWarp, h]) ts s rfl

/-- A place of a vector after one place was set. -/
theorem getElem_set_fin {α : Type} {n : Nat} (v : Vector α n) (k j : Fin n) (a : α) : (v.set k a)[j] = if k = j then a else v[j] := by
  simp only [Fin.getElem_fin, Vector.getElem_set, Fin.ext_iff]

/-- The bits of a mask register with one bit written. -/
theorem getLsbD_writeBit (m : BitVec 32) (v : Bool) (i l : Fin 32) :
    (if v then m ||| (1#32 <<< i.val) else m &&& ~~~(1#32 <<< i.val)).getLsbD l = if i = l then v else m.getLsbD l := by
  have hl : decide (l.val < 32) = true := decide_eq_true l.isLt
  by_cases h : i = l
  · subst h
    cases v <;> simp only [Bool.false_eq_true, if_false, if_true, BitVec.getLsbD_and, BitVec.getLsbD_or, BitVec.getLsbD_not,
      getLsbD_one_shiftLeft, hl, decide_true, Bool.and_self, Bool.not_true, Bool.and_false, Bool.or_true]
  · have hne : decide (l.val = i.val) = false := decide_eq_false fun e => h (Fin.ext e.symm)
    cases v <;> simp only [Bool.false_eq_true, if_false, if_true, BitVec.getLsbD_and, BitVec.getLsbD_or, BitVec.getLsbD_not,
      getLsbD_one_shiftLeft, hl, hne, h, Bool.and_false, Bool.not_false, Bool.and_true, Bool.or_false]

theorem setMaskBit_warp {s : State} {w : WarpKey} {x : Warp} (hx : tget s.warps w = some x) (t : ThreadKey) (k : Fin 12) (v : Bool) :
    ∃ x', tget (setMaskBit s t k v).warps w = some { x with k := x' } ∧
      ∀ j (l : Fin 32), x'[j].getLsbD l = if j = k ∧ warpKeyOf t = w ∧ laneOf t = l then v else x.k[j].getLsbD l := by
  rw [setMaskBit, modWarp, tget_tmod]
  by_cases hw : warpKeyOf t = w
  · subst hw
    refine ⟨_, by rw [if_pos rfl, hx]; rfl, fun j l => ?_⟩
    rw [getElem_set_fin]
    by_cases hj : k = j
    · subst hj
      simp only [if_true, getLsbD_writeBit, true_and]
    · simp only [hj, Ne.symm hj, if_false, false_and]
  · exact ⟨x.k, by rw [if_neg hw, hx], fun j l => by simp only [hw, false_and, and_false, if_false]⟩

/-- The bits of the threads of a list are written one after another (R88). -/
theorem foldl_setMaskBit_warp (ts : List ThreadKey) (k : Fin 12) (v : Bool) {s : State} {w : WarpKey} {x : Warp}
    (hx : tget s.warps w = some x) :
    ∃ x', tget (ts.foldl (fun a t => setMaskBit a t k v) s).warps w = some { x with k := x' } ∧
      ∀ j (l : Fin 32), x'[j].getLsbD l =
        if j = k ∧ (∃ t ∈ ts, warpKeyOf t = w ∧ laneOf t = l) then v else x.k[j].getLsbD l := by
  induction ts generalizing s x with
  | nil => exact ⟨x.k, hx, by simp⟩
  | cons t ts ih =>
    obtain ⟨m, hm, hbit⟩ := setMaskBit_warp hx t k v
    obtain ⟨x', hx', hbit'⟩ := ih hm
    refine ⟨x', hx', fun j l => ?_⟩
    rw [hbit', hbit]
    by_cases hj : j = k
    · by_cases ht : warpKeyOf t = w ∧ laneOf t = l <;> simp only [hj, ht, List.exists_mem_cons_iff, true_and, true_or, false_or,
        and_self, if_true, if_false, ite_self]
    · simp only [hj, false_and, if_false]

/-- JOIN and LEAVE (R88). -/
theorem issue_setsMask {i : Instr} {s : State} {act : List ThreadKey → State → Act} (h : issuable i s = true)
    (hhint : (instrShape i).hint = false) {k : Fin 12} {v : Bool}
    (hact : act s.focus.threads s = .done (s.focus.threads.foldl (fun a t => setMaskBit a t k v) s) (advance s s.focus.threads)) :
    ∃ s', issue i act s = .next s' ∧ OnlyThreads s s' ∧
      ThreadsBecome s s' (fun _ th => issued (now s) (instrShape i).st (th.pc + 4) th.regs th) ∧
      ∀ w x, tget s.warps w = some x → ∃ x', tget s'.warps w = some { x with k := x' } ∧
        ∀ j (l : Fin 32), x'[j].getLsbD l =
          if j = k ∧ (∃ t ∈ s.focus.threads, warpKeyOf t = w ∧ laneOf t = l) then v else x.k[j].getLsbD l := by
  have hrest := foldl_setMaskBit_rest s.focus.threads k v s
  obtain ⟨s', he, hb, hs'⟩ := issue_threads h hhint hact (fun _ th => th.regs)
    (fun t => by rw [hrest]; split <;> simp [threadOf]) (by rw [hrest])
  have hb := hb.congr (g := fun _ th => issued (now s) (instrShape i).st (th.pc + 4) th.regs th) fun t th e => by rw [pcOf_eq e]
  refine ⟨s', he, ⟨fun t ht => by rw [hb, if_neg ht], fun a => by rw [hs', hrest], by rw [hs', hrest]⟩, hb, fun w x hx => ?_⟩
  rw [hs']
  exact foldl_setMaskBit_warp s.focus.threads k v hx

/-! ### WAITK and VOTE -/

/-- What the arrival at a mask makes of a thread: a VOTE owes it a result, and it waits with its predicate (R89). -/
def arrived (s : State) (k : Fin 12) (vote : Option (VoteForm × Src × PDst)) (t : ThreadKey) (th : Thread) : Thread :=
  { th with
    regs := match vote with
      | some (_, _, d) => th.regs.give d 0 0 (some s.seq)
      | none => th.regs
    status := .live (.waiting (.mask k (vote.map fun x => (x.1, readSrc s t 0 x.2.1 != 0)) s.seq)) }

/-- A member of mask k of some home warps that is away: it is recalled (R89, R300). -/
def RecallHits (s : State) (ws : List WarpKey) (k : Fin 12) (t : ThreadKey) (th : Thread) : Prop :=
  th.away.isSome = true ∧ th.isEnded = false ∧ warpKeyOf t ∈ ws ∧ maskBit s (warpKeyOf t) k (laneOf t) = true

def recalledIf (p : Prop) [Decidable p] (th : Thread) : Thread := if p then { th with recalled := true } else th

open Classical in
/-- What the recall of the members of mask k makes of a thread. -/
noncomputable def recalledAt (s : State) (ws : List WarpKey) (k : Fin 12) (t : ThreadKey) (th : Thread) : Thread :=
  recalledIf (RecallHits s ws k t th) th

theorem recallHits_cons {s : State} {w : WarpKey} {ws : List WarpKey} {k : Fin 12} {t : ThreadKey} {th : Thread} :
    RecallHits s (w :: ws) k t th ↔ RecallHits s [w] k t th ∨ RecallHits s ws k t th := by
  simp only [RecallHits, List.mem_cons, List.not_mem_nil, or_false]
  tauto

theorem recalledAt_cons (s : State) (w : WarpKey) (ws : List WarpKey) (k : Fin 12) (t : ThreadKey) (th : Thread) :
    recalledAt s ws k t (recalledAt s [w] k t th) = recalledAt s (w :: ws) k t th := by
  by_cases h : RecallHits s [w] k t th
  · have h1 : recalledAt s [w] k t th = { th with recalled := true } := if_pos h
    have h2 : recalledAt s (w :: ws) k t th = { th with recalled := true } := if_pos (recallHits_cons.mpr (.inl h))
    rw [h1, h2, recalledAt, recalledIf]
    split <;> rfl
  · have h1 : recalledAt s [w] k t th = th := if_neg h
    rw [h1]
    by_cases hws : RecallHits s ws k t th
    · exact (if_pos hws).trans (if_pos (recallHits_cons.mpr (.inr hws))).symm
    · exact (if_neg hws).trans (if_neg fun hc => (recallHits_cons.mp hc).elim h hws).symm

theorem foldl_recallMembers_rest (ws : List WarpKey) (k : Fin 12) (s : State) :
    ws.foldl (fun a w => recallMembers a w k) s = { s with threads := (ws.foldl (fun a w => recallMembers a w k) s).threads } :=
  foldl_holds (fun a => a = { s with threads := a.threads }) _ (fun a t h => by rw [recallMembers, h]) ws s rfl

theorem threadOf_recallMembers (s : State) (w : WarpKey) (k : Fin 12) (t : ThreadKey) :
    threadOf (recallMembers s w k) t = (threadOf s t).map (recalledAt s [w] k t) := by
  refine tget_map s.threads _ (recalledAt s [w] k) (fun u th => ?_) t
  have hc : (warpKeyOf u = w ∧ th.away.isSome ∧ th.isEnded = false ∧ (maskOfWarp s w k).getLsb (laneOf u)) ↔
      RecallHits s [w] k u th := by
    refine ⟨?_, ?_⟩
    · rintro ⟨rfl, haway, hended, hbit⟩
      exact ⟨haway, hended, List.mem_singleton.mpr rfl, hbit⟩
    · rintro ⟨haway, hended, hw, hbit⟩
      obtain rfl := List.mem_singleton.mp hw
      exact ⟨rfl, haway, hended, hbit⟩
  by_cases h : RecallHits s [w] k u th
  · exact (if_pos (hc.mpr h)).trans (congrArg _ (if_pos h).symm)
  · exact (if_neg (hc.not.mpr h)).trans (congrArg _ (if_neg h).symm)

theorem threadOf_foldl_recallMembers (ws : List WarpKey) (k : Fin 12) (s : State) (t : ThreadKey) :
    threadOf (ws.foldl (fun a w => recallMembers a w k) s) t = (threadOf s t).map (recalledAt s ws k t) := by
  induction ws generalizing s with
  | nil =>
    have hn : recalledAt s [] k t = id := funext fun th => if_neg fun h => List.not_mem_nil h.2.2.1
    rw [hn, Option.map_id]; rfl
  | cons w ws ih =>
    rw [List.foldl_cons, ih, threadOf_recallMembers, Option.map_map]
    exact Option.map_congr fun th _ => recalledAt_cons s w ws k t th

theorem arriveMask_eq (s : State) (ts : List ThreadKey) (k : Fin 12) (vote : Option (VoteForm × Src × PDst)) :
    arriveMask s ts k vote = { (warpsOf ts).foldl (fun a w => recallMembers a w k)
      (ts.foldl (fun a t => modThread a t (arrived s k vote t)) s) with seq := s.seq + 1 } := by
  have hstep : (fun (a : State) t =>
      match vote with
      | none => waitThread a t (.mask k none s.seq)
      | some (f, src, d) =>
        waitThread (giveThread a t d 0 0 (some s.seq)) t (.mask k (some (f, readSrc s t 0 src != 0)) s.seq)) =
      fun a t => modThread a t (arrived s k vote t) := by
    funext a t
    cases vote with
    | none => rfl
    | some x => exact modThread_modThread ..
  rw [← hstep]
  rfl

/-- The arrival of an issue group whose threads are at home: they wait, and away members of their masks are recalled (R89, R300). -/
theorem arriveMask_spec {s : State} {ts : List ThreadKey} (hn : ts.Nodup) (hhome : ∀ t ∈ ts, isAway s t = false) (k : Fin 12)
    (vote : Option (VoteForm × Src × PDst)) :
    arriveMask s ts k vote = { s with threads := (arriveMask s ts k vote).threads, seq := s.seq + 1 } ∧
    ∀ t, threadOf (arriveMask s ts k vote) t = if t ∈ ts then (threadOf s t).map (arrived s k vote t)
      else (threadOf s t).map (recalledAt s (warpsOf ts) k t) := by
  have hrest := foldl_modThread_rest ts (arrived s k vote) s
  have hth := threadOf_foldl ts hn (arrived s k vote) s
  rw [arriveMask_eq]
  generalize ts.foldl (fun a t => modThread a t (arrived s k vote t)) s = s1 at hrest hth ⊢
  have hfold := foldl_recallMembers_rest (warpsOf ts) k s1
  refine ⟨by rw [hfold, hrest], fun t => ?_⟩
  have hm (ws : List WarpKey) (th : Thread) : recalledAt s1 ws k t th = recalledAt s ws k t th := by
    have : maskBit s1 = maskBit s := by rw [hrest]; rfl
    unfold recalledAt RecallHits
    rw [this]
  refine (threadOf_foldl_recallMembers (warpsOf ts) k s1 t).trans ?_
  rw [hth]
  split
  next ht =>
    cases e : threadOf s t with
    | none => rfl
    | some th =>
      have haway : th.away.isSome = false := by simpa [isAway, e] using hhome t ht
      refine congrArg some (if_neg fun h => ?_)
      exact absurd (h.1.symm.trans haway) (by simp)
  · exact Option.map_congr fun th _ => hm _ th

/-- WAITK and VOTE (R89, R90). -/
theorem issue_arrives {i : Instr} {s : State} {act : List ThreadKey → State → Act} (h : issuable i s = true)
    (hhint : (instrShape i).hint = false) (hcarry : (instrShape i).carry = true) {k : Fin 12} {vote : Option (VoteForm × Src × PDst)}
    (hact : act s.focus.threads s = .done (arriveMask s s.focus.threads k vote) (advance s s.focus.threads)) :
    ∃ s', issue i act s = .next s' ∧
      s' = { s with threads := s'.threads, seq := s.seq + 1, freeCount := s.freeCount + 1 } ∧
      (∀ t ∈ s.focus.threads, threadOf s' t = (threadOf s t).map fun th =>
        { issued (now s) (instrShape i).st (th.pc + 4) (arrived s k vote t th).regs th with
          status := (arrived s k vote t th).status }) ∧
      ∀ t, t ∉ s.focus.threads → threadOf s' t = (threadOf s t).map (recalledAt s (warpsOf s.focus.threads) k t) := by
  obtain ⟨hrest, hth⟩ := arriveMask_spec (issuable_nodup h) (fun t ht => (issuable_thread h ht).2.1 hcarry) k vote
  have hnow : now (arriveMask s s.focus.threads k vote) = now s := by rw [hrest]; rfl
  obtain ⟨s', he, hget, hs'⟩ := issue_done h hact fun t ht x hx => by
    obtain ⟨⟨th, e, -, hoff⟩, -⟩ := issuable_thread h ht
    rw [hth, if_pos ht, e] at hx
    obtain rfl := Option.some.inj hx
    exact hoff
  refine ⟨s', he, by rw [hs', hrest], fun t ht => ?_, fun t ht => by rw [hget, if_neg ht, hth, if_neg ht]⟩
  rw [hget, if_pos ht, hth, if_pos ht, hnow, Option.map_map]
  refine Option.map_congr fun th e => ?_
  simp only [Function.comp_apply, retireThread, issued, arrived, hhint, pcOf_eq e, Bool.false_eq_true, if_false]

/-! ### The release of a mask -/

/-- A bit that a fold sets for each element that passes a test. -/
theorem foldl_setBits {n : Nat} {α : Type} (l : List α) (p : α → Bool) (slot : α → Fin n) (m : BitVec n) (i : Fin n) :
    (l.foldl (fun (m : BitVec n) e => if p e = true then m ||| (1#n <<< (slot e).val) else m) m).getLsbD i = true ↔
      m.getLsbD i = true ∨ ∃ e ∈ l, p e = true ∧ slot e = i := by
  induction l generalizing m with
  | nil => simp only [List.foldl_nil, List.not_mem_nil, false_and, exists_false, or_false]
  | cons e l ih =>
    rw [List.foldl_cons, ih, List.exists_mem_cons_iff, ← or_assoc]
    refine or_congr_left ?_
    by_cases hp : p e = true
    · rw [if_pos hp, BitVec.getLsbD_or, getLsbD_one_shiftLeft, decide_eq_true i.isLt, Bool.true_and, Bool.or_eq_true,
        decide_eq_true_eq, ← Fin.ext_iff, eq_comm (a := i), and_iff_right hp]
    · rw [if_neg hp, or_iff_left fun h => hp h.1]

/-- A thread waits at mask k with a predicate that holds. -/
def votesTrue (th : Thread) (k : Fin 12) : Bool :=
  match maskWait th k with
  | some (some (_, true), _) => true
  | _ => false

theorem votesTrue_iff {th : Thread} {k : Fin 12} : votesTrue th k = true ↔ ∃ f tag, maskWait th k = some (some (f, true), tag) := by
  unfold votesTrue
  split
  next f tag h => simp [h]
  next h => simpa using h

theorem ballot_eq (s : State) (w : WarpKey) (m : BitVec 32) (k : Fin 12) : ballot s w m k = s.threads.foldl (fun (b : BitVec 32) e =>
    if (decide (warpKeyOf e.1 = w ∧ m.getLsb (laneOf e.1) = true) && votesTrue e.2 k) = true
      then b ||| (1#32 <<< (laneOf e.1).val) else b) 0 := by
  unfold ballot
  congr 1
  funext b e
  by_cases h : warpKeyOf e.1 = w ∧ m.getLsb (laneOf e.1) = true
  · rw [if_pos h, decide_eq_true h, Bool.true_and, votesTrue]
    rcases maskWait e.2 k with _ | ⟨_ | ⟨f, _ | _⟩, tag⟩ <;> rfl
  · rw [if_neg h, decide_eq_false h, Bool.false_and, if_neg Bool.false_ne_true]

theorem eq_home_iff {t : ThreadKey} {g : Nat} {h : Fin 16} {l : Fin 32} :
    warpKeyOf t = .home g h ∧ laneOf t = l ↔ t = .home g h l :=
  ⟨fun ⟨hw, hl⟩ => thread_ext hw hl, fun e => e ▸ ⟨rfl, rfl⟩⟩

/-- The ballot by its bits (R90). -/
theorem ballot_bits {s : State} (hk : (s.threads.map (·.1)).Nodup) (g : Nat) (h : Fin 16) (k : Fin 12) (l : Fin 32) :
    (ballot s (.home g h) (maskOfWarp s (.home g h) k) k).getLsbD l = true ↔ maskBit s (.home g h) k l = true ∧
      ∃ th f tag, threadOf s (.home g h l) = some th ∧ maskWait th k = some (some (f, true), tag) := by
  have h0 : ((0 : BitVec 32).getLsbD l = true) ↔ False := by simp
  rw [ballot_eq, foldl_setBits, h0, false_or]
  simp only [Bool.and_eq_true, decide_eq_true_eq, votesTrue_iff, Prod.exists, mem_iff_tget hk]
  refine ⟨?_, ?_⟩
  · rintro ⟨t, th, hth, ⟨⟨hw, hbit⟩, f, tag, hv⟩, hl⟩
    obtain rfl := eq_home_iff.mp ⟨hw, hl⟩
    exact ⟨hbit, th, f, tag, hth, hv⟩
  · rintro ⟨hbit, th, f, tag, hth, hv⟩
    exact ⟨_, th, hth, ⟨⟨rfl, hbit⟩, f, tag, hv⟩, rfl⟩

/-- The condition of a release (R89): some thread waits at the mask, and so does every member, at home. -/
theorem maskReady_iff {s : State} (hk : (s.threads.map (·.1)).Nodup) (g : Nat) (h : Fin 16) (k : Fin 12) :
    maskReady s (.home g h) k = true ↔
      (∃ t th, threadOf s t = some th ∧ warpKeyOf t = .home g h ∧ (maskWait th k).isSome = true) ∧
      ∀ l, maskBit s (.home g h) k l = true →
        ∃ th, threadOf s (.home g h l) = some th ∧ (maskWait th k).isSome = true ∧ th.away = none := by
  simp only [maskReady, Bool.and_eq_true, List.any_eq_true, List.all_eq_true, List.mem_finRange, true_implies, Bool.or_eq_true,
    Bool.not_eq_true', decide_eq_true_eq, Prod.exists, mem_iff_tget hk]
  refine and_congr Iff.rfl (forall_congr' fun l => ?_)
  refine ⟨fun hl hbit => ?_, fun hl => ?_⟩
  · obtain ⟨t, th, hth, ⟨hw, hv⟩, haway⟩ := hl.resolve_left fun hf => Bool.false_ne_true (hf.symm.trans hbit)
    obtain rfl := eq_home_iff.mp hw
    exact ⟨th, hth, hv, Option.isNone_iff_eq_none.mp haway⟩
  · by_cases hbit : maskBit s (.home g h) k l = true
    · obtain ⟨th, hth, hv, haway⟩ := hl hbit
      exact .inr ⟨_, th, hth, ⟨⟨rfl, rfl⟩, hv⟩, Option.isNone_iff_eq_none.mpr haway⟩
    · exact .inl (Bool.eq_false_iff.mpr hbit)

/-- The releases that are due after the end of a die cycle (R89). -/
theorem maskDue_noteMasks {s : State} {w : WarpKey} (hw : tget s.warps w ≠ none) (k : Fin 12) :
    maskDue (noteMasks s w) w k = true ↔ maskDue s w k = true ∨ maskReady s w k = true := by
  obtain ⟨x, hx⟩ := Option.ne_none_iff_exists'.mp hw
  unfold maskDue noteMasks modWarp
  rw [tget_tmod_self, hx]
  simp only [Option.map_some, Option.getD_some]
  refine (foldl_setBits (List.finRange 12) (maskReady s w) id x.freed k).trans ?_
  simp

/-- The number of set bits, counted from the lowest (R90). -/
theorem popCount_eq (n : Nat) (x : Nat) : popCount n x = (List.range n).countP fun i => x.testBit i := by
  induction n generalizing x with
  | zero => rfl
  | succ n ih =>
    rw [popCount, ih, List.range_succ_eq_map, List.countP_cons, List.countP_map, Nat.add_comm]
    have h0 : x % 2 = if x.testBit 0 = true then 1 else 0 := by
      rw [Nat.testBit_zero]
      rcases Nat.mod_two_eq_zero_or_one x with h | h <;> simp [h]
    have hs : (fun i => x.testBit i) ∘ Nat.succ = fun i => (x / 2).testBit i := funext fun i => Nat.testBit_succ x i
    rw [← h0, hs]

theorem voteValue_eq (f : VoteForm) (m b : BitVec 32) : voteValue f m b = voteRule f m b := by
  cases f with
  | all => simp [voteValue, voteRule, boolWord]
  | any => simp [voteValue, voteRule, boolWord]
  | bal => exact BitVec.ofNat_toNat 64 b
  | cnt => rw [voteValue, voteRule, popCount_eq, onesOf, List.countP_eq_length_filter]; rfl

/-- A thread to which a release has delivered the value of its form, where the mask holds `m` and the ballot is `b`; it may issue from the
next cycle on (R89, R90). -/
def servedThread (s : State) (m b : BitVec 32) (v : Option (VoteForm × Bool)) (tag : Nat) (th : Thread) : Thread :=
  { th with
    readyAt := max th.readyAt (cycOf s th.place.core + 1)
    regs := match v with
      | some (f, _) => th.regs.deliver tag (voteRule f m b)
      | none => th.regs
    inBar := match v with
      | some (f, _) => th.inBar.map fun x => (x.1, x.2.deliver tag (voteRule f m b))
      | none => th.inBar }

/-- What the release of mask k makes of a thread of its home warp. -/
def releasedThread (s : State) (k : Fin 12) (m b : BitVec 32) (th : Thread) : Thread :=
  match maskWait th k with
  | none => th
  | some (v, tag) => wokenThread 1 (servedThread s m b v tag th)

/-- What MASK_RELEASE does with one thread. -/
def releaseStep (s : State) (k : Fin 12) (m b : BitVec 32) (a : State) (t : ThreadKey) : State :=
  match (threadOf s t).bind (maskWait · k) with
  | none => a
  | some (v, tag) =>
    let a1 := match v with
      | some (f, _) => deliverTo a t tag (voteValue f m b)
      | none => a
    releaseOne a1 t

/-- Nothing but threads and groups has changed since a state. -/
def OnlyThreadsAndGroups (s s' : State) : Prop := s' = { s with threads := s'.threads, groups := s'.groups }

theorem releaseStep_spec {s s1 a : State} {k : Fin 12} {m b : BitVec 32} {t : ThreadKey} (hdies : s1.dies = s.dies)
    (hstep : ∀ th, threadOf s t = some th → th.step ≠ .counted) (ha : OnlyThreadsAndGroups s1 a) (hat : threadOf a t = threadOf s t) :
    OnlyThreadsAndGroups s1 (releaseStep s k m b a t) ∧ ∀ u, threadOf (releaseStep s k m b a t) u =
      if t = u then (threadOf a t).map (releasedThread s k m b) else threadOf a u := by
  cases e : threadOf s t with
  | none =>
    have hr : releaseStep s k m b a t = a := by simp only [releaseStep, e, Option.bind_none]
    rw [hr]
    refine ⟨ha, fun u => ?_⟩
    split
    next h => rw [← h, hat, e]; rfl
    · rfl
  | some th =>
    have hat' : threadOf a t = some th := hat.trans e
    cases hw : maskWait th k with
    | none =>
      have hr : releaseStep s k m b a t = a := by simp only [releaseStep, e, Option.bind_some, hw]
      rw [hr]
      refine ⟨ha, fun u => ?_⟩
      split
      next h => rw [← h, hat', Option.map_some, releasedThread, hw]
      · rfl
    | some x =>
      obtain ⟨v, tag⟩ := x
      have hcyc (c : CoreId) : cycOf a c = cycOf s c := by rw [cycOf, cycOf, dieOf, dieOf, ha, hdies]
      have hr : releaseStep s k m b a t = wakeThread (modThread a t (servedThread s m b v tag)) t 1 := by
        simp only [releaseStep, e, Option.bind_some, hw]
        cases v with
        | none => simp only [releaseOne, hcyc]; rfl
        | some x =>
          have hc (c : CoreId) (n : Nat) (z : Word) : cycOf (deliverTo a t n z) c = cycOf s c := hcyc c
          simp only [releaseOne, hc, voteValue_eq]
          rw [deliverTo, modThread_modThread]
          rfl
      have hs2 (x : Thread) (hx : threadOf (modThread a t (servedThread s m b v tag)) t = some x) : x.step ≠ .counted := by
        rw [threadOf_modThread_self, hat', Option.map_some] at hx
        obtain rfl := Option.some.inj hx
        exact hstep th e
      rw [hr]
      refine ⟨?_, fun u => ?_⟩
      · rw [OnlyThreadsAndGroups, wakeThread_rest hs2, modThread, ha]
      · rw [threadOf_wakeThread hs2, threadOf_modThread_self, hat', threadOf_modThread]
        split
        · simp only [Option.map_some, releasedThread, hw]
        · rfl

/-- The warps once the release of mask k of a home warp has begun. -/
def unfreed (s : State) (w : WarpKey) (k : Fin 12) : State := modWarp s w fun x => { x with freed := x.freed &&& ~~~(1#12 <<< k.val) }

theorem execMaskRelease_eq {s : State} {g : Nat} {h : Fin 16} {k : Fin 12} (hdue : maskDue s (.home g h) k = true) :
    execMaskRelease g h k s = .next ((threadsOfWarp s (.home g h)).foldl
      (releaseStep s k (maskOfWarp s (.home g h) k) (ballot s (.home g h) (maskOfWarp s (.home g h) k) k)) (unfreed s (.home g h) k)) := by
  rw [execMaskRelease, if_pos hdue]
  rfl

theorem mem_threadsOfWarp {s : State} (hk : (s.threads.map (·.1)).Nodup) {w : WarpKey} {t : ThreadKey} :
    t ∈ threadsOfWarp s w ↔ threadOf s t ≠ none ∧ warpKeyOf t = w := by
  rw [threadsOfWarp, mem_tkeys_iff hk, Option.ne_none_iff_exists']
  simp [threadOf]

/-- A release that is due: the threads of the home warp are served, and the release is over (R89). -/
theorem maskRelease_spec {s : State} {g : Nat} {h : Fin 16} {k : Fin 12} (hk : (s.threads.map (·.1)).Nodup) (hs : NoStepDue s)
    (hdue : maskDue s (.home g h) k = true) : ∃ s', exec (.maskRelease g h k) s = .next s' ∧
      OnlyThreadsAndGroups (unfreed s (.home g h) k) s' ∧ ∀ t, threadOf s' t = if warpKeyOf t = .home g h
        then (threadOf s t).map (releasedThread s k (maskOfWarp s (.home g h) k)
          (ballot s (.home g h) (maskOfWarp s (.home g h) k) k)) else threadOf s t := by
  obtain ⟨hrest, hth⟩ := foldl_perThread (s0 := s) (s := unfreed s (.home g h) k) (ts := threadsOfWarp s (.home g h))
    (P := OnlyThreadsAndGroups (unfreed s (.home g h) k)) (nodup_tkeys hk _) rfl (fun _ _ => rfl) fun a t _ ha hat =>
      releaseStep_spec (s := s) (s1 := unfreed s (.home g h) k) rfl (fun th e => hs _ (mem_of_tget e)) ha hat
  refine ⟨_, execMaskRelease_eq hdue, hrest, fun t => (hth t).trans ?_⟩
  have hu : threadOf (unfreed s (.home g h) k) t = threadOf s t := rfl
  rw [hu]
  by_cases hw : warpKeyOf t = .home g h
  · cases e : threadOf s t with
    | none => simp
    | some th => rw [if_pos ((mem_threadsOfWarp hk).mpr ⟨by simp [e], hw⟩), if_pos hw]
  · rw [if_neg fun hm => hw ((mem_threadsOfWarp hk).mp hm).2, if_neg hw]

/-- A thread that waits at the mask is Ready with the value of its form, behind this cycle (R89, R90, R98). -/
theorem releasedThread_waiting {s : State} {k : Fin 12} {m b : BitVec 32} {th : Thread} {v : Option (VoteForm × Bool)} {tag : Nat}
    (h : th.status = .live (.waiting (.mask k v tag))) : releasedThread s k m b th =
      { servedThread s m b v tag th with status := .live .ready, wake := wakeAs th 1, savedMark := false, dozedMark := false } := by
  have hw : maskWait th k = some (v, tag) := by simp [maskWait, Thread.wait?, h]
  have hst : (servedThread s m b v tag th).status = .live (.waiting (.mask k v tag)) := h
  simp only [releasedThread, hw, wokenThread, hst, Status.setLive]
  rfl

/-- Settles O33: the words through their arrival and their bits; MASK_RELEASE thread by thread. -/
theorem masksAndVotes : Obligations.MasksAndVotes := by
  unfold Obligations.MasksAndVotes
  refine ⟨fun k st s i v hi h => ?_, fun a k d st s i f hi h => ?_, fun s g h k hkeys => ?_⟩
  · rcases hi with ⟨rfl, rfl⟩ | ⟨rfl, rfl⟩
    · exact issue_setsMask h rfl (act := fun ts s => .done (ts.foldl (fun a t => setMaskBit a t k true) s) (advance s ts)) rfl
    · exact issue_setsMask h rfl (act := fun ts s => .done (ts.foldl (fun a t => setMaskBit a t k false) s) (advance s ts)) rfl
  · obtain ⟨hst, hhint, hcarry, hexec⟩ : (instrShape i).st = st ∧ (instrShape i).hint = false ∧ (instrShape i).carry = true ∧
        exec i s = issue i (fun ts s => .done (arriveMask s ts k (f.map fun g => (g, a, d))) (advance s ts)) s := by
      rcases hi with ⟨rfl, rfl⟩ | ⟨rfl, rfl⟩ | ⟨rfl, rfl⟩ | ⟨rfl, rfl⟩ | ⟨rfl, rfl⟩ <;> exact ⟨rfl, rfl, rfl, rfl⟩
    obtain ⟨s', he, hrest, hin, hout⟩ := issue_arrives h hhint hcarry (act := fun ts s =>
      .done (arriveMask s ts k (f.map fun g => (g, a, d))) (advance s ts)) rfl
    refine ⟨s', hexec.trans he, hrest, fun b => by rw [hrest], fun t ht => ?_, fun t ht => ?_⟩
    · rw [hin t ht, hst]
      cases f <;> simp [arrived, bne, BEq.beq]
    · rw [hout t ht]
      refine Option.map_congr fun th _ => ?_
      have hc : RecallHits s (warpsOf s.focus.threads) k t th ↔ th.away.isSome = true ∧ th.isEnded = false ∧
          warpKeyOf t ∈ s.focus.threads.map warpKeyOf ∧ maskBit s (warpKeyOf t) k (laneOf t) = true := by
        rw [RecallHits, warpsOf, mem_dedup]
      by_cases hr : RecallHits s (warpsOf s.focus.threads) k t th
      · exact (if_pos hr).trans (if_pos (hc.mp hr)).symm
      · exact (if_neg hr).trans (if_neg (hc.not.mp hr)).symm
  · obtain ⟨hth, -⟩ := hkeys
    refine ⟨fun hw => ?_, fun hdue => ?_, fun hdue hs => ?_⟩
    · rw [maskDue_noteMasks hw, maskReady_iff hth]
    · rw [exec, execMaskRelease, hdue]; rfl
    · obtain ⟨s', he, hrest, hget⟩ := maskRelease_spec hth hs hdue
      refine ⟨s', _, he, fun l => ballot_bits hth g h k l, fun t th v tag hw e hst => ?_, fun t hw => by rw [hget, if_neg hw],
        fun v hv => ?_, fun x hx => ?_, fun a => by rw [hrest]; rfl⟩
      · refine ⟨_, by rw [hget, if_pos hw, e]; rfl, ?_⟩
        rw [releasedThread_waiting hst]
        exact ⟨rfl, rfl, rfl, Nat.lt_of_lt_of_le (Nat.lt_succ_self _) (le_max_right _ _), by cases v <;> rfl⟩
      · rw [hrest]
        exact tget_tmod_ne _ _ (Ne.symm hv)
      · refine ⟨_, by rw [hrest]; exact (tget_tmod_self ..).trans (by rw [hx]; rfl), rfl, fun j => ?_⟩
        simp only [BitVec.getLsbD_and, BitVec.getLsbD_not, getLsbD_one_shiftLeft, j.isLt, decide_true, Bool.true_and, ← Fin.ext_iff]
        rw [Bool.and_comm, decide_not]

end Sys2Proof.Machine
end

/-! PROOFS. O56: the controllers of the stacks, in a table that names a bank twice (R365, R369). -/

section
namespace Sys2Proof.Machine

/-- A bank that is owed some number of refreshes, and nothing else. -/
def bankOwed (n : Nat) : Bank := ⟨0, 0, n, 0, none, []⟩

/-- The package after reset, but for two entries of one bank: the first is owed no refresh, the second is owed one. -/
def twiceBanked : State :=
  { State.reset with dramBanks := [((0, 0, 0), bankOwed 0), ((0, 0, 0), bankOwed 1)] }

/-- The search for an owed refresh finds the second entry. -/
theorem owedBank_twiceBanked : owedBank twiceBanked 0 0 = some 0 := by decide

/-- A read of the bank finds the first. -/
theorem bankAt_twiceBanked_owed : (bankAt twiceBanked 0 0 0).owed = 0 := by decide

/-- Refutes O56: the statement ranges over every state, also over tables in which a key stands twice. Where the table of banks has two
entries for bank 0, of which only the second is owed a refresh, `owedBank` names the bank, but `bankAt` reads the first entry, which is
owed none. -/
theorem not_stacksAndLinks : ¬ Obligations.StacksAndLinks := by
  unfold Obligations.StacksAndLinks
  rintro ⟨grants, -⟩
  obtain ⟨-, -, refreshes, -⟩ := grants 0 0 twiceBanked
  obtain ⟨s', -, hpos, -⟩ := refreshes 0 owedBank_twiceBanked
  exact absurd hpos (by simp [bankAt_twiceBanked_owed])

end Sys2Proof.Machine
end

/-! PROOFS. O52: BIND in a table that names a group twice (R311). -/

section
namespace Sys2Proof.Machine

/-- A group of one warp, without scratchpad and accumulator rows, in slot 0 of core 0 of die 0, in a phase. -/
def plainGroup (ph : Phase) : Group :=
  { ctx := 0, tenant := 0, launch := 0, gang := 0, group := 0, gangKey := 0, hdr := Header.zero, hdrVa := 0, core := ⟨0, 0⟩
    quarter := 0, slotMask := 1, scrBase := 0, accBase := 0, wslots := 0, image := 0, phase := ph, scratch := [], cstat := 0
    acc := [], ws := Vector.replicate 2 WeightSlot.empty, shape := (0, 0), token := 1, statuses := [], dues := [], bg := 0
    parkCount := 0, recognised := false, queued := false, gens := [], bindAt := 0 }

/-- Its gang, handed out and not bound. -/
def plainGang : Gang :=
  { queue := ⟨0, 0⟩, launch := 0, gang := 0, ctx := 0, prio := 0, die := 0, left := 0, groups := [0], boundAt := 0
    bound := false, started := false, preempt := false, saved := false, retired := false }

/-- The package after reset, with context 0 loaded on core 0 of die 0, and group 0 twice in the table: placed, and retired. -/
def twiceGrouped : State :=
  { State.reset with
    contexts := [(0, { Context.none with dieMask := 1 })]
    cores := [(⟨0, 0⟩, { coreOf State.reset ⟨0, 0⟩ with ctx := some 0 })]
    groups := [(0, plainGroup .queued), (0, plainGroup .retired)]
    gangs := [(0, plainGang)] }

theorem groupOf_twiceGrouped : groupOf twiceGrouped 0 = some (plainGroup .queued) := rfl

theorem gang_twiceGrouped : tget twiceGrouped.gangs (plainGroup .queued).gangKey = some plainGang := rfl

/-- Nothing stands against the bind of the placed group. -/
theorem bindOk_twiceGrouped : BindOk twiceGrouped 0 (plainGroup .queued) := by
  refine ⟨by decide, by decide, by decide⟩

/-- The bind drops what the core holds of retired groups, and with the second entry it drops the group that it binds. -/
theorem bind_twiceGrouped (s' : State) (h : exec (.bind 0) twiceGrouped = .next s') : groupOf s' 0 = none := by
  have hrun : exec (.bind 0) twiceGrouped = .next (modGang (bindCore (modGroup twiceGrouped 0 fun y =>
      { y with phase := .resident, bindAt := 0 }) (plainGroup .queued)) 0 fun y =>
        { y with bound := true, started := true, boundAt := 0, saved := false }) := by rfl
  cases hrun.symm.trans h
  rfl

/-- Refutes O52: the statement ranges over every state, also over tables in which a key stands twice. Where group 0 stands in the table as
placed and once more as retired, `BindOk` holds of the first entry, and BIND drops both. -/
theorem not_groupsBound : ¬ Obligations.GroupsBound := by
  unfold Obligations.GroupsBound
  rintro ⟨-, -, binds, -⟩
  obtain ⟨-, -, -, -, accepts⟩ := binds 0 twiceGrouped _ _ groupOf_twiceGrouped gang_twiceGrouped
  obtain ⟨s', hrun, hgroup, -⟩ := accepts rfl bindOk_twiceGrouped
  exact Option.some_ne_none _ (hgroup.symm.trans (bind_twiceGrouped s' hrun))

end Sys2Proof.Machine
end

section
/-! SUPPORT. What the effect of a word leaves to its issue group: the group itself, the cycles of the dies, and threads that are not being
stepped (R25, R356). -/

namespace Sys2Proof.Machine

/-! ### The pace of an issue group -/

/-- A thread is not being stepped. -/
def Unstepped (s : State) (t : ThreadKey) : Prop := ∀ th, threadOf s t = some th → th.step = .off

/-- The issue group and the cycles of the dies stay, and no step of a thread begins. -/
structure PaceKept (s s' : State) : Prop where
  focus : s'.focus = s.focus
  cycle : ∀ d, (dieOf s' d).cyc = (dieOf s d).cyc
  unstepped : ∀ {t}, Unstepped s t → Unstepped s' t

namespace PaceKept

theorem refl (s : State) : PaceKept s s := ⟨rfl, fun _ => rfl, id⟩

theorem trans {s s' s'' : State} (h : PaceKept s s') (h' : PaceKept s' s'') : PaceKept s s'' :=
  ⟨h'.focus.trans h.focus, fun d => (h'.cycle d).trans (h.cycle d), h'.unstepped ∘ h.unstepped⟩

theorem foldl {α : Type} {F : State → α → State} (h : ∀ a x, PaceKept a (F a x)) (l : List α) (s : State) :
    PaceKept s (l.foldl F s) := by
  induction l generalizing s with
  | nil => exact refl s
  | cons x l ih => exact (h s x).trans (ih _)

/-- An act that leaves the issue group, the dies and the threads. -/
theorem of_eq {s s' : State} (focus : s'.focus = s.focus) (dies : s'.dies = s.dies) (threads : s'.threads = s.threads) : PaceKept s s' :=
  ⟨focus, fun d => by rw [dieOf, dieOf, dies], fun h th hth => h th (by rwa [threadOf, ← threads])⟩

/-- An act that changes threads, and begins no step. -/
theorem of_threads {s s' : State} (focus : s'.focus = s.focus) (dies : s'.dies = s.dies)
    (threads : ∀ t th', threadOf s' t = some th' → th'.step = .off ∨ ∃ th, threadOf s t = some th ∧ th'.step = th.step) :
    PaceKept s s' := by
  refine ⟨focus, fun d => by rw [dieOf, dieOf, dies], fun {t} h th' hth' => ?_⟩
  rcases threads t th' hth' with hoff | ⟨th, hth, hstep⟩
  · exact hoff
  · exact hstep.trans (h th hth)

theorem now_eq {s s' : State} (h : PaceKept s s') : now s' = now s := by
  rw [now, now, cycOf, cycOf, h.focus, h.cycle]

end PaceKept

theorem modThread_pace (s : State) (t : ThreadKey) (f : Thread → Thread) (h : ∀ th, (f th).step = .off ∨ (f th).step = th.step) :
    PaceKept s (modThread s t f) := by
  refine .of_threads rfl rfl fun u th' hu => ?_
  rw [threadOf_modThread] at hu
  split at hu
  next e =>
    subst e
    obtain ⟨th, hth, rfl⟩ := Option.map_eq_some_iff.mp hu
    exact (h th).imp id fun hs => ⟨th, hth, hs⟩
  next => exact .inr ⟨th', hu, rfl⟩

theorem modGroup_pace (s : State) (g : Nat) (f : Group → Group) : PaceKept s (modGroup s g f) := .of_eq rfl rfl rfl
theorem modCore_pace (s : State) (c : CoreId) (f : Core → Core) : PaceKept s (modCore s c f) := .of_eq rfl rfl rfl
theorem modCtx_pace (s : State) (c : Nat) (f : Context → Context) : PaceKept s (modCtx s c f) := .of_eq rfl rfl rfl

theorem modDie_pace (s : State) (d : Fin 8) (f : Die → Die) (h : ∀ x, (f x).cyc = x.cyc) : PaceKept s (modDie s d f) := by
  refine ⟨rfl, fun k => ?_, id⟩
  simp only [dieOf, modDie, Fin.getElem_fin, Vector.getElem_set]
  split
  next e => rw [h]; simp only [e]
  next => rfl

/-! ### Exceptions (R351 to R353) -/

theorem raiseMsix_pace (s : State) (p : Fin 2) (f : Nat) (v : Fin 64) : PaceKept s (raiseMsix s p f v) := by
  unfold raiseMsix
  dsimp only
  split <;> exact .of_eq rfl rfl rfl

theorem raiseVector_pace (s : State) (t v : Fin 64) : PaceKept s (raiseVector s t v) := by
  have h0 : PaceKept s (if tenantVf s t 0 = 0 then s else raiseMsix s 0 (tenantVf s t 0) v) := by
    split
    · exact .refl s
    · exact raiseMsix_pace ..
  unfold raiseVector
  dsimp only
  split
  · exact h0
  · exact h0.trans (raiseMsix_pace ..)

theorem logFaults_pace (s : State) (fs : List FaultRec) : PaceKept s (logFaults s fs) := by
  rw [logFaults_rest]
  exact .of_eq rfl rfl rfl

theorem addEntry_pace (s : State) (f : FaultRec) : PaceKept s (addEntry s f) :=
  modThread_pace _ _ _ fun th => .inr (by split <;> rfl)

theorem stopThreads_pace (s : State) (c : CoreId) : PaceKept s (stopThreads s c) := by
  refine .of_threads rfl rfl fun t th' h => .inr ?_
  rw [threadOf_stopThreads] at h
  obtain ⟨th, hth, rfl⟩ := Option.map_eq_some_iff.mp h
  exact ⟨th, hth, rfl⟩

/-- Threads of a table that have changed, entry by entry, but for their steps. -/
theorem step_of_map {ths : Tab ThreadKey Thread} {g : ThreadKey × Thread → ThreadKey × Thread} {f : ThreadKey → Thread → Thread}
    (h : ∀ k th, g (k, th) = (k, f k th)) (hs : ∀ k th, (f k th).step = th.step) {t : ThreadKey} {th' : Thread}
    (ht : tget (ths.map g) t = some th') : ∃ th, tget ths t = some th ∧ th'.step = th.step := by
  rw [tget_map ths g f h] at ht
  obtain ⟨th, hth, rfl⟩ := Option.map_eq_some_iff.mp ht
  exact ⟨th, hth, hs t th⟩

theorem invokeHandler_pace (s : State) (c : CoreId) : PaceKept s (invokeHandler s c) := by
  have hthreads : (invokeHandler s c).threads = (List.finRange 32).foldl (fun x l => tset x (ThreadKey.handler c l)
      (handlerThread (handlerPc s ((coreOf s c).ctx.getD 0)) c l)) (s.threads.map fun e =>
        if e.2.place.core = c ∧ e.1.isHandler = false then
          (e.1, { e.2 with entry := e.2.entry.map fun x => { x with seen := true } }) else e) := by
    simp only [invokeHandler, modSlot, modCore, setCore]
  refine .of_threads (by rw [invokeHandler_rest]) (by rw [invokeHandler_rest]) fun t => ?_
  rw [threadOf, hthreads]
  refine foldl_holds (fun ths : Tab ThreadKey Thread => ∀ th', tget ths t = some th' →
    th'.step = .off ∨ ∃ th, threadOf s t = some th ∧ th'.step = th.step) _ (fun ths l ih th' ht => ?_) _ _ fun th' ht => .inr ?_
  · rw [tget_tset] at ht
    split at ht
    · cases ht; exact .inl rfl
    · exact ih th' ht
  · exact step_of_map (f := fun k th => if th.place.core = c ∧ k.isHandler = false then
        { th with entry := th.entry.map fun x => { x with seen := true } } else th)
      (fun k th => by dsimp only; split <;> rfl) (fun k th => by split <;> rfl) ht

theorem endHandler_pace (s : State) (c : CoreId) : PaceKept s (endHandler s c) :=
  .of_threads rfl rfl fun _ _ ht => .inr (step_of_map (f := fun k th => if k.isHandler ∧ th.place.core = c then
      { th with status := .ended } else th)
    (fun k th => by dsimp only; split <;> rfl) (fun k th => by split <;> rfl) ht)

theorem handlerFault_pace (s : State) (c : CoreId) (n : Nat) : PaceKept s (handlerFault s c n) :=
  (endHandler_pace s c).trans ((modCtx_pace ..).trans (raiseVector_pace ..))

theorem takeFaults_pace (s : State) (c : CoreId) (fs : List FaultRec) : PaceKept s (takeFaults s c fs) := by
  have hstop : PaceKept s (modCore (fs.foldl addEntry (stopThreads (logFaults s fs) c)) c fun k => { k with stopped := true }) :=
    (logFaults_pace s fs).trans ((stopThreads_pace ..).trans ((PaceKept.foldl addEntry_pace fs _).trans (modCore_pace ..)))
  unfold takeFaults
  dsimp only
  split
  · exact (logFaults_pace s fs).trans (handlerFault_pace ..)
  · split
    · exact hstop
    · exact hstop.trans (invokeHandler_pace ..)

/-! ### Waking (R93, R100) -/

theorem wakeThread_pace (s : State) (t : ThreadKey) (r : Nat) : PaceKept s (wakeThread s t r) := by
  unfold wakeThread
  extract_lets x
  have hx : PaceKept s x := by
    unfold x
    split
    · exact modGroup_pace ..
    · exact .refl s
  clear_value x
  split
  next => exact hx
  next th hth =>
    extract_lets th1
    have hset (th' : Thread) (h : th'.step = .off ∨ th'.step = th.step) : PaceKept s (modThread x t fun _ => th') := by
      refine hx.trans (.of_threads rfl rfl fun u v hu => ?_)
      rw [threadOf_modThread] at hu
      split at hu
      next e =>
        subst e
        rw [hth] at hu
        cases hu
        exact h.imp id fun hs => ⟨th, hth, hs⟩
      next => exact .inr ⟨v, hu, rfl⟩
    split
    next => split; exacts [(hset _ (.inl rfl)).trans (takeFaults_pace ..), hset _ (.inr rfl)]
    next => split; exacts [(hset _ (.inl rfl)).trans (takeFaults_pace ..), hset _ (.inr rfl)]
    next => exact hset _ (.inr rfl)
    next => exact hx

theorem deliverTo_pace (s : State) (t : ThreadKey) (tag : Nat) (v : Word) : PaceKept s (deliverTo s t tag v) :=
  modThread_pace _ _ _ fun _ => .inr rfl

theorem giveThread_pace (s : State) (t : ThreadKey) (d : PDst) (v : Word) (due : Nat) (p : Option Nat) :
    PaceKept s (giveThread s t d v due p) := modThread_pace _ _ _ fun _ => .inr rfl

theorem waitThread_pace (s : State) (t : ThreadKey) (w : Wait) : PaceKept s (waitThread s t w) :=
  modThread_pace _ _ _ fun _ => .inr rfl

/-! ### Lines and packets (R191 to R194, R219, R372, R394) -/

/-- An act on the memory system that leaves the cycles of the dies. -/
theorem MemoryAct.pace {s s' : State} (h : MemoryAct s s') (hc : ∀ d, (dieOf s' d).cyc = (dieOf s d).cyc) : PaceKept s s' := by
  refine ⟨?_, hc, fun {t} hu th hth => hu th ?_⟩
  · rw [h.rest]; rfl
  · rw [h.rest] at hth; exact hth

theorem hitWatches_pace (s : State) (d : Fin 8) (ln : Nat) (b : Bool) : PaceKept s (hitWatches s d ln b) := .of_eq rfl rfl rfl

theorem l2Set_pace (s : State) (d : Fin 8) (ln : Nat) (x : L2Line) : PaceKept s (l2Set s d ln x) := modDie_pace _ _ _ fun _ => rfl

theorem l2Drop_pace (s : State) (d : Fin 8) (ln : Nat) : PaceKept s (l2Drop s d ln) := by
  unfold l2Drop
  split
  · exact .refl s
  · split
    · exact modDie_pace _ _ _ fun _ => rfl
    · exact l2Set_pace ..

theorem markAbsent_pace (s : State) (d : Fin 8) (ln : Nat) : PaceKept s (markAbsent s d ln) := by
  unfold markAbsent
  split
  · exact .refl s
  · split
    · exact l2Drop_pace ..
    · exact l2Set_pace ..

theorem homeTouched_pace (s : State) (ln : Nat) : PaceKept s (homeTouched s ln) :=
  (PaceKept.foldl (fun _ _ => (hitWatches_pace ..).trans (markAbsent_pace ..)) _ s).trans (.of_eq rfl rfl rfl)

theorem homeWrite_pace (s : State) (loc : Nat) (l : List Byte) : PaceKept s (homeWrite s loc l) :=
  (PaceKept.of_eq rfl rfl rfl : PaceKept s { s with mem := memPutBytes s.mem loc l }).trans (.foldl homeTouched_pace _ _)

theorem postAt_pace (s : State) (port : Nat) (op : Option Nat) (c : CoreId) (ctx : Nat) (cls : Fin 4) (dl : Option Nat)
    (more : List Stamp) (pa len : Nat) : PaceKept s (postAt s port op c ctx cls dl more pa len) := .of_eq rfl rfl rfl

theorem landPacket_pace (s : State) (id : Nat) (k : Packet) : PaceKept s (landPacket s id k) := by
  unfold landPacket
  extract_lets n v s1 s2
  have h0 : PaceKept s { s with packets := tset s.packets id { k with applied := true } } := .of_eq rfl rfl rfl
  have h1 : PaceKept s s1 := h0.trans (homeWrite_pace ..)
  have h2 : PaceKept s s2 := by
    unfold s2
    split
    · exact h1.trans (.of_eq rfl rfl rfl)
    · exact h1
  exact h2.trans (postAt_pace ..)

theorem landOrdered_pace (n : Nat) (s : State) (id : Nat) : PaceKept s (landOrdered n s id) := by
  induction n generalizing s id with
  | zero => exact .refl s
  | succ n ih =>
    unfold landOrdered
    split
    next => exact .refl s
    next k _ =>
      extract_lets s1
      have h1 : PaceKept s s1 := .foldl ih _ s
      split
      · split
        · exact h1
        · exact h1.trans (landPacket_pace ..)
      · exact h1

theorem writeBack_pace (s : State) (d : Fin 8) (ln : Nat) : PaceKept s (writeBack s d ln) := by
  unfold writeBack
  split
  next => exact .refl s
  next x _ =>
    split
    · exact .refl s
    · extract_lets s0 s1
      have h0 : PaceKept s s0 := .foldl (landOrdered_pace _) _ s
      have hm : PaceKept s0 { s0 with mem := putDirty s0.mem ln x } := .of_eq rfl rfl rfl
      have h1 : PaceKept s0 s1 := hm.trans (modDie_pace _ d _ fun _ => rfl)
      exact ((h0.trans h1).trans (.foldl (fun _ _ => postAt_pace ..) _ s1)).trans (homeTouched_pace ..)

theorem epochAdvance_pace (s : State) (d : Fin 8) : PaceKept s (epochAdvance s d) := by
  unfold epochAdvance
  extract_lets s1 s2
  have h1 : PaceKept s s1 := .foldl (fun _ _ => writeBack_pace ..) _ s
  have h2 : PaceKept s1 s2 := .foldl (fun _ _ => l2Drop_pace ..) _ s1
  exact (h1.trans h2).trans (modDie_pace _ _ _ fun _ => rfl)

theorem acquireAct_pace (s : State) (c : CoreId) (sc : Scope) : PaceKept s (acquireAct s c sc) := by
  unfold acquireAct
  split
  · exact .refl s
  · exact modCore_pace ..
  · exact (modCore_pace ..).trans (epochAdvance_pace ..)
  · exact (modCore_pace ..).trans (epochAdvance_pace ..)

/-! ### Barrier objects and the waits that end (R145, R247, R249, R275, R279) -/

theorem barWrite_pace (s : State) (gid : Nat) (b : BarObj) (o : BitVec 256) : PaceKept s (barWrite s gid b o) := by
  cases b with
  | scratch off => exact modGroup_pace ..
  | carve pa =>
    have hm : PaceKept s { s with mem := memPut s.mem pa 32 o.toNat } := .of_eq rfl rfl rfl
    exact hm.trans (hitWatches_pace ..)

theorem barReturn_pace (s : State) (t : ThreadKey) (b : BarObj) (o : BitVec 256) (tag : Nat) : PaceKept s (barReturn s t b o tag) := by
  have hd (v : Word) : PaceKept s (barDeliver s t tag v) := by
    unfold barDeliver
    split
    · exact .of_eq rfl rfl rfl
    · exact deliverTo_pace ..
  exact (hd _).trans ((acquireAct_pace ..).trans (wakeThread_pace ..))

theorem testWaiter_pace (s : State) (t : ThreadKey) : PaceKept s (testWaiter s t) := by
  unfold testWaiter
  split
  next =>
    extract_lets gid o
    split
    · split
      · exact modThread_pace _ _ _ fun _ => .inr rfl
      · exact .refl s
    · split
      · exact modThread_pace _ _ _ fun _ => .inr rfl
      · exact barReturn_pace ..
  next => exact .refl s

theorem testWaiters_pace (s : State) (gid : Nat) (b : BarObj) : PaceKept s (testWaiters s gid b) := by
  have hq (x : State) : PaceKept x (queueSaved x b) := by
    cases b with
    | scratch off => exact .refl x
    | carve pa => exact .of_eq rfl rfl rfl
  exact (PaceKept.foldl testWaiter_pace _ s).trans (hq _)

theorem barDecrease_pace (s : State) (gid : Nat) (b : BarObj) (i j : Nat) (sc : Scope) (xf : Bool) :
    PaceKept s (barDecrease s gid b i j sc xf) := (barWrite_pace ..).trans (testWaiters_pace ..)

theorem payDue_pace (gid : Nat) (s : State) (x : BarDue) : PaceKept s (payDue gid s x) := by
  unfold payDue
  split
  · exact modGroup_pace ..
  · exact barDecrease_pace ..

theorem payDues_pace (s : State) (gid : Nat) : PaceKept s (payDues s gid) := (modGroup_pace ..).trans (.foldl (payDue_pace gid) _ _)

theorem countBar_pace (s : State) (e : Eng) (i j : Nat) (xf : Bool) : PaceKept s (countBar s e i j xf) := by
  unfold countBar
  split
  · exact .refl s
  · split
    · exact .refl s
    · split
      · exact payDue_pace ..
      · exact barDecrease_pace ..

theorem settleLines_pace (s : State) : PaceKept s (settleLines s) := by
  refine .foldl (fun a t => ?_) _ s
  split
  · exact .refl a
  · split
    · exact modThread_pace _ _ _ fun _ => .inr rfl
    · exact wakeThread_pace ..

theorem endWaits_pace (s : State) (id : Nat) (e : Eng) (status : Nat) : PaceKept s (endWaits s id e status) := by
  refine .foldl (fun a t => ?_) _ s
  split
  · exact (acquireAct_pace ..).trans ((deliverTo_pace ..).trans (wakeThread_pace ..))
  · exact (acquireAct_pace ..).trans ((deliverTo_pace ..).trans (wakeThread_pace ..))
  · exact .refl a

/-! ### The end of an operation (R238, R240, R260, R261) -/

theorem completeOne_pace (s : State) (id : Nat) (e : Eng) (faulted : Bool) : PaceKept s (completeOne s id e faulted) := by
  unfold completeOne
  extract_lets status s1 s2
  have h1 : PaceKept s s1 := .of_eq rfl rfl rfl
  have h2 : PaceKept s s2 := by
    unfold s2
    split
    · exact h1.trans (.of_eq rfl rfl rfl)
    · exact h1
  exact (h2.trans (endWaits_pace ..)).trans ((payDues_pace ..).trans (settleLines_pace _))

theorem quietFault_pace (s : State) (id : Nat) (e : Eng) : PaceKept s (quietFault s id e) := by
  have hs : PaceKept s (emptySlot s id e) := by
    unfold emptySlot
    split
    · exact modGroup_pace ..
    · exact .refl s
  have hu : PaceKept s (uncover s id) := .of_eq rfl rfl rfl
  unfold quietFault
  split
  · exact hs.trans (completeOne_pace ..)
  · exact hu.trans ((countBar_pace ..).trans (completeOne_pace ..))

theorem drainPoison_pace (n : Nat) (s : State) : PaceKept s (drainPoison n s) := by
  induction n generalizing s with
  | zero => exact .refl s
  | succ n ih =>
    unfold drainPoison
    split
    · exact .refl s
    · exact (quietFault_pace ..).trans (ih _)

end Sys2Proof.Machine
end

section
/-! SUPPORT. Words that the elected thread of each group executes (R83, R243, R259). -/

namespace Sys2Proof.Machine

/-! ### Going on behind an effect (R25, R29, R32) -/

/-- A word that is no hint sends its threads on: Ready, or Stalled for the stall count. -/
theorem retireThread_word {sh : Shape} (hh : sh.hint = false) (c : Nat) (n : Word) (th : Thread) :
    retireThread sh c n th = { th with
      pc := n, pfx := Pfx.empty, readyAt := c + sh.st.val + 1, oprdy := none
      status := if th.status = .live .ready ∧ sh.st.val ≠ 0 then .live .stalled else th.status } := by
  unfold retireThread
  rw [hh, if_neg Bool.false_ne_true]
  congr 1
  split
  next hr => rw [hr]; by_cases h0 : sh.st.val = 0 <;> simp [h0]
  next hr => exact (if_neg fun hx => hr hx.1).symm

/-- Whatever a word does to the package: where it leaves the pace of its issue group, the group goes on at the next word. -/
theorem issue_goesOn {i : Instr} {s s1 : State} {act : List ThreadKey → State → Act} (h : issuable i s = true)
    (hhint : (instrShape i).hint = false) (hact : act s.focus.threads s = .done s1 (advance s s.focus.threads)) (hk : PaceKept s s1) :
    ∃ s', issue i act s = .next s' ∧ GoesOn (instrShape i).st s s1 s' := by
  obtain ⟨s', he, hget, hs'⟩ := issue_done (n := fun t => pcOf s t + 4) h hact fun t ht => hk.unstepped fun th hth => by
    obtain ⟨⟨x, hx, -, hoff⟩, -⟩ := issuable_thread h ht
    rwa [← Option.some.inj (hx.symm.trans hth)]
  refine ⟨s', he, fun t => ?_, hs'⟩
  rw [hget, hk.now_eq, funext (retireThread_word hhint (now s) (pcOf s t + 4))]

/-- No thread of a handler issues a word of groups (R425). -/
theorem issuable_home {i : Instr} {s : State} (h : issuable i s = true) (hn : (instrShape i).noHandler = true) {t : ThreadKey}
    (ht : t ∈ s.focus.threads) : t.isHandler = false := by
  obtain ⟨-, -, -, hcause⟩ := issuable_thread h ht
  by_contra hh
  rw [issueCause, if_pos (by rw [hn, Bool.and_true]; exact eq_true_of_ne_false hh)] at hcause
  exact Option.some_ne_none _ hcause

/-! ### The elected threads (R83) -/

theorem electedOf_gid {ts : List ThreadKey} {g : Nat} {e : ThreadKey}
    (h : (sortBy keyLt (ts.filter fun t => gidOf t = some g)).head? = some e) : e ∈ ts ∧ gidOf e = some g := by
  have hm := mem_sortBy.mp (List.mem_of_mem_head? h)
  simpa using List.mem_filter.mp hm

theorem mem_of_mem_electedOf {s : State} {ts : List ThreadKey} {e : ThreadKey} (h : e ∈ electedOf s ts) : e ∈ ts := by
  obtain ⟨g, -, hg⟩ := List.mem_filterMap.mp (mem_sortBy.mp h)
  exact (electedOf_gid hg).1

theorem nodup_electedOf (s : State) (ts : List ThreadKey) : (electedOf s ts).Nodup := by
  refine (sortBy_perm _ _).nodup_iff.mpr (List.Nodup.filterMap (fun g g' e hg hg' => ?_) (nodup_dedup _))
  exact Option.some.inj ((electedOf_gid hg).2.symm.trans (electedOf_gid hg').2)

/-! ### Executing each group's word in turn -/

section Run

variable {f : State → ThreadKey → Elected}

/-- The faults are those of threads of the list, in its order. -/
theorem runElected_faults (hf : ∀ s t x, f s t = .fault x → x.thread = t) (es : List ThreadKey) (s : State) :
    ((runElected f es s).faults.map (·.thread)).Sublist es := by
  induction es generalizing s with
  | nil => exact .slnil
  | cons e es ih =>
    unfold runElected
    split
    next x hx => rw [List.map_cons, hf s e x hx]; exact (ih s).cons_cons e
    next => exact (ih s).cons e
    next => exact (ih s).cons e
    next s1 _ => exact (ih s1).cons e

theorem runElected_pace (hp : ∀ s t v s1, f s t = .done v s1 → PaceKept s s1) (es : List ThreadKey) (s : State) :
    PaceKept s (runElected f es s).state := by
  induction es generalizing s with
  | nil => exact .refl s
  | cons e es ih =>
    unfold runElected
    split
    next => exact ih s
    next => exact ih s
    next => exact ih s
    next v s1 hv => exact (hp s e v s1 hv).trans (ih s1)

end Run

/-! ### The word -/

/-- A thread that waits with its group for the line of a block, if it does. -/
def blockWaiter (w : Option (ThreadKey × Nat)) (th : Thread) : Thread :=
  match w with
  | some w => { th with status := .live (.waiting (.lines [w.2])) }
  | none => th

theorem modThread_blockWaiter (s : State) (t : ThreadKey) (w : Option (ThreadKey × Nat)) : modThread s t (blockWaiter w) =
    match w with
    | some w => waitThread s t (.lines [w.2])
    | none => s := by
  cases w with
  | none => exact modThread_same _ _ _ fun _ _ => rfl
  | some w => rfl

theorem waitBlocks_eq (s : State) (ts : List ThreadKey) (ws : List (ThreadKey × Nat)) :
    waitBlocks s ts ws = modThreads s ts fun t => blockWaiter (ws.find? fun w => decide (gidOf w.1 = gidOf t)) := by
  unfold waitBlocks modThreads
  congr 1
  funext a t
  exact (modThread_blockWaiter ..).symm

/-- A thread that is pushed the value of its own group, if there is one. -/
def pushed (d : PDst) (v : Option (ThreadKey × Option Nat)) (th : Thread) : Thread :=
  match v with
  | some (_, some v) => { th with regs := th.regs.give d (BitVec.ofNat 64 v) 0 none }
  | _ => th

theorem modThread_pushed (s : State) (t : ThreadKey) (d : PDst) (v : Option (ThreadKey × Option Nat)) :
    modThread s t (pushed d v) = match some d, v with
      | some p, some (_, some v) => giveThread s t p (BitVec.ofNat 64 v) 0 none
      | _, _ => s := by
  rcases v with _ | ⟨u, _ | v⟩
  · exact modThread_same _ _ _ fun _ _ => rfl
  · exact modThread_same _ _ _ fun _ _ => rfl
  · rfl

theorem pushed_step (d : PDst) (v : Option (ThreadKey × Option Nat)) (th : Thread) : (pushed d v th).step = th.step := by
  unfold pushed
  split <;> rfl

/-- The threads of a group go on with the values of an execution. -/
def pushAll (d : PDst) (ts : List ThreadKey) (r : Ran) : State :=
  modThreads r.state ts fun t => pushed d (r.values.find? fun v => decide (gidOf v.1 = gidOf t))

theorem pushAll_pace (d : PDst) (ts : List ThreadKey) (r : Ran) : PaceKept r.state (pushAll d ts r) :=
  .foldl (fun _ _ => modThread_pace _ _ _ fun _ => .inr (pushed_step ..)) ts r.state

/-- The outcome of an elected word where no execution faults or waits. -/
def electedRest (d : PDst) (ts : List ThreadKey) (s : State) (r : Ran) : Act :=
  if r.held then .hold else .done (pushAll d ts r) (advance s ts)

/-- The outcome of an elected word, by what the executions come to. -/
theorem electedAct_eq (d : PDst) (f : State → ThreadKey → Elected) (ts : List ThreadKey) (s : State) :
    electedAct (some d) f ts s = match (runElected f (electedOf s ts) s).faults, (runElected f (electedOf s ts) s).waits with
      | x :: xs, _ => .faults (x :: xs)
      | [], w :: ws => .done (waitBlocks s ts (w :: ws)) []
      | [], [] => electedRest d ts s (runElected f (electedOf s ts) s) := by
  have hpush (r : Ran) : (ts.foldl (fun a t => match some d, r.values.find? fun v => decide (gidOf v.1 = gidOf t) with
      | some p, some (_, some v) => giveThread a t p (BitVec.ofNat 64 v) 0 none
      | _, _ => a) r.state) = pushAll d ts r := by
    unfold pushAll modThreads
    congr 1
    funext a t
    exact (modThread_pushed ..).symm
  unfold electedAct electedRest
  rw [← hpush] <;> rfl

@[simp] theorem stepStops_nil (s : State) : stepStops s [] = s := by
  rw [stepStops_off s [] (by simp)]

@[simp] theorem retireAll_nil (s : State) (sh : Shape) : retireAll s sh [] = s := rfl

theorem electedWord_elected {i : Instr} {d : PDst} {f : State → ThreadKey → Elected} (hx : ∀ s, exec i s = electedWord i (some d) f s)
    (hhint : (instrShape i).hint = false) (hhome : (instrShape i).noHandler = true)
    (hf : ∀ s t x, f s t = .fault x → x.thread = t) (hp : ∀ s t v s1, f s t = .done v s1 → PaceKept s s1) :
    ElectedWord i (instrShape i).st d f := by
  intro s h r
  have hact : electedAct (some d) f s.focus.threads s = _ := electedAct_eq d f s.focus.threads s
  change electedAct (some d) f s.focus.threads s = match r.faults, r.waits with
      | x :: xs, _ => .faults (x :: xs)
      | [], w :: ws => .done (waitBlocks s s.focus.threads (w :: ws)) []
      | [], [] => electedRest d s.focus.threads s r at hact
  have hfaults : (r.faults.map (·.thread)).Sublist (electedOf s s.focus.threads) := runElected_faults hf _ s
  have hpace : PaceKept s r.state := runElected_pace hp _ s
  simp only [hx, electedWord]
  clear_value r
  refine ⟨fun h1 => ?_, fun h1 h2 => ?_, fun h1 h2 h3 => ?_, fun h1 h2 h3 => ?_⟩
  · obtain ⟨x, xs, hr⟩ := List.exists_cons_of_ne_nil h1
    simp only [hr] at hact hfaults ⊢
    exact issue_faults h hact (fun y hy => issuable_home h hhome (mem_of_mem_electedOf (hfaults.mem (List.mem_map_of_mem hy))))
      (hfaults.nodup (nodup_electedOf ..))
  · obtain ⟨w, ws, hr⟩ := List.exists_cons_of_ne_nil h2
    simp only [h1, hr] at hact ⊢
    have he := issue_acts (electedAct (some d) f) h
    simp only [hact, waitBlocks_eq, retireAll_nil, List.map_nil, stepStops_nil] at he
    have hrest := foldl_modThread_rest s.focus.threads (fun t => blockWaiter ((w :: ws).find? fun w => decide (gidOf w.1 = gidOf t))) s
    refine ⟨_, he, fun t => ?_, fun a => ?_, ?_⟩
    · exact threadOf_foldl s.focus.threads (issuable_nodup h) _ s t
    · rw [bumpFree, modThreads, hrest]
    · rw [bumpFree, modThreads, hrest]
  · simp only [h1, h2, electedRest, h3, if_true] at hact
    exact issue_hold h hact
  · simp only [h1, h2, electedRest, h3, Bool.false_eq_true, if_false] at hact
    exact issue_goesOn h hhint hact (hpace.trans (pushAll_pace ..))

end Sys2Proof.Machine
end

section
/-! SUPPORT. The conditions of R254 on a tensor record, and the handles of a context (R250 to R254). -/

namespace Sys2Proof.Machine

/-! ### The fields of a record (R250) -/

section Fields

variable (r : BitVec 512)

theorem recKind_eq : recKind r = (r.extractLsb' 450 3).toNat := bvf_eq r rfl
theorem recBlk_eq : recBlk r = (r.extractLsb' 448 2).toNat := bvf_eq r rfl
theorem recDimsM1_eq : recDimsM1 r = (r.extractLsb' 446 2).toNat := bvf_eq r rfl
theorem recSpace_eq : recSpace r = (r.extractLsb' 444 2).toNat := bvf_eq r rfl
theorem recFmt_eq : recFmt r = (r.extractLsb' 440 4).toNat := bvf_eq r rfl
theorem recBase_eq : recBase r = (r.extractLsb' 0 64).toNat := bvf_eq r rfl
theorem recScaleBase_eq : recScaleBase r = (r.extractLsb' 64 64).toNat := bvf_eq r rfl
theorem recSizeM1_eq (k : Nat) : recSizeM1 r k = (r.extractLsb' (128 + 24 * k) 24).toNat := bvf_eq r (by omega)
theorem recStride_eq (k : Nat) : recStride r k = (r.extractLsb' (184 + 40 * k) 40).toNat := bvf_eq r (by omega)
theorem recScStride_eq (k : Nat) : recScStride r k = (r.extractLsb' (312 + 32 * k) 32).toNat := bvf_eq r (by omega)

/-- The bytes of an element, in the form of the statements. -/
def fmtWidth (f : Nat) : Nat := if f = 0 ∨ f = 8 then 4 else if f = 1 ∨ f = 2 then 2 else 1

theorem fmtBytes_eq {f : Nat} (h : f ≠ 5) : fmtBytes f = fmtWidth f := by
  unfold fmtBytes fmtWidth
  split <;> simp_all

theorem unitWidth_eq (f : Nat) : (if f = 5 then 16 else if f = 0 ∨ f = 8 then 4 else if f = 1 ∨ f = 2 then 2 else 1) =
    if f = 5 then 16 else fmtBytes f := by
  split
  next => rfl
  next h => rw [fmtBytes_eq h, fmtWidth]

theorem rangeCanonical_iff (lo hi : Nat) : rangeCanonical lo hi = true ↔ OneHalf lo hi := by
  simp [rangeCanonical, OneHalf, and_assoc]

end Fields

/-! ### The conditions, one by one (R254) -/

section Conditions

variable (r : BitVec 512)

theorem sealBad1_iff : sealBad1 r = true ↔ SealCond r 1 := by
  simp [sealBad1, SealCond, recDimsM1_eq, recSizeM1_eq, recStride_eq, recScStride_eq, bvf_eq r (show 511 + 1 = 453 + 59 from rfl), or_assoc]

theorem sealBad2_iff : sealBad2 r = true ↔ SealCond r 2 := by
  simp [sealBad2, SealCond, recFmt_eq, recSpace_eq, recKind_eq, recBlk_eq, recScaleBase_eq, or_assoc]

theorem sealBad3_iff : sealBad3 r = true ↔ SealCond r 3 := by
  simp only [SealCond, ← recFmt_eq, unitWidth_eq]
  simp [sealBad3, recBase_eq, recDimsM1_eq, recStride_eq]

/-- The last byte of the highest element, in the form of the statements. -/
theorem highElem_eq : highElem r = recBase r + recSizeM1 r 1 * recStride r 1 + recSizeM1 r 2 * recStride r 2 +
    recSizeM1 r 3 * recStride r 3 + if recFmt r = 5 then recSizeM1 r 0 / 2 else
      recSizeM1 r 0 * fmtWidth (recFmt r) + (fmtWidth (recFmt r) - 1) := by
  unfold highElem elemAddr
  split
  next h => simp [h, fmtBytes]
  next h => rw [fmtBytes_eq h, Nat.add_assoc]

theorem highScale_eq : highScale r = recScaleBase r + recSizeM1 r 1 * recScStride r 1 + recSizeM1 r 2 * recScStride r 2 +
    recSizeM1 r 3 * recScStride r 3 + recSizeM1 r 0 / 32 := by
  unfold highScale scaleAddr
  omega

/-- In the spaces that condition 2 leaves. -/
theorem sealBad4_iff (h : recSpace r < 2) : sealBad4 r = true ↔ SealCond r 4 := by
  have hc : SealCond r 4 ↔ (recFmt r = 5 ∧ recSize r 0 % 32 ≠ 0) ∨
      (recSpace r = 0 ∧ (¬ OneHalf (recBase r) (highElem r) ∨ (recFmt r = 5 ∧ ¬ OneHalf (recScaleBase r) (highScale r)))) ∨
      (recSpace r = 1 ∧ (524288 ≤ highElem r ∨ (recFmt r = 5 ∧ 524288 ≤ highScale r))) := by
    rw [highElem_eq, highScale_eq, recSize]
    simp only [recFmt_eq, recSpace_eq, recBase_eq, recScaleBase_eq, recSizeM1_eq, recStride_eq, recScStride_eq]
    rfl
  rw [hc, sealBad4]
  rcases (by omega : recSpace r = 0 ∨ recSpace r = 1) with h0 | h1
  · simp [h0, ← rangeCanonical_iff]
  · simp [h1]

/-- In the kinds that condition 2 leaves. -/
theorem sealBad5_iff (h : recKind r < 4) : sealBad5 r = true ↔ SealCond r 5 := by
  have hc : SealCond r 5 ↔
      (recKind r = 1 ∧ ¬ (recDimsM1 r = 1 ∧ 1 ≤ recFmt r ∧ recFmt r ≤ 7 ∧
        recSize r 0 % (if recFmt r = 5 then 256 else 128) = 0 ∧ recSize r 1 % 128 = 0)) ∨
      (recKind r = 2 ∧ ¬ (recDimsM1 r = 1 ∧ 1 ≤ recFmt r ∧ recFmt r ≤ 7 ∧ recSize r 0 % 128 = 0)) ∨
      (recKind r = 3 ∧ ¬ (recDimsM1 r = 1 ∧ (recFmt r ≤ 4 ∨ recFmt r = 8) ∧ recSize r 0 = 128 ∧ recSpace r = 1)) := by
    simp only [recFmt_eq, recSpace_eq, recKind_eq, recDimsM1_eq, recSize, recSizeM1_eq]
    rfl
  rw [hc, sealBad5]
  rcases (by omega : recKind r = 0 ∨ recKind r = 1 ∨ recKind r = 2 ∨ recKind r = 3) with h0 | h0 | h0 | h0
  · simp [h0]
  · simp [h0, -not_and, not_and_or, or_assoc]
  · simp [h0, -not_and, not_and_or, or_assoc]
  · simp [h0, -not_and, not_and_or, or_assoc]

theorem sealCond_code {k : Nat} (h : SealCond r k) : 1 ≤ k ∧ k ≤ 5 := by
  by_contra hk
  rcases (by omega : k = 0 ∨ 6 ≤ k) with rfl | h6
  · exact h
  · obtain ⟨m, rfl⟩ := Nat.exists_eq_add_of_le' h6
    exact h

theorem lt_of_not_sealBad2 (h : ¬ sealBad2 r = true) : recSpace r < 2 ∧ recKind r < 4 := by
  simp only [sealBad2, Bool.or_eq_true, decide_eq_true_eq, not_or] at h
  omega

end Conditions

/-! ### The first condition that a record meets (R254) -/

/-- The code of the first condition that holds; 0 where none does. -/
def FirstOf (P : Nat → Prop) (n : Nat) : Prop := (n = 0 ∧ ∀ k, ¬ P k) ∨ (n ≠ 0 ∧ P n ∧ ∀ k, k < n → ¬ P k)

theorem FirstOf.unique {P : Nat → Prop} {m n : Nat} (hm : FirstOf P m) (hn : FirstOf P n) : m = n := by
  rcases hm with ⟨rfl, hm⟩ | ⟨hm0, hm, hml⟩ <;> rcases hn with ⟨rfl, hn⟩ | ⟨hn0, hn, hnl⟩
  · rfl
  · exact absurd hn (hm n)
  · exact absurd hm (hn m)
  · rcases Nat.lt_trichotomy m n with h | h | h
    · exact absurd hm (hnl m h)
    · exact h
    · exact absurd hn (hml n h)

theorem sealReason_first (r : BitVec 512) : FirstOf (SealCond r) (sealReason r) := by
  have hlow {n : Nat} (hn : ∀ k, 1 ≤ k → k < n → ¬ SealCond r k) : ∀ k, k < n → ¬ SealCond r k :=
    fun k hk hc => hn k (sealCond_code r hc).1 hk hc
  unfold sealReason
  split
  next h1 => exact .inr ⟨one_ne_zero, (sealBad1_iff r).mp h1, hlow fun k _ _ => by omega⟩
  next h1 =>
  rw [sealBad1_iff] at h1
  split
  next h2 => exact .inr ⟨two_ne_zero, (sealBad2_iff r).mp h2, hlow fun k _ _ => by rwa [show k = 1 by omega]⟩
  next h2 =>
  obtain ⟨hspace, hkind⟩ := lt_of_not_sealBad2 r h2
  rw [sealBad2_iff] at h2
  split
  next h3 => exact .inr ⟨three_ne_zero, (sealBad3_iff r).mp h3, hlow fun k _ _ => by interval_cases k <;> assumption⟩
  next h3 =>
  rw [sealBad3_iff] at h3
  split
  next h4 => exact .inr ⟨four_ne_zero, (sealBad4_iff r hspace).mp h4, hlow fun k _ _ => by interval_cases k <;> assumption⟩
  next h4 =>
  rw [sealBad4_iff r hspace] at h4
  split
  next h5 => exact .inr ⟨by decide, (sealBad5_iff r hkind).mp h5, hlow fun k _ _ => by interval_cases k <;> assumption⟩
  next h5 =>
  rw [sealBad5_iff r hkind] at h5
  refine .inl ⟨rfl, fun k hk => ?_⟩
  obtain ⟨hlo, hhi⟩ := sealCond_code r hk
  interval_cases k
  exacts [h1 hk, h2 hk, h3 hk, h4 hk, h5 hk]

theorem sealReason_iff (r : BitVec 512) (n : Nat) : sealReason r = n ↔ FirstOf (SealCond r) n :=
  ⟨fun h => by subst h; exact sealReason_first r, fun h => (sealReason_first r).unique h⟩

/-! ### Handles (R253) -/

section Handles

variable (s : State) (c : Nat)

theorem handleCount_put (i : Nat) (e : Handle) : handleCount (putHandle s c i e) c = handleCount s c := by
  rw [handleCount, handleCount, putHandle, modCtx, ctxOf, tget_tset_self]
  rfl

theorem handleAt_put (i j : Nat) (e : Handle) : handleAt (putHandle s c i e) c j = if i = j then e else handleAt s c j := by
  rw [handleAt, putHandle, modCtx, ctxOf, tget_tset_self]
  simp only [Option.getD_some, tget_tset]
  split
  · rfl
  · rfl

/-- A handle is valid where its entry has its generation. -/
theorem handleRecord_put (i h : Nat) (e : Handle) : handleRecord (putHandle s c i e) c h =
    if i = h / 4096 then (if i < handleCount s c ∧ e.gen = h % 4096 then e.record else none) else handleRecord s c h := by
  rw [handleRecord, handleCount_put, handleAt_put]
  split
  next hi => rw [hi]
  next => rfl

theorem handleRecord_some {h : Nat} (hv : handleRecord s c h ≠ none) : h / 4096 < handleCount s c ∧ (handleAt s c (h / 4096)).gen = h % 4096 := by
  by_contra hn
  exact hv (if_neg hn)

/-- The generation behind one, from 1 to 4095 in turn. -/
def genAfter (g : Nat) : Nat := if g = 4095 then 1 else g + 1

theorem retireHandle_eq (i : Nat) : retireHandle s c i = putHandle s c i ⟨genAfter (handleAt s c i).gen, none⟩ := rfl

theorem genAfter_ne (g : Nat) : genAfter g ≠ g := by
  unfold genAfter
  split <;> omega

theorem genAfter_lt {g : Nat} (h : g < 4096) : genAfter g < 4096 := by
  unfold genAfter
  split <;> omega

theorem handleRecord_retire_self (h : Nat) : handleRecord (retireHandle s c (h / 4096)) c h = none := by
  rw [retireHandle_eq, handleRecord_put, if_pos rfl]
  split <;> rfl

theorem handleRecord_retire_ne {h k : Nat} (hk : k / 4096 ≠ h / 4096) :
    handleRecord (retireHandle s c (h / 4096)) c k = handleRecord s c k := by
  rw [retireHandle_eq, handleRecord_put, if_neg hk.symm]

/-- The lowest free entry. -/
theorem freeEntry_none {n i : Nat} (h : freeEntry s c n i = none) : ∀ y, i ≤ y → y < i + n → (handleAt s c y).record ≠ none := by
  induction n generalizing i with
  | zero => intro y h1 h2; omega
  | succ n ih =>
    rw [freeEntry] at h
    split at h
    next => cases h
    next hi =>
      intro y h1 h2
      rcases Nat.eq_or_lt_of_le h1 with rfl | h1
      · exact fun hy => hi (by rw [hy]; rfl)
      · exact ih h y h1 (by omega)

theorem freeEntry_some {n i x : Nat} (h : freeEntry s c n i = some x) : i ≤ x ∧ x < i + n ∧ (handleAt s c x).record = none ∧
    ∀ y, i ≤ y → y < x → (handleAt s c y).record ≠ none := by
  induction n generalizing i with
  | zero => cases h
  | succ n ih =>
    rw [freeEntry] at h
    split at h
    next hi =>
      cases h
      exact ⟨le_rfl, by omega, Option.isNone_iff_eq_none.mp hi, fun y _ _ => by omega⟩
    next hi =>
      obtain ⟨h1, h2, h3, h4⟩ := ih h
      refine ⟨by omega, by omega, h3, fun y hy1 hy2 => ?_⟩
      rcases Nat.eq_or_lt_of_le hy1 with rfl | hy1
      · exact fun hy => hi (by rw [hy]; rfl)
      · exact h4 y hy1 hy2

end Handles

/-! ### The action of SEAL (R254) -/

section Seal

variable (s : State) (c : Nat) {r : BitVec 512}

theorem sealRecord_reason (h : Nat) (hr : sealReason r ≠ 0) : sealRecord s c h r = (sealReason r * 2 ^ 32, s) := by
  simp [sealRecord, hr]

theorem sealRecord_full (hr : sealReason r = 0) (hf : freeEntry s c (handleCount s c) 0 = none) :
    sealRecord s c 0 r = (6 * 2 ^ 32, s) := by
  simp [sealRecord, hr, hf]

theorem sealRecord_invalid {h : Nat} (hr : sealReason r = 0) (h0 : h ≠ 0) (hv : handleRecord s c h = none) :
    sealRecord s c h r = (7 * 2 ^ 32, s) := by
  simp [sealRecord, hr, h0, hv]

/-- A record without a handle takes the lowest free entry, with its generation. -/
theorem sealRecord_new {x : Nat} (hr : sealReason r = 0) (hf : freeEntry s c (handleCount s c) 0 = some x) :
    sealRecord s c 0 r = (x * 4096 + (handleAt s c x).gen, putHandle s c x ⟨(handleAt s c x).gen, some r⟩) := by
  simp [sealRecord, hr, hf]

/-- A record for a valid handle takes its entry, which advances a generation. -/
theorem sealRecord_again {h : Nat} (hr : sealReason r = 0) (h0 : h ≠ 0) (hv : handleRecord s c h ≠ none) :
    sealRecord s c h r = (h / 4096 * 4096 + genAfter (handleAt s c (h / 4096)).gen,
      putHandle (retireHandle s c (h / 4096)) c (h / 4096) ⟨genAfter (handleAt s c (h / 4096)).gen, some r⟩) := by
  have hg : (handleAt (retireHandle s c (h / 4096)) c (h / 4096)).gen = genAfter (handleAt s c (h / 4096)).gen := by
    rw [retireHandle_eq, handleAt_put, if_pos rfl]
  simp [sealRecord, hr, h0, Option.isSome_iff_ne_none.mpr hv, hg]

end Seal

end Sys2Proof.Machine
end

section
/-! SUPPORT. SEAL, SHAPE and the words that place a tile operation, for an elected thread (R254, R256, R259, R260, R264). -/

namespace Sys2Proof.Machine

/-! ### A field, and the block of an operand -/

theorem bvf_ne_zero {n : Nat} (x : BitVec n) {hi lo l : Nat} (h : hi + 1 = lo + l) : bvf x hi lo ≠ 0 ↔ x.extractLsb' lo l ≠ 0 := by
  rw [bvf_eq x h, ne_eq, ne_eq, ← BitVec.toNat_inj]
  rfl

section Block

variable {s : State} {t : ThreadKey} {a : Nat}

theorem blockFault_align (h : a % 64 ≠ 0) : blockFault s t a = some (addrFault s t .align a) := if_pos h

theorem blockFault_viol (h : a % 64 = 0) (hs : scratchSize s t ≤ a) : blockFault s t a = some (violFault s t 8 1 a) :=
  (if_neg (not_not.mpr h)).trans (if_pos hs)

theorem blockFault_inside (h : a % 64 = 0 ∧ a < scratchSize s t) : blockFault s t a = none :=
  (if_neg (not_not.mpr h.1)).trans (if_neg (by omega))

theorem blockFault_thread {f : FaultRec} (h : blockFault s t a = some f) : f.thread = t := by
  unfold blockFault at h
  split at h
  · cases h; rfl
  · split at h
    · cases h; rfl
    · cases h

end Block

/-! ### What an execution can come to -/

/-- A fault of the thread itself, a wait, a stall, or an effect that leaves the pace of the issue group. -/
def Elects (s : State) (t : ThreadKey) (x : Elected) : Prop :=
  match x with
  | .fault f => f.thread = t
  | .hold => True
  | .wait _ => True
  | .done _ s1 => PaceKept s s1

theorem electedWord_elects {i : Instr} {d : PDst} {f : State → ThreadKey → Elected} (hx : ∀ s, exec i s = electedWord i (some d) f s)
    (hhint : (instrShape i).hint = false) (hhome : (instrShape i).noHandler = true) (hf : ∀ s t, Elects s t (f s t)) :
    ElectedWord i (instrShape i).st d f :=
  electedWord_elected hx hhint hhome (fun s t x h => by have := hf s t; rwa [h] at this)
    fun s t v s1 h => by have := hf s t; rwa [h] at this

/-! ### SEAL (R254) -/

theorem putHandle_pace (s : State) (c i : Nat) (e : Handle) : PaceKept s (putHandle s c i e) := .of_eq rfl rfl rfl

theorem retireHandle_pace (s : State) (c i : Nat) : PaceKept s (retireHandle s c i) := putHandle_pace ..

theorem sealRecord_pace (s : State) (c h : Nat) (r : BitVec 512) : PaceKept s (sealRecord s c h r).2 := by
  unfold sealRecord
  extract_lets free valid reason
  split
  · exact .refl s
  next s1 x g _ =>
    have h1 : PaceKept s s1 := by
      unfold s1
      split
      · exact retireHandle_pace ..
      · exact .refl s
    exact h1.trans (putHandle_pace ..)

theorem sealOne_elects (a b : Src) (s : State) (t : ThreadKey) : Elects s t (sealOne a b s t) := by
  unfold sealOne
  extract_lets av bv c h
  split
  · rfl
  · split
    next f hf => exact blockFault_thread hf
    next =>
      split
      · split
        · exact retireHandle_pace ..
        · exact .refl s
      · split
        · trivial
        · split
          · trivial
          · exact sealRecord_pace ..

/-! ### SHAPE (R264) -/

/-- What SHAPE grants to the group of a thread. -/
def shapeGrant (a b : Src) (s : State) (t : ThreadKey) : Nat × Nat :=
  grantShape (((groupOfThread s t).map (·.hdr.accRows)).getD 0) (bvf (readSrc s t 0 a) 9 0) (bvf (readSrc s t 1 b) 9 0)

theorem shapeOne_eq (a b : Src) (s : State) (t : ThreadKey) : shapeOne a b s t =
    .done (some ((shapeGrant a b s t).2 % 65536 * 65536 + (shapeGrant a b s t).1 % 65536))
      (modGroup s ((gidOf t).getD 0) fun x => { x with shape := shapeGrant a b s t }) := rfl

theorem shapeOne_elects (a b : Src) (s : State) (t : ThreadKey) : Elects s t (shapeOne a b s t) := by
  rw [shapeOne_eq]
  exact modGroup_pace ..

theorem shapeOne_grants (a b : Src) (s : State) (t : ThreadKey) : ∃ s1,
    let rows := ((groupOfThread s t).map fun g => g.hdr.accRows).getD 0
    let rg := min ((readSrc s t 1 b).extractLsb' 0 10).toNat rows
    let mg := 8 * (min (min ((readSrc s t 0 a).extractLsb' 0 10).toNat 256) rg / 8)
    shapeOne a b s t = .done (some (rg % 65536 * 65536 + mg)) s1 ∧
    ∀ g x, gidOf t = some g → groupOf s g = some x → groupOf s1 g = some { x with shape := (mg, rg) } := by
  refine ⟨modGroup s ((gidOf t).getD 0) fun x => { x with shape := shapeGrant a b s t }, ?_⟩
  intro rows rg mg
  have hg : shapeGrant a b s t = (mg, rg) := by
    rw [shapeGrant, grantShape, bvf_eq _ (l := 10) rfl, bvf_eq _ (l := 10) rfl, Nat.mul_comm (_ / 8) 8]
  have hm : mg % 65536 = mg := Nat.mod_eq_of_lt (by omega)
  refine ⟨by rw [shapeOne_eq, hg, hm], fun g x hgid hx => ?_⟩
  rw [hgid, hg, Option.getD_some, groupOf, modGroup, tget_tmod_self, ← groupOf, hx]
  rfl

end Sys2Proof.Machine
end

section
/-! SUPPORT. Placing a tile operation: its token, and the words MXLD to ACZ for an elected thread (R238, R240, R256 to R260). -/

namespace Sys2Proof.Machine

/-! ### Taking a token (R240) -/

/-- A key set in a table none of whose entries meets a test is the only one that meets it. -/
theorem tkeys_tset_alone {K V : Type} [DecidableEq K] {p : K → V → Bool} {t : Tab K V} (ht : ∀ e ∈ t, p e.1 e.2 = false) {k : K} {v : V}
    (hv : p k v = true) : tkeys (tset t k v) p = [k] := by
  have hnone {l : Tab K V} (hl : ∀ e ∈ l, p e.1 e.2 = false) : tkeys l p = [] := by
    rw [tkeys, List.filter_eq_nil_iff.mpr fun e he => by simp [hl e he], List.map_nil]
  induction t with
  | nil => simp [tset, tkeys, hv]
  | cons e t ih =>
    have htail : ∀ x ∈ t, p x.1 x.2 = false := fun x hx => ht x (List.mem_cons_of_mem _ hx)
    unfold tset
    split
    · have := hnone htail
      rw [tkeys] at this ⊢
      rw [List.filter_cons_of_pos (by exact hv), List.map_cons, this]
    · have := ih htail
      rw [tkeys] at this ⊢
      rw [List.filter_cons_of_neg (by simp [ht e List.mem_cons_self]), this]

theorem groupOf_modGroup_self {s : State} {g : Nat} {x : Group} {f : Group → Group} (h : groupOf s g = some x) :
    groupOf (modGroup s g f) g = some (f x) := by
  rw [groupOf, modGroup, tget_tmod_self, ← groupOf, h]
  rfl

/-- The token that a group gives next. -/
def tokenNext (s : State) (gid : Nat) : Nat := ((groupOf s gid).map (·.token)).getD 1

/-- The package with an operation in the table of engines, under the next number and with the next token of its group. -/
def engAdded (s : State) (gid : Nat) (e : Eng) : State := (addEng s gid e).2

theorem addEng_eq (s : State) (gid : Nat) (e : Eng) : addEng s gid e = (tokenNext s gid, engAdded s gid e) := rfl

section Added

variable (s : State) (gid : Nat) (e : Eng)

theorem engAdded_threads : (engAdded s gid e).threads = s.threads := rfl

theorem engAdded_pace : PaceKept s (engAdded s gid e) := .of_eq rfl rfl rfl

theorem engAdded_self : tget (engAdded s gid e).engs s.seq = some { e with token := tokenNext s gid } := by
  rw [engAdded, addEng]
  exact tget_tset_self ..

theorem tokenOp_engAdded (hg : e.gid = gid) (hn : e.named = true) : tokenOp (engAdded s gid e) gid (tokenNext s gid) = some s.seq := by
  have halone : tkeys (engAdded s gid e).engs (fun _ x => x.gid == gid && x.token == tokenNext s gid && x.named) = [s.seq] := by
    rw [engAdded, addEng]
    refine tkeys_tset_alone (fun x hx => ?_) (by simp [hg, hn, tokenNext])
    obtain ⟨o, -, rfl⟩ := List.mem_map.mp hx
    split
    · simp
    next h =>
      rw [tokenNext]
      by_contra hc
      simp only [Bool.not_eq_false, Bool.and_eq_true, beq_iff_eq] at hc
      exact h hc.1
  rw [tokenOp, halone]
  rfl

theorem groupOf_engAdded {x : Group} (hx : groupOf s gid = some x) : ∃ x', groupOf (engAdded s gid e) gid = some x' ∧
    x'.token = (if x.token = 0xFFFE then 1 else x.token + 1) ∧ x'.scratch = x.scratch ∧ x'.acc = x.acc := by
  have htok : nextToken (tokenNext s gid) = if x.token = 0xFFFE then 1 else x.token + 1 := by
    rw [tokenNext, hx, Option.map_some, Option.getD_some, nextToken]
    split <;> split <;> omega
  exact ⟨_, groupOf_modGroup_self (f := fun g =>
    { g with token := nextToken (tokenNext s gid), statuses := tdel g.statuses (tokenNext s gid) }) hx, htok, rfl, rfl⟩

end Added

/-! ### Placing an operation (R260) -/

/-- The package with an operation placed: its token taken, and the load history of its slot written. -/
def tilePlaced (s : State) (t : ThreadKey) (e : Eng) (fmt : Nat) : State :=
  if e.kind = .mxld then
    modGroup (engAdded s ((gidOf t).getD 0) e) ((gidOf t).getD 0) fun g =>
      { g with ws := g.ws.set e.slot { g.ws[e.slot] with history := some (s.seq, Fin.ofNat 16 fmt) } }
  else engAdded s ((gidOf t).getD 0) e

theorem tileStart_eq (s : State) (t : ThreadKey) (e : Eng) (fmt : Nat) : tileStart s t e fmt =
    (tokenNext s ((gidOf t).getD 0), drainPoison (tilePlaced s t e fmt).engs.length (tilePlaced s t e fmt)) := rfl

/-- What an operation that is placed does not say of itself yet. -/
def IsBlank (s : State) (t : ThreadKey) (k : EngKind) (e : Eng) : Prop :=
  e.gid = (gidOf t).getD 0 ∧ e.named = true ∧ e.dispatched = 0 ∧ e.asked = false ∧ e.kind = k ∧ e.state = .pending ∧ e.thread = t ∧
    e.pcNext = pcOf s t + 4 ∧ e.landed = [] ∧ e.buf = []

section Placed

variable {s : State} {t : ThreadKey} {k : EngKind} {e : Eng}

theorem tilePlaced_pace (s : State) (t : ThreadKey) (e : Eng) (fmt : Nat) : PaceKept s (tilePlaced s t e fmt) := by
  unfold tilePlaced
  split
  · exact (engAdded_pace ..).trans (modGroup_pace ..)
  · exact engAdded_pace ..

theorem tilePlaced_rest (s : State) (t : ThreadKey) (e : Eng) (fmt : Nat) :
    (tilePlaced s t e fmt).threads = s.threads ∧ (tilePlaced s t e fmt).engs = (engAdded s ((gidOf t).getD 0) e).engs := by
  unfold tilePlaced
  split <;> exact ⟨rfl, rfl⟩

theorem tilePlaced_placed (h : IsBlank s t k e) (fmt : Nat) :
    OpPlaced s (tilePlaced s t e fmt) t k { e with token := tokenNext s ((gidOf t).getD 0) } := by
  obtain ⟨hgid, hnamed, hdisp, hasked, hkind, hstate, hthread, hpc, hlanded, hbuf⟩ := h
  obtain ⟨hthreads, hengs⟩ := tilePlaced_rest s t e fmt
  refine ⟨⟨s.seq, ?_, ?_⟩, hnamed, hdisp, hasked, hkind, hstate, hgid, hthread, hpc, rfl, hlanded, hbuf, hthreads, fun x hx => ?_⟩
  · rw [hengs, engAdded_self]
  · rw [tokenOp, hengs]
    exact tokenOp_engAdded s _ e hgid hnamed
  · obtain ⟨x', hx', htok, hscr, hacc⟩ := groupOf_engAdded s _ e hx
    unfold tilePlaced
    split
    · exact ⟨_, groupOf_modGroup_self hx', htok, hscr, hacc⟩
    · exact ⟨x', hx', htok, hscr, hacc⟩

end Placed

end Sys2Proof.Machine
end

section
/-! SUPPORT. The block words and ACZ for an elected thread (R226, R256 to R260). -/

namespace Sys2Proof.Machine

/-! ### The checks of a block word, one after another (R259) -/

/-- The operation of a block word. -/
def tileEng (k : EngKind) (b : Src) (sel : Fin 8) (s : State) (t : ThreadKey) (blk r : BitVec 512) : Eng :=
  ({ Eng.blank ((gidOf t).getD 0) (coreOfThread s t) t (pcOf s t + 4) k with
    block := blk, src := r, shape := shapeOf s t, rows := tileRows k blk (shapeOf s t), slot := tSlot blk
    index := if k = .mxsp then sparseIndex s t (Fin.ofNat 32 (tIdxReg blk)) sel else 0 } : Eng).inputs s ((gidOf t).getD 0) (readSrc s t 1 b)

/-- A block word once its block names a record. -/
def tileOfRecord (k : EngKind) (b : Src) (sel : Fin 8) (s : State) (t : ThreadKey) (blk r : BitVec 512) : Elected :=
  if !tileAdmits s t k blk r then .fault (plainFault s t .handle)
  else match tileScrBad s t r with
    | some x => .fault (violFault s t 8 1 x)
    | none =>
      if !tableRoom s (coreOfThread s t) || (k == .mxsp && !warpLanded s t (Fin.ofNat 32 (tIdxReg blk))) then .hold
      else
        let q := tileStart s t (tileEng k b sel s t blk r) (recFmt r)
        .done (some q.1) q.2

/-- A block word once its block has been read. -/
def tileOfBlock (k : EngKind) (b : Src) (sel : Fin 8) (s : State) (t : ThreadKey) (blk : BitVec 512) : Elected :=
  if tileIllegal s t k blk then .fault (plainFault s t .illegal)
  else if k = .mxsp ∧ ((warpOf s t).map (·.count)).getD 0 ≤ tIdxReg blk then .fault (plainFault s t .regRange)
  else match handleRecord s (ctxIdOf s t) (tHnd blk) with
    | none => .fault (plainFault s t .handle)
    | some r => tileOfRecord k b sel s t blk r

theorem tileOne_eq (k : EngKind) (a b : Src) (sel : Fin 8) (s : State) (t : ThreadKey) : tileOne k a b sel s t =
    match blockFault s t (readSrc s t 0 a).toNat with
    | some f => .fault f
    | none =>
      if blockAbsent s t (readSrc s t 0 a).toNat then .wait ((readSrc s t 0 a).toNat / 64)
      else if !blockReady s t (readSrc s t 0 a).toNat || acqPending s t then .hold
      else tileOfBlock k b sel s t (readBlock s t (readSrc s t 0 a).toNat) := rfl

theorem tileStart_pace (s : State) (t : ThreadKey) (e : Eng) (fmt : Nat) : PaceKept s (tileStart s t e fmt).2 :=
  (tilePlaced_pace s t e fmt).trans (drainPoison_pace ..)

theorem tileOfRecord_elects (k : EngKind) (b : Src) (sel : Fin 8) (s : State) (t : ThreadKey) (blk r : BitVec 512) :
    Elects s t (tileOfRecord k b sel s t blk r) := by
  unfold tileOfRecord
  split
  · rfl
  · split
    · rfl
    · split
      · trivial
      · exact tileStart_pace ..

theorem tileOne_elects (k : EngKind) (a b : Src) (sel : Fin 8) (s : State) (t : ThreadKey) : Elects s t (tileOne k a b sel s t) := by
  rw [tileOne_eq]
  split
  next f hf => exact blockFault_thread hf
  next =>
    split
    · trivial
    · split
      · trivial
      · unfold tileOfBlock
        split
        · rfl
        · split
          · rfl
          · split
            · rfl
            · exact tileOfRecord_elects ..

theorem tileEng_blank (k : EngKind) (b : Src) (sel : Fin 8) (s : State) (t : ThreadKey) (blk r : BitVec 512) :
    IsBlank s t k (tileEng k b sel s t blk r) := ⟨rfl, rfl, rfl, rfl, rfl, rfl, rfl, rfl, rfl, rfl⟩

/-- What a block word whose checks pass comes to. -/
theorem tileOfRecord_room {k : EngKind} {b : Src} {sel : Fin 8} {s : State} {t : ThreadKey} {blk r : BitVec 512}
    (hadm : tileAdmits s t k blk r = true) (hscr : tileScrBad s t r = none) :
    let room := tableRoom s (coreOfThread s t) = true ∧ (k = .mxsp → warpLanded s t (Fin.ofNat 32 (tIdxReg blk)) = true)
    (¬ room → tileOfRecord k b sel s t blk r = .hold) ∧
    (room → ∃ s1 e, tileOfRecord k b sel s t blk r = .done (some e.token) (drainPoison s1.engs.length s1) ∧ OpPlaced s s1 t k e ∧
      e.block = blk ∧ e.src = r ∧ e.shape = shapeOf s t ∧ e.rows = tileRows k blk (shapeOf s t) ∧ InputsTaken s (readSrc s t 1 b) e) := by
  intro room
  have hroom : (!tableRoom s (coreOfThread s t) || (k == .mxsp && !warpLanded s t (Fin.ofNat 32 (tIdxReg blk)))) = true ↔ ¬ room := by
    simp only [room, Bool.or_eq_true, Bool.not_eq_true', Bool.and_eq_true, beq_iff_eq, not_and_or, Bool.not_eq_true, Classical.not_imp]
  have hx : tileOfRecord k b sel s t blk r =
      if !tableRoom s (coreOfThread s t) || (k == .mxsp && !warpLanded s t (Fin.ofNat 32 (tIdxReg blk))) then .hold
      else .done (some (tileStart s t (tileEng k b sel s t blk r) (recFmt r)).1) (tileStart s t (tileEng k b sel s t blk r) (recFmt r)).2 := by
    rw [tileOfRecord, hadm, hscr]
    rfl
  refine ⟨fun h => hx.trans (if_pos (hroom.mpr h)), fun h => ?_⟩
  refine ⟨tilePlaced s t (tileEng k b sel s t blk r) (recFmt r), { tileEng k b sel s t blk r with token := tokenNext s ((gidOf t).getD 0) },
    hx.trans ((if_neg fun hc => hroom.mp hc h).trans (by rw [tileStart_eq])), tilePlaced_placed (tileEng_blank ..) _, rfl, rfl, rfl, rfl, ?_⟩
  unfold InputsTaken
  rw [← bvf_eq (hi := 15) (lo := 0) (l := 16) (readSrc s t 1 b) rfl,
    ← bvf_eq (hi := 31) (lo := 16) (l := 16) (readSrc s t 1 b) rfl]
  exact ⟨rfl, rfl, rfl⟩

/-! ### ACZ -/

theorem aczOne_elects (a b : Src) (s : State) (t : ThreadKey) : Elects s t (aczOne a b s t) := by
  unfold aczOne
  extract_lets row n
  split
  · rfl
  · split
    · trivial
    · exact tileStart_pace ..

end Sys2Proof.Machine
end

section
/-! PROOFS. The tile words (R83, R145, R226, R250 to R264, R273 to R275). -/

namespace Sys2Proof.Machine

/-! ### A block word, check by check (R259) -/

section Blocks

variable {k : EngKind} {a b : Src} {sel : Fin 8} {s : State} {t : ThreadKey}

theorem tileOne_blockFault {f : FaultRec} (h : blockFault s t (readSrc s t 0 a).toNat = some f) : tileOne k a b sel s t = .fault f := by
  rw [tileOne_eq, h]

variable (hin : (readSrc s t 0 a).toNat % 64 = 0 ∧ (readSrc s t 0 a).toNat < scratchSize s t)
include hin

theorem tileOne_absent (h : blockAbsent s t (readSrc s t 0 a).toNat = true) :
    tileOne k a b sel s t = .wait ((readSrc s t 0 a).toNat / 64) := by
  rw [tileOne_eq, blockFault_inside hin, h]
  rfl

theorem tileOne_hold (h : blockAbsent s t (readSrc s t 0 a).toNat = false)
    (hr : blockReady s t (readSrc s t 0 a).toNat = false ∨ acqPending s t = true) : tileOne k a b sel s t = .hold := by
  have hc : (!blockReady s t (readSrc s t 0 a).toNat || acqPending s t) = true := by rcases hr with hr | hr <;> simp [hr]
  rw [tileOne_eq, blockFault_inside hin, h, hc]
  rfl

theorem tileOne_reads (h : blockAbsent s t (readSrc s t 0 a).toNat = false) (hr : blockReady s t (readSrc s t 0 a).toNat = true)
    (hq : acqPending s t = false) : tileOne k a b sel s t = tileOfBlock k b sel s t (readBlock s t (readSrc s t 0 a).toNat) := by
  rw [tileOne_eq, blockFault_inside hin, h, hr, hq]
  rfl

end Blocks

section Records

variable {k : EngKind} {b : Src} {sel : Fin 8} {s : State} {t : ThreadKey} {blk : BitVec 512}

theorem tileOfBlock_illegal (h : tileIllegal s t k blk = true) : tileOfBlock k b sel s t blk = .fault (plainFault s t .illegal) :=
  if_pos h

theorem tileOfBlock_range (h : tileIllegal s t k blk = false) (hk : k = .mxsp) (hr : ((warpOf s t).map (·.count)).getD 0 ≤ tIdxReg blk) :
    tileOfBlock k b sel s t blk = .fault (plainFault s t .regRange) := by
  rw [tileOfBlock, h]
  exact (if_neg Bool.false_ne_true).trans (if_pos ⟨hk, hr⟩)

variable (h : tileIllegal s t k blk = false) (hr : k = .mxsp → tIdxReg blk < ((warpOf s t).map (·.count)).getD 0)
include h hr

theorem tileOfBlock_handle (hh : handleRecord s (ctxIdOf s t) (tHnd blk) = none) :
    tileOfBlock k b sel s t blk = .fault (plainFault s t .handle) := by
  rw [tileOfBlock, h, hh]
  exact (if_neg Bool.false_ne_true).trans (if_neg fun hc => absurd (hr hc.1) (Nat.not_lt.mpr hc.2))

theorem tileOfBlock_record {r : BitVec 512} (hh : handleRecord s (ctxIdOf s t) (tHnd blk) = some r) :
    tileOfBlock k b sel s t blk = tileOfRecord k b sel s t blk r := by
  rw [tileOfBlock, h, hh]
  exact (if_neg Bool.false_ne_true).trans (if_neg fun hc => absurd (hr hc.1) (Nat.not_lt.mpr hc.2))

end Records

theorem tileOfRecord_unfit {k : EngKind} {b : Src} {sel : Fin 8} {s : State} {t : ThreadKey} {blk r : BitVec 512}
    (h : tileAdmits s t k blk r = false) : tileOfRecord k b sel s t blk r = .fault (plainFault s t .handle) := by
  rw [tileOfRecord, h]
  rfl

theorem tileOfRecord_outside {k : EngKind} {b : Src} {sel : Fin 8} {s : State} {t : ThreadKey} {blk r : BitVec 512} {x : Nat}
    (h : tileAdmits s t k blk r = true) (hx : tileScrBad s t r = some x) :
    tileOfRecord k b sel s t blk r = .fault (violFault s t 8 1 x) := by
  rw [tileOfRecord, h, hx]
  rfl

/-! ### ACZ -/

/-- The operation of an ACZ. -/
def aczEng (s : State) (t : ThreadKey) (row n : Nat) : Eng :=
  { Eng.blank ((gidOf t).getD 0) (coreOfThread s t) t (pcOf s t + 4) .acz with shape := shapeOf s t, rows := (row, n) }

theorem aczOne_eq (a b : Src) (s : State) (t : ThreadKey) : aczOne a b s t =
    let row := ((readSrc s t 0 a).extractLsb' 0 10).toNat
    let n := ((readSrc s t 1 b).extractLsb' 0 10).toNat
    if n = 0 ∨ (shapeOf s t).2 < row + n then .fault (plainFault s t .illegal)
    else if !tableRoom s (coreOfThread s t) then .hold
    else .done (some (tileStart s t (aczEng s t row n) 0).1) (tileStart s t (aczEng s t row n) 0).2 := by
  rw [aczOne, bvf_eq (l := 10) _ rfl, bvf_eq (l := 10) _ rfl]
  rfl

/-! ### OPRDY, MXWAIT -/

theorem exec_oprdy {st : Stall} {s : State} (h : issuable (.oprdy st) s = true) :
    ((∀ t ∈ s.focus.threads, oprdyReady s t = true) → ∃ s', exec (.oprdy st) s = .next s' ∧ OnlyThreadsChange s s' ∧
      ThreadsBecome s s' (fun _ th => issued (now s) st (th.pc + 4) th.regs th)) ∧
    (¬ (∀ t ∈ s.focus.threads, oprdyReady s t = true) → ∃ s', exec (.oprdy st) s = .next s' ∧ Held s s') := by
  have hx : exec (.oprdy st) s =
      issue (.oprdy st) (fun ts s => if ts.all (oprdyReady s) then .done s (advance s ts) else .hold) s := rfl
  rw [hx]
  refine ⟨fun hc => ?_, fun hc => issue_hold h (if_neg fun hall => hc (List.all_eq_true.mp hall))⟩
  obtain ⟨s', he, hbec, honly⟩ := exec_sends (n := fun t => pcOf s t + 4)
    (act := fun ts s => if ts.all (oprdyReady s) then .done s (advance s ts) else .hold) h rfl (if_pos (List.all_eq_true.mpr hc))
  exact ⟨s', he, honly, hbec.congr fun t th hth => by rw [pcOf_eq hth]; rfl⟩

theorem tokenWait_pace (s : State) (t : ThreadKey) (tok : Nat) (d : PDst) (mx : Bool) : PaceKept s (tokenWait s t tok d mx) := by
  have hpush (v : Nat) (x : State) (hx : PaceKept s x) : PaceKept s (giveThread x t d (BitVec.ofNat 64 v) 0 none) :=
    hx.trans (giveThread_pace ..)
  have hpark (w : Wait) : PaceKept s (waitThread (giveThread { s with seq := s.seq + 1 } t d 0 0 (some s.seq)) t w) :=
    (PaceKept.of_eq rfl rfl rfl : PaceKept s { s with seq := s.seq + 1 }).trans ((giveThread_pace ..).trans (waitThread_pace ..))
  unfold tokenWait
  extract_lets gid push park
  split
  · split
    · exact hpark _
    · exact hpush _ s (.refl s)
  · split
    · exact hpush _ s (.refl s)
    · split
      · split
        · exact hpark _
        · exact hpark _
      · split
        · exact hpush _ s (.refl s)
        · exact hpush _ _ (acquireAct_pace ..)

theorem exec_mxwait {a : Src} {d : PDst} {st : Stall} {s : State} (h : issuable (.mxwait a d st) s = true) :
    let tok (t : ThreadKey) : Nat := ((readSrc s t 0 a).extractLsb' 0 16).toNat
    ((∀ t ∈ s.focus.threads, tokenReady s t (tok t) = true) → ∃ s', exec (.mxwait a d st) s = .next s' ∧
      GoesOn st s (s.focus.threads.foldl (fun x t => tokenWait x t (tok t) d true) s) s') ∧
    ((∃ t ∈ s.focus.threads, tokenReady s t (tok t) = false) → ∃ s', exec (.mxwait a d st) s = .next s' ∧ Held s s') := by
  intro tok
  have htok (x : ThreadKey) : bvf (readSrc s x 0 a) 15 0 = tok x := bvf_eq _ rfl
  have hx : exec (.mxwait a d st) s = issue (.mxwait a d st) (fun ts s =>
      if ts.any fun t => !tokenReady s t (bvf (readSrc s t 0 a) 15 0) then .hold
      else .done (ts.foldl (fun x t => tokenWait x t (bvf (readSrc s t 0 a) 15 0) d true) s) (advance s ts)) s := rfl
  rw [hx]
  refine ⟨fun hr => ?_, fun ⟨t, ht, hr⟩ => issue_hold h (if_pos (List.any_eq_true.mpr ⟨t, ht, by rw [htok, hr]; rfl⟩))⟩
  refine issue_goesOn h rfl ((if_neg ?_).trans (by simp only [htok])) (.foldl (fun _ _ => tokenWait_pace ..) _ s)
  rw [List.any_eq_true]
  rintro ⟨t, ht, hn⟩
  rw [htok, hr t ht] at hn
  cases hn

/-- A thread that waits for an operation which its token names: a value is owed to it. -/
theorem threadOf_tokenWait {s : State} {t : ThreadKey} {th : Thread} {tok op : Nat} {e : Eng} {d : PDst} (ht : threadOf s t = some th)
    (h0 : tok ≠ 0) (hf : tok ≠ 0xFFFF) (hop : tokenOp s ((gidOf t).getD 0) tok = some op) (he : tget s.engs op = some e) :
    threadOf (tokenWait s t tok d true) t = some { th with
      regs := th.regs.give d 0 0 (some s.seq)
      status := .live (.waiting (if e.kind.isTile then .tile op s.seq else .token (some op) s.seq)) } := by
  have hpark (w : Wait) : threadOf (waitThread (giveThread { s with seq := s.seq + 1 } t d 0 0 (some s.seq)) t w) t =
      some { th with regs := th.regs.give d 0 0 (some s.seq), status := .live (.waiting w) } := by
    rw [waitThread, giveThread, threadOf_modThread, if_pos rfl, threadOf_modThread, if_pos rfl]
    show ((threadOf s t).map _).map _ = _
    rw [ht]
    rfl
  have hx : tokenWait s t tok d true = waitThread (giveThread { s with seq := s.seq + 1 } t d 0 0 (some s.seq)) t
      (if e.kind.isTile then .tile op s.seq else .token (some op) s.seq) := by
    simp only [tokenWait, Bool.true_eq_false, and_false, if_false, h0, hf, or_self, hop, he, Option.map_some, Option.getD_some, true_and]
    split <;> rfl
  rw [hx, hpark]

/-! ### SEAL (R253, R254) -/

/-- The operands of SEAL are out of order: bits above the flag, or an address where a handle is released (R254). -/
def BadOperands (s : State) (t : ThreadKey) (a b : Src) : Prop :=
  (readSrc s t 1 b).extractLsb' 33 31 ≠ 0 ∨ ((readSrc s t 1 b).getLsbD 32 = true ∧ readSrc s t 0 a ≠ 0)

theorem sealOne_bad {a b : Src} {s : State} {t : ThreadKey} (h : BadOperands s t a b) : sealOne a b s t = .fault (plainFault s t .illegal) :=
  if_pos (by rwa [bvf_ne_zero _ (l := 31) rfl])

/-- SEAL with operands that are in order. -/
theorem sealOne_eq {a b : Src} {s : State} {t : ThreadKey} (h : ¬ BadOperands s t a b) : sealOne a b s t =
    let av := (readSrc s t 0 a).toNat
    let n := ((readSrc s t 1 b).extractLsb' 0 32).toNat
    match blockFault s t av with
    | some f => .fault f
    | none =>
      if (readSrc s t 1 b).getLsbD 32 then
        match handleRecord s (ctxIdOf s t) n with
        | some _ => .done (some 0) (retireHandle s (ctxIdOf s t) (n / 4096))
        | none => .done (some (7 * 2 ^ 32)) s
      else if blockAbsent s t av then .wait (av / 64)
      else if !blockReady s t av then .hold
      else .done (some (sealRecord s (ctxIdOf s t) n (readBlock s t av)).1) (sealRecord s (ctxIdOf s t) n (readBlock s t av)).2 := by
  have hb : ¬ (bvf (readSrc s t 1 b) 63 33 ≠ 0 ∨ ((readSrc s t 1 b).getLsbD 32 = true ∧ readSrc s t 0 a ≠ 0)) := by
    rwa [bvf_ne_zero _ (l := 31) rfl]
  rw [sealOne, bvf_eq (l := 32) (hi := 31) (lo := 0) _ rfl]
  exact if_neg hb

theorem sealOne_blockFault {a b : Src} {s : State} {t : ThreadKey} (h : ¬ BadOperands s t a b) {f : FaultRec}
    (hf : blockFault s t (readSrc s t 0 a).toNat = some f) : sealOne a b s t = .fault f := by
  rw [sealOne_eq h]
  simp only [hf]

/-- SEAL of a record where none is free, or into the lowest free entry (R253, R254). -/
theorem sealRecord_fresh (s : State) (c : Nat) {r : BitVec 512} (hr : sealReason r = 0) :
    (freeEntry s c (handleCount s c) 0 = none → sealRecord s c 0 r = (6 * 2 ^ 32, s)) ∧
    (∀ x, freeEntry s c (handleCount s c) 0 = some x → x < handleCount s c ∧ (handleAt s c x).record = none ∧
      (∀ y, y < x → (handleAt s c y).record ≠ none) ∧ ((handleAt s c x).gen < 4096 →
      ∃ s1, sealRecord s c 0 r = (x * 4096 + (handleAt s c x).gen, s1) ∧
        handleRecord s1 c (x * 4096 + (handleAt s c x).gen) = some r)) := by
  refine ⟨sealRecord_full s c hr, fun x hx => ?_⟩
  obtain ⟨-, hlt, hnone, hlow⟩ := freeEntry_some s c hx
  refine ⟨by omega, hnone, fun y hy => hlow y (Nat.zero_le y) hy, fun hg => ⟨_, sealRecord_new s c hr hx, ?_⟩⟩
  rw [handleRecord_put, if_pos (by omega), if_pos ⟨by omega, by dsimp only; omega⟩]

/-- SEAL of a record in place of another one (R253, R254). -/
theorem sealRecord_replaces (s : State) (c : Nat) {r : BitVec 512} (hr : sealReason r = 0) {h : Nat} (h0 : h ≠ 0)
    (hv : handleRecord s c h ≠ none) : ∃ h' s1, sealRecord s c h r = (h', s1) ∧ h' / 4096 = h / 4096 ∧
      handleRecord s1 c h = none ∧ handleRecord s1 c h' = some r := by
  obtain ⟨hlt, hgen⟩ := handleRecord_some s c hv
  have hg := genAfter_lt (g := (handleAt s c (h / 4096)).gen) (by omega)
  have hne := genAfter_ne (handleAt s c (h / 4096)).gen
  refine ⟨_, _, sealRecord_again s c hr h0 hv, by omega, ?_, ?_⟩
  · rw [handleRecord_put, if_pos rfl, if_neg fun hc => hne (hc.2.trans hgen.symm)]
  · rw [handleRecord_put, if_pos (by omega), retireHandle_eq, handleCount_put, if_pos ⟨hlt, by dsimp only; omega⟩]

/-- SEAL that releases a handle (R254). -/
theorem sealOne_releases {a b : Src} {s : State} {t : ThreadKey} (hb : ¬ BadOperands s t a b)
    (hi : (readSrc s t 0 a).toNat % 64 = 0 ∧ (readSrc s t 0 a).toNat < scratchSize s t) (hbit : (readSrc s t 1 b).getLsbD 32 = true) :
    let h := ((readSrc s t 1 b).extractLsb' 0 32).toNat
    let c := ctxIdOf s t
    (handleRecord s c h = none → sealOne a b s t = .done (some (7 * 2 ^ 32)) s) ∧
    (handleRecord s c h ≠ none → ∃ s1, sealOne a b s t = .done (some 0) s1 ∧ handleRecord s1 c h = none ∧
      ∀ k, k / 4096 ≠ h / 4096 → handleRecord s1 c k = handleRecord s c k) := by
  intro h c
  have hx : sealOne a b s t = match handleRecord s c h with
      | some _ => .done (some 0) (retireHandle s c (h / 4096))
      | none => .done (some (7 * 2 ^ 32)) s := by
    rw [sealOne_eq hb]
    simp only [blockFault_inside hi, hbit, if_true]
    rfl
  refine ⟨fun hn => by rw [hx, hn], fun hn => ?_⟩
  obtain ⟨x, hr⟩ := Option.ne_none_iff_exists'.mp hn
  exact ⟨_, by rw [hx, hr], handleRecord_retire_self s c h, fun k hk => handleRecord_retire_ne s c hk⟩

/-- SEAL of the record in a block (R254). -/
theorem sealOne_seals {a b : Src} {s : State} {t : ThreadKey} (hb : ¬ BadOperands s t a b)
    (hi : (readSrc s t 0 a).toNat % 64 = 0 ∧ (readSrc s t 0 a).toNat < scratchSize s t) (hbit : (readSrc s t 1 b).getLsbD 32 = false) :
    let av := readSrc s t 0 a
    let h := ((readSrc s t 1 b).extractLsb' 0 32).toNat
    let c := ctxIdOf s t
    (blockAbsent s t av.toNat = true → sealOne a b s t = .wait (av.toNat / 64)) ∧
    (blockAbsent s t av.toNat = false → blockReady s t av.toNat = false → sealOne a b s t = .hold) ∧
    (blockAbsent s t av.toNat = false → blockReady s t av.toNat = true →
      sealOne a b s t = .done (some (sealRecord s c h (readBlock s t av.toNat)).1) (sealRecord s c h (readBlock s t av.toNat)).2) := by
  intro av h c
  have hx : sealOne a b s t = if blockAbsent s t av.toNat then .wait (av.toNat / 64)
      else if !blockReady s t av.toNat then .hold
      else .done (some (sealRecord s c h (readBlock s t av.toNat)).1) (sealRecord s c h (readBlock s t av.toNat)).2 := by
    rw [sealOne_eq hb]
    simp only [blockFault_inside hi, hbit, Bool.false_eq_true, if_false]
    rfl
  rw [hx]
  exact ⟨fun ha => by simp [ha], fun ha hr => by simp [ha, hr], fun ha hr => by simp [ha, hr]⟩

/-! ### The statement -/

/-- Settles O43: each word is an elected word, since whatever its execution comes to leaves the pace of the issue group; and each execution
is followed check by check, through the conditions of R254, the handles of R253 and the token that R240 gives an operation. -/
theorem tileWords : Obligations.TileWords := by
  unfold Obligations.TileWords
  refine ⟨?_, ?_, ?_, ?_, ?_, ?_, ?_, ?_, ?_, ?_, ?_⟩
  · intro a b d sel st
    exact ⟨electedWord_elects (i := .seal a b d st) (fun _ => rfl) rfl rfl (sealOne_elects a b),
      electedWord_elects (i := .shape a b d st) (fun _ => rfl) rfl rfl (shapeOne_elects a b),
      electedWord_elects (i := .mxld a b d st) (fun _ => rfl) rfl rfl (tileOne_elects .mxld a b 0),
      electedWord_elects (i := .mxmm a b d st) (fun _ => rfl) rfl rfl (tileOne_elects .mxmm a b 0),
      electedWord_elects (i := .mxsp a b sel st) (fun _ => rfl) rfl rfl (tileOne_elects .mxsp a b sel),
      electedWord_elects (i := .acld a b d st) (fun _ => rfl) rfl rfl (tileOne_elects .acld a b 0),
      electedWord_elects (i := .acst a b d st) (fun _ => rfl) rfl rfl (tileOne_elects .acst a b 0),
      electedWord_elects (i := .acz a b d st) (fun _ => rfl) rfl rfl (aczOne_elects a b)⟩
  · exact shapeOne_grants
  · intro k a b sel s t _ _ _ av blk inside
    refine ⟨fun h => tileOne_blockFault (blockFault_align h), fun h hs => tileOne_blockFault (blockFault_viol h hs),
      fun h ha => tileOne_absent h ha, fun h ha hr => tileOne_hold h ha hr, fun h ha hr hq => ?_⟩
    rw [tileOne_reads h ha hr hq]
    refine ⟨tileOfBlock_illegal, fun hi hk hc => ?_, fun hi hk => ⟨fun hh => tileOfBlock_handle hi hk hh, fun r hh => ?_⟩⟩
    · exact tileOfBlock_range hi hk (by rwa [tIdxReg, bvf_eq _ (l := 5) rfl])
    · rw [tileOfBlock_record hi hk hh]
      exact ⟨tileOfRecord_unfit, fun x => tileOfRecord_outside, fun hadm hscr => tileOfRecord_room hadm hscr⟩
  · intro a b s t row n
    rw [aczOne_eq]
    refine ⟨fun h => if_pos h, fun h0 hs hr => ?_, fun h0 hs hr => ?_⟩
    · exact (if_neg (by omega)).trans (if_pos (by rw [hr]; rfl))
    · exact ⟨tilePlaced s t (aczEng s t row n) 0, { aczEng s t row n with token := tokenNext s ((gidOf t).getD 0) },
        (if_neg (by omega)).trans (if_neg (by rw [hr]; exact Bool.false_ne_true)),
        tilePlaced_placed ⟨rfl, rfl, rfl, rfl, rfl, rfl, rfl, rfl, rfl, rfl⟩ 0, rfl⟩
  · intro a b s t _ av bv h c bad inside
    exact ⟨sealOne_bad, fun hb ha => sealOne_blockFault hb (blockFault_align ha),
      fun hb ha hs => sealOne_blockFault hb (blockFault_viol ha hs), fun hb hi hbit => sealOne_releases hb hi hbit,
      fun hb hi hbit => sealOne_seals hb hi hbit⟩
  · exact sealReason_iff
  · exact fun s c h r => sealRecord_reason s c h
  · intro s c r hr
    obtain ⟨hfull, hnew⟩ := sealRecord_fresh s c hr
    exact ⟨hfull, hnew, fun h h0 => ⟨sealRecord_invalid s c hr h0, fun hv _ => sealRecord_replaces s c hr h0 hv⟩⟩
  · exact fun st s h => exec_oprdy h
  · exact fun a d st s h => exec_mxwait h
  · exact fun s t th tok op e d => threadOf_tokenWait

end Sys2Proof.Machine
end

section
/-! SUPPORT. What the integer and move words compute, as bit vectors (R112 to R127). -/

namespace Sys2Proof.Machine

/-! ### Integers of a width, and the high halves (R113) -/

theorem zval_low (w : Width) (x : Word) : zval (widthBits w) x = (low w x).toNat := zval_eq _ x

theorem sval_low (w : Width) (x : Word) : sval (widthBits w) x = (low w x).toInt := sval_eq (widthBits_pos w) x

/-- A natural number with zeros above its low bits. -/
theorem zext_nat (n v : Nat) : zext n (v : Int) = zHigh (BitVec.ofNat n v) := by
  rw [zext_eq, BitVec.ofInt_natCast]; rfl

theorem zext_zHigh (n : Nat) (v : Int) : zext n v = zHigh (BitVec.ofInt n v) := zext_eq v

/-- A number that fits the width is itself. -/
theorem zext_ofNat_of_lt (w : Width) {v : Nat} (h : v < 2 ^ widthBits w) : zext (widthBits w) (v : Int) = BitVec.ofNat 64 v := by
  rw [zext_nat, zHigh, BitVec.setWidth_ofNat_of_le_of_lt (widthBits_le w) h]

theorem zext_toNat {n : Nat} (x : BitVec n) : zext n (x.toNat : Int) = zHigh x := by
  rw [zext_nat, BitVec.ofNat_toNat, BitVec.setWidth_eq]

/-- An integer with copies of its sign above its low bits. -/
theorem sext_sHigh (w : Width) (v : Int) : sext (widthBits w) v = sHigh (BitVec.ofInt (widthBits w) v) :=
  sext_eq (widthBits_pos w) (widthBits_le w) v

theorem sext_toInt (w : Width) (x : BitVec (widthBits w)) : sext (widthBits w) x.toInt = sHigh x := by
  rw [sext_sHigh, BitVec.ofInt_toInt]

/-! ### Sums, minima, absolute values and products (R118 to R120, R125) -/

theorem clampS_eq_within (n : Nat) (v : Int) : clampS n v = within (-2 ^ (n - 1)) (2 ^ (n - 1) - 1) v := by
  have hpos : (0 : Int) < 2 ^ (n - 1) := by positivity
  simp only [clampS, within, Nat.cast_pow, Nat.cast_ofNat]
  generalize (2 : Int) ^ (n - 1) = p at hpos
  split <;> [skip; split] <;> omega

theorem clampU_eq_within (n : Nat) (v : Int) : clampU n v = within 0 (2 ^ n - 1) v := by
  have hpos : (0 : Int) < 2 ^ n := by positivity
  simp only [clampU, within, Nat.cast_pow, Nat.cast_ofNat]
  generalize (2 : Int) ^ n = p at hpos
  split <;> [skip; split] <;> omega

/-- The operation that IADD and ISUB select. -/
theorem aluAddSub_eq_sumRule {sub : Bool} {f : Int → Int → Int} (hf : ∀ x y, f x y = if sub then x - y else x + y) (n : Width)
    (m : SatMode) : aluAddSub sub n m = sumRule f n m := by
  funext a b
  cases m with
  | wrap => simp only [aluAddSub, sumRule, zval_low, zext_zHigh, hf]
  | ss => simp only [aluAddSub, sumRule, sval_low, sext_sHigh, clampS_eq_within, hf]
  | us => simp only [aluAddSub, sumRule, zval_low, zext_zHigh, clampU_eq_within, hf]

theorem aluMin_eq_minRule (n : Width) (uns : Bool) : aluMin n uns = minRule n uns := by
  funext a b
  simp only [aluMin, minRule, zval_low, sval_low, sext_toInt, BitVec.ule_iff_toNat_le, BitVec.sle_iff_toInt_le]
  cases uns with
  | true =>
    simp only [if_true, min_def, apply_ite zHigh]
    split <;> exact zext_toNat _
  | false => simp only [Bool.false_eq_true, if_false, apply_ite sHigh]

theorem aluMax_eq_maxRule (n : Width) (uns : Bool) : aluMax n uns = maxRule n uns := by
  funext a b
  simp only [aluMax, maxRule, zval_low, sval_low, sext_toInt, BitVec.ule_iff_toNat_le, BitVec.sle_iff_toInt_le, ge_iff_le]
  cases uns with
  | true =>
    simp only [if_true, max_comm (low n a).toNat, max_def, apply_ite zHigh]
    split <;> exact zext_toNat _
  | false => simp only [Bool.false_eq_true, if_false, apply_ite sHigh]

theorem aluAbs_eq_absRule (n : Width) : aluAbs n = absRule n := by
  funext a
  rw [aluAbs, absRule, sval_low, sext_sHigh, clampS_eq_within, within]
  have hpos : (0 : Int) < 2 ^ (widthBits n - 1) := by positivity
  congr 2
  omega

theorem aluMulLow_eq (n : Width) : aluMulLow n = fun x y => zHigh (low n x * low n y) := by
  funext x y
  rw [aluMulLow, zval_low, zval_low, zext_nat, BitVec.ofNat_mul, BitVec.ofNat_toNat, BitVec.ofNat_toNat, BitVec.setWidth_eq,
    BitVec.setWidth_eq]

theorem aluMulHighS_eq (n : Width) : aluMulHighS n = fun x y =>
    sHigh (BitVec.ofInt (widthBits n) ((low n x).toInt * (low n y).toInt / 2 ^ widthBits n)) := by
  funext x y
  rw [aluMulHighS, sval_low, sval_low, sext_sHigh, Int.fdiv_eq_ediv_of_nonneg _ (Int.natCast_nonneg _), Nat.cast_pow, Nat.cast_ofNat]

theorem aluMulHighU_eq (n : Width) : aluMulHighU n = fun x y =>
    zHigh (BitVec.ofNat (widthBits n) ((low n x).toNat * (low n y).toNat / 2 ^ widthBits n)) := by
  funext x y
  rw [aluMulHighU, zval_low, zval_low, zext_nat]

theorem aluMad_eq (n : Width) : aluMad n = fun x y z => zHigh (low n x * low n y + low n z) := by
  funext x y z
  rw [aluMad, zval_low, zval_low, zval_low, zext_nat, BitVec.ofNat_add, BitVec.ofNat_mul]
  simp only [BitVec.ofNat_toNat, BitVec.setWidth_eq]

/-! ### Shifts (R122) -/

theorem shiftCount_eq_shiftOf (n : Width) (b : Word) : shiftCount n b = shiftOf n b := by
  cases n <;> simp [shiftCount, shiftOf, widthBits, BitVec.extractLsb, BitVec.extractLsb'_toNat]

theorem shiftOf_lt (n : Width) (b : Word) : shiftOf n b < widthBits n := by
  rw [← shiftCount_eq_shiftOf]
  exact Nat.mod_lt _ (widthBits_pos n)

theorem aluShl_eq (n : Width) : aluShl n = fun x y => zHigh (low n x <<< shiftOf n y) := by
  funext x y
  rw [aluShl, zval_low, shiftCount_eq_shiftOf, zext_nat]
  congr 1
  apply BitVec.eq_of_toNat_eq
  simp [Nat.shiftLeft_eq]

theorem aluShr_eq (n : Width) : aluShr n = fun x y => zHigh (low n x >>> shiftOf n y) := by
  funext x y
  rw [aluShr, zval_low, shiftCount_eq_shiftOf, ← Nat.shiftRight_eq_div_pow, ← BitVec.toNat_ushiftRight, zext_toNat]

theorem aluSar_eq (n : Width) : aluSar n = fun x y => sHigh ((low n x).sshiftRight (shiftOf n y)) := by
  funext x y
  rw [aluSar, sval_low, shiftCount_eq_shiftOf, Int.fdiv_eq_ediv_of_nonneg _ (Int.natCast_nonneg _),
    ← Int.shiftRight_eq_div_pow, ← BitVec.toInt_sshiftRight, sext_toInt]

theorem aluRot_eq (n : Width) : aluRot n = fun x y => zHigh ((low n x).rotateLeft (shiftOf n y)) := by
  funext x y
  have hk := shiftOf_lt n y
  have hx := (low n x).isLt
  simp only [aluRot, zval_low, shiftCount_eq_shiftOf]
  generalize low n x = x at hx ⊢
  generalize shiftOf n y = k at hk ⊢
  -- the bits that leave at the top are the ones that come in below
  have hpow : 2 ^ widthBits n = 2 ^ (widthBits n - k) * 2 ^ k := by rw [← pow_add, Nat.sub_add_cancel hk.le]
  have htop : x.toNat / 2 ^ (widthBits n - k) < 2 ^ k := Nat.div_lt_of_lt_mul (hpow ▸ hx)
  have hrot : x.toNat * 2 ^ k % 2 ^ widthBits n + x.toNat / 2 ^ (widthBits n - k) = (x.rotateLeft k).toNat := by
    rw [BitVec.toNat_rotateLeft, Nat.mod_eq_of_lt hk, Nat.shiftLeft_eq, Nat.shiftRight_eq_div_pow, hpow, Nat.mul_mod_mul_right,
      Nat.mul_comm (_ % _), Nat.two_pow_add_eq_or_of_lt htop]
  rw [hrot, zext_toNat]

/-! ### Counts and the reversal (R123) -/

theorem onesOf_le {n : Nat} (x : BitVec n) : onesOf x ≤ n := by
  rw [onesOf]
  exact (List.length_filter_le _ _).trans_eq List.length_range

theorem popCount_toNat {n : Nat} (x : BitVec n) : popCount n x.toNat = onesOf x := by
  rw [popCount_eq, onesOf, List.countP_eq_length_filter]; rfl

theorem aluPopc_eq (n : Width) : aluPopc n = fun x => BitVec.ofNat 64 (onesOf (low n x)) := by
  funext x
  have hlt : onesOf (low n x) < 2 ^ widthBits n := (onesOf_le _).trans_lt Nat.lt_two_pow_self
  rw [aluPopc, zval_low, popCount_toNat, zext_ofNat_of_lt n hlt]

/-- The zeros above the highest 1 of a word that is not 0. -/
theorem toNat_clz {n : Nat} (hn : 0 < n) {x : BitVec n} (hx : x ≠ 0#n) : x.clz.toNat = n - 1 - Nat.log2 x.toNat := by
  have hne : x.toNat ≠ 0 := fun h => hx (BitVec.eq_of_toNat_eq h)
  have hlow := BitVec.two_pow_sub_clz_le_toNat_of_ne_zero hn hx
  have hhigh := BitVec.toNat_lt_two_pow_sub_clz (x := x)
  have hlt : x.clz.toNat < n := by simpa [BitVec.lt_def, Nat.mod_eq_of_lt Nat.lt_two_pow_self] using BitVec.clz_lt_iff_ne_zero.mpr hx
  have hlog : Nat.log2 x.toNat = n - 1 - x.clz.toNat :=
    (Nat.log2_eq_iff hne).mpr ⟨hlow, by rwa [show n - 1 - x.clz.toNat + 1 = n - x.clz.toNat by omega]⟩
  omega

theorem aluClz_eq (n : Width) : aluClz n = fun x => zHigh (low n x).clz := by
  funext x
  simp only [aluClz, zval_low]
  split
  next h0 =>
    have hx : low n x = 0#_ := BitVec.eq_of_toNat_eq h0
    rw [zext_nat, BitVec.clz_eq_iff_eq_zero.mpr hx]; rfl
  next h0 =>
    have hx : low n x ≠ 0#_ := fun h => h0 (by rw [h]; rfl)
    rw [← toNat_clz (widthBits_pos n) hx, zext_toNat]

theorem bitReverse_lt (n x : Nat) : bitReverse n x < 2 ^ n := by
  induction n generalizing x with
  | zero => exact Nat.one_pos
  | succ n ih =>
    have hb := ih (x / 2)
    have hm : x % 2 * 2 ^ n ≤ 1 * 2 ^ n := Nat.mul_le_mul_right _ (by omega)
    rw [bitReverse, pow_succ]
    omega

theorem testBit_bitReverse (n x i : Nat) : (bitReverse n x).testBit i = (decide (i < n) && x.testBit (n - 1 - i)) := by
  induction n generalizing x with
  | zero => simp [bitReverse]
  | succ n ih =>
    rw [bitReverse, Nat.mul_comm, Nat.testBit_two_pow_mul_add _ (bitReverse_lt n _), ih]
    split
    next h => rw [← Nat.testBit_succ]; simp [h, show i < n + 1 by omega, show n - 1 - i + 1 = n - i by omega]
    next h =>
      by_cases hi : i = n
      · subst hi; simp [Nat.testBit_zero]
      · have hbig : 1 ≤ i - n := by omega
        simp [show ¬ i < n + 1 by omega, Nat.testBit_lt_two_pow (show x % 2 < 2 ^ (i - n) from
          (Nat.mod_lt _ Nat.two_pos).trans_le (Nat.pow_le_pow_right Nat.two_pos hbig))]

theorem aluBrev_eq (n : Width) : aluBrev n = fun x => zHigh (low n x).reverse := by
  funext x
  rw [aluBrev, zval_low, zext_nat]
  congr 1
  refine BitVec.eq_of_getLsbD_eq fun i hi => ?_
  rw [BitVec.getLsbD_reverse, BitVec.getMsbD, BitVec.getLsbD_ofNat, testBit_bitReverse]
  simp [hi, BitVec.getLsbD]

/-! ### Bit fields (R123, R126) -/

theorem toNat_fieldMask (n len : Nat) : (fieldMask n len).toNat = 2 ^ min len n - 1 := by
  have hm : min len n ≤ n := min_le_right _ _
  refine Nat.eq_of_testBit_eq fun i => ?_
  rw [BitVec.testBit_toNat, fieldMask, BitVec.getLsbD_ushiftRight, BitVec.getLsbD_allOnes, Nat.testBit_two_pow_sub_one]
  exact decide_eq_decide.mpr (by omega)

/-- The first bit and the length of a field, from an operand. -/
theorem toNat_fieldStart (b : Word) : (b.extractLsb 6 0).toNat = b.toNat % 128 := by
  simp [BitVec.extractLsb, BitVec.extractLsb'_toNat]

theorem toNat_fieldLen (b : Word) : (b.extractLsb 14 8).toNat = b.toNat / 256 % 128 := by
  simp [BitVec.extractLsb, BitVec.extractLsb'_toNat, Nat.shiftRight_eq_div_pow]

theorem aluBfe_eq_bfeRule (n : Width) : aluBfe n = bfeRule n := by
  funext a b
  have hf : (low n a).toNat / 2 ^ (b.toNat % 128) < 2 ^ widthBits n := (Nat.div_le_self _ _).trans_lt (low n a).isLt
  rw [bfeRule, toNat_fieldStart, toNat_fieldLen, ← zext_toNat, BitVec.toNat_and, BitVec.toNat_ushiftRight, toNat_fieldMask,
    Nat.and_two_pow_sub_one_eq_mod, Nat.shiftRight_eq_div_pow]
  simp only [aluBfe, zval_low]
  split
  next h => rw [min_eq_left h.le, zext_ofNat_of_lt n ((Nat.mod_le _ _).trans_lt hf)]
  next h => rw [min_eq_right (not_lt.mp h), Nat.mod_eq_of_lt hf, zext_ofNat_of_lt n hf]

theorem aluBfi_eq_bfiRule (n : Width) : aluBfi n = bfiRule n := by
  funext a b c
  simp only [aluBfi, bfiRule, toNat_fieldStart, toNat_fieldLen, zval_low]
  rw [← zext_toNat]
  congr 2
  simp only [BitVec.toNat_or, BitVec.toNat_and, BitVec.toNat_not, BitVec.toNat_shiftLeft, toNat_fieldMask, Nat.shiftLeft_eq]

/-! ### LEA, ICMP and SEL (R121, R124, R125) -/

theorem aluLea_eq (sh : Fin 16) : aluLea sh = fun (x y : Word) => x + (y <<< sh.val) := by
  funext x y
  apply BitVec.eq_of_toNat_eq
  simp [aluLea, Nat.shiftLeft_eq]

theorem icmpHolds_eq_relRule (n : Width) (r : ICmpRel) (a b : Word) : icmpHolds n r a b = relRule n r a b := by
  cases r <;> simp [icmpHolds, relRule, zval_low, sval_low, BitVec.slt, BitVec.sle, BitVec.ult, BitVec.ule, BitVec.toNat_inj, bne,
    Bool.beq_eq_decide_eq]

theorem aluIcmp_eq (n : Width) (r : ICmpRel) : aluIcmp n r = fun x y => if relRule n r x y then 1 else 0 := by
  funext x y
  rw [aluIcmp, icmpHolds_eq_relRule, boolWord]

/-! ### Immediates (R29, R127) -/

theorem immOf_eq_immRule (p : Pfx) (imm : BitVec 10) : immOf p imm = immRule p imm := by
  rw [immOf, immRule]
  cases p.lit with
  | none => simp only [sext_eq (n := 10) (by decide) (by decide), BitVec.ofInt_natCast, BitVec.ofNat_toNat, BitVec.setWidth_eq]
  | some v =>
    have happ : BitVec.ofNat 32 (v.toNat * 1024 + imm.toNat) = v ++ imm := by
      apply BitVec.eq_of_toNat_eq
      have hv := v.isLt
      have hi := imm.isLt
      rw [BitVec.toNat_append, ← Nat.shiftLeft_add_eq_or_of_lt hi, Nat.shiftLeft_eq, BitVec.toNat_ofNat]
      omega
    simp only [sext_eq (n := 32) (by decide) (by decide), BitVec.ofInt_natCast, happ]

/-- A word of 64 bits has no high half. -/
theorem zHigh_full (x : Word) : zHigh x = x := BitVec.setWidth_eq x

theorem low_full (x : Word) : low .w64 x = x := BitVec.setWidth_eq x

/-- The count of a shift by an immediate is its low 6 bits. -/
theorem aluShli_eq (x imm : Word) : aluShli x imm = x <<< (imm.extractLsb 5 0).toNat := by
  rw [aluShli, aluShl_eq]
  exact (zHigh_full _).trans (congrArg (· <<< _) (low_full x))

theorem aluShri_eq (x imm : Word) : aluShri x imm = x >>> (imm.extractLsb 5 0).toNat := by
  rw [aluShri, aluShr_eq]
  exact (zHigh_full _).trans (congrArg (· >>> _) (low_full x))

theorem aluSari_eq (x imm : Word) : aluSari x imm = x.sshiftRight (imm.extractLsb 5 0).toNat := by
  rw [aluSari, aluSar_eq]
  exact (BitVec.signExtend_eq _).trans (congrArg (BitVec.sshiftRight · _) (low_full x))

/-! ### Register words (R20 to R28) -/

section Words

variable {i : Instr} {st : Stall} {lat : Nat} {d : Dst} {a b c : Src}

theorem cDst_eq_dstOfC (c : Src) (uni : Bool) : cDst c uni = dstOfC c uni := by
  cases c <;> cases uni <;> rfl

/-- A word without an operand: its value comes from the pending literal (R29). -/
theorem word0_of_regWord {f : Pfx → Word} (hst : (instrShape i).st = st) (hh : (instrShape i).hint = false) {g : Pfx → List Word → Word}
    (he : ∀ s, exec i s = regWord i lat d [] g s) (hg : ∀ p, g p [] = f p) : Word0 i st lat d f := by
  intro s h
  obtain ⟨s', hs', hdone⟩ := regWord_done h hh lat d [] g
  simp only [hst, readAll, readUnis, hg] at hdone
  exact ⟨s', (he s).trans hs', hdone⟩

/-- A word that computes a value from one operand, and the pending literal where it has an immediate. -/
theorem word1_of_regWord {f : Pfx → Word → Word} (hst : (instrShape i).st = st) (hh : (instrShape i).hint = false)
    {g : Pfx → Word → Word} (he : ∀ s, exec i s = regWord i lat d [a] (fun p => op1 (g p)) s) (hg : ∀ p x, g p x = f p x) :
    Word1 i st lat d a f := by
  intro s h
  obtain ⟨s', hs', hdone⟩ := regWord_done h hh lat d [a] fun p => op1 (g p)
  simp only [hst, readAll, readUnis, op1, List.getD_cons_zero, hg] at hdone
  exact ⟨s', (he s).trans hs', hdone⟩

/-- A word that computes a value from two operands. -/
theorem word2_of_regWord {f : Word → Word → Word} (hst : (instrShape i).st = st) (hh : (instrShape i).hint = false)
    (he : ∀ s, exec i s = regWord i lat d [a, b] (fun _ => op2 f) s) : Word2 i st lat d a b f := by
  intro s h
  obtain ⟨s', hs', hdone⟩ := regWord_done h hh lat d [a, b] fun _ => op2 f
  simp only [hst, readAll, readUnis, op2, List.getD_cons_zero, List.getD_cons_succ] at hdone
  exact ⟨s', (he s).trans hs', hdone⟩

/-- A format F word: it computes a value from three operands, and c is its destination too (R22). -/
theorem word3_of_regWord {uni : Bool} {f : Word → Word → Word → Word} (hst : (instrShape i).st = st)
    (hh : (instrShape i).hint = false) (he : ∀ s, exec i s = regWord i lat (cDst c uni) [a, b, c] (fun _ => op3 f) s) :
    Word3 i st lat (dstOfC c uni) a b c f := by
  intro s h
  obtain ⟨s', hs', hdone⟩ := regWord_done h hh lat (dstOfC c uni) [a, b, c] fun _ => op3 f
  simp only [hst, readAll, readUnis, op3, List.getD_cons_zero, List.getD_cons_succ] at hdone
  exact ⟨s', (he s).trans (cDst_eq_dstOfC c uni ▸ hs'), hdone⟩

end Words

end Sys2Proof.Machine
end

section
/-! PROOFS. The integer and move words (R112 to R127). -/

namespace Sys2Proof.Machine

/-- Settles O8: each word is a register word whose operation is that of its rule. -/
theorem sumsAndProducts : Obligations.SumsAndProducts := by
  unfold Obligations.SumsAndProducts
  refine ⟨fun n m uns a b d st => ⟨?_, ?_, ?_, ?_, ?_⟩, fun n a b c d uni st => ⟨?_, ?_, ?_, ?_⟩⟩
  · exact aluAddSub_eq_sumRule (sub := false) (fun _ _ => rfl) n m ▸ word2_of_regWord rfl rfl fun _ => rfl
  · exact aluAddSub_eq_sumRule (sub := true) (fun _ _ => rfl) n m ▸ word2_of_regWord rfl rfl fun _ => rfl
  · exact aluMin_eq_minRule n uns ▸ word2_of_regWord rfl rfl fun _ => rfl
  · exact aluMax_eq_maxRule n uns ▸ word2_of_regWord rfl rfl fun _ => rfl
  · exact aluAbs_eq_absRule n ▸ word1_of_regWord rfl rfl (fun _ => rfl) fun _ _ => rfl
  · exact aluMulLow_eq n ▸ word2_of_regWord rfl rfl fun _ => rfl
  · exact aluMulHighS_eq n ▸ word2_of_regWord rfl rfl fun _ => rfl
  · exact aluMulHighU_eq n ▸ word2_of_regWord rfl rfl fun _ => rfl
  · exact aluMad_eq n ▸ word3_of_regWord rfl rfl fun _ => rfl

/-- Settles O9: each word is a register word whose operation is that of its rule. -/
theorem shiftsAndFields : Obligations.ShiftsAndFields := by
  unfold Obligations.ShiftsAndFields
  refine ⟨fun n a b d st => ⟨?_, ?_, ?_, ?_⟩, fun n a b c d uni st => ⟨?_, ?_, ?_, ?_, ?_⟩⟩
  · exact aluShl_eq n ▸ word2_of_regWord rfl rfl fun _ => rfl
  · exact aluShr_eq n ▸ word2_of_regWord rfl rfl fun _ => rfl
  · exact aluSar_eq n ▸ word2_of_regWord rfl rfl fun _ => rfl
  · exact aluRot_eq n ▸ word2_of_regWord rfl rfl fun _ => rfl
  · exact word1_of_regWord rfl rfl (fun _ => rfl) fun _ => congrFun (aluPopc_eq n)
  · exact word1_of_regWord rfl rfl (fun _ => rfl) fun _ => congrFun (aluClz_eq n)
  · exact word1_of_regWord rfl rfl (fun _ => rfl) fun _ => congrFun (aluBrev_eq n)
  · exact aluBfe_eq_bfeRule n ▸ word2_of_regWord rfl rfl fun _ => rfl
  · exact aluBfi_eq_bfiRule n ▸ word3_of_regWord rfl rfl fun _ => rfl

/-- Settles O10: each word is a register word whose operation is that of its rule; an immediate is that of R29. -/
theorem logicMovesAndImmediates : Obligations.LogicMovesAndImmediates := by
  unfold Obligations.LogicMovesAndImmediates
  refine ⟨fun n rel sh a b c d uni st => ⟨?_, ?_, ?_, ?_, ?_, ?_, ?_, ?_⟩, fun a d imm st => ⟨?_, ?_, ?_, ?_, ?_, ?_, ?_, ?_⟩⟩
  · exact word2_of_regWord rfl rfl fun _ => rfl
  · exact word2_of_regWord rfl rfl fun _ => rfl
  · exact word2_of_regWord rfl rfl fun _ => rfl
  · exact word2_of_regWord rfl rfl fun _ => rfl
  · exact aluLea_eq sh ▸ word2_of_regWord rfl rfl fun _ => rfl
  · exact aluIcmp_eq n rel ▸ word2_of_regWord rfl rfl fun _ => rfl
  · exact word3_of_regWord (f := aluSel) rfl rfl fun _ => rfl
  · exact word1_of_regWord rfl rfl (fun _ => rfl) fun _ _ => rfl
  · exact word1_of_regWord rfl rfl (fun _ => rfl) fun p x => by rw [immOf_eq_immRule]
  · exact word1_of_regWord rfl rfl (fun _ => rfl) fun p x => by rw [immOf_eq_immRule]
  · exact word1_of_regWord rfl rfl (fun _ => rfl) fun p x => by rw [immOf_eq_immRule]
  · exact word1_of_regWord rfl rfl (fun _ => rfl) fun p x => by rw [immOf_eq_immRule]
  · exact word1_of_regWord rfl rfl (fun _ => rfl) fun p x => by rw [immOf_eq_immRule, aluShli_eq]
  · exact word1_of_regWord rfl rfl (fun _ => rfl) fun p x => by rw [immOf_eq_immRule, aluShri_eq]
  · exact word1_of_regWord rfl rfl (fun _ => rfl) fun p x => by rw [immOf_eq_immRule, aluSari_eq]
  · exact word0_of_regWord rfl rfl (fun _ => rfl) fun p => immOf_eq_immRule p imm

end Sys2Proof.Machine
end

/-! PROOFS. O51: RELAUNCH in a table that names a group twice (R311, R319). -/

section
namespace Sys2Proof.Machine

/-- The gang of `plainGang` has started and is bound: of a park-saved group of it, the rest is. -/
def boundGang : Gang := { plainGang with bound := true, started := true }

/-- `twiceGrouped` with the first entry of group 0 park-saved and with a place to return to. -/
def twiceReturning : State :=
  { twiceGrouped with groups := [(0, plainGroup .returning), (0, plainGroup .retired)], gangs := [(0, boundGang)] }

theorem groupOf_twiceReturning : groupOf twiceReturning 0 = some (plainGroup .returning) := rfl

theorem gang_twiceReturning : tget twiceReturning.gangs (plainGroup .returning).gangKey = some boundGang := rfl

/-- The hypotheses of the statement: it bounds the tables of threads and of gangs, and not the table of groups. -/
theorem keysOnce_twiceReturning : KeysOnce twiceReturning := ⟨List.nodup_nil, List.nodup_singleton _⟩

theorem noStepDue_twiceReturning : NoStepDue twiceReturning := fun _ h => absurd h List.not_mem_nil

/-- Nothing stands against the bind of the returning group. -/
theorem bindOk_twiceReturning : BindOk twiceReturning 0 (plainGroup .returning) := by
  refine ⟨by decide, by decide, by decide⟩

/-- The bind drops what the core holds of retired groups, and with the second entry it drops the group that it binds. -/
theorem relaunch_twiceReturning (s' : State) (h : exec (.relaunch 0) twiceReturning = .next s') : groupOf s' 0 = none := by
  have hrun : exec (.relaunch 0) twiceReturning = .next (dropPrivate (bindCore (modGroup twiceReturning 0 fun y =>
      { y with phase := .resident, bindAt := 0 }) (plainGroup .returning)) 0) := by rfl
  cases hrun.symm.trans h
  rfl

/-- Refutes O51: the statement ranges over states whose table of groups names a group twice. Where group 0 stands in the table as
returning and once more as retired, `BindOk` holds of the first entry, and the bind of RELAUNCH drops both. -/
theorem not_groupsMove : ¬ Obligations.GroupsMove := by
  unfold Obligations.GroupsMove
  intro h
  obtain ⟨-, -, -, -, -, -, -, moves⟩ :=
    h 0 twiceReturning _ groupOf_twiceReturning keysOnce_twiceReturning noStepDue_twiceReturning
  obtain ⟨-, -, -, -, -, -, -, binds⟩ := moves _ _ rfl gang_twiceReturning
  obtain ⟨s', hrun, -, -, -, ⟨g', hgroup, -⟩, -⟩ := binds rfl bindOk_twiceReturning (.inr rfl)
  exact Option.some_ne_none _ (hgroup.symm.trans (relaunch_twiceReturning s' hrun))

end Sys2Proof.Machine
end

section
/-! SUPPORT. Register blocks: what a growth leaves, and what it leaves alone (R104, R105, R109). -/

namespace Sys2Proof.Machine

theorem growTarget_eq (t : Fin 4) : growTarget t = 8 * t.val + 8 := by rw [growTarget]; omega

/-! ### The registers that a growth clears (R105) -/

theorem clearNamed_named (r : Regs) (lo hi : Nat) (i : Fin 32) :
    (r.clearNamed lo hi).named[i] = if lo ≤ i.val ∧ i.val < hi then RCell.zero else r.named[i] := by
  simp [Regs.clearNamed]

/-- A lane of a home warp whose block has grown: its new registers read 0, at home where it is away. -/
def grownThread (c n : Nat) (th : Thread) : Thread :=
  match th.away with
  | none => { th with regs := th.regs.clearNamed c n, inBar := th.inBar.map fun b => (b.1, b.2.clearNamed c n) }
  | some a => { th with away := some { a with home := a.home.clearNamed c n } }

section Lane

variable (c n : Nat) (th : Thread)

theorem grownThread_home (h : th.away = none) : (grownThread c n th).regs = th.regs.clearNamed c n := by
  rw [grownThread, h]

theorem grownThread_rest : (grownThread c n th).step = th.step ∧ (grownThread c n th).status = th.status ∧
    (grownThread c n th).pc = th.pc := by
  unfold grownThread
  split <;> exact ⟨rfl, rfl, rfl⟩

end Lane

/-! ### The growth of a block (R109) -/

/-- The named count of a home warp. -/
def namedCount (s : State) (w : WarpKey) : Nat := ((tget s.warps w).map (·.count)).getD 0

/-- A block that is large enough stays as it is. -/
theorem growTo_of_le {s : State} {w : WarpKey} {n : Nat} (h : n ≤ namedCount s w) : growTo s w n = s := if_pos h

theorem threadOf_growTo {s : State} {w : WarpKey} {n : Nat} (h : namedCount s w < n) (t : ThreadKey) :
    threadOf (growTo s w n) t =
      (threadOf s t).map fun th => if warpKeyOf t = w then grownThread (namedCount s w) n th else th := by
  have hn : ¬ n ≤ ((tget s.warps w).map (·.count)).getD 0 := not_le.mpr h
  unfold growTo
  dsimp only
  rw [if_neg hn]
  refine tget_map s.threads _ (fun k th => if warpKeyOf k = w then grownThread (namedCount s w) n th else th) (fun k th => ?_) t
  dsimp only
  split
  · rw [grownThread]
    cases th.away <;> rfl
  · rfl

/-- What a growth leaves of a lane that is at home (R105). -/
theorem growTo_home {s : State} {w : WarpKey} {n : Nat} {x : Warp} (hx : tget s.warps w = some x) {t : ThreadKey} {th : Thread}
    (ht : threadOf s t = some th) (ha : th.away = none) : ∃ th', threadOf (growTo s w n) t = some th' ∧
      th'.regs.slots = th.regs.slots ∧ th'.regs.head = th.regs.head ∧ ∀ i : Fin 32, th'.regs.named[i] =
        if warpKeyOf t = w ∧ x.count ≤ i.val ∧ i.val < n then RCell.zero else th.regs.named[i] := by
  have hc : namedCount s w = x.count := by rw [namedCount, hx]; rfl
  by_cases hn : n ≤ x.count
  · refine ⟨th, by rw [growTo_of_le (hc ▸ hn), ht], rfl, rfl, fun i => (if_neg ?_).symm⟩
    omega
  · refine ⟨if warpKeyOf t = w then grownThread (namedCount s w) n th else th,
      by rw [threadOf_growTo (hc ▸ not_le.mp hn), ht]; rfl, ?_⟩
    by_cases hw : warpKeyOf t = w
    · rw [if_pos hw, grownThread_home _ _ th ha, hc]
      exact ⟨rfl, rfl, fun i => by rw [clearNamed_named]; simp only [hw, true_and]⟩
    · rw [if_neg hw]
      exact ⟨rfl, rfl, fun i => (if_neg fun hi => hw hi.1).symm⟩

theorem warps_growTo {s : State} {w : WarpKey} {n : Nat} {x : Warp} (hx : tget s.warps w = some x) :
    tget (growTo s w n).warps w = some { x with count := max x.count n } := by
  have hc : namedCount s w = x.count := by rw [namedCount, hx]; rfl
  by_cases h : n ≤ x.count
  · rw [growTo_of_le (hc ▸ h), hx, max_eq_left h]
  · have hn : ¬ n ≤ ((tget s.warps w).map (·.count)).getD 0 := by rwa [hx]
    unfold growTo
    dsimp only
    rw [if_neg hn, max_eq_right (not_le.mp h).le]
    exact (tget_tmod_self _ _ _).trans (by rw [hx]; rfl)

theorem growTo_rest (s : State) (w : WarpKey) (n : Nat) :
    growTo s w n = { s with threads := (growTo s w n).threads, warps := (growTo s w n).warps } := by
  unfold growTo
  dsimp only
  split <;> rfl

/-- A growth begins no step, and sends no thread elsewhere. -/
theorem growTo_thread {s : State} {w : WarpKey} {n : Nat} {t : ThreadKey} {th' : Thread} (h : threadOf (growTo s w n) t = some th') :
    ∃ th, threadOf s t = some th ∧ th'.step = th.step ∧ th'.status = th.status ∧ th'.pc = th.pc := by
  by_cases hn : n ≤ namedCount s w
  · rw [growTo_of_le hn] at h
    exact ⟨th', h, rfl, rfl, rfl⟩
  · rw [threadOf_growTo (not_le.mp hn), Option.map_eq_some_iff] at h
    obtain ⟨th, hth, rfl⟩ := h
    refine ⟨th, hth, ?_⟩
    split
    · exact grownThread_rest _ _ th
    · exact ⟨rfl, rfl, rfl⟩

theorem threadOf_growTo_isSome {s : State} {w : WarpKey} {n : Nat} {t : ThreadKey} {th : Thread} (h : threadOf s t = some th) :
    ∃ x, threadOf (growTo s w n) t = some x := by
  by_cases hn : n ≤ namedCount s w
  · exact ⟨th, by rw [growTo_of_le hn, h]⟩
  · exact ⟨_, by rw [threadOf_growTo (not_le.mp hn), h]; rfl⟩

theorem growTo_pace (s : State) (w : WarpKey) (n : Nat) : PaceKept s (growTo s w n) := by
  refine .of_threads (by rw [growTo_rest]) (by rw [growTo_rest]) fun t th' h => .inr ?_
  obtain ⟨th, hth, hstep, -⟩ := growTo_thread h
  exact ⟨th, hth, hstep⟩

theorem modThreads_pace (s : State) (ts : List ThreadKey) (f : ThreadKey → Thread → Thread) (h : ∀ t th, (f t th).step = th.step) :
    PaceKept s (modThreads s ts f) := .foldl (fun a t => modThread_pace a t (f t) fun th => .inr (h t th)) ts s

theorem any_rangeFrom {p : Nat → Bool} (lo n : Nat) : (rangeFrom lo n).any p = true ↔ ∃ i, lo ≤ i ∧ i < lo + n ∧ p i = true := by
  simp only [rangeFrom, List.any_map, List.any_eq_true, List.mem_range, Function.comp_apply]
  exact ⟨fun ⟨j, hj, hp⟩ => ⟨lo + j, by omega, by omega, hp⟩,
    fun ⟨i, hlo, hhi, hp⟩ => ⟨i - lo, by omega, by rwa [Nat.add_sub_cancel' hlo]⟩⟩

open Classical in
/-- The status of a growth (R109): 2 where the pool ends before, 1 where a granule of the extension is held. -/
theorem growStatus_eq {s : State} {w : WarpKey} {n : Nat} {x : Warp} (hx : tget s.warps w = some x) (hn : n % 8 = 0) :
    growStatus s w n = if n ≤ x.count then 0 else if 48 < x.base + n / 8 then 2
      else if ∃ i, x.base + x.count / 8 ≤ i ∧ i < x.base + n / 8 ∧ granuleHeld s (poolOf s w).1 (poolOf s w).2 i = true then 1
      else 0 := by
  unfold growStatus
  rw [hx]
  dsimp only
  by_cases hle : n ≤ x.count
  · rw [if_pos hle, if_pos hle]
  · have hend : 47 < x.base + n / 8 - 1 ↔ 48 < x.base + n / 8 := by omega
    have hlen : x.base + x.count / 8 + (n / 8 - x.count / 8) = x.base + n / 8 := by omega
    simp only [hle, if_false, hend, any_rangeFrom, hlen]

/-! ### Writes that are owed to a register that would leave its block (R109) -/

theorem shrinkLanded_iff {s : State} (hk : KeysOnce s) (w : WarpKey) (n : Nat) : shrinkLanded s w n = false ↔
    ∃ j, warpKeyOf j = w ∧ ∃ x, tget s.warps w = some x ∧ ∃ th, threadOf s j = some th ∧
      ∃ i : Fin 32, n ≤ i.val ∧ i.val < x.count ∧ (th.regs.named[i]).landed (now s) = false := by
  have hlanded : shrinkLanded s w n = false ↔ ∃ j, warpKeyOf j = w ∧ ∃ th, threadOf s j = some th ∧
      ∃ i : Fin 32, n ≤ i.val ∧ i.val < namedCount s w ∧ (th.regs.named[i]).landed (now s) = false := by
    unfold shrinkLanded
    simp only [List.all_eq_false, threadsOfWarp, mem_tkeys_iff hk.1, decide_eq_true_eq]
    constructor
    · rintro ⟨j, ⟨th, hth, hw⟩, hj⟩
      change threadOf s j = some th at hth
      exact ⟨j, hw, th, hth, by simpa [hth, and_assoc, namedCount, now] using hj⟩
    · rintro ⟨j, hw, th, hth, hj⟩
      exact ⟨j, ⟨th, hth, hw⟩, by simpa [hth, and_assoc, namedCount, now] using hj⟩
  rw [hlanded]
  cases hx : tget s.warps w with
  | none => simp [namedCount, hx]
  | some x => simp [namedCount, hx]

end Sys2Proof.Machine
end

section
/-! SUPPORT. The REGS words and GROW_GRANT (R109 to R111). -/

namespace Sys2Proof.Machine

/-! ### GROW and GROW.try (R109, R110) -/

theorem grow_goesOn (t : Fin 4) (st : Stall) (s : State) (h : issuable (.grow t st) s = true) : ∃ s', exec (.grow t st) s = .next s' ∧
    GoesOn st s ((warpsOf s.focus.threads).foldl (fun a w => if growStatus a w (8 * t.val + 8) = 0 then growTo a w (8 * t.val + 8)
      else modThreads a (s.focus.threads.filter fun x => warpKeyOf x = w) fun _ th =>
        { th with status := .live (.waiting (.grow (8 * t.val + 8))) }) s) s' := by
  rw [← growTarget_eq]
  change ∃ s', execGrow t st s = .next s' ∧ _
  refine issue_goesOn h rfl rfl (.foldl (fun a w => ?_) _ s)
  split
  · exact growTo_pace ..
  · exact modThreads_pace _ _ _ fun _ _ => rfl

theorem growTry_goesOn (t : Fin 4) (d : PDst) (st : Stall) (s : State) (h : issuable (.growTry t d st) s = true) :
    ∃ s', exec (.growTry t d st) s = .next s' ∧
      GoesOn st s ((warpsOf s.focus.threads).foldl (fun a w =>
        modThreads (if growStatus a w (8 * t.val + 8) = 0 then growTo a w (8 * t.val + 8) else a)
          (s.focus.threads.filter fun x => warpKeyOf x = w) fun _ th =>
            { th with regs := th.regs.give d (BitVec.ofNat 64 (growStatus a w (8 * t.val + 8))) 0 none }) s) s' := by
  rw [← growTarget_eq]
  change ∃ s', execGrowTry t d st s = .next s' ∧ _
  refine issue_goesOn h rfl rfl (.foldl (fun a w => ?_) _ s)
  refine .trans ?_ (modThreads_pace _ _ _ fun _ _ => rfl)
  split
  · exact growTo_pace ..
  · exact .refl a

/-! ### SHRINK (R109, R111) -/

/-- What SHRINK to n named registers does for its issue group. -/
def shrinkAct (n : Nat) (ts : List ThreadKey) (s : State) : Act :=
  match (ts.filter fun x => shrinksSubset s x n).map fun x => plainFault s x .regRange with
  | f :: fs => .faults (f :: fs)
  | [] =>
    if (warpsOf ts).all fun w => shrinkLanded s w n then
      .done ((warpsOf ts).foldl (fun a w => modWarp a w fun x => { x with count := min x.count n }) s) (advance s ts)
    else .hold

theorem exec_shrink (t : Fin 4) (st : Stall) (s : State) :
    exec (.shrink t st) s = issue (.shrink t st) (shrinkAct (8 * t.val + 8)) s := by
  rw [← growTarget_eq]; rfl

section Shrink

variable {i : Instr} {s : State} {n : Nat}

theorem shrinkAct_faults {ts : List ThreadKey} (hbad : (ts.filter fun k => shrinksSubset s k n) ≠ []) :
    shrinkAct n ts s = .faults ((ts.filter fun k => shrinksSubset s k n).map fun k => plainFault s k .regRange) := by
  obtain ⟨b, bs, hb⟩ := List.exists_cons_of_ne_nil hbad
  rw [shrinkAct, hb]; rfl

theorem shrinkAct_holds {ts : List ThreadKey} (hbad : (ts.filter fun k => shrinksSubset s k n) = [])
    (hl : ((warpsOf ts).all fun w => shrinkLanded s w n) = false) : shrinkAct n ts s = .hold := by
  rw [shrinkAct, hbad, List.map_nil, hl]; rfl

theorem shrinkAct_done {ts : List ThreadKey} (hbad : (ts.filter fun k => shrinksSubset s k n) = [])
    (hl : ((warpsOf ts).all fun w => shrinkLanded s w n) = true) : shrinkAct n ts s =
      .done ((warpsOf ts).foldl (fun a w => modWarp a w fun x => { x with count := min x.count n }) s) (advance s ts) := by
  rw [shrinkAct, hbad, List.map_nil, hl]; rfl

/-- A fault of a word that is no violation leaves nothing in the logs. -/
theorem logFaults_plain (s : State) (ts : List ThreadKey) (c : Cause) : logFaults s (ts.map fun t => plainFault s t c) = s := by
  rw [logFaults, List.foldl_map]
  exact List.foldl_fixed ts

/-- SHRINK would give up a travelling register (R111). -/
theorem shrink_traps (h : issuable i s = true) (hbad : (s.focus.threads.filter fun k => shrinksSubset s k n) ≠ [])
    (hh : ∀ k ∈ s.focus.threads, k.isHandler = false) :
    ∃ s', issue i (shrinkAct n) s = .next s' ∧ Trapped s s' s.focus.core
      ((s.focus.threads.filter fun k => shrinksSubset s k n).map fun k => ⟨k, .regRange, pcOf s k, 0, 0, none⟩) := by
  obtain ⟨s', he, hf⟩ := issue_faults h (shrinkAct_faults hbad) (List.forall_mem_map.mpr fun k hk => hh k (List.mem_of_mem_filter hk)) (by
    rw [List.map_map, show (fun f : FaultRec => f.thread) ∘ (fun k => plainFault s k .regRange) = id from rfl, List.map_id]
    exact (issuable_nodup h).filter _)
  rw [Faulted, faultWalks_none _ _ _ (List.forall_mem_map.mpr fun _ _ => rfl), logFaults_plain] at hf
  exact ⟨s', he, hf⟩

/-- SHRINK gives the granules above the target back (R109). -/
theorem shrink_shrinks (h : issuable i s = true) (hhint : (instrShape i).hint = false)
    (hbad : (s.focus.threads.filter fun k => shrinksSubset s k n) = [])
    (hl : ((warpsOf s.focus.threads).all fun w => shrinkLanded s w n) = true) :
    ∃ s', issue i (shrinkAct n) s = .next s' ∧ OnlyThreads s s' ∧
      ThreadsBecome s s' (fun _ th => issued (now s) (instrShape i).st (th.pc + 4) th.regs th) ∧
      ∀ w, tget s'.warps w = if w ∈ s.focus.threads.map warpKeyOf then
        (tget s.warps w).map fun x => { x with count := min x.count n } else tget s.warps w := by
  have hrest := foldl_modWarp_rest (warpsOf s.focus.threads) (fun _ x => { x with count := min x.count n }) s
  have hwarps := warp_foldl (warpsOf s.focus.threads) (nodup_dedup _) (fun _ x => { x with count := min x.count n }) s
  obtain ⟨s', he, hb, hs'⟩ := issue_threads h hhint (shrinkAct_done hbad hl) (fun _ th => th.regs)
    (fun t => by rw [hrest]; split <;> simp [threadOf]) (by rw [hrest])
  have hb := hb.congr (g := fun _ th => issued (now s) (instrShape i).st (th.pc + 4) th.regs th) fun t th e => by rw [pcOf_eq e]
  refine ⟨s', he, ⟨fun t ht => by rw [hb, if_neg ht], fun a => by rw [hs', hrest], by rw [hs', hrest]⟩, hb, fun w => ?_⟩
  rw [hs']
  exact (hwarps w).trans (if_congr (mem_dedup _ w) rfl rfl)

/-- A write is owed to a register that would leave a block of the issue group (R109). -/
theorem shrink_owed_iff (hk : KeysOnce s) (ts : List ThreadKey) (n : Nat) : ((warpsOf ts).all fun w => shrinkLanded s w n) = false ↔
    ∃ k ∈ ts, ∃ j, warpKeyOf j = warpKeyOf k ∧ ∃ x, tget s.warps (warpKeyOf k) = some x ∧
      ∃ th, threadOf s j = some th ∧ ∃ i : Fin 32, n ≤ i.val ∧ i.val < x.count ∧ (th.regs.named[i]).landed (now s) = false := by
  simp only [List.all_eq_false, warpsOf, mem_dedup, List.mem_map, exists_exists_and_eq_and, Bool.not_eq_true, shrinkLanded_iff hk]

end Shrink

/-! ### GROW_GRANT (R110) -/

/-- A wake of a thread that has been woken changes nothing. -/
theorem wokenThread_twice (r : Nat) (th : Thread) : wokenThread r (wokenThread r th) = wokenThread r th := by
  cases hs : th.status with
  | live l => cases l <;> simp [wokenThread, hs, Status.setLive]
  | stopped l => cases l <;> simp [wokenThread, hs, Status.setLive]
  | saved l => cases l <;> simp [wokenThread, hs, Status.setLive]
  | _ => simp [wokenThread, hs]

theorem wokenThread_waiting {th : Thread} {w : Wait} (h : th.status = .live (.waiting w)) (r : Nat) : wokenThread r th =
    { th with status := .live .ready, wake := wakeAs th r, savedMark := false, dozedMark := false } := by
  simp only [wokenThread, h, Status.setLive]

theorem wokenThread_step (r : Nat) (th : Thread) : (wokenThread r th).step = th.step := by
  unfold wokenThread
  split <;> rfl

/-- Waking the threads of a list, whether or not it names one twice. -/
theorem foldl_wakeThread {s : State} (h : ∀ t th, threadOf s t = some th → th.step ≠ .counted) (r : Nat) (ts : List ThreadKey) :
    (∀ t, threadOf (ts.foldl (fun b k => wakeThread b k r) s) t =
      if t ∈ ts then (threadOf s t).map (wokenThread r) else threadOf s t) ∧
    (ts.foldl (fun b k => wakeThread b k r) s).warps = s.warps := by
  induction ts generalizing s with
  | nil => exact ⟨fun t => rfl, rfl⟩
  | cons k ts ih =>
    have hk := threadOf_wakeThread (h k) r
    obtain ⟨hth, hw⟩ := ih (s := wakeThread s k r) fun t th e => by
      rw [hk] at e
      split at e
      next he =>
        obtain ⟨x, hx, rfl⟩ := Option.map_eq_some_iff.mp e
        rw [wokenThread_step]
        exact h k x hx
      next => exact h t th e
    refine ⟨fun t => ?_, hw.trans (by rw [wakeThread_rest (h k)])⟩
    rw [List.foldl_cons, hth, hk]
    by_cases he : k = t
    · subst he
      simp [wokenThread_twice, Function.comp_def]
    · simp [he, Ne.symm he]

/-- The threads of a home warp that wait for one target. -/
def growWaiters (s : State) (w : WarpKey) (n : Nat) : List ThreadKey :=
  tkeys s.threads fun k th => warpKeyOf k == w && (match th.wait? with
    | some (.grow x) => x == n
    | _ => false)

/-- The grant of one target: the block grows and the threads that wait for it wake, where it can grow. -/
def growGrantOne (w : WarpKey) (a : State) (n : Nat) : State :=
  if growStatus a w n = 0 then (growWaiters a w n).foldl (fun b k => wakeThread b k 10) (growTo a w n) else a

section Grant

variable {s : State} {g : Nat} {h : Fin 16}

theorem exec_growGrant (g : Nat) (h : Fin 16) (s : State) : exec (.growGrant g h) s =
    if !warpResident s (WarpKey.home g h) || lowerGrant s (WarpKey.home g h) then .next s
    else .next ((sortBy (fun a b => decide (a < b)) (dedup (growTargets s (WarpKey.home g h)))).foldl
      (growGrantOne (WarpKey.home g h)) s) := rfl

/-- Where no target that is waited for can be reached, GROW_GRANT does nothing. -/
theorem growGrant_none (hn : ∀ n ∈ growTargets s (.home g h), growStatus s (.home g h) n ≠ 0) :
    exec (.growGrant g h) s = .next s := by
  have hfix (l : List Nat) (hl : ∀ n ∈ l, growStatus s (.home g h) n ≠ 0) : l.foldl (growGrantOne (.home g h)) s = s := by
    induction l with
    | nil => rfl
    | cons n l ih =>
      rw [List.foldl_cons, growGrantOne, if_neg (hl n List.mem_cons_self)]
      exact ih fun m hm => hl m (List.mem_cons_of_mem _ hm)
  rw [exec_growGrant, hfix _ fun n hm => hn n ((mem_dedup _ _).mp (mem_sortBy.mp hm)), ite_self]

/-- The target of a thread that waits for a growth is one of those for which its home warp waits. -/
theorem mem_growTargets {w : WarpKey} {t : ThreadKey} {th : Thread} {n : Nat} (hw : warpKeyOf t = w) (ht : threadOf s t = some th)
    (hs : th.status = .live (.waiting (.grow n))) : n ∈ growTargets s w := by
  refine List.mem_filterMap.mpr ⟨(t, th), mem_of_tget ht, ?_⟩
  simp only [Thread.wait?, hs, if_pos hw]

/-- A thread that waits for the target is Ready behind the growth of its block (R98, R110). -/
theorem growGrantOne_wakes {w : WarpKey} {n : Nat} (hdue : NoStepDue s) (hz : growStatus s w n = 0) {t : ThreadKey} {th : Thread}
    (hw : warpKeyOf t = w) (ht : threadOf s t = some th) (hs : th.status = .live (.waiting (.grow n))) :
    ∃ th', threadOf (growGrantOne w s n) t = some th' ∧ th'.status = .live .ready ∧ th'.pc = th.pc ∧ th'.wake.reason = 10 ∧
      (∃ x, threadOf (growTo s w n) t = some x ∧ th'.regs = x.regs) ∧
      tget (growGrantOne w s n).warps w = tget (growTo s w n).warps w := by
  have hstep (u : ThreadKey) (x : Thread) (hx : threadOf (growTo s w n) u = some x) : x.step ≠ .counted := by
    obtain ⟨y, hy, e, -⟩ := growTo_thread hx
    rw [e]
    exact hdue (u, y) (mem_of_tget hy)
  have hwaits : t ∈ growWaiters s w n :=
    List.mem_map.mpr ⟨(t, th), List.mem_filter.mpr ⟨mem_of_tget ht, by simp [Thread.wait?, hs, hw]⟩, rfl⟩
  obtain ⟨hth, hwarps⟩ := foldl_wakeThread hstep 10 (growWaiters s w n)
  obtain ⟨x, hx⟩ : ∃ x, threadOf (growTo s w n) t = some x := threadOf_growTo_isSome ht
  obtain ⟨y, hy, -, hstatus, hpc⟩ := growTo_thread hx
  obtain rfl : y = th := Option.some.inj (hy.symm.trans ht)
  have hwoken := wokenThread_waiting (hstatus.trans hs) 10
  rw [growGrantOne, if_pos hz]
  refine ⟨wokenThread 10 x, by rw [hth, if_pos hwaits, hx, Option.map_some], ?_⟩
  rw [hwoken]
  refine ⟨rfl, hpc, rfl, ⟨x, hx, rfl⟩, ?_⟩
  exact congrArg (tget · w) hwarps

/-- GROW_GRANT of a home warp whose threads wait for one target that can be reached. -/
theorem growGrant_grants {n : Nat} (hres : ((groupOf s g).map (·.isResident)).getD false = true) (hlow : lowerGrant s (.home g h) = false)
    (hall : ∀ m ∈ growTargets s (.home g h), m = n) (hmem : n ∈ growTargets s (.home g h)) :
    exec (.growGrant g h) s = .next (growGrantOne (.home g h) s n) := by
  have hone : sortBy (fun a b => decide (a < b)) (dedup (growTargets s (.home g h))) = [n] := by
    have hnodup := (sortBy_perm (fun a b => decide (a < b)) _).nodup_iff.mpr (nodup_dedup (growTargets s (.home g h)))
    refine ((List.perm_ext_iff_of_nodup hnodup (List.nodup_singleton n)).mpr fun m => ?_).eq_singleton
    rw [mem_sortBy, mem_dedup, List.mem_singleton]
    exact ⟨hall m, fun e => e ▸ hmem⟩
  rw [exec_growGrant, hone, show warpResident s (.home g h) = true from hres, hlow]
  rfl

end Grant

end Sys2Proof.Machine
end

section
/-! PROOFS. The register blocks (R104, R109 to R111). -/

namespace Sys2Proof.Machine

/-- Settles O32: GROW and GROW.try keep the pace of their issue group; SHRINK by its two conditions; a growth by whether the block is
large enough; GROW_GRANT by whether a thread waits for the target. -/
theorem registerBlocks : Obligations.RegisterBlocks := by
  unfold Obligations.RegisterBlocks
  refine ⟨grow_goesOn, growTry_goesOn, fun t st s h => ⟨fun hbad hh => ?_, fun hbad hk hl => ?_, fun hbad hk hl => ?_⟩,
    fun s g h n x hx hn _ => ⟨growStatus_eq hx hn, warps_growTo hx, fun t th ht ha => ?_⟩,
    fun s g h => ⟨growGrant_none, fun n hres hlow hdue hall hz => ?_⟩⟩
  · rw [exec_shrink]; exact shrink_traps h hbad hh
  · rw [exec_shrink]; exact issue_hold h (shrinkAct_holds hbad ((shrink_owed_iff hk _ _).mpr hl))
  · rw [exec_shrink]; exact shrink_shrinks h rfl hbad (Bool.not_eq_false _ ▸ mt (shrink_owed_iff hk _ _).mp hl)
  · exact growTo_home hx ht ha
  · by_cases hmem : n ∈ growTargets s (.home g h)
    · exact ⟨_, growGrant_grants hres hlow hall hmem, fun t th hw ht hs => growGrantOne_wakes hdue hz hw ht hs⟩
    · exact ⟨s, growGrant_none fun m hm => absurd (hall m hm ▸ hm) hmem, fun t th hw ht hs => absurd (mem_growTargets hw ht hs) hmem⟩

end Sys2Proof.Machine
end

section
/-! SUPPORT. The operands and the result of a word of the function unit, and FCVT with and without its partner (R58, R128, R136, R139). -/

namespace Sys2Proof.Machine

/-! ### FCVT (R58, R139) -/

section Convert

variable (src : CvtSrc) (dst : CvtDst) {r : RndCode} (a : Src) (d : Dst) (st : Stall)

/-- In a mode other than SR, FCVT reads its source alone; no random word is needed, and the operand that is not there counts as 0. -/
theorem fcvt_reads_source (hr : r.isSr = false) :
    Word1 (.fcvt src dst r a d st) st 4 d a (fun _ x => aluFcvt src dst r x 0) := by
  intro s h
  obtain ⟨s', hs', hdone⟩ := regWord_done h rfl latLong d [a] fun _ => op2 fun x y => aluFcvt src dst r x (y.toNat % 2 ^ 32)
  refine ⟨s', ?_, hdone⟩
  change execFcvt src dst r a d st s = _
  rw [execFcvt, if_neg (Bool.not_eq_true _ ▸ hr), hs']

/-- Under SR, FCVT reads the low half of the partner too. -/
theorem fcvt_reads_partner (hr : r.isSr = true) : Word2 (.fcvt src dst r a d st) st 4 d a (srcPartner a)
    (fun x y => aluFcvt src dst r x (y.setWidth 32).toNat) := by
  simp only [BitVec.toNat_setWidth]
  refine word2_of_regWord rfl rfl fun s => ?_
  change execFcvt src dst r a d st s = _
  rw [execFcvt, if_pos hr]
  rfl

end Convert

/-! ### FP32 sources and results (R128) -/

/-- Bits 63:32 of a source are ignored. -/
theorem fdecode_lowHalf (a : Word) : fdecode .fp32 (BitVec.ofNat 32 a.toNat).toNat = fp32 a := by
  rw [BitVec.toNat_ofNat]
  exact fdecode_mod .fp32 a.toNat

/-- The code of a result is read back as its value. -/
theorem fp32_ofNat (c : Nat) : fp32 (BitVec.ofNat 64 c) = fdecode .fp32 c := by
  rw [fp32, BitVec.toNat_ofNat, ← fdecode_mod, Nat.mod_mod_of_dvd _ (pow_dvd_pow 2 (by decide)), fdecode_mod]

/-- No exponent stands below that of the smallest subnormal (R50). -/
theorem emin_le_of_fdecode {f : FFmt} {x : Nat} {neg : Bool} {m : Nat} {e : Int} (h : fdecode f x = .fin neg m e) : f.emin ≤ e := by
  rw [← fdecode_mod] at h
  obtain ⟨s, c, hc, hx⟩ := fin_of_fdecode (Nat.mod_lt x (Nat.two_pow_pos _)) (by rw [h]; rfl)
  rw [hx, fdecode_fsigned hc] at h
  injection h with _ _ he
  rw [← he, magExp]
  generalize c / 2 ^ f.fbits = k
  split <;> omega

/-! ### The result of a function word, by its source (R137, R138) -/

section Source

variable (f : Fn) {a b : Word} {neg : Bool} {m : Nat} {e : Int}

theorem aluFn_congr_low (h : b.setWidth 32 = a.setWidth 32) : aluFn f b = aluFn f a := by
  rw [aluFn, aluFn, BitVec.ofNat_toNat, BitVec.ofNat_toNat, h]

theorem aluFn_nan (h : fp32 a = .nan) : aluFn f a = 0x7FC00000 := by
  rw [aluFn, fnBits, fdecode_lowHalf, h]
  rfl

theorem aluFn_inf (h : fp32 a = .inf neg) : aluFn f a = fnOfInf f neg := by
  rw [aluFn, fnBits, fdecode_lowHalf, h]
  cases f <;> cases neg <;> rfl

theorem aluFn_zero (h : fp32 a = .fin neg 0 e) : aluFn f a = fnOfZero f neg := by
  rw [aluFn, fnBits, fdecode_lowHalf, h]
  cases f <;> cases neg <;> rfl

theorem aluFn_fin (h : fp32 a = .fin neg m e) (hm : m ≠ 0) : aluFn f a =
    BitVec.ofNat 64 (fnFin f (Config.funcMap (fnCode f) (a.setWidth 32)) neg m e) := by
  rw [aluFn, fnBits, fdecode_lowHalf, h, ← BitVec.ofNat_toNat]
  exact congrArg _ (if_neg hm)

end Source

/-! ### Exact results (R137) -/

section Exact

variable (raw : BitVec 32) (neg : Bool) {m : Nat} (e : Int) (j : Nat)

/-- The reciprocal of a power of two. -/
theorem fnFin_rcp_two_pow : fnFin .rcp raw neg (2 ^ j) e = roundRne .fp32 (.fin neg 1 (-(j + e))) := by
  simp [fnFin]

/-- FRSQ and FLOG2 of a negative value. -/
theorem fnFin_of_neg {f : Fn} (hf : f = .rsq ∨ f = .log2) : fnFin f raw true m e = 0x7FC00000 := by
  rcases hf with rfl | rfl <;> rfl

/-- The inverse root of a power of four. -/
theorem fnFin_rsq_four_pow {e : Int} {k : Int} (h : j + e = 2 * k) :
    fnFin .rsq raw false (2 ^ j) e = roundRne .fp32 (.fin false 1 (-k)) := by
  simp [fnFin, h]

/-- The logarithm of a power of two. -/
theorem fnFin_log2_two_pow :
    fnFin .log2 raw false (2 ^ j) e = roundRne .fp32 (.fin (decide (j + e < 0)) (j + e).natAbs 0) := by
  simp [fnFin]

/-- How FEXP2 tells a whole number, and which one it is. -/
theorem whole_of_eq {n : Nat} {e : Int} (h : (m : ℚ) * 2 ^ e = n) : (0 ≤ e ∨ m % 2 ^ (-e).toNat = 0) ∧
    (if 0 ≤ e then m * 2 ^ e.toNat else m / 2 ^ (-e).toNat) = n := by
  by_cases he : 0 ≤ e
  · refine ⟨.inl he, ?_⟩
    rw [← Int.toNat_of_nonneg he, zpow_natCast] at h
    rw [if_pos he]
    exact_mod_cast h
  · have hm : m = n * 2 ^ (-e).toNat := by
      have hp : (2 : ℚ) ^ e * 2 ^ (-e).toNat = 1 := by
        rw [← zpow_natCast, Int.toNat_of_nonneg (by omega), ← zpow_add₀ two_ne_zero, add_neg_cancel, zpow_zero]
      have hq : (m : ℚ) = n * 2 ^ (-e).toNat := by rw [← h, mul_assoc, hp, mul_one]
      exact_mod_cast hq
    rw [if_neg he, hm, Nat.mul_mod_left, Nat.mul_div_cancel _ (Nat.two_pow_pos _)]
    exact ⟨.inr rfl, rfl⟩

/-- A magnitude below 2^8 has its leading bit below place 8. -/
theorem log2_add_lt {e : Int} (hm : m ≠ 0) (h : (m : ℚ) * 2 ^ e < 2 ^ (8 : Int)) : (Nat.log2 m : Int) + e < 8 := by
  refine (zpow_lt_zpow_iff_right₀ (one_lt_two (α := ℚ))).mp (lt_of_le_of_lt ?_ h)
  rw [zpow_add₀ two_ne_zero, zpow_natCast]
  refine mul_le_mul_of_nonneg_right ?_ (zpow_pos two_pos e).le
  exact_mod_cast Nat.log2_self_le hm

/-- The power of a whole number. -/
theorem fnFin_exp2_int {e : Int} {i : Int} (hm : m ≠ 0) (h : finRat neg m e = i) (hlo : -149 ≤ i) (hhi : i ≤ 127) :
    fnFin .exp2 raw neg m e = roundRne .fp32 (.fin false 1 i) := by
  have habs : (m : ℚ) * 2 ^ e = (i.natAbs : Nat) := by
    rw [Nat.cast_natAbs, Int.cast_abs, ← h, abs_finRat, finRat_false]
  have hsmall : ¬ 8 ≤ (Nat.log2 m : Int) + e := by
    refine not_le.mpr (log2_add_lt hm ?_)
    have : i.natAbs < 2 ^ 8 := by omega
    rw [habs]
    exact_mod_cast this
  have hsign : (if neg then -(i.natAbs : Int) else i.natAbs) = i := by
    have hq : finRat neg m e = ((if neg then -(i.natAbs : Int) else i.natAbs : Int) : ℚ) := by
      cases neg <;> simpa [finRat] using habs
    exact_mod_cast hq.symm.trans h
  obtain ⟨hwhole, hval⟩ := whole_of_eq habs
  simp only [fnFin, if_neg hsmall, if_pos hwhole, hval, hsign]

end Exact

/-! ### FSIN and FCOS beyond 2^15 (R138) -/

theorem absLe_false_iff {m : Nat} {e q : Int} : absLe m e q = false ↔ (2 : ℚ) ^ q < m * 2 ^ e := by
  rw [absLe, Bool.not_eq_false', lt_fin, finRat_false, finRat_false, Nat.cast_one, one_mul]

theorem fnFin_far {f : Fn} (hf : f = .sin ∨ f = .cos) (raw : BitVec 32) (neg : Bool) {m : Nat} {e : Int}
    (h : absLe m e 15 = false) : fnFin f raw neg m e = trigFar raw := by
  rcases hf with rfl | rfl <;> simp [fnFin, h]

/-- A magnitude in units of 2^-149, the smallest subnormal. -/
theorem zpow_lt_of_units {m q : Nat} {e : Int} (he : -149 ≤ e) (h : 2 ^ q * 2 ^ 149 < m * 2 ^ (e + 149).toNat) :
    (2 : ℚ) ^ (q : Int) < m * 2 ^ e := by
  have hp : (2 : ℚ) ^ (e + 149).toNat = 2 ^ e * 2 ^ 149 := by
    rw [← zpow_natCast, Int.toNat_of_nonneg (by omega), zpow_add₀ two_ne_zero]; rfl
  have hq : (2 : ℚ) ^ q * 2 ^ 149 < m * 2 ^ (e + 149).toNat := by exact_mod_cast h
  rw [hp, ← mul_assoc] at hq
  rw [zpow_natCast]
  exact lt_of_mul_lt_mul_right hq (by positivity)

theorem unitRange_fin (neg : Bool) (m : Nat) (e : Int) : unitRange (.fin neg m e) = true ↔ (m : ℚ) * 2 ^ e ≤ 1 := by
  rw [unitRange, Bool.not_eq_true', Bool.eq_false_iff, Ne, FVal.abs, lt_fin, finRat_false, finRat_false, not_lt]
  simp

/-- Far away, the unit's value is that of its map where it lies in [-1, 1], else 1 with the sign of the map's. -/
theorem trigFar_range (raw : BitVec 32) :
    ∃ neg m e, fdecode .fp32 (trigFar raw) = .fin neg m e ∧ (m : ℚ) * 2 ^ e ≤ 1 := by
  rw [trigFar]
  split
  next h =>
    obtain ⟨hfin, hrange⟩ := (Bool.and_eq_true _ _).mp h
    cases hx : fdecode .fp32 raw.toNat with
    | nan => rw [hx] at hfin; cases hfin
    | inf s => rw [hx] at hfin; cases hfin
    | fin s m e => exact ⟨s, m, e, rfl, (unitRange_fin s m e).mp (hx ▸ hrange)⟩
  next =>
    have one : ((2 ^ 23 : Nat) : ℚ) * 2 ^ (-23 : Int) ≤ 1 := by norm_num
    obtain hs | hs : raw.toNat / 2 ^ 31 = 0 ∨ raw.toNat / 2 ^ 31 = 1 := by omega
    · exact ⟨false, 2 ^ 23, -23, by rw [hs]; rfl, one⟩
    · exact ⟨true, 2 ^ 23, -23, by rw [hs]; rfl, one⟩

end Sys2Proof.Machine
end

section
/-! PROOFS. The floating-point words and the function unit (R128 to R142). -/

namespace Sys2Proof.Machine

/-- Settles O11: each word is a register word whose operation is, by its definition, that of its rule; FCVT by whether its mode is SR. -/
theorem floatWords : Obligations.FloatWords := by
  unfold Obligations.FloatWords
  refine ⟨fun n aa ab nc rel a b c d uni st => ⟨?_, ?_, ?_, ?_, ?_, ?_, ?_⟩,
    fun h n nc src dst r a b c d p st => ⟨?_, ?_, ?_, ?_, fcvt_reads_source src dst a d st, fcvt_reads_partner src dst a d st⟩⟩
  · exact word2_of_regWord rfl rfl fun _ => rfl
  · exact word2_of_regWord rfl rfl fun _ => rfl
  · exact word2_of_regWord rfl rfl fun _ => rfl
  · exact word3_of_regWord rfl rfl fun _ => rfl
  · exact word2_of_regWord rfl rfl fun _ => rfl
  · exact word2_of_regWord rfl rfl fun _ => rfl
  · exact word2_of_regWord rfl rfl fun _ => rfl
  · exact word2_of_regWord rfl rfl fun _ => rfl
  · exact word2_of_regWord rfl rfl fun _ => rfl
  · exact word2_of_regWord rfl rfl fun _ => rfl
  · exact word3_of_regWord rfl rfl fun _ => rfl

/-- Settles O12: the words are register words; the unit's value by its source: NaN, an infinity, a zero, or a value that has an exact
result or lies beyond 2^15. -/
theorem functionUnit : Obligations.FunctionUnit := by
  unfold Obligations.FunctionUnit
  refine ⟨fun a d st => ⟨?_, ?_, ?_, ?_, ?_, ?_, ?_⟩, fun f a => ⟨fun b => aluFn_congr_low f, aluFn_nan f, fun neg => aluFn_inf f,
    fun neg e => aluFn_zero f, fun neg m e h hm => ?_⟩⟩
  · exact word1_of_regWord rfl rfl (fun _ => rfl) fun _ _ => rfl
  · exact word1_of_regWord rfl rfl (fun _ => rfl) fun _ _ => rfl
  · exact word1_of_regWord rfl rfl (fun _ => rfl) fun _ _ => rfl
  · exact word1_of_regWord rfl rfl (fun _ => rfl) fun _ _ => rfl
  · exact word1_of_regWord rfl rfl (fun _ => rfl) fun _ _ => rfl
  · exact word1_of_regWord rfl rfl (fun _ => rfl) fun _ _ => rfl
  · exact word1_of_regWord rfl rfl (fun _ => rfl) fun _ _ => rfl
  · rw [aluFn_fin f h hm]
    refine ⟨?_, ?_, ?_, ?_, ?_, ?_⟩
    · rintro rfl hf; rw [fnFin_of_neg _ _ hf]; rfl
    · rintro j rfl rfl; rw [fnFin_rcp_two_pow]; rfl
    · rintro j k rfl rfl hk rfl; rw [fnFin_rsq_four_pow _ _ hk]; rfl
    · rintro j rfl rfl rfl; rw [fnFin_log2_two_pow]; rfl
    · rintro i hi hlo hhi rfl
      rw [h] at hi
      rw [fnFin_exp2_int _ _ hm (Option.some.inj hi) hlo hhi]; rfl
    · intro hx hf
      have hfar : absLe m e 15 = false := absLe_false_iff.mpr (zpow_lt_of_units (q := 15) (emin_le_of_fdecode h) hx)
      rw [fnFin_far hf _ _ hfar, fp32_ofNat]
      exact trigFar_range _

end Sys2Proof.Machine
end

section
/-! SUPPORT. Placing a transfer: the translation of its barrier object, the checks of its block, and its token (R181, R201, R240, R243). -/

namespace Sys2Proof.Machine

/-! ### Translations and write-backs leave the pace of an issue group -/

/-- A translation: only TLBs and requests for DRAM change. -/
structure Walked (s s' : State) : Prop where
  rest : s' = { s with dies := s'.dies, cores := s'.cores, requests := s'.requests, arrivals := s'.arrivals, dramBanks := s'.dramBanks }
  cycle : ∀ d, (dieOf s' d).cyc = (dieOf s d).cyc

namespace Walked

theorem refl (s : State) : Walked s s := ⟨rfl, fun _ => rfl⟩

theorem trans {s s' s'' : State} (h : Walked s s') (h' : Walked s' s'') : Walked s s'' :=
  ⟨by rw [h'.rest, h.rest], fun d => (h'.cycle d).trans (h.cycle d)⟩

variable {s s' : State} (h : Walked s s')
include h

theorem threads : s'.threads = s.threads := by rw [h.rest]
theorem groups : s'.groups = s.groups := by rw [h.rest]
theorem engs : s'.engs = s.engs := by rw [h.rest]
theorem pace : PaceKept s s' := ⟨by rw [h.rest], h.cycle, fun hu th hth => hu th (by rwa [threadOf, ← h.threads])⟩

end Walked

theorem modCore_walked (s : State) (c : CoreId) (f : Core → Core) : Walked s (modCore s c f) := ⟨rfl, fun _ => rfl⟩

theorem modDie_walked (s : State) (d : Fin 8) (f : Die → Die) (h : ∀ x, (f x).cyc = x.cyc) : Walked s (modDie s d f) :=
  ⟨rfl, (modDie_pace s d f h).cycle⟩

theorem tlbFill_walked (s : State) (d : Fin 8) (core : Option CoreId) (e : TlbEntry) : Walked s (tlbFill s d core e) := by
  have hd : Walked s (modDie s d fun x => if e ∈ x.tlb then x else { x with tlb := (e :: x.tlb).take 16384 }) :=
    modDie_walked _ _ _ fun x => by split <;> rfl
  unfold tlbFill
  cases core with
  | none => exact hd
  | some k => exact hd.trans (modCore_walked ..)

theorem postPlain_walked (s : State) (d : Fin 8) (ctx : Nat) (cls : Fin 4) (l : List (Nat × Nat)) : Walked s (postPlain s d ctx cls l) := by
  rw [postPlain_rest]
  exact ⟨rfl, fun _ => rfl⟩

theorem translate_walked (s : State) (d : Fin 8) (core : Option CoreId) (c va : Nat) (need : Need) :
    Walked s (translate s d core c va need).2 := by
  have hfill (a : State) (e : TlbEntry) (r : XRes) : Walked a (fillOk a d core e r).2 := by
    unfold fillOk
    split
    · exact tlbFill_walked ..
    · exact .refl a
  unfold translate
  split
  · exact .refl s
  · extract_lets micro
    clear_value micro
    cases micro with
    | some e => exact .refl s
    | none =>
      dsimp only
      split
      · exact hfill ..
      · have h1 := postPlain_walked s d c 2 (walkAsks s c va)
        split
        · exact h1
        · exact h1
        · exact h1.trans (hfill ..)

theorem xferBarWalk_walked (s : State) (t : ThreadKey) (b : BitVec 512) : Walked s (xferBarWalk s t b) := by
  unfold xferBarWalk
  split
  · exact translate_walked ..
  · exact .refl s

theorem homePrepare_pace (s : State) (c : CoreId) (l : List Nat) : PaceKept s (homePrepare s c l) :=
  .foldl (fun _ _ => ((writeBack_pace ..).trans (l2Drop_pace ..)).trans (modCore_pace ..)) l s

/-! ### The operation of a transfer (R238, R240) -/

/-- An operation that is placed on the memory that is ready for it. -/
theorem engAdded_placed {s s0 : State} {t : ThreadKey} {k : EngKind} {e : Eng} (hth : s0.threads = s.threads) (hg : s0.groups = s.groups)
    (h : IsBlank s t k e) : OpPlaced s (engAdded s0 ((gidOf t).getD 0) e) t k { e with token := tokenNext s0 ((gidOf t).getD 0) } := by
  obtain ⟨hgid, hnamed, hdisp, hasked, hkind, hstate, hthread, hpc, hlanded, hbuf⟩ := h
  have hgroup (g : Nat) : groupOf s0 g = groupOf s g := by rw [groupOf, groupOf, hg]
  refine ⟨⟨s0.seq, engAdded_self .., tokenOp_engAdded s0 _ e hgid hnamed⟩, hnamed, hdisp, hasked, hkind, hstate, hgid, hthread, hpc,
    by rw [tokenNext, hgroup], hlanded, hbuf, (engAdded_threads ..).trans hth, fun x hx => groupOf_engAdded s0 _ e ((hgroup _).trans hx)⟩

/-- The memory that a transfer finds: its barrier object translated, and its DRAM lines home (R201, R239). -/
def xferReady (s : State) (t : ThreadKey) (e : Eng) : State :=
  homePrepare s (coreOfThread s t) (xferLines s e)

/-- A transfer before its token. -/
def xferEng (s : State) (t : ThreadKey) (k : EngKind) (blk src dst : BitVec 512) (bar : Option BarObj) (b : Word) : Eng :=
  let p := pfxOf s t
  let m := p.mod.getD 0
  let e1 : Eng := ({ Eng.blank ((gidOf t).getD 0) (coreOfThread s t) t (pcOf s t + 4) k with
    block := blk, src := src, dst := dst, bar := bar
    cls := if modClassSet m then some (modClass m) else none
    deadline := p.dln.map fun d => s.clock + 64 * d.toNat } : Eng).inputs s ((gidOf t).getD 0) b
  { e1 with scope := xferScope s e1, cleared := clearedLines s e1 }

/-- The package with a transfer placed. -/
def xferPlaced (s : State) (t : ThreadKey) (e : Eng) : State := engAdded (xferReady s t e) ((gidOf t).getD 0) e

theorem xferStart_eq (s : State) (t : ThreadKey) (k : EngKind) (blk src dst : BitVec 512) (bar : Option BarObj) (b : Word) :
    xferStart s t k blk src dst bar b =
      (tokenNext (xferReady s t (xferEng s t k blk src dst bar b)) ((gidOf t).getD 0),
        drainPoison (xferPlaced s t (xferEng s t k blk src dst bar b)).engs.length (xferPlaced s t (xferEng s t k blk src dst bar b))) := rfl

theorem xferStart_pace (s : State) (t : ThreadKey) (k : EngKind) (blk src dst : BitVec 512) (bar : Option BarObj) (b : Word) :
    PaceKept s (xferStart s t k blk src dst bar b).2 :=
  (homePrepare_pace ..).trans ((engAdded_pace ..).trans (drainPoison_pace ..))

theorem inputOp_congr {s s0 : State} (he : s0.engs = s.engs) (hg : s0.groups = s.groups) : inputOp s0 = inputOp s := by
  funext gid tok
  simp only [inputOp, tokenOp, tokenEnd, groupOf, he, hg]

/-- A transfer whose checks have passed, behind the translation of its barrier object (R181, R238 to R240). -/
theorem xferStart_placed {s s0 : State} (hw : Walked s s0) (t : ThreadKey) (k : EngKind) (blk src dst : BitVec 512) (bar : Option BarObj)
    (b : Word) : ∃ s1 e, xferStart s0 t k blk src dst bar b = (e.token, drainPoison s1.engs.length s1) ∧ OpPlaced s s1 t k e ∧
      e.block = blk ∧ e.src = src ∧ e.dst = dst ∧ e.bar = bar ∧ InputsTaken s b e := by
  have hact : MemoryAct s0 (xferReady s0 t (xferEng s0 t k blk src dst bar b)) := homePrepare_act ..
  have hpc : pcOf s0 t = pcOf s t := by rw [pcOf, pcOf, threadOf, threadOf, hw.threads]
  refine ⟨_, _, xferStart_eq .., engAdded_placed (s := s) ?_ (hact.groups.trans hw.groups) ?_, rfl, rfl, rfl, rfl, ?_⟩
  · rw [hact.rest]; exact hw.threads
  · exact ⟨rfl, rfl, rfl, rfl, rfl, rfl, rfl, congrArg (· + 4) hpc, rfl, rfl⟩
  · have hlow : bvf b 15 0 = (b.extractLsb' 0 16).toNat := bvf_eq b rfl
    have hhigh : bvf b 31 16 = (b.extractLsb' 16 16).toNat := bvf_eq b rfl
    rw [InputsTaken, ← inputOp_congr hw.engs hw.groups, ← hlow, ← hhigh]
    exact ⟨rfl, rfl, rfl⟩

end Sys2Proof.Machine
end

section
/-! SUPPORT. The checks of R243 on the parameter block of a transfer, one after another, by the fields of R244. -/

namespace Sys2Proof.Machine

/-! ### The fields of a block (R244) -/

section Fields

variable (b : BitVec 512)

theorem xRnd_eq : xRnd b = (b.extractLsb' 214 3).toNat := bvf_eq b rfl
theorem xRedOp_eq : xRedOp b = (b.extractLsb' 212 2).toNat := bvf_eq b rfl
theorem xIdxSp_eq : xIdxSp b = (b.extractLsb' 210 2).toNat := bvf_eq b rfl
theorem xBarSp_eq : xBarSp b = (b.extractLsb' 208 2).toNat := bvf_eq b rfl
theorem xCount_eq : xCount b = (b.extractLsb' 192 16).toNat + 1 := congrArg (· + 1) (bvf_eq b rfl)
theorem xIdx_eq : xIdx b = (b.extractLsb' 128 64).toNat := bvf_eq b rfl
theorem xBar_eq : xBar b = (b.extractLsb' 64 64).toNat := bvf_eq b rfl

/-- The low bits of a field are zero where its number is a multiple. -/
theorem field_low_iff {n : Nat} (x : BitVec n) {lo l k : Nat} (h : k ≤ l) :
    (x.extractLsb' lo l).toNat % 2 ^ k = 0 ↔ x.extractLsb' lo k = 0 := by
  rw [← BitVec.toNat_inj, BitVec.extractLsb'_toNat, BitVec.extractLsb'_toNat, Nat.mod_mod_of_dvd _ (Nat.pow_dvd_pow 2 h)]
  rfl

theorem xBar_aligned_iff : xBar b % 32 = 0 ↔ b.extractLsb' 64 5 = 0 := by
  rw [xBar_eq]; exact field_low_iff b (k := 5) (l := 64) (by decide)

theorem xIdx_aligned_iff : xIdx b % 4 = 0 ↔ b.extractLsb' 128 2 = 0 := by
  rw [xIdx_eq]; exact field_low_iff b (k := 2) (l := 64) (by decide)

/-- A field is a number, as a bit vector of its width. -/
theorem field_eq_iff {n lo l m : Nat} (x : BitVec n) (h : m < 2 ^ l) : (x.extractLsb' lo l).toNat = m ↔ x.extractLsb' lo l = BitVec.ofNat l m := by
  rw [← BitVec.toNat_inj, BitVec.toNat_ofNat, Nat.mod_eq_of_lt h]

/-- Check 4 of R243 (R244). -/
theorem xferIllegal_iff (k : EngKind) : xferIllegal k b = true ↔ BlockIllegal k b := by
  have hidx : usesIdx k = true ↔ k = .gath ∨ k = .scat := by cases k <;> simp [usesIdx]
  have hres : bvf b 511 217 ≠ 0 ↔ b.extractLsb' 217 295 ≠ 0 := bvf_ne_zero b rfl
  have hcount : bvf b 207 192 ≠ 0 ↔ b.extractLsb' 192 16 ≠ 0 := bvf_ne_zero b rfl
  have hi : xIdx b ≠ 0 ↔ b.extractLsb' 128 64 ≠ 0 := bvf_ne_zero b rfl
  have hb : xBar b ≠ 0 ↔ b.extractLsb' 64 64 ≠ 0 := bvf_ne_zero b rfl
  have hr (m : Nat) (h : m < 2 ^ 3) : xRnd b = m ↔ b.extractLsb' 214 3 = BitVec.ofNat 3 m := xRnd_eq b ▸ field_eq_iff b h
  have hs (m : Nat) (h : m < 2 ^ 2) : xIdxSp b = m ↔ b.extractLsb' 210 2 = BitVec.ofNat 2 m := xIdxSp_eq b ▸ field_eq_iff b h
  have hp (m : Nat) (h : m < 2 ^ 2) : xBarSp b = m ↔ b.extractLsb' 208 2 = BitVec.ofNat 2 m := xBarSp_eq b ▸ field_eq_iff b h
  have hd : xRedOp b ≠ 0 ↔ b.extractLsb' 212 2 ≠ 0 := bvf_ne_zero b rfl
  unfold xferIllegal BlockIllegal
  simp only [Bool.or_eq_true, Bool.and_eq_true, bne_iff_ne, beq_iff_eq, or_assoc]
  refine or_congr hres (or_congr ?_ (or_congr (and_congr_right' hd) (or_congr ?_ (or_congr (hp 3 (by decide)) (and_congr (hp 0 (by decide)) hb)))))
  · split
    · rw [Bool.or_eq_true, beq_iff_eq, beq_iff_eq, hr 4 (by decide), hr 7 (by decide)]; rfl
    · rw [bne_iff_ne, ne_eq, hr 0 (by decide)]; rfl
  · rw [← if_congr hidx rfl rfl]
    split
    · rw [Bool.and_eq_true, bne_iff_ne, bne_iff_ne, ne_eq, ne_eq, hs 1 (by decide), hs 2 (by decide)]; rfl
    · rw [Bool.or_eq_true, Bool.or_eq_true, bne_iff_ne, bne_iff_ne, bne_iff_ne, hcount, hi, ne_eq, hs 0 (by decide), or_assoc]; rfl

end Fields

/-! ### Checks 3 to 5 (R243) -/

section Checks

variable {s : State} {t : ThreadKey} {k : EngKind} {blk : BitVec 512}

theorem xferBlockFault_barAlign (h : blk.extractLsb' 64 5 ≠ 0) :
    xferBlockFault s t k blk = some (addrFault s t .align (blk.extractLsb' 64 64).toNat) := by
  have hb : xBar blk % 32 ≠ 0 := (xBar_aligned_iff blk).not.mpr h
  unfold xferBlockFault
  simp only [hb, ne_eq, not_false_eq_true, true_or, if_true]
  rw [xBar_eq]

theorem xferBlockFault_idxAlign (h : blk.extractLsb' 64 5 = 0) (hi : blk.extractLsb' 128 2 ≠ 0) :
    xferBlockFault s t k blk = some (addrFault s t .align (blk.extractLsb' 128 64).toNat) := by
  have hb : xBar blk % 32 = 0 := (xBar_aligned_iff blk).mpr h
  have hx : xIdx blk % 4 ≠ 0 := (xIdx_aligned_iff blk).not.mpr hi
  unfold xferBlockFault
  simp only [hb, hx, ne_eq, not_true_eq_false, not_false_eq_true, or_true, if_true, if_false]
  rw [xIdx_eq]

/-- Checks 4 and 5, of a block whose addresses are aligned. -/
theorem xferBlockFault_aligned (h : blk.extractLsb' 64 5 = 0 ∧ blk.extractLsb' 128 2 = 0) : xferBlockFault s t k blk =
    if xferIllegal k blk then some (plainFault s t .illegal)
    else if blk.extractLsb' 208 2 = 1 ∧ scratchSize s t ≤ (blk.extractLsb' 64 64).toNat then
      some (violFault s t 8 1 (blk.extractLsb' 64 64).toNat)
    else if blk.extractLsb' 210 2 = 1 ∧
        scratchSize s t < (blk.extractLsb' 128 64).toNat + 4 * ((blk.extractLsb' 192 16).toNat + 1) then
      some (violFault s t 8 1 (max (blk.extractLsb' 128 64).toNat (scratchSize s t)))
    else none := by
  have hb : xBar blk % 32 = 0 := (xBar_aligned_iff blk).mpr h.1
  have hx : xIdx blk % 4 = 0 := (xIdx_aligned_iff blk).mpr h.2
  have hbar : xBarSp blk = 1 ↔ blk.extractLsb' 208 2 = 1 := xBarSp_eq blk ▸ field_eq_iff blk (by decide)
  have hidx : xIdxSp blk = 1 ↔ blk.extractLsb' 210 2 = 1 := xIdxSp_eq blk ▸ field_eq_iff blk (by decide)
  unfold xferBlockFault
  simp only [hb, hx, hbar, hidx, ne_eq, not_true_eq_false, or_self, if_false]
  rw [xBar_eq, xIdx_eq, xCount_eq]

/-! ### Check 6: the barrier object (R243) -/

theorem xferBar_named {bar : Option BarObj} (h : BarNamed s t blk bar) : xferBar s t blk = .inr bar := by
  have hsp (n : Nat) (hn : n < 2 ^ 2) : blk.extractLsb' 208 2 = BitVec.ofNat 2 n → xBarSp blk = n := fun e =>
    (xBarSp_eq blk ▸ field_eq_iff blk hn).mpr e
  unfold xferBar
  rcases h with ⟨h0, rfl⟩ | ⟨h1, rfl⟩ | ⟨h2, x, hx, hcarve, rfl⟩
  · rw [hsp 0 (by decide) h0] <;> rfl
  · rw [hsp 1 (by decide) h1, xBar_eq] <;> rfl
  · rw [hsp 2 (by decide) h2, xBar_eq]
    simp only [hx, hcarve, if_true]

theorem xferBar_outside (h : blk.extractLsb' 208 2 = 2) : xferBar s t blk =
    match (translateFor s t (blk.extractLsb' 64 64).toNat ⟨true, true, false⟩).1 with
    | .page => .inl (addrFault s t .page (blk.extractLsb' 64 64).toNat)
    | .viol k => .inl (violFault s t k 0 (blk.extractLsb' 64 64).toNat)
    | .ok x => if x.attr.carve then .inr (some (.carve x.loc)) else .inl (plainFault s t .illegal) := by
  have hsp : xBarSp blk = 2 := (xBarSp_eq blk ▸ field_eq_iff blk (by decide)).mpr h
  unfold xferBar
  rw [hsp, ← xBar_eq] <;> rfl

theorem xferBlockFault_thread {f : FaultRec} (h : xferBlockFault s t k blk = some f) : f.thread = t := by
  unfold xferBlockFault at h
  extract_lets size at h
  split at h
  · cases h; rfl
  · split at h
    · cases h; rfl
    · split at h
      · cases h; rfl
      · split at h
        · cases h; rfl
        · cases h

theorem xferBar_thread {f : FaultRec} (h : xferBar s t blk = .inl f) : f.thread = t := by
  unfold xferBar at h
  split at h
  · cases h
  · split at h
    · cases h; rfl
    · cases h; rfl
    · split at h
      · cases h
      · cases h; rfl
  · cases h

end Checks

/-! ### A transfer word, stage by stage (R243) -/

/-- A transfer word once its records are known. -/
def xferOfRecords (k : EngKind) (b : Src) (s : State) (t : ThreadKey) (blk : BitVec 512) (bar : Option BarObj) (src dst : BitVec 512) :
    Elected :=
  if k = .stkcvt ∧ cvtRndBad (recFmt dst) (xRnd blk) = true then .fault (plainFault s t .illegal)
  else if !xferAdmits k blk src dst then .fault (plainFault s t .handle)
  else if !tableRoom s (coreOfThread s t) || !releaseReady s .die t || bankPending s t then .hold
  else
    let r := xferStart (xferBarWalk s t blk) t k blk src dst bar (readSrc s t 1 b)
    .done (some r.1) r.2

/-- A transfer word once its barrier object is known. -/
def xferOfBar (k : EngKind) (b : Src) (s : State) (t : ThreadKey) (blk : BitVec 512) (bar : Option BarObj) : Elected :=
  match handleRecord s (ctxIdOf s t) (xSrc blk), handleRecord s (ctxIdOf s t) (xDst blk) with
  | some src, some dst => xferOfRecords k b s t blk bar src dst
  | _, _ => .fault (plainFault s t .handle)

/-- A transfer word once its block has been read. -/
def xferOfBlock (k : EngKind) (b : Src) (s : State) (t : ThreadKey) (blk : BitVec 512) : Elected :=
  match xferBlockFault s t k blk with
  | some f => .fault f
  | none =>
    match xferBar s t blk with
    | .inl f => .fault f
    | .inr bar => xferOfBar k b s t blk bar

theorem xferOne_eq (k : EngKind) (a b : Src) (s : State) (t : ThreadKey) : xferOne k a b s t =
    match blockFault s t (readSrc s t 0 a).toNat with
    | some f => .fault f
    | none =>
      if blockAbsent s t (readSrc s t 0 a).toNat then .wait ((readSrc s t 0 a).toNat / 64)
      else if !blockReady s t (readSrc s t 0 a).toNat then .hold
      else xferOfBlock k b s t (readBlock s t (readSrc s t 0 a).toNat) := rfl

theorem xferOfRecords_elects (k : EngKind) (b : Src) (s : State) (t : ThreadKey) (blk : BitVec 512) (bar : Option BarObj)
    (src dst : BitVec 512) : Elects s t (xferOfRecords k b s t blk bar src dst) := by
  unfold xferOfRecords
  split
  · rfl
  · split
    · rfl
    · split
      · trivial
      · exact (xferBarWalk_walked ..).pace.trans (xferStart_pace ..)

theorem xferOne_elects (k : EngKind) (a b : Src) (s : State) (t : ThreadKey) : Elects s t (xferOne k a b s t) := by
  rw [xferOne_eq]
  split
  next f hf => exact blockFault_thread hf
  next =>
    split
    · trivial
    · split
      · trivial
      · unfold xferOfBlock
        split
        next f hf => exact xferBlockFault_thread hf
        next =>
          split
          next f hf => exact xferBar_thread hf
          next bar _ =>
            unfold xferOfBar
            split
            · exact xferOfRecords_elects ..
            · rfl

section Stages

variable {k : EngKind} {a b : Src} {s : State} {t : ThreadKey}

theorem xferOne_blockFault {f : FaultRec} (h : blockFault s t (readSrc s t 0 a).toNat = some f) : xferOne k a b s t = .fault f := by
  rw [xferOne_eq, h]

/-- A transfer word whose block lies in the allocation. -/
theorem xferOne_inside (hin : (readSrc s t 0 a).toNat % 64 = 0 ∧ (readSrc s t 0 a).toNat < scratchSize s t) : xferOne k a b s t =
    if blockAbsent s t (readSrc s t 0 a).toNat then .wait ((readSrc s t 0 a).toNat / 64)
    else if !blockReady s t (readSrc s t 0 a).toNat then .hold
    else xferOfBlock k b s t (readBlock s t (readSrc s t 0 a).toNat) := by
  rw [xferOne_eq, blockFault_inside hin]

variable {blk : BitVec 512} {bar : Option BarObj}

theorem xferOfBlock_fault {f : FaultRec} (h : xferBlockFault s t k blk = some f) : xferOfBlock k b s t blk = .fault f := by
  rw [xferOfBlock, h]

theorem xferOfBlock_barFault {f : FaultRec} (h : xferBlockFault s t k blk = none) (hb : xferBar s t blk = .inl f) :
    xferOfBlock k b s t blk = .fault f := by
  rw [xferOfBlock, h, hb]

theorem xferOfBlock_bar (h : xferBlockFault s t k blk = none) (hb : BarNamed s t blk bar) :
    xferOfBlock k b s t blk = xferOfBar k b s t blk bar := by
  rw [xferOfBlock, h, xferBar_named hb]

theorem xferOfBar_handle (h : handleRecord s (ctxIdOf s t) (xSrc blk) = none ∨ handleRecord s (ctxIdOf s t) (xDst blk) = none) :
    xferOfBar k b s t blk bar = .fault (plainFault s t .handle) := by
  unfold xferOfBar
  split
  next src dst hsrc hdst => rw [hsrc, hdst] at h; rcases h with h | h <;> cases h
  next => rfl

theorem xferOfBar_records {src dst : BitVec 512} (hsrc : handleRecord s (ctxIdOf s t) (xSrc blk) = some src)
    (hdst : handleRecord s (ctxIdOf s t) (xDst blk) = some dst) :
    xferOfBar k b s t blk bar = xferOfRecords k b s t blk bar src dst := by
  rw [xferOfBar, hsrc, hdst]

end Stages

/-- The rounding codes that STKCVT does not take (log 33). -/
theorem cvtRndBad_iff (fmt rnd : Nat) : cvtRndBad fmt rnd = true ↔ (fmt = 5 ∧ rnd ≠ 0) ∨ ((fmt = 0 ∨ fmt = 1) ∧ 5 ≤ rnd) := by
  unfold cvtRndBad
  split
  next h => simp [h]
  next h => simp [h]

/-- What a transfer word comes to once its records are known (R240, R243, R245). -/
theorem xferOfRecords_cases (k : EngKind) (b : Src) (s : State) (t : ThreadKey) (blk : BitVec 512) (bar : Option BarObj)
    (src dst : BitVec 512) :
    let badRnd := k = .stkcvt ∧ ((recFmt dst = 5 ∧ xRnd blk ≠ 0) ∨ ((recFmt dst = 0 ∨ recFmt dst = 1) ∧ 5 ≤ xRnd blk))
    let room := tableRoom s (coreOfThread s t) = true ∧ releaseReady s .die t = true ∧ bankPending s t = false
    (badRnd → xferOfRecords k b s t blk bar src dst = .fault (plainFault s t .illegal)) ∧
    (¬ badRnd → xferAdmits k blk src dst = false → xferOfRecords k b s t blk bar src dst = .fault (plainFault s t .handle)) ∧
    (¬ badRnd → xferAdmits k blk src dst = true → ¬ room → xferOfRecords k b s t blk bar src dst = .hold) ∧
    (¬ badRnd → xferAdmits k blk src dst = true → room →
      ∃ s1 e, xferOfRecords k b s t blk bar src dst = .done (some e.token) (drainPoison s1.engs.length s1) ∧ OpPlaced s s1 t k e ∧
        e.block = blk ∧ e.src = src ∧ e.dst = dst ∧ e.bar = bar ∧ InputsTaken s (readSrc s t 1 b) e) := by
  intro badRnd room
  have hbad : (k = .stkcvt ∧ cvtRndBad (recFmt dst) (xRnd blk) = true) ↔ badRnd := and_congr_right' (cvtRndBad_iff _ _)
  have hroom : (!tableRoom s (coreOfThread s t) || !releaseReady s .die t || bankPending s t) = true ↔ ¬ room := by
    simp only [room, Bool.or_eq_true, Bool.not_eq_true', not_and_or, Bool.not_eq_true, Bool.not_eq_false, or_assoc]
  unfold xferOfRecords
  refine ⟨fun h => if_pos (hbad.mpr h), fun h hadm => ?_, fun h hadm hno => ?_, fun h hadm hyes => ?_⟩
  · rw [if_neg (hbad.not.mpr h), hadm]; rfl
  · rw [if_neg (hbad.not.mpr h), hadm]
    exact (if_neg Bool.false_ne_true).trans (if_pos (hroom.mpr hno))
  · obtain ⟨s1, e, hstart, hplaced⟩ := xferStart_placed (xferBarWalk_walked s t blk) t k blk src dst bar (readSrc s t 1 b)
    refine ⟨s1, e, ?_, hplaced⟩
    rw [if_neg (hbad.not.mpr h), hadm, if_neg (by exact Bool.false_ne_true), if_neg fun hc => hroom.mp hc hyes, hstart]

end Sys2Proof.Machine
end

section
/-! SUPPORT. The elected threads, and the waits on a token (R83, R207, R213, R229, R249). -/

namespace Sys2Proof.Machine

/-! ### The elected threads (R83) -/

theorem keyLt_iff {a b : ThreadKey} : keyLt a b = true ↔ (hwarpOf a).val * 32 + (laneOf a).val < (hwarpOf b).val * 32 + (laneOf b).val :=
  decide_eq_true_iff

/-- No thread comes before the first of a group. -/
theorem keyLt_head {l : List ThreadKey} {x y : ThreadKey} (h : (sortBy keyLt l).head? = some x) (hy : y ∈ l) : keyLt y x = false := by
  have hsorted : (sortBy keyLt l).Pairwise fun a b => keyLt b a = false :=
    sortBy_sorted (fun a b hab => Bool.eq_false_iff.mpr fun hba => by rw [keyLt_iff] at hab hba; omega)
      (fun a b c hba hcb => Bool.eq_false_iff.mpr fun hca => by
        rw [Bool.eq_false_iff, ne_eq, keyLt_iff] at hba hcb
        rw [keyLt_iff] at hca
        omega) l
  obtain ⟨tail, htail⟩ := List.head?_eq_some_iff.mp h
  rw [htail] at hsorted
  have hm : y ∈ x :: tail := htail ▸ mem_sortBy.mpr hy
  rcases List.mem_cons.mp hm with rfl | hm
  · exact Bool.eq_false_iff.mpr fun hc => by rw [keyLt_iff] at hc; omega
  · exact (List.pairwise_cons.mp hsorted).1 y hm

/-- Two threads of a group are the same where their home warps and lanes are. -/
theorem eq_of_key {t u : ThreadKey} {g : Nat} (ht : gidOf t = some g) (hu : gidOf u = some g)
    (h : (hwarpOf t).val * 32 + (laneOf t).val = (hwarpOf u).val * 32 + (laneOf u).val) : t = u := by
  cases t with
  | handler => cases ht
  | home g1 h1 l1 =>
    cases u with
    | handler => cases hu
    | home g2 h2 l2 =>
      cases ht; cases hu
      simp only [hwarpOf, laneOf] at h
      obtain rfl : h1 = h2 := Fin.ext (by omega)
      obtain rfl : l1 = l2 := Fin.ext (by omega)
      rfl

theorem mem_electedOf_iff {s : State} (hhome : ∀ t ∈ s.focus.threads, t.isHandler = false) (t : ThreadKey) :
    t ∈ electedOf s s.focus.threads ↔ isElected s t := by
  have hmem {g : Nat} {u : ThreadKey} : u ∈ s.focus.threads.filter (fun t => gidOf t = some g) ↔ u ∈ s.focus.threads ∧ gidOf u = some g := by
    rw [List.mem_filter, decide_eq_true_eq]
  rw [electedOf, mem_sortBy]
  refine ⟨fun h => ?_, fun ⟨ht, hleast⟩ => ?_⟩
  · obtain ⟨g, -, hg⟩ := List.mem_filterMap.mp h
    obtain ⟨ht, hgid⟩ := electedOf_gid hg
    refine ⟨ht, fun u hu hug => ?_⟩
    have := keyLt_head hg (hmem.mpr ⟨hu, hug.trans hgid⟩)
    rw [Bool.eq_false_iff, ne_eq, keyLt_iff] at this
    omega
  · obtain ⟨g, hgid⟩ : ∃ g, gidOf t = some g := by
      cases t with
      | handler => have := hhome _ ht; cases this
      | home g h l => exact ⟨g, rfl⟩
    have hin := hmem.mpr ⟨ht, hgid⟩
    obtain ⟨x, hx⟩ : ∃ x, (sortBy keyLt (s.focus.threads.filter fun t => gidOf t = some g)).head? = some x := by
      exact Option.isSome_iff_exists.mp (List.isSome_head?.mpr (List.ne_nil_of_mem (mem_sortBy.mpr hin)))
    obtain ⟨hxt, hxg⟩ := electedOf_gid hx
    have hle := hleast x hxt (hxg.trans hgid.symm)
    have hge := keyLt_head hx hin
    rw [Bool.eq_false_iff, ne_eq, keyLt_iff] at hge
    obtain rfl := eq_of_key hgid hxg (by omega)
    exact List.mem_filterMap.mpr ⟨g, (mem_dedup _ _).mpr (List.mem_filterMap.mpr ⟨_, ht, hgid⟩), hx⟩

/-! ### Waits on a token (R249) -/

theorem tokenWord_waits {i : Instr} {a : Src} {d : PDst} {mx : Bool} {s : State} (hx : exec i s = tokenWord i a d mx s)
    (h : issuable i s = true) (hhint : (instrShape i).hint = false) :
    let tok (t : ThreadKey) : Nat := ((readSrc s t 0 a).extractLsb' 0 16).toNat
    ((∀ t ∈ s.focus.threads, tokenReady s t (tok t) = true) → ∃ s', exec i s = .next s' ∧
      GoesOn (instrShape i).st s (s.focus.threads.foldl (fun x t => tokenWait x t (tok t) d mx) s) s') ∧
    ((∃ t ∈ s.focus.threads, tokenReady s t (tok t) = false) → ∃ s', exec i s = .next s' ∧ Held s s') := by
  intro tok
  have htok (x : ThreadKey) : bvf (readSrc s x 0 a) 15 0 = tok x := bvf_eq _ rfl
  rw [hx, tokenWord]
  refine ⟨fun hr => ?_, fun ⟨t, ht, hr⟩ => issue_hold h (if_pos (List.any_eq_true.mpr ⟨t, ht, by rw [htok, hr]; rfl⟩))⟩
  refine issue_goesOn h hhint ((if_neg ?_).trans (by simp only [htok])) (.foldl (fun _ _ => tokenWait_pace ..) _ s)
  rw [List.any_eq_true]
  rintro ⟨t, ht, hn⟩
  rw [htok, hr t ht] at hn
  cases hn

/-! ### An acquire leaves no line in the L1 of its core (R206) -/

theorem CacheAct.cores {s s' : State} (h : CacheAct s s') : s'.cores = s.cores := by rw [h]

theorem landPacket_cores (s : State) (id : Nat) (k : Packet) : (landPacket s id k).cores = s.cores := by
  unfold landPacket
  extract_lets n v s1 s2
  have h1 : s1.cores = s.cores := (homeWrite_act ..).cores
  have h2 : s2.cores = s.cores := by
    unfold s2
    split <;> exact h1
  exact h2

theorem landOrdered_cores (n : Nat) (s : State) (id : Nat) : (landOrdered n s id).cores = s.cores := by
  induction n generalizing s id with
  | zero => rfl
  | succ n ih =>
    unfold landOrdered
    split
    next => rfl
    next k _ =>
      extract_lets s1
      have h1 : s1.cores = s.cores := foldl_keeps State.cores _ ih _ s
      split
      · split
        · exact h1
        · exact (landPacket_cores ..).trans h1
      · exact h1

theorem writeBack_cores (s : State) (d : Fin 8) (ln : Nat) : (writeBack s d ln).cores = s.cores := by
  unfold writeBack
  split
  next => rfl
  next x _ =>
    split
    · rfl
    · extract_lets s0 s1
      have h0 : s0.cores = s.cores := foldl_keeps State.cores _ (landOrdered_cores _) _ s
      refine (homeTouched_act ..).cores.trans ?_
      rw [postPlain_rest]
      exact h0

theorem epochAdvance_cores (s : State) (d : Fin 8) : (epochAdvance s d).cores = s.cores := by
  unfold epochAdvance
  extract_lets s1 s2
  have h1 : s1.cores = s.cores := foldl_keeps State.cores _ (fun a ln => writeBack_cores a d ln) _ s
  have h2 : s2.cores = s1.cores := foldl_keeps State.cores _ (fun a ln => (l2Drop_act a d ln).cores) _ s1
  exact h2.trans h1

theorem clearL1_l1 (s : State) (c : CoreId) : (coreOf (clearL1 s c) c).l1 = [] := by
  simp [clearL1, modCore, setCore, coreOf]

theorem acquireAct_l1 (s : State) (c : CoreId) {sc : Scope} (h : sc ≠ .core) : (coreOf (acquireAct s c sc) c).l1 = [] := by
  have hfar : (coreOf (epochAdvance (clearL1 s c) c.die) c).l1 = [] := by
    rw [coreOf, epochAdvance_cores]; exact clearL1_l1 s c
  cases sc with
  | core => exact absurd rfl h
  | die => exact clearL1_l1 s c
  | pkg => exact hfar
  | sys => exact hfar

/-! ### What a wait on a token comes to (R249) -/

theorem threadOf_park {s : State} {t : ThreadKey} {th : Thread} (ht : threadOf s t = some th) (d : PDst) (w : Wait) :
    threadOf (waitThread (giveThread { s with seq := s.seq + 1 } t d 0 0 (some s.seq)) t w) t =
      some { th with regs := th.regs.give d 0 0 (some s.seq), status := .live (.waiting w) } := by
  rw [waitThread, giveThread, threadOf_modThread, if_pos rfl, threadOf_modThread, if_pos rfl]
  show ((threadOf s t).map _).map _ = _
  rw [ht]
  rfl

theorem threadOf_gives {s x : State} {t : ThreadKey} {th : Thread} (ht : threadOf s t = some th) (hx : x.threads = s.threads) (d : PDst)
    (v : Word) : threadOf (giveThread x t d v 0 none) t = some { th with regs := th.regs.give d v 0 none } := by
  have : threadOf x t = some th := by rw [threadOf, hx]; exact ht
  rw [giveThread, threadOf_modThread_self, this]
  rfl

/-- CPWAIT of a thread (R249). -/
theorem tokenWait_value {s : State} {t : ThreadKey} {th : Thread} (tok : Nat) (d : PDst) (ht : threadOf s t = some th) :
    let g := (gidOf t).getD 0
    let waits (w : Wait) : Prop := threadOf (tokenWait s t tok d false) t =
      some { th with regs := th.regs.give d 0 0 (some s.seq), status := .live (.waiting w) }
    let gets (v : Nat) : Prop := threadOf (tokenWait s t tok d false) t =
      some { th with regs := th.regs.give d (BitVec.ofNat 64 v) 0 none }
    (tok = 0 → nrPending s t = true → waits (.token none s.seq)) ∧ (tok = 0 → nrPending s t = false → gets 0) ∧
    (tok = 0xFFFF → gets 0) ∧
    (tok ≠ 0 → tok ≠ 0xFFFF →
      (∀ op, tokenOp s g tok = some op → waits (.token (some op) s.seq)) ∧
      (tokenOp s g tok = none → tokenEnd s g tok = none → gets 0) ∧
      ∀ e, tokenOp s g tok = none → tokenEnd s g tok = some e → gets (if e.tile then 0 else e.status) ∧
        (e.tile = false → e.scope ≠ .core → (coreOf (tokenWait s t tok d false) (coreOfThread s t)).l1 = [])) := by
  intro g waits gets
  have hparks (w : Wait) : tokenWait s t tok d false = waitThread (giveThread { s with seq := s.seq + 1 } t d 0 0 (some s.seq)) t w →
      waits w := fun h => by unfold waits; rw [h, threadOf_park ht]
  have hgives (x : State) (v : Nat) (hx : x.threads = s.threads) :
      tokenWait s t tok d false = giveThread x t d (BitVec.ofNat 64 v) 0 none → gets v := fun h => by
    unfold gets; rw [h, threadOf_gives ht hx]
  refine ⟨fun h hnr => hparks _ ?_, fun h hnr => hgives s 0 rfl ?_, fun h => hgives s 0 rfl ?_, fun h0 hmax => ?_⟩
  · unfold tokenWait; rw [if_pos ⟨h, rfl⟩, if_pos hnr]
  · unfold tokenWait; rw [if_pos ⟨h, rfl⟩, if_neg (by rw [hnr]; decide)]
  · unfold tokenWait; rw [if_neg (by rw [h]; decide), if_pos (.inr h)]
  · have hnamed : tokenWait s t tok d false = match tokenOp s g tok with
        | some op => waitThread (giveThread { s with seq := s.seq + 1 } t d 0 0 (some s.seq)) t (.token (some op) s.seq)
        | none => match tokenEnd s g tok with
          | none => giveThread s t d (BitVec.ofNat 64 0) 0 none
          | some e => giveThread (acquireAct s (coreOfThread s t) (if e.tile then .core else e.scope)) t d
              (BitVec.ofNat 64 (if e.tile then 0 else e.status)) 0 none := by
      unfold tokenWait
      rw [if_neg fun h => h0 h.1, if_neg (not_or.mpr ⟨h0, hmax⟩)]
      simp only [Bool.false_eq_true, false_and, if_false, Bool.not_false, and_true]
      rfl
    refine ⟨fun op hop => hparks _ (by rw [hnamed, hop]), fun hop hend => hgives s 0 rfl (by rw [hnamed, hop, hend]),
      fun e hop hend => ?_⟩
    rw [hop, hend] at hnamed
    have hthreads : (acquireAct s (coreOfThread s t) (if e.tile then .core else e.scope)).threads = s.threads := by
      rw [(acquireAct_act ..).rest]; rfl
    refine ⟨hgives _ _ hthreads hnamed, fun htile hscope => ?_⟩
    rw [hnamed]
    exact acquireAct_l1 s _ (by rwa [htile])

/-- The operations that a fault makes Faulted go one after another (R260). -/
theorem drainPoison_steps (n : Nat) (s : State) :
    ((∀ o ∈ s.engs, o.2.state = .pending → o.2.poison = true → claimsClear s o.1 o.2 = false) → drainPoison n s = s) ∧
    ∀ id e, s.engs.find? (fun o => o.2.state == .pending && o.2.poison && claimsClear s o.1 o.2) = some (id, e) →
      drainPoison (n + 1) s = drainPoison n (quietFault s id e) := by
  refine ⟨fun h => ?_, fun id e h => by rw [drainPoison, h]⟩
  cases n with
  | zero => rfl
  | succ n =>
    have hnone : s.engs.find? (fun o => o.2.state == .pending && o.2.poison && claimsClear s o.1 o.2) = none := by
      refine List.find?_eq_none.mpr fun o ho hc => ?_
      simp only [Bool.and_eq_true, beq_iff_eq] at hc
      obtain ⟨⟨hstate, hpoison⟩, hclear⟩ := hc
      rw [h o ho hstate hpoison] at hclear
      cases hclear
    rw [drainPoison, hnone]

end Sys2Proof.Machine
end

section
/-! PROOFS. O40: the transfer words and CPWAIT (R243, R249). -/

namespace Sys2Proof.Machine

/-- Settles O40: the checks are the stages of the word one after another, and the wait of CPWAIT goes through the cases of its token. -/
theorem transferWords : Obligations.TransferWords := by
  unfold Obligations.TransferWords
  refine ⟨fun a b d st w hw => ?_, fun s hhome t => mem_electedOf_iff hhome t, fun k a b s t hhome => ?_, drainPoison_steps,
    fun a d st s h => tokenWord_waits rfl h rfl, fun s t th tok d ht => tokenWait_value tok d ht⟩
  · simp only [List.mem_cons, List.not_mem_nil, or_false] at hw
    rcases hw with rfl | rfl | rfl | rfl | rfl
    · exact electedWord_elects (fun _ => rfl) rfl rfl (xferOne_elects _ a b)
    · exact electedWord_elects (fun _ => rfl) rfl rfl (xferOne_elects _ a b)
    · exact electedWord_elects (fun _ => rfl) rfl rfl (xferOne_elects _ a b)
    · exact electedWord_elects (fun _ => rfl) rfl rfl (xferOne_elects _ a b)
    · exact electedWord_elects (fun _ => rfl) rfl rfl (xferOne_elects _ a b)
  · intro av blk inside handleFault illegal
    refine ⟨fun h => xferOne_blockFault (blockFault_align h), fun h hs => xferOne_blockFault (blockFault_viol h hs),
      fun hin habs => ?_, fun hin habs hready => ?_, fun hin habs hready => ?_⟩
    · rw [xferOne_inside hin, if_pos habs]
    · rw [xferOne_inside hin, if_neg (Bool.eq_false_iff.mp habs), if_pos (by rw [hready]; rfl)]
    have hone : xferOne k a b s t = xferOfBlock k b s t blk := by
      rw [xferOne_inside hin, if_neg (Bool.eq_false_iff.mp habs), if_neg (by rw [hready]; decide)]
    rw [hone]
    refine ⟨fun h => xferOfBlock_fault (xferBlockFault_barAlign h), fun h hi => xferOfBlock_fault (xferBlockFault_idxAlign h hi), ?_⟩
    intro size barAt idxAt idxEnd aligned barOut idxOut fits
    have hfault {x : Option FaultRec} : aligned → (if xferIllegal k blk then some (plainFault s t .illegal)
      else if barOut then some (violFault s t 8 1 barAt)
      else if idxOut then some (violFault s t 8 1 (max idxAt size)) else none) = x → xferBlockFault s t k blk = x :=
      fun ha hx => (xferBlockFault_aligned ha).trans hx
    have hlegal (h : ¬ BlockIllegal k blk) : ¬ xferIllegal k blk = true := (xferIllegal_iff blk k).not.mpr h
    have hfits (h : fits) : xferBlockFault s t k blk = none := by
      obtain ⟨ha, hill, hbar, hidx⟩ := h
      exact hfault ha ((if_neg (hlegal hill)).trans ((if_neg hbar).trans (if_neg hidx)))
    refine ⟨fun ha hill => xferOfBlock_fault (hfault ha (if_pos ((xferIllegal_iff blk k).mpr hill))),
      fun ha hill hbar => xferOfBlock_fault (hfault ha ((if_neg (hlegal hill)).trans (if_pos hbar))),
      fun ha hill hbar hidx => xferOfBlock_fault (hfault ha ((if_neg (hlegal hill)).trans ((if_neg hbar).trans (if_pos hidx)))),
      fun hf hsp => ?_, fun bar hf hbar => ?_⟩
    · have hout := xferBar_outside (s := s) (t := t) hsp
      refine ⟨fun h => xferOfBlock_barFault (hfits hf) ?_, fun n h => xferOfBlock_barFault (hfits hf) ?_,
        fun x h hcarve => xferOfBlock_barFault (hfits hf) ?_⟩
      · rw [hout, h]
      · rw [hout, h]
      · rw [hout, h]; simp only [hcarve]; rfl
    · rw [xferOfBlock_bar (hfits hf) hbar]
      refine ⟨xferOfBar_handle, fun src dst hsrc hdst => ?_⟩
      rw [xferOfBar_records hsrc hdst]
      exact xferOfRecords_cases k b s t blk bar src dst

end Sys2Proof.Machine
end

section
/-! PROOFS. O39: BANK_SERVE of a barrier entry in a table that names a thread twice (R76, R150, R283). -/

namespace Sys2Proof.Machine

/-- The thread whose BARR stands in a bank. -/
def twiceKey : ThreadKey := .home 0 0 0

/-- The thread at its BARR: Stalled until its entry is served (R283). -/
def stalledAtBar : Thread := { freshThread 0x84 ⟨⟨0, 0⟩, 0, 0⟩ with status := .live .stalled, inBar := some (0, Regs.zero) }

/-- Its entry: one lane, on the object at offset 0. -/
def barrEntry : BankEntry :=
  { word := 0, core := ⟨0, 0⟩, bank := 0, gid := 0, age := 0, quarter := 0, lines := [0], lanes := [⟨twiceKey, 0, 0, 0, 0⟩]
    body := .bar .barr }

/-- Its group: the object at offset 0 awaits two arrivals, and its owner tag is that of the group. -/
def barrGroup : Group := { plainGroup .resident with scratch := memPut [] 16 2 2 }

/-- The package after reset with the entry in its bank. The thread stands twice in the table: Stalled, and Exiting with nothing out. -/
def twiceThreaded : State :=
  { State.reset with
    groups := [(0, barrGroup)]
    banks := [barrEntry]
    threads := [(twiceKey, stalledAtBar), (twiceKey, { stalledAtBar with status := .live .exiting })] }

theorem groupOf_twiceThreaded : groupOf twiceThreaded 0 = some barrGroup := rfl

theorem threadOf_twiceThreaded : threadOf twiceThreaded twiceKey = some stalledAtBar := rfl

theorem noStepDue_twiceThreaded : NoStepDue twiceThreaded := by
  intro e he
  simp only [twiceThreaded, List.mem_cons, List.not_mem_nil, or_false] at he
  rcases he with rfl | rfl
  · decide
  · decide

theorem pickEntry_twiceThreaded : pickEntry twiceThreaded ⟨0, 0⟩ 0 = some (barrEntry, false) := by rfl

/-- What the lane is to get: the generation that it has arrived in. -/
theorem barRun_twiceThreaded : (barRun .barr (tagOf twiceThreaded (.scratch 0)) [⟨twiceKey, 0, 0⟩]
    (barRead twiceThreaded 0 (.scratch 0))).2 = [(⟨twiceKey, 0, 0⟩, .done (BitVec.ofNat 256 (2 ^ 128)) (some 0))] := by decide +kernel

/-- BANK_SERVE ends the thread: the second of its rows is Exiting with nothing out, and the end goes to the first (R76). -/
theorem status_twiceThreaded (s' : State) (h : exec (.bankServe ⟨0, 0⟩ 0) twiceThreaded = .next s') :
    (threadOf s' twiceKey).map Thread.status = some .ended := by
  have hrun : exec (.bankServe ⟨0, 0⟩ 0) twiceThreaded =
      .next (settleAccess (serveEntry { twiceThreaded with banks := twiceThreaded.banks.erase barrEntry } barrEntry)) := by
    rw [show exec (.bankServe ⟨0, 0⟩ 0) twiceThreaded = execBankServe ⟨0, 0⟩ 0 twiceThreaded from rfl, execBankServe, pickEntry_twiceThreaded]
    rfl
  cases hrun.symm.trans h
  decide +kernel

/-- Refutes O39: the statement ranges over states whose table of threads names a thread twice. Where the thread of a served BARR stands
in the table as Stalled and once more as Exiting, the end of the exit (R76) reaches its first row, and the thread does not stay Stalled. -/
theorem not_barrierService : ¬ Obligations.BarrierService := by
  unfold Obligations.BarrierService
  intro h
  obtain ⟨served, -⟩ := h.1 ⟨0, 0⟩ 0 twiceThreaded barrEntry false .barr ⟨twiceKey, 0, 0, 0, 0⟩ [] barrGroup pickEntry_twiceThreaded rfl rfl
    groupOf_twiceThreaded (List.nodup_singleton _) (fun l hl => by rw [List.mem_singleton.mp hl]; rfl) noStepDue_twiceThreaded
  have hlane := barRun_twiceThreaded
  obtain ⟨s', hrun, -, -, hgets⟩ := served fun q hq n hn => by
    obtain rfl := List.mem_singleton.mp ((congrArg (q ∈ ·) hlane).mp hq)
    cases hn
  obtain ⟨th', hth', -, hstatus, -⟩ := hgets _ ((congrArg (_ ∈ ·) hlane).mpr (List.mem_singleton_self _)) _ 0 stalledAtBar rfl (by decide) threadOf_twiceThreaded
    (.inl rfl)
  have hended := status_twiceThreaded s' hrun
  rw [hth', Option.map_some, hstatus] at hended
  cases hended

end Sys2Proof.Machine
end

section
/-! SUPPORT. What a command makes of a barrier object, and the checks of its word, by the fields of R276 (R278, R281, R282). -/

namespace Sys2Proof.Machine

/-! ### One field replaced -/

theorem pending_eq (o : BitVec 256) (v : Nat) : bvput o 143 128 v =
    barWith o (o.extractLsb' 168 8) false (o.extractLsb' 160 4) (BitVec.ofNat 16 v) (o.extractLsb' 64 56) (o.extractLsb' 0 56) := by
  refine eq_barWith ?_ ?_ (extractLsb'_bvput_same _ (by decide) (by decide) (by decide) v) ?_ ?_ ?_
  all_goals simp [extractLsb'_bvput_ne]

theorem ins_eq (o : BitVec 256) (v : Nat) : bvput o 119 64 v =
    barWith o (o.extractLsb' 168 8) false (o.extractLsb' 160 4) (o.extractLsb' 128 16) (BitVec.ofNat 56 v) (o.extractLsb' 0 56) := by
  refine eq_barWith ?_ (extractLsb'_bvput_same _ (by decide) (by decide) (by decide) v) ?_ ?_ ?_ ?_
  all_goals simp [extractLsb'_bvput_ne]

theorem outs_eq (o : BitVec 256) (v : Nat) : bvput o 55 0 v =
    barWith o (o.extractLsb' 168 8) false (o.extractLsb' 160 4) (o.extractLsb' 128 16) (o.extractLsb' 64 56) (BitVec.ofNat 56 v) := by
  refine eq_barWith (extractLsb'_bvput_same _ (by decide) (by decide) (by decide) v) ?_ ?_ ?_ ?_ ?_
  all_goals simp [extractLsb'_bvput_ne]

/-- An arrival that goes to the phase after the next: OvrCount rises and Ovr is set (R282). -/
theorem ovr_eq (o : BitVec 256) (v : Nat) : bvput (bvput o 175 168 v) 164 164 1 =
    barWith o (BitVec.ofNat 8 v) true (o.extractLsb' 160 4) (o.extractLsb' 128 16) (o.extractLsb' 64 56) (o.extractLsb' 0 56) := by
  have hovr : (bvput o 175 168 v).extractLsb' 168 8 = BitVec.ofNat 8 v :=
    extractLsb'_bvput_same _ (by decide) (by decide) (by decide) v
  have hcarry : (bvput (bvput o 175 168 v) 164 164 1).extractLsb' 164 1 = BitVec.ofNat 1 1 :=
    extractLsb'_bvput_same _ (by decide) (by decide) (by decide) 1
  refine eq_of_sections barFields barFields_cover ?_
  simp [barFields, extractLsb'_bvput_ne, hovr, hcarry]

/-! ### Commands (R282) -/

theorem barGen_eq (o : BitVec 256) : barGen o = (o.extractLsb' 160 4).toNat := bvf_eq o rfl

theorem barPending_eq (o : BitVec 256) : barPending o = (o.extractLsb' 128 16).toNat := bvf_eq o rfl

theorem barGen_ne_iff (o : BitVec 256) (b : Nat) : barGen o ≠ b % 16 ↔ o.extractLsb' 160 4 ≠ BitVec.ofNat 4 b := by
  rw [barGen_eq, ne_eq, ne_eq, ← BitVec.toNat_inj, BitVec.toNat_ofNat]

theorem barPending_pos_iff (o : BitVec 256) : 0 < barPending o ↔ o.extractLsb' 128 16 ≠ 0 := by
  rw [barPending_eq, Nat.pos_iff_ne_zero, ne_eq, ne_eq, ← BitVec.toNat_inj]
  rfl

/-- A bit as a number. -/
theorem bvf_bit {n : Nat} (x : BitVec n) (k : Nat) : bvf x k k = if x.getLsbD k then 1 else 0 := by
  rw [bvf_eq x (l := 1) rfl, BitVec.extractLsb'_toNat, ← BitVec.testBit_toNat, Nat.shiftRight_eq_div_pow, Nat.testBit_eq_decide_div_mod_eq]
  rcases Nat.mod_two_eq_zero_or_one (x.toNat / 2 ^ k) with h | h <;> simp [h]

theorem barResult_eq (o : BitVec 256) : barResult o =
    (o.extractLsb' 160 4).toNat + (if o.getLsbD 164 then 256 else 0) + if o.getLsbD 165 then 512 else 0 := by
  rw [barResult, barGen_eq, bvf_bit, bvf_bit]
  split <;> split <;> rfl

/-- A count of arrivals, one less. -/
theorem ofNat_toNat_pred (x : BitVec 16) (h : x ≠ 0) : BitVec.ofNat 16 (x.toNat - 1) = x - 1 := by
  have hpos : x.toNat ≠ 0 := fun hz => h (BitVec.eq_of_toNat_eq (hz.trans rfl))
  have hlt := x.isLt
  bv_omega

/-- A count of a phase that is not over falls by one, and the object is tested. -/
theorem barArrive_pending {o : BitVec 256} (h : o.extractLsb' 128 16 ≠ 0) :
    barTest (bvput o 143 128 (barPending o - 1)) = testRule (barWith o (o.extractLsb' 168 8) false (o.extractLsb' 160 4)
      (o.extractLsb' 128 16 - 1) (o.extractLsb' 64 56) (o.extractLsb' 0 56)) := by
  rw [barTest_eq, pending_eq, barPending_eq, ofNat_toNat_pred _ h]

theorem barArrive_barrx (o : BitVec 256) (tag b : Nat) : barArrive o true b = commandRule .barrx tag b o := by
  unfold barArrive commandRule
  simp only [true_and, if_true, barGen_ne_iff, barPending_pos_iff]
  split
  · rfl
  · split
    next h => rw [barArrive_pending h, barGen_eq]
    next => rfl

theorem barArrive_barr (o : BitVec 256) (tag b : Nat) : barArrive o false b = commandRule .barr tag b o := by
  have hovr : barOvrCount o = (o.extractLsb' 168 8).toNat := bvf_eq o rfl
  have hexp : barExpected o = (o.extractLsb' 144 16).toNat := bvf_eq o rfl
  unfold barArrive commandRule
  simp only [Bool.false_eq_true, false_and, if_false, barPending_pos_iff, hovr, hexp]
  split
  next h => rw [barArrive_pending h, barGen_eq]
  next =>
    split
    · rfl
    · have hinc : BitVec.ofNat 8 ((o.extractLsb' 168 8).toNat + 1) = o.extractLsb' 168 8 + 1 := by
        rw [BitVec.ofNat_add, BitVec.ofNat_toNat, BitVec.setWidth_eq]; rfl
      have hgen : (barGen o + 1) % 16 = (o.extractLsb' 160 4 + 1).toNat := by rw [barGen_eq]; rfl
      rw [ovr_eq, hinc, hgen]

/-- A count of 56 bits rises. -/
theorem ofNat_count_add (x : BitVec 56) (b : Nat) : BitVec.ofNat 56 ((x.toNat + b) % 2 ^ 56) = x + BitVec.ofNat 56 b := by
  refine BitVec.eq_of_toNat_eq ?_
  simp only [BitVec.toNat_ofNat, BitVec.toNat_add]
  omega

/-- BINIT: the tag of the issuer, and both counts of arrivals (R282). -/
theorem binit_eq (tag b : Nat) : BitVec.ofNat 256 (tag * 2 ^ 192 + b % 65536 * 2 ^ 144 + b % 65536 * 2 ^ 128) =
    BitVec.ofNat 64 tag ++ 0#32 ++ BitVec.ofNat 16 b ++ BitVec.ofNat 16 b ++ 0#128 := by
  refine BitVec.eq_of_toNat_eq ?_
  simp only [toNat_append_add, BitVec.toNat_ofNat]
  omega

theorem barCommand_eq (op : BarOp) (tag b : Nat) (o : BitVec 256) : barCommand op tag b o =
    if op ≠ .binit ∧ tagMatch (o.extractLsb' 192 64).toNat tag = false then .bovr 2 else commandRule op tag b o := by
  have htag : o.toNat / 2 ^ 192 = (o.extractLsb' 192 64).toNat := by
    rw [BitVec.extractLsb'_toNat, Nat.shiftRight_eq_div_pow, Nat.mod_eq_of_lt (by have := o.isLt; omega)]
  have hin : barIn o = (o.extractLsb' 64 56).toNat := bvf_eq o rfl
  have hout : barOut o = (o.extractLsb' 0 56).toNat := bvf_eq o rfl
  unfold barCommand
  rw [htag]
  cases hm : tagMatch (o.extractLsb' 192 64).toNat tag with
  | false =>
    cases op with
    | binit => exact congrArg (BarRes.done · none) (binit_eq tag b)
    | _ => simp
  | true =>
    simp only [Bool.true_eq_false, and_false, if_false, Bool.not_true, Bool.false_eq_true]
    cases op with
    | binit => exact congrArg (BarRes.done · none) (binit_eq tag b)
    | barr => exact barArrive_barr o tag b
    | barrx => exact barArrive_barrx o tag b
    | bwait =>
      simp only [barGen_ne_iff, ite_not, barResult_eq]
      rfl
    | bxin =>
      simp only [hin, barTest_eq, ins_eq, ofNat_count_add]
      rfl
    | bxout =>
      simp only [hout, barTest_eq, outs_eq, ofNat_count_add]
      rfl

/-! ### The checks at issue (R281) -/

/-- An address with bits 4:0 clear is a multiple of 32. -/
theorem mod_32_of_bits {a : Word} (h1 : a.extractLsb' 1 4 = 0) (h0 : a.getLsbD 0 = false) : a.toNat % 32 = 0 := by
  have h1 := congrArg BitVec.toNat h1
  rw [BitVec.extractLsb'_toNat, Nat.shiftRight_eq_div_pow] at h1
  rw [← BitVec.testBit_toNat, Nat.testBit_zero, decide_eq_false_iff_not] at h0
  simp only [BitVec.ofNat_eq_ofNat, BitVec.toNat_ofNat] at h1
  omega

/-- The address of a carve-out object without bit 0. -/
theorem toNat_pred_of_odd {a : Word} (h : a.getLsbD 0 = true) : a.toNat - 1 = (a - 1).toNat := by
  rw [← BitVec.testBit_toNat, Nat.testBit_zero, decide_eq_true_eq] at h
  have hlt := a.isLt
  simp only [BitVec.toNat_sub, BitVec.ofNat_eq_ofNat, BitVec.toNat_ofNat]
  omega

theorem barReq_rule (s : State) (t : ThreadKey) (op : BarOp) (a b : Word) : (barReq s t op a b).1 = barRequest s t op a b := by
  have hreserved : (op == .binit && bvf b 63 16 != 0) = decide (op = .binit ∧ b.extractLsb' 16 48 ≠ 0) := by
    simp only [Bool.decide_and, bne, decide_not, Bool.beq_eq_decide_eq, bvf_eq b (l := 48) rfl, ← BitVec.toNat_inj]
    rfl
  have halign : bvf a 4 1 ≠ 0 ↔ a.extractLsb' 1 4 ≠ 0 := bvf_ne_zero a rfl
  unfold barReq barRequest
  rw [hreserved]
  by_cases h4 : a.extractLsb' 1 4 = 0
  · simp only [halign, h4, ne_eq, not_true_eq_false, if_false]
    cases h0 : a.getLsbD 0 with
    | false =>
      simp only [if_true, Bool.false_eq_true, if_false]
      rw [offFault, mod_32_of_bits h4 h0]
      simp only [ne_eq, not_true_eq_false, if_false]
      by_cases hs : scratchSize s t < a.toNat + 32
      · simp only [hs, if_true]
      · simp only [hs, if_false, decide_eq_true_eq]
        split <;> rfl
    | true =>
      simp only [Bool.true_eq_false, if_true, if_false, toNat_pred_of_odd h0]
      split
      next => rfl
      next => rfl
      next x hr =>
        simp only [Bool.or_eq_true, decide_eq_true_eq, Bool.not_eq_true']
        split <;> rfl
  · simp only [halign, h4, ne_eq, not_false_eq_true, if_true]

end Sys2Proof.Machine
end

section
/-! SUPPORT. What the acts on barrier objects leave of the threads: where they stand, and those that wait on no object (R279, R282, R283). -/

namespace Sys2Proof.Machine

/-! ### Threads that stay where they are -/

/-- No step stops at the end of a wait (R356). -/
def NoneDue (s : State) : Prop := ∀ t th, threadOf s t = some th → th.step ≠ .counted

theorem noneDue_of_noStepDue {s : State} (h : NoStepDue s) : NoneDue s := fun _ _ hth => h _ (mem_of_tget hth)

theorem NoneDue.congr {s s' : State} (h : NoneDue s) (hth : s'.threads = s.threads) : NoneDue s' := fun t th ht =>
  h t th (by rwa [threadOf, ← hth])

/-- Where a thread stands: its program counter, and its step. -/
def Thread.seat (th : Thread) : Word × StepMark := (th.pc, th.step)

/-- The act changes one thread at most, and that one stays where it is. -/
def Touches (t : ThreadKey) (s s' : State) : Prop :=
  ∃ f : Thread → Thread, (∀ th, (f th).seat = th.seat) ∧ ∀ u, threadOf s' u = if t = u then (threadOf s t).map f else threadOf s u

/-- Every thread stays where it is, and those that meet `p` stay as they are. -/
structure Seated (p : Thread → Bool) (s s' : State) : Prop where
  kept : ∀ {t th}, threadOf s t = some th → ∃ th', threadOf s' t = some th' ∧ th'.seat = th.seat ∧ (p th = true → th' = th)
  absent : ∀ {t}, threadOf s t = none → threadOf s' t = none

namespace Touches

variable {s s' s'' : State} {t : ThreadKey}

theorem of_threads (h : s'.threads = s.threads) : Touches t s s' := by
  refine ⟨id, fun _ => rfl, fun u => ?_⟩
  rw [Option.map_id, threadOf, h]
  split
  next e => rw [← e]; rfl
  next => rfl

theorem trans (h : Touches t s s') (h' : Touches t s' s'') : Touches t s s'' := by
  obtain ⟨f, hf, hs⟩ := h
  obtain ⟨g, hg, hs'⟩ := h'
  refine ⟨g ∘ f, fun th => (hg _).trans (hf th), fun u => ?_⟩
  rw [hs', hs, hs]
  split
  · rw [if_pos rfl, Option.map_map]
  · rfl

theorem noneDue (h : Touches t s s') (hn : NoneDue s) : NoneDue s' := by
  obtain ⟨f, hf, hs⟩ := h
  intro u th hu
  rw [hs] at hu
  split at hu
  next =>
    obtain ⟨x, hx, rfl⟩ := Option.map_eq_some_iff.mp hu
    rw [show (f x).step = x.step from congrArg Prod.snd (hf x)]
    exact hn t x hx
  next => exact hn u th hu

theorem seated {p : Thread → Bool} (h : Touches t s s') (hp : ∀ th, threadOf s t = some th → p th = false) : Seated p s s' := by
  obtain ⟨f, hf, hs⟩ := h
  refine ⟨fun {u th} hu => ?_, fun {u} hu => ?_⟩
  · rw [hs]
    split
    next e =>
      subst e
      exact ⟨f th, by rw [hu]; rfl, hf th, fun hc => by rw [hp th hu] at hc; cases hc⟩
    next => exact ⟨th, hu, rfl, fun _ => rfl⟩
  · rw [hs]
    split
    next e => subst e; rw [hu]; rfl
    next => exact hu

end Touches

namespace Seated

variable {p : Thread → Bool} {s s' s'' : State}

theorem of_threads (h : s'.threads = s.threads) : Seated p s s' := by
  refine ⟨fun {t th} ht => ⟨th, ?_, rfl, fun _ => rfl⟩, fun {t} ht => ?_⟩
  · rwa [threadOf, h]
  · rwa [threadOf, h]

theorem refl (s : State) : Seated p s s := of_threads rfl

theorem trans (h : Seated p s s') (h' : Seated p s' s'') : Seated p s s'' := by
  refine ⟨fun {t th} ht => ?_, fun {t} ht => h'.absent (h.absent ht)⟩
  obtain ⟨th', ht', hseat, hsame⟩ := h.kept ht
  obtain ⟨th'', ht'', hseat', hsame'⟩ := h'.kept ht'
  refine ⟨th'', ht'', hseat'.trans hseat, fun hp => ?_⟩
  obtain rfl := hsame hp
  exact hsame' hp

theorem noneDue (h : Seated p s s') (hn : NoneDue s) : NoneDue s' := by
  intro t th' ht'
  cases ht : threadOf s t with
  | none => rw [h.absent ht] at ht'; cases ht'
  | some th =>
    obtain ⟨x, hx, hseat, -⟩ := h.kept ht
    obtain rfl : x = th' := Option.some.inj (hx.symm.trans ht')
    rw [show x.step = th.step from congrArg Prod.snd hseat]
    exact hn t th ht

theorem foldl {α : Type} {F : State → α → State} (hF : ∀ a x, NoneDue a → Seated p a (F a x)) (l : List α) (hs : NoneDue s) :
    Seated p s (l.foldl F s) := by
  induction l generalizing s with
  | nil => exact refl s
  | cons x l ih =>
    have h1 := hF s x hs
    exact h1.trans (ih (h1.noneDue hs))

theorem pcOf_eq (h : Seated p s s') (t : ThreadKey) : pcOf s' t = pcOf s t := by
  cases ht : threadOf s t with
  | none => rw [pcOf, pcOf, ht, h.absent ht]
  | some th =>
    obtain ⟨th', ht', hseat, -⟩ := h.kept ht
    rw [Machine.pcOf_eq ht', Machine.pcOf_eq ht]
    exact congrArg Prod.fst hseat

end Seated

/-! ### Acts on one thread -/

theorem modThread_touches (s : State) (t : ThreadKey) {f : Thread → Thread} (hf : ∀ th, (f th).seat = th.seat) :
    Touches t s (modThread s t f) := ⟨f, hf, fun u => threadOf_modThread s t u f⟩

theorem deliverTo_touches (s : State) (t : ThreadKey) (tag : Nat) (v : Word) : Touches t s (deliverTo s t tag v) :=
  modThread_touches s t fun _ => rfl

theorem wokenThread_seat (n : Nat) (th : Thread) : (wokenThread n th).seat = th.seat := by
  unfold wokenThread
  split <;> rfl

theorem wakeThread_touches {s : State} (hn : NoneDue s) (t : ThreadKey) (n : Nat) : Touches t s (wakeThread s t n) :=
  ⟨wokenThread n, wokenThread_seat n, threadOf_wakeThread (hn t) n⟩

theorem barDeliver_touches (s : State) (t : ThreadKey) (tag : Nat) (v : Word) : Touches t s (barDeliver s t tag v) := by
  unfold barDeliver
  split
  · exact .of_threads rfl
  · exact deliverTo_touches ..

theorem acquireAct_threads (s : State) (c : CoreId) (sc : Scope) : (acquireAct s c sc).threads = s.threads := by
  rw [(acquireAct_act s c sc).rest]; rfl

theorem barReturn_touches {s : State} (hn : NoneDue s) (t : ThreadKey) (b : BarObj) (o : BitVec 256) (tag : Nat) :
    Touches t s (barReturn s t b o tag) := by
  unfold barReturn
  extract_lets s1
  have h1 : Touches t s (acquireAct s1 (coreOfThread s1 t) (wider (barScope b) (numScope (bvf o 167 166)))) :=
    (barDeliver_touches ..).trans (.of_threads (acquireAct_threads ..))
  exact h1.trans (wakeThread_touches (h1.noneDue hn) t 5)

/-- A lane parks, or its return is dropped. -/
theorem barPark_touches (s : State) (b : BarObj) (l : BarLane) (held : Bool) : Touches l.thread s (barPark s b l held) := by
  unfold barPark
  split
  · exact .of_threads rfl
  · exact modThread_touches _ _ fun _ => rfl

theorem barLaneDone_touches (s : State) (b : BarObj) (l : BarLane) (r : BarRes) : Touches l.thread s (barLaneDone s b l r) := by
  have h0 : Touches l.thread s (modThread s l.thread fun th => { th with inBar := none }) := modThread_touches _ _ fun _ => rfl
  unfold barLaneDone
  extract_lets s0 gid
  split
  · exact h0.trans (barDeliver_touches ..)
  · exact h0
  · exact h0.trans (barPark_touches ..)
  · exact h0

theorem barBwaitDone_touches (s : State) (b : BarObj) (o : BitVec 256) (l : BarLane) : Touches l.thread s (barBwaitDone s b o l) := by
  have h0 : Touches l.thread s (modThread s l.thread fun th => { th with inBar := none }) := modThread_touches _ _ fun _ => rfl
  unfold barBwaitDone
  extract_lets gid s0 s1
  split
  · exact h0.trans (barPark_touches ..)
  · exact (h0.trans (barDeliver_touches ..)).trans (.of_threads (acquireAct_threads ..))

/-! ### The waiters of an object (R279) -/

/-- The thread does not wait on a barrier object. -/
def Thread.offBarrier (th : Thread) : Bool :=
  match th.wait? with
  | some (.barrier _ _ _ _) => false
  | _ => true

theorem testWaiter_seated {s : State} (hn : NoneDue s) (t : ThreadKey) : Seated Thread.offBarrier s (testWaiter s t) := by
  unfold testWaiter
  split
  next b gen held tag hwait =>
    obtain ⟨th, hth, hw⟩ := Option.bind_eq_some_iff.mp hwait
    have hp (x : Thread) (hx : threadOf s t = some x) : x.offBarrier = false := by
      obtain rfl := Option.some.inj (hx.symm.trans hth)
      rw [Thread.offBarrier, hw]
    extract_lets gid o
    split
    · split
      · exact Touches.seated (modThread_touches _ _ fun _ => by rfl) hp
      · exact .refl s
    · split
      · exact Touches.seated (modThread_touches _ _ fun _ => by rfl) hp
      · exact (barReturn_touches hn ..).seated hp
  next => exact .refl s

theorem testWaiters_seated {s : State} (hn : NoneDue s) (gid : Nat) (b : BarObj) : Seated Thread.offBarrier s (testWaiters s gid b) := by
  have hq (x : State) : (queueSaved x b).threads = x.threads := by cases b <;> rfl
  exact (Seated.foldl (fun a t ha => testWaiter_seated ha t) (waitersOf s gid b) hn).trans (.of_threads (hq _))

/-- Where no thread has to stay as it is. -/
theorem Seated.weaken {p : Thread → Bool} {s s' : State} (h : Seated p s s') : Seated (fun _ => false) s s' :=
  ⟨fun ht => (h.kept ht).imp fun _ hx => ⟨hx.1, hx.2.1, fun hc => by cases hc⟩, h.absent⟩

theorem barWrite_threads (s : State) (gid : Nat) (b : BarObj) (o : BitVec 256) : (barWrite s gid b o).threads = s.threads := by
  cases b with
  | scratch off => rfl
  | carve pa => rw [barWrite, hitWatches]

theorem barLaneRun_seated {s : State} (hn : NoneDue s) (gid : Nat) (op : BarOp) (b : BarObj) (x : BarLane × BarRes) :
    Seated (fun _ => false) s (barLaneRun gid op b s x) := by
  unfold barLaneRun
  extract_lets s1
  have h1 : Touches x.1.thread s s1 := by
    unfold s1
    split
    · exact barBwaitDone_touches ..
    · exact (Touches.of_threads (barWrite_threads ..)).trans (barLaneDone_touches ..)
    · exact barLaneDone_touches ..
  exact (h1.seated fun _ _ => rfl).trans (testWaiters_seated (h1.noneDue hn) gid b).weaken

theorem barEntry_seated {s : State} (hn : NoneDue s) (gid : Nat) (op : BarOp) (b : BarObj) (lanes : List BarLane) (pc : ThreadKey → Word) :
    Seated (fun _ => false) s (barEntry s gid op b lanes pc).2 := by
  unfold barEntry
  extract_lets r
  split
  · exact .refl s
  · exact .foldl (fun a x ha => barLaneRun_seated ha gid op b x) _ hn

end Sys2Proof.Machine
end

section
/-! SUPPORT. A barrier word from its checks to its entries: the threads, their pace, and the objects that fault (R150, R281 to R283, R300). -/

namespace Sys2Proof.Machine

/-! ### The checks at issue (R281) -/

theorem barReq_walked (s : State) (t : ThreadKey) (op : BarOp) (a b : Word) : Walked s (barReq s t op a b).2 := by
  unfold barReq
  extract_lets bad
  split
  · exact .refl s
  · split
    · split
      · exact .refl s
      · exact .refl s
    · have hr : Walked s (translateFor s t (a.toNat - 1) ⟨true, true, false⟩).2 := translate_walked ..
      split
      · exact hr
      · exact hr
      · exact hr

/-- The check of a thread gives its own fault, or its own part of the word. -/
theorem barReq_thread (s : State) (t : ThreadKey) (op : BarOp) (a b : Word) :
    Sum.elim FaultRec.thread BarReq.thread (barReq s t op a b).1 = t := by
  rw [barReq_rule]
  unfold barRequest
  extract_lets illegal reserved va
  have hcheck (p : Prop) [Decidable p] (r : BarReq) (hr : r.thread = t) :
      Sum.elim FaultRec.thread BarReq.thread (if p then illegal else .inr r) = t := by
    split
    · rfl
    · exact hr
  split
  · rfl
  · split
    · split
      · rfl
      · rfl
      · exact hcheck _ _ rfl
    · split
      · rfl
      · exact hcheck _ _ rfl

section Requests

variable (op : BarOp) (a b : ThreadKey → Word)

theorem barReqs_walked (ts : List ThreadKey) (s : State) : Walked s (barReqs s op a b ts).2.2 := by
  induction ts generalizing s with
  | nil => exact .refl s
  | cons t ts ih =>
    have h := (barReq_walked s t op (a t) (b t)).trans (ih _)
    unfold barReqs
    extract_lets r q
    split
    · exact h
    · exact h

/-- The faults are those of threads of the word, each of them once. -/
theorem barReqs_faults (ts : List ThreadKey) (s : State) : ((barReqs s op a b ts).1.map (·.thread)).Sublist ts := by
  induction ts generalizing s with
  | nil => exact .slnil
  | cons t ts ih =>
    have ht := barReq_thread s t op (a t) (b t)
    have ih := ih (barReq s t op (a t) (b t)).2
    unfold barReqs
    extract_lets r q
    split
    next f hf =>
      rw [hf] at ht
      rw [List.map_cons, show f.thread = t from ht]
      exact ih.cons_cons t
    next => exact ih.cons t

/-- Where none faults, each thread of the word has its part. -/
theorem barReqs_threads (ts : List ThreadKey) (s : State) (h : (barReqs s op a b ts).1 = []) :
    (barReqs s op a b ts).2.1.map (·.thread) = ts := by
  induction ts generalizing s with
  | nil => rfl
  | cons t ts ih =>
    have ht := barReq_thread s t op (a t) (b t)
    have ih := ih (barReq s t op (a t) (b t)).2
    unfold barReqs at h ⊢
    extract_lets at h ⊢
    split
    next f hf => rw [hf] at h; cases h
    next x hx =>
      rw [hx] at h ht
      rw [List.map_cons, ih h, show x.thread = t from ht]

end Requests

/-! ### What the entries leave (R150, R283, R300) -/

theorem recallGroup_seated (s : State) (g : Nat) : Seated (fun _ => false) s (recallGroup s g) := by
  have hth (t : ThreadKey) : threadOf (recallGroup s g) t = (threadOf s t).map fun th =>
      recalledIf (gidOf t = some g ∧ (th.away.isSome ∧ !th.isEnded)) th := by
    refine tget_map s.threads _ (fun k th => recalledIf (gidOf k = some g ∧ (th.away.isSome ∧ !th.isEnded)) th) (fun k th => ?_) t
    unfold recalledIf
    dsimp only
    split <;> rfl
  refine ⟨fun {t th} ht => ⟨recalledIf (gidOf t = some g ∧ (th.away.isSome ∧ !th.isEnded)) th, by rw [hth, ht]; rfl, ?_, fun hc => by cases hc⟩,
    fun {t} ht => by rw [hth, ht]; rfl⟩
  unfold recalledIf
  split <;> rfl

theorem recallGroup_pace (s : State) (g : Nat) : PaceKept s (recallGroup s g) := by
  refine .of_threads rfl rfl fun t th' ht => .inr ?_
  cases hth : threadOf s t with
  | none => rw [(recallGroup_seated s g).absent hth] at ht; cases ht
  | some th =>
    obtain ⟨x, hx, hseat, -⟩ := (recallGroup_seated s g).kept hth
    obtain rfl : x = th' := Option.some.inj (hx.symm.trans ht)
    exact ⟨th, rfl, congrArg Prod.snd hseat⟩

theorem barGive_touches (s : State) (d : Option PDst) (t : ThreadKey) (tag : Nat) : Touches t s (barGive s d t tag) := by
  cases d with
  | none => exact .of_threads rfl
  | some p => exact modThread_touches _ _ fun _ => rfl

theorem barGive_pace (s : State) (d : Option PDst) (t : ThreadKey) (tag : Nat) : PaceKept s (barGive s d t tag) := by
  cases d with
  | none => exact .refl s
  | some p => exact giveThread_pace ..

/-- The thread of a barrier word is Stalled until its entry is served (R283). -/
theorem barStall_touches (s : State) (t : ThreadKey) (tag : Nat) :
    Touches t s (modThread s t fun th => { th with inBar := some (tag, th.regs), status := .live .stalled }) :=
  modThread_touches _ _ fun _ => rfl

theorem barStall_pace (s : State) (t : ThreadKey) (tag : Nat) :
    PaceKept s (modThread s t fun th => { th with inBar := some (tag, th.regs), status := .live .stalled }) :=
  modThread_pace _ _ _ fun _ => .inr rfl

theorem holdOnLines_touches (s : State) (r : Req) : Touches r.lane.thread s (holdOnLines s r) := by
  unfold holdOnLines
  split
  · exact modThread_touches _ _ fun _ => rfl
  · exact .of_threads rfl

theorem holdOnLines_pace (s : State) (r : Req) : PaceKept s (holdOnLines s r) := by
  unfold holdOnLines
  split
  · exact waitThread_pace ..
  · exact .refl s

theorem barCount_threads (s : State) (d : Option PDst) (reqs : List Req) : (barCount s d reqs).threads = s.threads := by
  unfold barCount
  split <;> rfl

theorem barCount_pace (s : State) (d : Option PDst) (reqs : List Req) : PaceKept s (barCount s d reqs) := by
  unfold barCount
  split
  · exact .refl s
  · exact .of_eq rfl rfl rfl

/-- The entries on scratchpad objects enter their banks, and the threads stay where they are (R150, R283). -/
theorem barEnter_seated {s : State} (hn : NoneDue s) (op : BarOp) (d : Option PDst) (tag : Nat) (ws : List WarpKey) (rs : List BarReq) :
    Seated (fun _ => false) s (barEnter s op d tag ws rs) := by
  unfold barEnter
  extract_lets reqs es s1
  have h0 : Seated (fun _ => false) s (barCount { s with banks := s.banks ++ es } d reqs) := .of_threads (barCount_threads ..)
  have h1 : Seated (fun _ => false) s s1 := h0.trans (.foldl (fun a r _ =>
    ((barStall_touches a r.lane.thread tag).trans (barGive_touches ..)).seated fun _ _ => rfl) reqs (h0.noneDue hn))
  exact h1.trans (.foldl (fun a r _ => (holdOnLines_touches a r).seated fun _ _ => rfl) reqs (h1.noneDue hn))

theorem barEnter_pace (s : State) (op : BarOp) (d : Option PDst) (tag : Nat) (ws : List WarpKey) (rs : List BarReq) :
    PaceKept s (barEnter s op d tag ws rs) := by
  unfold barEnter
  extract_lets reqs es s1
  have h0 : PaceKept s { s with banks := s.banks ++ es } := .of_eq rfl rfl rfl
  have h1 : PaceKept s s1 := (h0.trans (barCount_pace _ d reqs)).trans (.foldl (fun a r =>
    (barStall_pace a r.lane.thread tag).trans (barGive_pace ..)) reqs _)
  exact h1.trans (.foldl holdOnLines_pace reqs _)

/-! ### Entries on carve-out objects (log 63) -/

theorem barDeliver_pace (s : State) (t : ThreadKey) (tag : Nat) (v : Word) : PaceKept s (barDeliver s t tag v) := by
  unfold barDeliver
  split
  · exact .of_eq rfl rfl rfl
  · exact deliverTo_pace ..

theorem barPark_pace (s : State) (b : BarObj) (l : BarLane) (held : Bool) : PaceKept s (barPark s b l held) := by
  unfold barPark
  split
  · exact .of_eq rfl rfl rfl
  · exact modThread_pace _ _ _ fun _ => .inr rfl

theorem barLaneRun_pace (gid : Nat) (op : BarOp) (b : BarObj) (s : State) (x : BarLane × BarRes) :
    PaceKept s (barLaneRun gid op b s x) := by
  have hout (a : State) (l : BarLane) : PaceKept a (modThread a l.thread fun th => { th with inBar := none }) :=
    modThread_pace _ _ _ fun _ => .inr rfl
  have hdone (a : State) (l : BarLane) (r : BarRes) : PaceKept a (barLaneDone a b l r) := by
    unfold barLaneDone
    extract_lets s0 g
    split
    · exact (hout a l).trans (barDeliver_pace ..)
    · exact hout a l
    · exact (hout a l).trans (barPark_pace ..)
    · exact hout a l
  have hbwait (a : State) (o : BitVec 256) (l : BarLane) : PaceKept a (barBwaitDone a b o l) := by
    unfold barBwaitDone
    extract_lets g s0 s1
    split
    · exact (hout a l).trans (barPark_pace ..)
    · exact ((hout a l).trans (barDeliver_pace ..)).trans (acquireAct_pace ..)
  unfold barLaneRun
  extract_lets s1
  have h1 : PaceKept s s1 := by
    unfold s1
    split
    · exact hbwait ..
    · exact (barWrite_pace ..).trans (hdone ..)
    · exact hdone ..
  exact h1.trans (testWaiters_pace ..)

theorem barEntry_pace (s : State) (gid : Nat) (op : BarOp) (b : BarObj) (lanes : List BarLane) (pc : ThreadKey → Word) :
    PaceKept s (barEntry s gid op b lanes pc).2 := by
  unfold barEntry
  extract_lets r
  split
  · exact .refl s
  · exact .foldl (barLaneRun_pace gid op b) _ s

theorem barCarve_pace (s : State) (op : BarOp) (d : Option PDst) (tag pa : Nat) (rs : List BarReq) :
    PaceKept s (barCarve s op d tag pa rs).2 := by
  unfold barCarve
  extract_lets mine gid lanes
  split
  · exact .refl s
  next s1 _ _ =>
    have h0 : PaceKept s (mine.foldl (fun a r => barGive a d r.thread tag) s) := .foldl (fun a r => barGive_pace a d r.thread tag) mine s
    have h1 : PaceKept s s1 := h0.trans (barEntry_pace ..)
    dsimp only
    split
    · exact h1
    · exact h1.trans (.of_eq rfl rfl rfl)

theorem barCarve_seated {s : State} (hn : NoneDue s) (op : BarOp) (d : Option PDst) (tag pa : Nat) (rs : List BarReq) :
    Seated (fun _ => false) s (barCarve s op d tag pa rs).2 := by
  unfold barCarve
  extract_lets mine gid lanes
  split
  · exact .refl s
  next s1 _ _ =>
    have h0 : Seated (fun _ => false) s (mine.foldl (fun a r => barGive a d r.thread tag) s) :=
      .foldl (fun a r _ => (barGive_touches a d r.thread tag).seated fun _ _ => rfl) mine hn
    have h1 : Seated (fun _ => false) s s1 := h0.trans (barEntry_seated (h0.noneDue hn) ..)
    dsimp only
    split
    · exact h1
    · exact h1.trans (.of_threads rfl)

/-! ### The faults of carve-out objects (R282) -/

/-- The lanes of an entry get their results in their order. -/
theorem barRun_lanes (op : BarOp) (tag : ThreadKey → Nat) (l : List BarLane) (o : BitVec 256) : (barRun op tag l o).2.map (·.1) = l := by
  induction l generalizing o with
  | nil => rfl
  | cons x l ih => exact congrArg (x :: ·) (ih _)

theorem barFaults_threads (s : State) (rs : List (BarLane × BarRes)) (pc : ThreadKey → Word) :
    ((barFaults s rs pc).map (·.thread)).Sublist (rs.map (·.1.thread)) := by
  rw [barFaults, List.map_filterMap]
  induction rs with
  | nil => exact .slnil
  | cons r rs ih =>
    obtain ⟨l, res⟩ := r
    cases res with
    | bovr n => exact ih.cons_cons l.thread
    | done o v => exact ih.cons l.thread
    | park => exact ih.cons l.thread

theorem mem_barFaults {s : State} {rs : List (BarLane × BarRes)} {pc : ThreadKey → Word} {f : FaultRec} (h : f ∈ barFaults s rs pc) :
    f.cause = .bovr ∧ f.pc = pc f.thread := by
  obtain ⟨r, -, hr⟩ := List.mem_filterMap.mp h
  split at hr
  · cases hr; exact ⟨rfl, rfl⟩
  · cases hr

theorem barEntry_faults (s : State) (gid : Nat) (op : BarOp) (b : BarObj) (lanes : List BarLane) (pc : ThreadKey → Word) :
    (barEntry s gid op b lanes pc).1 = barFaults s (barRun op (tagOf s b) lanes (barRead s gid b)).2 pc := by
  unfold barEntry
  extract_lets r
  split
  next h => exact h.symm
  next h => exact h.symm

theorem barCarve_faults_eq (s : State) (op : BarOp) (d : Option PDst) (tag pa : Nat) (rs : List BarReq) : ∃ gid : Nat,
    (barCarve s op d tag pa rs).1 = (barEntry s gid op (.carve pa) ((rs.filter fun r => r.obj = .carve pa).map fun r =>
      (⟨r.thread, r.b.toNat, tag⟩ : BarLane)) (pcOf s)).1 := by
  unfold barCarve
  extract_lets mine gid lanes
  refine ⟨gid, ?_⟩
  split
  next h => exact h.symm
  next h => exact h.symm

/-- The faults of a carve-out object are those of threads that name it, each of them once. -/
theorem barCarve_threads (s : State) (op : BarOp) (d : Option PDst) (tag pa : Nat) (rs : List BarReq) :
    ((barCarve s op d tag pa rs).1.map (·.thread)).Sublist ((rs.filter fun r => r.obj = .carve pa).map (·.thread)) := by
  obtain ⟨gid, h⟩ := barCarve_faults_eq s op d tag pa rs
  rw [h, barEntry_faults]
  have hlanes (l : List BarLane) (o : BitVec 256) :
      (barRun op (tagOf s (.carve pa)) l o).2.map (·.1.thread) = l.map (·.thread) := by
    rw [← congrArg (List.map BarLane.thread) (barRun_lanes op _ l o), List.map_map]; rfl
  have hsub := barFaults_threads s (barRun op (tagOf s (.carve pa)) ((rs.filter fun r => r.obj = .carve pa).map fun r =>
    (⟨r.thread, r.b.toNat, tag⟩ : BarLane)) (barRead s gid (.carve pa))).2 (pcOf s)
  rwa [hlanes, List.map_map] at hsub

/-- The faults of a carve-out object: BOVR at the word. -/
theorem barCarve_bovr {s : State} {op : BarOp} {d : Option PDst} {tag pa : Nat} {rs : List BarReq} {f : FaultRec}
    (hf : f ∈ (barCarve s op d tag pa rs).1) : f.cause = .bovr ∧ f.pc = pcOf s f.thread := by
  obtain ⟨gid, h⟩ := barCarve_faults_eq s op d tag pa rs
  rw [h, barEntry_faults] at hf
  exact mem_barFaults hf

section Carves

variable (op : BarOp) (d : Option PDst) (tag : Nat) (rs : List BarReq)

theorem barCarves_pace (l : List Nat) (s : State) : PaceKept s (barCarves s op d tag rs l).2.2 := by
  induction l generalizing s with
  | nil => exact .refl s
  | cons pa l ih => exact (barCarve_pace ..).trans (ih _)

theorem barCarves_seated (l : List Nat) {s : State} (hn : NoneDue s) : Seated (fun _ => false) s (barCarves s op d tag rs l).2.2 := by
  induction l generalizing s with
  | nil => exact .refl s
  | cons pa l ih =>
    have h := barCarve_seated hn op d tag pa rs
    exact h.trans (ih (h.noneDue hn))

/-- Where no entry faults, no object is named as one that did. -/
theorem barCarves_stopped (l : List Nat) (s : State) (h : (barCarves s op d tag rs l).1 = []) : (barCarves s op d tag rs l).2.1 = [] := by
  induction l generalizing s with
  | nil => rfl
  | cons pa l ih =>
    obtain ⟨h1, h2⟩ := List.append_eq_nil_iff.mp h
    exact (if_pos h1).trans (ih _ h2)

theorem barCarves_bovr (l : List Nat) {s : State} (hn : NoneDue s) {f : FaultRec} (hf : f ∈ (barCarves s op d tag rs l).1) :
    f.cause = .bovr ∧ f.pc = pcOf s f.thread := by
  induction l generalizing s with
  | nil => cases hf
  | cons pa l ih =>
    rcases List.mem_append.mp hf with hf | hf
    · exact barCarve_bovr hf
    · have h := barCarve_seated hn op d tag pa rs
      obtain ⟨hc, hpc⟩ := ih (h.noneDue hn) hf
      exact ⟨hc, hpc.trans (h.pcOf_eq _)⟩

/-- Every fault is that of a thread that names one of the objects. -/
theorem barCarves_named (l : List Nat) (s : State) {f : FaultRec} (hf : f ∈ (barCarves s op d tag rs l).1) :
    ∃ pa ∈ l, ∃ r ∈ rs, r.obj = .carve pa ∧ r.thread = f.thread := by
  induction l generalizing s with
  | nil => cases hf
  | cons pa l ih =>
    rcases List.mem_append.mp hf with hf | hf
    · obtain ⟨r, hr, hth⟩ := List.mem_map.mp ((barCarve_threads s op d tag pa rs).subset (List.mem_map_of_mem hf))
      obtain ⟨hr, hobj⟩ := List.mem_filter.mp hr
      exact ⟨pa, List.mem_cons_self, r, hr, of_decide_eq_true hobj, hth⟩
    · obtain ⟨pa', hpa, hr⟩ := ih _ hf
      exact ⟨pa', List.mem_cons_of_mem _ hpa, hr⟩

/-- No thread faults twice: it names one object. -/
theorem barCarves_nodup (hrs : (rs.map (·.thread)).Nodup) (l : List Nat) (hl : l.Nodup) (s : State) :
    ((barCarves s op d tag rs l).1.map (·.thread)).Nodup := by
  induction l generalizing s with
  | nil => exact List.nodup_nil
  | cons pa l ih =>
    obtain ⟨hpa, hl⟩ := List.nodup_cons.mp hl
    show (((barCarve s op d tag pa rs).1 ++ _).map _).Nodup
    rw [List.map_append]
    refine List.nodup_append.mpr ⟨(barCarve_threads ..).nodup ((List.filter_sublist.map _).nodup hrs), ih hl _, fun t ht u hu => ?_⟩
    rintro rfl
    obtain ⟨r, hr, hrt⟩ := List.mem_map.mp ((barCarve_threads s op d tag pa rs).subset ht)
    obtain ⟨hr, hobj⟩ := List.mem_filter.mp hr
    obtain ⟨f, hf, hft⟩ := List.mem_map.mp hu
    obtain ⟨pa', hpa', r', hr', hobj', hrt'⟩ := barCarves_named op d tag rs l _ hf
    obtain rfl : r = r' := List.inj_on_of_nodup_map hrs hr hr' (hrt.trans (hft.symm.trans hrt'.symm))
    rw [of_decide_eq_true hobj, BarObj.carve.injEq] at hobj'
    exact hpa (hobj' ▸ hpa')

end Carves

end Sys2Proof.Machine
end

section
/-! PROOFS. O38: the barrier words (R276 to R283, R300). -/

namespace Sys2Proof.Machine

/-- A faulting thread of home has its entry once its fault is taken (R351, R352). -/
theorem takeFaults_entry {s : State} {c : CoreId} {fs : List FaultRec} (hh : ∀ f ∈ fs, f.thread.isHandler = false)
    (hn : (fs.map (·.thread)).Nodup) {f : FaultRec} (hf : f ∈ fs) {th : Thread} (ht : threadOf s f.thread = some th) :
    ((threadOf (takeFaults s c fs) f.thread).bind (·.entry)).isSome = true := by
  obtain ⟨-, -, hth, -⟩ := takeFaults_trapped s c fs hh hn
  obtain ⟨g, hg⟩ : ∃ g, fs.find? (fun g => g.thread = f.thread) = some g :=
    Option.isSome_iff_exists.mp (List.find?_isSome.mpr ⟨f, hf, by simp⟩)
  have hlog : threadOf (logFaults s fs) f.thread = some th := by rw [threadOf, logFaults_rest]; exact ht
  rw [hth _ (hh f hf), hlog, hg]
  simp only [Option.map_some, Option.bind_some, trappedThread, entryAfter]
  cases he : th.entry with
  | none => simp only [firstFault, he, Option.isNone_none, Bool.true_or, if_true]; split <;> rfl
  | some e => split <;> split <;> rfl

/-- The entries of a thread stay while a word goes on. -/
theorem entry_retireAll (s : State) (sh : Shape) (next : List (ThreadKey × Word)) (t : ThreadKey) :
    (threadOf (retireAll s sh next) t).bind (·.entry) = (threadOf s t).bind (·.entry) := by
  rw [retireAll_eq]
  generalize now s = n
  induction next generalizing s with
  | nil => rfl
  | cons e l ih =>
    rw [List.foldl_cons, ih, threadOf_modThread]
    split
    next he => subst he; cases threadOf s e.1 <;> rfl
    next => rfl

section Word

variable {i : Instr} {op : BarOp} {a : Src} {b : Option Src} {d : Option PDst} {s : State}

/-- What holds a barrier word at its issue (R231, R282). -/
theorem barBusy_iff (rs : List BarReq) :
    (!s.focus.threads.all (arrivalReady s op) || rs.any (carveBehind s) || !rs.all (carveAcquired s) || !barRoom s rs ||
      (d.isSome && !(warpsOf s.focus.threads).all fun w => decide (countedWords s w < 8))) = true ↔
    (∃ t ∈ s.focus.threads, arrivalReady s op t = false) ∨ (∃ x ∈ rs, carveBehind s x = true) ∨
      (∃ x ∈ rs, (∃ pa, x.obj = .carve pa) ∧ acqPending s x.thread = true) ∨ barRoom s rs = false ∨
      (d.isSome = true ∧ ∃ v ∈ warpsOf s.focus.threads, 8 ≤ countedWords s v) := by
  have hacq (x : BarReq) : carveAcquired s x = false ↔ (∃ pa, x.obj = .carve pa) ∧ acqPending s x.thread = true := by
    unfold carveAcquired
    cases x.obj with
    | scratch off => simp
    | carve pa => simp
  simp only [Bool.or_eq_true, Bool.and_eq_true, Bool.not_eq_true', List.all_eq_false, List.any_eq_true, Bool.not_eq_true,
    hacq, decide_eq_true_eq, not_lt, or_assoc]

/-- A word that has its effect, and of whose threads only some go on. -/
theorem issue_someGoOn {act : List ThreadKey → State → Act} (h : issuable i s = true) {s1 : State} {ts : List ThreadKey}
    (hact : act s.focus.threads s = .done s1 (advance s ts)) (hts : ts.Sublist s.focus.threads) (hk : PaceKept s s1) :
    ∃ s', issue i act s = .next s' ∧ s'.cores = s1.cores ∧
      ∀ t, (threadOf s' t).bind (·.entry) = (threadOf s1 t).bind (·.entry) := by
  have hstops : stepStops (retireAll s1 (instrShape i) (advance s ts)) ts = retireAll s1 (instrShape i) (advance s ts) := by
    refine stepStops_off _ _ fun t ht th hth => ?_
    rw [threadOf_retire s s1 _ ts (hts.nodup (issuable_nodup h)), if_pos ht, Option.map_eq_some_iff] at hth
    obtain ⟨x, hx, rfl⟩ := hth
    refine hk.unstepped (fun y hy => ?_) x hx
    obtain ⟨⟨z, hz, -, hoff⟩, -⟩ := issuable_thread h (hts.subset ht)
    rwa [← Option.some.inj (hz.symm.trans hy)]
  have he := issue_acts act h
  simp only [hact, advance_keys, hstops] at he
  refine ⟨_, he, by rw [bumpFree, retireAll_rest], fun t => ?_⟩
  exact entry_retireAll s1 _ _ t

theorem barWord_settles (h : issuable i s = true) (hhint : (instrShape i).hint = false) (hhome : (instrShape i).noHandler = true) :
    let ws := warpsOf s.focus.threads
    let q := barReqs s op (fun t => readSrc s t 0 a) (fun t => (b.map (readSrc s t 1)).getD 0) s.focus.threads
    let busy := (∃ t ∈ s.focus.threads, arrivalReady s op t = false) ∨ (∃ x ∈ q.2.1, carveBehind s x = true) ∨
      (∃ x ∈ q.2.1, (∃ pa, x.obj = .carve pa) ∧ acqPending s x.thread = true) ∨ barRoom s q.2.1 = false ∨
      (d.isSome = true ∧ ∃ v ∈ ws, 8 ≤ countedWords s v)
    let s2 : State := { q.2.2 with seq := q.2.2.seq + 1 + 2 * ws.length }
    let s3 := if op = .bwait then (dedup (s.focus.threads.filterMap gidOf)).foldl recallGroup s2 else s2
    let r := barCarves (barEnter s3 op d q.2.2.seq ws q.2.1) op d q.2.2.seq q.2.1 (carveObjs q.2.1)
    (q.1 ≠ [] → ∃ s', barWord i op a b d s = .next s' ∧ Faulted s s' q.1) ∧
    (q.1 = [] → busy → ∃ s', barWord i op a b d s = .next s' ∧ Held s s') ∧
    (q.1 = [] → ¬ busy → r.1 = [] → ∃ s', barWord i op a b d s = .next s' ∧ GoesOn (instrShape i).st s r.2.2 s') ∧
    (q.1 = [] → ¬ busy → r.1 ≠ [] → NoStepDue s → ∃ s', barWord i op a b d s = .next s' ∧ (coreOf s' s.focus.core).stopped = true ∧
      ∀ f ∈ r.1, f.cause = .bovr ∧ f.pc = pcOf s f.thread ∧ ((threadOf s' f.thread).bind (·.entry)).isSome = true) := by
  intro ws q busy s2 s3 r
  have hfaultsub : (q.1.map (·.thread)).Sublist s.focus.threads := barReqs_faults ..
  have hthreads (h0 : q.1 = []) : q.2.1.map (·.thread) = s.focus.threads := barReqs_threads op _ _ _ s h0
  have hwalked : Walked s q.2.2 := barReqs_walked ..
  have hbusy := barBusy_iff (s := s) (op := op) (d := d) q.2.1
  have hq : barReqs s op (fun t => readSrc s t 0 a) (fun t => (b.map (readSrc s t 1)).getD 0) s.focus.threads = q := rfl
  have hhome {t : ThreadKey} (ht : t ∈ s.focus.threads) : t.isHandler = false := issuable_home h hhome ht
  have hp3 : PaceKept s s3 := by
    have hp2 : PaceKept s s2 := hwalked.pace.trans (.of_eq rfl rfl rfl)
    unfold s3
    split
    · exact hp2.trans (.foldl recallGroup_pace _ s2)
    · exact hp2
  have hseat3 (hn : NoneDue s) : Seated (fun _ => false) s s3 := by
    have h2 : Seated (fun _ => false) s s2 := .of_threads hwalked.threads
    unfold s3
    split
    · exact h2.trans (.foldl (fun x g _ => recallGroup_seated x g) _ (h2.noneDue hn))
    · exact h2
  clear_value q
  obtain ⟨fs, rs, s1⟩ := q
  -- the threads that go on: all but those whose object has faulted
  have hdone (h0 : fs = []) (hb : ¬ busy) : ∃ (act : List ThreadKey → State → Act) (p : BarReq → Bool), barWord i op a b d s = issue i act s ∧
      act s.focus.threads s = .done (if r.1 = [] then r.2.2 else takeFaults r.2.2 s.focus.core r.1) (advance s ((rs.filter p).map (·.thread))) ∧
      (r.2.1 = [] → rs.filter p = rs) := by
    obtain rfl : fs = [] := h0
    refine ⟨_, _, rfl, by simp only [hq]; exact if_neg (hbusy.not.mpr hb), fun hs => ?_⟩
    refine List.filter_eq_self.mpr fun x _ => ?_
    cases x.obj with
    | scratch off => rfl
    | carve pa => rw [hs]; rfl
  have hp : PaceKept s r.2.2 := (hp3.trans (barEnter_pace ..)).trans (barCarves_pace ..)
  refine ⟨fun hne => ?_, fun h0 hb => ?_, fun h0 hb hr => ?_, fun h0 hb hr hnd => ?_⟩
  · obtain ⟨f, fs, rfl⟩ := List.exists_cons_of_ne_nil hne
    refine issue_faults h (by simp only [hq]) (fun g hg => hhome (hfaultsub.subset (List.mem_map_of_mem hg))) (hfaultsub.nodup (issuable_nodup h))
  · obtain rfl : fs = [] := h0
    refine issue_hold h ?_
    simp only [hq]
    exact if_pos (hbusy.mpr hb)
  · obtain ⟨act, p, hword, hact, hall⟩ := hdone h0 hb
    rw [if_pos hr, hall (barCarves_stopped _ _ _ _ _ _ hr), hthreads h0] at hact
    rw [hword]
    exact issue_goesOn h hhint hact hp
  · obtain ⟨act, p, hword, hact, -⟩ := hdone h0 hb
    have hsub : ((rs.filter p).map (·.thread)).Sublist s.focus.threads := hthreads h0 ▸ List.filter_sublist.map _
    have hn : (rs.map (·.thread)).Nodup := hthreads h0 ▸ issuable_nodup h
    have hn0 := noneDue_of_noStepDue hnd
    have hseatE : Seated (fun _ => false) s (barEnter s3 op d s1.seq ws rs) := (hseat3 hn0).trans (barEnter_seated ((hseat3 hn0).noneDue hn0) ..)
    have hseatC : Seated (fun _ => false) s r.2.2 := hseatE.trans (barCarves_seated _ _ _ _ _ (hseatE.noneDue hn0))
    have hfrom {f : FaultRec} (hf : f ∈ r.1) : f.thread ∈ s.focus.threads := by
      obtain ⟨-, -, x, hx, -, hxt⟩ := barCarves_named _ _ _ _ _ _ hf
      exact hthreads h0 ▸ hxt ▸ List.mem_map_of_mem hx
    have hhomes : ∀ f ∈ r.1, f.thread.isHandler = false := fun f hf => hhome (hfrom hf)
    have hnodup : (r.1.map (·.thread)).Nodup := barCarves_nodup _ _ _ _ hn _ (nodup_dedup _) _
    rw [if_neg hr] at hact
    obtain ⟨s', he, hcores, hentry⟩ := issue_someGoOn h hact hsub (hp.trans (takeFaults_pace ..))
    refine ⟨s', hword ▸ he, ?_, fun f hf => ?_⟩
    · rw [coreOf, hcores]
      exact congrArg Core.stopped (takeFaults_trapped r.2.2 s.focus.core r.1 hhomes hnodup).1
    · obtain ⟨hcause, hpc⟩ := barCarves_bovr _ _ _ _ _ (hseatE.noneDue hn0) hf
      refine ⟨hcause, hpc.trans (hseatE.pcOf_eq _), ?_⟩
      obtain ⟨⟨th, hth, -⟩, -⟩ := issuable_thread h (hfrom hf)
      obtain ⟨th', hth', -⟩ := hseatC.kept hth
      rw [hentry]
      exact takeFaults_entry hhomes hnodup hf hth'

end Word

/-- Settles O38: the word goes through its checks, its waits and its entries; the commands are those of the rule field by field. -/
theorem barrierWords : Obligations.BarrierWords := by
  unfold Obligations.BarrierWords
  refine ⟨fun a b d st s w hw h => ?_, barReq_rule, barTest_eq, barCommand_eq⟩
  simp only [List.mem_cons, List.not_mem_nil, or_false] at hw
  rcases hw with rfl | rfl | rfl | rfl | rfl | rfl
  · exact barWord_settles (b := some b) (d := none) h rfl rfl
  · exact barWord_settles (b := none) (d := some d) h rfl rfl
  · exact barWord_settles (b := some b) (d := some d) h rfl rfl
  · exact barWord_settles (b := some b) (d := some d) h rfl rfl
  · exact barWord_settles (b := some b) (d := none) h rfl rfl
  · exact barWord_settles (b := some b) (d := none) h rfl rfl

end Sys2Proof.Machine
end

section
/-! SUPPORT. What accepted accesses end, and what that leaves of the banks, the groups and the threads (R76, R94, R167, R249). -/

namespace Sys2Proof.Machine

/-- A thread at home that does not wait for its return-free atomics: no accepted access changes its registers. -/
def Thread.quiet (th : Thread) : Prop := th.away = none ∧ ∀ tag, th.wait? ≠ some (.token none tag)

/-- What accepted accesses end leaves the banks, the crucible status, the places of the threads, and the registers of those that wait for
no delivery. -/
structure AccessKept (s s' : State) : Prop where
  due : NoneDue s → NoneDue s'
  banks : s'.banks = s.banks
  ops : ∀ {id}, tget s.ops id = none → tget s'.ops id = none
  cstat : ∀ g, (groupOf s' g).map (·.cstat) = (groupOf s g).map (·.cstat)
  threads : ∀ {t th}, threadOf s t = some th → th.quiet → ∃ th', threadOf s' t = some th' ∧ th'.quiet ∧ th'.pc = th.pc ∧ th'.regs = th.regs

namespace AccessKept

theorem refl (s : State) : AccessKept s s := ⟨id, rfl, id, fun _ => rfl, fun h hq => ⟨_, h, hq, rfl, rfl⟩⟩

theorem trans {s s' s'' : State} (h : AccessKept s s') (h' : AccessKept s' s'') : AccessKept s s'' := by
  refine ⟨h'.due ∘ h.due, h'.banks.trans h.banks, h'.ops ∘ h.ops, fun g => (h'.cstat g).trans (h.cstat g), fun ht hq => ?_⟩
  obtain ⟨th', ht', hq', hpc, hregs⟩ := h.threads ht hq
  obtain ⟨th'', ht'', hq'', hpc', hregs'⟩ := h'.threads ht' hq'
  exact ⟨th'', ht'', hq'', hpc'.trans hpc, hregs'.trans hregs⟩

theorem foldl {α : Type} {F : State → α → State} (hF : ∀ a x, NoneDue a → AccessKept a (F a x)) (l : List α) {s : State} (hs : NoneDue s) :
    AccessKept s (l.foldl F s) := by
  induction l generalizing s with
  | nil => exact refl s
  | cons x l ih =>
    have h1 := hF s x hs
    exact h1.trans (ih (h1.due hs))

/-- One thread changes, by `f`. -/
theorem of_thread {s s' : State} {t : ThreadKey} {f : Thread → Thread} (hth : ∀ u, threadOf s' u = if t = u then (threadOf s t).map f else threadOf s u)
    (hstep : ∀ th, threadOf s t = some th → th.step ≠ .counted → (f th).step ≠ .counted)
    (hquiet : ∀ th, threadOf s t = some th → th.quiet → (f th).quiet ∧ (f th).pc = th.pc ∧ (f th).regs = th.regs)
    (banks : s'.banks = s.banks) (ops : ∀ {id}, tget s.ops id = none → tget s'.ops id = none)
    (cstat : ∀ g, (groupOf s' g).map (·.cstat) = (groupOf s g).map (·.cstat)) : AccessKept s s' := by
  refine ⟨fun hn u th hu => ?_, banks, ops, cstat, fun {u th} hu hq => ?_⟩
  · rw [hth] at hu
    split at hu
    next =>
      obtain ⟨x, hx, rfl⟩ := Option.map_eq_some_iff.mp hu
      exact hstep x hx (hn t x hx)
    next => exact hn u th hu
  · rw [hth]
    split
    next e =>
      subst e
      obtain ⟨h1, h2, h3⟩ := hquiet th hu hq
      exact ⟨f th, by rw [hu]; rfl, h1, h2, h3⟩
    next => exact ⟨th, hu, hq, rfl, rfl⟩

end AccessKept

/-! ### One end, one wake -/

theorem tget_tmod_none {K V : Type} [DecidableEq K] {t : Tab K V} {k j : K} (f : V → V) (h : tget t j = none) : tget (tmod t k f) j = none := by
  rw [tget_tmod]
  split
  next e => subst e; rw [h]; rfl
  next => exact h

/-- A wait that is dropped changes the operation that it belonged to. -/
theorem dropWait_rest (s : State) (th : Thread) : ∃ o, dropWait s th = { s with ops := o } ∧ ∀ {id}, tget s.ops id = none → tget o id = none := by
  unfold dropWait
  split
  · exact ⟨_, rfl, tget_tmod_none _⟩
  · exact ⟨_, rfl, tget_tmod_none _⟩
  · exact ⟨_, rfl, tget_tmod_none _⟩
  · exact ⟨s.ops, rfl, id⟩

theorem endThread_access (s : State) (t : ThreadKey) : AccessKept s (endThread s t) := by
  unfold endThread
  split
  next => exact .refl s
  next th hth =>
    extract_lets x th'
    obtain ⟨o, hx, hops⟩ := dropWait_rest s th
    replace hx : x = { s with ops := o } := hx
    clear_value x
    subst hx
    have hthreads (f : Thread → Thread) (u : ThreadKey) : threadOf (modThread { s with ops := o } t f) u = if t = u then (threadOf s t).map f else threadOf s u :=
      threadOf_modThread { s with ops := o } t u f
    have hsome {y : Thread} (hy : threadOf s t = some y) : y = th := Option.some.inj (hy.symm.trans hth)
    split
    next haway =>
      refine .of_thread (t := t) (f := fun _ => th') (hthreads _) (fun _ _ _ => by exact fun hc => by cases hc) (fun y hy hq => ?_) rfl hops (fun _ => rfl)
      obtain rfl := hsome hy
      exact ⟨⟨haway, fun _ hc => by cases hc⟩, rfl, rfl⟩
    next a haway =>
      refine .of_thread (t := t) (f := fun _ => { th' with regs := a.home }) (hthreads _) (fun _ _ _ => by exact fun hc => by cases hc)
        (fun y hy hq => ?_) rfl hops (fun _ => rfl)
      obtain rfl := hsome hy
      rw [hq.1] at haway
      cases haway

theorem cstat_modGroup (s : State) (g : Nat) {f : Group → Group} (hf : ∀ x, (f x).cstat = x.cstat) (k : Nat) :
    (groupOf (modGroup s g f) k).map (·.cstat) = (groupOf s k).map (·.cstat) := by
  rw [groupOf, groupOf, modGroup, tget_tmod]
  split
  next e => subst e; cases tget s.groups g <;> simp [hf]
  next => rfl

theorem cstat_unparked (s : State) (t : ThreadKey) (k : Nat) : (groupOf (unparked s t) k).map (·.cstat) = (groupOf s k).map (·.cstat) := by
  unfold unparked
  split
  · exact cstat_modGroup s _ (by intro x; rfl) k
  · rfl

/-- A thread that is woken is where it was, with the registers that it had. -/
theorem wokenThread_quiet (n : Nat) {th : Thread} (h : th.quiet) :
    (wokenThread n th).quiet ∧ (wokenThread n th).pc = th.pc ∧ (wokenThread n th).regs = th.regs := by
  obtain ⟨haway, hwait⟩ := h
  unfold wokenThread
  split
  next hs => exact ⟨⟨haway, fun tag hc => by rw [Thread.wait?, hs] at hc; cases hc⟩, rfl, rfl⟩
  next hs => exact ⟨⟨haway, fun tag hc => by rw [Thread.wait?, hs] at hc; cases hc⟩, rfl, rfl⟩
  next hs => exact ⟨⟨haway, fun tag hc => by rw [Thread.wait?, hs] at hc; cases hc⟩, rfl, rfl⟩
  next => exact ⟨⟨haway, hwait⟩, rfl, rfl⟩

theorem wakeThread_access {s : State} (hn : NoneDue s) (t : ThreadKey) (n : Nat) : AccessKept s (wakeThread s t n) := by
  have hrest := wakeThread_rest (hn t) n
  refine .of_thread (threadOf_wakeThread (hn t) n) (fun th _ hc => ?_) (fun th _ => wokenThread_quiet n) (by rw [hrest]) (fun h => by rw [hrest]; exact h)
    fun g => ?_
  · rwa [show (wokenThread n th).step = th.step from congrArg Prod.snd (wokenThread_seat n th)]
  · rw [wakeThread_eq (hn t)]
    exact cstat_unparked s t g

/-! ### What accepted accesses end -/

theorem finishExits_access {s : State} (hn : NoneDue s) : AccessKept s (finishExits s) := by
  refine .foldl (fun a e _ => ?_) _ hn
  split
  · exact endThread_access ..
  · exact .refl a

theorem settleCrucible_access {s : State} (hn : NoneDue s) : AccessKept s (settleCrucible s) :=
  .foldl (fun _ t ha => wakeThread_access ha t 8) _ hn

theorem settleToken0_access {s : State} (hn : NoneDue s) : AccessKept s (settleToken0 s) := by
  refine .foldl (fun a t ha => ?_) _ hn
  split
  next tag hwait =>
    obtain ⟨th, hth, hw⟩ := Option.bind_eq_some_iff.mp hwait
    have h1 : AccessKept a (deliverTo a t tag 0) := .of_thread (threadOf_modThread a t · _) (fun _ _ hc => hc)
      (fun y hy hq => absurd (Option.some.inj (hy.symm.trans hth) ▸ hw) (hq.2 tag)) rfl id fun _ => rfl
    exact h1.trans (wakeThread_access (h1.due ha) t 6)
  next => exact .refl a

theorem settleAccess_access {s : State} (hn : NoneDue s) : AccessKept s (settleAccess s) := by
  have h1 := finishExits_access hn
  have h2 := settleCrucible_access (h1.due hn)
  exact h1.trans (h2.trans (settleToken0_access (h2.due (h1.due hn))))

end Sys2Proof.Machine
end

section
/-! SUPPORT. The entry that a bank begins and what serving it leaves; the values that return together (R148, R150, R163). -/

namespace Sys2Proof.Machine

/-! ### The entry that a bank begins (R148) -/

/-- The least of some ages is that of one of them. -/
theorem foldl_min_spec (l : List BankEntry) (m : Nat) :
    (∀ x ∈ l, l.foldl (fun m x => min m x.age) m ≤ x.age) ∧ l.foldl (fun m x => min m x.age) m ≤ m ∧
      (l.foldl (fun m x => min m x.age) m = m ∨ ∃ x ∈ l, x.age = l.foldl (fun m x => min m x.age) m) := by
  induction l generalizing m with
  | nil => simp
  | cons e l ih =>
    obtain ⟨hall, hle, heq⟩ := ih (min m e.age)
    rw [List.foldl_cons]
    refine ⟨fun x hx => ?_, hle.trans (min_le_left ..), ?_⟩
    · rcases List.mem_cons.mp hx with rfl | hx
      · exact hle.trans (min_le_right ..)
      · exact hall x hx
    · rcases heq with heq | ⟨x, hx, hxa⟩
      · rcases min_choice m e.age with h | h
        · exact .inl (heq.trans h)
        · exact .inr ⟨e, List.mem_cons_self, h.symm.trans heq.symm⟩
      · exact .inr ⟨x, List.mem_cons_of_mem _ hx, hxa⟩

/-- A bank begins an eligible entry of the greatest age. -/
theorem pickEntry_oldest {s : State} {c : CoreId} {b : Fin 32} (h : eligibleEntries s c b ≠ []) :
    ∃ e tie, pickEntry s c b = some (e, tie) ∧ e ∈ eligibleEntries s c b ∧ ∀ x ∈ eligibleEntries s c b, e.age ≤ x.age := by
  unfold pickEntry
  extract_lets es
  have hes : es = eligibleEntries s c b := rfl
  rw [← hes] at h ⊢
  clear_value es
  cases es with
  | nil => exact absurd rfl h
  | cons e0 es =>
    dsimp only
    set age := (e0 :: es).foldl (fun m x => min m x.age) e0.age with hage
    obtain ⟨hall, -, hex⟩ := foldl_min_spec (e0 :: es) e0.age
    rw [← hage] at hall hex
    obtain ⟨x, hx, hxa⟩ : ∃ x ∈ e0 :: es, x.age = age :=
      hex.elim (fun h => ⟨e0, List.mem_cons_self, h.symm⟩) id
    have hne : sortBy (fun x y : BankEntry => decide (turnOf (coreOf s c).ptr[b] x.quarter < turnOf (coreOf s c).ptr[b] y.quarter))
        ((e0 :: es).filter fun x => x.age = age) ≠ [] :=
      List.ne_nil_of_mem (mem_sortBy.mpr (List.mem_filter.mpr ⟨hx, decide_eq_true hxa⟩))
    obtain ⟨y, ys, hy⟩ := List.exists_cons_of_ne_nil hne
    rw [hy]
    obtain ⟨hmem, hya⟩ := List.mem_filter.mp (mem_sortBy.mp (hy ▸ List.mem_cons_self))
    exact ⟨y, _, rfl, hmem, fun z hz => (of_decide_eq_true hya).symm ▸ hall z hz⟩

theorem pickEntry_none {s : State} {c : CoreId} {b : Fin 32} (h : eligibleEntries s c b = []) : pickEntry s c b = none := by
  unfold pickEntry
  rw [h]

/-- An eligible entry stands in its queue, and its lines are Present. -/
theorem eligible_spec {s : State} {c : CoreId} {b : Fin 32} {e : BankEntry} (h : e ∈ eligibleEntries s c b) :
    e.core = c ∧ e.bank = b ∧ ∀ l ∈ e.lines, lineAbsent s e.gid l = false := by
  obtain ⟨⟨x, i⟩, hx, rfl⟩ := List.mem_map.mp h
  obtain ⟨hz, hel⟩ := List.mem_filter.mp hx
  have hq := (List.mem_filter.mp (List.fst_mem_of_mem_zipIdx hz)).2
  simp only [entryEligible, Bool.and_eq_true, List.all_eq_true, Bool.not_eq_true'] at hel
  simp only [decide_eq_true_eq] at hq
  exact ⟨hq.1, hq.2, hel.1.2⟩

/-! ### An entry that is served (R148, R162) -/

/-- The group of a served entry: its scratchpad, and its crucible status. -/
def servedGroup (e : BankEntry) (x : Group) : Group :=
  { x with scratch := (entryEffect e x.scratch).1, cstat := x.cstat ||| (entryEffect e x.scratch).2.2 }

theorem serveEntry_rest {e : BankEntry} (h : ∀ op, e.body ≠ .bar op) (s : State) :
    (serveEntry s e).banks = s.banks ∧ (serveEntry s e).mem = s.mem ∧ (serveEntry s e).threads = s.threads ∧
    ∀ g, groupOf (serveEntry s e) g = if g = e.gid then (groupOf s g).map (servedGroup e) else groupOf s g := by
  have hserve : serveEntry s e =
      let m := ((groupOf s e.gid).map (·.scratch)).getD []
      let r := entryEffect e m
      let s1 := modGroup s e.gid fun g => { g with scratch := r.1, cstat := g.cstat ||| r.2.2 }
      taintScr (collect s1 r.2.1 (if r.2.1 = [] then [] else e.lanes)) e.gid e.word (entryWrites e m) := by
    unfold serveEntry
    split
    next op hb => exact absurd hb (h op)
    next => rfl
  rw [hserve]
  refine ⟨rfl, rfl, rfl, fun g => ?_⟩
  refine (tget_tmod ..).trans ?_
  by_cases hg : g = e.gid
  · subst hg
    rw [if_pos rfl, if_pos rfl, groupOf]
    cases hx : tget s.groups e.gid with
    | none => rfl
    | some x => rfl
  · rw [if_neg (Ne.symm hg), if_neg hg]; rfl

/-- The package once a bank has begun an entry: the entry has left its queue, and the pointer has moved where it decided a tie. -/
def entryBegun (s : State) (c : CoreId) (b : Fin 32) (e : BankEntry) (tie : Bool) : State :=
  let s1 : State := { s with banks := s.banks.erase e }
  if tie then modCore s1 c fun k => { k with ptr := k.ptr.set b (k.ptr[b] + 1) } else s1

theorem entryBegun_rest (s : State) (c : CoreId) (b : Fin 32) (e : BankEntry) (tie : Bool) :
    entryBegun s c b e tie = { s with banks := s.banks.erase e, cores := (entryBegun s c b e tie).cores } := by
  cases tie <;> rfl

theorem bankServe_eq {s : State} {c : CoreId} {b : Fin 32} {e : BankEntry} {tie : Bool} (hp : pickEntry s c b = some (e, tie)) :
    exec (.bankServe c b) s = .next (settleAccess (serveEntry (entryBegun s c b e tie) e)) := by
  show execBankServe c b s = _
  rw [execBankServe, hp]
  rfl

theorem bankServe_serves {s : State} {c : CoreId} {b : Fin 32} {e : BankEntry} {tie : Bool} (hp : pickEntry s c b = some (e, tie))
    (h : ∀ op, e.body ≠ .bar op) (hnd : NoStepDue s) : ∃ s', exec (.bankServe c b) s = .next s' ∧ s'.banks = s.banks.erase e ∧
      (∀ a, memByte s'.mem a = memByte s.mem a) ∧
      ∀ g x, groupOf s g = some x → ∃ x', groupOf s' g = some x' ∧
        x'.scratch = (if g = e.gid then (entryEffect e x.scratch).1 else x.scratch) ∧
        x'.cstat = if g = e.gid then x.cstat ||| (entryEffect e x.scratch).2.2 else x.cstat := by
  have hbegun := entryBegun_rest s c b e tie
  rw [bankServe_eq hp]
  generalize entryBegun s c b e tie = s2 at hbegun ⊢
  obtain ⟨hsb, hsm, hst, hsg⟩ := serveEntry_rest h s2
  have hdue : NoneDue (serveEntry s2 e) := (noneDue_of_noStepDue hnd).congr (hst.trans (by rw [hbegun]))
  have hkept := settleAccess_kept (serveEntry s2 e)
  have hacc := settleAccess_access hdue
  refine ⟨_, rfl, hacc.banks.trans (hsb.trans (by rw [hbegun])), fun a => by rw [hkept.mem, hsm, hbegun], fun g x hx => ?_⟩
  have hg : groupOf (serveEntry s2 e) g = some (if g = e.gid then servedGroup e x else x) := by
    rw [hsg, show groupOf s2 g = groupOf s g by rw [hbegun]; rfl, hx]
    split <;> rfl
  have hscr := hkept.scratch g
  have hstat := hacc.cstat g
  rw [hg, Option.map_some, Option.map_eq_some_iff] at hscr hstat
  obtain ⟨x', hx', hscr⟩ := hscr
  obtain ⟨x'', hx'', hstat⟩ := hstat
  obtain rfl : x' = x'' := Option.some.inj (hx'.symm.trans hx'')
  refine ⟨x', hx', hscr.trans ?_, hstat.trans ?_⟩
  · split <;> rfl
  · split <;> rfl

/-! ### The values that return together (R150) -/

/-- The registers of a thread once its values have been delivered. -/
theorem threadOf_deliverAll (got : List (ThreadKey × Nat × Word)) (s : State) (t : ThreadKey) {th : Thread} (ht : threadOf s t = some th) :
    ∃ b, threadOf (got.foldl (fun a g => deliverTo a g.1 g.2.1 g.2.2) s) t = some { th with
      regs := (got.filter fun g => decide (g.1 = t)).foldl (fun r g => r.deliver g.2.1 g.2.2) th.regs, inBar := b } := by
  induction got generalizing s th with
  | nil => exact ⟨th.inBar, ht⟩
  | cons g got ih =>
    rw [List.foldl_cons, List.filter_cons]
    by_cases hg : g.1 = t
    · have h1 : threadOf (deliverTo s g.1 g.2.1 g.2.2) t = some { th with
          regs := th.regs.deliver g.2.1 g.2.2, inBar := th.inBar.map fun b => (b.1, b.2.deliver g.2.1 g.2.2) } := by
        rw [deliverTo, threadOf_modThread, if_pos hg, hg, ht]; rfl
      obtain ⟨b, hb⟩ := ih _ h1
      exact ⟨b, by rw [hb, if_pos (decide_eq_true hg)]; rfl⟩
    · have h1 : threadOf (deliverTo s g.1 g.2.1 g.2.2) t = some th := by
        rw [deliverTo, threadOf_modThread, if_neg hg, ht]
      rw [if_neg (by simpa using hg)]
      exact ih _ h1

theorem resultReturn_settles {id left : Nat} {got : List (ThreadKey × Nat × Word)} {o : Op} {s : State} (ho : tget s.ops id = some o)
    (hb : o.body = .returns left got) :
    (left ≠ 0 → exec (.resultReturn id) s = .next s) ∧
    (left = 0 → NoStepDue s → ∃ s', exec (.resultReturn id) s = .next s' ∧ tget s'.ops id = none ∧
      (∀ a, memByte s'.mem a = memByte s.mem a) ∧
      ∀ t th, threadOf s t = some th → th.away = none → (∀ tag, th.wait? ≠ some (.token none tag)) →
        ∃ th', threadOf s' t = some th' ∧ th'.pc = th.pc ∧
          th'.regs = (got.filter fun g => decide (g.1 = t)).foldl (fun r g => r.deliver g.2.1 g.2.2) th.regs) := by
  have hexec : exec (.resultReturn id) s = .next (if left ≠ 0 then s else deliverAll s id got) := by
    show execResultReturn id s = _
    rw [execResultReturn, ho]
    simp only [returnOp, hb]
  refine ⟨fun h => by rw [hexec, if_pos h], fun h hnd => ?_⟩
  rw [hexec, if_neg (not_not.mpr h)]
  have hdue : NoneDue { s with ops := tdel s.ops id } := (noneDue_of_noStepDue hnd).congr rfl
  have hseat : Seated (fun _ => false) { s with ops := tdel s.ops id }
      (got.foldl (fun a g => deliverTo a g.1 g.2.1 g.2.2) { s with ops := tdel s.ops id }) :=
    .foldl (fun a g _ => (deliverTo_touches a g.1 g.2.1 g.2.2).seated fun _ _ => rfl) got hdue
  obtain ⟨s1, hs1⟩ : ∃ s1, s1 = got.foldl (fun a g => deliverTo a g.1 g.2.1 g.2.2) { s with ops := tdel s.ops id } := ⟨_, rfl⟩
  have hops : s1.ops = tdel s.ops id := hs1 ▸ foldl_keeps State.ops _ (fun _ _ => by rfl) got _
  have hmem : s1.mem = s.mem := hs1 ▸ foldl_keeps State.mem _ (fun _ _ => by rfl) got _
  rw [← hs1] at hseat
  have hacc := settleAccess_access (hseat.noneDue hdue)
  refine ⟨settleAccess s1, by rw [deliverAll, hs1], hacc.ops (by rw [hops, tget_tdel]; exact if_pos rfl),
    fun a => by rw [(settleAccess_kept s1).mem, hmem], fun t th ht haway hwait => ?_⟩
  obtain ⟨b, hb⟩ := threadOf_deliverAll got { s with ops := tdel s.ops id } t ht
  rw [← hs1] at hb
  obtain ⟨th', ht', -, hpc, hregs⟩ := hacc.threads hb ⟨haway, hwait⟩
  exact ⟨th', ht', hpc, hregs⟩

end Sys2Proof.Machine
end

section
/-! SUPPORT. A line becomes Present: the decrements that it held back, and the threads that it held (R144, R145, R247). -/

namespace Sys2Proof.Machine

/-! ### The decrements of a line (R247) -/

theorem payDue_seated {s : State} (hn : NoneDue s) (gid : Nat) (x : BarDue) : Seated Thread.offBarrier s (payDue gid s x) := by
  unfold payDue
  split
  · exact .of_threads rfl
  · exact (Seated.of_threads (barWrite_threads ..)).trans (testWaiters_seated (hn.congr (barWrite_threads ..)) ..)

theorem payDues_seated {s : State} (hn : NoneDue s) (gid : Nat) : Seated Thread.offBarrier s (payDues s gid) := by
  have h0 : Seated Thread.offBarrier s (modGroup s gid fun g => { g with dues := [] }) := .of_threads rfl
  exact h0.trans (Seated.foldl (F := payDue gid) (fun _ x ha => payDue_seated ha gid x) _ (h0.noneDue hn))

theorem payDues_engs (s : State) (gid : Nat) (k : Nat) :
    (tget (payDues s gid).engs k).map Eng.untainted = (tget s.engs k).map Eng.untainted := by
  refine foldl_keeps (fun a : State => (tget a.engs k).map Eng.untainted) (payDue gid) (fun a x => ?_) _ (modGroup s gid fun g => { g with dues := [] })
  unfold payDue
  split
  · rfl
  · exact barDecrease_engs ..

/-! ### The threads that a line held (R145, R283) -/

/-- A thread that is held on lines no more: it is Ready, or Stalled until its barrier word is served. -/
def offLines (th : Thread) : Thread :=
  if th.inBar.isSome then { th with wake := wakeAs th 9, savedMark := false, dozedMark := false, status := th.status.setLive .stalled }
  else wokenThread 9 th

theorem offLines_seat (th : Thread) : (offLines th).seat = th.seat := by
  unfold offLines
  split
  · rfl
  · exact wokenThread_seat 9 th

/-- The return of one thread. -/
def unholdOne (a : State) (t : ThreadKey) : State :=
  match threadOf a t with
  | none => a
  | some th =>
    if th.inBar.isSome then
      modThread a t fun x => { x with wake := wakeAs x 9, savedMark := false, dozedMark := false, status := x.status.setLive .stalled }
    else wakeThread a t 9

theorem settleLines_eq (s : State) : settleLines s = (tkeys s.threads fun t th => match th.wait? with
    | some (.lines l) => l.all fun x => !lineAbsent s ((gidOf t).getD 0) x
    | _ => false).foldl unholdOne s := rfl

theorem threadOf_unholdOne {s : State} (hn : NoneDue s) (t u : ThreadKey) :
    threadOf (unholdOne s t) u = if t = u then (threadOf s t).map offLines else threadOf s u := by
  unfold unholdOne
  cases ht : threadOf s t with
  | none =>
    show threadOf s u = _
    split
    next e => rw [← e, ht]; rfl
    next => rfl
  | some th =>
    dsimp only
    by_cases hb : th.inBar.isSome = true
    · rw [if_pos hb, threadOf_modThread, ht, Option.map_some, Option.map_some, offLines, if_pos hb]
    · rw [if_neg hb, threadOf_wakeThread (hn t), ht, Option.map_some, Option.map_some, offLines, if_neg hb]

theorem unholdOne_touches {s : State} (hn : NoneDue s) (t : ThreadKey) : Touches t s (unholdOne s t) :=
  ⟨offLines, offLines_seat, threadOf_unholdOne hn t⟩

theorem unholdOne_kept (s : State) (t : ThreadKey) : StoreKept s (unholdOne s t) := by
  unfold unholdOne
  split
  · exact .refl s
  · split
    · exact modThread_kept ..
    · exact wakeThread_kept ..

/-- What a thread that was held on lines has become. -/
def HeldBack (th x : Thread) : Prop :=
  x.wake.reason = 9 ∧ x.pc = th.pc ∧ x.regs = th.regs ∧ x.inBar = th.inBar ∧ x.status = .live (if th.inBar.isSome then .stalled else .ready)

theorem offLines_of_lines {th : Thread} {l : List Nat} (h : th.status = .live (.waiting (.lines l))) : HeldBack th (offLines th) := by
  unfold HeldBack offLines
  split
  · rw [h]; exact ⟨rfl, rfl, rfl, rfl, rfl⟩
  · rw [wokenThread, h]; exact ⟨rfl, rfl, rfl, rfl, rfl⟩

/-- A further return leaves it so. -/
theorem HeldBack.again {th x : Thread} (h : HeldBack th x) : HeldBack th (offLines x) := by
  obtain ⟨hwake, hpc, hregs, hbar, hstatus⟩ := h
  by_cases hb : th.inBar.isSome = true
  · rw [if_pos hb] at hstatus
    rw [offLines, if_pos (hbar ▸ hb), HeldBack, if_pos hb]
    exact ⟨rfl, hpc, hregs, hbar, by rw [hstatus]; rfl⟩
  · have hx : offLines x = x := by
      rw [if_neg hb] at hstatus
      rw [offLines, if_neg (hbar ▸ hb), wokenThread, hstatus]
    rw [hx]
    exact ⟨hwake, hpc, hregs, hbar, hstatus⟩

/-- Each thread of a list has come back. -/
theorem foldl_unholdOne {s : State} (hn : NoneDue s) {l : List ThreadKey} {t : ThreadKey} (ht : t ∈ l) {th : Thread} {ls : List Nat}
    (hth : threadOf s t = some th) (hs : th.status = .live (.waiting (.lines ls))) :
    ∃ x, threadOf (l.foldl unholdOne s) t = some x ∧ HeldBack th x := by
  have step (P : Thread → Prop) (hP : ∀ x, P x → P (offLines x)) (l : List ThreadKey) : ∀ {a : State}, NoneDue a → (∃ x, threadOf a t = some x ∧ P x) →
      NoneDue (l.foldl unholdOne a) ∧ ∃ x, threadOf (l.foldl unholdOne a) t = some x ∧ P x := by
    induction l with
    | nil => exact fun ha hx => ⟨ha, hx⟩
    | cons u l ih =>
      intro a ha ⟨x, hx, hPx⟩
      refine ih ((unholdOne_touches ha u).noneDue ha) ?_
      rw [threadOf_unholdOne ha]
      split
      next e => subst e; rw [hx]; exact ⟨_, rfl, hP x hPx⟩
      next => exact ⟨x, hx, hPx⟩
  obtain ⟨l1, l2, rfl⟩ := List.append_of_mem ht
  rw [List.foldl_append, List.foldl_cons]
  have hback {x : Thread} (h : x = th ∨ HeldBack th x) : HeldBack th (offLines x) := by
    rcases h with rfl | h
    · exact offLines_of_lines hs
    · exact h.again
  obtain ⟨hdue, x, hx, hxP⟩ := step (fun x => x = th ∨ HeldBack th x)
    (fun x h => .inr (hback h)) l1 hn ⟨th, hth, .inl rfl⟩
  refine (step (HeldBack th) (fun _ => HeldBack.again) l2 ((unholdOne_touches hdue t).noneDue hdue) ?_).2
  rw [threadOf_unholdOne hdue, if_pos rfl, hx]
  exact ⟨_, rfl, hback hxP⟩

/-- The threads that are held on lines, all of them Present, return. -/
theorem settleLines_returns {s : State} (hn : NoneDue s) {t : ThreadKey} {th : Thread} {l : List Nat} (hth : threadOf s t = some th)
    (hs : th.status = .live (.waiting (.lines l))) (hl : ∀ x ∈ l, lineAbsent s ((gidOf t).getD 0) x = false) :
    ∃ x, threadOf (settleLines s) t = some x ∧ HeldBack th x := by
  rw [settleLines_eq]
  refine foldl_unholdOne hn (List.mem_map.mpr ⟨(t, th), List.mem_filter.mpr ⟨mem_of_tget hth, ?_⟩, rfl⟩) hth hs
  simp only [Thread.wait?, hs, List.all_eq_true, Bool.not_eq_true']
  exact hl

/-! ### LINE_PRESENT (R144) -/

/-- The line holds all that the transfer lands there. -/
def LineFull (e : Eng) (line : Nat) : Prop :=
  line ∈ e.cleared ∧ (∀ n ∈ unitsLeft e, ∀ a, unitDst e n = some a → a / 64 ≠ line) ∧ ¬ (usesIdx e.kind = true ∧ e.idx = none)

theorem lineFull_iff (e : Eng) (line : Nat) : (e.cleared.contains line &&
    (unitsLeft e).all (fun n => ((unitDst e n).map fun a => a / 64 != line).getD true) && !(usesIdx e.kind && e.idx.isNone)) = true ↔
    LineFull e line := by
  have hunit (n : Nat) : ((unitDst e n).map fun a => a / 64 != line).getD true = true ↔ ∀ a, unitDst e n = some a → a / 64 ≠ line := by
    cases unitDst e n with
    | none => simp
    | some a => simp
  have hidx : (usesIdx e.kind && e.idx.isNone) = false ↔ ¬ (usesIdx e.kind = true ∧ e.idx = none) := by
    rw [← Bool.not_eq_true, Bool.and_eq_true, Option.isNone_iff_eq_none]
  rw [LineFull, Bool.and_eq_true, Bool.and_eq_true, List.contains_iff_mem, List.all_eq_true, Bool.not_eq_true', hidx, and_assoc]
  exact and_congr_right' (and_congr_left' (forall₂_congr fun n _ => hunit n))

theorem linePresent_settles {op line : Nat} {s : State} {e : Eng} (he : tget s.engs op = some e) :
    (¬ LineFull e line → exec (.linePresent op line) s = .next s) ∧
    (LineFull e line → NoStepDue s → ∃ s', exec (.linePresent op line) s = .next s' ∧
      (∃ e', tget s'.engs op = some e' ∧ e'.cleared = e.cleared.erase line ∧ e'.landed = e.landed ∧ e'.buf = e.buf ∧
        e'.state = e.state) ∧
      (∀ k, k ≠ op → (tget s'.engs k).map Eng.cleared = (tget s.engs k).map Eng.cleared) ∧
      ∀ t th l, threadOf s t = some th → th.status = .live (.waiting (.lines l)) →
        (∀ x ∈ l, lineAbsent s' ((gidOf t).getD 0) x = false) → ∃ th', threadOf s' t = some th' ∧ th'.wake.reason = 9 ∧
          th'.pc = th.pc ∧ th'.regs = th.regs ∧ th'.status = .live (if th.inBar.isSome then .stalled else .ready)) := by
  have hexec : exec (.linePresent op line) s = _ := show execLinePresent op line s = _ by rw [execLinePresent, he]
  refine ⟨fun h => hexec.trans (if_neg ((lineFull_iff e line).not.mpr h)), fun h hnd => ⟨_, hexec.trans (if_pos ((lineFull_iff e line).mpr h)), ?_⟩⟩
  set s1 : State := modEng s op fun x => { x with cleared := x.cleared.erase line } with hs1
  have hdue1 : NoneDue s1 := (noneDue_of_noStepDue hnd).congr rfl
  have hseat := payDues_seated hdue1 e.gid
  have hengs : (settleLines (payDues s1 e.gid)).engs = (payDues s1 e.gid).engs :=
    (StoreKept.foldl (fun a t => unholdOne_kept a t) _ _).engs
  have huntainted (k : Nat) : (tget (settleLines (payDues s1 e.gid)).engs k).map Eng.untainted = (tget s1.engs k).map Eng.untainted := by
    rw [hengs, payDues_engs]
  have hget (k : Nat) : tget s1.engs k = if op = k then (tget s.engs op).map fun x => { x with cleared := x.cleared.erase line } else tget s.engs k :=
    tget_tmod ..
  refine ⟨?_, fun k hk => ?_, fun t th l hth hst hl => ?_⟩
  · have h1 := huntainted op
    rw [hget, if_pos rfl, he, Option.map_some, Option.map_some, Option.map_eq_some_iff] at h1
    obtain ⟨e', he', hsame⟩ := h1
    have hcleared := congrArg Eng.cleared hsame
    have hlanded := congrArg Eng.landed hsame
    have hbuf := congrArg Eng.buf hsame
    have hstate := congrArg Eng.state hsame
    exact ⟨e', he', hcleared, hlanded, hbuf, hstate⟩
  · have h1 := congrArg (Option.map Eng.cleared) (huntainted k)
    rw [hget, if_neg (Ne.symm hk), Option.map_map, Option.map_map] at h1
    exact h1
  · obtain ⟨x, hx, -, hsame⟩ := hseat.kept (show threadOf s1 t = some th from hth)
    obtain rfl : x = th := hsame (by rw [Thread.offBarrier, Thread.wait?, hst])
    obtain ⟨y, hy, hwake, hpc, hregs, -, hstatus⟩ := settleLines_returns (hseat.noneDue hdue1) hx hst fun z hz => by
      have := hl z hz
      rwa [lineAbsent, hengs] at this
    exact ⟨y, hy, hwake, hpc, hregs, hstatus⟩

end Sys2Proof.Machine
end

section
/-! PROOFS. O37: BANK_SERVE, LINE_PRESENT, CRED.STAT, CWAIT and CFENCE (R144, R145, R148, R150, R163, R167, R168). -/

namespace Sys2Proof.Machine

/-! ### Words that go on -/

/-- A thread that goes on behind the effect of its word (R25, R29, R32). -/
def goneOn (cyc : Nat) (st : Stall) (pc : Word) (th : Thread) : Thread :=
  { th with pc := pc, pfx := Pfx.empty, readyAt := cyc + st.val + 1, oprdy := none
            status := if th.status = .live .ready ∧ st.val ≠ 0 then .live .stalled else th.status }

/-- A Ready thread is Stalled where the word has a stall count. -/
theorem goneOn_ready (cyc : Nat) (st : Stall) (pc : Word) (r : Regs) {th : Thread} (hr : th.status = .live .ready) :
    goneOn cyc st pc { th with regs := r } = issued cyc st pc r th := by
  unfold goneOn issued
  rw [hr]
  by_cases h0 : st.val = 0
  · rw [if_pos h0, if_neg fun hc => hc.2 h0]
  · rw [if_neg h0, if_pos ⟨rfl, h0⟩]

theorem goneOn_waiting (cyc : Nat) (st : Stall) (pc : Word) (th : Thread) (w : Wait) :
    goneOn cyc st pc { th with status := .live (.waiting w) } = { issued cyc st pc th.regs th with status := .live (.waiting w) } := by
  unfold goneOn
  rw [if_neg fun hc => by cases hc.1]
  rfl

/-- The threads of an issue group once their word has had its effect on each of them. -/
theorem GoesOn.becomes {st : Stall} {s x s' : State} (h : GoesOn st s x s') {g : ThreadKey → Thread → Thread}
    (hth : ∀ t, threadOf x t = if t ∈ s.focus.threads then (threadOf s t).map (g t) else threadOf s t) :
    ThreadsBecome s s' fun t th => goneOn (now s) st (th.pc + 4) (g t th) := by
  intro t
  rw [h.1, hth]
  split
  · rw [Option.map_map]
    refine Option.map_congr fun th ht => ?_
    rw [Function.comp_apply, pcOf_eq ht]
    rfl
  · rfl

/-- The threads become the same where two rules agree on the threads of the issue group. -/
theorem ThreadsBecome.congr' {s s' : State} {f g : ThreadKey → Thread → Thread} (h : ThreadsBecome s s' f)
    (hfg : ∀ t ∈ s.focus.threads, ∀ th, threadOf s t = some th → f t th = g t th) : ThreadsBecome s s' g := by
  intro t
  rw [h t]
  split
  next ht => exact Option.map_congr (hfg t ht)
  next => rfl

/-- A Ready thread of an issue group. -/
theorem issuable_ready {i : Instr} {s : State} (h : issuable i s = true) {t : ThreadKey} (ht : t ∈ s.focus.threads) {th : Thread}
    (hth : threadOf s t = some th) : th.status = .live .ready := by
  obtain ⟨⟨x, hx, hr, -⟩, -⟩ := issuable_thread h ht
  rwa [← Option.some.inj (hx.symm.trans hth)]

/-! ### CWAIT (R167) -/

/-- What CWAIT makes of a thread: it waits for the commands of its warp that stand out. -/
def crucibleWaiter (l : List Nat) (th : Thread) : Thread := if l = [] then th else { th with status := .live (.waiting (.crucible l)) }

theorem cwait_word (st : Stall) : ThreadWord (.cwait st) (fun s t th =>
    let l := crucibleOut s (warpKeyOf t)
    if l = [] then issued (now s) st (th.pc + 4) th.regs th
    else { issued (now s) st (th.pc + 4) th.regs th with status := .live (.waiting (.crucible l)) }) := by
  intro s h
  have hstep (x : State) (t : ThreadKey) : (if crucibleOut s (warpKeyOf t) = [] then x else waitThread x t (.crucible (crucibleOut s (warpKeyOf t)))) =
      modThread x t (crucibleWaiter (crucibleOut s (warpKeyOf t))) := by
    by_cases hl : crucibleOut s (warpKeyOf t) = []
    · rw [if_pos hl, modThread_same x t (crucibleWaiter _) fun th _ => if_pos hl]
    · rw [if_neg hl, waitThread]
      congr 1
      exact funext fun th => (if_neg hl).symm
  have hpace (x : State) (t : ThreadKey) : PaceKept x (modThread x t (crucibleWaiter (crucibleOut s (warpKeyOf t)))) :=
    modThread_pace _ _ _ fun th => .inr (by unfold crucibleWaiter; split <;> rfl)
  obtain ⟨s', he, hgo⟩ := issue_goesOn (i := .cwait st) h rfl
    (s1 := s.focus.threads.foldl (fun x t => modThread x t (crucibleWaiter (crucibleOut s (warpKeyOf t)))) s)
    (act := fun ts s => .done (ts.foldl (fun x t =>
        let l := crucibleOut s (warpKeyOf t)
        if l = [] then x else waitThread x t (.crucible l)) s) (advance s ts))
    (by simp only [hstep]) (.foldl hpace _ s)
  have hrest := foldl_modThread_rest s.focus.threads (fun t => crucibleWaiter (crucibleOut s (warpKeyOf t))) s
  have hbec := hgo.becomes (threadOf_foldl _ (issuable_nodup h) (fun t => crucibleWaiter (crucibleOut s (warpKeyOf t))) s)
  refine ⟨s', he, hbec.congr' fun t ht th hth => ?_, fun a => ?_, ?_⟩
  · by_cases hl : crucibleOut s (warpKeyOf t) = []
    · have hw : crucibleWaiter (crucibleOut s (warpKeyOf t)) th = { th with regs := th.regs } := if_pos hl
      exact (congrArg _ hw).trans ((goneOn_ready _ _ _ _ (issuable_ready h ht hth)).trans (if_pos hl).symm)
    · have hw : crucibleWaiter (crucibleOut s (warpKeyOf t)) th = _ := if_neg hl
      exact (congrArg _ hw).trans ((goneOn_waiting ..).trans (if_neg hl).symm)
  · rw [hgo.2, hrest]
  · rw [hgo.2, hrest]

/-! ### CFENCE (R168) -/

theorem cfence_word (st : Stall) (s : State) (h : issuable (.cfence st) s = true) :
    ((∀ t ∈ s.focus.threads, bankPending s t = false) → ∃ s', exec (.cfence st) s = .next s' ∧ OnlyThreadsChange s s' ∧
      ThreadsBecome s s' (fun _ th => issued (now s) st (th.pc + 4) th.regs th)) ∧
    ((∃ t ∈ s.focus.threads, bankPending s t = true) → ∃ s', exec (.cfence st) s = .next s' ∧ Held s s') := by
  have hany : s.focus.threads.any (bankPending s) = true ↔ ∃ t ∈ s.focus.threads, bankPending s t = true := List.any_eq_true
  have hexec : exec (.cfence st) s = issue (.cfence st) (fun ts s => if ts.any (bankPending s) then .hold else .done s (advance s ts)) s := rfl
  rw [hexec]
  refine ⟨fun hnone => ?_, fun hsome => issue_hold h (if_pos (hany.mpr hsome))⟩
  obtain ⟨s', he, hbec, honly⟩ := exec_sends (i := .cfence st) h rfl (n := fun t => pcOf s t + 4)
    (act := fun ts s => if ts.any (bankPending s) then .hold else .done s (advance s ts))
    (if_neg fun hc => by obtain ⟨t, ht, hp⟩ := hany.mp hc; rw [hnone t ht] at hp; cases hp)
  exact ⟨s', he, honly, hbec.congr fun t th ht => by rw [pcOf_eq ht]; rfl⟩

/-! ### CRED.STAT (R163) -/

/-- A group whose crucible status has been read and cleared. -/
def statusCleared (x : Group) : Group := { x with cstat := 0 }

/-- The crucible status of the group of a thread. -/
def statusOf (s : State) (t : ThreadKey) : BitVec 3 := ((groupOfThread s t).map (·.cstat)).getD 0

/-- CRED.STAT of one thread. -/
def credStatOne (d : PDst) (x : State) (t : ThreadKey) : State :=
  giveThread (modGroup x ((gidOf t).getD 0) statusCleared) t d ((statusOf x t).setWidth 64) 0 none

/-- What a thread of the list reads: the first of its group the status, the others 0. -/
def statusRead (s : State) (ts : List ThreadKey) (t : ThreadKey) : Word :=
  if ts.find? (fun u => decide (gidOf u = gidOf t)) = some t then (statusOf s t).setWidth 64 else 0

theorem groupOf_credStatOne (d : PDst) (x : State) {t : ThreadKey} (ht : t.isHandler = false) (g : Nat) :
    groupOf (credStatOne d x t) g = if some g = gidOf t then (groupOf x g).map statusCleared else groupOf x g := by
  cases t with
  | handler => cases ht
  | home k w l =>
    refine (tget_tmod ..).trans ?_
    by_cases hg : k = g
    · subst hg; exact (if_pos rfl).trans (if_pos rfl).symm
    · exact (if_neg hg).trans (if_neg fun hc => hg (Option.some.inj hc).symm).symm

theorem groupOf_foldl_credStat (d : PDst) (ts : List ThreadKey) (hts : ∀ t ∈ ts, t.isHandler = false) (x : State) (g : Nat) :
    groupOf (ts.foldl (credStatOne d) x) g = if some g ∈ ts.map gidOf then (groupOf x g).map statusCleared else groupOf x g := by
  induction ts generalizing x with
  | nil => rfl
  | cons t ts ih =>
    rw [List.foldl_cons, ih fun u hu => hts u (List.mem_cons_of_mem _ hu), groupOf_credStatOne d x (hts t List.mem_cons_self)]
    by_cases ht : some g = gidOf t
    · rw [if_pos ht, List.map_cons, if_pos (List.mem_cons.mpr (.inl ht)), Option.map_map]
      split <;> rfl
    · simp only [ht, if_false, List.map_cons, List.mem_cons, false_or]

theorem statusOf_credStatOne (d : PDst) (x : State) {t u : ThreadKey} (ht : t.isHandler = false) :
    statusOf (credStatOne d x t) u = if gidOf u = gidOf t then 0 else statusOf x u := by
  unfold statusOf groupOfThread
  cases hu : gidOf u with
  | none =>
    cases t with
    | handler => cases ht
    | home k w l => rfl
  | some g =>
    rw [Option.bind_some, Option.bind_some, groupOf_credStatOne d x ht]
    split
    · rw [Option.map_map]; cases groupOf x g <;> rfl
    · rfl

theorem threadOf_foldl_credStat (d : PDst) (ts : List ThreadKey) (hn : ts.Nodup) (hts : ∀ t ∈ ts, t.isHandler = false) (x : State) (t : ThreadKey) :
    threadOf (ts.foldl (credStatOne d) x) t = if t ∈ ts then (threadOf x t).map fun th =>
      { th with regs := th.regs.give d (statusRead x ts t) 0 none } else threadOf x t := by
  induction ts generalizing x with
  | nil => rfl
  | cons u ts ih =>
    obtain ⟨hu, hn⟩ := List.nodup_cons.mp hn
    have hhu := hts u List.mem_cons_self
    have hone (v : ThreadKey) : threadOf (credStatOne d x u) v = if u = v then (threadOf x u).map fun th =>
        { th with regs := th.regs.give d ((statusOf x u).setWidth 64) 0 none } else threadOf x v := threadOf_modThread ..
    rw [List.foldl_cons, ih hn fun v hv => hts v (List.mem_cons_of_mem _ hv), hone]
    by_cases hut : u = t
    · subst hut
      have hread : statusRead x (u :: ts) u = (statusOf x u).setWidth 64 :=
        if_pos (List.find?_cons_of_pos (p := fun v => decide (gidOf v = gidOf u)) (decide_eq_true rfl))
      rw [if_neg hu, if_pos rfl, if_pos List.mem_cons_self, hread]
    · rw [if_neg hut]
      by_cases ht : t ∈ ts
      · rw [if_pos ht, if_pos (List.mem_cons_of_mem _ ht)]
        have hread : statusRead (credStatOne d x u) ts t = statusRead x (u :: ts) t := by
          unfold statusRead
          rw [statusOf_credStatOne d x hhu]
          by_cases hg : gidOf t = gidOf u
          · rw [List.find?_cons_of_pos (p := fun v => decide (gidOf v = gidOf t)) (decide_eq_true hg.symm), if_neg fun hc => hut (Option.some.inj hc), if_pos hg]
            split <;> rfl
          · rw [List.find?_cons_of_neg (by simpa using Ne.symm hg), if_neg hg]
        rw [hread]
      · rw [if_neg ht, if_neg (by simp [ht, Ne.symm hut])]

theorem credStat_word (d : PDst) (st : Stall) (s : State) (h : issuable (.credStat d st) s = true) :
    let out := ∃ t ∈ s.focus.threads, crucibleOut s (warpKeyOf t) ≠ []
    (out → ∃ s', exec (.credStat d st) s = .next s' ∧ Held s s') ∧
    (¬ out → ∃ s', exec (.credStat d st) s = .next s' ∧
      s' = { s with threads := s'.threads, groups := s'.groups, freeCount := s.freeCount + 1 } ∧
      (∀ a, memByte s'.mem a = memByte s.mem a) ∧
      ThreadsBecome s s' (fun t th => issued (now s) st (th.pc + 4) (th.regs.give d
        (if s.focus.threads.find? (fun u => decide (gidOf u = gidOf t)) = some t then
          (((groupOfThread s t).map Group.cstat).getD 0).setWidth 64 else 0) 0 none) th) ∧
      ∀ g, groupOf s' g = if some g ∈ s.focus.threads.map gidOf then (groupOf s g).map fun x => { x with cstat := 0 }
        else groupOf s g) := by
  intro out
  have hout : ((warpsOf s.focus.threads).any fun w => crucibleOut s w ≠ []) = true ↔ out := by
    simp only [List.any_eq_true, decide_eq_true_eq, warpsOf, mem_dedup, List.mem_map, exists_exists_and_eq_and, out]
  have hexec : exec (.credStat d st) s = execCredStat d st s := rfl
  rw [hexec, execCredStat]
  refine ⟨fun ho => issue_hold h (if_pos (hout.mpr ho)), fun ho => ?_⟩
  have hhome (t : ThreadKey) (ht : t ∈ s.focus.threads) : t.isHandler = false := issuable_home h rfl ht
  have hstep (x : State) (t : ThreadKey) : giveThread (modGroup x ((gidOf t).getD 0) fun g => { g with cstat := 0 }) t d
      (BitVec.ofNat 64 (((groupOfThread x t).map Group.cstat).getD 0).toNat) 0 none = credStatOne d x t := by
    rw [credStatOne, statusOf, BitVec.ofNat_toNat]; rfl
  obtain ⟨s', he, hgo⟩ := issue_goesOn (i := .credStat d st) h rfl (s1 := s.focus.threads.foldl (credStatOne d) s)
    (act := fun ts s =>
      if (warpsOf ts).any fun w => crucibleOut s w ≠ [] then .hold
      else .done (ts.foldl (fun x t =>
          let v := ((groupOfThread x t).map (·.cstat)).getD 0
          giveThread (modGroup x ((gidOf t).getD 0) fun g => { g with cstat := 0 }) t d (BitVec.ofNat 64 v.toNat) 0 none) s)
        (advance s ts))
    ((if_neg (hout.not.mpr ho)).trans (by simp only [hstep])) (.foldl (fun x t => (modGroup_pace ..).trans (giveThread_pace ..)) _ s)
  have hrest : s.focus.threads.foldl (credStatOne d) s = { s with
      threads := (s.focus.threads.foldl (credStatOne d) s).threads, groups := (s.focus.threads.foldl (credStatOne d) s).groups } :=
    foldl_holds (fun a => a = { s with threads := a.threads, groups := a.groups }) _ (fun a t ha => by rw [credStatOne, giveThread, modThread, modGroup, ha])
      s.focus.threads s rfl
  refine ⟨s', he, ?_, fun a => ?_, fun t => ?_, fun g => ?_⟩
  · rw [hgo.2, hrest]
  · rw [hgo.2, hrest]
  · exact (hgo.becomes (threadOf_foldl_credStat d _ (issuable_nodup h) hhome s)).congr' (fun t ht th hth =>
      goneOn_ready _ _ _ _ (issuable_ready h ht hth)) t
  · rw [hgo.2]
    exact groupOf_foldl_credStat d _ hhome s g

/-- Settles O37: the entry that a bank begins and what it leaves, the values that return, the line that is Present, and the three waits. -/
theorem bankService : Obligations.BankService := by
  unfold Obligations.BankService
  refine ⟨fun c b s => ⟨fun h => ?_, fun h => ?_⟩, fun id left got o s ho hb => resultReturn_settles ho hb,
    fun op line s e he => linePresent_settles he, credStat_word, cwait_word, cfence_word⟩
  · show execBankServe c b s = _
    rw [execBankServe, pickEntry_none h]
  · obtain ⟨e, tie, hp, hmem, hold⟩ := pickEntry_oldest h
    obtain ⟨hcore, hbank, hlines⟩ := eligible_spec hmem
    exact ⟨e, tie, hp, hmem, hold, hcore, hbank, hlines, fun hbody hnd => bankServe_serves hp hbody hnd⟩

end Sys2Proof.Machine
end

section
/-! SUPPORT. Scratchpad entries on bytes: loads, stores and atomics (R12, R151, R154, R164 to R166). -/

namespace Sys2Proof.Machine

/-! ### Bytes and numbers (R12) -/

theorem bytesNat_memBytes (m : Memory) (a n : Nat) : bytesNat (memBytes m a n) = memNat m a n := by
  unfold memBytes rangeFrom
  rw [List.map_map]
  induction n generalizing a with
  | zero => rfl
  | succ n ih =>
    rw [List.range_succ_eq_map, List.map_cons, List.map_map, bytesNat, memNat, ← ih (a + 1)]
    have hcomp : (memByte m ∘ fun k => a + k) ∘ Nat.succ = memByte m ∘ fun k => a + 1 + k :=
      funext fun k => congrArg (memByte m) (by simp only [Nat.succ_eq_add_one]; omega)
    rw [hcomp]
    rfl

theorem wroteAt_memPut (m : Memory) (a n v : Nat) : wroteAt m (memPut m a n v) a n v := by
  intro k
  rw [← memPutBytes_natBytes, memByte_memPutBytes, natBytes_length]

/-- Only the low bytes of a number are written. -/
theorem natBytes_mod (n v : Nat) : natBytes n (v % 256 ^ n) = natBytes n v := by
  induction n generalizing v with
  | zero => rfl
  | succ n ih =>
    have hlow : BitVec.ofNat 8 (v % 256 ^ (n + 1)) = BitVec.ofNat 8 v := by
      refine BitVec.eq_of_toNat_eq ?_
      rw [BitVec.toNat_ofNat, BitVec.toNat_ofNat]
      exact Nat.mod_mod_of_dvd v (Dvd.intro_left _ (Nat.pow_succ ..).symm)
    rw [natBytes, natBytes, hlow, Nat.pow_succ', Nat.mod_mul_right_div_self, ih]

theorem wroteAt_congr {m m' : Memory} {a n v w : Nat} (h : wroteAt m m' a n v) (hvw : v % 256 ^ n = w % 256 ^ n) : wroteAt m m' a n w := by
  intro k
  rw [h k, ← natBytes_mod n v, hvw, natBytes_mod]

/-! ### Loads (R154) -/

theorem loadValue_eq {size : Nat} (h1 : 1 ≤ size) (h8 : size ≤ 8) (sx : Bool) (m : Memory) (off : Nat) : loadValue size sx (memBytes m off size) =
    if sx then (BitVec.ofNat (8 * size) (memNat m off size)).signExtend 64 else BitVec.ofNat 64 (memNat m off size) := by
  rw [loadValue, bytesNat_memBytes, sext_eq (by omega) (by omega)]
  rfl

/-! ### Stores (R154) -/

/-- The bytes after the stores of some lanes: the last lane that covers a byte gives it. -/
theorem memByte_stores (size : Nat) (lanes : List Lane) (m : Memory) (k : Nat) :
    memByte (lanes.foldl (fun m x => memPut m x.off size x.x.toNat) m) k =
      match lanes.reverse.find? fun l => decide (l.off ≤ k ∧ k < l.off + size) with
      | some l => (natBytes size l.x.toNat).getD (k - l.off) 0
      | none => memByte m k := by
  induction lanes generalizing m with
  | nil => rfl
  | cons l lanes ih =>
    rw [List.foldl_cons, ih, List.reverse_cons, List.find?_append]
    cases lanes.reverse.find? fun l => decide (l.off ≤ k ∧ k < l.off + size) with
    | some x => rfl
    | none =>
      rw [Option.none_or, wroteAt_memPut m l.off size l.x.toNat k, List.find?_singleton]
      by_cases hk : l.off ≤ k ∧ k < l.off + size <;> simp [hk]

/-! ### Atomics (R164 to R166, R212) -/

/-- The low bits of a number with zeros above them. -/
theorem low_zext (w : Width) (v : Nat) : low w (zext (widthBits w) (v : Int)) = BitVec.ofNat (widthBits w) v := by
  rw [zext_nat, zHigh, low, BitVec.setWidth_setWidth_of_le _ (widthBits_le w), BitVec.setWidth_eq]

theorem low_zext_toNat (w : Width) (x : Word) : low w (zext (widthBits w) (x.toNat : Int)) = low w x := by
  rw [low_zext, low, BitVec.ofNat_toNat]

/-- The new value of an atomic on 32 bits (R212). -/
theorem low_atomNew (op : AtomOp) (old p : Word) : low .w32 (atomNew op .w32 old p) = atomRule op .w32 old p := by
  have hw : widthBits .w32 ≤ 64 := widthBits_le _
  cases op with
  | add => rw [atomNew, low_zext_toNat, low, BitVec.setWidth_add _ _ hw]; rfl
  | fadd => rfl
  | min =>
    rw [atomNew, atomRule, sval_low, sval_low, BitVec.slt]
    simp only [decide_eq_true_eq]
    split
    · rw [low_zext_toNat]
    · rfl
  | max =>
    rw [atomNew, atomRule, sval_low, sval_low, BitVec.slt]
    simp only [decide_eq_true_eq]
    split
    · rw [low_zext_toNat]
    · rfl
  | and => rw [atomNew, low_zext_toNat, low, BitVec.setWidth_and]; rfl
  | or => rw [atomNew, low_zext_toNat, low, BitVec.setWidth_or]; rfl
  | xor => rw [atomNew, low_zext_toNat, low, BitVec.setWidth_xor]; rfl
  | exch => rw [atomNew, low_zext_toNat]; rfl

/-- What an atomic writes, as the statement gives it. -/
def atomWrites (e : BankEntry) (op : AtomOp) (old : Word) (l : Lane) : Nat :=
  if e.body = .ccas then (if old = l.x &&& 0xFFFFFFFF then l.y &&& 0xFFFFFFFF else old).toNat else (atomRule op .w32 old l.x).toNat

/-- The low half of a word, as a number. -/
theorem toNat_and_low (x : Word) : (x &&& 0xFFFFFFFF).toNat = zval 32 x := by
  rw [zval, BitVec.toNat_and]
  exact Nat.and_two_pow_sub_one_eq_mod x.toNat 32

/-- The function of an atomic entry (R164, R166). -/
def atomFn (e : BankEntry) (op : AtomOp) (old : Word) (l : Lane) : Word :=
  if e.body = .ccas then (if old.toNat = zval 32 l.x then l.y else old) else atomNew op .w32 old l.x

theorem atomFn_writes (e : BankEntry) (op : AtomOp) (m : Memory) (l : Lane) :
    (atomFn e op (BitVec.ofNat 64 (memNat m l.off 4)) l).toNat % 256 ^ 4 =
      atomWrites e op (BitVec.ofNat 64 (memNat m l.off 4)) l % 256 ^ 4 := by
  unfold atomFn atomWrites
  split
  · have hold : BitVec.ofNat 64 (memNat m l.off 4) = l.x &&& 0xFFFFFFFF ↔ (BitVec.ofNat 64 (memNat m l.off 4)).toNat = zval 32 l.x := by
      rw [← BitVec.toNat_inj, toNat_and_low]
    rw [if_congr hold rfl rfl]
    split
    · rw [toNat_and_low]
      exact (Nat.mod_mod _ _).symm
    · rfl
  · rw [← low_atomNew, low, BitVec.toNat_setWidth]
    exact (Nat.mod_mod _ _).symm

theorem entryEffect_atomic {e : BankEntry} {op : AtomOp} (h : e.body = .catom op ∨ e.body = .ccas) (m : Memory) (ls : List Lane) :
    entryEffect { e with lanes := ls } m = ((catomRun (atomFn e op) m ls).1, (catomRun (atomFn e op) m ls).2, 0) := by
  rcases h with h | h
  · have hf : atomFn e op = fun old x => atomNew op .w32 old x.x := by
      funext old x
      rw [atomFn, if_neg (by rw [h]; exact BankBody.noConfusion)]
    unfold entryEffect
    simp only [h, hf]
  · have hf : atomFn e op = fun old x => if old.toNat = zval 32 x.x then x.y else old := by
      funext old x
      rw [atomFn, if_pos h]
    unfold entryEffect
    simp only [h, hf]

/-- The atomics of an entry, one lane after another (R166). -/
theorem atomic_lanes {e : BankEntry} {op : AtomOp} (h : e.body = .catom op ∨ e.body = .ccas) (m : Memory) :
    entryEffect { e with lanes := [] } m = (m, [], 0) ∧
    ∀ l ls, ∃ m', wroteAt m m' l.off 4 (atomWrites e op (BitVec.ofNat 64 (memNat m l.off 4)) l) ∧
      entryEffect { e with lanes := l :: ls } m =
        ((entryEffect { e with lanes := ls } m').1,
          (l.thread, l.tag, BitVec.ofNat 64 (memNat m l.off 4)) :: (entryEffect { e with lanes := ls } m').2.1, 0) := by
  refine ⟨entryEffect_atomic h m [], fun l ls => ?_⟩
  refine ⟨memPut m l.off 4 (atomFn e op (BitVec.ofNat 64 (memNat m l.off 4)) l).toNat,
    wroteAt_congr (wroteAt_memPut _ _ _ _) (atomFn_writes e op m l), ?_⟩
  rw [entryEffect_atomic h, entryEffect_atomic h]
  rfl

/-- The entries on bytes: loads, stores, and atomics. -/
theorem entryEffect_bytes (e : BankEntry) (m : Memory) :
    (∀ size sx, e.body = .lds size sx → 1 ≤ size → size ≤ 8 → entryEffect e m = (m, e.lanes.map fun l =>
      (l.thread, l.tag, if sx then (BitVec.ofNat (8 * size) (memNat m l.off size)).signExtend 64
        else BitVec.ofNat 64 (memNat m l.off size)), 0)) ∧
    (∀ sx, e.body = .lds 16 sx → entryEffect e m = (m, e.lanes.flatMap fun l =>
      [(l.thread, l.tag, BitVec.ofNat 64 (memNat m l.off 8)), (l.thread, l.tag + 1, BitVec.ofNat 64 (memNat m (l.off + 8) 8))], 0)) ∧
    (∀ size, e.body = .sts size → (entryEffect e m).2 = ([], 0) ∧ ∀ k, memByte (entryEffect e m).1 k =
      match e.lanes.reverse.find? fun l => decide (l.off ≤ k ∧ k < l.off + size) with
      | some l => (natBytes size l.x.toNat).getD (k - l.off) 0
      | none => memByte m k) := by
  refine ⟨fun size sx h h1 h8 => ?_, fun sx h => ?_, fun size h => ?_⟩
  · have hl (l : Lane) : ldsReturns m size sx l = [(l.thread, l.tag, if sx then
        (BitVec.ofNat (8 * size) (memNat m l.off size)).signExtend 64 else BitVec.ofNat 64 (memNat m l.off size))] := by
      rw [ldsReturns, if_neg (by omega), loadValue_eq h1 h8]
    have he : entryEffect e m = (m, e.lanes.flatMap (ldsReturns m size sx), 0) := by
      unfold entryEffect
      rw [h]
    rw [he, List.map_eq_flatMap, funext hl]
  · unfold entryEffect
    simp only [h]
    rfl
  · have he : entryEffect e m = (e.lanes.foldl (fun m x => memPut m x.off size x.x.toNat) m, [], 0) := by
      unfold entryEffect
      rw [h]
    rw [he]
    exact ⟨rfl, memByte_stores size e.lanes m⟩

end Sys2Proof.Machine
end

section
/-! SUPPORT. The crucible commands on FP32 lines: line sets, CVEC, CRED and CSMX (R71, R155 to R159). -/

namespace Sys2Proof.Machine

/-! ### Line sets (R155) -/

theorem setLines_eq (a : Word) : setLines a = lineSet a := by
  rw [setLines, lineSet, bvf_eq a (l := 8) rfl, bvf_eq a (l := 13) rfl, bvf_eq a (l := 8) rfl]

/-- The low bits of a concatenation. -/
theorem low_of_append {v w s l : Nat} (a : BitVec v) (b : BitVec w) (h : s + l ≤ w) : (a ++ b).extractLsb' s l = b.extractLsb' s l := by
  refine BitVec.eq_of_getLsbD_eq fun i hi => ?_
  rw [BitVec.getLsbD_extractLsb', BitVec.getLsbD_extractLsb', BitVec.getLsbD_append, if_pos (by omega)]

/-- The count of a set replaced. -/
theorem bvput_count (a : Word) (v : Nat) : bvput a 23 16 v = withCount a (BitVec.ofNat 8 v) := by
  refine eq_of_sections [(0, 16), (16, 8), (24, 40)] (fun k hk => ?_) fun p hp => ?_
  · simp only [List.mem_cons, List.not_mem_nil, or_false, exists_eq_or_imp, exists_eq_left]
    omega
  · simp only [List.mem_cons, List.not_mem_nil, or_false] at hp
    have h16 : (withCount a (BitVec.ofNat 8 v)).extractLsb' 16 8 = BitVec.ofNat 8 v :=
      skip_low (s := 0) (w := 16) ((low_of_append _ _ (by omega)).trans BitVec.extractLsb'_eq_self)
    have h24 : (withCount a (BitVec.ofNat 8 v)).extractLsb' 24 40 = a.extractLsb' 24 40 :=
      skip_low (s := 8) (w := 16) (skip_low (s := 0) (w := 8) BitVec.extractLsb'_eq_self)
    rcases hp with rfl | rfl | rfl
    · rw [extractLsb'_bvput_ne a (by omega) (by omega)]
      exact ((low_of_append _ _ (by omega)).trans BitVec.extractLsb'_eq_self).symm
    · rw [extractLsb'_bvput_same a (by omega) (by omega) (by omega)]
      exact h16.symm
    · rw [extractLsb'_bvput_ne a (by omega) (by omega)]
      exact h24.symm

/-- The lines of a set are distinct. -/
theorem lineSet_nodup (a : Word) : (lineSet a).Nodup := by
  refine List.Nodup.map_on (fun x _ y _ h => ?_) List.nodup_range
  exact Nat.eq_of_mul_eq_mul_right (by omega) (Nat.add_left_cancel h)

/-! ### The words of a line (R155) -/

theorem memNat_congr {m m' : Memory} {a n : Nat} (h : ∀ k, a ≤ k → k < a + n → memByte m' k = memByte m k) :
    memNat m' a n = memNat m a n := by
  induction n generalizing a with
  | zero => rfl
  | succ n ih =>
    rw [memNat, memNat, h a (by omega) (by omega), ih fun k h1 h2 => h k (by omega) (by omega)]

theorem memByte_setCword (m : Memory) (l i : Nat) (v : Word) {k : Nat} (h : k < 64 * l + 4 * i ∨ 64 * l + 4 * i + 4 ≤ k) :
    memByte (setCword m l i v) k = memByte m k := by
  rw [setCword, memByte_memPut, if_neg (by omega)]

theorem cword_setCword_same (m : Memory) (l i : Nat) (v : Word) : cword (setCword m l i v) l i = v &&& 0xFFFFFFFF := by
  have hv : v.toNat % 256 ^ 4 = (v &&& 0xFFFFFFFF).toNat := by
    rw [BitVec.toNat_and]
    exact (Nat.and_two_pow_sub_one_eq_mod v.toNat 32).symm
  rw [cword, setCword, memNat_memPut, hv, BitVec.ofNat_toNat, BitVec.setWidth_eq]

theorem cword_setCword_ne (m : Memory) {l i l' j : Nat} (hi : i < 16) (hj : j < 16) (h : l' ≠ l ∨ j ≠ i) (v : Word) :
    cword (setCword m l i v) l' j = cword m l' j := by
  rw [cword, cword, memNat_congr fun k h1 h2 => memByte_setCword m l i v (by omega)]

/-- A line whose words are replaced, each by a function of itself and of the word of another line at its place. -/
def lineMap (g : Word → Word → Word) (l l2 n : Nat) (m : Memory) : Memory :=
  (List.range n).foldl (fun m i => setCword m l i (g (cword m l i) (cword m l2 i))) m

theorem lineMap_succ (g : Word → Word → Word) (l l2 n : Nat) (m : Memory) :
    lineMap g l l2 (n + 1) m = setCword (lineMap g l l2 n m) l n (g (cword (lineMap g l l2 n m) l n) (cword (lineMap g l l2 n m) l2 n)) := by
  rw [lineMap, List.range_succ, List.foldl_append]
  rfl

theorem memByte_lineMap (g : Word → Word → Word) (l l2 : Nat) {n : Nat} (hn : n ≤ 16) (m : Memory) {k : Nat} (hk : k / 64 ≠ l) :
    memByte (lineMap g l l2 n m) k = memByte m k := by
  induction n with
  | zero => rfl
  | succ n ih => rw [lineMap_succ, memByte_setCword _ _ _ _ (by omega), ih (by omega)]

/-- The words of a line after its words from 0 to n - 1 were replaced. -/
theorem cword_lineMap (g : Word → Word → Word) (l l2 : Nat) {n : Nat} (hn : n ≤ 16) (m : Memory) (l' : Nat) {j : Nat} (hj : j < 16) :
    cword (lineMap g l l2 n m) l' j = if l' = l ∧ j < n then g (cword m l j) (cword m l2 j) &&& 0xFFFFFFFF else cword m l' j := by
  induction n generalizing l' j with
  | zero => rw [if_neg (by omega)]; rfl
  | succ n ih =>
    rw [lineMap_succ]
    by_cases h : l' = l ∧ j = n
    · obtain ⟨rfl, rfl⟩ := h
      rw [cword_setCword_same, ih (by omega) _ hj, ih (by omega) _ hj, if_neg (by omega), if_neg (by omega), if_pos (by omega)]
    · rw [cword_setCword_ne _ (by omega) hj (by omega), ih (by omega) _ hj]
      exact if_congr (by omega) rfl rfl

/-- The words of all lines of a set replaced. -/
theorem lines_map (g : Word → Word) (ls : List Nat) (h : ls.Nodup) (m : Memory) :
    (∀ l ∈ ls, ∀ i < 16, cword (ls.foldl (fun m l => lineMap (fun x _ => g x) l l 16 m) m) l i = g (cword m l i) &&& 0xFFFFFFFF) ∧
    ∀ k, k / 64 ∉ ls → memByte (ls.foldl (fun m l => lineMap (fun x _ => g x) l l 16 m) m) k = memByte m k := by
  induction ls generalizing m with
  | nil => exact ⟨fun l hl => absurd hl List.not_mem_nil, fun _ _ => rfl⟩
  | cons x ls ih =>
    obtain ⟨hx, hls⟩ := List.nodup_cons.mp h
    obtain ⟨hw, hb⟩ := ih hls (lineMap (fun x _ => g x) x x 16 m)
    rw [List.foldl_cons]
    refine ⟨fun l hl i hi => ?_, fun k hk => ?_⟩
    · rcases List.mem_cons.mp hl with rfl | hl
      · rw [cword, memNat_congr fun k _ _ => hb k (by rw [show k / 64 = l by omega]; exact hx)]
        exact (cword_lineMap _ _ _ le_rfl _ _ hi).trans (if_pos ⟨rfl, hi⟩)
      · have hne : l ≠ x := fun e => hx (e ▸ hl)
        rw [hw l hl i hi, cword_lineMap _ _ _ le_rfl _ _ hi, if_neg (by omega)]
    · rw [hb k fun h' => hk (List.mem_cons_of_mem _ h'), memByte_lineMap _ _ _ le_rfl _ fun e => hk (e ▸ List.mem_cons_self)]

/-! ### FP32 results (R128) -/

theorem fsigned_lt {f : FFmt} {c : Nat} (h : c < 2 ^ (f.width - 1)) (neg : Bool) : fsigned f neg c < 2 ^ f.width := by
  have hw : 2 ^ f.width = 2 ^ (f.width - 1) + 2 ^ (f.width - 1) := by rw [← two_mul, ← Nat.pow_succ']; rfl
  unfold fsigned
  split <;> omega

theorem fovfTarget_lt (f : FFmt) (t : Bool) : fovfTarget f t < 2 ^ (f.width - 1) := by
  cases f <;> cases t <;> decide

/-- A rounded value is a code of its format. -/
theorem roundRne_lt (f : FFmt) (v : FVal) : roundRne f v < 2 ^ f.width := by
  cases v with
  | nan => exact (nanCode_lt f).trans (Nat.pow_lt_pow_right (by decide) (Nat.lt_succ_self _))
  | inf neg => exact fsigned_lt (fovfTarget_lt f false) neg
  | fin neg m e =>
    by_cases hm : m = 0
    · subst hm
      rw [roundRne, fround_zero]
      exact fsigned_lt (Nat.two_pow_pos _) neg
    · rw [roundRne, fround_fin f _ _ _ hm]
      refine fsigned_lt ?_ neg
      have hmax := (maxCode_lt_nanCode f).trans (nanCode_lt f)
      have ht := fovfTarget_lt f false
      simp only [roundMag, fovfCode, decide_eq_true_eq]
      generalize (if fup .rne neg _ _ _ = true then _ else _) = c
      split <;> omega

/-- A word below 2^32 is its low half. -/
theorem and_low_of_lt {x : Word} (h : x.toNat < 2 ^ 32) : x &&& 0xFFFFFFFF = x := by
  refine BitVec.eq_of_toNat_eq ?_
  rw [BitVec.toNat_and]
  exact (Nat.and_two_pow_sub_one_eq_mod x.toNat 32).trans (Nat.mod_eq_of_lt h)

theorem fp32Result_low (v : FVal) : fp32Result v &&& 0xFFFFFFFF = fp32Result v := by
  refine and_low_of_lt ?_
  rw [fp32Result, BitVec.toNat_ofNat]
  exact (Nat.mod_le _ _).trans_lt (roundRne_lt .fp32 v)

/-! ### CVEC (R157) -/

theorem cvecElem_eq (op : CvecOp) (long : Bool) (x y s t : Word) : cvecElem op long x y s t = cvecRule op long x y s t := by
  cases op with
  | fma => cases long <;> rfl
  | _ => rfl

theorem cvecRule_low (op : CvecOp) (long : Bool) (x y s t : Word) : cvecRule op long x y s t &&& 0xFFFFFFFF = cvecRule op long x y s t := by
  obtain ⟨v, hv⟩ : ∃ v, cvecRule op long x y s t = fp32Result v := by cases op <;> exact ⟨_, rfl⟩
  rw [hv, fp32Result_low]

/-- CVEC on the first of its lines. -/
theorem cvecRun_cons (op : CvecOp) (long : Bool) (s t : Word) (m : Memory) (l l2 : Nat) (rest : List (Nat × Nat)) :
    ∃ m', cvecRun op long s t m ((l, l2) :: rest) = cvecRun op long s t m' rest ∧
      (∀ i, i < 16 → cword m' l i = cvecRule op long (cword m l i) (cword m l2 i) s t) ∧
      ∀ k, k / 64 ≠ l → memByte m' k = memByte m k := by
  refine ⟨lineMap (fun x y => cvecElem op long x y s t) l l2 16 m, by rw [cvecRun, cvecRun, List.foldl_cons, lineMap],
    fun i hi => ?_, fun k hk => memByte_lineMap _ _ _ le_rfl _ hk⟩
  rw [cword_lineMap _ _ _ le_rfl _ _ hi, if_pos ⟨rfl, hi⟩, cvecElem_eq, cvecRule_low]

theorem entryEffect_cvec_short {e : BankEntry} {x : Lane} (hl : e.lanes = [x]) {op : CvecOp} (h : e.body = .cvec op false) (m : Memory) :
    entryEffect e m = (cvecRun op false x.y (x.y >>> 32) m ((lineSet x.x).zip (lineSet x.x)), [], 0) := by
  unfold entryEffect
  simp only [h, hl, List.headD_cons, setLines_eq]
  rfl

theorem entryEffect_cvec_long {e : BankEntry} {x : Lane} (hl : e.lanes = [x]) {op : CvecOp} (h : e.body = .cvec op true) (m : Memory) :
    entryEffect e m = (cvecRun op true (x.y >>> 32) (x.y >>> 32) m
      ((lineSet x.x).zip (lineSet (withCount x.y (x.x.extractLsb' 16 8)))), [], 0) := by
  have hc : setLines (bvput x.y 23 16 (bvf x.x 23 16)) = lineSet (withCount x.y (x.x.extractLsb' 16 8)) := by
    rw [setLines_eq, bvput_count, bvf_eq x.x (l := 8) rfl, BitVec.ofNat_toNat, BitVec.setWidth_eq]
  unfold entryEffect
  simp only [h, hl, List.headD_cons, setLines_eq, if_true]
  rw [← hc, setLines_eq]

/-! ### CRED and CSMX (R71, R158, R159) -/

theorem credFn_eq (op : CredOp) : credFn op = credStep op := by
  cases op <;> rfl

theorem credRun_eq (op : CredOp) (m : Memory) (ls : List Nat) : credRun op m ls = credRule op m ls := by
  cases ls with
  | nil => rfl
  | cons l ls => rw [credRun, credRule, credFn_eq]; rfl

theorem entryEffect_cred {e : BankEntry} {x : Lane} (hl : e.lanes = [x]) {op : CredOp} (h : e.body = .cred op) (m : Memory) :
    entryEffect e m = (m, [(x.thread, x.tag, credRule op m (lineSet x.x))], 0) := by
  unfold entryEffect
  simp only [h, hl, List.headD_cons, setLines_eq, credRun_eq]

theorem entryEffect_csmx {e : BankEntry} {x : Lane} (hl : e.lanes = [x]) (h : e.body = .csmx) (m : Memory) :
    ∃ m', entryEffect e m = (m', [(x.thread, x.tag, credRule .sum m' (lineSet x.x))], 0) ∧
      (∀ l ∈ lineSet x.x, ∀ i, i < 16 → cword m' l i =
        aluFn .expo (fp32Result ((fp32 (cword m l i)).add (fp32 x.y).negate)) &&& 0xFFFFFFFF) ∧
      ∀ k, k / 64 ∉ lineSet x.x → memByte m' k = memByte m k := by
  refine ⟨csmxRun x.y m (lineSet x.x), ?_, lines_map (fun w => aluFn .expo (fp32Result ((fp32 w).add (fp32 x.y).negate))) _ (lineSet_nodup x.x) m⟩
  unfold entryEffect
  simp only [h, hl, List.headD_cons, setLines_eq, credRun_eq]

end Sys2Proof.Machine
end

section
/-! SUPPORT. CCVT on the bytes of its lines (R160), and the rotated random word (R58). -/

namespace Sys2Proof.Machine

/-! ### The random word (R58) -/

/-- The rotation of a 32-bit number is that of its word. -/
theorem rotl32_eq (r i : Nat) : rotl32 r i = ((BitVec.ofNat 32 r).rotateLeft i).toNat := by
  rw [BitVec.toNat_rotateLeft, BitVec.toNat_ofNat, rotl32]
  have hx : r % 2 ^ 32 < 2 ^ 32 := Nat.mod_lt _ (Nat.two_pow_pos _)
  have hs : i % 32 < 32 := Nat.mod_lt _ (by decide)
  generalize r % 2 ^ 32 = x at *
  generalize i % 32 = s at *
  have hp : 2 ^ 32 = 2 ^ s * 2 ^ (32 - s) := by rw [← pow_add, Nat.add_sub_cancel' hs.le]
  have hb : x / 2 ^ (32 - s) < 2 ^ s := by
    rw [Nat.div_lt_iff_lt_mul (Nat.two_pow_pos _), ← hp]
    exact hx
  have hhigh : x * 2 ^ s % 2 ^ 32 = x % 2 ^ (32 - s) * 2 ^ s := by
    rw [hp, Nat.mul_comm x, Nat.mul_mod_mul_left, Nat.mul_comm]
  have hroom : (x % 2 ^ (32 - s) + 1) * 2 ^ s ≤ 2 ^ 32 := by
    rw [hp, Nat.mul_comm (2 ^ s)]
    exact Nat.mul_le_mul_right _ (Nat.mod_lt _ (Nat.two_pow_pos _))
  have hlow : x / 2 ^ (32 - s) % 2 ^ 32 = x / 2 ^ (32 - s) := Nat.mod_eq_of_lt ((Nat.div_le_self _ _).trans_lt hx)
  have hsum : x * 2 ^ s % 2 ^ 32 + x / 2 ^ (32 - s) % 2 ^ 32 < 2 ^ 32 := by
    rw [hhigh, hlow]
    rw [Nat.add_mul, Nat.one_mul] at hroom
    omega
  rw [Nat.add_mod_of_add_mod_lt hsum, hhigh, hlow, Nat.shiftLeft_eq, hhigh, Nat.shiftRight_eq_div_pow, ← Nat.shiftLeft_eq,
    Nat.shiftLeft_add_eq_or_of_lt hb]

/-- The rotation of a field. -/
theorem rotl32_field (a : Word) (i : Nat) : rotl32 (bvf a 63 32) i = ((a.extractLsb' 32 32).rotateLeft i).toNat := by
  rw [rotl32_eq, bvf_eq a (l := 32) rfl, BitVec.ofNat_toNat, BitVec.setWidth_eq]

/-! ### Elements beside one another -/

theorem length_flatMap_range {α : Type} (f : Nat → List α) {w : Nat} (hf : ∀ i, (f i).length = w) (n : Nat) :
    ((List.range n).flatMap f).length = n * w := by
  simp [List.length_flatMap, hf]

/-- An index into pieces of one length. -/
theorem getD_flatMap_range {α : Type} (f : Nat → List α) {w : Nat} (hw : 0 < w) (hf : ∀ i, (f i).length = w) (n j : Nat) (d : α) :
    ((List.range n).flatMap f).getD j d = if j / w < n then (f (j / w)).getD (j % w) d else d := by
  have hlen := length_flatMap_range f hf
  induction n with
  | zero => rfl
  | succ n ih =>
    rw [List.range_succ, List.flatMap_append, List.flatMap_singleton]
    by_cases h : j / w < n
    · have hj : j < n * w := (Nat.div_lt_iff_lt_mul hw).mp h
      rw [List.getD_append _ _ _ _ (by rw [hlen]; exact hj), ih, if_pos h, if_pos (by omega)]
    · have hj : n * w ≤ j := Nat.le_of_not_lt fun h' => h ((Nat.div_lt_iff_lt_mul hw).mpr h')
      rw [List.getD_append_right _ _ _ _ (by rw [hlen]; exact hj), hlen]
      have hmod := Nat.div_add_mod j w
      by_cases he : j / w = n
      · rw [if_pos (by omega), he, show j - n * w = j % w by rw [← he, Nat.mul_comm]; omega]
      · have hge : (n + 1) * w ≤ j := (Nat.le_div_iff_mul_le hw).mp (by omega)
        rw [Nat.add_mul, Nat.one_mul] at hge
        rw [if_neg (by omega), List.getD_eq_default _ _ (by rw [hf]; omega)]

theorem getD_append_zeros (l : List Byte) (n j : Nat) : (l ++ List.replicate n 0).getD j 0 = l.getD j 0 := by
  by_cases h : j < l.length
  · exact List.getD_append _ _ _ _ h
  · rw [List.getD_append_right _ _ _ _ (Nat.le_of_not_lt h), List.getD_eq_default l _ (Nat.le_of_not_lt h)]
    simp [List.getD_eq_getElem?_getD, List.getElem?_replicate]
    split <;> rfl

/-! ### CCVT (R160) -/

/-- The byte that CCVT puts at an address of a line. -/
def ccvtByte (src dst : FFmt) (c : RndCode) (rnd : Nat) (m : Memory) (k : Nat) : Byte :=
  let wd := dst.width / 8
  let ws := src.width / 8
  let i := k % 64 / wd
  if i < 16 then (natBytes wd (aluFcvt (.float src) (.float dst) c (BitVec.ofNat 64 (memNat m (k / 64 * 64 + i * ws) ws))
    (rotl32 rnd i)).toNat).getD (k % 64 % wd) 0
  else 0

theorem width_div_pos (f : FFmt) : 0 < f.width / 8 ∧ f.width / 8 ≤ 4 := by cases f <;> decide

/-- The bytes of a line are read for the line alone. -/
theorem ccvtByte_congr (src dst : FFmt) (c : RndCode) (rnd : Nat) {m m' : Memory} {k : Nat}
    (h : ∀ j, j / 64 = k / 64 → memByte m' j = memByte m j) : ccvtByte src dst c rnd m' k = ccvtByte src dst c rnd m k := by
  have hw := (width_div_pos src).2
  simp only [ccvtByte]
  split
  next hi =>
    rw [memNat_congr fun j h1 h2 => h j ?_]
    have hle : k % 64 / (dst.width / 8) * (src.width / 8) ≤ 15 * 4 := Nat.mul_le_mul (by omega) hw
    have hlt : k % 64 / (dst.width / 8) * (src.width / 8) + src.width / 8 ≤ 16 * 4 := by
      rw [← Nat.succ_mul]
      exact Nat.mul_le_mul (by omega) hw
    omega
  next => rfl

theorem memByte_ccvtLine (src dst : FFmt) (c : RndCode) (rnd : Nat) (m : Memory) (l k : Nat) :
    memByte (ccvtLine src dst c rnd m l) k = if k / 64 = l then ccvtByte src dst c rnd m k else memByte m k := by
  obtain ⟨hpos, hle⟩ := width_div_pos dst
  rw [ccvtLine, memByte_memPutBytes, List.length_append, length_flatMap_range _ (fun _ => natBytes_length _ _), List.length_replicate]
  refine ite_congr (propext (by omega)) (fun hk => ?_) fun _ => rfl
  rw [getD_append_zeros, getD_flatMap_range _ hpos (fun _ => natBytes_length _ _), show k - 64 * l = k % 64 by omega,
    show 64 * l = k / 64 * 64 by omega]
  rfl

/-- CCVT over its lines: each element is read before a line is written. -/
theorem memByte_ccvt_lines (src dst : FFmt) (c : RndCode) (rnd : Nat) (ls : List Nat) (h : ls.Nodup) (m : Memory) (k : Nat) :
    memByte (ls.foldl (ccvtLine src dst c rnd) m) k = if k / 64 ∈ ls then ccvtByte src dst c rnd m k else memByte m k := by
  induction ls generalizing m with
  | nil => rw [if_neg List.not_mem_nil]; rfl
  | cons l ls ih =>
    obtain ⟨hl, hls⟩ := List.nodup_cons.mp h
    rw [List.foldl_cons, ih hls, memByte_ccvtLine]
    by_cases hk : k / 64 = l
    · rw [if_neg (hk ▸ hl), if_pos hk, if_pos (hk ▸ List.mem_cons_self)]
    · have hm : k / 64 ∈ l :: ls ↔ k / 64 ∈ ls := List.mem_cons.trans (or_iff_right hk)
      rw [if_neg hk, if_congr hm rfl rfl, ccvtByte_congr src dst c rnd fun j hj => ?_]
      rw [memByte_ccvtLine, if_neg (hj ▸ hk)]

theorem entryEffect_ccvt {e : BankEntry} {x : Lane} (hl : e.lanes = [x]) (h : e.body = .ccvt) {src dst : FFmt}
    (hs : ffmtOf (x.y.extractLsb' 8 3).toNat = some src) (hd : ffmtOf (x.y.extractLsb' 3 3).toNat = some dst) (m : Memory) :
    (entryEffect e m).2 = ([], 0) ∧ ∀ k, memByte (entryEffect e m).1 k =
      if k / 64 ∈ lineSet x.x then
        let wd := dst.width / 8
        let ws := src.width / 8
        let i := k % 64 / wd
        if i < 16 then (natBytes wd (aluFcvt (.float src) (.float dst) (rndOf (x.y.extractLsb' 0 3).toNat)
          (BitVec.ofNat 64 (memNat m (k / 64 * 64 + i * ws) ws))
          (((x.x.extractLsb' 32 32).rotateLeft i).toNat)).toNat).getD (k % 64 % wd) 0
        else 0
      else memByte m k := by
  have he : entryEffect e m = (ccvtRun x.x x.y m, [], 0) := by
    unfold entryEffect
    simp only [h, hl, List.headD_cons]
  refine ⟨by rw [he], fun k => ?_⟩
  rw [he]
  simp only [ccvtRun, setLines_eq, bvf_eq x.y (hi := 10) (lo := 8) (l := 3) rfl, bvf_eq x.y (hi := 5) (lo := 3) (l := 3) rfl,
    bvf_eq x.y (hi := 2) (lo := 0) (l := 3) rfl, hs, hd, Option.getD_some]
  rw [memByte_ccvt_lines _ _ _ _ _ (lineSet_nodup x.x)]
  simp only [ccvtByte, rotl32_field]

end Sys2Proof.Machine
end

section
/-! SUPPORT. The grid of an N4 block: the codes of each sign and the one that a value is given (R63, R66). -/

namespace Sys2Proof.Machine

/-! ### The codes of one sign (R63) -/

/-- The magnitudes that a sign has, in units of the type. -/
def n4Side (t : Fin 4) (neg : Bool) : List Nat := if t = 0 ∧ neg = false then (n4Grid t).take 8 else n4Grid t

/-- The code of the magnitude with an index. -/
def n4Signed (t : Fin 4) (neg : Bool) (k : Nat) : Nat :=
  if k = 0 then 0
  else if t = 0 then (if neg then 16 - k else k)
  else (if neg then 8 + k else k)

/-- The value of a code in units of its type. -/
def n4Units (t : Fin 4) (c : Nat) : Int :=
  if t = 0 then (BitVec.ofNat 4 c).toInt else (if 8 ≤ c % 16 then -1 else 1) * ((n4Grid t).getD (c % 8) 0 : Nat)

theorem n4Rule_eq (t : Fin 4) (c : Nat) : n4Rule t c = (n4Units t c : ℚ) / 2 ^ n4Unit t := by
  have signed (l : List Nat) (u : Nat) : (((if 8 ≤ c % 16 then -1 else 1) * (l.getD (c % 8) 0 : Nat) : Int) : ℚ) / 2 ^ u =
      (if 8 ≤ c % 16 then -1 else 1) * (l.map fun x : Nat => (x : ℚ) / 2 ^ u).getD (c % 8) 0 := by
    have hm : (l.map fun x : Nat => (x : ℚ) / 2 ^ u).getD (c % 8) 0 = (l.getD (c % 8) 0 : Nat) / 2 ^ u := by
      have hd := List.getD_map (l := l) (n := c % 8) (d := 0) (fun x : Nat => (x : ℚ) / 2 ^ u)
      simpa only [Nat.cast_zero, zero_div] using hd
    rw [hm]
    push_cast
    rw [mul_div_assoc]
  match t with
  | 0 => simp [n4Rule, n4Units, n4Unit]
  | 1 =>
    refine Eq.trans ?_ (signed (n4Grid 1) 1).symm
    norm_num [n4Rule, n4Grid]
  | 2 =>
    refine Eq.trans ?_ (signed (n4Grid 2) 3).symm
    norm_num [n4Rule, n4Grid]
  | 3 =>
    refine Eq.trans ?_ (signed (n4Grid 3) 0).symm
    norm_num [n4Rule, n4Grid]

theorem n4Units_mod (t : Fin 4) (c : Nat) : n4Units t (c % 16) = n4Units t c := by
  have h : BitVec.ofNat 4 (c % 16) = BitVec.ofNat 4 c := BitVec.eq_of_toNat_eq (by simp)
  rw [n4Units, n4Units, h, Nat.mod_mod, Nat.mod_mod_of_dvd c (by decide : 8 ∣ 16)]

theorem n4Side_sorted : ∀ t neg, (n4Side t neg).Pairwise (· < ·) := by decide

theorem n4Side_zero : ∀ t neg, (n4Side t neg).getD 0 0 = 0 ∧ 0 < (n4Side t neg).length ∧ (n4Side t neg).length ≤ 9 := by decide

theorem n4Signed_lt : ∀ t neg (k : Fin 9), k < (n4Side t neg).length → n4Signed t neg k < 16 ∧ n4Signed t neg k % 2 = k % 2 := by decide

/-- The value of the code of a magnitude. -/
theorem n4Units_signed : ∀ t neg (k : Fin 9), k < (n4Side t neg).length →
    n4Units t (n4Signed t neg k) = (if neg then -1 else 1) * ((n4Side t neg).getD k 0 : Nat) := by decide

/-- A code has a magnitude of the sign, or is of the other one. -/
theorem n4Units_side : ∀ t neg (w : Fin 16), (∃ j : Fin 9, j < (n4Side t neg).length ∧
    (if neg then -1 else 1) * n4Units t w = ((n4Side t neg).getD j 0 : Nat)) ∨ (if neg then -1 else 1) * n4Units t w ≤ 0 := by decide

/-- The magnitude of an index. -/
def n4Mag (t : Fin 4) (neg : Bool) (k : Nat) : ℚ := (n4Side t neg).getD k 0 / 2 ^ n4Unit t

theorem n4Rule_signed (t : Fin 4) (neg : Bool) {k : Nat} (h : k < (n4Side t neg).length) :
    n4Rule t (n4Signed t neg k) = (if neg then -1 else 1) * n4Mag t neg k := by
  rw [n4Rule_eq, n4Units_signed t neg ⟨k, h.trans_le (n4Side_zero t neg).2.2⟩ h, n4Mag]
  push_cast
  rw [mul_div_assoc]

/-- A value of the type, seen from a sign. -/
theorem n4Rule_side (t : Fin 4) (neg : Bool) (w : Nat) :
    (∃ j < (n4Side t neg).length, (if neg then -1 else 1) * n4Rule t w = n4Mag t neg j) ∨ (if neg then -1 else 1) * n4Rule t w ≤ 0 := by
  have hp : (0 : ℚ) < 2 ^ n4Unit t := by positivity
  rw [n4Rule_eq, ← n4Units_mod, ← mul_div_assoc]
  rcases n4Units_side t neg ⟨w % 16, Nat.mod_lt _ (by decide)⟩ with ⟨j, hj, h⟩ | h
  · refine .inl ⟨j, hj, ?_⟩
    rw [n4Mag]
    congr 1
    exact_mod_cast h
  · exact .inr (div_nonpos_of_nonpos_of_nonneg (by exact_mod_cast h) hp.le)

/-- The greatest magnitude of each sign. -/
theorem n4Mag_last (t : Fin 4) : n4Mag t false ((n4Side t false).length - 1) = n4TopRule t ∧
    n4Mag t true ((n4Side t true).length - 1) = -n4Least t := by
  fin_cases t <;> norm_num [n4Mag, n4Side, n4Grid, n4Unit, n4TopRule, n4Least]

theorem n4TopRule_eq (t : Fin 4) : n4TopRule t = n4Top t / 2 ^ n4Unit t := by
  fin_cases t <;> norm_num [n4TopRule, n4Top, n4Unit]

theorem n4Mag_zero (t : Fin 4) (neg : Bool) : n4Mag t neg 0 = 0 := by
  rw [n4Mag, (n4Side_zero t neg).1, Nat.cast_zero, zero_div]

theorem n4Mag_strictMono (t : Fin 4) (neg : Bool) {i j : Nat} (hij : i < j) (hj : j < (n4Side t neg).length) : n4Mag t neg i < n4Mag t neg j := by
  rw [n4Mag, n4Mag, div_lt_div_iff_of_pos_right (by positivity), Nat.cast_lt, List.getD_eq_getElem _ _ (hij.trans hj), List.getD_eq_getElem _ _ hj]
  exact List.pairwise_iff_getElem.mp (n4Side_sorted t neg) i j _ hj hij

theorem n4Mag_mono (t : Fin 4) (neg : Bool) {i j : Nat} (hij : i ≤ j) (hj : j < (n4Side t neg).length) : n4Mag t neg i ≤ n4Mag t neg j := by
  rcases hij.eq_or_lt with rfl | h
  · exact le_rfl
  · exact (n4Mag_strictMono t neg h hj).le

/-! ### The index that is picked (R66) -/

/-- In a rising list what is below a bound stands first. -/
theorem getElem_iff_lt_filter_length {p : Nat → Bool} (hp : ∀ x y, x < y → p y = true → p x = true) (l : List Nat) (h : l.Pairwise (· < ·))
    (j : Nat) (hj : j < l.length) : p l[j] = true ↔ j < (l.filter p).length := by
  induction l generalizing j with
  | nil => exact absurd hj (Nat.not_lt_zero _)
  | cons x l ih =>
    obtain ⟨hx, hl⟩ := List.pairwise_cons.mp h
    by_cases hpx : p x = true
    · rw [List.filter_cons_of_pos hpx, List.length_cons]
      cases j with
      | zero => simp [hpx]
      | succ j => rw [List.getElem_cons_succ, ih hl, Nat.succ_lt_succ_iff]
    · have hnone (y : Nat) (hy : y ∈ l) : ¬ p y = true := fun h' => hpx (hp x y (hx y hy) h')
      rw [List.filter_cons_of_neg hpx, List.filter_eq_nil_iff.mpr hnone]
      cases j with
      | zero => simpa using hpx
      | succ j => simpa using hnone _ (List.getElem_mem (by simpa using hj))

/-- The index of the greatest magnitude not above a value. -/
def n4Low (t : Fin 4) (neg : Bool) (num den : Nat) : Nat := ((n4Side t neg).filter fun x => decide (x * den ≤ num)).length - 1

theorem n4Low_spec (t : Fin 4) (neg : Bool) (num den : Nat) :
    n4Low t neg num den < (n4Side t neg).length ∧ (n4Side t neg).getD (n4Low t neg num den) 0 * den ≤ num ∧
      (n4Low t neg num den + 1 < (n4Side t neg).length → num < (n4Side t neg).getD (n4Low t neg num den + 1) 0 * den) := by
  have hp (x y : Nat) (hxy : x < y) (h : decide (y * den ≤ num) = true) : decide (x * den ≤ num) = true :=
    decide_eq_true ((Nat.mul_le_mul_right den hxy.le).trans (of_decide_eq_true h))
  have hiff := getElem_iff_lt_filter_length hp _ (n4Side_sorted t neg)
  obtain ⟨h0, hpos, -⟩ := n4Side_zero t neg
  have hle := List.length_filter_le (fun x => decide (x * den ≤ num)) (n4Side t neg)
  have hcount : 0 < ((n4Side t neg).filter fun x => decide (x * den ≤ num)).length := by
    rw [← hiff 0 hpos, ← List.getD_eq_getElem _ 0, h0, Nat.zero_mul]
    exact decide_eq_true (Nat.zero_le _)
  have hlt : n4Low t neg num den < (n4Side t neg).length := by unfold n4Low; omega
  refine ⟨hlt, ?_, fun h => ?_⟩
  · rw [List.getD_eq_getElem _ _ hlt]
    exact of_decide_eq_true ((hiff _ hlt).mpr (by unfold n4Low; omega))
  · rw [List.getD_eq_getElem _ _ h]
    exact Nat.lt_of_not_le fun h' => absurd ((hiff _ h).mp (decide_eq_true h')) (by unfold n4Low; omega)

/-- The index that is picked, by the neighbours of the value. -/
theorem n4Pick_eq (t : Fin 4) (neg : Bool) (num den : Nat) (sr : Option Nat) :
    n4Pick t neg num den sr =
      let lo := n4Low t neg num den
      let l := (n4Side t neg).getD lo 0 * den
      let h := (n4Side t neg).getD (lo + 1) 0 * den
      if (n4Side t neg).length ≤ lo + 1 then lo
      else if l = num then lo
      else match sr with
        | some r => if r < (num - l) * 2 ^ 32 / (h - l) then lo + 1 else lo
        | none => if 2 * num < l + h then lo else if l + h < 2 * num then lo + 1 else if lo % 2 = 0 then lo else lo + 1 := rfl

theorem n4Code_fin (t : Fin 4) (ex : Nat) (neg : Bool) (m : Nat) (x : Int) (sr : Option Nat) :
    n4Code t ex (.fin neg m x) sr = n4Signed t neg (n4Pick t neg (m * 2 ^ (x - ((ex : Int) - 48) + n4Unit t).toNat)
      (2 ^ (-(x - ((ex : Int) - 48) + n4Unit t)).toNat) sr) := rfl

end Sys2Proof.Machine
end

section
/-! SUPPORT. The code that grid(t, y, mode, rnd) picks (R66). -/

namespace Sys2Proof.Machine

/-! ### A value between two magnitudes -/

/-- A sign as a factor. -/
def sgnRat (neg : Bool) : ℚ := if neg then -1 else 1

theorem sgnRat_mul_self (neg : Bool) : sgnRat neg * sgnRat neg = 1 := by cases neg <;> simp [sgnRat]

theorem sgnRat_cancel (neg : Bool) (x : ℚ) : sgnRat neg * (sgnRat neg * x) = x := by
  rw [← mul_assoc, sgnRat_mul_self, one_mul]

theorem abs_sgnRat_mul (neg : Bool) (x : ℚ) : |sgnRat neg * x| = |x| := by cases neg <;> simp [sgnRat]

theorem eq_sgnRat_mul_iff (neg : Bool) (x y : ℚ) : x = sgnRat neg * y ↔ sgnRat neg * x = y := by
  constructor
  · rintro rfl
    exact sgnRat_cancel neg y
  · rintro rfl
    exact (sgnRat_cancel neg x).symm

/-- A distance, seen from a sign. -/
theorem abs_sub_sgnRat_mul (neg : Bool) (x z : ℚ) : |x - sgnRat neg * z| = |sgnRat neg * x - z| := by
  rw [← abs_sgnRat_mul neg (x - sgnRat neg * z), mul_sub, sgnRat_cancel]

theorem sgnRat_mul_mul (neg : Bool) (x z : ℚ) : x * (sgnRat neg * z) = sgnRat neg * x * z := by ring

/-- A magnitude lies strictly between two that are neighbours among those of a sign. -/
structure N4Between (t : Fin 4) (neg : Bool) (z l h : ℚ) : Prop where
  low_nonneg : 0 ≤ l
  low_lt : l < z
  lt_high : z < h
  low_value : ∃ w, n4Rule t w = sgnRat neg * l
  high_value : ∃ w, n4Rule t w = sgnRat neg * h
  gap : ∀ w, sgnRat neg * n4Rule t w ≤ l ∨ h ≤ sgnRat neg * n4Rule t w

namespace N4Between

variable {t : Fin 4} {neg : Bool} {z l h : ℚ} (H : N4Between t neg z l h) {c : Nat}
include H

theorem not_value : ¬ ∃ w, n4Rule t w = sgnRat neg * z := by
  rintro ⟨w, hw⟩
  have := H.low_lt
  have := H.lt_high
  rcases H.gap w with h' | h' <;> rw [hw, sgnRat_cancel] at h' <;> linarith

/-- The lower neighbour is the nearest value. -/
theorem nearest_low (hc : n4Rule t c = sgnRat neg * l) (hz : z - l < h - z ∨ z - l = h - z ∧ c % 2 = 0) (w : Nat) :
    |n4Rule t c - sgnRat neg * z| ≤ |n4Rule t w - sgnRat neg * z| ∧
      (|n4Rule t c - sgnRat neg * z| = |n4Rule t w - sgnRat neg * z| → n4Rule t w ≠ n4Rule t c → c % 2 = 0) := by
  have hlow := H.low_lt
  have hhigh := H.lt_high
  have hd : |n4Rule t c - sgnRat neg * z| = z - l := by
    rw [abs_sub_sgnRat_mul, hc, sgnRat_cancel, abs_of_nonpos (by linarith), neg_sub]
  rw [hd, abs_sub_sgnRat_mul neg (n4Rule t w)]
  rcases H.gap w with hw | hw
  · rw [abs_of_nonpos (by linarith)]
    refine ⟨by linarith, fun e hne => absurd ?_ hne⟩
    rw [hc, eq_sgnRat_mul_iff]
    linarith
  · rw [abs_of_nonneg (by linarith)]
    rcases hz with hz | ⟨hz, hev⟩
    · exact ⟨by linarith, fun e => absurd e (by linarith)⟩
    · exact ⟨by linarith, fun _ _ => hev⟩

/-- The upper neighbour is the nearest value. -/
theorem nearest_high (hc : n4Rule t c = sgnRat neg * h) (hz : h - z < z - l ∨ h - z = z - l ∧ c % 2 = 0) (w : Nat) :
    |n4Rule t c - sgnRat neg * z| ≤ |n4Rule t w - sgnRat neg * z| ∧
      (|n4Rule t c - sgnRat neg * z| = |n4Rule t w - sgnRat neg * z| → n4Rule t w ≠ n4Rule t c → c % 2 = 0) := by
  have hlow := H.low_lt
  have hhigh := H.lt_high
  have hd : |n4Rule t c - sgnRat neg * z| = h - z := by
    rw [abs_sub_sgnRat_mul, hc, sgnRat_cancel, abs_of_nonneg (by linarith)]
  rw [hd, abs_sub_sgnRat_mul neg (n4Rule t w)]
  rcases H.gap w with hw | hw
  · rw [abs_of_nonpos (by linarith)]
    rcases hz with hz | ⟨hz, hev⟩
    · exact ⟨by linarith, fun e => absurd e (by linarith)⟩
    · exact ⟨by linarith, fun _ _ => hev⟩
  · rw [abs_of_nonneg (by linarith)]
    refine ⟨by linarith, fun e hne => absurd ?_ hne⟩
    rw [hc, eq_sgnRat_mul_iff]
    linarith

/-- The neighbours of the value are the two magnitudes with its sign. -/
theorem neighbours {l' h' : ℚ} (hn : Neighbours (fun u => ∃ w, n4Rule t w = u) (sgnRat neg * z) l' h') :
    l' = sgnRat neg * l ∧ h' = sgnRat neg * h := by
  obtain ⟨⟨wl, hl⟩, ⟨wh, hh⟩, hlz, hzh, hls, hhs, hno⟩ := hn
  have hlow := H.low_lt
  have hhigh := H.lt_high
  have h0 := H.low_nonneg
  have hz : 0 < z := h0.trans_lt hlow
  rw [sgnRat_mul_mul] at hls hhs
  have hl0 : 0 ≤ sgnRat neg * l' := nonneg_of_mul_nonneg_left hls hz
  have hh0 : 0 < sgnRat neg * h' := (mul_pos_iff_of_pos_right hz).mp hhs
  rw [abs_sgnRat_mul, abs_of_pos hz] at hlz hzh
  rw [← abs_sgnRat_mul neg, abs_of_nonneg hl0] at hlz
  rw [← abs_sgnRat_mul neg, abs_of_pos hh0] at hzh
  have none_between (x : ℚ) (hx : 0 ≤ x) (hv : ∃ w, n4Rule t w = sgnRat neg * x) : ¬ (sgnRat neg * l' < x ∧ x < sgnRat neg * h') := by
    have := hno _ hv (by rw [sgnRat_mul_mul, sgnRat_cancel]; positivity)
    rwa [abs_sgnRat_mul, abs_of_nonneg hx, ← abs_sgnRat_mul neg l', abs_of_nonneg hl0, ← abs_sgnRat_mul neg h', abs_of_pos hh0] at this
  rw [eq_sgnRat_mul_iff, eq_sgnRat_mul_iff]
  have h1 := none_between l h0 H.low_value
  have h2 := none_between h (h0.trans (hlow.trans hhigh).le) H.high_value
  have h3 := H.gap wl
  have h4 := H.gap wh
  rw [hl] at h3
  rw [hh] at h4
  constructor
  · refine le_antisymm (h3.resolve_right (by linarith)) (le_of_not_gt fun h' => h1 ⟨h', by linarith⟩)
  · refine le_antisymm (le_of_not_gt fun h' => h2 ⟨by linarith, h'⟩) (h4.resolve_left (by linarith))

end N4Between

/-! ### The rule within the range of the type -/

/-- What R66 says of a value within the range of its type. -/
def GridWithin (t : Fin 4) (y : ℚ) (sr : Option Nat) (c : Nat) : Prop :=
  ((∃ w, n4Rule t w = y) → n4Rule t c = y) ∧
  (sr = none → ∀ w, |n4Rule t c - y| ≤ |n4Rule t w - y| ∧
    (|n4Rule t c - y| = |n4Rule t w - y| → n4Rule t w ≠ n4Rule t c → c % 2 = 0)) ∧
  ∀ rnd l h, sr = some rnd → Neighbours (fun u => ∃ w, n4Rule t w = u) y l h → n4Rule t c = stochastic rnd y l h

/-- A value of the type keeps its code. -/
theorem gridWithin_of_eq {t : Fin 4} {y : ℚ} {c : Nat} (h : n4Rule t c = y) (sr : Option Nat) : GridWithin t y sr c := by
  refine ⟨fun _ => h, fun _ w => ?_, fun rnd l u _ hn => ?_⟩
  · rw [h, sub_self, abs_zero]
    exact ⟨abs_nonneg _, fun e hne => absurd (sub_eq_zero.mp (abs_eq_zero.mp e.symm)) hne⟩
  · obtain ⟨-, -, hly, hyu, -, -, hno⟩ := hn
    exact absurd ⟨hly, hyu⟩ (hno y ⟨c, h⟩ (mul_self_nonneg y))

/-- The rounding between two magnitudes, by the mode. -/
theorem gridWithin_of_between {t : Fin 4} {neg : Bool} {z l h : ℚ} (H : N4Between t neg z l h) {sr : Option Nat} {c : Nat}
    (hr : sr = none → n4Rule t c = sgnRat neg * l ∧ (z - l < h - z ∨ z - l = h - z ∧ c % 2 = 0) ∨
      n4Rule t c = sgnRat neg * h ∧ (h - z < z - l ∨ h - z = z - l ∧ c % 2 = 0))
    (hs : ∀ rnd, sr = some rnd → n4Rule t c = sgnRat neg * if (rnd : ℤ) < ⌊(z - l) / (h - l) * 2 ^ 32⌋ then h else l) :
    GridWithin t (sgnRat neg * z) sr c := by
  have hz : 0 < z := H.low_nonneg.trans_lt H.low_lt
  refine ⟨fun hv => absurd hv H.not_value, fun hsr w => ?_, fun rnd l' h' hsr hn => ?_⟩
  · rcases hr hsr with ⟨hc, hd⟩ | ⟨hc, hd⟩
    · exact H.nearest_low hc hd w
    · exact H.nearest_high hc hd w
  · obtain ⟨rfl, rfl⟩ := H.neighbours hn
    rw [hs rnd hsr, stochastic]
    simp only [abs_sgnRat_mul, abs_of_pos hz, abs_of_nonneg H.low_nonneg, abs_of_pos (hz.trans H.lt_high)]
    exact mul_ite ..

/-! ### The picked code satisfies the rule -/

theorem n4Pick_lt (t : Fin 4) (neg : Bool) (num den : Nat) (sr : Option Nat) : n4Pick t neg num den sr < (n4Side t neg).length := by
  obtain ⟨hlo, -, -⟩ := n4Low_spec t neg num den
  have hpick : n4Pick t neg num den sr = n4Low t neg num den ∨
      n4Low t neg num den + 1 < (n4Side t neg).length ∧ n4Pick t neg num den sr = n4Low t neg num den + 1 := by
    rw [n4Pick_eq]
    dsimp only
    split
    · exact .inl rfl
    next hlt =>
      split
      · exact .inl rfl
      · have hlt' := Nat.not_le.mp hlt
        cases sr <;> dsimp only <;> split_ifs <;> simp [hlt']
  rcases hpick with h | ⟨hlt, h⟩ <;> rw [h] <;> assumption

/-- Only the code 0 has the value 0. -/
theorem n4Signed_zero_of_value {t : Fin 4} {neg : Bool} {k : Nat} (hk : k < (n4Side t neg).length) (h : n4Rule t (n4Signed t neg k) = 0) :
    n4Signed t neg k = 0 := by
  rcases Nat.eq_zero_or_pos k with rfl | hpos
  · rfl
  · have hmag := n4Mag_strictMono t neg hpos hk
    rw [n4Mag_zero] at hmag
    rw [n4Rule_signed t neg hk] at h
    have h0 : n4Mag t neg k = 0 := by simpa [sgnRat, h] using (sgnRat_cancel neg (n4Mag t neg k)).symm
    exact absurd h0 hmag.ne'

section Pick

variable {t : Fin 4} {neg : Bool} {num den : Nat} {z : ℚ} (hden : 0 < den) (hz : z = (num : ℚ) / den / 2 ^ n4Unit t)
include hden hz

theorem n4Mag_le_iff (j : Nat) : n4Mag t neg j ≤ z ↔ (n4Side t neg).getD j 0 * den ≤ num := by
  have hd : (0 : ℚ) < den := Nat.cast_pos.mpr hden
  rw [hz, n4Mag, div_le_div_iff_of_pos_right (by positivity), le_div_iff₀ hd]
  exact_mod_cast Iff.rfl

theorem lt_n4Mag_iff (j : Nat) : z < n4Mag t neg j ↔ num < (n4Side t neg).getD j 0 * den := by
  rw [← not_le, n4Mag_le_iff hden hz, not_le]

theorem n4Mag_eq_iff (j : Nat) : n4Mag t neg j = z ↔ (n4Side t neg).getD j 0 * den = num := by
  have hd : (0 : ℚ) < den := Nat.cast_pos.mpr hden
  rw [hz, n4Mag, div_left_inj' (by positivity), eq_div_iff hd.ne']
  exact_mod_cast Iff.rfl

/-- Magnitudes over the common denominator. -/
theorem n4Mag_scaled (j : Nat) : n4Mag t neg j * (den * 2 ^ n4Unit t) = ((n4Side t neg).getD j 0 * den : Nat) ∧
    z * (den * 2 ^ n4Unit t) = num := by
  have hd : (den : ℚ) ≠ 0 := (Nat.cast_pos.mpr hden).ne'
  rw [hz, n4Mag]
  push_cast
  constructor <;> field_simp

/-- The magnitudes beside a value that is none of them. -/
theorem n4Between_low (hlt : n4Low t neg num den + 1 < (n4Side t neg).length)
    (hne : (n4Side t neg).getD (n4Low t neg num den) 0 * den ≠ num) :
    N4Between t neg z (n4Mag t neg (n4Low t neg num den)) (n4Mag t neg (n4Low t neg num den + 1)) := by
  obtain ⟨hlo, hle, hhi⟩ := n4Low_spec t neg num den
  refine ⟨?_, ?_, (lt_n4Mag_iff hden hz _).mpr (hhi hlt), ⟨_, n4Rule_signed t neg hlo⟩, ⟨_, n4Rule_signed t neg hlt⟩, fun w => ?_⟩
  · unfold n4Mag; positivity
  · exact lt_of_le_of_ne ((n4Mag_le_iff hden hz _).mpr hle) ((n4Mag_eq_iff hden hz _).not.mpr hne)
  · rcases n4Rule_side t neg w with ⟨j, hj, h⟩ | h
    · rw [sgnRat, h]
      rcases Nat.lt_or_ge (n4Low t neg num den) j with h' | h'
      · exact .inr (n4Mag_mono t neg h' hj)
      · exact .inl (n4Mag_mono t neg h' hlo)
    · exact .inl (h.trans (by unfold n4Mag; positivity))

/-- A value between two magnitudes is nearer to the lower one, or to the upper one. -/
theorem n4Mag_nearer_iff (i j : Nat) :
    (z - n4Mag t neg i < n4Mag t neg j - z ↔ 2 * num < (n4Side t neg).getD i 0 * den + (n4Side t neg).getD j 0 * den) ∧
    (n4Mag t neg j - z < z - n4Mag t neg i ↔ (n4Side t neg).getD i 0 * den + (n4Side t neg).getD j 0 * den < 2 * num) := by
  have hk : (0 : ℚ) < den * 2 ^ n4Unit t := mul_pos (Nat.cast_pos.mpr hden) (by positivity)
  obtain ⟨hi, hnum⟩ := n4Mag_scaled (neg := neg) hden hz i
  have hj := (n4Mag_scaled (neg := neg) hden hz j).1
  rw [← Nat.cast_lt (α := ℚ), ← Nat.cast_lt (α := ℚ), Nat.cast_add, Nat.cast_mul 2, ← hi, ← hj, ← hnum, ← mul_lt_mul_iff_left₀ hk,
    ← mul_lt_mul_iff_left₀ hk (b := n4Mag t neg j - z), Nat.cast_ofNat]
  constructor <;> constructor <;> intro h <;> linarith

/-- The place of a value between two magnitudes. -/
theorem n4Mag_place {i j : Nat} (hi : n4Mag t neg i ≤ z) (hj : n4Mag t neg i ≤ n4Mag t neg j) :
    (z - n4Mag t neg i) / (n4Mag t neg j - n4Mag t neg i) = ((num - (n4Side t neg).getD i 0 * den : Nat) : ℚ) /
      (((n4Side t neg).getD j 0 * den - (n4Side t neg).getD i 0 * den : Nat) : ℚ) := by
  have hk : (0 : ℚ) < den * 2 ^ n4Unit t := mul_pos (Nat.cast_pos.mpr hden) (by positivity)
  obtain ⟨hik, hnum⟩ := n4Mag_scaled (neg := neg) hden hz i
  have hjk := (n4Mag_scaled (neg := neg) hden hz j).1
  have hle : (n4Side t neg).getD i 0 * den ≤ (n4Side t neg).getD j 0 * den := by
    rw [← Nat.cast_le (α := ℚ), ← hik, ← hjk]
    exact mul_le_mul_of_nonneg_right hj hk.le
  rw [Nat.cast_sub ((n4Mag_le_iff hden hz i).mp hi), Nat.cast_sub hle, ← hik, ← hjk, ← hnum, ← sub_mul, ← sub_mul,
    mul_div_mul_right _ _ hk.ne']

/-- The picked code of a value that has magnitudes of its sign on both sides. -/
theorem gridWithin_pick (hlt : n4Low t neg num den + 1 < (n4Side t neg).length) (sr : Option Nat) :
    GridWithin t (sgnRat neg * z) sr (n4Signed t neg (n4Pick t neg num den sr)) := by
  obtain ⟨hlo, -, -⟩ := n4Low_spec t neg num den
  have hclo := n4Rule_signed t neg hlo
  have hchi := n4Rule_signed t neg hlt
  have hn9 := (n4Side_zero t neg).2.2
  rw [n4Pick_eq]
  simp only [if_neg (Nat.not_le.mpr hlt)]
  by_cases he : (n4Side t neg).getD (n4Low t neg num den) 0 * den = num
  · rw [if_pos he]
    exact gridWithin_of_eq (hclo.trans (congrArg _ ((n4Mag_eq_iff hden hz _).mpr he))) sr
  · have H := n4Between_low hden hz hlt he
    have hnear := n4Mag_nearer_iff (neg := neg) hden hz (n4Low t neg num den) (n4Low t neg num den + 1)
    have hplace := n4Mag_place (neg := neg) hden hz H.low_lt.le (H.low_lt.trans H.lt_high).le
    have plo := (n4Signed_lt t neg ⟨_, hlo.trans_le hn9⟩ hlo).2
    have phi := (n4Signed_lt t neg ⟨_, hlt.trans_le hn9⟩ hlt).2
    rw [if_neg he]
    refine gridWithin_of_between H (fun hsr => ?_) fun rnd hsr => ?_ <;> subst hsr
    · rcases lt_trichotomy (2 * num) ((n4Side t neg).getD (n4Low t neg num den) 0 * den +
        (n4Side t neg).getD (n4Low t neg num den + 1) 0 * den) with h | h | h
      · rw [if_pos h]
        exact .inl ⟨hclo, .inl (hnear.1.mpr h)⟩
      · have htie : z - n4Mag t neg (n4Low t neg num den) = n4Mag t neg (n4Low t neg num den + 1) - z :=
          le_antisymm (not_lt.mp (hnear.2.not.mpr (by omega))) (not_lt.mp (hnear.1.not.mpr (by omega)))
        rw [if_neg h.not_lt, if_neg h.not_gt]
        by_cases hev : n4Low t neg num den % 2 = 0
        · rw [if_pos hev]
          exact .inl ⟨hclo, .inr ⟨htie, plo.trans hev⟩⟩
        · rw [if_neg hev]
          exact .inr ⟨hchi, .inr ⟨htie.symm, phi.trans (by dsimp only; omega)⟩⟩
      · rw [if_neg h.not_gt, if_pos h]
        exact .inr ⟨hchi, .inl (hnear.2.mpr h)⟩
    · rw [hplace, floor_frac, apply_ite (n4Signed t neg), apply_ite (n4Rule t), hclo, hchi, mul_ite]
      exact if_congr Nat.cast_lt.symm rfl rfl

/-- The magnitude of the picked code beyond all magnitudes but the last. -/
theorem n4Pick_last (hlast : (n4Side t neg).length ≤ n4Low t neg num den + 1) (sr : Option Nat) :
    n4Rule t (n4Signed t neg (n4Pick t neg num den sr)) = sgnRat neg * n4Mag t neg ((n4Side t neg).length - 1) ∧
      n4Mag t neg ((n4Side t neg).length - 1) ≤ z := by
  obtain ⟨hlo, hle, -⟩ := n4Low_spec t neg num den
  have hk : n4Pick t neg num den sr = n4Low t neg num den := by rw [n4Pick_eq]; exact if_pos hlast
  rw [hk, show (n4Side t neg).length - 1 = n4Low t neg num den by omega]
  exact ⟨n4Rule_signed t neg hlo, (n4Mag_le_iff hden hz _).mpr hle⟩

/-- The picked code satisfies the rule. -/
theorem gridRule_pick (sr : Option Nat) : GridRule t (sgnRat neg * z) sr (n4Signed t neg (n4Pick t neg num den sr)) := by
  have hk := n4Pick_lt t neg num den sr
  have hc := (n4Signed_lt t neg ⟨_, hk.trans_le (n4Side_zero t neg).2.2⟩ hk).1
  obtain ⟨htop, hleast⟩ := n4Mag_last t
  have hz0 : 0 ≤ z := by rw [hz]; positivity
  have hbound : n4Mag t neg ((n4Side t neg).length - 1) < z →
      n4Rule t (n4Signed t neg (n4Pick t neg num den sr)) = sgnRat neg * n4Mag t neg ((n4Side t neg).length - 1) := fun h =>
    (n4Pick_last hden hz (Nat.le_of_not_lt fun hlt => absurd ((lt_n4Mag_iff hden hz _).mpr ((n4Low_spec t neg num den).2.2 hlt))
      (not_lt.mpr ((n4Mag_mono t neg (by omega) (by omega)).trans h.le))) sr).1
  have htop0 : 0 ≤ n4TopRule t := by rw [← htop]; unfold n4Mag; positivity
  have hleast0 : n4Least t ≤ 0 := by rw [← neg_nonneg, ← hleast]; unfold n4Mag; positivity
  refine ⟨hc, n4Signed_zero_of_value hk, fun h => ?_, fun h => ?_, fun h1 h2 => ?_⟩
  · cases neg with
    | false => rw [hbound (by simpa [htop, sgnRat] using h), htop]; exact one_mul _
    | true => exact absurd h (by simp only [sgnRat, if_true]; linarith)
  · cases neg with
    | false => exact absurd h (by simp only [sgnRat, Bool.false_eq_true, if_false]; linarith)
    | true => rw [hbound (by rw [hleast]; simp only [sgnRat, if_true] at h; linarith), hleast]; simp [sgnRat]
  · rcases Nat.lt_or_ge (n4Low t neg num den + 1) (n4Side t neg).length with hlt | hlast
    · exact gridWithin_pick hden hz hlt sr
    · obtain ⟨hv, hle⟩ := n4Pick_last hden hz hlast sr
      have hge : z ≤ n4Mag t neg ((n4Side t neg).length - 1) := by
        cases neg with
        | false => rw [htop]; simpa [sgnRat] using h2
        | true => rw [hleast]; simp only [sgnRat, if_true] at h1; linarith
      rw [le_antisymm hle hge] at hv
      exact gridWithin_of_eq hv sr

end Pick

end Sys2Proof.Machine
end

section
/-! SUPPORT. The quantised block (R65): the greatest magnitude, the scale and the codes. -/

namespace Sys2Proof.Machine

/-! ### The greatest magnitude -/

/-- A value that is not finite has no greatest magnitude. -/
theorem n4Amax_none (xs : List FVal) : n4Amax xs = none ↔ ∃ x ∈ xs, x.rat? = none := by
  induction xs with
  | nil => simp [n4Amax]
  | cons x xs ih =>
    cases x with
    | nan => simp [n4Amax]
    | inf s => simp [n4Amax]
    | fin s m e =>
      rw [n4Amax]
      cases ha : n4Amax xs with
      | none => simpa using ih.mp ha
      | some a =>
        have hno : ¬ ∃ x ∈ xs, x.rat? = none := by rw [← ih, ha]; exact Option.some_ne_none a
        refine iff_of_false (by dsimp only; split <;> exact Option.some_ne_none _) ?_
        rintro ⟨y, hy, hn⟩
        rcases List.mem_cons.mp hy with rfl | hy
        · cases hn
        · exact hno ⟨y, hy, hn⟩

/-- The greatest magnitude bounds all values, and is one of them or zero. -/
theorem n4Amax_some {xs : List FVal} {ps : List ℚ} (hp : xs.map FVal.rat? = ps.map some) {m : Nat} {e : Int} (h : n4Amax xs = some (m, e)) :
    (∀ p ∈ ps, |p| ≤ finRat false m e) ∧ (finRat false m e = 0 ∨ ∃ p ∈ ps, |p| = finRat false m e) := by
  induction xs generalizing ps m e with
  | nil =>
    obtain rfl : ps = [] := by simpa using hp.symm
    obtain ⟨rfl, rfl⟩ : 0 = m ∧ 0 = e := by simpa [n4Amax] using h
    exact ⟨fun p hp => absurd hp List.not_mem_nil, .inl (finRat_zero _ _)⟩
  | cons x xs ih =>
    cases ps with
    | nil => simp at hp
    | cons p ps =>
      obtain ⟨hx, hxs⟩ := List.cons.inj hp
      obtain ⟨s, n, f, rfl, rfl⟩ := exists_fin_of_rat? hx
      rw [n4Amax] at h
      cases ha : n4Amax xs with
      | none => rw [ha] at h; cases h
      | some a =>
        obtain ⟨m', e'⟩ := a
        obtain ⟨hle, hmem⟩ := ih hxs ha
        rw [ha] at h
        dsimp only at h
        split at h
        next hlt =>
          have hlt := (lt_fin ..).mp hlt
          obtain ⟨rfl, rfl⟩ := Prod.mk.inj (Option.some.inj h)
          refine ⟨fun q hq => ?_, .inr ⟨_, List.mem_cons_self, abs_finRat s n f⟩⟩
          rcases List.mem_cons.mp hq with rfl | hq
          · exact (abs_finRat s n f).le
          · exact (hle q hq).trans hlt.le
        next hlt =>
          have hlt := (lt_fin ..).not.mp hlt
          obtain ⟨rfl, rfl⟩ := Prod.mk.inj (Option.some.inj h)
          refine ⟨fun q hq => ?_, hmem.imp_right fun ⟨q, hq, h'⟩ => ⟨q, List.mem_cons_of_mem _ hq, h'⟩⟩
          rcases List.mem_cons.mp hq with rfl | hq
          · exact (abs_finRat s n f).le.trans (not_lt.mp hlt)
          · exact hle q hq

/-! ### The scale -/

/-- The least power of two by which one number reaches another. -/
def ceilLog (m top : Nat) : Int :=
  if m * 2 ^ Nat.log2 top ≤ top * 2 ^ Nat.log2 m then (Nat.log2 m : Int) - Nat.log2 top else (Nat.log2 m : Int) - Nat.log2 top + 1

theorem ceilLog_spec {m top : Nat} (hm : m ≠ 0) (ht : top ≠ 0) :
    (top : ℚ) * 2 ^ (ceilLog m top - 1) < m ∧ (m : ℚ) ≤ top * 2 ^ ceilLog m top := by
  have hlow {n : Nat} (hn : n ≠ 0) : (2 : ℚ) ^ (Nat.log2 n : Int) ≤ n := by
    rw [zpow_natCast]; exact_mod_cast Nat.log2_self_le hn
  have hhigh (n : Nat) : (n : ℚ) < 2 ^ ((Nat.log2 n : Int) + 1) := by
    rw [← Nat.cast_succ, zpow_natCast]; exact_mod_cast Nat.lt_log2_self
  have hpos (k : Int) : (0 : ℚ) < 2 ^ k := zpow_pos two_pos k
  have hsplit (i j : Int) : (2 : ℚ) ^ (i + j) = 2 ^ i * 2 ^ j := zpow_add₀ two_ne_zero i j
  have hm1 := hlow hm
  have hm2 := hhigh m
  have ht1 := hlow ht
  have ht2 := hhigh top
  have hcmp : m * 2 ^ Nat.log2 top ≤ top * 2 ^ Nat.log2 m ↔ (m : ℚ) ≤ top * 2 ^ ((Nat.log2 m : Int) - Nat.log2 top) := by
    rw [← Nat.cast_le (α := ℚ), zpow_sub₀ two_ne_zero, ← mul_div_assoc, le_div_iff₀ (hpos _), zpow_natCast, zpow_natCast]
    push_cast
    rfl
  unfold ceilLog
  split
  next h =>
    refine ⟨?_, hcmp.mp h⟩
    calc (top : ℚ) * 2 ^ ((Nat.log2 m : Int) - Nat.log2 top - 1)
        < 2 ^ ((Nat.log2 top : Int) + 1) * 2 ^ ((Nat.log2 m : Int) - Nat.log2 top - 1) := mul_lt_mul_of_pos_right ht2 (hpos _)
      _ = 2 ^ (Nat.log2 m : Int) := by rw [← hsplit]; congr 1; ring
      _ ≤ m := hm1
  next h =>
    rw [add_sub_cancel_right]
    refine ⟨not_le.mp (hcmp.not.mp h), ?_⟩
    calc (m : ℚ) ≤ 2 ^ ((Nat.log2 m : Int) + 1) := hm2.le
      _ = 2 ^ (Nat.log2 top : Int) * 2 ^ ((Nat.log2 m : Int) - Nat.log2 top + 1) := by rw [← hsplit]; congr 1; ring
      _ ≤ top * 2 ^ ((Nat.log2 m : Int) - Nat.log2 top + 1) := mul_le_mul_of_nonneg_right ht1 (hpos _).le

theorem n4Ceil_eq (t : Fin 4) (m : Nat) (e : Int) : n4Ceil t m e = ceilLog m (n4Top t) + e + n4Unit t := rfl

/-- The exponent that holds the greatest magnitude (R65). -/
theorem n4Ceil_spec (t : Fin 4) {m : Nat} (hm : m ≠ 0) (e : Int) :
    n4TopRule t * 2 ^ (n4Ceil t m e - 1) < finRat false m e ∧ finRat false m e ≤ n4TopRule t * 2 ^ n4Ceil t m e := by
  have ht : n4Top t ≠ 0 := by revert t; decide
  obtain ⟨h1, h2⟩ := ceilLog_spec hm ht
  have hpos : (0 : ℚ) < 2 ^ e := zpow_pos two_pos e
  have hscale (k : Int) : n4TopRule t * 2 ^ (k + e + n4Unit t) = n4Top t * 2 ^ k * 2 ^ e := by
    rw [n4TopRule_eq, zpow_add₀ two_ne_zero, zpow_add₀ two_ne_zero, zpow_natCast]
    field_simp
  rw [finRat_false, n4Ceil_eq, show ceilLog m (n4Top t) + e + n4Unit t - 1 = ceilLog m (n4Top t) - 1 + e + n4Unit t by ring, hscale, hscale]
  exact ⟨mul_lt_mul_of_pos_right h1 hpos, mul_le_mul_of_nonneg_right h2 hpos.le⟩

/-- The exponent is the only one. -/
theorem n4Ceil_unique {t : Fin 4} {m : Nat} (hm : m ≠ 0) {e f : Int} (h1 : n4TopRule t * 2 ^ (f - 49) < finRat false m e)
    (h2 : finRat false m e ≤ n4TopRule t * 2 ^ (f - 48)) : f = n4Ceil t m e + 48 := by
  obtain ⟨h3, h4⟩ := n4Ceil_spec t hm e
  have htop : 0 < n4TopRule t := by fin_cases t <;> norm_num [n4TopRule]
  have hlt {i j : Int} (h : n4TopRule t * 2 ^ i < n4TopRule t * 2 ^ j) : i < j :=
    (zpow_lt_zpow_iff_right₀ one_lt_two).mp (lt_of_mul_lt_mul_left h htop.le)
  have := hlt (h1.trans_le h4)
  have := hlt (h3.trans_le h2)
  omega

/-! ### The codes -/

/-- A number times a power of two, as a fraction. -/
theorem mul_zpow_eq_div (m : Nat) (q : Int) : (m : ℚ) * 2 ^ q = ((m * 2 ^ q.toNat : Nat) : ℚ) / (2 ^ (-q).toNat : Nat) := by
  push_cast
  rcases le_total 0 q with h | h
  · rw [show (-q).toNat = 0 by omega, pow_zero, div_one, ← zpow_natCast, Int.toNat_of_nonneg h]
  · rw [show q.toNat = 0 by omega, pow_zero, mul_one, ← zpow_natCast, Int.toNat_of_nonneg (by omega), zpow_neg, div_inv_eq_mul]

/-- The code of an input in a block of some exponent (R65, R66). -/
theorem gridRule_n4Code (t : Fin 4) (ex : Nat) (neg : Bool) (m : Nat) (x : Int) (sr : Option Nat) :
    GridRule t (finRat neg m x / 2 ^ ((ex : Int) - 48)) sr (n4Code t ex (.fin neg m x) sr) := by
  have hy : finRat neg m x / 2 ^ ((ex : Int) - 48) = sgnRat neg * ((m : ℚ) * 2 ^ (x - ((ex : Int) - 48))) := by
    rw [finRat, sgnRat, zpow_sub₀ two_ne_zero x]
    ring
  rw [hy, n4Code_fin]
  refine gridRule_pick (Nat.two_pow_pos _) ?_ sr
  rw [← mul_zpow_eq_div, zpow_add₀ two_ne_zero, zpow_natCast, ← mul_assoc, mul_div_cancel_right₀ _ (by positivity)]

/-! ### The block -/

theorem quantise_none {t : Fin 4} {xs : List FVal} {sr : Option Nat} (h : n4Amax xs = none) :
    quantise t xs sr = ⟨xs.map fun _ => 0, 64 * t.val + 63, 1⟩ := by
  rw [quantise, h, Nat.mul_comm]
  rfl

theorem quantise_zero {t : Fin 4} {xs : List FVal} {sr : Option Nat} {e : Int} (h : n4Amax xs = some (0, e)) :
    quantise t xs sr = ⟨xs.map fun _ => 0, 64 * t.val, 0⟩ := by
  rw [quantise, h, Nat.mul_comm]
  rfl

/-- The exponent of a block, kept within its range (R65). -/
def n4Clamp (f : Int) : Nat := if f < 0 then 0 else if 63 < f then 63 else f.toNat

theorem n4Clamp_eq (f : Int) : (n4Clamp f : Int) = max 0 (min 63 f) := by
  unfold n4Clamp
  split_ifs <;> omega

theorem quantise_some {t : Fin 4} {xs : List FVal} {sr : Option Nat} {m : Nat} {e : Int} (h : n4Amax xs = some (m, e)) (hm : m ≠ 0) :
    quantise t xs sr = ⟨xs.zipIdx.map fun x => n4Code t (n4Clamp (n4Ceil t m e + 48)) x.1 (sr.map fun r => rotl32 r x.2),
      64 * t.val + n4Clamp (n4Ceil t m e + 48), if n4Ceil t m e + 48 < 0 then 2 else if 63 < n4Ceil t m e + 48 then 4 else 0⟩ := by
  rw [quantise, h]
  dsimp only
  rw [if_neg hm, Nat.mul_comm t.val]
  rfl

/-- CQNT quantises by R65 and R66. -/
theorem quantise_quantRule (t : Fin 4) (xs : List FVal) (sr : Option Nat) : QuantRule t xs sr (quantise t xs sr) := by
  refine ⟨fun hx => ?_, fun ps hps => ?_⟩
  · rw [quantise_none ((n4Amax_none xs).mpr hx)]
    exact ⟨rfl, rfl, rfl⟩
  · have hfin : n4Amax xs ≠ none := fun h => by
      obtain ⟨x, hx, hn⟩ := (n4Amax_none xs).mp h
      have hmem : none ∈ ps.map some := by rw [← hps, ← hn]; exact List.mem_map_of_mem hx
      simp at hmem
    obtain ⟨⟨m, e⟩, ha⟩ := Option.ne_none_iff_exists'.mp hfin
    obtain ⟨hbound, hmem⟩ := n4Amax_some hps ha
    refine ⟨fun h0 => ?_, fun a f hex hall hpos h1 h2 => ?_⟩
    · have hm : m = 0 := by
        rcases hmem with h | ⟨p, hp, h⟩
        · exact finRat_eq_zero.mp h
        · rw [h0 p hp, abs_zero] at h
          exact finRat_eq_zero.mp h.symm
      subst hm
      rw [quantise_zero ha]
      exact ⟨rfl, rfl, rfl⟩
    · obtain ⟨p, hp, rfl⟩ := hex
      have hmax : |p| = finRat false m e := by
        refine le_antisymm (hbound p hp) ?_
        rcases hmem with h | ⟨p', hp', h⟩
        · rw [h]; exact abs_nonneg p
        · exact h ▸ hall p' hp'
      have hm : m ≠ 0 := fun h => hpos.ne' (hmax.trans (finRat_eq_zero.mpr h))
      rw [hmax] at h1 h2
      obtain rfl := n4Ceil_unique hm h1 h2
      rw [quantise_some ha hm, ← n4Clamp_eq]
      refine ⟨by rw [Int.toNat_natCast], rfl, by rw [List.length_map, List.length_zipIdx], fun i y hy => ?_⟩
      have hxy : (xs[i]?).map FVal.rat? = some (some y) := by
        rw [← List.getElem?_map, hps, List.getElem?_map, hy]; rfl
      obtain ⟨x, hx, hxr⟩ := Option.map_eq_some_iff.mp hxy
      obtain ⟨s, n, g, rfl, rfl⟩ := exists_fin_of_rat? hxr
      have hcode : (xs.zipIdx.map fun x => n4Code t (n4Clamp (n4Ceil t m e + 48)) x.1 (sr.map fun r => rotl32 r x.2))[i]? =
          some (n4Code t (n4Clamp (n4Ceil t m e + 48)) (.fin s n g) (sr.map fun r => ((BitVec.ofNat 32 r).rotateLeft i).toNat)) := by
        rw [List.getElem?_map, List.getElem?_zipIdx, hx]
        simp only [Option.map_some, Nat.zero_add, rotl32_eq]
      exact ⟨_, hcode, gridRule_n4Code _ _ _ _ _ _⟩

end Sys2Proof.Machine
end

section
/-! PROOFS. CQNT on the bytes of a block (R62, R161), and what an entry does (R151, R154 to R166). -/

namespace Sys2Proof.Machine

/-! ### The inputs of CQNT (R161) -/

theorem lineSet_withCount_one (a : Word) : lineSet (withCount a 1) =
    [(a.extractLsb' 0 13).toNat, (a.extractLsb' 0 13).toNat + 32 * ((a.extractLsb' 24 8).toNat + 1)] := by
  have hput : withCount a 1 = bvput a 23 16 1 := (bvput_count a 1).symm
  have h0 : (withCount a 1).extractLsb' 0 13 = a.extractLsb' 0 13 := by
    rw [hput, extractLsb'_bvput_ne a (by omega) (by omega)]
  have h24 : (withCount a 1).extractLsb' 24 8 = a.extractLsb' 24 8 := by
    rw [hput, extractLsb'_bvput_ne a (by omega) (by omega)]
  have h16 : (withCount a 1).extractLsb' 16 8 = 1 := by
    rw [hput, extractLsb'_bvput_same a (by omega) (by omega) (by omega)]
    rfl
  rw [lineSet, h0, h24, h16]
  simp [List.range_succ]

/-- The two lines of a block as one list of 32 elements. -/
theorem two_lines {α : Type} (g : Nat → Nat → α) (l0 l1 : Nat) :
    ([l0, l1].flatMap fun x => (List.range 16).map (g x)) = (List.range 32).map fun i => g (if i < 16 then l0 else l1) (i % 16) := rfl

theorem toFin_field (b : Word) : Fin.ofNat 4 (bvf b 35 34) = (b.extractLsb' 34 2).toFin := by
  refine Fin.ext ?_
  rw [bvf_eq b (l := 2) rfl]
  exact Nat.mod_eq_of_lt (b.extractLsb' 34 2).isLt

theorem cqntBlock_eq (a b : Word) (m : Memory) : cqntBlock a b m =
    let l0 := (a.extractLsb' 0 13).toNat
    let l1 := l0 + 32 * ((a.extractLsb' 24 8).toNat + 1)
    quantise (b.extractLsb' 34 2).toFin ((List.range 32).map fun i => fp32 (cword m (if i < 16 then l0 else l1) (i % 16)))
      (if b.getLsbD 36 then some (a.extractLsb' 32 32).toNat else none) := by
  have hb : bvf b 36 36 = 1 ↔ b.getLsbD 36 = true := by
    rw [bvf_bit]
    cases b.getLsbD 36 <;> simp
  rw [cqntBlock, setLines_eq, bvput_count]
  dsimp only
  rw [show BitVec.ofNat 8 1 = 1 from rfl, lineSet_withCount_one, two_lines fun x i => fp32 (cword m x i), toFin_field,
    bvf_eq a (l := 32) rfl, if_congr hb rfl rfl]

/-! ### The data bytes of a block (R62) -/

theorem n4Bytes_length (l : List Nat) : (n4Bytes l).length = (l.length + 1) / 2 := by
  induction l using n4Bytes.induct with
  | case1 a b l ih => rw [n4Bytes, List.length_cons, ih, List.length_cons, List.length_cons]; omega
  | case2 a => simp [n4Bytes]
  | case3 => rfl

theorem n4Bytes_getD (l : List Nat) {i : Nat} (h : i < (n4Bytes l).length) :
    (n4Bytes l).getD i 0 = BitVec.ofNat 8 (l.getD (2 * i) 0 + 16 * l.getD (2 * i + 1) 0) := by
  induction l using n4Bytes.induct generalizing i with
  | case1 a b l ih =>
    cases i with
    | zero => rfl
    | succ i => exact ih (by simpa [n4Bytes] using h)
  | case2 a =>
    obtain rfl : i = 0 := by simpa [n4Bytes] using h
    rfl
  | case3 => exact absurd h (Nat.not_lt_zero _)

theorem quantise_length (t : Fin 4) (xs : List FVal) (sr : Option Nat) : (quantise t xs sr).codes.length = xs.length := by
  unfold quantise
  split
  · exact List.length_map ..
  · split
    · exact List.length_map ..
    · exact (List.length_map ..).trans List.length_zipIdx

/-! ### CQNT (R161) -/

theorem entryEffect_cqnt {e : BankEntry} {x : Lane} (hl : e.lanes = [x]) (h : e.body = .cqnt) (m : Memory) :
    entryEffect e m = (cqntRun x.x x.y m, [], (cqntBlock x.x x.y m).flags) := by
  unfold entryEffect
  simp only [h, hl, List.headD_cons]

theorem memByte_cqntRun (a b : Word) (m : Memory) (k : Nat) :
    let q := cqntBlock a b m
    let data := 64 * (b.extractLsb' 0 13).toNat + 16 * (b.extractLsb' 13 2).toNat
    memByte (cqntRun a b m) k =
      if k = 64 * (b.extractLsb' 15 13).toNat + (b.extractLsb' 28 6).toNat then BitVec.ofNat 8 q.scale
      else if data ≤ k ∧ k < data + 16 then BitVec.ofNat 8 (q.codes.getD (2 * (k - data)) 0 + 16 * q.codes.getD (2 * (k - data) + 1) 0)
      else memByte m k := by
  dsimp only
  have hlen : (n4Bytes (cqntBlock a b m).codes).length = 16 := by
    rw [n4Bytes_length, cqntBlock_eq, quantise_length, List.length_map, List.length_range]
  rw [cqntRun, memByte_memSet, memByte_memPutBytes, hlen, bvf_eq b (l := 13) rfl,
    bvf_eq b (l := 6) rfl, bvf_eq b (l := 13) rfl, bvf_eq b (l := 2) rfl]
  refine ite_congr rfl (fun _ => rfl) fun _ => ite_congr rfl (fun hk => ?_) fun _ => rfl
  exact n4Bytes_getD _ (by omega)

/-- Settles O36: the loads, stores and atomics by the bytes of their lanes; the crucible commands element by element, over lines that are
distinct; CQNT by the grid of its type. -/
theorem scratchpadEffects : Obligations.ScratchpadEffects := by
  unfold Obligations.ScratchpadEffects
  refine ⟨fun e m => ?_, fun op long s t m l l2 rest => cvecRun_cons op long s t m l l2 rest, fun e x m hl => ?_⟩
  · obtain ⟨hload, hwide, hstore⟩ := entryEffect_bytes e m
    exact ⟨hload, hwide, hstore, fun op h => atomic_lanes h m⟩
  · refine ⟨fun op h => entryEffect_cvec_short hl h m, fun op h => entryEffect_cvec_long hl h m, fun op h => entryEffect_cred hl h m,
      fun h => entryEffect_csmx hl h m, fun src dst h hs hd => entryEffect_ccvt hl h hs hd m, fun h => ?_⟩
    rw [entryEffect_cqnt hl h]
    dsimp only
    rw [← cqntBlock_eq]
    exact ⟨rfl, rfl, by rw [cqntBlock_eq]; exact quantise_quantRule _ _ _, memByte_cqntRun x.x x.y m⟩

end Sys2Proof.Machine
end
